-- ==== Sys2Proof/Word.lean ====
section
/-! DEFINITION. The word types of the machine and the fields that several instructions share.
Registers, instruction addresses and encoded words are bit vectors (spec/02, R34, R44, R54). -/

namespace Sys2Proof

/-- A general register, R11: 64 bits. -/
abbrev Word := BitVec 64

/-- A control word or an operation word, R34 and R44: 32 bits. -/
abbrev Word32 := BitVec 32

/-- A byte of a store or a memory, R5. -/
abbrev Byte := BitVec 8

/-- The number of a general register s0–s31, R35. -/
abbrev SReg := BitVec 5

/-- The number of a guard register q0–q7, R35. -/
abbrev QReg := BitVec 3

/-- The sync field of majors 0x1E–0x23, R36. -/
structure Sync where
  push : Bool
  pop  : Bool
  fifo : BitVec 2
  deriving DecidableEq, Repr

/-- The fields of an operation word besides `op`, R44: predicate mode, sources, port mask, colour, tag, variant. -/
structure OpWord where
  pm  : BitVec 3
  sa  : BitVec 4
  sb  : BitVec 4
  dst : BitVec 4
  col : BitVec 5
  tg  : BitVec 2
  sub : BitVec 3
  deriving DecidableEq, Repr

/-- The fields of a matrix control token besides `OPC`, R54. -/
structure MxWord where
  fmt  : BitVec 4
  boff : BitVec 12
  row0 : BitVec 6
  col0 : BitVec 7
  km1  : BitVec 12
  nm1  : BitVec 7
  mm1  : BitVec 6
  acc  : Bool
  deriving DecidableEq, Repr

/-- What a memory-home step acts on: request `id` of an element, or the `n`th store in flight (R276). -/
inductive MemRef where
  | element (gid id : Nat)
  | store (n : Nat)
  deriving DecidableEq, Repr

/-- The level at which containment acts, R363. -/
inductive Level where
  | sheet | tile | quad | launch
  deriving DecidableEq, Repr

/-- The memories that carry per-sector marks and error codes, R377 and R378. -/
inductive Space where
  | hbm | far | host
  | peer (m : Nat)
  | localMem (gid : Nat)
  | overlay (tile : Nat)
  | dataStore (tile : Nat)
  | instrStore (tile : Nat)
  deriving DecidableEq, Repr

/-- Who asked for an emulated atomic, R379: a Surveyor task, or a request of an element. -/
inductive Requester where
  | task (tile tid : Nat)
  | element (gid id : Nat)
  deriving DecidableEq, Repr

/-- A spawn packet that arrives, R388 and R389: one that this module has on its way, or the 64 bytes of one that module `sender` sent to the
device address `va`, which its page places at `pa` here; the job word lies at `job` on the sender. -/
inductive Spawn where
  | here (n : Nat)
  | sent (sender raw va pa job : Nat)
  deriving DecidableEq, Repr

/-- A tail written to a launch queue, by the host over its link or by another module's QTAIL over a plane, R384–R387. -/
inductive TailWrite where
  | host (tail : Nat)
  | module (tail : Nat)
  deriving DecidableEq, Repr

end Sys2Proof
end

