-- ==== Sys2Proof/Syntax.lean ====
section
/-! DEFINITION. Syntax: one constructor for every row of spec/opcode_table.json.
The first 168 mnemonics (with the forms the table lists apart) are control words (R38–R41), the next 120 operation
words of the fabric (R47), the next 32 matrix control tokens (R55); the rest are the steps of the engines, the
controllers and the host that spec/95_what_each_step_holds.md lists, named by whom they act on. -/

namespace Sys2Proof

/-- One step of the device. Control words act in the running task of the focused Surveyor, operation words in the
focused slot, matrix tokens at the focused tile's node; an event names what it acts on. -/
inductive Instr where
  /-- ADD, R59: Adds two general registers modulo 2^64. -/
  | add (d a b : SReg)
  /-- SUB, R59: Subtracts register b from register a modulo 2^64. -/
  | sub (d a b : SReg)
  /-- MUL, R59: Writes the low 64 bits of the product of two registers. -/
  | mul (d a b : SReg)
  /-- MULH, R59: Writes the high 64 bits of the unsigned product. -/
  | mulh (d a b : SReg)
  /-- MULHS, R59: Writes the high 64 bits of the signed product. -/
  | mulhs (d a b : SReg)
  /-- DIV, R59: Unsigned division, all ones when dividing by zero. -/
  | div (d a b : SReg)
  /-- DIVS, R59: Signed division truncating toward zero, with defined results for zero and overflow. -/
  | divs (d a b : SReg)
  /-- REM, R59: Unsigned remainder, a when dividing by zero. -/
  | rem (d a b : SReg)
  /-- REMS, R59: Signed remainder with defined results for zero and overflow. -/
  | rems (d a b : SReg)
  /-- AND, R59: Bitwise and of two registers. -/
  | and (d a b : SReg)
  /-- OR, R59: Bitwise or of two registers. -/
  | or (d a b : SReg)
  /-- XOR, R59: Bitwise exclusive or of two registers. -/
  | xor (d a b : SReg)
  /-- ANDN, R59: a and not b. -/
  | andn (d a b : SReg)
  /-- ORN, R59: a or not b. -/
  | orn (d a b : SReg)
  /-- SHL, R59: Shifts a left by b mod 64. -/
  | shl (d a b : SReg)
  /-- SHR, R59: Logical right shift by b mod 64. -/
  | shr (d a b : SReg)
  /-- SHA, R59: Arithmetic right shift by b mod 64. -/
  | sha (d a b : SReg)
  /-- ROL, R59: Rotates a left by b mod 64. -/
  | rol (d a b : SReg)
  /-- ROR, R59: Rotates a right by b mod 64. -/
  | ror (d a b : SReg)
  /-- MIN, R59: Unsigned minimum. -/
  | min (d a b : SReg)
  /-- MAX, R59: Unsigned maximum. -/
  | max (d a b : SReg)
  /-- MINS, R59: Signed minimum. -/
  | mins (d a b : SReg)
  /-- MAXS, R59: Signed maximum. -/
  | maxs (d a b : SReg)
  /-- CLZ, R59: Counts leading zero bits of a. -/
  | clz (d a : SReg)
  /-- CTZ, R59: Counts trailing zero bits of a. -/
  | ctz (d a : SReg)
  /-- POPC, R59: Counts one bits of a. -/
  | popc (d a : SReg)
  /-- BREV, R59: Reverses the bits of a. -/
  | brev (d a : SReg)
  /-- BSWAP, R59: Reverses the bytes of a. -/
  | bswap (d a : SReg)
  /-- ADDW, R59: 32-bit add, sign-extended. -/
  | addw (d a b : SReg)
  /-- SUBW, R59: 32-bit subtract, sign-extended. -/
  | subw (d a b : SReg)
  /-- MULW, R59: 32-bit multiply, sign-extended. -/
  | mulw (d a b : SReg)
  /-- SHLW, R59: 32-bit left shift, sign-extended. -/
  | shlw (d a b : SReg)
  /-- ADDI, R60: Adds a sign-extended 12-bit immediate. -/
  | addi (d a : SReg) (imm : BitVec 12)
  /-- ANDI, R60: Ands with a sign-extended immediate. -/
  | andi (d a : SReg) (imm : BitVec 12)
  /-- ORI, R60: Ors with a sign-extended immediate. -/
  | ori (d a : SReg) (imm : BitVec 12)
  /-- XORI, R60: Exclusive-ors with a sign-extended immediate. -/
  | xori (d a : SReg) (imm : BitVec 12)
  /-- SHLI, R60: Left shift by a 6-bit immediate. -/
  | shli (d a : SReg) (imm : BitVec 6)
  /-- SHRI, R60: Logical right shift by a 6-bit immediate. -/
  | shri (d a : SReg) (imm : BitVec 6)
  /-- SHAI, R60: Arithmetic right shift by a 6-bit immediate. -/
  | shai (d a : SReg) (imm : BitVec 6)
  /-- MULI, R60: Multiplies by a sign-extended immediate. -/
  | muli (d a : SReg) (imm : BitVec 12)
  /-- MINI, R60: Signed minimum with an immediate. -/
  | mini (d a : SReg) (imm : BitVec 12)
  /-- MAXI, R60: Signed maximum with an immediate. -/
  | maxi (d a : SReg) (imm : BitVec 12)
  /-- LUI, R61: Loads a 17-bit immediate into bits 28:12, sign-extended. -/
  | lui (d : SReg) (imm : BitVec 17)
  /-- ADDPC, R61: Forms a pc-relative instruction address. -/
  | addpc (d : SReg) (imm : BitVec 17)
  /-- CEQ, R62: Sets a guard when a equals b. -/
  | ceq (q : QReg) (a b : SReg)
  /-- CNE, R62: Sets a guard when a differs from b. -/
  | cne (q : QReg) (a b : SReg)
  /-- CLT, R62: Sets a guard on unsigned less-than. -/
  | clt (q : QReg) (a b : SReg)
  /-- CLE, R62: Sets a guard on unsigned less-or-equal. -/
  | cle (q : QReg) (a b : SReg)
  /-- CLTS, R62: Sets a guard on signed less-than. -/
  | clts (q : QReg) (a b : SReg)
  /-- CLES, R62: Sets a guard on signed less-or-equal. -/
  | cles (q : QReg) (a b : SReg)
  /-- CBIT, R62: Sets a guard to bit b mod 64 of a. -/
  | cbit (q : QReg) (a b : SReg)
  /-- CZ, R62: Sets a guard when a is zero. -/
  | cz (q : QReg) (a : SReg)
  /-- QAND, R63: Guard and. -/
  | qand (d a b : QReg)
  /-- QOR, R63: Guard or. -/
  | qor (d a b : QReg)
  /-- QXOR, R63: Guard exclusive or. -/
  | qxor (d a b : QReg)
  /-- QNOT, R63: Guard negation. -/
  | qnot (d a : QReg)
  /-- QSET, R63: Sets a guard to a literal bit. -/
  | qset (d : QReg) (b : Bool)
  /-- QMOV, R63: Copies one guard to another. -/
  | qmov (d a : QReg)
  /-- SEL, R64: Guarded register copy. -/
  | sel (d a : SReg) (g : BitVec 4)
  /-- QRD, R64: Reads all guard bits into a register. -/
  | qrd (d : SReg)
  /-- QWR, R64: Writes guards q1-q7 from a register. -/
  | qwr (a : SReg)
  /-- LDZ_B, R65: Zero-extending byte load from the data store. -/
  | ldzB (d a : SReg) (off : BitVec 10)
  /-- LDZ_H, R65: Zero-extending halfword load from the data store. -/
  | ldzH (d a : SReg) (off : BitVec 10)
  /-- LDZ_W, R65: Zero-extending word load from the data store. -/
  | ldzW (d a : SReg) (off : BitVec 10)
  /-- LDZ_D, R65: Doubleword load from the data store. -/
  | ldzD (d a : SReg) (off : BitVec 10)
  /-- LDS_B, R65: Sign-extending byte load from the data store. -/
  | ldsB (d a : SReg) (off : BitVec 10)
  /-- LDS_H, R65: Sign-extending halfword load from the data store. -/
  | ldsH (d a : SReg) (off : BitVec 10)
  /-- LDS_W, R65: Sign-extending word load from the data store. -/
  | ldsW (d a : SReg) (off : BitVec 10)
  /-- ST_B, R65: Guarded byte store to the data store. -/
  | stB (v a : SReg) (off : BitVec 10) (g : BitVec 4)
  /-- ST_H, R65: Guarded halfword store to the data store. -/
  | stH (v a : SReg) (off : BitVec 10) (g : BitVec 4)
  /-- ST_W, R65: Guarded word store to the data store. -/
  | stW (v a : SReg) (off : BitVec 10) (g : BitVec 4)
  /-- ST_D, R65: Guarded doubleword store to the data store. -/
  | stD (v a : SReg) (off : BitVec 10) (g : BitVec 4)
  /-- LDG_B, R66: Byte load from device memory through translation. -/
  | ldgB (d a : SReg) (off : BitVec 10)
  /-- LDG_H, R66: Halfword load from device memory. -/
  | ldgH (d a : SReg) (off : BitVec 10)
  /-- LDG_W, R66: Word load from device memory. -/
  | ldgW (d a : SReg) (off : BitVec 10)
  /-- LDG_D, R66: Doubleword load from device memory. -/
  | ldgD (d a : SReg) (off : BitVec 10)
  /-- STG_B, R66: Guarded byte store to device memory. -/
  | stgB (v a : SReg) (off : BitVec 10) (g : BitVec 4)
  /-- STG_H, R66: Guarded halfword store to device memory. -/
  | stgH (v a : SReg) (off : BitVec 10) (g : BitVec 4)
  /-- STG_W, R66: Guarded word store to device memory. -/
  | stgW (v a : SReg) (off : BitVec 10) (g : BitVec 4)
  /-- STG_D, R66: Guarded doubleword store to device memory. -/
  | stgD (v a : SReg) (off : BitVec 10) (g : BitVec 4)
  /-- AADD, R69: Atomic add on a device word, returning the old value. -/
  | aadd (d a b : SReg) (g : BitVec 4)
  /-- ASWP, R69: Atomic swap. -/
  | aswp (d a b : SReg) (g : BitVec 4)
  /-- ACAS, R69: Atomic compare-and-swap against d. -/
  | acas (d a b : SReg) (g : BitVec 4)
  /-- AMIN, R69: Atomic signed minimum. -/
  | amin (d a b : SReg) (g : BitVec 4)
  /-- AMAX, R69: Atomic signed maximum. -/
  | amax (d a b : SReg) (g : BitVec 4)
  /-- AAND, R69: Atomic and. -/
  | aand (d a b : SReg) (g : BitVec 4)
  /-- AOR, R69: Atomic or. -/
  | aor (d a b : SReg) (g : BitVec 4)
  /-- AXOR, R69: Atomic exclusive or. -/
  | axor (d a b : SReg) (g : BitVec 4)
  /-- WAITV, R70: Compares a device word and, if equal, arms a monitor and waits. -/
  | waitv (d a b : SReg) (g : BitVec 4)
  /-- WAKE, R71: Releases up to b armed monitors on a word. -/
  | wake (d a b : SReg) (g : BitVec 4)
  /-- BR, R72: Guarded pc-relative branch. -/
  | br (off : BitVec 22) (g : BitVec 4)
  /-- CALL, R72: Guarded call linking into s31. -/
  | call (off : BitVec 22) (g : BitVec 4)
  /-- JR, R73: Jumps to a marked legal target in a register. -/
  | jr (a : SReg) (g : BitVec 4)
  /-- CALLT, R75: Calls through a function-table entry after a signature check. -/
  | callt (d a b : SReg) (g : BitVec 4)
  /-- RET, R74: Returns to an address that follows a CALL or CALLT. -/
  | ret (a : SReg) (g : BitVec 4)
  /-- TWAIT, R174: Returns the lowest bound colour with a queued beat or waits. -/
  | twait (d : SReg)
  /-- TBIND, R174: Creates a waiting task bound to a colour. -/
  | tbind (d a b : SReg)
  /-- TYIELD, R174: Moves the running task to READY. -/
  | tyield
  /-- TSPAWN, R174: Creates an unbound READY task, optionally stealable. -/
  | tspawn (d a b : SReg)
  /-- TEXIT, R174: Ends the task and releases its colours and resources. -/
  | texit
  /-- CHRD, R176: Reads, and optionally removes, the head beat of a colour channel. -/
  | chrd (d a b : SReg)
  /-- CHWR, R177: Stages a data word and optionally sends a beat down the tile bus. -/
  | chwr (a b : SReg)
  /-- TRIG, R178: Fences at device scope and triggers the tile for its launch. -/
  | trig
  /-- BARQ, R178: Fences and arrives at a quad or launch barrier, then waits. -/
  | barq (a : SReg)
  /-- OPLD, R179: Loads checked slot records into an element. -/
  | opld (d a b : SReg)
  /-- SWLD, R180: Loads checked switch words into an element. -/
  | swld (d a b : SReg)
  /-- SHPLACE, R181: Puts a context of a sheet in force. -/
  | shplace (d a b : SReg)
  /-- SHFREE, R181: Waits for a sheet context to drain, then takes it out of force. -/
  | shfree (d a b : SReg)
  /-- CFGLOAD, R182: Loads a sheet-set image from device memory into a context. -/
  | cfgload (d a b : SReg)
  /-- CTXPRI, R183: Sets the priority of a context. -/
  | ctxpri (a b : SReg)
  /-- EDGEDEPTH, R184: Changes an edge buffer's depth once it is empty. -/
  | edgedepth (d a b : SReg)
  /-- TVSET, R320: Writes a traverse register from the data store. -/
  | tvset (d a b : SReg) (y : Sync)
  /-- TVCLR, R320: Invalidates selected traverse registers. -/
  | tvclr (a : SReg) (y : Sync)
  /-- SBIND, R321: Binds a traverse to an element as an in- or out-stream. -/
  | sbind (d a b : SReg) (y : Sync)
  /-- SBAR, R323: Marks a stream phase boundary. -/
  | sbar (y : Sync)
  /-- SWAIT, R323: Waits for one or all streams and returns status. -/
  | swait (d a : SReg) (y : Sync)
  /-- SCAN, R323: Cancels a stream. -/
  | scan (a : SReg) (y : Sync)
  /-- CPY, R325: Posts a plain memory copy between two traverses. -/
  | cpy (d a : SReg) (y : Sync)
  /-- CPYV, R325: Posts a versioned copy of 64-byte units. -/
  | cpyv (d a b : SReg) (y : Sync)
  /-- CPYF, R325: Posts a copy that sets full-empty bits full. -/
  | cpyf (d a : SReg) (y : Sync)
  /-- CPYST, R327: Reads a copy ticket's status and optionally frees it. -/
  | cpyst (d a b : SReg) (y : Sync)
  /-- CPYSYNC, R327: Waits for one or all copy tickets and frees them. -/
  | cpysync (d a : SReg) (y : Sync)
  /-- DDVAR, R349: Returns the literal diagram of a variable. -/
  | ddvar (d a : SReg) (y : Sync)
  /-- DDAPPLY, R350: Applies a binary Boolean operator to two diagrams. -/
  | ddapply (d a b : SReg) (y : Sync)
  /-- DDITE, R350: If-then-else of three diagrams. -/
  | ddite (d a b : SReg) (y : Sync)
  /-- DDREST, R350: Restricts a diagram by a cube. -/
  | ddrest (d a b : SReg) (y : Sync)
  /-- DDEX, R350: Existentially quantifies a diagram over a cube. -/
  | ddex (d a b : SReg) (y : Sync)
  /-- DDWCNT, R351: Counts exact or weighted assignments of a diagram. -/
  | ddwcnt (d a b : SReg) (y : Sync)
  /-- DDEVAL, R352: Evaluates a diagram at an assignment bitmap. -/
  | ddeval (d a b : SReg) (y : Sync)
  /-- DDREF, R353: Adds an external reference to a node. -/
  | ddref (d a : SReg) (y : Sync)
  /-- DDDEREF, R353: Removes an external reference from a node. -/
  | ddderef (d a : SReg) (y : Sync)
  /-- DDCOLL_COLLECT, R353: DDCOLL form 0: collects dead nodes. -/
  | ddcollCollect (d a b : SReg) (y : Sync)
  /-- DDCOLL_RESET, R353: DDCOLL form 1: frees every internal node and clears FAIL. -/
  | ddcollReset (d a b : SReg) (y : Sync)
  /-- DDCOLL_THRESHOLD, R353: DDCOLL form 2: sets the gazetteer threshold GZTH. -/
  | ddcollThreshold (d a b : SReg) (y : Sync)
  /-- DDORD, R353: Loads a variable order into an empty engine. -/
  | ddord (d a b : SReg) (y : Sync)
  /-- DDSWAP, R353: Swaps two adjacent levels, rewriting nodes in place. -/
  | ddswap (d a b : SReg) (y : Sync)
  /-- DDEXP, R354: Exports a diagram as a bitmap tile. -/
  | ddexp (d a b : SReg) (y : Sync)
  /-- DDIMP, R354: Imports a bitmap tile as a diagram. -/
  | ddimp (d a b : SReg) (y : Sync)
  /-- DDSTAT, R356: Reads engine or node statistics. -/
  | ddstat (d a b : SReg) (y : Sync)
  /-- EGPOST, R333: Posts a stamped record to an egress session. -/
  | egpost (d a : SReg) (y : Sync)
  /-- EGREL, R334: Releases records of a session up to a stamp. -/
  | egrel (d a b : SReg) (y : Sync)
  /-- EGREJ, R334: Rejects the record of a stamp. -/
  | egrej (d a b : SReg) (y : Sync)
  /-- EGSTAT, R334: Reads session status, optionally waiting for a record. -/
  | egstat (d a b : SReg) (y : Sync)
  /-- FDECL_DESCRIPTOR, R268: FDECL descriptor form: declares a fold descriptor. -/
  | fdeclDescriptor (d a b : SReg) (y : Sync)
  /-- FDECL_REGION, R268: FDECL region form: sets the device-scope region register. -/
  | fdeclRegion (d a b : SReg) (y : Sync)
  /-- FGROW, R269: Grows a fold to a new layout, copying held slots. -/
  | fgrow (d a : SReg) (y : Sync)
  /-- FCHECK, R270: Checks a fold against a box and lifetime. -/
  | fcheck (d a : SReg) (y : Sync)
  /-- FDROP, R271: Drops a fold descriptor. -/
  | fdrop (d a : SReg) (y : Sync)
  /-- FSTAT, R272: Reads descriptor or slot header state. -/
  | fstat (d a b : SReg) (y : Sync)
  /-- COLL, R391: Posts a collective command. -/
  | coll (d a : SReg) (y : Sync)
  /-- COLST, R394: Reads a collective ticket's status and optionally frees it. -/
  | colst (d a b : SReg) (y : Sync)
  /-- COLAB, R394: Aborts a collective. -/
  | colab (d a b : SReg) (y : Sync)
  /-- QTAIL, R387: Fences at system scope and writes a launch-queue tail, possibly remote. -/
  | qtail (d a b : SReg)
  /-- SPAWNAT, R388: Sends a task or update packet to the owner of an address. -/
  | spawnat (d a b : SReg)
  /-- CANCEL_JOB, R390: CANCEL form 0: enters a job in the cancel tables. -/
  | cancelJob (d a : SReg)
  /-- CANCEL_LAUNCH, R390: CANCEL form 1: kills a launch at the launch level. -/
  | cancelLaunch (d a : SReg)
  /-- CANCEL_CLEAR, R390: CANCEL form 2: removes a job from the cancel tables. -/
  | cancelClear (d a : SReg)
  /-- DSETUP_NEW, R308: DSETUP form 0: activates a datum domain and initialises its cells. -/
  | dsetupNew (d a b : SReg)
  /-- DSETUP_ADD, R308: DSETUP form 1: adds cells to an active domain. -/
  | dsetupAdd (d a b : SReg)
  /-- DWMARK_POST, R309: DWMARK form 0: posts a frontier for a producer. -/
  | dwmarkPost (d a b : SReg)
  /-- DWMARK_RELEASE, R309: DWMARK form 1: releases a finished domain. -/
  | dwmarkRelease (d a b : SReg)
  /-- DSTAT, R310: Reads domain or cell state. -/
  | dstat (d a b : SReg)
  /-- TRAP, R77: Raises cause 0x08 with a register value. -/
  | trap (a : SReg)
  /-- TRET, R77: Returns from a trap handler to EPC. -/
  | tret
  /-- CSRR, R76: Reads a CSR. -/
  | csrr (d : SReg) (csr : BitVec 10)
  /-- CSRW, R76: Writes a CSR field by field. -/
  | csrw (d : SReg) (csr : BitVec 10)
  /-- CSRS, R76: Sets CSR bits. -/
  | csrs (d : SReg) (csr : BitVec 10)
  /-- CSRC, R76: Clears CSR bits. -/
  | csrc (d : SReg) (csr : BitVec 10)
  /-- FENCE, R77: Retires once earlier device accesses are complete at the chosen scope. -/
  | fence (scope : BitVec 5)
  /-- HALT, R77: Stops issue on the Surveyor. -/
  | halt
  /-- BRKPT, R77: Raises cause 0x09. -/
  | brkpt
  /-- IDLE, R77: Waits until the next event reaches the Surveyor. -/
  | idle
  /-- CTXSAVE, R373: Asks the context-save engine to save a context. -/
  | ctxsave (d a b : SReg)
  /-- CTXREST, R375: Asks the context-save engine to restore a context. -/
  | ctxrest (d a b : SReg)
  /-- TLBINV, R77: Fences and invalidates cached translations on all dies. -/
  | tlbinv (a b : SReg)
  /-- ELEM_ADD, R156: Lane-wise integer add. -/
  | elemAdd (w : OpWord)
  /-- ELEM_SUB, R156: Lane-wise integer subtract. -/
  | elemSub (w : OpWord)
  /-- ELEM_MUL, R156: Lane-wise integer multiply. -/
  | elemMul (w : OpWord)
  /-- MAC, R154: A·B + C with C from the slot's latch. -/
  | mac (w : OpWord)
  /-- ELEM_MIN, R156: Lane-wise integer minimum. -/
  | elemMin (w : OpWord)
  /-- ELEM_MAX, R156: Lane-wise integer maximum. -/
  | elemMax (w : OpWord)
  /-- ABS, R156: Lane-wise absolute value. -/
  | abs (w : OpWord)
  /-- NEG, R156: Lane-wise negation. -/
  | neg (w : OpWord)
  /-- ELEM_AND, R156: Lane-wise and. -/
  | elemAnd (w : OpWord)
  /-- ELEM_OR, R156: Lane-wise or. -/
  | elemOr (w : OpWord)
  /-- ELEM_XOR, R156: Lane-wise exclusive or. -/
  | elemXor (w : OpWord)
  /-- NOT, R156: Lane-wise complement. -/
  | not (w : OpWord)
  /-- ELEM_SHL, R156: Lane-wise left shift. -/
  | elemShl (w : OpWord)
  /-- ELEM_SHR, R156: Lane-wise logical right shift. -/
  | elemShr (w : OpWord)
  /-- ELEM_SHA, R156: Lane-wise arithmetic right shift. -/
  | elemSha (w : OpWord)
  /-- CLAMP, R156: Lane-wise clamp to a magnitude. -/
  | clamp (w : OpWord)
  /-- FADD, R157: Floating add rounded once in the selected mode. -/
  | fadd (w : OpWord)
  /-- FSUB, R157: Floating subtract. -/
  | fsub (w : OpWord)
  /-- FMUL, R157: Floating multiply. -/
  | fmul (w : OpWord)
  /-- FMA, R157: Fused multiply-add with C from the latch. -/
  | fma (w : OpWord)
  /-- FMIN, R157: Floating minimum. -/
  | fmin (w : OpWord)
  /-- FMAX, R157: Floating maximum. -/
  | fmax (w : OpWord)
  /-- FABS, R157: Floating absolute value. -/
  | fabs (w : OpWord)
  /-- FNEG, R157: Floating negation. -/
  | fneg (w : OpWord)
  /-- FDIV, R157: Floating divide. -/
  | fdiv (w : OpWord)
  /-- FSQRT, R157: Floating square root. -/
  | fsqrt (w : OpWord)
  /-- FRCP, R157: Floating reciprocal within 1 ulp. -/
  | frcp (w : OpWord)
  /-- FRSQ, R157: Floating reciprocal square root. -/
  | frsq (w : OpWord)
  /-- FEXP, R157: Floating exponential. -/
  | fexp (w : OpWord)
  /-- FLOG, R157: Floating natural logarithm. -/
  | flog (w : OpWord)
  /-- FTANH, R157: Floating hyperbolic tangent. -/
  | ftanh (w : OpWord)
  /-- FSIG, R157: Floating sigmoid. -/
  | fsig (w : OpWord)
  /-- CVT, R158: Converts lanes to the result format. -/
  | cvt (w : OpWord)
  /-- CVTR, R158: Converts A scaled by 2^k. -/
  | cvtr (w : OpWord)
  /-- PACK, R158: Concatenates the lanes of A and B. -/
  | pack (w : OpWord)
  /-- UNPACK, R158: Extracts lanes of A from an offset. -/
  | unpack (w : OpWord)
  /-- SCALE, R158: Multiplies A by its latched scale or by B. -/
  | scale (w : OpWord)
  /-- QNT, R158: Quantises A by the result colour's E8M0 scale. -/
  | qnt (w : OpWord)
  /-- CMPEQ, R159: Lane-wise equality compare setting PRD. -/
  | cmpeq (w : OpWord)
  /-- CMPNE, R159: Lane-wise inequality compare. -/
  | cmpne (w : OpWord)
  /-- CMPLT, R159: Lane-wise less-than compare. -/
  | cmplt (w : OpWord)
  /-- CMPLE, R159: Lane-wise less-or-equal compare. -/
  | cmple (w : OpWord)
  /-- STEER, R160: Routes A by B's PRD to N/E or S/W ports. -/
  | steer (w : OpWord)
  /-- MERGE, R160: Emits whichever source holds a token. -/
  | merge (w : OpWord)
  /-- MERGEO, R160: Emits alternately from A and B. -/
  | mergeo (w : OpWord)
  /-- GATE, R160: Emits A once B has arrived. -/
  | gate (w : OpWord)
  /-- SELP, R160: Emits A when A.PRD=1, else B. -/
  | selp (w : OpWord)
  /-- NULLGEN, R160: Emits a null token with A's tag. -/
  | nullgen (w : OpWord)
  /-- TAGINC, R165: Adds B_0 to ITR. -/
  | taginc (w : OpWord)
  /-- TAGSET, R165: Sets ITR from B_0. -/
  | tagset (w : OpWord)
  /-- TAGGET, R165: Moves ITR, FRM and THR into lanes. -/
  | tagget (w : OpWord)
  /-- TAGCLR, R165: Clears ITR and THR. -/
  | tagclr (w : OpWord)
  /-- REORD, R165: Emits tokens of a tag in ascending THR. -/
  | reord (w : OpWord)
  /-- CTXALLOC, R166: Requests and grants a width for a colour. -/
  | ctxalloc (w : OpWord)
  /-- COLPACK, R166: Joins two colours into one grant. -/
  | colpack (w : OpWord)
  /-- COLUNPK, R166: Undoes a colour join. -/
  | colunpk (w : OpWord)
  /-- FRAMEALLOC, R167: Creates a child frame in the tag store. -/
  | framealloc (w : OpWord)
  /-- FRAMEFREE, R167: Waits for a frame to empty, then frees it. -/
  | framefree (w : OpWord)
  /-- SPAWN, R167: Computes a child frame identifier without taking an entry. -/
  | spawn (w : OpWord)
  /-- STAMP, R165: Packs a name into a stamp. -/
  | stamp (w : OpWord)
  /-- LOOPB, R168: Starts a configured loop on a start token. -/
  | loopb (w : OpWord)
  /-- LOOPE, R168: Consumes loop exit tokens and emits at completion. -/
  | loope (w : OpWord)
  /-- LOOPT, R168: Data-dependent loop continuation by PRD. -/
  | loopt (w : OpWord)
  /-- LOOPX, R168: Stops a loop from issuing further iterations. -/
  | loopx (w : OpWord)
  /-- LOOPI, R168: Emits the lane indices of an iteration. -/
  | loopi (w : OpWord)
  /-- RSUM, R162: Sums a tag group. -/
  | rsum (w : OpWord)
  /-- RMAX, R162: Maximum of a tag group. -/
  | rmax (w : OpWord)
  /-- RMIN, R162: Minimum of a tag group. -/
  | rmin (w : OpWord)
  /-- RAND, R162: And of a tag group. -/
  | rand (w : OpWord)
  /-- ELEM_ROR, R162: Or-reduction of a tag group. -/
  | elemRor (w : OpWord)
  /-- RXOR, R162: Exclusive-or reduction of a tag group. -/
  | rxor (w : OpWord)
  /-- ELEM_RDOT, R162: Dot product over a tag group in the fixed order. -/
  | elemRdot (w : OpWord)
  /-- RCNT, R162: Counts non-zero lanes of a tag group. -/
  | rcnt (w : OpWord)
  /-- SHUF, R163: Lane shuffle by B. -/
  | shuf (w : OpWord)
  /-- BCAST, R163: Broadcasts one lane of A. -/
  | bcast (w : OpWord)
  /-- ROTL, R163: Rotates lanes of A. -/
  | rotl (w : OpWord)
  /-- LSEL, R163: Selects lanes of A by a mask. -/
  | lsel (w : OpWord)
  /-- SCANADD, R163: Prefix sum across lanes. -/
  | scanadd (w : OpWord)
  /-- TOPK, R164: Orders lanes by value descending. -/
  | topk (w : OpWord)
  /-- NLD, R254: Retiring read of a named slot. -/
  | nld (w : OpWord)
  /-- NST, R254: Write of a named slot. -/
  | nst (w : OpWord)
  /-- NLDT, R254: Non-retiring read of a named slot. -/
  | nldt (w : OpWord)
  /-- ALD, R256: Ordered address load in an alias chain. -/
  | ald (w : OpWord)
  /-- AST, R256: Ordered address store in an alias chain. -/
  | ast (w : OpWord)
  /-- ALDR, R257: Ordered load whose reply goes to a consumer element. -/
  | aldr (w : OpWord)
  /-- SLD, R260: Load that waits for full-empty bits to be full. -/
  | sld (w : OpWord)
  /-- SLDC, R260: SLD that sets the bits empty in the same step. -/
  | sldc (w : OpWord)
  /-- VST, R261: Versioned store of a 64-byte unit. -/
  | vst (w : OpWord)
  /-- OUPD, R262: Owner read-modify-write of one word, operation by sub. -/
  | oupd (w : OpWord)
  /-- FENCEE, R264: Element fence at a scope, emitting A when earlier requests are performed. -/
  | fencee (w : OpWord)
  /-- PFETCH, R265: Prefetch hint with no visible effect. -/
  | pfetch (w : OpWord)
  /-- DUPD, R302: Sends a stamped update to a datum cell. -/
  | dupd (w : OpWord)
  /-- DLDT, R303: Reads a datum cell's tentative value. -/
  | dldt (w : OpWord)
  /-- DLDS, R304: Reads a datum cell's settled value as of a stamp. -/
  | dlds (w : OpWord)
  /-- DFRONT, R305: Posts a producer frontier after its element's updates are inserted. -/
  | dfront (w : OpWord)
  /-- MXCTL, R169: Sends a matrix control token to the node queue. -/
  | mxctl (w : OpWord)
  /-- MXFEED, R169: Sends an operand token to the node's FIFO. -/
  | mxfeed (w : OpWord)
  /-- MXRDA, R169: Sends an accumulator read request, executed as an AREAD. -/
  | mxrda (w : OpWord)
  /-- NOP, R170: Emits A unchanged apart from colour and tag. -/
  | nop (w : OpWord)
  /-- CONST, R170: Emits B's lanes with A's tag. -/
  | const (w : OpWord)
  /-- COPYT, R170: Copies A onto the upward tile bus. -/
  | copyt (w : OpWord)
  /-- SINK, R170: Consumes any token and emits nothing. -/
  | sink (w : OpWord)
  /-- ERRCHK, R170: Turns an error token into a value token. -/
  | errchk (w : OpWord)
  /-- TRAPE, R170: Stops the element recording cause 0x08. -/
  | trape (w : OpWord)
  /-- BRK, R170: Stops the element recording cause 0x09. -/
  | brk (w : OpWord)
  /-- ADDS, R171: Saturating add. -/
  | adds (w : OpWord)
  /-- SUBS, R171: Saturating subtract. -/
  | subs (w : OpWord)
  /-- MULS, R171: Saturating multiply. -/
  | muls (w : OpWord)
  /-- ELEM_POPC, R171: Lane population count. -/
  | elemPopc (w : OpWord)
  /-- ELEM_CLZ, R171: Lane leading-zero count. -/
  | elemClz (w : OpWord)
  /-- FRND, R171: Rounds to an integral value. -/
  | frnd (w : OpWord)
  /-- FCLS, R171: Classifies a lane value. -/
  | fcls (w : OpWord)
  /-- FCPS, R171: Copies the sign of B onto |A|. -/
  | fcps (w : OpWord)
  /-- AVG, R171: Lane average. -/
  | avg (w : OpWord)
  /-- SAD, R171: Sum of absolute differences. -/
  | sad (w : OpWord)
  /-- HIST, R171: Histogram accumulation. -/
  | hist (w : OpWord)
  /-- LUT, R171: 16-entry table lookup from the constants. -/
  | lut (w : OpWord)
  /-- BITS, R171: Bit-field extract. -/
  | bits (w : OpWord)
  /-- BITI, R171: Bit-field insert. -/
  | biti (w : OpWord)
  /-- IDX, R171: Emits element position, slot and context. -/
  | idx (w : OpWord)
  /-- MMA, R194: Matrix multiply of fed A by overlay B into accumulators. -/
  | mma (t : MxWord)
  /-- MMAO, R194: Column sums of B with no A tokens. -/
  | mmao (t : MxWord)
  /-- MMAT, R194: Matrix multiply with A fed by columns. -/
  | mmat (t : MxWord)
  /-- MMAS, R194: Matrix multiply with negated products. -/
  | mmas (t : MxWord)
  /-- MMAX, R195: Block-scaled matrix multiply. -/
  | mmax (t : MxWord)
  /-- MMAD, R194: Matrix multiply with DS8 B. -/
  | mmad (t : MxWord)
  /-- MMAI, R194: Integer matrix multiply into INT32 cells. -/
  | mmai (t : MxWord)
  /-- MMAQ, R194: Matrix multiply with INT4 B. -/
  | mmaq (t : MxWord)
  /-- MMAB, R194: Matrix multiply taking B from the other bank. -/
  | mmab (t : MxWord)
  /-- MMAF, R194: FP16 matrix multiply with stepwise rounding. -/
  | mmaf (t : MxWord)
  /-- MX_RDOT, R194: Matrix-node dot products of fed x and y vectors. -/
  | mxRdot (t : MxWord)
  /-- RDOTX, R195: Block-scaled dot products of fed vectors. -/
  | rdotx (t : MxWord)
  /-- ACLR, R197: Clears a region of accumulator cells. -/
  | aclr (t : MxWord)
  /-- AREAD, R198: Emits a region of cells as reply tokens. -/
  | aread (t : MxWord)
  /-- AWRITE, R197: Writes or adds row tokens into cells. -/
  | awrite (t : MxWord)
  /-- ASCALE, R197: Sets the tensor scale from a token. -/
  | ascale (t : MxWord)
  /-- ACVT, R197: Emits a region converted to a format. -/
  | acvt (t : MxWord)
  /-- ABIAS, R197: Adds a bias token to each row of a region. -/
  | abias (t : MxWord)
  /-- AACT, R197: Applies an activation function to cells. -/
  | aact (t : MxWord)
  /-- ATRN, R197: Transposes a square region. -/
  | atrn (t : MxWord)
  /-- BLOAD, R197: Writes B operands into the overlay from tokens. -/
  | bload (t : MxWord)
  /-- BSEL, R197: Sets a bank base and block-scale format. -/
  | bsel (t : MxWord)
  /-- BFLIP, R197: Switches the current B bank. -/
  | bflip (t : MxWord)
  /-- BSTAT, R197: Emits node bank and column status. -/
  | bstat (t : MxWord)
  /-- CALLOC, R199: Allocates and clears accumulator columns. -/
  | calloc (t : MxWord)
  /-- CFREE, R199: Frees accumulator columns. -/
  | cfree (t : MxWord)
  /-- CPARK, R200: Writes columns to memory and frees them. -/
  | cpark (t : MxWord)
  /-- CFETCH, R200: Allocates columns and loads them from memory. -/
  | cfetch (t : MxWord)
  /-- AERRQ, R197: Reports error cells of a region, optionally clearing status. -/
  | aerrq (t : MxWord)
  /-- AFLUSH, R197: Replies once earlier BLOAD writes are visible. -/
  | aflush (t : MxWord)
  /-- ASYNC, R197: Replies once every earlier entry completed. -/
  | async (t : MxWord)
  /-- ANOP, R197: Matrix no-operation. -/
  | anop (t : MxWord)
  /-- POWER_ON, R399: Power-on runs the start-up path: self-test, training, zeroing, image placement, tile reset release. -/
  | powerOn
  /-- MRESET, R402: A host write of GO=1 starts the start-up path. -/
  | mreset
  /-- START_UP_COMPLETE, R399: Start-up ends, DEVSTAT.READY is set and a message of kind 0 is written. -/
  | startUpComplete
  /-- TASK_SELECT, R17: When the core is free it selects a READY task by priority and age. -/
  | taskSelect (tile : Nat)
  /-- BANK_FREED, R18: A bank becomes free and a stalled READY task is placed. -/
  | bankFreed (tile : Nat)
  /-- COLOUR_BEAT_ARRIVAL, R16: An upward beat is queued in a colour channel and wakes a bound waiting task. -/
  | colourBeatArrival (tile : Nat)
  /-- TILE_BUS_DOWNWARD_ACCEPT, R175: Elements take a downward beat and the bus accepts it. -/
  | tileBusDownwardAccept (tile ctx col : Nat)
  /-- TOKEN_ARRIVAL, R151: A token arriving at an element is offered to slots, matching entries and switch. -/
  | tokenArrival (gid src ctx col : Nat)
  /-- SPILLED_RECORD_TAKE_BACK, R111: The element takes back its oldest spilled record when the allotment has room. -/
  | spilledRecordTakeBack (gid ctx : Nat)
  /-- THROTTLE_RECOVERY, R113: After 1,024 cycles with no spilled record the effective depth doubles. -/
  | throttleRecovery (gid ctx slot : Nat)
  /-- LOOP_ITERATION_ISSUE, R115: A loop source issues the next iteration token once the window allows. -/
  | loopIterationIssue (gid ctx slot : Nat)
  /-- EDGE_BEAT_FORWARD, R172: A switch port passes one beat per cycle under its arbitration. -/
  | edgeBeatForward (gid entry : Nat)
  /-- EDGE_DEPTH_CHANGE, R184: An emptied edge takes its new depth and EDGEDEPTH retires. -/
  | edgeDepthChange (tile : Nat)
  /-- BLOCK_ADMISSION, R118: A block instance is admitted when its commit-buffer reservation is made. -/
  | blockAdmission (gid ctx slot : Nat)
  /-- BLOCK_COMMIT, R287: At the exit token the instance's stores are committed together or discarded. -/
  | blockCommit (inst : Nat)
  /-- MEMORY_REQUEST_PERFORM, R276: A home performs an accepted request in acceptance order. -/
  | memoryRequestPerform (r : MemRef)
  /-- MEMORY_REPLY, R251: A request's data or acknowledgement returns and the node or core emits or writes it. -/
  | memoryReply (gid id : Nat)
  /-- NAMED_ACCESS, R238: A named read or write is tested and performed at the slot's home, or retried after a header change. -/
  | namedAccess (gid id : Nat)
  /-- FOLD_STALL_TIMEOUT, R239: A waiting named access exceeds its bound and raises cause 0x0B. -/
  | foldStallTimeout (gid id : Nat)
  /-- ALIAS_CHAIN_REQUEST, R258: The memory interface performs a chained request when its position is expected. -/
  | aliasChainRequest (gid id : Nat)
  /-- CHAIN_STATE_RELEASE, R258: A marked chain state is released once no request waits. -/
  | chainStateRelease (tile n : Nat)
  /-- TRANSLATION_WALK, R225: A walk completes and answers every requester of the page. -/
  | translationWalk (die ctx va : Nat)
  /-- OWNER_BUFFER_REFERRAL, R263: An access to an owned line is referred to the owner, which writes back and releases it. -/
  | ownerBufferReferral (gid line : Nat)
  /-- CELL_ACTIVATION, R293: A datum cell is made active, evicting an idle cell if needed. -/
  | cellActivation (line : Nat)
  /-- DATUM_INSERTION, R296: A datum unit tests and inserts an update and re-evaluates prefixes. -/
  | datumInsertion (gid id : Nat)
  /-- KEEPER_FRONTIER_APPLY, R297: The keeper applies a posted frontier and forms the watermark. -/
  | keeperFrontierApply (gid id : Nat)
  /-- WATERMARK_RISE, R298: A unit's watermark rises: waiting DLDS are answered and settled entries fold. -/
  | watermarkRise (unit dom : Nat)
  /-- FOLD_WORD_COMPLETE, R266: The fold controller completes a word, writes d and readies the task. -/
  | foldWordComplete (tile tid : Nat)
  /-- DATUM_WORD_COMPLETE, R307: The datum units complete DSETUP or DWMARK and ready the task. -/
  | datumWordComplete (tile tid : Nat)
  /-- DD_WORD_COMPLETE, R346: A decision-diagram engine completes a word, writes d and readies the task. -/
  | ddWordComplete (tile tid : Nat)
  /-- COPY_SEGMENT, R326: A copy engine performs or steals a 4 KiB segment. -/
  | copySegment (tile ctx ticket seg : Nat)
  /-- COPY_COMMAND_COMPLETE, R326: A copy completes when its writes are performed and pushes its token. -/
  | copyCommandComplete (tile ctx ticket : Nat)
  /-- STREAM_START, R323: A stream starts once earlier streams on its list complete. -/
  | streamStart (tile ctx n : Nat)
  /-- STREAM_TOKEN_TRANSFER, R322: An in-stream emits a token or an out-stream takes one. -/
  | streamTokenTransfer (tile ctx n : Nat)
  /-- STREAM_COMPLETE, R322: A stream completes when its writes are performed. -/
  | streamComplete (tile ctx n : Nat)
  /-- EGRESS_RECORD_ENTER, R333: A waiting EGPOST's record enters the hold queue when room appears. -/
  | egressRecordEnter (tile tid : Nat)
  /-- EGRESS_DELIVERY, R332: A ready record is written to the host ring and TAIL is advanced. -/
  | egressDelivery (die sess : Nat)
  /-- COLLECTIVE_COMPLETE, R392: A rank's collective completes when its DST is written at system scope. -/
  | collectiveComplete (tile ctx ticket : Nat)
  /-- COLLECTIVE_ABORT, R395: An abort message completes every non-done rank with ABRT and poisons DST. -/
  | collectiveAbort (gkey seq rank cause : Nat)
  /-- QUEUE_TAIL_WRITE, R385: A tail write to a launch queue makes records available or is ignored. -/
  | queueTailWrite (die q : Nat) (tail : TailWrite)
  /-- SCHEDULER_PULL, R385: The scheduler pulls the next record of an enabled queue. -/
  | schedulerPull (die q : Nat)
  /-- PRIORITY_AGING, R121: Every 262,144 cycles of eligibility raises a record's effective priority. -/
  | priorityAging (die n : Nat)
  /-- ALLOCATOR_PLACE, R122: The allocator places an eligible launch all or nothing. -/
  | allocatorPlace (die n : Nat)
  /-- COMPACTION, R123: The allocator moves running launches to make room. -/
  | compaction (lid ox oy : Nat)
  /-- TILE_COMPLETION, R126: A tile completes for its launch; the launch completes when all tiles have. -/
  | tileCompletion (tile ctx : Nat)
  /-- WORK_STEAL, R125: An idle Surveyor steals the oldest stealable READY task in its quad. -/
  | workSteal (tile : Nat)
  /-- REGION_FAULT_TAKE, R362: The region controller takes a recorded fault and runs a containment search. -/
  | regionFaultTake (tile ctx : Nat)
  /-- REGION_KILL, R365: A region's work in a context is discarded. -/
  | regionKill (level : Level) (tile sheet ctx : Nat)
  /-- HANDLER_DELIVERY, R366: A cause is delivered to the lead task as a trap entry when it is ready. -/
  | handlerDelivery (tile ctx : Nat)
  /-- RETRY_RESTART, R368: At the handler's TRET the faulting operation restarts from the beginning. -/
  | retryRestart (tile ctx : Nat)
  /-- ATOMIC_EMULATION, R379: The region controller emulates an atomic on host, peer or far-tier memory under a lock. -/
  | atomicEmulation (r : Requester)
  /-- EMULATED_WAITV_POLL, R379: Every 4,096 cycles an emulated WAITV re-reads its word. -/
  | emulatedWaitvPoll (tile tid : Nat)
  /-- CONTEXT_SAVE_COMPLETE, R373: After stop, drain, freeze and copy, STATUS is written last. -/
  | contextSaveComplete (die n : Nat)
  /-- CONTEXT_RESTORE_COMPLETE, R375: The restored context resumes with STATUS 2, or fails with cause 0x1C. -/
  | contextRestoreComplete (die n : Nat)
  /-- PATROL_SCRUB, R377: The scrubber corrects or poison-marks sectors in the background. -/
  | patrolScrub (sp : Space) (addr : Nat)
  /-- TILE_RETIREMENT, R381: A failing tile is retired and its launches move to a spare. -/
  | tileRetirement (tile : Nat)
  /-- LINK_FLIT_RESEND, R384: A flit failing its CRC is sent again. -/
  | linkFlitResend (link : Nat)
  /-- LINK_DOWN, R384: The 15th failed resend takes the link down. -/
  | linkDown (link : Nat)
  /-- PLANE_DOWN, R386: A scale-up plane goes down and blocks are remapped in order. -/
  | planeDown (plane : Nat)
  /-- SPAWN_PACKET_ARRIVAL, R389: A spawn packet creates a task or performs a memory-side update, or is dropped. -/
  | spawnPacketArrival (p : Spawn)
  /-- REMOTE_WORD_COMPLETE, R387: A QTAIL, SPAWNAT or CANCEL completes and readies its task. -/
  | remoteWordComplete (tile tid resp : Nat)
  /-- THERMAL_THROTTLE, R405: Over power or at 100 °C issue cycles are withheld until clear for 1 ms. -/
  | thermalThrottle (die power : Nat)
  /-- THERMAL_SHUTDOWN, R405: At 110 °C every Surveyor halts and a kind-3 message is written. -/
  | thermalShutdown (die : Nat)
  /-- POWER_REMOVAL, R405: 10 ms after thermal shutdown the module removes power. -/
  | powerRemoval
  /-- HOST_MEMORY_WRITE, R290: A host write over the link is accepted at its home in host order. -/
  | hostMemoryWrite (addr : Nat) (bytes : List Byte)
  /-- HOST_MEMORY_READ, R290: A host read over the link is performed after earlier host writes. -/
  | hostMemoryRead (addr n : Nat)
  /-- TROOT_WRITE, R224: A host write of a translation root reaches all dies before taking effect. -/
  | trootWrite (ctx value : Nat)
  /-- QDESC_WRITE, R385: A host write of a queue descriptor, including its tail. -/
  | qdescWrite (die q value : Nat)
  /-- EGRING_WRITE, R332: A host write of the egress ring register. -/
  | egringWrite (die value : Nat)
  /-- FLTRING_WRITE, R369: A host write of the fault ring register. -/
  | fltringWrite (die value : Nat)
  /-- MSGRING_WRITE, R404: A host write of the message ring register. -/
  | msgringWrite (value : Nat)
  /-- DDCTL_WRITE, R339: A host write of an engine's control register. -/
  | ddctlWrite (die e value : Nat)
  /-- HALTREL, R402: A host write resumes issue on a halted Surveyor. -/
  | haltrel (die value : Nat)
  /-- DEVSTAT_RR_CLEAR, R403: A W1C write clears the replacement-request bit. -/
  | devstatRrClear (die : Nat)
  /-- MANAGEMENT_REGISTER_WRITE, R401: A write to any other management register. -/
  | managementRegisterWrite (die offset value : Nat)
  /-- THERMAL_THROTTLE_LEFT, R405: Once the power or temperature condition has been clear for 1 ms, issue cycles are no longer withheld, PCAP or THR clears and a kind-2 message is written. -/
  | thermalThrottleLeft (die : Nat)
  /-- CANCEL_MESSAGE_ARRIVAL, R390: A pod-scope CANCEL from another module arrives, and each die applies it: it enters a job in the cancel table, removes one, or kills and refuses a launch. -/
  | cancelMessageArrival (form id : Nat)
  deriving DecidableEq, Repr

end Sys2Proof
end

