-- ==== Sys2Proof/WellFormed.lean ====
section
/-! DEFINITION. Well-formed instructions: the static checks that the spec puts on a word besides its field widths
(R43, R48, R50, R56, R77), and the ranges of what an event names (R99, R382). Each check has a name of its own. -/

namespace Sys2Proof

/-- Why an instruction is ill-formed. -/
inductive IllFormed where
  /-- FENCE names a scope other than 2–5, R77. -/
  | fenceScope
  /-- `pm` is 0b110 or 0b111, R50 reason 0x03. -/
  | pmReserved
  /-- `sub` is not defined for the op, R50 reason 0x02. -/
  | subUndefined
  /-- `sb` is not ZERO where R169, R247 or R301 requires it, R50 reason 0x02. -/
  | sbNotZero
  /-- A compare with pm = 0b101, R50 reason 0x09. -/
  | comparePm
  /-- A region of a matrix token leaves the 64 rows, R56. -/
  | mxRows
  /-- A region of a matrix token leaves the 128 columns, R56. -/
  | mxCols
  /-- FMT is not one that the matrix opcode accepts, R56. -/
  | mxFormat
  /-- A field that the matrix opcode does not use is non-zero, or has a value its row excludes, R56 and R197. -/
  | mxUnused
  /-- An event names a tile, element, context or other object that the device does not have, R99. -/
  | range
  deriving DecidableEq, Repr

/-- The sources that need no token end in ZERO = 15, R46. -/
def srcZero : BitVec 4 := 15

/-- The checks of R50 on one operation word: the highest `sub` of the op, whether `sb` must be ZERO, whether the op
is a compare of R159. -/
def OpWord.check (w : OpWord) (maxSub : Nat) (needZero compare : Bool) : Option IllFormed :=
  if w.sub.toNat > maxSub then some .subUndefined
  else if needZero && w.sb != srcZero then some .sbNotZero
  else if w.pm.toNat > 5 then some .pmReserved
  else if compare && w.pm == 5 then some .comparePm
  else none

/-- What R194 and R197 say a matrix opcode uses of the fields of R54. -/
structure MxUse where
  fmts   : List Nat
  rows   : Bool
  cols   : Bool
  km     : Bool
  boff   : Bool
  acc    : Bool

/-- The checks of R56 that concern the token alone. `km` says whether the KM1 field's value is allowed. -/
def MxWord.check (t : MxWord) (u : MxUse) (kmOk : Bool) : Option IllFormed :=
  if t.row0.toNat + t.mm1.toNat + 1 > 64 then some .mxRows
  else if t.col0.toNat + t.nm1.toNat + 1 > 128 then some .mxCols
  else if !(u.fmts.contains t.fmt.toNat) then some .mxFormat
  else if (!u.rows && (t.row0 != 0 || t.mm1 != 0)) || (!u.cols && (t.col0 != 0 || t.nm1 != 0))
      || (!u.km && t.km1 != 0) || (!u.boff && t.boff != 0) || (!u.acc && t.acc) || !kmOk then some .mxUnused
  else none

/-- The multiply family of R193: every field is used. -/
def mxMul (fmts : List Nat) : MxUse := ⟨fmts, true, true, true, true, true⟩
/-- A region operation of R197 without ACC. -/
def mxRegion (fmts : List Nat) (km : Bool) : MxUse := ⟨fmts, true, true, km, false, false⟩
/-- An operation on whole columns, R197. -/
def mxColumns : MxUse := ⟨[0], false, true, false, false, false⟩
/-- An operation that uses only the reply colour in KM1, R192. -/
def mxReply : MxUse := ⟨[0], false, false, true, false, false⟩

/-- `range` when a bound of an event's operands fails. -/
def inRange (ok : Bool) : Option IllFormed := if ok then none else some .range

/-- R99 and R382: the counts of the device's objects. -/
def nTiles : Nat := 640
def nElems : Nat := 40960
def nDies : Nat := 4
def nCtx : Nat := 4

/-- The highest `sub` of an op, whether its `sb` must be ZERO, and whether it is a compare, R48, R50, R159, R169, R247, R301. -/
def opRule (n : Nat) : Nat × Bool × Bool :=
  match n with
  | 16 => (3, false, false)
  | 17 => (3, false, false)
  | 18 => (3, false, false)
  | 19 => (3, false, false)
  | 24 => (3, false, false)
  | 25 => (3, false, false)
  | 32 => (3, false, false)
  | 33 => (3, false, false)
  | 37 => (3, false, false)
  | 38 => (0, false, true)
  | 39 => (0, false, true)
  | 40 => (0, false, true)
  | 41 => (0, false, true)
  | 79 => (0, true, false)
  | 81 => (0, true, false)
  | 82 => (0, true, false)
  | 85 => (0, true, false)
  | 86 => (0, true, false)
  | 88 => (7, false, false)
  | 89 => (5, true, false)
  | 91 => (3, false, false)
  | 92 => (0, true, false)
  | 93 => (0, true, false)
  | 96 => (0, true, false)
  | 110 => (3, false, false)
  | _ => (0, false, false)

/-- The checks of R50 that concern one operation word of op `n` alone. -/
def OpWord.checkOp (w : OpWord) (n : Nat) : Option IllFormed := w.check (opRule n).1 (opRule n).2.1 (opRule n).2.2

/-- The checks of R56 that concern a control token of opcode `n` alone: what R194 and R197 say it uses. -/
def MxWord.checkOpc (t : MxWord) (n : Nat) : Option IllFormed :=
  match n with
  | 0 => t.check (mxMul [2, 3, 4, 5]) true
  | 1 => t.check (mxMul [2, 3, 4, 5, 8, 6, 7]) true
  | 2 => t.check (mxMul [2, 3, 4, 5]) true
  | 3 => t.check (mxMul [2, 3, 4, 5]) true
  | 4 => t.check (mxMul [3, 4, 5]) true
  | 5 => t.check (mxMul [2, 3, 4, 5]) true
  | 6 => t.check (mxMul [8, 6]) true
  | 7 => t.check (mxMul [2, 3, 4]) true
  | 8 => t.check (mxMul [2, 3, 4, 5]) true
  | 9 => t.check (mxMul [1]) true
  | 10 => t.check ⟨[2, 1, 3, 4, 5, 8, 6], true, true, true, false, true⟩ (t.nm1 == 0)
  | 11 => t.check ⟨[3, 4, 5], true, true, true, false, true⟩ (t.nm1 == 0)
  | 12 => t.check (mxRegion [0] false) true
  | 13 => t.check (mxRegion [0] true) (t.km1.toNat < 32)
  | 14 => t.check ⟨[0, 1, 2, 3, 4, 5, 6, 8, 9, 10, 11, 12, 13, 14, 15], true, true, false, false, true⟩ true
  | 15 => t.check ⟨[0, 2, 4], false, false, false, false, false⟩ true
  | 16 => t.check (mxRegion [0, 1, 2, 3, 4, 5, 6, 7, 8, 9, 10, 11, 12, 13, 14, 15] true) (t.km1.toNat < 64)
  | 17 => t.check (mxRegion [0, 1, 2, 3, 4, 5, 6, 7, 8, 9, 10, 11, 12, 13, 14, 15] false) true
  | 18 => t.check (mxRegion [0] true) (t.km1.toNat ≤ 4)
  | 19 => t.check (mxRegion [0] false) (t.mm1.toNat == t.nm1.toNat)
  | 20 => t.check ⟨[0, 1, 2, 3, 4, 5, 6, 7, 8, 9, 10, 11, 12, 13, 14, 15], false, true, true, true, true⟩ true
  | 21 => t.check ⟨[0], false, false, true, true, false⟩ (t.km1.toNat < 8 && t.km1.toNat % 4 != 3)
  | 22 => t.check ⟨[0], false, false, false, false, false⟩ true
  | 23 => t.check mxReply (t.km1.toNat < 32)
  | 24 => t.check mxColumns true
  | 25 => t.check mxColumns true
  | 26 => t.check mxColumns true
  | 27 => t.check mxColumns true
  | 28 => t.check ⟨[0], true, true, true, false, true⟩ (t.km1.toNat < 32)
  | 29 => t.check mxReply (t.km1.toNat < 32)
  | 30 => t.check mxReply (t.km1.toNat < 32)
  | _ => t.check ⟨[0], false, false, false, false, false⟩ true

/-- Why `i` is ill-formed, or none. -/
def Instr.illFormed (i : Instr) : Option IllFormed :=
  match i with
  | .add _ _ _ => none
  | .sub _ _ _ => none
  | .mul _ _ _ => none
  | .mulh _ _ _ => none
  | .mulhs _ _ _ => none
  | .div _ _ _ => none
  | .divs _ _ _ => none
  | .rem _ _ _ => none
  | .rems _ _ _ => none
  | .and _ _ _ => none
  | .or _ _ _ => none
  | .xor _ _ _ => none
  | .andn _ _ _ => none
  | .orn _ _ _ => none
  | .shl _ _ _ => none
  | .shr _ _ _ => none
  | .sha _ _ _ => none
  | .rol _ _ _ => none
  | .ror _ _ _ => none
  | .min _ _ _ => none
  | .max _ _ _ => none
  | .mins _ _ _ => none
  | .maxs _ _ _ => none
  | .clz _ _ => none
  | .ctz _ _ => none
  | .popc _ _ => none
  | .brev _ _ => none
  | .bswap _ _ => none
  | .addw _ _ _ => none
  | .subw _ _ _ => none
  | .mulw _ _ _ => none
  | .shlw _ _ _ => none
  | .addi _ _ _ => none
  | .andi _ _ _ => none
  | .ori _ _ _ => none
  | .xori _ _ _ => none
  | .shli _ _ _ => none
  | .shri _ _ _ => none
  | .shai _ _ _ => none
  | .muli _ _ _ => none
  | .mini _ _ _ => none
  | .maxi _ _ _ => none
  | .lui _ _ => none
  | .addpc _ _ => none
  | .ceq _ _ _ => none
  | .cne _ _ _ => none
  | .clt _ _ _ => none
  | .cle _ _ _ => none
  | .clts _ _ _ => none
  | .cles _ _ _ => none
  | .cbit _ _ _ => none
  | .cz _ _ => none
  | .qand _ _ _ => none
  | .qor _ _ _ => none
  | .qxor _ _ _ => none
  | .qnot _ _ => none
  | .qset _ _ => none
  | .qmov _ _ => none
  | .sel _ _ _ => none
  | .qrd _ => none
  | .qwr _ => none
  | .ldzB _ _ _ => none
  | .ldzH _ _ _ => none
  | .ldzW _ _ _ => none
  | .ldzD _ _ _ => none
  | .ldsB _ _ _ => none
  | .ldsH _ _ _ => none
  | .ldsW _ _ _ => none
  | .stB _ _ _ _ => none
  | .stH _ _ _ _ => none
  | .stW _ _ _ _ => none
  | .stD _ _ _ _ => none
  | .ldgB _ _ _ => none
  | .ldgH _ _ _ => none
  | .ldgW _ _ _ => none
  | .ldgD _ _ _ => none
  | .stgB _ _ _ _ => none
  | .stgH _ _ _ _ => none
  | .stgW _ _ _ _ => none
  | .stgD _ _ _ _ => none
  | .aadd _ _ _ _ => none
  | .aswp _ _ _ _ => none
  | .acas _ _ _ _ => none
  | .amin _ _ _ _ => none
  | .amax _ _ _ _ => none
  | .aand _ _ _ _ => none
  | .aor _ _ _ _ => none
  | .axor _ _ _ _ => none
  | .waitv _ _ _ _ => none
  | .wake _ _ _ _ => none
  | .br _ _ => none
  | .call _ _ => none
  | .jr _ _ => none
  | .callt _ _ _ _ => none
  | .ret _ _ => none
  | .twait _ => none
  | .tbind _ _ _ => none
  | .tyield => none
  | .tspawn _ _ _ => none
  | .texit => none
  | .chrd _ _ _ => none
  | .chwr _ _ => none
  | .trig => none
  | .barq _ => none
  | .opld _ _ _ => none
  | .swld _ _ _ => none
  | .shplace _ _ _ => none
  | .shfree _ _ _ => none
  | .cfgload _ _ _ => none
  | .ctxpri _ _ => none
  | .edgedepth _ _ _ => none
  | .tvset _ _ _ _ => none
  | .tvclr _ _ => none
  | .sbind _ _ _ _ => none
  | .sbar _ => none
  | .swait _ _ _ => none
  | .scan _ _ => none
  | .cpy _ _ _ => none
  | .cpyv _ _ _ _ => none
  | .cpyf _ _ _ => none
  | .cpyst _ _ _ _ => none
  | .cpysync _ _ _ => none
  | .ddvar _ _ _ => none
  | .ddapply _ _ _ _ => none
  | .ddite _ _ _ _ => none
  | .ddrest _ _ _ _ => none
  | .ddex _ _ _ _ => none
  | .ddwcnt _ _ _ _ => none
  | .ddeval _ _ _ _ => none
  | .ddref _ _ _ => none
  | .ddderef _ _ _ => none
  | .ddcollCollect _ _ _ _ => none
  | .ddcollReset _ _ _ _ => none
  | .ddcollThreshold _ _ _ _ => none
  | .ddord _ _ _ _ => none
  | .ddswap _ _ _ _ => none
  | .ddexp _ _ _ _ => none
  | .ddimp _ _ _ _ => none
  | .ddstat _ _ _ _ => none
  | .egpost _ _ _ => none
  | .egrel _ _ _ _ => none
  | .egrej _ _ _ _ => none
  | .egstat _ _ _ _ => none
  | .fdeclDescriptor _ _ _ _ => none
  | .fdeclRegion _ _ _ _ => none
  | .fgrow _ _ _ => none
  | .fcheck _ _ _ => none
  | .fdrop _ _ _ => none
  | .fstat _ _ _ _ => none
  | .coll _ _ _ => none
  | .colst _ _ _ _ => none
  | .colab _ _ _ _ => none
  | .qtail _ _ _ => none
  | .spawnat _ _ _ => none
  | .cancelJob _ _ => none
  | .cancelLaunch _ _ => none
  | .cancelClear _ _ => none
  | .dsetupNew _ _ _ => none
  | .dsetupAdd _ _ _ => none
  | .dwmarkPost _ _ _ => none
  | .dwmarkRelease _ _ _ => none
  | .dstat _ _ _ => none
  | .trap _ => none
  | .tret => none
  | .csrr _ _ => none
  | .csrw _ _ => none
  | .csrs _ _ => none
  | .csrc _ _ => none
  | .fence scope => if 2 ≤ scope.toNat ∧ scope.toNat ≤ 5 then none else some .fenceScope
  | .halt => none
  | .brkpt => none
  | .idle => none
  | .ctxsave _ _ _ => none
  | .ctxrest _ _ _ => none
  | .tlbinv _ _ => none
  | .elemAdd w => w.checkOp 0
  | .elemSub w => w.checkOp 1
  | .elemMul w => w.checkOp 2
  | .mac w => w.checkOp 3
  | .elemMin w => w.checkOp 4
  | .elemMax w => w.checkOp 5
  | .abs w => w.checkOp 6
  | .neg w => w.checkOp 7
  | .elemAnd w => w.checkOp 8
  | .elemOr w => w.checkOp 9
  | .elemXor w => w.checkOp 10
  | .not w => w.checkOp 11
  | .elemShl w => w.checkOp 12
  | .elemShr w => w.checkOp 13
  | .elemSha w => w.checkOp 14
  | .clamp w => w.checkOp 15
  | .fadd w => w.checkOp 16
  | .fsub w => w.checkOp 17
  | .fmul w => w.checkOp 18
  | .fma w => w.checkOp 19
  | .fmin w => w.checkOp 20
  | .fmax w => w.checkOp 21
  | .fabs w => w.checkOp 22
  | .fneg w => w.checkOp 23
  | .fdiv w => w.checkOp 24
  | .fsqrt w => w.checkOp 25
  | .frcp w => w.checkOp 26
  | .frsq w => w.checkOp 27
  | .fexp w => w.checkOp 28
  | .flog w => w.checkOp 29
  | .ftanh w => w.checkOp 30
  | .fsig w => w.checkOp 31
  | .cvt w => w.checkOp 32
  | .cvtr w => w.checkOp 33
  | .pack w => w.checkOp 34
  | .unpack w => w.checkOp 35
  | .scale w => w.checkOp 36
  | .qnt w => w.checkOp 37
  | .cmpeq w => w.checkOp 38
  | .cmpne w => w.checkOp 39
  | .cmplt w => w.checkOp 40
  | .cmple w => w.checkOp 41
  | .steer w => w.checkOp 42
  | .merge w => w.checkOp 43
  | .mergeo w => w.checkOp 44
  | .gate w => w.checkOp 45
  | .selp w => w.checkOp 46
  | .nullgen w => w.checkOp 47
  | .taginc w => w.checkOp 48
  | .tagset w => w.checkOp 49
  | .tagget w => w.checkOp 50
  | .tagclr w => w.checkOp 51
  | .reord w => w.checkOp 52
  | .ctxalloc w => w.checkOp 53
  | .colpack w => w.checkOp 54
  | .colunpk w => w.checkOp 55
  | .framealloc w => w.checkOp 56
  | .framefree w => w.checkOp 57
  | .spawn w => w.checkOp 58
  | .stamp w => w.checkOp 59
  | .loopb w => w.checkOp 60
  | .loope w => w.checkOp 61
  | .loopt w => w.checkOp 62
  | .loopx w => w.checkOp 63
  | .loopi w => w.checkOp 64
  | .rsum w => w.checkOp 65
  | .rmax w => w.checkOp 66
  | .rmin w => w.checkOp 67
  | .rand w => w.checkOp 68
  | .elemRor w => w.checkOp 69
  | .rxor w => w.checkOp 70
  | .elemRdot w => w.checkOp 71
  | .rcnt w => w.checkOp 72
  | .shuf w => w.checkOp 73
  | .bcast w => w.checkOp 74
  | .rotl w => w.checkOp 75
  | .lsel w => w.checkOp 76
  | .scanadd w => w.checkOp 77
  | .topk w => w.checkOp 78
  | .nld w => w.checkOp 79
  | .nst w => w.checkOp 80
  | .nldt w => w.checkOp 81
  | .ald w => w.checkOp 82
  | .ast w => w.checkOp 83
  | .aldr w => w.checkOp 84
  | .sld w => w.checkOp 85
  | .sldc w => w.checkOp 86
  | .vst w => w.checkOp 87
  | .oupd w => w.checkOp 88
  | .fencee w => w.checkOp 89
  | .pfetch w => w.checkOp 90
  | .dupd w => w.checkOp 91
  | .dldt w => w.checkOp 92
  | .dlds w => w.checkOp 93
  | .dfront w => w.checkOp 94
  | .mxctl w => w.checkOp 95
  | .mxfeed w => w.checkOp 96
  | .mxrda w => w.checkOp 97
  | .nop w => w.checkOp 98
  | .const w => w.checkOp 99
  | .copyt w => w.checkOp 100
  | .sink w => w.checkOp 101
  | .errchk w => w.checkOp 102
  | .trape w => w.checkOp 103
  | .brk w => w.checkOp 104
  | .adds w => w.checkOp 105
  | .subs w => w.checkOp 106
  | .muls w => w.checkOp 107
  | .elemPopc w => w.checkOp 108
  | .elemClz w => w.checkOp 109
  | .frnd w => w.checkOp 110
  | .fcls w => w.checkOp 111
  | .fcps w => w.checkOp 112
  | .avg w => w.checkOp 113
  | .sad w => w.checkOp 114
  | .hist w => w.checkOp 115
  | .lut w => w.checkOp 116
  | .bits w => w.checkOp 117
  | .biti w => w.checkOp 118
  | .idx w => w.checkOp 119
  | .mma t => t.checkOpc 0
  | .mmao t => t.checkOpc 1
  | .mmat t => t.checkOpc 2
  | .mmas t => t.checkOpc 3
  | .mmax t => t.checkOpc 4
  | .mmad t => t.checkOpc 5
  | .mmai t => t.checkOpc 6
  | .mmaq t => t.checkOpc 7
  | .mmab t => t.checkOpc 8
  | .mmaf t => t.checkOpc 9
  | .mxRdot t => t.checkOpc 10
  | .rdotx t => t.checkOpc 11
  | .aclr t => t.checkOpc 12
  | .aread t => t.checkOpc 13
  | .awrite t => t.checkOpc 14
  | .ascale t => t.checkOpc 15
  | .acvt t => t.checkOpc 16
  | .abias t => t.checkOpc 17
  | .aact t => t.checkOpc 18
  | .atrn t => t.checkOpc 19
  | .bload t => t.checkOpc 20
  | .bsel t => t.checkOpc 21
  | .bflip t => t.checkOpc 22
  | .bstat t => t.checkOpc 23
  | .calloc t => t.checkOpc 24
  | .cfree t => t.checkOpc 25
  | .cpark t => t.checkOpc 26
  | .cfetch t => t.checkOpc 27
  | .aerrq t => t.checkOpc 28
  | .aflush t => t.checkOpc 29
  | .async t => t.checkOpc 30
  | .anop t => t.checkOpc 31
  | .powerOn => none
  | .mreset => none
  | .startUpComplete => none
  | .taskSelect tile => inRange (tile < nTiles)
  | .bankFreed tile => inRange (tile < nTiles)
  | .colourBeatArrival tile => inRange (tile < nTiles)
  | .tileBusDownwardAccept tile ctx col => inRange (tile < nTiles && ctx < nCtx && col < 32)
  | .tokenArrival gid src ctx col => inRange (gid < nElems && src < 8 && ctx < nCtx && col < 32)
  | .spilledRecordTakeBack gid ctx => inRange (gid < nElems && ctx < nCtx)
  | .throttleRecovery gid ctx slot => inRange (gid < nElems && ctx < nCtx && slot < 16)
  | .loopIterationIssue gid ctx slot => inRange (gid < nElems && ctx < nCtx && slot < 16)
  | .edgeBeatForward gid entry => inRange (gid < nElems && entry < 64)
  | .edgeDepthChange tile => inRange (tile < nTiles)
  | .blockAdmission gid ctx slot => inRange (gid < nElems && ctx < nCtx && slot < 16)
  | .blockCommit _ => none
  | .memoryRequestPerform _ => none
  | .memoryReply gid _ => inRange (gid < nElems)
  | .namedAccess gid _ => inRange (gid < nElems)
  | .foldStallTimeout gid _ => inRange (gid < nElems)
  | .aliasChainRequest gid _ => inRange (gid < nElems)
  | .chainStateRelease tile _ => inRange (tile < nTiles)
  | .translationWalk die ctx _ => inRange (die < nDies && ctx < nCtx)
  | .ownerBufferReferral gid _ => inRange (gid < nElems)
  | .cellActivation _ => none
  | .datumInsertion gid _ => inRange (gid < nElems)
  | .keeperFrontierApply gid _ => inRange (gid < nElems)
  | .watermarkRise unit dom => inRange (unit < 256 && dom < 64)
  | .foldWordComplete tile tid => inRange (tile < nTiles && tid < 32)
  | .datumWordComplete tile tid => inRange (tile < nTiles && tid < 32)
  | .ddWordComplete tile tid => inRange (tile < nTiles && tid < 32)
  | .copySegment tile ctx ticket _ => inRange (tile < nTiles && ctx < nCtx && ticket < 64)
  | .copyCommandComplete tile ctx ticket => inRange (tile < nTiles && ctx < nCtx && ticket < 64)
  | .streamStart tile ctx _ => inRange (tile < nTiles && ctx < nCtx)
  | .streamTokenTransfer tile ctx _ => inRange (tile < nTiles && ctx < nCtx)
  | .streamComplete tile ctx _ => inRange (tile < nTiles && ctx < nCtx)
  | .egressRecordEnter tile tid => inRange (tile < nTiles && tid < 32)
  | .egressDelivery die _ => inRange (die < nDies)
  | .collectiveComplete tile ctx ticket => inRange (tile < nTiles && ctx < nCtx && ticket < 64)
  | .collectiveAbort _ _ _ _ => none
  | .queueTailWrite die q _ => inRange (die < nDies && q < 16)
  | .schedulerPull die q => inRange (die < nDies && q < 16)
  | .priorityAging die _ => inRange (die < nDies)
  | .allocatorPlace die _ => inRange (die < nDies)
  | .compaction _ _ _ => none
  | .tileCompletion tile ctx => inRange (tile < nTiles && ctx < nCtx)
  | .workSteal tile => inRange (tile < nTiles)
  | .regionFaultTake tile ctx => inRange (tile < nTiles && ctx < nCtx)
  | .regionKill _ tile sheet ctx => inRange (tile < nTiles && sheet < 4 && ctx < nCtx)
  | .handlerDelivery tile ctx => inRange (tile < nTiles && ctx < nCtx)
  | .retryRestart tile ctx => inRange (tile < nTiles && ctx < nCtx)
  | .atomicEmulation _ => none
  | .emulatedWaitvPoll tile tid => inRange (tile < nTiles && tid < 32)
  | .contextSaveComplete die _ => inRange (die < nDies)
  | .contextRestoreComplete die _ => inRange (die < nDies)
  | .patrolScrub _ _ => none
  | .tileRetirement tile => inRange (tile < nTiles)
  | .linkFlitResend link => inRange (link < 1)
  | .linkDown link => inRange (link < 1)
  | .planeDown plane => inRange (plane < 36)
  | .spawnPacketArrival _ => none
  | .remoteWordComplete tile tid _ => inRange (tile < nTiles && tid < 32)
  | .thermalThrottle die _ => inRange (die < nDies)
  | .thermalShutdown die => inRange (die < nDies)
  | .powerRemoval => none
  | .hostMemoryWrite _ _ => none
  | .hostMemoryRead _ _ => none
  | .trootWrite ctx _ => inRange (ctx < nCtx)
  | .qdescWrite die q _ => inRange (die < nDies && q < 16)
  | .egringWrite die _ => inRange (die < nDies)
  | .fltringWrite die _ => inRange (die < nDies)
  | .msgringWrite _ => none
  | .ddctlWrite die e _ => inRange (die < nDies && e < 2)
  | .haltrel die _ => inRange (die < nDies)
  | .devstatRrClear die => inRange (die < nDies)
  | .managementRegisterWrite die _ _ => inRange (die < nDies)
  | .thermalThrottleLeft die => inRange (die < nDies)
  | .cancelMessageArrival _ _ => none

/-- A well-formed instruction. -/
def Instr.wf (i : Instr) : Bool := i.illFormed.isNone

/-- Whether `i` is an event of an engine, a controller or the host, and not a word. -/
def Instr.isEvent (i : Instr) : Bool :=
  match i with
  | .powerOn
  | .mreset
  | .startUpComplete
  | .taskSelect ..
  | .bankFreed ..
  | .colourBeatArrival ..
  | .tileBusDownwardAccept ..
  | .tokenArrival ..
  | .spilledRecordTakeBack ..
  | .throttleRecovery ..
  | .loopIterationIssue ..
  | .edgeBeatForward ..
  | .edgeDepthChange ..
  | .blockAdmission ..
  | .blockCommit ..
  | .memoryRequestPerform ..
  | .memoryReply ..
  | .namedAccess ..
  | .foldStallTimeout ..
  | .aliasChainRequest ..
  | .chainStateRelease ..
  | .translationWalk ..
  | .ownerBufferReferral ..
  | .cellActivation ..
  | .datumInsertion ..
  | .keeperFrontierApply ..
  | .watermarkRise ..
  | .foldWordComplete ..
  | .datumWordComplete ..
  | .ddWordComplete ..
  | .copySegment ..
  | .copyCommandComplete ..
  | .streamStart ..
  | .streamTokenTransfer ..
  | .streamComplete ..
  | .egressRecordEnter ..
  | .egressDelivery ..
  | .collectiveComplete ..
  | .collectiveAbort ..
  | .queueTailWrite ..
  | .schedulerPull ..
  | .priorityAging ..
  | .allocatorPlace ..
  | .compaction ..
  | .tileCompletion ..
  | .workSteal ..
  | .regionFaultTake ..
  | .regionKill ..
  | .handlerDelivery ..
  | .retryRestart ..
  | .atomicEmulation ..
  | .emulatedWaitvPoll ..
  | .contextSaveComplete ..
  | .contextRestoreComplete ..
  | .patrolScrub ..
  | .tileRetirement ..
  | .linkFlitResend ..
  | .linkDown ..
  | .planeDown ..
  | .spawnPacketArrival ..
  | .remoteWordComplete ..
  | .thermalThrottle ..
  | .thermalShutdown ..
  | .powerRemoval
  | .hostMemoryWrite ..
  | .hostMemoryRead ..
  | .trootWrite ..
  | .qdescWrite ..
  | .egringWrite ..
  | .fltringWrite ..
  | .msgringWrite ..
  | .ddctlWrite ..
  | .haltrel ..
  | .devstatRrClear ..
  | .managementRegisterWrite ..
  | .thermalThrottleLeft ..
  | .cancelMessageArrival .. => true
  | _ => false

end Sys2Proof
end

