-- ==== Sys2Proof/Decode.lean ====
section
/-! DEFINITION. Decoding the three opcode spaces (R33) and, after it, the encoder. Decoding is total: a word that is no
instruction is rejected by name. -/

namespace Sys2Proof

/-- Why a pattern is no instruction. The first nine give cause 0x01 and `guardField` cause 0x02 (R43); the others are
those of R50 and R56. -/
inductive Reject where
  /-- Major 0x00 or 0x26–0x3E, R38. -/
  | reservedMajor
  /-- An unassigned fn of a format-A major, R39. -/
  | unassignedFn
  /-- Major 0x12 with sz = 0b11, R40. -/
  | illegalSize
  /-- A compare with d[25:24] ≠ 0, R35. -/
  | compareUpper
  /-- A q-register field with non-zero upper bits, R35. -/
  | guardRegUpper
  /-- A fixed-zero field that is not zero, R43 and R58. -/
  | fixedZero
  /-- FENCE with a scope that R77 does not name. -/
  | fenceScope
  /-- A guarded CSR word whose number R24 does not list, R21 and R76. -/
  | csrNumber
  /-- A byte sequence shorter than the word. -/
  | truncated
  /-- A non-zero guard on an unguardable instruction, R20. -/
  | guardField
  /-- op is 120–127, R50 reason 0x01. -/
  | reservedOp
  /-- The word breaks another check of R50 or R77. -/
  | illFormed (why : IllFormed)
  /-- A reserved bit of a matrix control token, R56. -/
  | mxReserved
  deriving DecidableEq, Repr

/-! ## Fields of a control word, R34 -/

def fMaj (w : Word32) : BitVec 6 := w.extractLsb' 26 6
def fD (w : Word32) : SReg := w.extractLsb' 21 5
def fA (w : Word32) : SReg := w.extractLsb' 16 5
def fB (w : Word32) : SReg := w.extractLsb' 11 5
def fFn (w : Word32) : BitVec 7 := w.extractLsb' 4 7
def fG (w : Word32) : BitVec 4 := w.extractLsb' 0 4
def fImm12 (w : Word32) : BitVec 12 := w.extractLsb' 4 12
def fImm17 (w : Word32) : BitVec 17 := w.extractLsb' 4 17
def fOffM (w : Word32) : BitVec 10 := w.extractLsb' 6 10
def fSz (w : Word32) : BitVec 2 := w.extractLsb' 4 2
def fOffJ (w : Word32) : BitVec 22 := w.extractLsb' 4 22
def fCsr (w : Word32) : BitVec 10 := w.extractLsb' 11 10
/-- The q register in the low three bits of a five-bit field, R35. -/
def qLow (f : SReg) : QReg := f.extractLsb' 0 3
def qHigh (f : SReg) : BitVec 2 := f.extractLsb' 3 2
/-- The sync field in bits [3:0], R36. -/
def fSync (w : Word32) : Sync := ⟨w.getLsbD 3, w.getLsbD 2, w.extractLsb' 0 2⟩

abbrev Decoded := Except Reject Instr

/-- An unguarded instruction: a non-zero grd field is refused after every other check, R43. -/
def unguarded (w : Word32) (i : Instr) : Decoded := if fG w = 0 then .ok i else .error .guardField
/-- A fixed-zero field is tested before the guard, R43. -/
def zeroF (ok : Bool) (k : Decoded) : Decoded := if ok then k else .error .fixedZero
/-- A field that names a q register must have zero upper bits, R35. -/
def qF (f : SReg) (k : Decoded) : Decoded := if qHigh f = 0 then k else .error .guardRegUpper

def rrr (w : Word32) (c : SReg → SReg → SReg → Instr) : Decoded := unguarded w (c (fD w) (fA w) (fB w))
def rr0 (w : Word32) (c : SReg → SReg → Instr) : Decoded := zeroF (fB w == 0) (unguarded w (c (fD w) (fA w)))
def cmpF (w : Word32) (c : QReg → SReg → SReg → Instr) : Decoded :=
  if (fD w).extractLsb' 3 2 = 0#2 then unguarded w (c (qLow (fD w)) (fA w) (fB w)) else .error .compareUpper
def guardedRrr (w : Word32) (c : SReg → SReg → SReg → BitVec 4 → Instr) : Decoded := .ok (c (fD w) (fA w) (fB w) (fG w))
def immF (w : Word32) (c : SReg → SReg → BitVec 12 → Instr) : Decoded := unguarded w (c (fD w) (fA w) (fImm12 w))
def shiftF (w : Word32) (c : SReg → SReg → BitVec 6 → Instr) : Decoded :=
  zeroF ((fImm12 w).extractLsb' 6 6 == 0) (unguarded w (c (fD w) (fA w) ((fImm12 w).extractLsb' 0 6)))
def loadF (w : Word32) (c : SReg → SReg → BitVec 10 → Instr) : Decoded := unguarded w (c (fD w) (fA w) (fOffM w))
def storeF (w : Word32) (c : SReg → SReg → BitVec 10 → BitVec 4 → Instr) : Decoded :=
  .ok (c (fD w) (fA w) (fOffM w) (fG w))

/-- Major 0x01, R39. -/
def decodeInteger (w : Word32) : Decoded :=
  match (fFn w).toNat with
  | 0 => rrr w .add
  | 1 => rrr w .sub
  | 2 => rrr w .mul
  | 3 => rrr w .mulh
  | 4 => rrr w .mulhs
  | 5 => rrr w .div
  | 6 => rrr w .divs
  | 7 => rrr w .rem
  | 8 => rrr w .rems
  | 9 => rrr w .and
  | 10 => rrr w .or
  | 11 => rrr w .xor
  | 12 => rrr w .andn
  | 13 => rrr w .orn
  | 14 => rrr w .shl
  | 15 => rrr w .shr
  | 16 => rrr w .sha
  | 17 => rrr w .rol
  | 18 => rrr w .ror
  | 19 => rrr w .min
  | 20 => rrr w .max
  | 21 => rrr w .mins
  | 22 => rrr w .maxs
  | 23 => zeroF (fB w == 0) (unguarded w (.clz (fD w) (fA w)))
  | 24 => zeroF (fB w == 0) (unguarded w (.ctz (fD w) (fA w)))
  | 25 => zeroF (fB w == 0) (unguarded w (.popc (fD w) (fA w)))
  | 26 => zeroF (fB w == 0) (unguarded w (.brev (fD w) (fA w)))
  | 27 => zeroF (fB w == 0) (unguarded w (.bswap (fD w) (fA w)))
  | 28 => rrr w .addw
  | 29 => rrr w .subw
  | 30 => rrr w .mulw
  | 31 => rrr w .shlw
  | _ => .error .unassignedFn

/-- Major 0x0E, R39. -/
def decodeCompare (w : Word32) : Decoded :=
  match (fFn w).toNat with
  | 0 => cmpF w .ceq
  | 1 => cmpF w .cne
  | 2 => cmpF w .clt
  | 3 => cmpF w .cle
  | 4 => cmpF w .clts
  | 5 => cmpF w .cles
  | 6 => cmpF w .cbit
  | 7 => if (fD w).extractLsb' 3 2 = 0#2 then zeroF (fB w == 0) (unguarded w (.cz (qLow (fD w)) (fA w))) else .error .compareUpper
  | _ => .error .unassignedFn

/-- Major 0x0F, R39. -/
def decodeGuardLogic (w : Word32) : Decoded :=
  match (fFn w).toNat with
  | 0 => qF (fD w) (qF (fA w) (qF (fB w) (unguarded w (.qand (qLow (fD w)) (qLow (fA w)) (qLow (fB w))))))
  | 1 => qF (fD w) (qF (fA w) (qF (fB w) (unguarded w (.qor (qLow (fD w)) (qLow (fA w)) (qLow (fB w))))))
  | 2 => qF (fD w) (qF (fA w) (qF (fB w) (unguarded w (.qxor (qLow (fD w)) (qLow (fA w)) (qLow (fB w))))))
  | 3 => qF (fD w) (qF (fA w) (zeroF (fB w == 0) (unguarded w (.qnot (qLow (fD w)) (qLow (fA w))))))
  | 4 => qF (fD w) (zeroF (fA w == 0 && (fB w).extractLsb' 1 4 == 0) (unguarded w (.qset (qLow (fD w)) ((fB w).getLsbD 0))))
  | 5 => qF (fD w) (qF (fA w) (zeroF (fB w == 0) (unguarded w (.qmov (qLow (fD w)) (qLow (fA w))))))
  | _ => .error .unassignedFn

/-- Major 0x10, R39. -/
def decodeSelect (w : Word32) : Decoded :=
  match (fFn w).toNat with
  | 0 => zeroF (fB w == 0) (.ok (.sel (fD w) (fA w) (fG w)))
  | 1 => zeroF (fA w == 0 && fB w == 0) (unguarded w (.qrd (fD w)))
  | 2 => zeroF (fD w == 0 && fB w == 0) (unguarded w (.qwr (fA w)))
  | _ => .error .unassignedFn

/-- Major 0x16, R39. -/
def decodeAtomic (w : Word32) : Decoded :=
  match (fFn w).toNat with
  | 0 => guardedRrr w .aadd
  | 1 => guardedRrr w .aswp
  | 2 => guardedRrr w .acas
  | 3 => guardedRrr w .amin
  | 4 => guardedRrr w .amax
  | 5 => guardedRrr w .aand
  | 6 => guardedRrr w .aor
  | 7 => guardedRrr w .axor
  | 8 => guardedRrr w .waitv
  | 9 => guardedRrr w .wake
  | _ => .error .unassignedFn

/-- Major 0x1C, R39. -/
def decodeTask (w : Word32) : Decoded :=
  match (fFn w).toNat with
  | 0 => zeroF (fA w == 0 && fB w == 0) (unguarded w (.twait (fD w)))
  | 1 => rrr w .tbind
  | 2 => zeroF (fD w == 0 && fA w == 0 && fB w == 0) (unguarded w (.tyield))
  | 3 => rrr w .tspawn
  | 4 => zeroF (fD w == 0 && fA w == 0 && fB w == 0) (unguarded w (.texit))
  | 5 => rrr w .chrd
  | 6 => zeroF (fD w == 0) (unguarded w (.chwr (fA w) (fB w)))
  | 7 => zeroF (fD w == 0 && fA w == 0 && fB w == 0) (unguarded w (.trig))
  | 8 => zeroF (fD w == 0 && fB w == 0) (unguarded w (.barq (fA w)))
  | _ => .error .unassignedFn

/-- Major 0x1D, R39. -/
def decodeFabric (w : Word32) : Decoded :=
  match (fFn w).toNat with
  | 0 => rrr w .opld
  | 1 => rrr w .swld
  | 2 => rrr w .shplace
  | 3 => rrr w .shfree
  | 4 => rrr w .cfgload
  | 5 => zeroF (fD w == 0) (unguarded w (.ctxpri (fA w) (fB w)))
  | 6 => rrr w .edgedepth
  | _ => .error .unassignedFn

/-- Major 0x1E, R39. -/
def decodeStream (w : Word32) : Decoded :=
  match (fFn w).toNat with
  | 0 => .ok (.tvset (fD w) (fA w) (fB w) (fSync w))
  | 1 => zeroF (fD w == 0 && fB w == 0) (.ok (.tvclr (fA w) (fSync w)))
  | 2 => .ok (.sbind (fD w) (fA w) (fB w) (fSync w))
  | 3 => zeroF (fD w == 0 && fA w == 0 && fB w == 0) (.ok (.sbar (fSync w)))
  | 4 => zeroF (fB w == 0) (.ok (.swait (fD w) (fA w) (fSync w)))
  | 5 => zeroF (fD w == 0 && fB w == 0) (.ok (.scan (fA w) (fSync w)))
  | _ => .error .unassignedFn

/-- Major 0x1F, R39. -/
def decodeCopy (w : Word32) : Decoded :=
  match (fFn w).toNat with
  | 0 => zeroF (fB w == 0) (.ok (.cpy (fD w) (fA w) (fSync w)))
  | 1 => .ok (.cpyv (fD w) (fA w) (fB w) (fSync w))
  | 2 => zeroF (fB w == 0) (.ok (.cpyf (fD w) (fA w) (fSync w)))
  | 3 => .ok (.cpyst (fD w) (fA w) (fB w) (fSync w))
  | 4 => zeroF (fB w == 0) (.ok (.cpysync (fD w) (fA w) (fSync w)))
  | _ => .error .unassignedFn

/-- Major 0x20, R39. -/
def decodeDiagram (w : Word32) : Decoded :=
  match (fFn w).toNat with
  | 0 => zeroF (fB w == 0) (.ok (.ddvar (fD w) (fA w) (fSync w)))
  | 1 => .ok (.ddapply (fD w) (fA w) (fB w) (fSync w))
  | 2 => .ok (.ddite (fD w) (fA w) (fB w) (fSync w))
  | 3 => .ok (.ddrest (fD w) (fA w) (fB w) (fSync w))
  | 4 => .ok (.ddex (fD w) (fA w) (fB w) (fSync w))
  | 5 => .ok (.ddwcnt (fD w) (fA w) (fB w) (fSync w))
  | 6 => .ok (.ddeval (fD w) (fA w) (fB w) (fSync w))
  | 7 => zeroF (fB w == 0) (.ok (.ddref (fD w) (fA w) (fSync w)))
  | 8 => zeroF (fB w == 0) (.ok (.ddderef (fD w) (fA w) (fSync w)))
  | 9 => .ok (.ddcollCollect (fD w) (fA w) (fB w) (fSync w))
  | 10 => .ok (.ddord (fD w) (fA w) (fB w) (fSync w))
  | 11 => .ok (.ddswap (fD w) (fA w) (fB w) (fSync w))
  | 12 => .ok (.ddexp (fD w) (fA w) (fB w) (fSync w))
  | 13 => .ok (.ddimp (fD w) (fA w) (fB w) (fSync w))
  | 14 => .ok (.ddstat (fD w) (fA w) (fB w) (fSync w))
  | _ => .error .unassignedFn

/-- Major 0x21, R39. -/
def decodeEgress (w : Word32) : Decoded :=
  match (fFn w).toNat with
  | 0 => zeroF (fB w == 0) (.ok (.egpost (fD w) (fA w) (fSync w)))
  | 1 => .ok (.egrel (fD w) (fA w) (fB w) (fSync w))
  | 2 => .ok (.egrej (fD w) (fA w) (fB w) (fSync w))
  | 3 => .ok (.egstat (fD w) (fA w) (fB w) (fSync w))
  | _ => .error .unassignedFn

/-- Major 0x22, R39. -/
def decodeFold (w : Word32) : Decoded :=
  match (fFn w).toNat with
  | 0 => .ok (.fdeclDescriptor (fD w) (fA w) (fB w) (fSync w))
  | 1 => zeroF (fB w == 0) (.ok (.fgrow (fD w) (fA w) (fSync w)))
  | 2 => zeroF (fB w == 0) (.ok (.fcheck (fD w) (fA w) (fSync w)))
  | 3 => zeroF (fB w == 0) (.ok (.fdrop (fD w) (fA w) (fSync w)))
  | 4 => .ok (.fstat (fD w) (fA w) (fB w) (fSync w))
  | _ => .error .unassignedFn

/-- Major 0x23, R39. -/
def decodeCollective (w : Word32) : Decoded :=
  match (fFn w).toNat with
  | 0 => zeroF (fB w == 0) (.ok (.coll (fD w) (fA w) (fSync w)))
  | 1 => .ok (.colst (fD w) (fA w) (fB w) (fSync w))
  | 2 => .ok (.colab (fD w) (fA w) (fB w) (fSync w))
  | _ => .error .unassignedFn

/-- Major 0x24, R39. -/
def decodeRemote (w : Word32) : Decoded :=
  match (fFn w).toNat with
  | 0 => rrr w .qtail
  | 1 => rrr w .spawnat
  | 2 => zeroF (fB w == 0) (unguarded w (.cancelJob (fD w) (fA w)))
  | _ => .error .unassignedFn

/-- Major 0x25, R39. -/
def decodeDatum (w : Word32) : Decoded :=
  match (fFn w).toNat with
  | 0 => rrr w .dsetupNew
  | 1 => rrr w .dwmarkPost
  | 2 => rrr w .dstat
  | _ => .error .unassignedFn

/-- The CSR numbers that R24 lists. -/
def csrListed (n : Nat) : Bool :=
  n ≤ 5 || (0x10 ≤ n && n ≤ 0x14) || (0x20 ≤ n && n ≤ 0x22) || n == 0x30 || n == 0x31 || (0x40 ≤ n && n ≤ 0x43)
    || n == 0x60 || n == 0x70

/-- A CSR word: with a non-zero grd field, cause 0x01 of an unlisted number comes before 0x02, R21. -/
def csrF (w : Word32) (c : SReg → BitVec 10 → Instr) : Decoded :=
  if fG w ≠ 0 ∧ csrListed (fCsr w).toNat = false then .error .csrNumber else unguarded w (c (fD w) (fCsr w))

/-- Major 0x3F, R39. -/
def decodeSystem (w : Word32) : Decoded :=
  match (fFn w).toNat with
  | 0 => zeroF (fD w == 0 && fB w == 0) (unguarded w (.trap (fA w)))
  | 1 => zeroF (fD w == 0 && fA w == 0 && fB w == 0) (unguarded w (.tret))
  | 2 => csrF w .csrr
  | 3 => csrF w .csrw
  | 4 => csrF w .csrs
  | 5 => csrF w .csrc
  | 6 => if 2 ≤ (fD w).toNat ∧ (fD w).toNat ≤ 5 then zeroF (fA w == 0 && fB w == 0) (unguarded w (.fence (fD w))) else .error .fenceScope
  | 7 => zeroF (fD w == 0 && fA w == 0 && fB w == 0) (unguarded w (.halt))
  | 8 => zeroF (fD w == 0 && fA w == 0 && fB w == 0) (unguarded w (.brkpt))
  | 9 => zeroF (fD w == 0 && fA w == 0 && fB w == 0) (unguarded w (.idle))
  | 10 => rrr w .ctxsave
  | 11 => rrr w .ctxrest
  | 12 => zeroF (fD w == 0) (unguarded w (.tlbinv (fA w) (fB w)))
  | _ => .error .unassignedFn

/-- Majors 0x19, 0x1A and 0x1B have fn 0 alone, R39 and R72. -/
def onlyFn0 (w : Word32) (k : Decoded) : Decoded := if fFn w = 0 then k else .error .unassignedFn

/-- A control word, R38–R43. The first outcome reached in R43's order is the answer. -/
def decodeControl (w : Word32) : Decoded :=
  match (fMaj w).toNat with
  | 0x01 => decodeInteger w
  | 0x02 => immF w .addi
  | 0x03 => immF w .andi
  | 0x04 => immF w .ori
  | 0x05 => immF w .xori
  | 0x06 => shiftF w .shli
  | 0x07 => shiftF w .shri
  | 0x08 => shiftF w .shai
  | 0x09 => immF w .muli
  | 0x0A => immF w .mini
  | 0x0B => immF w .maxi
  | 0x0C => unguarded w (.lui (fD w) (fImm17 w))
  | 0x0D => unguarded w (.addpc (fD w) (fImm17 w))
  | 0x0E => decodeCompare w
  | 0x0F => decodeGuardLogic w
  | 0x10 => decodeSelect w
  | 0x11 => match (fSz w).toNat with | 0 => loadF w .ldzB | 1 => loadF w .ldzH | 2 => loadF w .ldzW | _ => loadF w .ldzD
  | 0x12 => match (fSz w).toNat with | 0 => loadF w .ldsB | 1 => loadF w .ldsH | 2 => loadF w .ldsW | _ => .error .illegalSize
  | 0x13 => match (fSz w).toNat with | 0 => storeF w .stB | 1 => storeF w .stH | 2 => storeF w .stW | _ => storeF w .stD
  | 0x14 => match (fSz w).toNat with | 0 => loadF w .ldgB | 1 => loadF w .ldgH | 2 => loadF w .ldgW | _ => loadF w .ldgD
  | 0x15 => match (fSz w).toNat with | 0 => storeF w .stgB | 1 => storeF w .stgH | 2 => storeF w .stgW | _ => storeF w .stgD
  | 0x16 => decodeAtomic w
  | 0x17 => .ok (.br (fOffJ w) (fG w))
  | 0x18 => .ok (.call (fOffJ w) (fG w))
  | 0x19 => onlyFn0 w (zeroF (fD w == 0 && fB w == 0) (.ok (.jr (fA w) (fG w))))
  | 0x1A => onlyFn0 w (guardedRrr w .callt)
  | 0x1B => onlyFn0 w (zeroF (fD w == 0 && fB w == 0) (.ok (.ret (fA w) (fG w))))
  | 0x1C => decodeTask w
  | 0x1D => decodeFabric w
  | 0x1E => decodeStream w
  | 0x1F => decodeCopy w
  | 0x20 => decodeDiagram w
  | 0x21 => decodeEgress w
  | 0x22 => decodeFold w
  | 0x23 => decodeCollective w
  | 0x24 => decodeRemote w
  | 0x25 => decodeDatum w
  | 0x3F => decodeSystem w
  | _ => .error .reservedMajor

/-- The cause that a rejected control word raises, R43: 0x02 for the guard, 0x01 for everything else. -/
def Reject.cause (r : Reject) : Nat := if r = .guardField then 0x02 else 0x01

/-! ## Operation words, R44 and R47 -/

def opNum (w : Word32) : Nat := (w.extractLsb' 25 7).toNat
def opFields (w : Word32) : OpWord :=
  ⟨w.extractLsb' 22 3, w.extractLsb' 18 4, w.extractLsb' 14 4, w.extractLsb' 10 4, w.extractLsb' 5 5,
   w.extractLsb' 3 2, w.extractLsb' 0 3⟩

/-- The op of a number, R47; none for 120–127. -/
noncomputable def opOfNum (n : Nat) (f : OpWord) : Option Instr :=
  match n with
  | 0 => some (.elemAdd f)
  | 1 => some (.elemSub f)
  | 2 => some (.elemMul f)
  | 3 => some (.mac f)
  | 4 => some (.elemMin f)
  | 5 => some (.elemMax f)
  | 6 => some (.abs f)
  | 7 => some (.neg f)
  | 8 => some (.elemAnd f)
  | 9 => some (.elemOr f)
  | 10 => some (.elemXor f)
  | 11 => some (.not f)
  | 12 => some (.elemShl f)
  | 13 => some (.elemShr f)
  | 14 => some (.elemSha f)
  | 15 => some (.clamp f)
  | 16 => some (.fadd f)
  | 17 => some (.fsub f)
  | 18 => some (.fmul f)
  | 19 => some (.fma f)
  | 20 => some (.fmin f)
  | 21 => some (.fmax f)
  | 22 => some (.fabs f)
  | 23 => some (.fneg f)
  | 24 => some (.fdiv f)
  | 25 => some (.fsqrt f)
  | 26 => some (.frcp f)
  | 27 => some (.frsq f)
  | 28 => some (.fexp f)
  | 29 => some (.flog f)
  | 30 => some (.ftanh f)
  | 31 => some (.fsig f)
  | 32 => some (.cvt f)
  | 33 => some (.cvtr f)
  | 34 => some (.pack f)
  | 35 => some (.unpack f)
  | 36 => some (.scale f)
  | 37 => some (.qnt f)
  | 38 => some (.cmpeq f)
  | 39 => some (.cmpne f)
  | 40 => some (.cmplt f)
  | 41 => some (.cmple f)
  | 42 => some (.steer f)
  | 43 => some (.merge f)
  | 44 => some (.mergeo f)
  | 45 => some (.gate f)
  | 46 => some (.selp f)
  | 47 => some (.nullgen f)
  | 48 => some (.taginc f)
  | 49 => some (.tagset f)
  | 50 => some (.tagget f)
  | 51 => some (.tagclr f)
  | 52 => some (.reord f)
  | 53 => some (.ctxalloc f)
  | 54 => some (.colpack f)
  | 55 => some (.colunpk f)
  | 56 => some (.framealloc f)
  | 57 => some (.framefree f)
  | 58 => some (.spawn f)
  | 59 => some (.stamp f)
  | 60 => some (.loopb f)
  | 61 => some (.loope f)
  | 62 => some (.loopt f)
  | 63 => some (.loopx f)
  | 64 => some (.loopi f)
  | 65 => some (.rsum f)
  | 66 => some (.rmax f)
  | 67 => some (.rmin f)
  | 68 => some (.rand f)
  | 69 => some (.elemRor f)
  | 70 => some (.rxor f)
  | 71 => some (.elemRdot f)
  | 72 => some (.rcnt f)
  | 73 => some (.shuf f)
  | 74 => some (.bcast f)
  | 75 => some (.rotl f)
  | 76 => some (.lsel f)
  | 77 => some (.scanadd f)
  | 78 => some (.topk f)
  | 79 => some (.nld f)
  | 80 => some (.nst f)
  | 81 => some (.nldt f)
  | 82 => some (.ald f)
  | 83 => some (.ast f)
  | 84 => some (.aldr f)
  | 85 => some (.sld f)
  | 86 => some (.sldc f)
  | 87 => some (.vst f)
  | 88 => some (.oupd f)
  | 89 => some (.fencee f)
  | 90 => some (.pfetch f)
  | 91 => some (.dupd f)
  | 92 => some (.dldt f)
  | 93 => some (.dlds f)
  | 94 => some (.dfront f)
  | 95 => some (.mxctl f)
  | 96 => some (.mxfeed f)
  | 97 => some (.mxrda f)
  | 98 => some (.nop f)
  | 99 => some (.const f)
  | 100 => some (.copyt f)
  | 101 => some (.sink f)
  | 102 => some (.errchk f)
  | 103 => some (.trape f)
  | 104 => some (.brk f)
  | 105 => some (.adds f)
  | 106 => some (.subs f)
  | 107 => some (.muls f)
  | 108 => some (.elemPopc f)
  | 109 => some (.elemClz f)
  | 110 => some (.frnd f)
  | 111 => some (.fcls f)
  | 112 => some (.fcps f)
  | 113 => some (.avg f)
  | 114 => some (.sad f)
  | 115 => some (.hist f)
  | 116 => some (.lut f)
  | 117 => some (.bits f)
  | 118 => some (.biti f)
  | 119 => some (.idx f)
  | _ => none

/-- An operation word with the checks of R50 that concern the word alone. -/
noncomputable def decodeOp (w : Word32) : Decoded :=
  match opOfNum (opNum w) (opFields w) with
  | none => .error .reservedOp
  | some i => match i.illFormed with
    | none => .ok i
    | some e => .error (.illFormed e)

/-! ## Matrix control tokens, R54 and R55 -/

def mxFields (w : BitVec 64) : MxWord :=
  ⟨w.extractLsb' 58 4, w.extractLsb' 46 12, w.extractLsb' 40 6, w.extractLsb' 33 7, w.extractLsb' 21 12,
   w.extractLsb' 14 7, w.extractLsb' 8 6, w.getLsbD 5⟩

/-- The opcode of OPC, R55: every value is assigned. -/
noncomputable def mxOfNum (n : Nat) (f : MxWord) : Instr :=
  match n with
  | 0 => .mma f
  | 1 => .mmao f
  | 2 => .mmat f
  | 3 => .mmas f
  | 4 => .mmax f
  | 5 => .mmad f
  | 6 => .mmai f
  | 7 => .mmaq f
  | 8 => .mmab f
  | 9 => .mmaf f
  | 10 => .mxRdot f
  | 11 => .rdotx f
  | 12 => .aclr f
  | 13 => .aread f
  | 14 => .awrite f
  | 15 => .ascale f
  | 16 => .acvt f
  | 17 => .abias f
  | 18 => .aact f
  | 19 => .atrn f
  | 20 => .bload f
  | 21 => .bsel f
  | 22 => .bflip f
  | 23 => .bstat f
  | 24 => .calloc f
  | 25 => .cfree f
  | 26 => .cpark f
  | 27 => .cfetch f
  | 28 => .aerrq f
  | 29 => .aflush f
  | 30 => .async f
  | _ => .anop f

/-- A matrix control token. A reserved bit that is set is refused; the other checks of R56 are `Instr.illFormed` and
the node's own. -/
noncomputable def decodeMatrix (w : BitVec 64) : Decoded :=
  if w.extractLsb' 62 2 = 0#2 ∧ w.extractLsb' 6 2 = 0#2 then .ok (mxOfNum (w.extractLsb' 0 5).toNat (mxFields w))
  else .error .mxReserved

/-! ## Bytes and table words -/

/-- The little-endian number of a byte list, R5. -/
def leNat : List Byte → Nat
  | [] => 0
  | b :: bs => b.toNat + 256 * leNat bs

/-- The `n` low bytes of a number, lowest address first, R5. -/
def leBytes : Nat → Nat → List Byte
  | 0, _ => []
  | n + 1, x => BitVec.ofNat 8 x :: leBytes n (x / 256)

/-- A control word read from its bytes in the instruction store. -/
def decodeControlBytes (bs : List Byte) : Decoded :=
  match bs with
  | b0 :: b1 :: b2 :: b3 :: _ => decodeControl (BitVec.ofNat 32 (leNat [b0, b1, b2, b3]))
  | _ => .error .truncated

/-- An operation word read from its bytes. -/
noncomputable def decodeOpBytes (bs : List Byte) : Decoded :=
  match bs with
  | b0 :: b1 :: b2 :: b3 :: _ => decodeOp (BitVec.ofNat 32 (leNat [b0, b1, b2, b3]))
  | _ => .error .truncated

/-- A matrix control token read from its bytes. -/
noncomputable def decodeMatrixBytes (bs : List Byte) : Decoded :=
  if bs.length < 8 then .error .truncated else decodeMatrix (BitVec.ofNat 64 (leNat (bs.take 8)))

/-- The instruction this decoder reads from the bits `w` of a table row of `nbits` bits. The three opcode spaces are
separate (R33) and two of them share the width of 32 bits: a 32-bit pattern is read as a control word, and as an
operation word when it is no control word. A pattern of more than 32 bits is a matrix control token. -/
noncomputable def decodeTableWord (nbits w : Nat) : Option Instr :=
  if nbits ≤ 32 then
    match decodeControlBytes (leBytes 4 w) with
    | .ok i => some i
    | .error _ => (decodeOpBytes (leBytes 4 w)).toOption
  else (decodeMatrixBytes (leBytes 8 w)).toOption

/-! ## The encoder -/

/-- Format A, R34. -/
def packA (maj : BitVec 6) (d a b : SReg) (fn : BitVec 7) (g : BitVec 4) : Word32 := maj ++ d ++ a ++ b ++ fn ++ g
/-- Format I, R34. -/
def packI (maj : BitVec 6) (d a : SReg) (imm : BitVec 12) : Word32 := maj ++ d ++ a ++ imm ++ 0#4
/-- Format U, R34. -/
def packU (maj : BitVec 6) (d : SReg) (imm : BitVec 17) : Word32 := maj ++ d ++ imm ++ 0#4
/-- Format M, R34. -/
def packM (maj : BitVec 6) (d a : SReg) (off : BitVec 10) (sz : BitVec 2) (g : BitVec 4) : Word32 :=
  maj ++ d ++ a ++ off ++ sz ++ g
/-- Format J, R34. -/
def packJ (maj : BitVec 6) (off : BitVec 22) (g : BitVec 4) : Word32 := maj ++ off ++ g
/-- A CSR word, R76. -/
def packC (d : SReg) (csr : BitVec 10) (fn : BitVec 7) : Word32 := (0x3F#6) ++ d ++ csr ++ fn ++ 0#4
/-- A q register in a five-bit field, R35. -/
def q5 (q : QReg) : SReg := 0#2 ++ q
/-- The sync field, R36. -/
def packSync (y : Sync) : BitVec 4 := BitVec.ofBool y.push ++ BitVec.ofBool y.pop ++ y.fifo
/-- An operation word, R44. -/
def packOp (n : BitVec 7) (f : OpWord) : Word32 := n ++ f.pm ++ f.sa ++ f.sb ++ f.dst ++ f.col ++ f.tg ++ f.sub
/-- A matrix control token, R54. -/
def packMx (n : BitVec 5) (f : MxWord) : BitVec 64 :=
  0#2 ++ f.fmt ++ f.boff ++ f.row0 ++ f.col0 ++ f.km1 ++ f.nm1 ++ f.mm1 ++ 0#2 ++ BitVec.ofBool f.acc ++ n

/-- An encoded instruction: a word of one of the three spaces. Events have no encoding. -/
inductive Encoded where
  | control (w : Word32)
  | op (w : Word32)
  | matrix (w : BitVec 64)
  deriving DecidableEq, Repr

/-- The word of an instruction, R34–R55; none for an event. The forms that the table lists apart but that share one
word (DDCOLL, FDECL, CANCEL, DSETUP, DWMARK: the form lies in a register) have that word. -/
def encode (i : Instr) : Option Encoded :=
  match i with
  | .add d a b => some (.control (packA 0x01 d a b 0 0))
  | .sub d a b => some (.control (packA 0x01 d a b 1 0))
  | .mul d a b => some (.control (packA 0x01 d a b 2 0))
  | .mulh d a b => some (.control (packA 0x01 d a b 3 0))
  | .mulhs d a b => some (.control (packA 0x01 d a b 4 0))
  | .div d a b => some (.control (packA 0x01 d a b 5 0))
  | .divs d a b => some (.control (packA 0x01 d a b 6 0))
  | .rem d a b => some (.control (packA 0x01 d a b 7 0))
  | .rems d a b => some (.control (packA 0x01 d a b 8 0))
  | .and d a b => some (.control (packA 0x01 d a b 9 0))
  | .or d a b => some (.control (packA 0x01 d a b 10 0))
  | .xor d a b => some (.control (packA 0x01 d a b 11 0))
  | .andn d a b => some (.control (packA 0x01 d a b 12 0))
  | .orn d a b => some (.control (packA 0x01 d a b 13 0))
  | .shl d a b => some (.control (packA 0x01 d a b 14 0))
  | .shr d a b => some (.control (packA 0x01 d a b 15 0))
  | .sha d a b => some (.control (packA 0x01 d a b 16 0))
  | .rol d a b => some (.control (packA 0x01 d a b 17 0))
  | .ror d a b => some (.control (packA 0x01 d a b 18 0))
  | .min d a b => some (.control (packA 0x01 d a b 19 0))
  | .max d a b => some (.control (packA 0x01 d a b 20 0))
  | .mins d a b => some (.control (packA 0x01 d a b 21 0))
  | .maxs d a b => some (.control (packA 0x01 d a b 22 0))
  | .clz d a => some (.control (packA 0x01 d a 0 23 0))
  | .ctz d a => some (.control (packA 0x01 d a 0 24 0))
  | .popc d a => some (.control (packA 0x01 d a 0 25 0))
  | .brev d a => some (.control (packA 0x01 d a 0 26 0))
  | .bswap d a => some (.control (packA 0x01 d a 0 27 0))
  | .addw d a b => some (.control (packA 0x01 d a b 28 0))
  | .subw d a b => some (.control (packA 0x01 d a b 29 0))
  | .mulw d a b => some (.control (packA 0x01 d a b 30 0))
  | .shlw d a b => some (.control (packA 0x01 d a b 31 0))
  | .addi d a imm => some (.control (packI 0x02 d a imm))
  | .andi d a imm => some (.control (packI 0x03 d a imm))
  | .ori d a imm => some (.control (packI 0x04 d a imm))
  | .xori d a imm => some (.control (packI 0x05 d a imm))
  | .shli d a imm => some (.control (packI 0x06 d a (0#6 ++ imm)))
  | .shri d a imm => some (.control (packI 0x07 d a (0#6 ++ imm)))
  | .shai d a imm => some (.control (packI 0x08 d a (0#6 ++ imm)))
  | .muli d a imm => some (.control (packI 0x09 d a imm))
  | .mini d a imm => some (.control (packI 0x0A d a imm))
  | .maxi d a imm => some (.control (packI 0x0B d a imm))
  | .lui d imm => some (.control (packU 0x0C d imm))
  | .addpc d imm => some (.control (packU 0x0D d imm))
  | .ceq q a b => some (.control (packA 0x0E (q5 q) a b 0 0))
  | .cne q a b => some (.control (packA 0x0E (q5 q) a b 1 0))
  | .clt q a b => some (.control (packA 0x0E (q5 q) a b 2 0))
  | .cle q a b => some (.control (packA 0x0E (q5 q) a b 3 0))
  | .clts q a b => some (.control (packA 0x0E (q5 q) a b 4 0))
  | .cles q a b => some (.control (packA 0x0E (q5 q) a b 5 0))
  | .cbit q a b => some (.control (packA 0x0E (q5 q) a b 6 0))
  | .cz q a => some (.control (packA 0x0E (q5 q) a 0 7 0))
  | .qand d a b => some (.control (packA 0x0F (q5 d) (q5 a) (q5 b) 0 0))
  | .qor d a b => some (.control (packA 0x0F (q5 d) (q5 a) (q5 b) 1 0))
  | .qxor d a b => some (.control (packA 0x0F (q5 d) (q5 a) (q5 b) 2 0))
  | .qnot d a => some (.control (packA 0x0F (q5 d) (q5 a) 0 3 0))
  | .qset d b => some (.control (packA 0x0F (q5 d) 0 (0#4 ++ BitVec.ofBool b) 4 0))
  | .qmov d a => some (.control (packA 0x0F (q5 d) (q5 a) 0 5 0))
  | .sel d a g => some (.control (packA 0x10 d a 0 0 g))
  | .qrd d => some (.control (packA 0x10 d 0 0 1 0))
  | .qwr a => some (.control (packA 0x10 0 a 0 2 0))
  | .ldzB d a off => some (.control (packM 0x11 d a off 0 0))
  | .ldzH d a off => some (.control (packM 0x11 d a off 1 0))
  | .ldzW d a off => some (.control (packM 0x11 d a off 2 0))
  | .ldzD d a off => some (.control (packM 0x11 d a off 3 0))
  | .ldsB d a off => some (.control (packM 0x12 d a off 0 0))
  | .ldsH d a off => some (.control (packM 0x12 d a off 1 0))
  | .ldsW d a off => some (.control (packM 0x12 d a off 2 0))
  | .stB v a off g => some (.control (packM 0x13 v a off 0 g))
  | .stH v a off g => some (.control (packM 0x13 v a off 1 g))
  | .stW v a off g => some (.control (packM 0x13 v a off 2 g))
  | .stD v a off g => some (.control (packM 0x13 v a off 3 g))
  | .ldgB d a off => some (.control (packM 0x14 d a off 0 0))
  | .ldgH d a off => some (.control (packM 0x14 d a off 1 0))
  | .ldgW d a off => some (.control (packM 0x14 d a off 2 0))
  | .ldgD d a off => some (.control (packM 0x14 d a off 3 0))
  | .stgB v a off g => some (.control (packM 0x15 v a off 0 g))
  | .stgH v a off g => some (.control (packM 0x15 v a off 1 g))
  | .stgW v a off g => some (.control (packM 0x15 v a off 2 g))
  | .stgD v a off g => some (.control (packM 0x15 v a off 3 g))
  | .aadd d a b g => some (.control (packA 0x16 d a b 0 g))
  | .aswp d a b g => some (.control (packA 0x16 d a b 1 g))
  | .acas d a b g => some (.control (packA 0x16 d a b 2 g))
  | .amin d a b g => some (.control (packA 0x16 d a b 3 g))
  | .amax d a b g => some (.control (packA 0x16 d a b 4 g))
  | .aand d a b g => some (.control (packA 0x16 d a b 5 g))
  | .aor d a b g => some (.control (packA 0x16 d a b 6 g))
  | .axor d a b g => some (.control (packA 0x16 d a b 7 g))
  | .waitv d a b g => some (.control (packA 0x16 d a b 8 g))
  | .wake d a b g => some (.control (packA 0x16 d a b 9 g))
  | .br off g => some (.control (packJ 0x17 off g))
  | .call off g => some (.control (packJ 0x18 off g))
  | .jr a g => some (.control (packA 0x19 0 a 0 0 g))
  | .callt d a b g => some (.control (packA 0x1A d a b 0 g))
  | .ret a g => some (.control (packA 0x1B 0 a 0 0 g))
  | .twait d => some (.control (packA 0x1C d 0 0 0 0))
  | .tbind d a b => some (.control (packA 0x1C d a b 1 0))
  | .tyield => some (.control (packA 0x1C 0 0 0 2 0))
  | .tspawn d a b => some (.control (packA 0x1C d a b 3 0))
  | .texit => some (.control (packA 0x1C 0 0 0 4 0))
  | .chrd d a b => some (.control (packA 0x1C d a b 5 0))
  | .chwr a b => some (.control (packA 0x1C 0 a b 6 0))
  | .trig => some (.control (packA 0x1C 0 0 0 7 0))
  | .barq a => some (.control (packA 0x1C 0 a 0 8 0))
  | .opld d a b => some (.control (packA 0x1D d a b 0 0))
  | .swld d a b => some (.control (packA 0x1D d a b 1 0))
  | .shplace d a b => some (.control (packA 0x1D d a b 2 0))
  | .shfree d a b => some (.control (packA 0x1D d a b 3 0))
  | .cfgload d a b => some (.control (packA 0x1D d a b 4 0))
  | .ctxpri a b => some (.control (packA 0x1D 0 a b 5 0))
  | .edgedepth d a b => some (.control (packA 0x1D d a b 6 0))
  | .tvset d a b y => some (.control (packA 0x1E d a b 0 (packSync y)))
  | .tvclr a y => some (.control (packA 0x1E 0 a 0 1 (packSync y)))
  | .sbind d a b y => some (.control (packA 0x1E d a b 2 (packSync y)))
  | .sbar y => some (.control (packA 0x1E 0 0 0 3 (packSync y)))
  | .swait d a y => some (.control (packA 0x1E d a 0 4 (packSync y)))
  | .scan a y => some (.control (packA 0x1E 0 a 0 5 (packSync y)))
  | .cpy d a y => some (.control (packA 0x1F d a 0 0 (packSync y)))
  | .cpyv d a b y => some (.control (packA 0x1F d a b 1 (packSync y)))
  | .cpyf d a y => some (.control (packA 0x1F d a 0 2 (packSync y)))
  | .cpyst d a b y => some (.control (packA 0x1F d a b 3 (packSync y)))
  | .cpysync d a y => some (.control (packA 0x1F d a 0 4 (packSync y)))
  | .ddvar d a y => some (.control (packA 0x20 d a 0 0 (packSync y)))
  | .ddapply d a b y => some (.control (packA 0x20 d a b 1 (packSync y)))
  | .ddite d a b y => some (.control (packA 0x20 d a b 2 (packSync y)))
  | .ddrest d a b y => some (.control (packA 0x20 d a b 3 (packSync y)))
  | .ddex d a b y => some (.control (packA 0x20 d a b 4 (packSync y)))
  | .ddwcnt d a b y => some (.control (packA 0x20 d a b 5 (packSync y)))
  | .ddeval d a b y => some (.control (packA 0x20 d a b 6 (packSync y)))
  | .ddref d a y => some (.control (packA 0x20 d a 0 7 (packSync y)))
  | .ddderef d a y => some (.control (packA 0x20 d a 0 8 (packSync y)))
  | .ddcollCollect d a b y => some (.control (packA 0x20 d a b 9 (packSync y)))
  | .ddcollReset d a b y => some (.control (packA 0x20 d a b 9 (packSync y)))
  | .ddcollThreshold d a b y => some (.control (packA 0x20 d a b 9 (packSync y)))
  | .ddord d a b y => some (.control (packA 0x20 d a b 10 (packSync y)))
  | .ddswap d a b y => some (.control (packA 0x20 d a b 11 (packSync y)))
  | .ddexp d a b y => some (.control (packA 0x20 d a b 12 (packSync y)))
  | .ddimp d a b y => some (.control (packA 0x20 d a b 13 (packSync y)))
  | .ddstat d a b y => some (.control (packA 0x20 d a b 14 (packSync y)))
  | .egpost d a y => some (.control (packA 0x21 d a 0 0 (packSync y)))
  | .egrel d a b y => some (.control (packA 0x21 d a b 1 (packSync y)))
  | .egrej d a b y => some (.control (packA 0x21 d a b 2 (packSync y)))
  | .egstat d a b y => some (.control (packA 0x21 d a b 3 (packSync y)))
  | .fdeclDescriptor d a b y => some (.control (packA 0x22 d a b 0 (packSync y)))
  | .fdeclRegion d a b y => some (.control (packA 0x22 d a b 0 (packSync y)))
  | .fgrow d a y => some (.control (packA 0x22 d a 0 1 (packSync y)))
  | .fcheck d a y => some (.control (packA 0x22 d a 0 2 (packSync y)))
  | .fdrop d a y => some (.control (packA 0x22 d a 0 3 (packSync y)))
  | .fstat d a b y => some (.control (packA 0x22 d a b 4 (packSync y)))
  | .coll d a y => some (.control (packA 0x23 d a 0 0 (packSync y)))
  | .colst d a b y => some (.control (packA 0x23 d a b 1 (packSync y)))
  | .colab d a b y => some (.control (packA 0x23 d a b 2 (packSync y)))
  | .qtail d a b => some (.control (packA 0x24 d a b 0 0))
  | .spawnat d a b => some (.control (packA 0x24 d a b 1 0))
  | .cancelJob d a => some (.control (packA 0x24 d a 0 2 0))
  | .cancelLaunch d a => some (.control (packA 0x24 d a 0 2 0))
  | .cancelClear d a => some (.control (packA 0x24 d a 0 2 0))
  | .dsetupNew d a b => some (.control (packA 0x25 d a b 0 0))
  | .dsetupAdd d a b => some (.control (packA 0x25 d a b 0 0))
  | .dwmarkPost d a b => some (.control (packA 0x25 d a b 1 0))
  | .dwmarkRelease d a b => some (.control (packA 0x25 d a b 1 0))
  | .dstat d a b => some (.control (packA 0x25 d a b 2 0))
  | .trap a => some (.control (packA 0x3F 0 a 0 0 0))
  | .tret => some (.control (packA 0x3F 0 0 0 1 0))
  | .csrr d csr => some (.control (packC d csr 2))
  | .csrw d csr => some (.control (packC d csr 3))
  | .csrs d csr => some (.control (packC d csr 4))
  | .csrc d csr => some (.control (packC d csr 5))
  | .fence scope => some (.control (packA 0x3F scope 0 0 6 0))
  | .halt => some (.control (packA 0x3F 0 0 0 7 0))
  | .brkpt => some (.control (packA 0x3F 0 0 0 8 0))
  | .idle => some (.control (packA 0x3F 0 0 0 9 0))
  | .ctxsave d a b => some (.control (packA 0x3F d a b 10 0))
  | .ctxrest d a b => some (.control (packA 0x3F d a b 11 0))
  | .tlbinv a b => some (.control (packA 0x3F 0 a b 12 0))
  | .elemAdd f => some (.op (packOp 0 f))
  | .elemSub f => some (.op (packOp 1 f))
  | .elemMul f => some (.op (packOp 2 f))
  | .mac f => some (.op (packOp 3 f))
  | .elemMin f => some (.op (packOp 4 f))
  | .elemMax f => some (.op (packOp 5 f))
  | .abs f => some (.op (packOp 6 f))
  | .neg f => some (.op (packOp 7 f))
  | .elemAnd f => some (.op (packOp 8 f))
  | .elemOr f => some (.op (packOp 9 f))
  | .elemXor f => some (.op (packOp 10 f))
  | .not f => some (.op (packOp 11 f))
  | .elemShl f => some (.op (packOp 12 f))
  | .elemShr f => some (.op (packOp 13 f))
  | .elemSha f => some (.op (packOp 14 f))
  | .clamp f => some (.op (packOp 15 f))
  | .fadd f => some (.op (packOp 16 f))
  | .fsub f => some (.op (packOp 17 f))
  | .fmul f => some (.op (packOp 18 f))
  | .fma f => some (.op (packOp 19 f))
  | .fmin f => some (.op (packOp 20 f))
  | .fmax f => some (.op (packOp 21 f))
  | .fabs f => some (.op (packOp 22 f))
  | .fneg f => some (.op (packOp 23 f))
  | .fdiv f => some (.op (packOp 24 f))
  | .fsqrt f => some (.op (packOp 25 f))
  | .frcp f => some (.op (packOp 26 f))
  | .frsq f => some (.op (packOp 27 f))
  | .fexp f => some (.op (packOp 28 f))
  | .flog f => some (.op (packOp 29 f))
  | .ftanh f => some (.op (packOp 30 f))
  | .fsig f => some (.op (packOp 31 f))
  | .cvt f => some (.op (packOp 32 f))
  | .cvtr f => some (.op (packOp 33 f))
  | .pack f => some (.op (packOp 34 f))
  | .unpack f => some (.op (packOp 35 f))
  | .scale f => some (.op (packOp 36 f))
  | .qnt f => some (.op (packOp 37 f))
  | .cmpeq f => some (.op (packOp 38 f))
  | .cmpne f => some (.op (packOp 39 f))
  | .cmplt f => some (.op (packOp 40 f))
  | .cmple f => some (.op (packOp 41 f))
  | .steer f => some (.op (packOp 42 f))
  | .merge f => some (.op (packOp 43 f))
  | .mergeo f => some (.op (packOp 44 f))
  | .gate f => some (.op (packOp 45 f))
  | .selp f => some (.op (packOp 46 f))
  | .nullgen f => some (.op (packOp 47 f))
  | .taginc f => some (.op (packOp 48 f))
  | .tagset f => some (.op (packOp 49 f))
  | .tagget f => some (.op (packOp 50 f))
  | .tagclr f => some (.op (packOp 51 f))
  | .reord f => some (.op (packOp 52 f))
  | .ctxalloc f => some (.op (packOp 53 f))
  | .colpack f => some (.op (packOp 54 f))
  | .colunpk f => some (.op (packOp 55 f))
  | .framealloc f => some (.op (packOp 56 f))
  | .framefree f => some (.op (packOp 57 f))
  | .spawn f => some (.op (packOp 58 f))
  | .stamp f => some (.op (packOp 59 f))
  | .loopb f => some (.op (packOp 60 f))
  | .loope f => some (.op (packOp 61 f))
  | .loopt f => some (.op (packOp 62 f))
  | .loopx f => some (.op (packOp 63 f))
  | .loopi f => some (.op (packOp 64 f))
  | .rsum f => some (.op (packOp 65 f))
  | .rmax f => some (.op (packOp 66 f))
  | .rmin f => some (.op (packOp 67 f))
  | .rand f => some (.op (packOp 68 f))
  | .elemRor f => some (.op (packOp 69 f))
  | .rxor f => some (.op (packOp 70 f))
  | .elemRdot f => some (.op (packOp 71 f))
  | .rcnt f => some (.op (packOp 72 f))
  | .shuf f => some (.op (packOp 73 f))
  | .bcast f => some (.op (packOp 74 f))
  | .rotl f => some (.op (packOp 75 f))
  | .lsel f => some (.op (packOp 76 f))
  | .scanadd f => some (.op (packOp 77 f))
  | .topk f => some (.op (packOp 78 f))
  | .nld f => some (.op (packOp 79 f))
  | .nst f => some (.op (packOp 80 f))
  | .nldt f => some (.op (packOp 81 f))
  | .ald f => some (.op (packOp 82 f))
  | .ast f => some (.op (packOp 83 f))
  | .aldr f => some (.op (packOp 84 f))
  | .sld f => some (.op (packOp 85 f))
  | .sldc f => some (.op (packOp 86 f))
  | .vst f => some (.op (packOp 87 f))
  | .oupd f => some (.op (packOp 88 f))
  | .fencee f => some (.op (packOp 89 f))
  | .pfetch f => some (.op (packOp 90 f))
  | .dupd f => some (.op (packOp 91 f))
  | .dldt f => some (.op (packOp 92 f))
  | .dlds f => some (.op (packOp 93 f))
  | .dfront f => some (.op (packOp 94 f))
  | .mxctl f => some (.op (packOp 95 f))
  | .mxfeed f => some (.op (packOp 96 f))
  | .mxrda f => some (.op (packOp 97 f))
  | .nop f => some (.op (packOp 98 f))
  | .const f => some (.op (packOp 99 f))
  | .copyt f => some (.op (packOp 100 f))
  | .sink f => some (.op (packOp 101 f))
  | .errchk f => some (.op (packOp 102 f))
  | .trape f => some (.op (packOp 103 f))
  | .brk f => some (.op (packOp 104 f))
  | .adds f => some (.op (packOp 105 f))
  | .subs f => some (.op (packOp 106 f))
  | .muls f => some (.op (packOp 107 f))
  | .elemPopc f => some (.op (packOp 108 f))
  | .elemClz f => some (.op (packOp 109 f))
  | .frnd f => some (.op (packOp 110 f))
  | .fcls f => some (.op (packOp 111 f))
  | .fcps f => some (.op (packOp 112 f))
  | .avg f => some (.op (packOp 113 f))
  | .sad f => some (.op (packOp 114 f))
  | .hist f => some (.op (packOp 115 f))
  | .lut f => some (.op (packOp 116 f))
  | .bits f => some (.op (packOp 117 f))
  | .biti f => some (.op (packOp 118 f))
  | .idx f => some (.op (packOp 119 f))
  | .mma f => some (.matrix (packMx 0 f))
  | .mmao f => some (.matrix (packMx 1 f))
  | .mmat f => some (.matrix (packMx 2 f))
  | .mmas f => some (.matrix (packMx 3 f))
  | .mmax f => some (.matrix (packMx 4 f))
  | .mmad f => some (.matrix (packMx 5 f))
  | .mmai f => some (.matrix (packMx 6 f))
  | .mmaq f => some (.matrix (packMx 7 f))
  | .mmab f => some (.matrix (packMx 8 f))
  | .mmaf f => some (.matrix (packMx 9 f))
  | .mxRdot f => some (.matrix (packMx 10 f))
  | .rdotx f => some (.matrix (packMx 11 f))
  | .aclr f => some (.matrix (packMx 12 f))
  | .aread f => some (.matrix (packMx 13 f))
  | .awrite f => some (.matrix (packMx 14 f))
  | .ascale f => some (.matrix (packMx 15 f))
  | .acvt f => some (.matrix (packMx 16 f))
  | .abias f => some (.matrix (packMx 17 f))
  | .aact f => some (.matrix (packMx 18 f))
  | .atrn f => some (.matrix (packMx 19 f))
  | .bload f => some (.matrix (packMx 20 f))
  | .bsel f => some (.matrix (packMx 21 f))
  | .bflip f => some (.matrix (packMx 22 f))
  | .bstat f => some (.matrix (packMx 23 f))
  | .calloc f => some (.matrix (packMx 24 f))
  | .cfree f => some (.matrix (packMx 25 f))
  | .cpark f => some (.matrix (packMx 26 f))
  | .cfetch f => some (.matrix (packMx 27 f))
  | .aerrq f => some (.matrix (packMx 28 f))
  | .aflush f => some (.matrix (packMx 29 f))
  | .async f => some (.matrix (packMx 30 f))
  | .anop f => some (.matrix (packMx 31 f))
  | .powerOn => none
  | .mreset => none
  | .startUpComplete => none
  | .taskSelect .. => none
  | .bankFreed .. => none
  | .colourBeatArrival .. => none
  | .tileBusDownwardAccept .. => none
  | .tokenArrival .. => none
  | .spilledRecordTakeBack .. => none
  | .throttleRecovery .. => none
  | .loopIterationIssue .. => none
  | .edgeBeatForward .. => none
  | .edgeDepthChange .. => none
  | .blockAdmission .. => none
  | .blockCommit .. => none
  | .memoryRequestPerform .. => none
  | .memoryReply .. => none
  | .namedAccess .. => none
  | .foldStallTimeout .. => none
  | .aliasChainRequest .. => none
  | .chainStateRelease .. => none
  | .translationWalk .. => none
  | .ownerBufferReferral .. => none
  | .cellActivation .. => none
  | .datumInsertion .. => none
  | .keeperFrontierApply .. => none
  | .watermarkRise .. => none
  | .foldWordComplete .. => none
  | .datumWordComplete .. => none
  | .ddWordComplete .. => none
  | .copySegment .. => none
  | .copyCommandComplete .. => none
  | .streamStart .. => none
  | .streamTokenTransfer .. => none
  | .streamComplete .. => none
  | .egressRecordEnter .. => none
  | .egressDelivery .. => none
  | .collectiveComplete .. => none
  | .collectiveAbort .. => none
  | .queueTailWrite .. => none
  | .schedulerPull .. => none
  | .priorityAging .. => none
  | .allocatorPlace .. => none
  | .compaction .. => none
  | .tileCompletion .. => none
  | .workSteal .. => none
  | .regionFaultTake .. => none
  | .regionKill .. => none
  | .handlerDelivery .. => none
  | .retryRestart .. => none
  | .atomicEmulation .. => none
  | .emulatedWaitvPoll .. => none
  | .contextSaveComplete .. => none
  | .contextRestoreComplete .. => none
  | .patrolScrub .. => none
  | .tileRetirement .. => none
  | .linkFlitResend .. => none
  | .linkDown .. => none
  | .planeDown .. => none
  | .spawnPacketArrival .. => none
  | .remoteWordComplete .. => none
  | .thermalThrottle .. => none
  | .thermalShutdown .. => none
  | .powerRemoval => none
  | .hostMemoryWrite .. => none
  | .hostMemoryRead .. => none
  | .trootWrite .. => none
  | .qdescWrite .. => none
  | .egringWrite .. => none
  | .fltringWrite .. => none
  | .msgringWrite .. => none
  | .ddctlWrite .. => none
  | .haltrel .. => none
  | .devstatRrClear .. => none
  | .managementRegisterWrite .. => none
  | .thermalThrottleLeft .. => none
  | .cancelMessageArrival .. => none

/-- The instruction the decoder gives a word that several rows of the table share: the first of them. -/
def Instr.canon (i : Instr) : Instr :=
  match i with
  | .ddcollReset d a b y => .ddcollCollect d a b y
  | .ddcollThreshold d a b y => .ddcollCollect d a b y
  | .fdeclRegion d a b y => .fdeclDescriptor d a b y
  | .cancelLaunch d a => .cancelJob d a
  | .cancelClear d a => .cancelJob d a
  | .dsetupAdd d a b => .dsetupNew d a b
  | .dwmarkRelease d a b => .dwmarkPost d a b
  | i => i

/-- What the decoder of its own space reads from an encoded word. -/
noncomputable def Encoded.decode (e : Encoded) : Decoded :=
  match e with
  | .control w => decodeControl w
  | .op w => decodeOp w
  | .matrix w => decodeMatrix w

end Sys2Proof
end

