-- ==== Sys2Proof/Config.lean ====
section
/-! DEFINITION. What one implementation or revision fixes and the spec leaves open, as constants without a value: no
proof can see what they are, so a theorem holds whatever they are. The assumption log names each of them. -/

namespace Sys2Proof.Config

/-- Which value within the bound of R140 a revision gives for FRCP (0), FRSQ (1), FEXP (2), FLOG (3), FTANH (4),
FSIG (5) and AACT 1–3 (6–8): by function, result format and operand pattern. -/
opaque revision : Nat → Nat → Nat → Nat

/-- A value the spec leaves open, fresh for each value of `State.fresh`. -/
opaque freeValue : Nat → BitVec 64

/-- The host addresses that the host system refuses to the device, by 64 KiB page, R406. -/
opaque hostRefuses : Nat → Bool

/-- A decision the spec leaves open, fresh for each value of `State.fresh`. -/
opaque freeChoice : Nat → Bool

/-- The pseudo-channel of its stack that holds a line of device memory, R291. -/
opaque channel : Nat → Nat

/-- The bucket of the gazetteer that holds nodes with these VAR, LO and HI, and the entry of the operation cache that a key (operation, f,
g, h) uses, R335: the spec fixes neither. -/
opaque bucket : Nat → Nat → Nat → Nat
opaque cacheEntry : Nat → Nat → Nat → Nat → Nat

/-- The order in which DDSWAP rewrites the nodes of a level, which R345 and R353 leave to the engine: nodes with a lower
number come first. -/
opaque swapOrder : Nat → Nat

/-- The context (modulo 4) whose translation serves the bases of the egress, fault and message rings: R332, R369 and R404 name none. -/
opaque ringContext : Nat

/-- The number of this module in its pod, R386. -/
opaque thisModule : Nat

/-- The words that the loader marks as legal JR targets in a TEXT image as a placement writes it, R73: launch records carry no marks. -/
opaque jumpMarks : Nat → List Nat

/-- A block that the loader gives a launch, R118: the configuration image carries none. Its entry slot, exit slot, nodes and store
nodes, each as an element (64 · tile index + ELEM) and a slot. -/
structure BlockMark where
  entry  : Nat × Nat
  exit   : Nat × Nat
  nodes  : List (Nat × Nat)
  stores : List (Nat × Nat)
  deriving Inhabited, DecidableEq, Repr

opaque blockMarks : Nat → List BlockMark

end Sys2Proof.Config
end

