-- ==== Sys2Proof/Machine/Numbers.lean ====
section
/-! DEFINITION. The number formats of spec/06 (R129–R149): lane patterns, their exact values, rounding, special cases
and the accumulation orders. Values are exact: a finite value is a signed `m · 2^e`. A quotient, a root or a function
value that is no such number is cut far below every format's last place with its last bit set, which every rounding of
R135 treats as the exact value. -/

namespace Sys2Proof.Machine

/-! ## Formats, R53, R129, R130, R133 -/

/-- The width in bits of a lane of format code `f`, R53. -/
def fmtBits (f : Nat) : Nat :=
  match f with
  | 0 => 32 | 1 => 16 | 2 => 16 | 3 => 8 | 4 => 8 | 5 => 4 | 6 => 4 | 7 => 8
  | 8 => 8 | 9 => 8 | 10 => 16 | 11 => 16 | 12 => 32 | 13 => 32 | 14 => 64 | _ => 64

/-- An integer format, R129. -/
def fmtIsInt (f : Nat) : Bool := f == 6 || (8 ≤ f && f ≤ 15)
/-- A signed integer format, R129. -/
def fmtSigned (f : Nat) : Bool := f == 6 || f == 8 || f == 10 || f == 12 || f == 14
/-- A floating-point format of R130. -/
def fmtIsFloat (f : Nat) : Bool := f ≤ 5

/-- The parameters of a floating-point format, R130. -/
structure FloatFmt where
  /-- Mantissa bits. -/
  k : Nat
  /-- Exponent bits. -/
  w : Nat
  bias : Nat
  /-- Infinities and NaNs as in IEEE 754. -/
  ieee : Bool

/-- R130. -/
def floatFmt (f : Nat) : FloatFmt :=
  match f with
  | 0 => ⟨23, 8, 127, true⟩
  | 1 => ⟨10, 5, 15, true⟩
  | 2 => ⟨7, 8, 127, true⟩
  | 3 => ⟨3, 4, 7, false⟩
  | 4 => ⟨2, 5, 15, true⟩
  | _ => ⟨1, 2, 1, false⟩

/-- The canonical NaN, R130. -/
def canonicalNan (f : Nat) : Nat :=
  match f with
  | 0 => 0x7FC00000 | 1 => 0x7E00 | 2 => 0x7FC0 | 3 => 0x7F | _ => 0x7E

/-- The pattern of the largest finite magnitude, R130. -/
def maxPattern (f : Nat) : Nat :=
  match f with
  | 0 => 0x7F7FFFFF | 1 => 0x7BFF | 2 => 0x7F7F | 3 => 0x7E | 4 => 0x7B | _ => 7

/-! ## Exact values -/

/-- An exact value: NaN, an infinity, or `±m · 2^e` with the sign of zero kept. -/
inductive Val where
  | nan
  | inf (neg : Bool)
  | fin (neg : Bool) (m : Nat) (e : Int)
  deriving DecidableEq, Repr

namespace Val

def zero : Val := .fin false 0 0
def negZero : Val := .fin true 0 0
def ofInt (i : Int) : Val := .fin (decide (i < 0)) i.natAbs 0
def isNeg : Val → Bool
  | .nan => false | .inf n => n | .fin n _ _ => n
def isNan : Val → Bool
  | .nan => true | _ => false
def isInf : Val → Bool
  | .inf _ => true | _ => false
def isZero : Val → Bool
  | .fin _ m _ => m == 0 | _ => false
def neg : Val → Val
  | .nan => .nan | .inf n => .inf (!n) | .fin n m e => .fin (!n) m e
def abs : Val → Val
  | .nan => .nan | .inf _ => .inf false | .fin _ m e => .fin false m e

/-- The signed integer of a value on the scale `2^s`, for `s` no greater than its exponent. -/
def scaled (neg : Bool) (m : Nat) (e s : Int) : Int :=
  let x : Int := ((m <<< (e - s).toNat : Nat) : Int)
  if neg then -x else x

/-- An exact sum with the zero sign of R141 and the NaN case of R140. -/
def add : Val → Val → Val
  | .nan, _ => .nan
  | _, .nan => .nan
  | .inf a, .inf b => if a == b then .inf a else .nan
  | .inf a, _ => .inf a
  | _, .inf b => .inf b
  | .fin a m e, .fin b n f =>
    let s := Min.min e f
    let x := scaled a m e s + scaled b n f s
    if x = 0 then .fin (a && b && m == 0 && n == 0) 0 0 else .fin (decide (x < 0)) x.natAbs s

/-- An exact product, R140 and R141. -/
def mul : Val → Val → Val
  | .nan, _ => .nan
  | _, .nan => .nan
  | .inf a, .inf b => .inf (a != b)
  | .inf a, .fin b n _ => if n = 0 then .nan else .inf (a != b)
  | .fin a m _, .inf b => if m = 0 then .nan else .inf (a != b)
  | .fin a m e, .fin b n f => .fin (a != b) (m * n) (if m * n = 0 then 0 else e + f)

/-- A value times `2^k`, exactly. -/
def scale2 (v : Val) (k : Int) : Val :=
  match v with
  | .fin n m e => .fin n m (if m = 0 then 0 else e + k)
  | x => x

/-- A quotient, cut at 200 significant bits with the last bit set when it is inexact, R140. -/
def div : Val → Val → Val
  | .nan, _ => .nan
  | _, .nan => .nan
  | .inf _, .inf _ => .nan
  | .inf a, .fin b _ _ => .inf (a != b)
  | .fin a _ _, .inf b => .fin (a != b) 0 0
  | .fin a m e, .fin b n f =>
    if n = 0 then (if m = 0 then .nan else .inf (a != b))
    else if m = 0 then .fin (a != b) 0 0
    else
      let sh := 200 + n.log2
      let q := (m <<< sh) / n
      let r := (m <<< sh) % n
      .fin (a != b) (2 * q + (if r = 0 then 0 else 1)) (e - f - sh - 1)

/-- The integer square root of `x`, bit by bit from bit `i` down, `r` the root so far. -/
def isqrtFrom (x : Nat) : Nat → Nat → Nat
  | 0, r => if (r + 1) * (r + 1) ≤ x then r + 1 else r
  | i + 1, r => isqrtFrom x i (if (r + (1 <<< (i + 1))) * (r + (1 <<< (i + 1))) ≤ x then r + (1 <<< (i + 1)) else r)

def isqrt (x : Nat) : Nat := isqrtFrom x (x.log2 / 2 + 1) 0

/-- A square root, cut at 200 significant bits with the last bit set when it is inexact, R140. -/
def sqrt : Val → Val
  | .nan => .nan
  | .inf true => .nan
  | .inf false => .inf false
  | .fin a m e =>
    if m = 0 then .fin a 0 0
    else if a then .nan
    else
      let sh := 400 + (if (e - 400) % 2 = 0 then 0 else 1)
      let x := m <<< sh
      let r := isqrt x
      .fin false (2 * r + (if r * r = x then 0 else 1)) ((e - sh) / 2 - 1)

/-- `a < b` for two values that are not NaN; zeros of either sign are equal, R159. -/
def lt : Val → Val → Bool
  | .nan, _ => false
  | _, .nan => false
  | .inf a, .inf b => a && !b
  | .inf a, _ => a
  | _, .inf b => !b
  | .fin a m e, .fin b n f =>
    let s := Min.min e f
    decide (scaled a m e s < scaled b n f s)

/-- `a = b` for two values that are not NaN, R159. -/
def eq : Val → Val → Bool
  | .nan, _ => false
  | _, .nan => false
  | a, b => !lt a b && !lt b a

/-- The floor of the base-2 logarithm of a non-zero magnitude. -/
def floorLog2 (m : Nat) (e : Int) : Int := e + m.log2

end Val

/-- The value of a pattern of format `f`, R129, R130 and R133. -/
def decodeVal (f p : Nat) : Val :=
  if fmtIsInt f then
    let n := fmtBits f
    let x := p % 2 ^ n
    if fmtSigned f && 2 ^ (n - 1) ≤ x then Val.ofInt ((x : Int) - 2 ^ n) else Val.ofInt x
  else if f == 7 then
    let term (sg c : Nat) : Int := if c = 7 then 0 else (if sg = 1 then -1 else 1) * 2 ^ (6 - c)
    let t := term (p / 128 % 2) (p / 16 % 8) + term (p / 8 % 2) (p % 8)
    .fin (decide (t < 0)) t.natAbs (if t = 0 then 0 else -6)
  else
    let F := floatFmt f
    let s := p >>> (F.w + F.k) % 2 == 1
    let e := (p >>> F.k) % 2 ^ F.w
    let m := p % 2 ^ F.k
    let unit : Int := 1 - F.bias - F.k
    if F.ieee && e == 2 ^ F.w - 1 then (if m = 0 then .inf s else .nan)
    else if f == 3 && e == 15 && m == 7 then .nan
    else if e = 0 then .fin s m (if m = 0 then 0 else unit)
    else .fin s (2 ^ F.k + m) (unit + (e - 1))

/-- The integer an integer-class operation reads: an integer format's value, otherwise the pattern, R153(4). -/
def decodeInt (f p : Nat) : Int :=
  let n := fmtBits f
  let x := p % 2 ^ n
  if fmtSigned f && 2 ^ (n - 1) ≤ x then (x : Int) - 2 ^ n else x

/-! ## Rounding, R135–R138 -/

/-- The modes of R135. -/
inductive Rnd where
  | rne | rz | rup | rdn
  deriving DecidableEq, Repr

/-- Whether a magnitude with whole part `q`, remainder `r` below `2^sh` and the given sign is rounded away from zero. -/
def roundsAway (mode : Rnd) (neg : Bool) (q r sh : Nat) : Bool :=
  match mode with
  | .rne => decide (2 * r > 2 ^ sh) || (2 * r == 2 ^ sh && q % 2 == 1)
  | .rz => false
  | .rup => r != 0 && !neg
  | .rdn => r != 0 && neg

/-- The magnitude `m · 2^e` as a whole number of `2^u`, rounded. -/
def roundUnits (mode : Rnd) (neg : Bool) (m : Nat) (e u : Int) : Nat :=
  if u ≤ e then m <<< (e - u).toNat
  else
    let sh := (u - e).toNat
    let q := m >>> sh
    let r := m % 2 ^ sh
    if roundsAway mode neg q r sh then q + 1 else q

/-- The sign bit of a pattern of format `f`. -/
def signBit (f : Nat) (neg : Bool) : Nat := if neg then 2 ^ (fmtBits f - 1) else 0

/-- What R136 gives on overflow. -/
def overflowPattern (f : Nat) (mode : Rnd) (neg : Bool) : Nat :=
  let toInf := (floatFmt f).ieee && (match mode with | .rne => true | .rz => false | .rup => !neg | .rdn => neg)
  signBit f neg + (if toInf then maxPattern f + 1 else maxPattern f)

/-- The pattern, without its sign, of a finite magnitude rounded as if the exponents of a floating format had no end, R135: patterns of
rising magnitudes rise. -/
def roundMagnitude (f : Nat) (mode : Rnd) (neg : Bool) (m : Nat) (e : Int) : Nat :=
  if m = 0 then 0 else
  let F := floatFmt f
  let unit : Int := 1 - F.bias - F.k
  let u := Max.max (Val.floorLog2 m e - F.k) unit
  let q0 := roundUnits mode neg m e u
  let carry := decide (2 ^ (F.k + 1) ≤ q0)
  let q := if carry then q0 / 2 else q0
  let u' := if carry then u + 1 else u
  if q < 2 ^ F.k then q else (u' - unit + 1).toNat * 2 ^ F.k + (q - 2 ^ F.k)

/-- The pattern of a non-zero finite magnitude in a floating format, R135 and R136. -/
def roundFloat (f : Nat) (mode : Rnd) (neg : Bool) (m : Nat) (e : Int) : Nat :=
  let p := roundMagnitude f mode neg m e
  if p ≤ maxPattern f then signBit f neg + p else overflowPattern f mode neg

/-- A finite value rounded to an integer, R138 step 1. -/
def roundInt (mode : Rnd) (neg : Bool) (m : Nat) (e : Int) : Int :=
  let q := roundUnits mode neg m e 0
  if neg then -(q : Int) else q

/-- The least and greatest value of an integer format, R129. -/
def intMin (f : Nat) : Int := if fmtSigned f then -2 ^ (fmtBits f - 1) else 0
def intMax (f : Nat) : Int := if fmtSigned f then 2 ^ (fmtBits f - 1) - 1 else 2 ^ fmtBits f - 1

/-- A pattern of `n` bits of an integer, R153(4). -/
def wrapBits (n : Nat) (i : Int) : Nat := (i % 2 ^ n).toNat

/-- The value of a DS8 code in units of 2^-6, R133. -/
def ds8Units (p : Nat) : Int :=
  match decodeVal 7 p with
  | .fin n m _ => if n then -(m : Int) else m
  | _ => 0

/-- The better of two DS8 codes for the value `x` on the scale `2^s` (both codes' values scaled by `k`): nearest, then
smaller magnitude, then the lower CA, R134, then the lower code (DEDUCED: between codes of one value and one CA). -/
def ds8Better (x : Int) (k : Nat) (a b : Nat) : Nat :=
  let da := (x - ds8Units a * k).natAbs
  let db := (x - ds8Units b * k).natAbs
  let ma := (ds8Units a).natAbs
  let mb := (ds8Units b).natAbs
  let ca := a / 16 % 8
  let cb := b / 16 % 8
  if db < da || (db == da && (mb < ma || (mb == ma && (cb < ca || (cb == ca && b < a))))) then b else a

/-- Conversion into DS8, R134: clamped to [−2, 2], nearest, zero written 0x77. -/
def toDs8 (v : Val) : Nat :=
  match v with
  | .nan => 0x77
  | .inf n => if n then 0x88 else 0x00
  | .fin n m e =>
    if m = 0 then 0x77
    else if 1 ≤ Val.floorLog2 m e then (if n then 0x88 else 0x00)
    else
      let s := Min.min e (-6)
      let x := Val.scaled n m e s
      let best := (List.range 256).foldl (fun c p => ds8Better x (2 ^ (-6 - s).toNat) c p) 0x77
      if ds8Units best = 0 then 0x77 else best

/-- A value rounded into format `f`: the pattern, or the origin of the error token it makes (R134–R138, R142). -/
def encodeVal (f : Nat) (mode : Rnd) (v : Val) : Except Nat Nat :=
  if fmtIsInt f then
    match v with
    | .nan => .error 6
    | .inf n => .ok (wrapBits (fmtBits f) (if n then intMin f else intMax f))
    | .fin n m e => .ok (wrapBits (fmtBits f) (Max.max (intMin f) (Min.min (intMax f) (roundInt mode n m e))))
  else if f == 7 then (if v.isNan then .error 6 else .ok (toDs8 v))
  else
    match v with
    | .nan => if f == 5 then .error 6 else .ok (canonicalNan f)
    | .inf n => .ok (signBit f n + (if (floatFmt f).ieee then maxPattern f + 1 else maxPattern f))
    | .fin n m e => if m = 0 then .ok (signBit f n) else .ok (roundFloat f mode n m e)

/-- `round_rne(v, FP32)` as a value, R9. -/
def rneFp32 (v : Val) : Val :=
  match encodeVal 0 .rne v with
  | .ok p => decodeVal 0 p
  | .error _ => .nan

/-! ## The functions of R140 whose value a revision fixes within a bound -/

/-- The precision of the enclosures below, in bits after the point. -/
def fnBits : Nat := 256

/-- ln 2 on the scale 2^-256, by the series Σ 1 / (k 2^k) carried on 300 bits. -/
def ln2From : Nat → Nat → Nat → Nat
  | 0, _, acc => acc
  | n + 1, k, acc => ln2From n (k + 1) (acc + 2 ^ 320 / (k * 2 ^ k))
def ln2Fix : Nat := ln2From 320 1 0 / 2 ^ 64

/-- e^r for 0 ≤ r < 1 on the scale 2^-256, by its power series: `term` is the last term and `k` its index. -/
def expSeries (r : Nat) : Nat → Nat → Nat → Nat → Nat
  | 0, _, _, acc => acc
  | n + 1, k, term, acc =>
    let t := term * r / 2 ^ fnBits / (k + 1)
    expSeries r n (k + 1) t (acc + t)

/-- e^x of a finite x, cut below the last place of every format, R157. -/
def expVal (neg : Bool) (m : Nat) (e : Int) : Val :=
  if m = 0 then .fin false 1 0
  else if 9 ≤ Val.floorLog2 m e then (if neg then .fin false 1 (-100000) else .fin false 1 100000)
  else
    let x : Int := if -256 ≤ e then Val.scaled neg m e (-256)
      else (if neg then -1 else 1) * ((m >>> (-256 - e).toNat : Nat) : Int)
    let n := x / ln2Fix
    let r := (x % ln2Fix).toNat
    .fin false (2 * expSeries r 60 0 (2 ^ fnBits) (2 ^ fnBits) + 1) (n - fnBits - 1)

/-- 2·atanh(z) for 0 ≤ z ≤ 1/3 on the scale 2^-256: `p` is z^k. -/
def atanhSeries (z2 : Nat) : Nat → Nat → Nat → Nat → Nat
  | 0, _, _, acc => acc
  | n + 1, k, p, acc => atanhSeries z2 n (k + 2) (p * z2 / 2 ^ fnBits) (acc + 2 * p / k)

/-- ln of a positive finite value, cut below the last place of every format, R157. -/
def logVal (m : Nat) (e : Int) : Val :=
  let j := Val.floorLog2 m e
  -- y = m · 2^e / 2^j lies in [1, 2)
  let y := (m <<< fnBits) >>> m.log2
  let z := ((y - 2 ^ fnBits) <<< fnBits) / (y + 2 ^ fnBits)
  let frac := atanhSeries (z * z / 2 ^ fnBits) 85 1 z 0
  let t : Int := j * ln2Fix + frac
  if t = 0 then .fin false 0 0 else .fin (decide (t < 0)) (2 * t.natAbs + 1) (-fnBits - 1)

/-- tanh x = (e^2x − 1) / (e^2x + 1) of a magnitude, with the sign of x, R157. -/
def tanhVal (neg : Bool) (m : Nat) (e : Int) : Val :=
  if m = 0 then .fin neg 0 0
  else if Val.floorLog2 m e < -60 then .fin neg (m * 2 ^ 200 - 1) (e - 200)
  else if 6 ≤ Val.floorLog2 m e then .fin neg (2 ^ 200 - 1) (-200)
  else
    let t := expVal false m (e + 1)
    let q := Val.div (Val.add t (.fin true 1 0)) (Val.add t (.fin false 1 0))
    if neg then q.neg else q

/-- 1 / (1 + e^−x), R157. -/
def sigVal (neg : Bool) (m : Nat) (e : Int) : Val :=
  if 9 ≤ Val.floorLog2 m e && m != 0 then
    (if neg then .fin false 1 (-100000) else .fin false (2 ^ 200 - 1) (-200))
  else
    let t := expVal (!neg) m e
    Val.div (.fin false 1 0) (Val.add t (.fin false 1 0))

/-- A whole number within `units` of a value, by a revision's choice `pick`: the value has `units` neighbours on each side when it is
whole itself, and otherwise lies between `lo` and `lo + 1`. -/
def neighbourOf (units pick : Nat) (whole : Bool) (lo : Int) : Int :=
  if whole then lo - units + (pick % (2 * units + 1) : Nat) else lo - (units - 1) + (pick % (2 * units) : Nat)

/-- The value that a revision gives within `units` last places of `v`, R140: `pick` is the revision's choice. A value whose rounding
overflows follows R136, and DS8, which has no last place, rounds by R134 (DESIGN CHOICE). -/
def withinUnits (f units pick : Nat) (v : Val) : Except Nat Nat :=
  match v with
  | .fin n m e =>
    if f == 7 then encodeVal f .rne v
    else if fmtIsInt f then
      let lo := roundInt .rdn n m e
      let i := neighbourOf units pick (decide (lo = roundInt .rup n m e)) lo
      .ok (wrapBits (fmtBits f) (Max.max (intMin f) (Min.min (intMax f) i)))
    else if maxPattern f < roundMagnitude f .rne false m e then .ok (overflowPattern f .rne n)
    else
      let lo := roundMagnitude f .rz false m e
      let p := neighbourOf units pick (lo == roundMagnitude f .rup false m e) lo
      .ok (signBit f (n != decide (p < 0)) + Min.min p.natAbs (if (floatFmt f).ieee then maxPattern f + 1 else maxPattern f))
  | x => encodeVal f .rne x

/-- The functions of R140 with a bound, by number: FRCP, FRSQ, FEXP, FLOG, FTANH, FSIG, and the same functions for
AACT 1–3. `p` is the operand's pattern in format `g`; the result is in format `f`. Where an infinite operand makes the exact value of FRCP,
FRSQ or FEXP zero, the result is that zero (DESIGN CHOICE: R140 would allow a unit beside it). -/
def boundedFn (fn f g p : Nat) : Except Nat Nat :=
  let pick := Config.revision fn f p
  let x := decodeVal g p
  match fn, x with
  | _, .nan => encodeVal f .rne .nan
  | 0, .inf n => .ok (if fmtIsInt f then 0 else if f == 7 then 0x77 else signBit f n)
  | 0, .fin n m e =>
    if m = 0 then encodeVal f .rne (.inf n)
    else withinUnits f 1 pick (Val.div (.fin false 1 0) (.fin n m e))
  | 1, .inf n => if n then encodeVal f .rne .nan else encodeVal f .rne Val.zero
  | 1, .fin n m e =>
    if m = 0 then encodeVal f .rne (.inf n)
    else if n then encodeVal f .rne .nan
    else withinUnits f 1 pick (Val.div (.fin false 1 0) (Val.sqrt (.fin n m e)))
  | 3, .inf n => if n then encodeVal f .rne .nan else encodeVal f .rne (.inf false)
  | 3, .fin n m e =>
    if m = 0 then encodeVal f .rne (.inf true)
    else if n then encodeVal f .rne .nan
    else withinUnits f 2 pick (logVal m e)
  | 4, .inf n | 6, .inf n => withinUnits f 2 pick (.fin n 1 0)
  | 4, .fin n m e | 6, .fin n m e => withinUnits f 2 pick (tanhVal n m e)
  | 5, .inf n | 7, .inf n => withinUnits f 2 pick (if n then Val.zero else .fin false 1 0)
  | 5, .fin n m e | 7, .fin n m e => withinUnits f 2 pick (sigVal n m e)
  | _, .inf n => if n then encodeVal f .rne Val.zero else encodeVal f .rne (.inf false)
  | _, .fin n m e => withinUnits f 2 pick (expVal n m e)

/-! ## Scales, R132 and R145 -/

/-- A scale byte or word, held in scale format `sf`: 0 E8M0, 1 E5M2, 2 BF16. -/
def decodeScale (sf p : Nat) : Val :=
  match sf with
  | 0 => if p % 256 = 255 then .nan else .fin false 1 ((p % 256 : Nat) - 127 : Int)
  | 1 => decodeVal 4 (p % 256)
  | _ => decodeVal 2 (p % 65536)

/-- A scaled element, R145: the exact value, or the origin of the error token. -/
def scaleVal (s x : Val) : Except Nat Val :=
  match s with
  | .nan => .error 5
  | .fin n m e =>
    if m = 0 then
      match x with
      | .fin k _ _ => .ok (.fin (n != k) 0 0)
      | _ => .error 4
    else .ok (Val.mul (.fin n m e) x)
  | .inf n =>
    match x with
    | .nan => .ok .nan
    | .inf k => .ok (.inf (n != k))
    | .fin k m _ => if m = 0 then .error 2 else .ok (.inf (n != k))

/-! ## Accumulation orders, R146–R149 -/

/-- The least origin of R142 that one product raises: 1 for a NaN factor, 2 for a NaN product. -/
def productOrigin (a b : Val) : Option Nat :=
  if a.isNan || b.isNan then some 1 else if (Val.mul a b).isNan then some 2 else none

/-- The 17-term sum of R146: accumulator and products, none of them NaN; origin 3 when opposite infinities meet. -/
def groupSum (terms : List Val) : Except Nat Val :=
  let pos := terms.any (· == .inf false)
  let neg := terms.any (· == .inf true)
  if pos && neg then .error 3
  else if pos then .ok (.inf false)
  else if neg then .ok (.inf true)
  else
    let logs := terms.filterMap fun t =>
      match t with
      | .fin _ m e => if m = 0 then none else some (Val.floorLog2 m e)
      | _ => none
    match logs with
    | [] => .ok (if terms.all (·.isNeg) then Val.negZero else Val.zero)
    | l :: ls =>
      let u := ls.foldl Max.max l - 23
      let sum := terms.foldl (fun (acc : Int) t =>
        match t with
        | .fin n m e => acc + (if n then -1 else 1) * ((roundUnits .rz false m e u : Nat) : Int)
        | _ => acc) 0
      if sum = 0 then .ok Val.zero else .ok (rneFp32 (.fin (decide (sum < 0)) sum.natAbs u))

/-- One step of R147. -/
def macFp32 (c a b : Val) : Val := rneFp32 (Val.add c (Val.mul a b))

end Sys2Proof.Machine
end

