-- ==== Sys2Proof/Machine/Sparse.lean ====
section
/-! DEFINITION. Sparse data by key: maps from numbers to values, sets of numbers, and byte memories in their one
canonical form (addresses rising, no byte equal to what an unlisted address reads as, which is 0 by R32 and R399). -/

namespace Sys2Proof.Machine

/-- A map from numbers, as a list with rising keys. -/
abbrev SMap (α : Type) := List (Nat × α)

/-- The value at a key, or none. -/
def SMap.get? {α : Type} (m : SMap α) (k : Nat) : Option α :=
  match m with
  | [] => none
  | (j, v) :: r => if j = k then some v else SMap.get? r k

/-- The value at a key, or `d` where nothing is listed. -/
def SMap.getD {α : Type} (m : SMap α) (k : Nat) (d : α) : α := (SMap.get? m k).getD d

/-- The map with the value at `k` replaced. -/
def SMap.set {α : Type} (m : SMap α) (k : Nat) (v : α) : SMap α :=
  match m with
  | [] => [(k, v)]
  | (j, w) :: r => if k < j then (k, v) :: (j, w) :: r else if j = k then (k, v) :: r else (j, w) :: SMap.set r k v

/-- The map without key `k`. -/
def SMap.erase {α : Type} (m : SMap α) (k : Nat) : SMap α := m.filter fun e => e.1 != k

/-- A set of numbers, as a rising list. -/
abbrev NSet := List Nat

def NSet.insert (m : NSet) (k : Nat) : NSet :=
  match m with
  | [] => [k]
  | j :: r => if k < j then k :: j :: r else if j = k then j :: r else j :: NSet.insert r k

def NSet.erase (m : NSet) (k : Nat) : NSet := m.filter (· != k)

/-- A byte memory: the listed bytes; every other byte reads as 0. -/
abbrev Memory := List Host.Cell

/-- What an address that is not listed reads as, R32 and R399. -/
def Memory.unlisted : Byte := 0

/-- One byte of a memory. -/
def Memory.read (m : Memory) (a : Nat) : Byte :=
  match m with
  | [] => Memory.unlisted
  | (j, b) :: r => if j = a then b else Memory.read r a

/-- The memory with nothing listed at `a`. -/
def Memory.drop (m : Memory) (a : Nat) : Memory := m.filter fun c => c.1 != a

/-- The memory with a listed byte at `a`. -/
def Memory.put (m : Memory) (a : Nat) (b : Byte) : Memory :=
  match m with
  | [] => [(a, b)]
  | (j, c) :: r => if a < j then (a, b) :: (j, c) :: r else if j = a then (a, b) :: r else (j, c) :: Memory.put r a b

/-- One byte written, in canonical form. -/
def Memory.write (m : Memory) (a : Nat) (b : Byte) : Memory :=
  if b = Memory.unlisted then Memory.drop m a else Memory.put m a b

/-- `n` bytes from `a` as a number, the lowest address first, R5. -/
def Memory.readN (m : Memory) (a : Nat) : Nat → Nat
  | 0 => 0
  | n + 1 => (Memory.read m a).toNat + 256 * Memory.readN m (a + 1) n

/-- `n` bytes of a number written from `a` up, R5. -/
def Memory.writeN (m : Memory) (a : Nat) : Nat → Nat → Memory
  | 0, _ => m
  | n + 1, x => Memory.writeN (Memory.write m a (BitVec.ofNat 8 x)) (a + 1) n (x / 256)

/-- The bytes of a list written from `a` up. -/
def Memory.writeBytes (m : Memory) (a : Nat) (bs : List Byte) : Memory :=
  match bs with
  | [] => m
  | b :: r => Memory.writeBytes (Memory.write m a b) (a + 1) r

/-- The keys of a list rise strictly from above `lo`. -/
def Memory.risesFrom (lo : Option Nat) (m : Memory) : Bool :=
  match m with
  | [] => true
  | (j, b) :: r => (match lo with | none => true | some l => decide (l < j)) && b != Memory.unlisted && Memory.risesFrom (some j) r

/-- The canonical form: strictly rising addresses, no byte that an unlisted address would read as. -/
def Memory.wf (m : Memory) : Bool := Memory.risesFrom none m

/-- Every entry of a vector changed by `f`. -/
def mapEach {α : Type} {n : Nat} (f : α → α) (v : Vector α n) : Vector α n := Vector.ofFn fun i => f (v.get i)

end Sys2Proof.Machine
end

