-- ==== Sys2Proof/Machine/State.lean ====
section
/-! DEFINITION. The state of the device: everything the spec gives it, as plain data. Fields of one agent stand in one
structure; the device holds its agents in maps by number, where an agent that is not listed is as reset leaves it.
Tiles are numbered 32·TY + TX (R27), elements 64·tile + ELEM (R100). -/

namespace Sys2Proof.Machine

/-! ## Beats and tokens, R51 -/

/-- The tag of a beat, R51 (the reserved bits are zero). -/
structure Tag where
  ctx : BitVec 2 := 0
  col : BitVec 5 := 0
  thr : BitVec 8 := 0
  itr : BitVec 12 := 0
  frm : BitVec 16 := 0
  last : Bool := true
  err : Bool := false
  nul : Bool := false
  prd : Bool := false
  hdr : Bool := false
  deriving DecidableEq, Repr

/-- A beat: its tag and 256 bits of data. -/
structure Beat where
  tag  : Tag := {}
  data : BitVec 256 := 0
  deriving DecidableEq, Repr

/-- A whole token: the tag of its beats and their data, first beat lowest (R103). -/
structure Token where
  tag   : Tag := {}
  beats : List (BitVec 256) := []
  deriving DecidableEq, Repr

/-- A buffer of beats on the way: an edge (R108), a tile-bus lane (R175), or an element's node or memory port. `taken`
lists the acceptors that have taken the head beat (R151, R172): 2·slot + operand a slot, 32 + entry a switch entry; on the
tile bus an acceptor `a` of element `e` is `128·e + a`. -/
structure Lane where
  depth : Nat := 4
  beats : List Beat := []
  taken : NSet := []
  /-- The beat that left it last was not its token's last. -/
  inside : Bool := false
  deriving DecidableEq, Repr

/-! ## Memories, R222, R259, R261, R377 -/

/-- One memory: its bytes, the 32-byte sectors that carry a poison mark, the 8-byte words with an error that their codes
cannot correct and those with one that they can, the 8-byte words whose full-empty bit is full, and the version counts of
64-byte units. -/
structure Store where
  bytes   : Memory := []
  poison  : NSet := []
  badEcc  : NSet := []
  weakEcc : NSet := []
  full    : NSet := []
  version : SMap Nat := []
  /-- The owner mark of on-die lines, R371: the owning context of each line with OV = 1. -/
  marks   : SMap Nat := []
  deriving DecidableEq, Repr

/-! ## The Surveyor, R11–R32 -/

/-- The states of a task, R15. -/
inductive TaskState where
  | free | wait | ready | run | frozen
  deriving DecidableEq, Repr

/-- Where a task's s registers are, R18 and R29. -/
inductive RegPlace where
  | none
  | bank (n : Nat)
  | column (n : Nat)
  | area (slot : Nat)
  deriving DecidableEq, Repr

/-- What a task in WAIT waits for, R15 with the rows that later chapters add. -/
inductive Waiting where
  | nothing
  /-- A beat on a bound colour: TBIND, TWAIT and CHRD. -/
  | colour
  /-- The release of its monitor, R70. -/
  | monitor
  /-- Room or a token in sync pair `pair` of major `maj`, R37. -/
  | sync (maj pair : Nat) (push pop : Bool)
  /-- Any event of R77's IDLE row. -/
  | idle
  /-- A barrier, R178. -/
  | barrier
  /-- The engine or controller that took its word, R266. -/
  | engine
  /-- The completion of a stream or copy ticket, spec/18. -/
  | ticket
  deriving DecidableEq, Repr

/-- A recursion of R350, with its operands; and the building of the diagram of a bitmap over variables in rising level, from bit `t` on, R354. -/
inductive DdCall where
  | apply (c f g : Nat)
  | ite (f g h : Nat)
  | rest (ex : Bool) (f q : Nat)
  | build (bitmap : Nat) (vars : List Nat) (t : Nat)
  deriving DecidableEq, Repr

/-- What joins the results of two branches: mk of a variable, or the disjunction that EX takes. -/
inductive DdJoin where
  | node (v : Nat)
  | either
  deriving DecidableEq, Repr

/-- What a recursion has still to do: its high branch; the joining of its low branch's result with that of the high one; an entry of the
operation cache to store. -/
inductive DdFrame where
  | high (c : DdCall) (j : DdJoin)
  | low (x : Nat) (j : DdJoin)
  | keep (op f g h : Nat)
  deriving DecidableEq, Repr

/-- The step that comes next. -/
inductive DdNow where
  | call (c : DdCall)
  | result (n : Nat)
  deriving DecidableEq, Repr

/-- An operation in progress on a decision-diagram engine, between two of its node steps, R345. -/
structure DdRun where
  stack : List DdFrame := []
  now   : DdNow
  deriving DecidableEq, Repr

/-- A control word taken by an engine or a controller, or waiting for one (R266, R317): the word and its destination, its
operands, context and STATUS.SUP as it issued; the record that it read from the data store; its pair (major, FIFO) with its place in the pair's order when it pushed, and
whether it popped; and the cause met while it was performed, which is raised when the task next runs. -/
structure Taken where
  word  : Instr
  dest  : SReg := 0
  a     : BitVec 64 := 0
  b     : BitVec 64 := 0
  d     : BitVec 64 := 0
  sup   : Bool := false
  ctx   : Nat := 0
  record : Nat := 0
  /-- 0 until its performance has begun; then what that beginning found. -/
  begun : Nat := 0
  /-- The order in which engines have taken words, R341. -/
  order : Nat := 0
  /-- How far a decision-diagram engine has come with it. -/
  run   : Option DdRun := none
  pair  : Option (Nat × Nat) := none
  seq   : Option Nat := none
  pop   : Bool := false
  cause : Option (Nat × BitVec 64) := none
  deriving DecidableEq, Repr

/-- A task: its descriptor, its registers and its per-task CSRs (R11, R12, R24–R28). -/
structure Task where
  state     : TaskState := .free
  ctx       : BitVec 2 := 0
  /-- s0–s31; the entry of s0 is never read. -/
  regs      : Vector Word 32 := Vector.replicate 32 0
  /-- q1–q7 in bits 1–7; bit 0 is never read. -/
  guards    : BitVec 8 := 0
  pc        : BitVec 15 := 0
  te        : Bool := false
  pte       : Bool := false
  sup       : Bool := true
  psup      : Bool := false
  bsk       : Bool := false
  /-- The next word is the one that BSK exempts, R23. -/
  exempt    : Bool := false
  cause     : BitVec 6 := 0
  epc       : BitVec 13 := 0
  tval      : Word := 0
  scratch   : Word := 0
  place     : RegPlace := .none
  /-- An error that its codes cannot correct, or one that they can, has struck the task's bank or descriptor, R377. -/
  bad       : Bool := false
  weak      : Bool := false
  /-- The order in which the task entered READY and left RUN, R17 and R18. -/
  readySeq  : Nat := 0
  leftSeq   : Nat := 0
  stealable : Bool := false
  waiting   : Waiting := .nothing
  /-- Results written while the registers lay in the spill area: the fetch takes them over what stands there, R18. -/
  late      : List (SReg × Word) := []
  taken     : Option Taken := none
  /-- The staging beat of CHWR and the tags of the tokens it has open, R177. -/
  staging   : BitVec 256 := 0
  openToks  : List Tag := []
  /-- A beat that CHWR has put on the tile bus and that still holds the task in RUN, R177. -/
  held      : Option Nat := none
  /-- The job word of a task that a spawn packet created, R389. -/
  job       : Option (Space × Nat) := none
  /-- A delivery to the task is outstanding, R366. -/
  handling  : Bool := false
  deriving DecidableEq, Repr

/-! ## Engines of a context on a tile, R316–R330, R391–R395 -/

/-- The status of a copy, a stream or a collective, R327 and R394; `who` is RANKX, `faultOff` the lowest faulting offset. -/
structure EngStatus where
  fin   : Bool := false
  pois  : Bool := false
  flt   : Bool := false
  canc  : Bool := false
  errt  : Bool := false
  abrt  : Bool := false
  cause : Nat := 0
  rej   : Nat := 0
  off   : Nat := 0
  faultOff : Nat := 0
  who   : Nat := 0
  deriving DecidableEq, Repr

/-- A posted copy, R325 and R326: form 0 CPY, 1 CPYV, 2 CPYF; its traverses, expected version, STATUS.SUP and pair (FIFO and
place in the pair's order); its place in issue order, and the 4 KiB segments performed. -/
structure Copy where
  form  : Nat
  src   : BitVec 256
  dst   : BitVec 256
  ver   : Nat
  sup   : Bool
  sync  : Option (Nat × Nat)
  order : Nat
  segs  : NSet := []
  st    : EngStatus := {}
  deriving DecidableEq, Repr

/-- A bound stream, R321–R324: `per` bytes for each token and `count` tokens done; its place among the binds of its list and
its phase; whether it has started, and whether a fault holds it. An out-stream keeps the token that it is taking (`tag` and
`hand`, `whole` once its last beat has come) and the `part` bytes of it that it has written. -/
structure Stream where
  elem  : Nat
  out   : Bool
  port  : Nat
  col   : BitVec 5
  itr0  : BitVec 12
  trav  : BitVec 256
  sup   : Bool
  per   : Nat
  order : Nat
  phase : Nat
  count : Nat := 0
  tag   : Tag := {}
  hand  : List (BitVec 256) := []
  whole : Bool := false
  part  : Nat := 0
  going : Bool := false
  held  : Bool := false
  /-- The pair and the place there that its completion token has, R316. -/
  sync  : Option (Nat × Nat) := none
  st    : EngStatus := {}
  deriving DecidableEq, Repr

/-- A staging entry, R372: a copy of read-only memory into the overlay. -/
structure Staged where
  form : Nat
  src  : BitVec 256
  dst  : BitVec 256
  deriving DecidableEq, Repr

/-- A collective that a task has posted, R391; `out` is what its DST receives, once every rank's data has been read. -/
structure Coll where
  gid   : Nat
  seq   : Nat
  op    : Nat
  red   : Nat
  fmt   : Nat
  root  : Nat
  rank  : Nat
  n     : Nat
  count : Nat
  k     : Nat
  src   : Nat
  dst   : Nat
  gtab  : Nat
  sup   : Bool
  sync  : Option (Nat × Nat)
  out   : Option Nat := none
  st    : EngStatus := {}
  deriving DecidableEq, Repr

/-- An instruction breakpoint register, R31. -/
structure Ibk where
  addr : BitVec 13 := 0
  en   : Bool := false
  deriving DecidableEq, Repr

/-- The launch placed in a context of a tile, as LAUNCH reports it (R27), with its number in `State.launches`. -/
structure Placed where
  lid  : Nat
  lead : BitVec 5
  h    : BitVec 5
  w    : BitVec 6
  oy   : BitVec 5
  ox   : BitVec 5
  deriving DecidableEq, Repr

/-- One quad barrier of a context on a tile: the waiting tasks and their rounds, R178. -/
structure Arrival where
  bar   : Nat
  whole : Bool
  /-- The QUADLVL under which the task arrived. -/
  lw    : BitVec 4
  lh    : BitVec 4
  tid   : Nat
  round : Nat
  deriving DecidableEq, Repr

/-- The context-held CSRs of a tile (R24, R27–R31) and what else one context owns there. -/
structure CtxRegs where
  tvec    : BitVec 13 := 0
  lw      : BitVec 4 := 0
  lh      : BitVec 4 := 0
  prio    : BitVec 3 := 0
  colsel  : BitVec 5 := 0
  area    : BitVec 40 := 0
  spsel   : BitVec 5 := 0
  ibk     : Vector Ibk 4 := Vector.replicate 4 {}
  contain : BitVec 8 := 0xAA
  det     : Bool := false
  /-- CHMAP: V and TASK of each colour, R28. -/
  bound   : SMap (Bool × BitVec 5) := []
  launch  : Option Placed := none
  /-- The tile has executed TRIG for the launch, or completed it (R126). -/
  trig    : Bool := false
  compl   : Bool := false
  arrivals : List Arrival := []
  /-- Traverse registers, R318. -/
  tv      : SMap (BitVec 256) := []
  /-- Held copy tickets, bound streams, held collective tickets, by number, and the streams' phase (R323). -/
  copies  : SMap Copy := []
  streams : SMap Stream := []
  phase   : Nat := 0
  colls   : SMap Coll := []
  staging : List Staged := []
  /-- The round number that the next arrival at each barrier of this tile joins. -/
  rounds  : SMap Nat := []
  deriving DecidableEq, Repr

/-- The two halves of a sync pair (spec/02 R36, spec/18 R316): tokens towards the engine, tokens towards the Surveyor,
and for the words in progress on the pair whether each has completed, oldest first. -/
structure Pair where
  toEngine : Nat := 0
  toTask   : Nat := 0
  order    : List (Nat × Bool) := []
  /-- Tokens put back for words that ended without effect, which wait for room. -/
  owed     : Nat := 0
  deriving DecidableEq, Repr

/-! ## The fabric, R99–R126 and R150–R173 -/

/-- A slot record, R150. -/
structure Slot where
  opw  : Word32 := 0
  ica  : BitVec 5 := 0
  icb  : BitVec 5 := 0
  bkpt : Bool := false
  deriving DecidableEq, Repr

/-- A legend entry, R102. -/
structure Legend where
  scl  : BitVec 16 := 0
  sfmt : BitVec 2 := 0
  pk   : Bool := false
  pcol : BitVec 5 := 0
  gw   : BitVec 5 := 0
  qw   : BitVec 5 := 0
  g    : Bool := false
  fmt  : BitVec 4 := 0
  deriving DecidableEq, Repr

/-- What a header word latches for a colour, R52. `blen` is the block length in elements. -/
structure Header where
  fmt   : BitVec 4
  lot   : Bool
  blen  : Nat
  scale : BitVec 16
  deriving DecidableEq, Repr

/-- A token, or the part of it that has arrived, in an operand slot or a matching entry (R105, R110, R151). `which` is
0 for operand A and 1 for B, `seq` the order of arrival, `entries` the matching entries it occupies; `ring` where its beats go to
the overflow ring as they arrive, and `spilled` the SEQ of each record that has not been taken back (R111); the header under which it
is read is latched with it (R52). -/
structure Operand where
  slot    : Nat
  which   : Nat
  token   : Token
  whole   : Bool := true
  seq     : Nat
  entries : Nat := 0
  ring    : Bool := false
  spilled : List Nat := []
  hdr     : Option Header := none
  deriving DecidableEq, Repr

/-- A latch L0–L3 with its token and the header under which it is read (R52); `used` lists the slots that have consumed it, R151. -/
structure Latch where
  token : Token
  seq   : Nat
  used  : NSet := []
  hdr   : Option Header := none
  deriving DecidableEq, Repr

/-- A member that a reduction has consumed, R161. `real` is false for one that contributes nothing. -/
structure Member where
  itr  : Nat
  a    : Option Operand
  b    : Option Operand
  real : Bool
  deriving DecidableEq, Repr

/-- An open tag group of a reduction slot, R161. -/
structure Group where
  slot    : Nat
  frm     : BitVec 16
  thr     : BitVec 8
  index   : Nat
  members : List Member
  deriving DecidableEq, Repr

/-- What REORD has passed of one (FRM, ITR): the lowest THR it has not emitted, R165. -/
structure Reorder where
  slot : Nat
  frm  : BitVec 16
  itr  : BitVec 12
  next : Nat
  deriving DecidableEq, Repr

/-- The loop of a LOOPB slot, R114, R115 and R168: the word of the slot, the start token, the bound, the next iteration, the
iterations issued and not returned, and the last iteration that LOOPX allows. -/
structure Loop where
  slot    : Nat
  running : Bool := false
  w       : OpWord
  start   : Token
  bound   : Nat
  next    : Nat := 0
  live    : List Nat := []
  stop    : Option Nat := none
  deriving DecidableEq, Repr

/-- The throttle of a LOOPB slot that a spill has lowered, R113: the effective depth E, and the tile cycles of the last halving and of
the last cycle in which the context held a spilled record or E changed. A source without one has E = D. -/
structure Throttle where
  eff    : Nat
  halved : BitVec 64
  calm   : BitVec 64
  deriving DecidableEq, Repr

/-- A fault of an element, as its fault register records it, R252. -/
structure ElemFault where
  ctx   : Nat
  slot  : Nat
  cause : Nat
  val   : BitVec 64
  /-- The request that stays pending, if any. -/
  req   : Option Nat := none
  /-- The stop is on the slot's BKPT, before anything was consumed, R376. -/
  bkpt  : Bool := false
  /-- The order in which faults were recorded, R362. -/
  ord   : Nat := 0
  /-- What an operation that holds no request emits when its fault is ignored, R364: its word and its null token. -/
  null  : Option (OpWord × Token) := none
  deriving DecidableEq, Repr

/-- A context of an element, R99. -/
structure ElemCtx where
  slots    : Vector Slot 16 := Vector.replicate 16 {}
  legend   : Vector Legend 32 := Vector.replicate 32 {}
  headers  : SMap Header := []
  consts   : Vector (BitVec 64) 4 := Vector.replicate 4 0
  latches  : SMap Latch := []
  operands : List Operand := []
  groups   : List Group := []
  reorders : List Reorder := []
  /-- MERGEO slots whose turn is B, R160. -/
  turnB    : NSet := []
  loops    : List Loop := []
  /-- The lowered loop sources, by slot, R113. -/
  throttles : SMap Throttle := []
  /-- The matching allotment, R110. -/
  allot    : Nat := 16
  /-- An error that its codes cannot correct, or one that they can, has struck the context's slots, legend or matching state, R377. -/
  bad      : Bool := false
  weak     : Bool := false
  /-- Slots of the context do not fire, R150, R170 and R252. -/
  stopped  : Bool := false
  /-- The slot whose BKPT the next firing ignores, when the context resumes (spec/21). -/
  pastBkpt : Option Nat := none
  /-- Colours that COLPACK has made the high lanes of their partner, R166. -/
  high     : NSet := []
  /-- Child ordinals used by each parent, root sequences by frame, the last root given, the re-rootings (R116, R117). -/
  ordinals : SMap Nat := []
  rootSeqs : SMap Nat := []
  lastRoot : Nat := 0
  reroots  : Nat := 0
  deriving DecidableEq, Repr

/-- The progress of a memory request of an element at its home. -/
inductive ReqState where
  /-- Accepted, not performed. -/
  | pending
  /-- It has been made to wait; the count of R239 runs since this cycle of its tile. -/
  | waiting (since : BitVec 64)
  /-- It waits, and the count of R239 stands at this number of cycles. -/
  | paused (n : BitVec 64)
  /-- A frontier that the keeper has applied: it waits until every unit's copy of the watermark has reached `wm`, R305. -/
  | posted (wm : Nat)
  /-- Performed, with its reply not yet emitted. -/
  | performed (reply : Token)
  /-- Performed, with nothing to emit. -/
  | silent
  /-- Not performed; its fault is recorded or waits to be, R252. -/
  | faulted
  deriving DecidableEq, Repr

/-- A memory request in progress of an element, R251: the operation word, the control word of R248, the tag of the result and
that of its source, the PRD of operand A, lanes 0 and 1 of A and B as R247 reads them, B's bit string with its bytes and
format, the format and width of the result, and the token that FENCEE and DFRONT pass on. -/
structure Request where
  id    : Nat
  ctx   : Nat
  slot  : Nat
  op    : Nat
  w     : OpWord
  ctl   : BitVec 64
  tag   : Tag
  src   : Tag
  prdA  : Bool
  a0    : Nat
  a1    : Nat
  b0    : Nat
  data  : Nat
  bytes : Nat
  bfmt  : Nat
  rfmt  : Nat
  rwid  : Nat
  pass  : Token
  /-- The line of the cell at which a DLDS waits and the cell's domain, R304. -/
  line  : Nat := 0
  dom   : Nat := 0
  /-- The line requests that an access over several lines has still to perform, the bytes that it has performed, and those that a load
  has read, R249. -/
  parts : Option (List (Space × Nat × Nat)) := none
  off   : Nat := 0
  got   : Nat := 0
  /-- The request only advances its alias chain, R250. -/
  skip  : Bool := false
  state : ReqState := .pending
  /-- The block instance whose commit it waits for, R119 and R253. -/
  inst  : Option Nat := none
  deriving DecidableEq, Repr

/-- A slot header of a named line, R235. -/
structure NameHdr where
  st    : Nat := 0
  cnt   : Nat := 0
  stamp : BitVec 64 := 0
  deriving DecidableEq, Repr

/-- A line of an owner buffer with the bytes the owner has updated, R263. -/
structure OwnerLine where
  line  : Nat
  data  : BitVec 256
  deriving DecidableEq, Repr

/-- An element: what its contexts share, R99, R172, R222, R252. -/
structure Elem where
  switch  : SMap (BitVec 16) := []
  store   : Store := {}
  names   : SMap NameHdr := []
  /-- The tag store: live frames as ctx · 65536 + FRM, R116. -/
  frames  : NSet := []
  reqs    : List Request := []
  fault   : Option ElemFault := none
  faults  : List ElemFault := []
  /-- Output edges by 128·ctx + 4·col + port, R108. -/
  edges   : SMap Lane := []
  /-- Beats from the node (source 6) and the memory port (source 7), by 128·source + 32·ctx + col. -/
  ports   : SMap Lane := []
  /-- Output ports on which a switch entry's token has not passed whole: the entry by port, R172. -/
  busy    : SMap Nat := []
  /-- Switch entries that wait for a port, the longest wait first, R172. -/
  asked   : List Nat := []
  /-- The issue opportunities at which a ready slot (by 16·ctx + slot) has been passed over, R124. -/
  waited  : SMap Nat := []
  /-- Lines of device memory that the element owns, R263. -/
  owner   : List OwnerLine := []
  /-- The order of arrival of its tokens. -/
  seq     : Nat := 0
  deriving DecidableEq, Repr

/-- An access held in the commit buffer of a block instance, with its element, R119, R240 and R253. -/
structure Buffered where
  gid : Nat
  req : Request
  deriving DecidableEq, Repr

/-- A block of the configuration, R118: entry slot, exit slot and store nodes, each as (gid, slot), in context `ctx`. -/
structure Block where
  ctx    : Nat
  entry  : Nat × Nat
  exit   : Nat × Nat
  nodes  : List (Nat × Nat)
  stores : List (Nat × Nat)
  deriving DecidableEq, Repr

/-- An admitted instance of a block, R118 and R119, keyed by the tag of its entry token. -/
structure Instance where
  id      : Nat
  block   : Block
  tile    : Nat
  frm     : BitVec 16
  thr     : BitVec 8
  itr     : BitVec 12
  buffer  : List Buffered := []
  cause   : Option (Nat × BitVec 64) := none
  atExit  : Bool := false
  /-- A buffered named write that makes the commit wait, by element and request, with its count of R239, R240. -/
  stall   : Option (Nat × Nat × ReqState) := none
  deriving DecidableEq, Repr

/-- A chain state of a tile's memory interface, R258. -/
structure Chain where
  ctx : Nat
  cls : Nat
  frm : BitVec 16
  thr : BitVec 8
  ei  : Nat := 0
  es  : Nat := 0
  marked : Bool := false
  deriving DecidableEq, Repr

/-! ## Translation, R224–R230 -/

/-- A cached leaf translation of a die's unit: context, page number at its size, and the entry, R228. -/
structure LeafEntry where
  ctx   : Nat
  big   : Bool
  page  : Nat
  entry : BitVec 64
  /-- The physical address of the entry. -/
  src   : Nat
  deriving DecidableEq, Repr

/-- A cached pointer entry: context, the physical address of the entry, and its value, R228. -/
structure PtrEntry where
  ctx   : Nat
  addr  : Nat
  entry : BitVec 64
  deriving DecidableEq, Repr

/-- A translation root register, R224. -/
structure Troot where
  root : BitVec 42 := 0
  en   : Bool := false
  deriving DecidableEq, Repr

/-- An armed monitor on the 8-byte word at an address, R70: in device memory at its home; in another memory as the
emulation of WAITV keeps it (R379). -/
structure Monitor where
  space : Space
  word : Nat
  tile : Nat
  tid  : Nat
  deriving DecidableEq, Repr

/-- A store to device, host or peer memory that has been accepted and that its home has not performed (R67, R256, R276):
the writing agent (a task as 32·tile + number, an element as 2^20 + its number), the memory and address, and whether an
event of the agent has put it before what others do (R275): `pub`. -/
structure InFlight where
  agent  : Nat
  space  : Space
  addr   : Nat
  n      : Nat
  value  : Nat
  pub    : Bool := false
  deriving DecidableEq, Repr

/-! ## Folds, R231–R245 -/

/-- The layout of a fold descriptor, R232. `skew` lists σ(0,1), σ(0,2), σ(0,3), σ(1,2), σ(1,3), σ(2,3). -/
structure Layout where
  scope : Nat
  d     : Nat
  b     : Nat
  z     : Nat
  m     : List Nat
  skew  : List Int
  c     : Nat
  bound : Nat
  deriving DecidableEq, Repr

/-- A fold descriptor: its layout, generation, check state (0 UNCHECKED, 1 PROVEN, 2 FAILED), witness stamps, and
whether it is GROWING, R232, R241, R243. `serial` changes with every FDECL, FGROW and FDROP of the statement. -/
structure Descriptor where
  ctx     : Nat
  s       : Nat
  lay     : Layout
  gen     : Nat := 0
  check   : Nat := 0
  wit     : BitVec 64 × BitVec 64 := (0, 0)
  growing : Bool := false
  /-- The layout that a growth will put in force, whose lines it holds, R243. -/
  next    : Option Layout := none
  serial  : Nat := 0
  deriving DecidableEq, Repr

/-- The device-scope region register of a context, R234. -/
structure Region where
  nl : BitVec 32 := 0
  nb : BitVec 40 := 0
  deriving DecidableEq, Repr

/-- What the region controller has been told of a Surveyor: a trap taken with STATUS.TE = 0, R21 and R362. -/
structure Notice where
  tile  : Nat
  tid   : Nat
  ctx   : Nat
  cause : Nat
  pc    : BitVec 15
  val   : BitVec 64
  ord   : Nat := 0
  deriving DecidableEq, Repr

/-! ## Matrix nodes, R186–R201 -/

/-- A cell of the accumulator store, R186: its pattern and its status (E, ORIG, OITR). -/
structure Cell where
  value : BitVec 32 := 0
  err   : Bool := false
  orig  : BitVec 3 := 0
  oitr  : BitVec 12 := 0
  deriving DecidableEq, Repr

/-- What a column holds: no owner, a context, or a parked register bank of task `tid` (R187, R18). -/
inductive Column where
  | free
  | owned (ctx : BitVec 2)
  | parked (tid : Nat)
  deriving DecidableEq, Repr

/-- The node's registers of one context, R186. -/
structure NodeCtx where
  base0 : Nat := 0
  base1 : Nat := 0
  cb    : Bool := false
  bsf   : BitVec 2 := 0
  ts    : BitVec 32 := 0x3F800000
  deriving DecidableEq, Repr

/-- An entry of the node's queue, R188: the sending element, the control token and the tag of the token that carried it. -/
structure Entry where
  elem  : Nat
  word  : BitVec 64
  tag   : Tag
  deriving DecidableEq, Repr

/-- An operand token in an element's FIFO, R169 and R189: its width, format, latched BLEN and scale with its format. -/
structure Fed where
  token : Token
  width : Nat
  fmt   : Nat
  blen  : Nat
  scale : BitVec 16
  sfmt  : Nat
  deriving DecidableEq, Repr

/-- MXFLT, R201. -/
structure NodeFault where
  ctx   : Nat
  elem  : Nat
  cause : Nat
  val   : BitVec 56
  token : BitVec 64
  /-- Operand tokens that the faulting entry had consumed. -/
  ate   : List Fed := []
  ord   : Nat := 0
  deriving DecidableEq, Repr

/-- A matrix node. -/
structure Node where
  /-- Cells by 128·row + column; a cell that is not listed is zero with status 0. -/
  cells  : SMap Cell := []
  cols   : SMap Column := []
  ctxs   : Vector NodeCtx 4 := Vector.replicate 4 {}
  queue  : List Entry := []
  fifos  : SMap (List Fed) := []
  fault  : Option NodeFault := none
  deriving DecidableEq, Repr

/-! ## Launches, R99, R112, R121–R126, R209, R210 -/

/-- The fields of a launch record, R209. -/
structure LaunchRec where
  id    : Nat
  w     : Nat
  h     : Nat
  ctl   : BitVec 8
  ring  : Nat
  image : Nat
  text  : Nat
  tsize : Nat
  dsize : Nat
  data  : Nat
  rbase : Nat
  deps  : Nat
  ndeps : Nat
  ql    : BitVec 8
  deriving DecidableEq, Repr

/-- The life of a pulled record: it waits for its launches, waits for a place, runs, is saved (R373), has completed. -/
inductive LaunchPhase where
  | waiting | eligible | running | saved | done
  deriving DecidableEq, Repr

/-- A launch: its record, the identifiers it depends on, the die whose scheduler pulled it, its place, the DET it latched,
and its overflow ring: the next SEQ and the positions whose records are held (R112). -/
structure Launch where
  info   : LaunchRec
  deps   : List Nat := []
  die    : Nat
  phase  : LaunchPhase := .waiting
  /-- The order of becoming eligible, and the cycle of the scheduler's tile and the rises of priority since, R121. -/
  order  : Nat := 0
  since  : BitVec 64 := 0
  rises  : Nat := 0
  ox     : Nat := 0
  oy     : Nat := 0
  det    : Bool := false
  trig   : Bool := false
  /-- A context save has stopped it, R373. -/
  saving : Bool := false
  /-- The allocator has stopped its sources to move it, R123. -/
  moving : Bool := false
  /-- The tiles on which it has completed or been killed, R126 and R365. -/
  ended  : NSet := []
  seq    : Nat := 0
  held   : NSet := []
  deriving DecidableEq, Repr

/-! ## Management registers, R401 and R402 -/

/-- The management block of a die: queue descriptors (R385), the egress, fault and message rings (R332, R369, R404) as
their registers hold them, and the registers of R402. -/
structure Mgmt where
  qdesc   : SMap (BitVec 128) := []
  egring  : BitVec 128 := 0
  fltring : BitVec 128 := 0
  temp    : BitVec 16 := 0
  ce      : BitVec 32 := 0
  ue      : BitVec 32 := 0
  /-- Physical tiles retired, R381; unused spares; exposed tiles. -/
  retired : NSet := []
  spare   : Nat := 8
  /-- The physical tiles of logical tiles, by die-relative index, where they differ (R381, R399). -/
  phys    : SMap Nat := []
  exposed : Nat := 160
  /-- Delivery count of the hold queue and report count of the fault ring, R331 and R369. -/
  egseq   : BitVec 32 := 0
  fltseq  : BitVec 32 := 0
  /-- The cancel table, oldest entry first, R390. -/
  cancel  : List Nat := []
  /-- The last 16 aborted collectives, newest first: GID, SEQ, RANKX and CAUSE, R395. -/
  aborted : List (Nat × Nat × Nat × Nat) := []
  thr     : Bool := false
  pcap    : Bool := false
  rr      : Bool := false
  ready   : Bool := false
  haltrel : BitVec 8 := 0
  deriving DecidableEq, Repr

/-- The registers of die 0's block that the module has once, R401 and R402. -/
structure Module where
  devkey   : BitVec 64 := 1
  plim     : BitVec 16 := 0x4B00
  power    : BitVec 16 := 0
  lockbase : BitVec 41 := 0
  msgring  : BitVec 128 := 0
  msgseq   : BitVec 32 := 0
  /-- Launch identifiers that a CANCEL keeps from being placed, R390. -/
  refused  : NSet := []
  deriving DecidableEq, Repr

/-! ## Datum units, R291–R300 -/

/-- A history entry of a cell, R294. -/
structure Update where
  stamp : Nat
  op    : Nat
  p     : Nat
  deriving DecidableEq, Repr

/-- An active cell, R292–R294, by the physical address of its line; `used` orders its uses. -/
structure DatumCell where
  line   : Nat
  dom    : Nat
  cls    : Nat
  hm1    : Nat
  bv     : Bool
  v      : Bool
  bstamp : Nat
  base   : Nat
  hist   : List Update := []
  used   : Nat := 0
  deriving DecidableEq, Repr

/-- An active datum domain at the keeper, R297: producers, frontiers that are not 0, watermark. -/
structure Domain where
  p  : Nat
  f  : SMap Nat := []
  wv : Bool := false
  wm : Nat := 0
  /-- The values that the keeper has formed, rising. -/
  formed : List Nat := []
  deriving DecidableEq, Repr

/-! ## Decision-diagram engines, R335–R345 -/

/-- An internal node with F = 0, R336. -/
structure DdNode where
  var : Nat
  lo  : Nat
  hi  : Nat
  ref : Nat := 0
  deriving DecidableEq, Repr

/-- An entry of the operation cache, R344. -/
structure DdMemo where
  op : Nat
  f  : Nat
  g  : Nat
  h  : Nat
  r  : Nat
  deriving DecidableEq, Repr

/-- A decision-diagram engine: the internal nodes in use (every other index is free), the variables of the levels that the
identity does not give, the operation cache by entry, the counters of collections, cache hits and cache misses, DDCTL, and the nodes with
an error that their codes cannot correct, or one that they can (R358, R377). -/
structure DdEngine where
  nodes : SMap DdNode := []
  order : SMap Nat := []
  cache : SMap DdMemo := []
  colls : BitVec 64 := 0
  hits   : BitVec 64 := 0
  misses : BitVec 64 := 0
  gzth  : BitVec 24 := 0xE00000
  fail  : Bool := false
  ctxm  : BitVec 4 := 0xF
  bad   : NSet := []
  weak  : NSet := []
  deriving DecidableEq, Repr

/-! ## Egress, R331 -/

/-- A record of a hold queue: held, released or rejected. -/
inductive Hold where
  | held | released | rejected
  deriving DecidableEq, Repr

structure EgRecord where
  sess    : Nat
  stamp   : Nat
  payload : BitVec 384
  hold    : Hold := .held
  deriving DecidableEq, Repr

/-! ## Spawn packets, R388 and R389 -/

/-- A packet on its way: launch, entry, kind, operation, job, arguments, the address as sent, the memory and address of the
word it updates, and its job word. -/
structure Packet where
  lid  : Nat
  pc   : BitVec 16
  kind : Nat
  op   : Nat
  job  : Nat
  args : List Word
  a    : Nat
  home : Space × Nat
  word : Space × Nat
  deriving DecidableEq, Repr

/-! ## Containment, R362–R368 -/

/-- Where a fault was recorded. -/
inductive FaultSrc where
  | element (gid : Nat)
  | node
  | task (tid : Nat)
  /-- No fault: a CANCEL, a retirement or a failed restore orders the kill, R390, R381 and R375. -/
  | order
  deriving DecidableEq, Repr

/-- How far a search has come: its kill is to be done; its cause waits for the lead task; its handler runs; the handler has
ended by TRET; the handler has ended otherwise. -/
inductive SearchPhase where
  | killing | waiting | handled | returned | abandoned
  deriving DecidableEq, Repr

/-- An open search of a tile's region controller, R362: the fault, the level that absorbed it, the quad, launch identifier and
tile index of the tile when it was taken, whether its delivery follows a kill, and whether a retry was read as a kill. -/
structure Search where
  tile   : Nat
  ctx    : Nat
  src    : FaultSrc
  slot   : Nat := 0
  cause  : Nat
  val    : BitVec 64
  level  : Level
  lw     : Nat := 0
  lh     : Nat := 0
  lid    : Nat := 0
  tidx   : Nat := 0
  killed : Bool := false
  late   : Bool := false
  phase  : SearchPhase
  deriving DecidableEq, Repr

/-! ## Tiles and dies -/

/-- A tile: its Surveyor, the tile bus, the pools and interfaces its elements share. -/
structure Tile where
  istore   : Store := {}
  dstore   : Store := {}
  /-- The word addresses that the loader has marked as JR targets, R73. -/
  jrMarks  : NSet := []
  tasks    : Vector Task 32 := (Vector.replicate 32 {}).set 0 { state := .run, place := .bank 0 }
  ctxs     : Vector CtxRegs 4 := Vector.replicate 4 {}
  cycle    : BitVec 64 := 0
  retired  : BitVec 64 := 0
  /-- HALT has stopped issue, R77. -/
  halted   : Bool := false
  /-- STATUS.PSTALL, R25: a READY task is waiting for a bank. -/
  pstall   : Bool := false
  /-- The order in which tasks have entered READY or left RUN. -/
  seq      : Nat := 0
  /-- Channels by 32·ctx + colour, R16; upward beats held at the tile input, in order. -/
  channels : SMap (List Beat) := []
  held     : List Beat := []
  /-- Downward beats by 32·ctx + colour, R175. -/
  down     : SMap Lane := []
  /-- Contexts in force, as 4·sheet + ctx, R181. -/
  inForce  : NSet := []
  /-- The tile is one of the exposed tiles, and the cycles at which it recorded uncorrectable errors, R381. -/
  exposed  : Bool := true
  errors   : List (BitVec 64) := []
  overlay  : Store := {}
  names    : SMap NameHdr := []
  chains   : List Chain := []
  /-- Sync pairs by 64·ctx + 4·(major − 0x1E) + fifo, R36. -/
  pairs    : SMap Pair := []
  deriving DecidableEq, Repr

/-- The translation unit of a die, R228. -/
structure TransUnit where
  leaves : List LeafEntry := []
  ptrs   : List PtrEntry := []
  deriving DecidableEq, Repr

/-! ## The device -/

/-- Whom the next control word, operation word or matrix token concerns: the tile and its running task; an element, a
context and a slot. -/
structure Focus where
  tile : Nat := 0
  task : Nat := 0
  gid  : Nat := 0
  ctx  : Nat := 0
  slot : Nat := 0
  deriving DecidableEq, Repr

/-- The steps that the device's own agents take between control words, under the names of their rows; what each names is what the
row's constructor of `Instr` names. -/
inductive Work where
  | taskSelect (tile : Nat)
  | bankFreed (tile : Nat)
  | colourBeatArrival (tile : Nat)
  | tileBusDownwardAccept (tile ctx col : Nat)
  | tokenArrival (gid src ctx col : Nat)
  | spilledRecordTakeBack (gid ctx : Nat)
  | throttleRecovery (gid ctx slot : Nat)
  | loopIterationIssue (gid ctx slot : Nat)
  | edgeBeatForward (gid entry : Nat)
  | edgeDepthChange (tile : Nat)
  | blockAdmission (gid ctx slot : Nat)
  | blockCommit (inst : Nat)
  | memoryRequestPerform (r : MemRef)
  | memoryReply (gid id : Nat)
  | namedAccess (gid id : Nat)
  | foldStallTimeout (gid id : Nat)
  | aliasChainRequest (gid id : Nat)
  | chainStateRelease (tile n : Nat)
  | cellActivation (line : Nat)
  | datumInsertion (gid id : Nat)
  | keeperFrontierApply (gid id : Nat)
  | watermarkRise (unit dom : Nat)
  | foldWordComplete (tile tid : Nat)
  | datumWordComplete (tile tid : Nat)
  | ddWordComplete (tile tid : Nat)
  | copySegment (tile ctx ticket seg : Nat)
  | copyCommandComplete (tile ctx ticket : Nat)
  | streamStart (tile ctx n : Nat)
  | streamTokenTransfer (tile ctx n : Nat)
  | streamComplete (tile ctx n : Nat)
  | egressRecordEnter (tile tid : Nat)
  | egressDelivery (die sess : Nat)
  | collectiveComplete (tile ctx ticket : Nat)
  | schedulerPull (die q : Nat)
  | priorityAging (die n : Nat)
  | allocatorPlace (die n : Nat)
  | compaction (lid ox oy : Nat)
  | tileCompletion (tile ctx : Nat)
  | workSteal (tile : Nat)
  | regionFaultTake (tile ctx : Nat)
  | regionKill (level : Level) (tile sheet ctx : Nat)
  | handlerDelivery (tile ctx : Nat)
  | retryRestart (tile ctx : Nat)
  | atomicEmulation (r : Requester)
  | emulatedWaitvPoll (tile tid : Nat)
  | contextSaveComplete (die n : Nat)
  | contextRestoreComplete (die n : Nat)
  | patrolScrub (sp : Space) (addr : Nat)
  | tileRetirement (tile : Nat)
  | spawnPacketArrival (p : Spawn)
  | remoteWordComplete (tile tid resp : Nat)
  | startUpComplete
  | powerRemoval
  deriving DecidableEq, Repr

/-- Whose step comes next. -/
inductive Turn where
  /-- Look round the device and list every step that some agent may take. -/
  | sweep
  /-- The Surveyor of a tile issues a word, R17. -/
  | surveyor (tile : Nat)
  /-- The arbiter of an element selects a slot, R124. -/
  | arbiter (gid : Nat)
  /-- A slot of an element fires. -/
  | slot (gid ctx slot : Nat)
  /-- The node of a tile takes the entry at the head of its queue, R189. -/
  | node (tile : Nat)
  /-- A step of an engine or controller. -/
  | work (w : Work)
  /-- An input from outside the device. -/
  | input (i : Instr)
  deriving DecidableEq, Repr

/-! ## Context save and restore, R371–R375 -/

/-- A request that a context-save engine has accepted: the die of the engine, a save or a restore, the requesting tile and context,
the context saved or restored, the save area, and the launch that a save has found. -/
structure SaveJob where
  die  : Nat
  back : Bool
  tile : Nat
  rctx : Nat
  ctx  : Nat
  area : Nat
  n    : Option Nat := none
  deriving DecidableEq, Repr

/-- The device. -/
structure State where
  focus    : Focus := {}
  /-- Whose steps come next; empty: the focused Surveyor, and then a sweep. -/
  turns    : List Turn := []
  tiles    : SMap Tile := []
  elems    : SMap Elem := []
  /-- Element contexts by 4·element + ctx. -/
  ectxs    : SMap ElemCtx := []
  nodes    : SMap Node := []
  hbm      : Store := {}
  far      : Store := {}
  host     : Store := {}
  peers    : SMap Store := []
  inflight : List InFlight := []
  monitors : List Monitor := []
  troot    : Vector Troot 4 := Vector.replicate 4 {}
  units    : SMap TransUnit := []
  folds    : List Descriptor := []
  regions  : Vector Region 4 := Vector.replicate 4 {}
  blocks   : List Block := []
  insts    : List Instance := []
  /-- Launches pulled, by their serial number. -/
  launches : SMap Launch := []
  /-- Frames that SPAWN has named, by 2^18 · launch + 2^16 · ctx + FRM, each with its root sequence, R117 and R167. -/
  spawned  : SMap Nat := []
  /-- Numbers given to requests, block instances, descriptors and arrivals, in order. -/
  serial   : Nat := 0
  /-- The next free value or free choice of `Config`. -/
  fresh    : Nat := 0
  /-- The physical address that a step reached and that no memory has. -/
  absent   : Option Nat := none
  /-- Datum units: active cells, domains at the keeper, and the units' copies of watermarks by 256·domain + unit. -/
  cells    : List DatumCell := []
  domains  : SMap Domain := []
  unitWm   : SMap Nat := []
  dd       : SMap DdEngine := []
  egress   : List EgRecord := []
  /-- One more than the highest stamp ever posted to a session. -/
  posted   : SMap Nat := []
  packets  : List Packet := []
  /-- Words whose task was killed while an engine performed them, with their tile, R347 and R365. -/
  orphans  : List (Nat × Taken) := []
  searches : List Search := []
  /-- Traps that froze their task and that the region controller has not taken yet, oldest first. -/
  notices  : List Notice := []
  /-- The host link is down, R384; the planes that are down, R386. -/
  hostDown : Bool := false
  planesDown : NSet := []
  /-- The module has power; a thermal shutdown has begun and removes it, R405. -/
  powered  : Bool := true
  shutdown : Bool := false
  /-- Accepted saves and restores, oldest first, R373 and R375. -/
  jobs     : List SaveJob := []
  mgmt     : SMap Mgmt := []
  module   : Module := {}
  deriving DecidableEq, Repr

/-- Why the machine stops without a next state. -/
inductive Fault where
  /-- An access whose translation names a physical address that the device does not have: raised by every step that reaches
  device memory or the far tier through a page-table entry. Safe: the spec gives such an access no effect. -/
  | noSuchPhysicalAddress (addr : Nat)
  deriving DecidableEq, Repr

/-- Why an instruction has no meaning. -/
inductive Refusal where
  /-- Raised by no meaning: an arm of `exec` that is not written yet. Safe: nothing is claimed of it. -/
  | notModelled (mnemonic : String)
  deriving DecidableEq, Repr

/-- The device after the start-up path of R399 with an empty firmware image: every tile as R32 leaves it, memory zero,
nothing placed. -/
def State.reset : State := {}

end Sys2Proof.Machine
end

