-- ==== Sys2Proof/Machine/Ops.lean ====
section
/-! DEFINITION. The named operations on the state: agents, registers, retiring a word, taking an exception and returning
from one, leaving RUN and entering READY, and the bytes of the stores. -/

namespace Sys2Proof.Machine

/-- What a step answers. -/
abbrev Out := Host.Outcome State Fault Refusal

/-- The step of an agent that may reach a physical address no memory has. -/
def settle (s : State) : Out :=
  match s.absent with
  | none => .next s
  | some a => .fault (.noSuchPhysicalAddress a)

/-! ## Agents -/

namespace State

def tile (s : State) (t : Nat) : Tile := SMap.getD s.tiles t {}
def setTile (s : State) (t : Nat) (T : Tile) : State := { s with tiles := SMap.set s.tiles t T }
def modTile (s : State) (t : Nat) (f : Tile → Tile) : State := s.setTile t (f (s.tile t))
def elem (s : State) (g : Nat) : Elem := SMap.getD s.elems g {}
def modElem (s : State) (g : Nat) (f : Elem → Elem) : State := { s with elems := SMap.set s.elems g (f (s.elem g)) }
def ectx (s : State) (g c : Nat) : ElemCtx := SMap.getD s.ectxs (4 * g + c) {}
def modEctx (s : State) (g c : Nat) (f : ElemCtx → ElemCtx) : State :=
  { s with ectxs := SMap.set s.ectxs (4 * g + c) (f (s.ectx g c)) }
def node (s : State) (t : Nat) : Node := SMap.getD s.nodes t {}
def modNode (s : State) (t : Nat) (f : Node → Node) : State := { s with nodes := SMap.set s.nodes t (f (s.node t)) }
def unit (s : State) (die : Nat) : TransUnit := SMap.getD s.units die {}
def modUnit (s : State) (die : Nat) (f : TransUnit → TransUnit) : State :=
  { s with units := SMap.set s.units die (f (s.unit die)) }

/-- A number never given before: the order of arrival of requests, instances and the like. -/
def tick (s : State) : State := { s with serial := s.serial + 1 }

/-- The next free value of `Config`, and the state that has used it. -/
def free (s : State) : BitVec 64 × State := (Config.freeValue s.fresh, { s with fresh := s.fresh + 1 })
def freeChoice (s : State) : Bool × State := (Config.freeChoice s.fresh, { s with fresh := s.fresh + 1 })

end State

/-! ## Positions, R27 and R100 -/

/-- The tile at column `tx` and row `ty`. -/
def tileAt (tx ty : Nat) : Nat := 32 * ty + tx
def tileX (t : Nat) : Nat := t % 32
def tileY (t : Nat) : Nat := t / 32
def tileDie (t : Nat) : Nat := tileX t / 16 + 2 * (tileY t / 10)
def gidTile (g : Nat) : Nat := g / 64
def gidElem (g : Nat) : Nat := g % 64
/-- Element column and row of the device. -/
def gidX (g : Nat) : Nat := 8 * tileX (g / 64) + g % 64 / 8
def gidY (g : Nat) : Nat := 8 * tileY (g / 64) + g % 8
def gidAt (x y : Nat) : Nat := 64 * tileAt (x / 8) (y / 8) + 8 * (x % 8) + y % 8
/-- The sheet of an element in its tile, R100. -/
def elemSheet (e : Nat) : Nat := e / 8 / 4 + 2 * (e % 8 / 4)

/-! ## Tasks -/

def Tile.task (T : Tile) (n : Nat) : Task := if h : n < 32 then T.tasks[n] else {}
def Tile.setTask (T : Tile) (n : Nat) (k : Task) : Tile := if h : n < 32 then { T with tasks := T.tasks.set n k } else T
def Tile.modTask (T : Tile) (n : Nat) (f : Task → Task) : Tile := T.setTask n (f (T.task n))
def Tile.ctx (T : Tile) (c : Nat) : CtxRegs := if h : c < 4 then T.ctxs[c] else {}
def Tile.modCtx (T : Tile) (c : Nat) (f : CtxRegs → CtxRegs) : Tile :=
  if h : c < 4 then { T with ctxs := T.ctxs.set c (f T.ctxs[c]) } else T

/-- Register `r` of a task; s0 reads as zero, R11. -/
def Task.reg (k : Task) (r : SReg) : Word := if r = 0 then 0 else k.regs[r.toNat]
/-- A write to s0 is discarded, R11. -/
def Task.setReg (k : Task) (r : SReg) (v : Word) : Task :=
  if r = 0 then k else { k with regs := k.regs.set r.toNat v }

/-- The result of a word that ends outside RUN: it reaches the register wherever the task's registers are parked, R18. -/
def Task.result (k : Task) (r : SReg) (v : Word) : Task :=
  match k.place with
  | .area _ => { k.setReg r v with late := k.late ++ [(r, v)] }
  | _ => k.setReg r v

/-- The task leaves one state for another: the order of entering READY and of leaving RUN is kept, R15 and R17. -/
def Tile.enter (T : Tile) (n : Nat) (st : TaskState) (w : Waiting) : Tile :=
  let k := T.task n
  let k := { k with
    state := st
    waiting := w
    readySeq := if st = .ready then T.seq else k.readySeq
    leftSeq := if k.state = .run ∧ st ≠ .run then T.seq else k.leftSeq }
  { T.setTask n k with seq := T.seq + 1 }

/-- A waiting task enters READY; a task in another state stays as it is. -/
def Tile.wake (T : Tile) (n : Nat) : Tile :=
  if (T.task n).state = .wait then T.enter n .ready .nothing else T

/-- An event of R77's IDLE row reaches the Surveyor. -/
def Tile.idleEvent (T : Tile) : Tile :=
  (List.range 32).foldl (fun T n => if (T.task n).state = .wait ∧ (T.task n).waiting = .idle then T.wake n else T) T

namespace State

/-- The tile and the task whose control word is executed. -/
def here (s : State) : Tile := s.tile s.focus.tile
def cur (s : State) : Task := s.here.task s.focus.task
def modHere (s : State) (f : Tile → Tile) : State := s.modTile s.focus.tile f
def modCur (s : State) (f : Task → Task) : State := s.modHere fun T => T.modTask s.focus.task f
def reg (s : State) (r : SReg) : Word := s.cur.reg r
/-- The context-held CSRs of the running task's context, R24. -/
def curCtx (s : State) : CtxRegs := s.here.ctx s.cur.ctx.toNat

end State

/-- The word that BSK exempts issues or traps: BSK is cleared, R23. -/
def Task.unexempt (k : Task) : Task := if k.exempt then { k with exempt := false, bsk := false } else k

/-- A word retires: `f` is its whole effect on the task, pc included; RETIRED and CYCLE count it (R30, R127: `n` is the
least number of cycles it takes). -/
def Tile.finish (T : Tile) (task n : Nat) (f : Task → Task) : Tile :=
  { T.setTask task (f (T.task task).unexempt) with retired := T.retired + 1, cycle := T.cycle + BitVec.ofNat 64 n }

/-- The next word in sequence follows, R13. -/
def Task.next (k : Task) : Task := { k with pc := k.pc + 4 }

namespace State

def finish (s : State) (n : Nat) (f : Task → Task) : State := s.modHere fun T => T.finish s.focus.task n f
/-- A word of `n` cycles retires with the effect `f` on its task, and the next word follows. -/
def retireIn (s : State) (n : Nat) (f : Task → Task) : State := s.finish n fun k => (f k).next
/-- A word of one cycle retires. -/
def retire (s : State) (f : Task → Task) : State := s.retireIn 1 f
/-- A word that writes one register retires. -/
def writeReg (s : State) (d : SReg) (v : Word) : State := s.retire fun k => k.setReg d v
/-- A word that transfers control retires. -/
def jump (s : State) (target : BitVec 15) : State := s.finish 1 fun k => { k with pc := target }

end State

/-! ## Exceptions, R21–R23 -/

/-- Trap entry with STATUS.TE = 1, R21: cause `c`, fault value `v`, the handler of the context. -/
def Task.trapEntry (k : Task) (tvec : BitVec 13) (c : Nat) (v : Word) : Task :=
  { k.unexempt with
    epc := k.pc.extractLsb' 2 13
    cause := BitVec.ofNat 6 c
    tval := v
    pte := k.te
    psup := k.sup
    te := false
    sup := true
    pc := tvec ++ 0#2 }

/-- TRET, R21 and R77: BSK is left as it stands and exempts the next word. -/
def Task.trapReturn (k : Task) : Task :=
  { k with pc := k.epc ++ 0#2, te := k.pte, sup := k.psup, exempt := k.bsk }

/-- A task loses its monitor when it is frozen or killed, R70. -/
def State.dropMonitor (s : State) (t n : Nat) : State :=
  { s with monitors := s.monitors.filter fun m => !(m.tile == t && m.tid == n) }

/-- The tasks of a tile that wait for a monitor no more, but for those whose WAITV is emulated (R379), have lost theirs, R70. -/
def State.dropLost (s : State) (t : Nat) : State :=
  { s with monitors := s.monitors.filter fun m =>
      let k := (s.tile t).task m.tid
      m.tile != t || (k.state == .wait && k.waiting == .monitor) || k.state == .run }

/-- An uncorrectable error, or a frozen element that counts as three, is recorded on a tile, R381; errors are counted on its die, R402. -/
def State.noteError (s : State) (t c : Nat) : State :=
  if c ≠ 0x15 ∧ c ≠ 0x18 then s
  else
    let s := s.modTile t fun T => { T with errors := T.errors ++ List.replicate (if c = 0x18 then 3 else 1) T.cycle }
    let die := tileDie t
    let m : Mgmt := SMap.getD s.mgmt die {}
    if c = 0x15 ∧ m.ue ≠ 0xFFFFFFFF then { s with mgmt := SMap.set s.mgmt die { m with ue := m.ue + 1 } } else s

/-! ## Frozen regions, R239, R245 and R363 -/

/-- The level of a number of R363. -/
def levelOf : Nat → Level
  | 0 => .sheet | 1 => .tile | 2 => .quad | _ => .launch

/-- What a policy does with a fault, R363. -/
inductive Policy where
  | ignore | retry | kill
  deriving DecidableEq, Repr

/-- The level that absorbs a fault, and what it does, R363: code 11 passes the fault on below the launch level; code 00 is
read as 10 where the fault has been passed. `n` levels may follow. -/
def absorbs (contain : BitVec 8) (passed : Bool) (lvl : Nat) : Nat → Nat × Policy
  | 0 => (lvl, .kill)
  | n + 1 =>
    match (contain.extractLsb' (2 * lvl) 2).toNat with
    | 0 => (lvl, if passed then .kill else .ignore)
    | 1 => (lvl, .retry)
    | 2 => (lvl, .kill)
    | _ => if 3 ≤ lvl then (lvl, .kill) else absorbs contain true (lvl + 1) n

/-- The level at which the search of a fault starts, R362. -/
def startLevel : FaultSrc → Nat
  | .element _ => 0
  | .node => 1
  | .task _ | .order => 1

/-- A count of R239 stops at cycle `now` of its tile, and goes on from it; an access that waits for the first time begins its count. -/
def ReqState.hold (r : ReqState) (now : BitVec 64) : ReqState :=
  match r with | .waiting since => .paused (now - since) | r => r
def ReqState.count (r : ReqState) (now : BitVec 64) : ReqState :=
  match r with | .pending => .waiting now | .paused n => .waiting (now - n) | r => r
/-- An access waits: its count runs, or stands while `held`. -/
def ReqState.await (r : ReqState) (held : Bool) (now : BitVec 64) : ReqState :=
  match r, held with
  | .pending, true => .paused 0
  | r, true => r.hold now
  | r, false => r.count now
/-- The count exceeds a bound. -/
def ReqState.exceeds (r : ReqState) (bound : Nat) (now : BitVec 64) : Bool :=
  match r with | .waiting since => decide (bound < (now - since).toNat) | _ => false
/-- The access has been made to wait. -/
def ReqState.waits (r : ReqState) : Bool :=
  match r with | .waiting _ | .paused _ => true | _ => false

namespace State

/-- The serial number of the launch that context `c` of tile `t` holds. -/
def lidOf (s : State) (t c : Nat) : Option Nat := ((s.tile t).ctx c).launch.map (·.lid)
def launch (s : State) (n : Nat) : Option Launch := SMap.get? s.launches n
/-- The launch of a context on a tile. -/
def launchAt (s : State) (t c : Nat) : Option Launch := (s.lidOf t c).bind s.launch

/-- What a fault has stopped in context `c`: elements, nodes and FROZEN tasks, each with its tile. -/
def stopsOf (s : State) (c : Nat) : List (Nat × FaultSrc) :=
  (s.ectxs.filter fun x => x.1 % 4 == c && x.2.stopped).map (fun x => (gidTile (x.1 / 4), .element (x.1 / 4)))
    ++ (s.nodes.filter fun n => (match n.2.fault with | some f => f.ctx == c | none => false)).map (fun n => (n.1, .node))
    ++ (s.tiles.filter fun T => (List.range 32).any fun k => (T.2.task k).state == .frozen && (T.2.task k).ctx.toNat == c).map (fun T => (T.1, .task 0))

/-- Element `g` lies in the region, at the level that absorbs it, of what has stopped on tile `t`, R363. -/
def inRegion (s : State) (c t : Nat) (src : FaultSrc) (g : Nat) : Bool :=
  let u := gidTile g
  let x := (s.tile t).ctx c
  match levelOf (absorbs x.contain false (startLevel src) 4).1, s.launchAt t c with
  | .sheet, _ => u == t && (match src with | .element h => elemSheet (gidElem h) == elemSheet (gidElem g) | _ => true)
  | .tile, _ | _, none => u == t
  | .quad, some l =>
    s.lidOf u c == s.lidOf t c && (tileX u - l.ox) >>> x.lw.toNat == (tileX t - l.ox) >>> x.lw.toNat
      && (tileY u - l.oy) >>> x.lh.toNat == (tileY t - l.oy) >>> x.lh.toNat
  | .launch, some _ => s.lidOf u c == s.lidOf t c

/-- The region in which element `g` acts for context `c` is frozen. DEDUCED: the region of R239, R245 and R260 is that of the level which
absorbs the fault, R363. -/
def regionFrozen (s : State) (g c : Nat) : Bool := (s.ectx g c).stopped || (s.stopsOf c).any fun f => s.inRegion c f.1 f.2 g

/-- The counts of R239 stop in the frozen regions of a context, with those of writes that delay a commit. -/
def pauseFrozen (s : State) (c : Nat) : State :=
  let held (g : Nat) (r : ReqState) : ReqState := if s.regionFrozen g c then r.hold (s.tile (gidTile g)).cycle else r
  { s with
    elems := s.elems.map fun e =>
      (e.1, { e.2 with reqs := e.2.reqs.map fun q => if q.ctx = c then { q with state := held e.1 q.state } else q })
    insts := s.insts.map fun i => if i.block.ctx = c then { i with stall := i.stall.map fun w => (w.1, w.2.1, held w.1 w.2.2) } else i }

end State

/-- The running task freezes with cause `c` and fault value `v`, and the region controller is told, R21 and R377. -/
def State.freeze (s : State) (c : Nat) (v : Word) : State :=
  let k := s.cur
  let s := s.modHere fun T =>
    { (T.setTask s.focus.task k.unexempt).enter s.focus.task .frozen .nothing with cycle := T.cycle + 1 }
  State.pauseFrozen { s with notices := s.notices ++ [⟨s.focus.tile, s.focus.task, k.ctx.toNat, c, k.pc, v, s.serial⟩], serial := s.serial + 1 } k.ctx.toNat

/-- The running task raises cause `c` with fault value `v`: it enters its handler, or, with STATUS.TE = 0, it freezes, R21. The word
does not retire. -/
def State.raise (s : State) (c : Nat) (v : Word) : State :=
  let s := s.noteError s.focus.tile c
  let k := s.cur
  if k.te then
    s.modHere fun T => { T.setTask s.focus.task (k.trapEntry (T.ctx k.ctx.toNat).tvec c v) with cycle := T.cycle + 1 }
  else s.freeze c v

/-- A cycle passes on a tile in which its Surveyor issues nothing, R30. -/
def State.pass (s : State) (t : Nat) : State := s.modTile t fun T => { T with cycle := T.cycle + 1 }

/-- The word of the running task waits to be issued. -/
def State.stall (s : State) : State := s.pass s.focus.tile

/-- The running task leaves RUN for WAIT with pc on its word, which has issued, R15. -/
def State.block (s : State) (w : Waiting) : State :=
  s.modHere fun T =>
    { (T.modTask s.focus.task Task.unexempt).enter s.focus.task .wait w with cycle := T.cycle + 1 }

/-- The task leaves RUN for WAIT with pc on its word, which has not issued, R37. -/
def State.withhold (s : State) (w : Waiting) : State :=
  s.modHere fun T => { T.enter s.focus.task .wait w with cycle := T.cycle + 1 }

/-- A control word that needs supervisor state, R77: cause 0x06 with TVAL 0 without it. -/
def State.supOnly (s : State) (k : State) : State := if s.cur.sup then k else s.raise 0x06 0

/-! ## Arithmetic helpers, R9 -/

/-- The low `n` bits of a word read as two's complement, as a 64-bit pattern. -/
def sextWord (n : Nat) (x : BitVec 64) : Word := (x.setWidth n).signExtend 64
def sext12 (i : BitVec 12) : Word := i.signExtend 64
/-- Field [hi:lo] of a number, R9. -/
def bitsOf (x hi lo : Nat) : Nat := (x >>> lo) % 2 ^ (hi - lo + 1)
/-- A number read as two's complement of `n` bits, R9. -/
def sextNat (x n : Nat) : Int := if bitsOf x (n - 1) (n - 1) = 1 then (x % 2 ^ n : Nat) - (2 ^ n : Nat) else (x % 2 ^ n : Nat)
/-- A mathematical integer as a 64-bit pattern, R9. -/
def wrap64 (i : Int) : Word := BitVec.ofInt 64 i
def word (n : Nat) : Word := BitVec.ofNat 64 n

/-- stamp_of, R9. -/
def stampOf (s i0 i1 i2 i3 : Nat) : Nat := s <<< 52 ||| i0 <<< 39 ||| i1 <<< 26 ||| i2 <<< 13 ||| i3

end Sys2Proof.Machine
end

