-- ==== Sys2Proof/Machine/Flags.lean ====
section
/-! DEFINITION. The guard bits of a task (R11, R20, R62–R64), the conditions that set them, and the predicate of a token
with the predicate modes of an operation word (R45, R105). -/

namespace Sys2Proof.Machine

/-- Guard bit `q(n)`: q0 reads as 1, R11. -/
def Task.guard (k : Task) (n : QReg) : Bool := if n = 0 then true else k.guards.getLsbD n.toNat

/-- A write to q0 is discarded, R11. -/
def Task.setGuard (k : Task) (n : QReg) (v : Bool) : Task :=
  if n = 0 then k
  else
    let m : BitVec 8 := 1#8 <<< n.toNat
    { k with guards := if v then k.guards ||| m else k.guards &&& ~~~m }

/-- The guard field [3:0]: q(grd[2:0]), inverted when grd[3] = 1, R20. -/
def Task.guardHolds (k : Task) (g : BitVec 4) : Bool := xor (k.guard (g.extractLsb' 0 3)) (g.getLsbD 3)

/-- A guarded word: one whose guard is 0 only advances pc and RETIRED, R20. -/
def State.guarded (s : State) (g : BitVec 4) (s' : State) : State := if s.cur.guardHolds g then s' else s.retire id

/-- Σ q(n) · 2^n, R64. -/
def Task.guardWord (k : Task) : Word := (k.guards ||| 1#8).setWidth 64

/-- The conditions of R62. -/
def condEq (a b : Word) : Bool := a == b
def condNe (a b : Word) : Bool := a != b
def condLt (a b : Word) : Bool := a.ult b
def condLe (a b : Word) : Bool := a.ule b
def condLts (a b : Word) : Bool := a.slt b
def condLes (a b : Word) : Bool := a.sle b
/-- bits(a, b mod 64, b mod 64) = 1. -/
def condBit (a b : Word) : Bool := a.getLsbD (b.toNat % 64)
def condZero (a : Word) : Bool := a == 0

/-- A word that writes one guard bit retires. -/
def State.writeGuard (s : State) (q : QReg) (v : Bool) : State := s.retire fun k => k.setGuard q v

/-! ## Predicates of tokens, R45 and R105 -/

/-- What a firing does, by pm and operand A's PRD: compute, emit nothing, or emit a null token. -/
inductive Verdict where
  | compute | nothing | null
  deriving DecidableEq, Repr

/-- R45 and the case table of R105. -/
def verdict (pm : BitVec 3) (prd : Bool) : Verdict :=
  match pm.toNat with
  | 1 => if prd then .compute else .nothing
  | 2 => if prd then .nothing else .compute
  | 3 => if prd then .compute else .null
  | 4 => if prd then .null else .compute
  | _ => .compute

/-- The PRD of a result: operand A's under pm = 0b101, otherwise what the operation sets. -/
def resultPrd (pm : BitVec 3) (aPrd opPrd : Bool) : Bool := if pm = 5 then aPrd else opPrd

end Sys2Proof.Machine
end

