-- ==== Sys2Proof/Machine/Channels.lean ====
section
/-! DEFINITION. Colour channels and their bindings (R15, R16, R28), the sync pairs of engine words (R36, R37, R316) and the
creation of tasks (R174, R210). -/

namespace Sys2Proof.Machine

/-- The key of colour `col` of context `c` on a tile. -/
def colourKey (c col : Nat) : Nat := 32 * c + col

/-- The task that colour `col` of context `c` is bound to, R28. -/
def Tile.binding (T : Tile) (c col : Nat) : Option Nat :=
  match SMap.get? (T.ctx c).bound col with
  | some (true, n) => some n.toNat
  | _ => none

def Tile.channel (T : Tile) (c col : Nat) : List Beat := SMap.getD T.channels (colourKey c col) []
def Tile.setChannel (T : Tile) (c col : Nat) (bs : List Beat) : Tile :=
  { T with channels := SMap.set T.channels (colourKey c col) bs }

/-! ## Sync pairs -/

/-- Sync pairs are kept per context, major and pair number, R36 and R316. -/
def pairKey (c maj fifo : Nat) : Nat := 64 * c + 4 * (maj - 0x1E) + fifo
def Tile.pair (T : Tile) (c maj fifo : Nat) : Pair := SMap.getD T.pairs (pairKey c maj fifo) {}
def Tile.setPair (T : Tile) (c maj fifo : Nat) (p : Pair) : Tile := { T with pairs := SMap.set T.pairs (pairKey c maj fifo) p }

/-- The tokens that one half of a pair holds at most, R316. -/
def pairDepth : Nat := 63

/-- Completion tokens are added in the order of their words, while the half has room. -/
def flushTokens : List (Nat × Bool) → Nat → List (Nat × Bool) × Nat
  | (q, true) :: r, n => if n < pairDepth then flushTokens r (n + 1) else ((q, true) :: r, n)
  | l, n => (l, n)

/-- The conditions of R37 for a word of major `maj` in context `c`. -/
def Tile.syncOk (T : Tile) (c maj : Nat) (push pop : Bool) (fifo : Nat) : Bool :=
  let p := T.pair c maj fifo
  (!pop || decide (0 < p.toTask)) && (!push || decide (p.toEngine < pairDepth))

/-- Tasks that wait on a pair and whose conditions hold enter READY. -/
def Tile.wakeSync (T : Tile) (c maj fifo : Nat) : Tile :=
  (List.range 32).foldl (fun T n =>
    match (T.task n).waiting with
    | .sync m f push pop =>
      if m = maj ∧ f = fifo ∧ (T.task n).ctx.toNat = c ∧ T.syncOk c maj push pop fifo = true then T.wake n else T
    | _ => T) T

/-- A pair changes; tokens put back come before completion tokens, and a token that reaches the Surveyor is an event of IDLE (R77). -/
def Tile.modPair (T : Tile) (c maj fifo : Nat) (f : Pair → Pair) : Tile :=
  let p := T.pair c maj fifo
  let q := f p
  let back := Min.min q.owed (pairDepth - q.toTask)
  let (o, n) := flushTokens q.order (q.toTask + back)
  let T := (T.setPair c maj fifo { q with order := o, toTask := n, owed := q.owed - back }).wakeSync c maj fifo
  if q.toTask < n ∨ p.toTask < q.toTask then T.idleEvent else T

/-- No completion token is added for place `q` of a pair, and later ones do not wait for it. -/
def Tile.voidToken (T : Tile) (c maj fifo q : Nat) : Tile :=
  T.modPair c maj fifo fun p => { p with order := p.order.filter fun e => e.1 != q }

/-- The token that a POP took is put back, once the half has room for it, R316. -/
def Tile.tokenBack (T : Tile) (c maj fifo : Nat) : Tile := T.modPair c maj fifo fun p => { p with owed := p.owed + 1 }

/-- What a word that ends without effect gives back to its pair, R316. -/
def Tile.untake (T : Tile) (k : Taken) : Tile :=
  match k.pair with
  | none => T
  | some p =>
    let T := match k.seq with | some q => T.voidToken k.ctx p.1 p.2 q | none => T
    if k.pop then T.tokenBack k.ctx p.1 p.2 else T

/-! ## Bindings, R15, R16 and R28 -/

def Beat.onColour (b : Beat) (c col : Nat) : Bool := b.tag.ctx.toNat == c && b.tag.col.toNat == col

/-- Whether a beat that is queued on a bound colour takes its task out of a wait, R15: out of one whose word may be issued again (the
waits of R367), and not out of one that runs to its end, whose word an engine or a barrier has (DEDUCED: R266, R178 and R367). -/
def Waiting.ends (w : Waiting) : Bool :=
  match w with
  | .engine | .barrier | .nothing => false
  | .colour | .monitor | .sync _ _ _ _ | .idle | .ticket => true

/-- A task in WAIT is about to leave it with its word to be issued again: what is kept of the word goes, and what it took from its sync pair
returns, R70 and R317. Its monitor is dropped by `State.dropLost`. -/
def Tile.quitWait (T : Tile) (n : Nat) : Tile :=
  let k := T.task n
  match k.waiting with
  | .monitor => T.modTask n fun k => { k with taken := none }
  | .ticket =>
    match k.taken with
    | some w => (T.modTask n fun k => { k with taken := none }).untake w
    | none => T
  | _ => T

/-- The bound task of a colour with beats queued enters READY, R15 and R16. -/
def Tile.wakeColour (T : Tile) (c col : Nat) : Tile :=
  match T.binding c col with
  | none => T
  | some n =>
    if (T.task n).state = .wait ∧ (T.task n).waiting.ends = true ∧ T.channel c col ≠ [] then (T.quitWait n).wake n else T

/-- Beats held at the tile input enter the channel of a bound colour in their order, R16; they are words that IDLE waits for, R77. -/
def Tile.admitHeld (T : Tile) (c col : Nat) : Tile :=
  let came := T.held.filter (·.onColour c col)
  if came = [] then T
  else
    let T := { T.setChannel c col (T.channel c col ++ came) with held := T.held.filter fun b => !b.onColour c col }
    (T.wakeColour c col).idleEvent

/-- A write of V and TASK to a colour, R28: a binding to a FREE task is ignored; a binding moves with its channel, and the
beats already there count as arriving at that moment. -/
def Tile.bindColour (T : Tile) (c col : Nat) (v : Bool) (n : BitVec 5) : Tile :=
  if v ∧ (T.task n.toNat).state = .free then T
  else
    let T := T.modCtx c fun x => { x with bound := SMap.set x.bound col (v, n) }
    if v then
      let T := T.admitHeld c col
      if T.channel c col = [] then T else (T.wakeColour c col).idleEvent
    else T

/-! ## Tasks of a context -/

/-- The task's colours are unbound; their beats stay queued, R174. -/
def Tile.unbindTask (T : Tile) (n : Nat) : Tile :=
  (List.range 4).foldl (fun T c => T.modCtx c fun x =>
    { x with bound := x.bound.map fun e => if e.2 = (true, BitVec.ofNat 5 n) then (e.1, (false, 0)) else e }) T

/-- The colours of context `c` bound to task `n`, rising. -/
def Tile.coloursOf (T : Tile) (c n : Nat) : List Nat :=
  (List.range 32).filter fun col => T.binding c col == some n

/-- The lowest FREE descriptor, R174 and R210. -/
def Tile.freeTask (T : Tile) : Option Nat := (List.range 32).find? fun n => (T.task n).state == .free

/-- A new task in descriptor `n`: its s registers read as zero (R18). -/
def Tile.create (T : Tile) (n : Nat) (k : Task) (st : TaskState) (w : Waiting) : Tile := (T.setTask n k).enter n st w

end Sys2Proof.Machine
end

