-- ==== Sys2Proof/Machine/Aperture.lean ====
section
/-! DEFINITION. The management aperture as device software and the host read it, R401 and R402. -/

namespace Sys2Proof.Machine

/-- MBASE, R401. -/
def mbase : Nat := 0x00FFFF0000000000

/-- A device physical address of the aperture: four blocks of 1 MiB. -/
def inAperture (a : Nat) : Bool := mbase ≤ a && a < mbase + 4 * 2 ^ 20

/-- DDCTL, R339. -/
def DdEngine.ctl (e : DdEngine) : Word := word (e.gzth.toNat * 2 ^ 32 + (if e.fail then 32 else 0) + e.ctxm.toNat)

namespace State

def mgmtOf (s : State) (die : Nat) : Mgmt := SMap.getD s.mgmt die {}
def modMgmt (s : State) (die : Nat) (f : Mgmt → Mgmt) : State := { s with mgmt := SMap.set s.mgmt die (f (s.mgmtOf die)) }

/-- A host write of a register of the management window: it needs the link and power. -/
def fromHost (s : State) (k : State → State) : State := if s.hostDown || !s.powered then s else k s

/-- RETMAP as one number, R401. -/
def retmap (m : Mgmt) : Nat := m.retired.foldl (fun x p => x ||| 1 <<< p) 0

/-- The aligned 64-bit register at `off` of a die's block; an offset that no register has reads as zero. -/
def mgmtWord (s : State) (die off : Nat) : Nat :=
  let m := s.mgmtOf die
  if off = 0x0000 then s.module.devkey.toNat
  else if off = 0x0008 then
    (if m.ready then 1 else 0) + (if m.rr then 2 else 0) + (if m.pcap then 4 else 0) + (if m.thr then 8 else 0)
  else if off = 0x0010 then (if die = 0 then s.module.plim.toNat else 0)
  else if off = 0x0018 then (if die = 0 then s.module.power.toNat else 0)
  else if off = 0x0020 then m.temp.toNat
  else if off = 0x0028 then m.ce.toNat * 2 ^ 32 + m.ue.toNat
  else if off = 0x0030 then m.retired.length * 2 ^ 12 + m.spare * 2 ^ 8 + m.exposed
  else if off = 0x0038 then (if die = 0 then s.module.lockbase.toNat * 2 ^ 15 else 0)
  else if off = 0x0040 then m.haltrel.toNat
  else if off = 0x0048 then 0
  else if 0x0100 ≤ off ∧ off < 0x0120 then
    let r : Troot := if h : (off - 0x100) / 8 < 4 then s.troot[(off - 0x100) / 8] else {}
    r.root.toNat * 2 ^ 14 + (if r.en then 1 else 0)
  else if 0x0200 ≤ off ∧ off < 0x0400 then
    let q := SMap.getD m.qdesc ((off - 0x200) / 16) 0
    if off % 16 = 0 then q.toNat % 2 ^ 64 else q.toNat / 2 ^ 64
  else if off = 0x0400 then m.egring.toNat % 2 ^ 64
  else if off = 0x0408 then m.egring.toNat / 2 ^ 64
  else if off = 0x0410 then m.fltring.toNat % 2 ^ 64
  else if off = 0x0418 then m.fltring.toNat / 2 ^ 64
  else if off = 0x0420 then (if die = 0 then s.module.msgring.toNat % 2 ^ 64 else 0)
  else if off = 0x0428 then (if die = 0 then s.module.msgring.toNat / 2 ^ 64 else 0)
  else if 0x0500 ≤ off ∧ off < 0x0510 then (SMap.getD s.dd (2 * die + (off - 0x500) / 8) {}).ctl.toNat
  else if 0x0600 ≤ off ∧ off < 0x0618 then retmap m / 2 ^ (8 * (off - 0x600)) % 2 ^ 64
  else 0

/-- One byte of the aperture. -/
def apertureByte (s : State) (a : Nat) : Nat :=
  let r := a - mbase
  s.mgmtWord (r / 2 ^ 20) (r % 2 ^ 20 / 8 * 8) / 2 ^ (8 * (a % 8)) % 256

/-- `n` bytes of the aperture, little-endian, R401. -/
def apertureBytes (s : State) (a : Nat) : Nat → Nat
  | 0 => 0
  | n + 1 => s.apertureByte a + 256 * s.apertureBytes (a + 1) n

end State

end Sys2Proof.Machine
end

