-- ==== Sys2Proof/Machine/Traverse.lean ====
section
/-! DEFINITION. Traverse registers and the byte streams they describe, R318 and R319. -/

namespace Sys2Proof.Machine

/-! ## Fields, R318 -/

def tvStride (w : BitVec 256) (k : Nat) : Int := (w.extractLsb' (128 + 32 * k) 32).toInt
def tvExtent (w : BitVec 256) (k : Nat) : Nat := (w.extractLsb' (64 + 16 * k) 16).toNat + 1
def tvSp (w : BitVec 256) : Nat := (w.extractLsb' 62 2).toNat
def tvEsz (w : BitVec 256) : Nat := (w.extractLsb' 59 3).toNat
def tvV (w : BitVec 256) : Bool := w.getLsbD 58
def tvBase (w : BitVec 256) : Nat := (w.extractLsb' 0 56).toNat

/-- T, the bytes of the stream, R319. -/
def tvBytes (w : BitVec 256) : Nat := 2 ^ tvEsz w * (tvExtent w 0 * tvExtent w 1 * tvExtent w 2 * tvExtent w 3)

/-- The address of stream byte `o`, R319. -/
def tvAddr (w : BitVec 256) (o : Nat) : Int :=
  let e := o / 2 ^ tvEsz w
  let j0 := e % tvExtent w 0
  let e := e / tvExtent w 0
  let j1 := e % tvExtent w 1
  let e := e / tvExtent w 1
  let j2 := e % tvExtent w 2
  let j3 := e / tvExtent w 2
  tvBase w + j0 * tvStride w 0 + j1 * tvStride w 1 + j2 * tvStride w 2 + j3 * tvStride w 3 + (o % 2 ^ tvEsz w : Nat)

/-- The stream has a byte among the `n` bytes from `a`. -/
def tvTouches (w : BitVec 256) (a n : Nat) : Bool :=
  (List.range (tvBytes w)).any fun o => decide ((a : Int) ≤ tvAddr w o) && decide (tvAddr w o < (a + n : Nat))

end Sys2Proof.Machine
end

