-- ==== Sys2Proof/Machine/MemSys.lean ====
section
/-! DEFINITION. The memories and their homes (R222, R276), translation (R224–R230, R406), marks and codes (R377, R378),
monitors (R70), owner buffers (R263) and the stores in flight (R67, R276, R281). -/

namespace Sys2Proof.Machine

/-! ## Memories -/

namespace State

/-- The memory of a space. -/
def store (s : State) (sp : Space) : Store :=
  match sp with
  | .hbm => s.hbm
  | .far => s.far
  | .host => s.host
  | .peer m => SMap.getD s.peers m {}
  | .localMem g => (s.elem g).store
  | .overlay t => (s.tile t).overlay
  | .dataStore t => (s.tile t).dstore
  | .instrStore t => (s.tile t).istore

def setStore (s : State) (sp : Space) (x : Store) : State :=
  match sp with
  | .hbm => { s with hbm := x }
  | .far => { s with far := x }
  | .host => { s with host := x }
  | .peer m => { s with peers := SMap.set s.peers m x }
  | .localMem g => s.modElem g fun e => { e with store := x }
  | .overlay t => s.modTile t fun T => { T with overlay := x }
  | .dataStore t => s.modTile t fun T => { T with dstore := x }
  | .instrStore t => s.modTile t fun T => { T with istore := x }

def modStore (s : State) (sp : Space) (f : Store → Store) : State := s.setStore sp (f (s.store sp))

/-- `n` bytes at a physical address, as a number; the management aperture answers with its registers, R401. -/
def bytesAt (s : State) (sp : Space) (a n : Nat) : Nat :=
  if sp = .hbm ∧ inAperture a then s.apertureBytes a n else Memory.readN (s.store sp).bytes a n

end State

/-- The numbers of the units of `size` bytes that the `n` bytes from `a` touch. -/
def unitsOf (size a n : Nat) : List Nat :=
  if n = 0 then [] else (List.range ((a + n - 1) / size - a / size + 1)).map (a / size + ·)

/-- The numbers of the units of `size` bytes that lie wholly in the `n` bytes from `a`. -/
def unitsWithin (size a n : Nat) : List Nat :=
  (unitsOf size a n).filter fun u => decide (a ≤ u * size) && decide (u * size + size ≤ a + n)

/-- A read of these bytes meets a poison mark, R378. -/
def Store.poisoned (x : Store) (a n : Nat) : Bool := (unitsOf 32 a n).any fun u => x.poison.contains u
/-- A read of these bytes meets an error that the codes cannot correct, R377. -/
def Store.uncorrectable (x : Store) (a n : Nat) : Bool := (unitsOf 8 a n).any fun u => x.badEcc.contains u

/-- A write of `n` bytes: poison marks of the sectors it covers are cleared, codes are written afresh for the words it
covers, R377 and R378. -/
def Store.write (x : Store) (a n v : Nat) : Store :=
  let whole := unitsWithin 32 a n
  let words := unitsWithin 8 a n
  { x with
    bytes := Memory.writeN x.bytes a n v
    poison := x.poison.filter fun u => !whole.contains u
    badEcc := x.badEcc.filter fun u => !words.contains u
    weakEcc := x.weakEcc.filter fun u => !words.contains u }

/-- The cause of a read of these bytes: 0x14 for poison, then 0x15 for an uncorrectable error, R66. -/
def Store.readCause (x : Store) (a n : Nat) : Option Nat :=
  if x.poisoned a n then some 0x14 else if x.uncorrectable a n then some 0x15 else none

namespace State

/-- `n` errors that codes have corrected are counted in the telemetry of a die, R377. -/
def countFixed (s : State) (die n : Nat) : State :=
  if n = 0 then s else s.modMgmt die fun m => { m with ce := BitVec.ofNat 32 (Min.min (m.ce.toNat + n) (2 ^ 32 - 1)) }

/-- A correctable error in the bytes read is written back corrected and counted, R377. -/
def correct (s : State) (die : Nat) (sp : Space) (a n : Nat) : State :=
  let hit := (unitsOf 8 a n).filter fun u => (s.store sp).weakEcc.contains u
  if hit = [] then s
  else
    let s := s.modStore sp fun x => { x with weakEcc := x.weakEcc.filter fun u => !hit.contains u }
    s.countFixed die hit.length

/-! ## Monitors, R70 -/

/-- The task of a monitor is released: d := 0, pc moves past its WAITV, it enters READY; a Surveyor in IDLE sees it. -/
def release (s : State) (m : Monitor) : State :=
  s.modTile m.tile fun T =>
    let k := T.task m.tid
    if k.state = .wait ∧ k.waiting = .monitor then
      let k := match k.taken with
        | some { word := .waitv d _ _ _, .. } => { k.result d 0 with pc := k.pc + 4, taken := none }
        | _ => k
      let T := { T.setTask m.tid k with retired := T.retired + 1 }
      (T.wake m.tid).idleEvent
    else T

/-- Every monitor on the words of device memory that a write touches is released, whatever the write stores, R70. -/
def releaseWritten (s : State) (a n : Nat) : State :=
  let ws := unitsOf 8 a n
  let hit (m : Monitor) : Bool := m.space == .hbm && ws.contains (m.word / 8)
  (s.monitors.filter hit).foldl release { s with monitors := s.monitors.filter fun m => !hit m }

/-- A write into an overlay invalidates the staging entries whose destination it touches, R372. -/
def unstage (s : State) (t a n : Nat) : State :=
  s.modTile t fun T => { T with ctxs := mapEach (fun x => { x with staging := x.staging.filter fun e => !tvTouches e.dst a n }) T.ctxs }

/-- A home performs a write of `n` bytes. Device-side writes to the management aperture are not performed, R401. Whoever writes, the
monitors on the words written are released: R70's list of agents names neither the host's writes over the link nor the translation unit's
update of an entry (DESIGN CHOICE). -/
def perform (s : State) (sp : Space) (a n v : Nat) : State :=
  if sp = .hbm ∧ inAperture a then s else
  let s := s.modStore sp fun x => x.write a n v
  match sp with
  | .hbm => s.releaseWritten a n
  | .overlay t => s.unstage t a n
  | _ => s

/-- A write by an agent that acts for context `c`: a line of a local memory or an overlay takes its owner mark, R371. -/
def performFor (s : State) (c : Nat) (sp : Space) (a n v : Nat) : State :=
  let s := s.perform sp a n v
  match sp with
  | .localMem _ | .overlay _ => s.modStore sp fun x => { x with marks := (unitsOf 32 a n).foldl (fun m l => SMap.set m l c) x.marks }
  | _ => s

/-! ## Owner buffers, R263 -/

/-- The owner of a line of device memory writes it back and releases it. -/
def recallLine (s : State) (line : Nat) : State :=
  s.elems.foldl (fun s e =>
    match (s.elem e.1).owner.find? (·.line == line) with
    | none => s
    | some o =>
      (s.perform .hbm (32 * line) 32 o.data.toNat).modElem e.1 fun el =>
        { el with owner := el.owner.filter fun x => x.line != line }) s

/-- Every line of device memory that the bytes touch is recalled from its owner, other than element `own`. -/
def callBack (s : State) (own : Option Nat) (sp : Space) (a n : Nat) : State :=
  if sp = .hbm then
    (unitsOf 32 a n).foldl (fun s l =>
      if (match own with | some g => (s.elem g).owner.any (·.line == l) | none => false) then s else s.recallLine l) s
  else s

/-! ## Stores in flight, R67, R276, R279–R283 -/

/-- The home of an address: device memory is interleaved over eight controllers in units of 4 KiB (R383). -/
def homeOf (sp : Space) (a : Nat) : Space × Nat := (sp, if sp = .hbm then a / 4096 % 8 else 0)

/-- The homes of the bytes that an access touches. -/
def homesOf (sp : Space) (a n : Nat) : List (Space × Nat) := if sp = .hbm then (unitsOf 4096 a n).map fun u => (sp, u % 8) else [(sp, 0)]

/-- A store in flight reaches its home and is performed. -/
def land (s : State) (f : InFlight) : State := (s.callBack none f.space f.addr f.n).perform f.space f.addr f.n f.value

/-- The stores that `want` names are performed in their order, each with every store that came to the same home before it
(R276: a home performs what it has accepted in acceptance order). -/
def landWhere (s : State) (want : InFlight → Bool) : State :=
  let rec split (l : List InFlight) : List InFlight × List InFlight :=
    match l with
    | [] => ([], [])
    | f :: r =>
      let (g, k) := split r
      if want f || r.any fun w => want w && homeOf w.space w.addr == homeOf f.space f.addr then (f :: g, k) else (g, f :: k)
  let (go, stay) := split s.inflight
  go.foldl land { s with inflight := stay }

/-- What an access by `agent` to these bytes finds performed: the agent's own earlier stores to their homes, and the stores
to the same 64-byte units that R275 has put before it. -/
def settleHome (s : State) (agent : Nat) (sp : Space) (a n : Nat) : State :=
  let us := unitsOf 64 a n
  let hs := homesOf sp a n
  s.landWhere fun f =>
    (f.agent == agent && hs.contains (homeOf f.space f.addr))
      || (f.pub && f.space == sp && (unitsOf 64 f.addr f.n).any us.contains)

/-- A fence of scope `f` (R77's codes: 3 QUAD, 4 DEVICE, 5 SYSTEM; a narrower one waits for nothing in flight), R283: the
stores that precede it are performed, and from DEVICE up the owned lines are written back. -/
def fence (s : State) (agent f : Nat) : State :=
  if f < 3 then s
  else
    let s := s.landWhere fun x => (x.agent == agent || x.pub) && (f == 5 || x.space == .hbm)
    if f = 3 then s else s.elems.foldl (fun s e => (s.elem e.1).owner.foldl (fun s o => s.recallLine o.line) s) s

/-- What the agent does next follows its stores in issue order for whoever depends on it, R275. -/
def publish (s : State) (agent : Nat) : State :=
  { s with inflight := s.inflight.map fun f => if f.agent = agent then { f with pub := true } else f }

/-- A store is accepted and put in flight, R67 and R256. -/
def accept (s : State) (agent : Nat) (sp : Space) (a n v : Nat) (pub : Bool) : State :=
  { s with inflight := s.inflight ++ [⟨agent, sp, a, n, v, pub⟩] }

/-- An access by an agent to bytes at their home: owner lines and the stores that precede it come first. -/
def atHome (s : State) (agent : Nat) (own : Option Nat) (sp : Space) (a n : Nat) : State :=
  (s.settleHome agent sp a n).callBack own sp a n

/-- The stores that come first at the home of every piece, R276. -/
def piecesHome (s : State) (agent : Nat) (ps : List (Space × Nat × Nat)) : State :=
  ps.foldl (fun s p => s.atHome agent none p.1 p.2.1 p.2.2) s

end State

/-- The agent number of a task and of an element. -/
def taskAgent (t n : Nat) : Nat := 32 * t + n
def elemAgent (g : Nat) : Nat := 2 ^ 20 + g
/-- The agent number of engines: their accesses to one home have no order of their own, R285. -/
def engineAgent : Nat := 2 ^ 30

/-! ## Page-table entries, R226 -/

def pteV (e : BitVec 64) : Bool := e.getLsbD 63
def pteLoc (e : BitVec 64) : Nat := (e.extractLsb' 61 2).toNat
def pteSo (e : BitVec 64) : Bool := e.getLsbD 60
def pteNh (e : BitVec 64) : Bool := e.getLsbD 59
def pteW (e : BitVec 64) : Bool := e.getLsbD 58
def pteRd (e : BitVec 64) : Bool := e.getLsbD 57
def pteLeaf (e : BitVec 64) : Bool := e.getLsbD 56
def pteAddr (e : BitVec 64) : Nat := (e.extractLsb' 16 40).toNat * 65536
def ptePeer (e : BitVec 64) : Nat := (e.extractLsb' 8 8).toNat
def pteDirty (e : BitVec 64) : Bool := e.getLsbD 7

/-- R222: 512 GiB of HBM4E and 1.5 TiB of LPDDR-6; the node stores take the top 2 GiB, which no access reaches (R336, R399). -/
def hbmSize : Nat := 2 ^ 39
def hbmReach : Nat := 2 ^ 39 - 2 ^ 31
def farSize : Nat := 3 * 2 ^ 39

/-- A translation: the leaf and where it is kept, for a page of 32 MiB or 64 KiB. -/
structure Leaf where
  entry : BitVec 64
  big   : Bool
  src   : Nat
  deriving DecidableEq, Repr

/-- The memory and the address that a leaf gives an address. -/
def Leaf.place (l : Leaf) (va : Nat) : Space × Nat :=
  let pa := if l.big then pteAddr l.entry / 2 ^ 25 * 2 ^ 25 + va % 2 ^ 25 else pteAddr l.entry + va % 65536
  match pteLoc l.entry with
  | 0 => (.hbm, pa)
  | 1 => (.host, pa)
  | 2 => (.peer (ptePeer l.entry), pa)
  | _ => (.far, pa)

/-- The memory has this address. Host and peer addresses are passed on unchanged (R406). -/
def physExists (sp : Space) (a n : Nat) : Bool :=
  match sp with
  | .hbm => a + n ≤ hbmReach || (inAperture a && inAperture (a + n - 1))
  | .far => a + n ≤ farSize
  | _ => true

namespace State

/-! ## The walk, R225, R228 -/

/-- A read of an entry: from the cached pointer entries of the context, or from memory, which an owner gives back first (R263); `absent`
where no memory is. A correctable error in it is corrected; the translation unit has no row in the table of R377 and is no reader of R378, so
that it takes a marked entry as it stands (DESIGN CHOICE). -/
def entryAt (s : State) (die ctx a : Nat) : BitVec 64 × State :=
  match (s.unit die).ptrs.find? fun p => p.ctx == ctx && p.addr == a with
  | some p => (p.entry, s)
  | none =>
    if physExists .hbm a 8 then
      let s := (s.callBack none .hbm a 8).correct die .hbm a 8
      (BitVec.ofNat 64 (s.bytesAt .hbm a 8), s)
    else (0, { s with absent := some a })

/-- A pointer entry is kept among the 256 most recently used, R228. -/
def keepPointer (s : State) (die ctx a : Nat) (e : BitVec 64) : State :=
  s.modUnit die fun u => { u with ptrs := (⟨ctx, a, e⟩ :: u.ptrs.filter fun p => !(p.ctx == ctx && p.addr == a)).take 256 }

/-- The levels below `lev` levels of pointers: `table` is the table of the current level, R225. -/
def walkFrom (s : State) (die ctx va : Nat) : Nat → Nat → Nat → Option Leaf × State
  | 0, _, _ => (none, s)
  | fuel + 1, level, table =>
    let index := match level with | 0 => va / 2 ^ 45 % 2048 | 1 => va / 2 ^ 35 % 1024 | 2 => va / 2 ^ 25 % 1024 | _ => va / 2 ^ 16 % 512
    let a := table + 8 * index
    let (e, s) := s.entryAt die ctx a
    if !pteV e then (none, s)
    else if pteLeaf e then
      if level < 2 then (none, s)
      else if level = 2 then (if pteAddr e % 2 ^ 25 ≠ 0 then (none, s) else (some ⟨e, true, a⟩, s))
      else (some ⟨e, false, a⟩, s)
    else if level = 3 then (none, s)
    else (s.keepPointer die ctx a e).walkFrom die ctx va fuel (level + 1) (pteAddr e)

def rootOf (s : State) (ctx : Nat) : Troot := if h : ctx < 4 then s.troot[ctx] else {}

/-- A walk for an address: it fills the die's cache with the leaf it finds, R225 and R228. DESIGN CHOICE: a walk is one step of its
requester, so no two walks are ever in progress together and the joins and the limit of R229 never act. -/
def walk (s : State) (die ctx va : Nat) : Option Leaf × State :=
  let r := s.rootOf ctx
  if !r.en then (none, s)
  else
    match s.walkFrom die ctx va 4 0 (r.root.toNat * 2 ^ 14) with
    | (none, s) => (none, s)
    | (some l, s) =>
      let page := if l.big then va / 2 ^ 25 else va / 65536
      let s := s.modUnit die fun u => { u with leaves := (⟨ctx, l.big, page, l.entry, l.src⟩ :: u.leaves).take 8192 }
      (some l, s)

/-- The translation that the die's unit gives: a cached leaf, or a walk, R228; with EN = 0 nothing is present, R224. -/
def translate (s : State) (die ctx va : Nat) : Option Leaf × State :=
  if 2 ^ 56 ≤ va ∨ (s.rootOf ctx).en = false then (none, s)
  else
    match (s.unit die).leaves.find? fun l => l.ctx == ctx && l.page == (if l.big then va / 2 ^ 25 else va / 65536) with
    | some l => (some ⟨l.entry, l.big, l.src⟩, s)
    | none => s.walk die ctx va

/-- D is set in memory, by one indivisible update, before a write through a leaf with D = 0, R228. -/
def markDirty (s : State) (die : Nat) (l : Leaf) : State :=
  if pteDirty l.entry then s
  else
    let s := s.callBack none .hbm l.src 8
    let s := s.perform .hbm l.src 8 (s.bytesAt .hbm l.src 8 ||| 128)
    s.modUnit die fun u => { u with leaves := u.leaves.map fun x => if x.src = l.src then { x with entry := x.entry ||| 128 } else x }

/-- The link or plane to a memory is up, R384 and R386: 36 planes lead to the peers. -/
def reachable (s : State) (sp : Space) : Bool :=
  match sp with
  | .host => !s.hostDown
  | .peer _ => s.planesDown.length < 36
  | _ => true

end State

/-- What an access asks of its page: reads, writes, supervisor state (R66, R227); whether far-tier pages serve it
(engines, R227); whether it is the hardware's own use of header pages (R234); whether only device memory serves it (R355). -/
structure Need where
  read   : Bool := false
  write  : Bool := false
  sup    : Bool := false
  farOk  : Bool := false
  header : Bool := false
  near   : Bool := false
  deriving DecidableEq, Repr

/-- The page forbids the access, R66 step 3, R227 and R406. -/
def Need.forbids (n : Need) (l : Leaf) (va : Nat) : Bool :=
  (n.read && !pteRd l.entry) || (n.write && !pteW l.entry) || (pteSo l.entry && !n.sup)
    || (pteNh l.entry && !n.header) || (pteLoc l.entry == 3 && !n.farOk) || (n.near && pteLoc l.entry != 0)
    || (pteLoc l.entry == 1 && Config.hostRefuses ((l.place va).2 / 65536))

/-- One address translated and tested: the memory and address, or the cause, R66 steps 2 and 3 and R384. An access that is tested as a
write sets D (DESIGN CHOICE: so do WAITV, WAKE, a failing ACAS and an atomic that ends in 0x14 or goes to its emulation, which R68 tests as
writes though they write nothing there). -/
def State.probe (s : State) (die ctx va n : Nat) (need : Need) : Except Nat (Space × Nat) × State :=
  match s.translate die ctx va with
  | (none, s) => (.error 0x05, s)
  | (some l, s) =>
    if need.forbids l va then (.error 0x06, s)
    else
      let p := l.place va
      if !s.reachable p.1 then (.error 0x1D, s)
      else if !physExists p.1 p.2 n then (.error 0x05, { s with absent := some p.2 })
      else (.ok p, if need.write then s.markDirty die l else s)

/-- The bytes from `va` cut at the boundaries of units: address and count of each part. -/
def cutAt (unit : Nat) : Nat → Nat → Nat → List (Nat × Nat)
  | 0, _, _ => []
  | fuel + 1, va, n =>
    if n = 0 then []
    else
      let m := Min.min n (unit - va % unit)
      (va, m) :: cutAt unit fuel (va + m) (n - m)

/-- The bytes cut at the boundaries of 64 KiB pages, and at those of 32-byte lines, R249. -/
def pieces (fuel va n : Nat) : List (Nat × Nat) := cutAt 65536 fuel va n
def lineParts (p : Space × Nat × Nat) : List (Space × Nat × Nat) := (cutAt 32 (p.2.2 / 32 + 2) p.2.1 p.2.2).map fun x => (p.1, x.1, x.2)

/-- Every page that the bytes touch, translated and tested in address order: where each piece lies, or the first cause
and its address, R249. -/
def State.probeAll (s : State) (die ctx : Nat) (need : Need) : List (Nat × Nat) → Except (Nat × Nat) (List (Space × Nat × Nat)) × State
  | [] => (.ok [], s)
  | (va, n) :: r =>
    match s.probe die ctx va n need with
    | (.error c, s) => (.error (c, va), s)
    | (.ok p, s) =>
      match s.probeAll die ctx need r with
      | (.error e, s) => (.error e, s)
      | (.ok ps, s) => (.ok ((p.1, p.2, n) :: ps), s)

/-- The bytes of several pieces as one number, lowest address first. -/
def State.readPieces (s : State) : List (Space × Nat × Nat) → Nat
  | [] => 0
  | (sp, a, n) :: r => s.bytesAt sp a n + 256 ^ n * s.readPieces r

/-- The pieces written from a number for context `c`, lowest address first. -/
def State.writePieces (s : State) (c v : Nat) : List (Space × Nat × Nat) → State
  | [] => s
  | (sp, a, n) :: r => (s.performFor c sp a n (v % 256 ^ n)).writePieces c (v / 256 ^ n) r

end Sys2Proof.Machine
end

