-- ==== Sys2Proof/Machine/Fabric.lean ====
section
/-! DEFINITION. Beats, tokens, edges, ports and legends of the fabric: the operations that element operations, switches,
matrix nodes, memory nodes and engines share (R51, R52, R99–R112, R151–R153, R172–R175). -/

namespace Sys2Proof.Machine

/-! ## Tags, R51 -/

def Tag.toWord (t : Tag) : BitVec 64 :=
  t.ctx ++ t.col ++ t.thr ++ t.itr ++ t.frm ++ 0#16 ++ BitVec.ofBool t.last ++ BitVec.ofBool t.err ++ BitVec.ofBool t.nul
    ++ BitVec.ofBool t.prd ++ BitVec.ofBool t.hdr

def Tag.ofWord (w : BitVec 64) : Tag :=
  { ctx := w.extractLsb' 62 2, col := w.extractLsb' 57 5, thr := w.extractLsb' 49 8, itr := w.extractLsb' 37 12,
    frm := w.extractLsb' 21 16, last := w.getLsbD 4, err := w.getLsbD 3, nul := w.getLsbD 2, prd := w.getLsbD 1, hdr := w.getLsbD 0 }

/-- Two tokens meet: equal CTX, FRM, ITR and THR, R105. -/
def Tag.meets (a b : Tag) : Bool := a.ctx == b.ctx && a.frm == b.frm && a.itr == b.itr && a.thr == b.thr

/-- A header word, R51 and R52. -/
def Tag.isHeader (t : Tag) : Bool := t.hdr && !t.nul && !t.err
def Tag.isNull (t : Tag) : Bool := t.nul && !t.err

/-- The beats of a token, LAST on the final one, R51. -/
def beatsOf (tag : Tag) : List (BitVec 256) → List Beat
  | [] => []
  | [d] => [⟨{ tag with last := true }, d⟩]
  | d :: r => ⟨{ tag with last := false }, d⟩ :: beatsOf tag r

def Token.toBeats (t : Token) : List Beat := beatsOf t.tag (if t.beats = [] then [0] else t.beats)

/-- The bit string of a token, R103. -/
def bitString : List (BitVec 256) → Nat
  | [] => 0
  | d :: r => d.toNat + 2 ^ 256 * bitString r

/-- `n` beats of a bit string, the last zero-padded, R103. -/
def beatList : Nat → Nat → List (BitVec 256)
  | 0, _ => []
  | n + 1, x => BitVec.ofNat 256 x :: beatList n (x / 2 ^ 256)

/-- The beats of `w` lanes of `b` bits, R103. -/
def beatCount (w b : Nat) : Nat := (w * b + 255) / 256

/-- Lane patterns packed into a bit string: lane j from bit b·j up, R103. -/
def packLanes (b : Nat) : List Nat → Nat
  | [] => 0
  | p :: r => p % 2 ^ b + 2 ^ b * packLanes b r

/-- A data token of lane patterns of `b` bits. -/
def laneToken (tag : Tag) (b : Nat) (ps : List Nat) : Token := ⟨tag, beatList (beatCount ps.length b) (packLanes b ps)⟩

/-- Lane `j` of a token of `b`-bit lanes. -/
def Token.lane (t : Token) (b j : Nat) : Nat := bitString t.beats >>> (b * j) % 2 ^ b

/-- The payload of an error token, R143. -/
def errorData (lane orig : Nat) : BitVec 256 := BitVec.ofNat 256 (lane <<< 40 ||| orig <<< 32 ||| 0x7FC00000)
def errorToken (tag : Tag) (lane orig : Nat) : Token :=
  ⟨{ tag with err := true, nul := false, hdr := false, last := true, prd := false }, [errorData lane orig]⟩
def nullToken (tag : Tag) : Token := ⟨{ tag with nul := true, err := false, hdr := false, last := true, prd := false }, [0]⟩
def Token.orig (t : Token) : Nat := bitString t.beats >>> 32 % 256
def Token.errLane (t : Token) : Nat := bitString t.beats >>> 40 % 256

/-! ## Positions -/

/-- The element across port `p` (0 N, 1 E, 2 S, 3 W), R100. DESIGN CHOICE: N leads to row y − 1 and E to column x + 1; no rule gives the ports
directions. -/
def neighbour (g p : Nat) : Option Nat :=
  let x := gidX g
  let y := gidY g
  match p with
  | 0 => if y = 0 then none else some (gidAt x (y - 1))
  | 1 => if x = 255 then none else some (gidAt (x + 1) y)
  | 2 => if y = 159 then none else some (gidAt x (y + 1))
  | _ => if x = 0 then none else some (gidAt (x - 1) y)

/-- The context is in force on the element, R105 and R181. -/
def Tile.forces (T : Tile) (e c : Nat) : Bool := T.inForce.contains (4 * elemSheet e + c)

namespace State

def inForce (s : State) (g c : Nat) : Bool := (s.tile (gidTile g)).forces (gidElem g) c

/-! ## Lanes of beats: edges, tile bus, node and memory ports -/

def edgeKey (c col port : Nat) : Nat := 128 * c + 4 * col + port
/-- The edge of a colour and context at an output port, R108. DESIGN CHOICE: a port that only a slot's dst names, with no switch word from
the element there, has a buffer of depth 4 outside the tile's pool; R108 gives depths to the edges that switch words make. -/
def edge (s : State) (g c col port : Nat) : Lane := SMap.getD (s.elem g).edges (edgeKey c col port) {}
def modEdge (s : State) (g c col port : Nat) (f : Lane → Lane) : State :=
  s.modElem g fun e => { e with edges := SMap.set e.edges (edgeKey c col port) (f (SMap.getD e.edges (edgeKey c col port) {})) }

/-- The lane that feeds source `src` of an element (R49): the edge of the element across the port, the tile bus, or the
element's node and memory ports. -/
def source (s : State) (g src c col : Nat) : Lane :=
  match src with
  | 5 => SMap.getD (s.tile (gidTile g)).down (colourKey c col) {}
  | 6 | 7 => SMap.getD (s.elem g).ports (128 * src + colourKey c col) {}
  | _ =>
    match neighbour g src with
    | some h => s.edge h c col ((src + 2) % 4)
    | none => {}

def modSource (s : State) (g src c col : Nat) (f : Lane → Lane) : State :=
  match src with
  | 5 => s.modTile (gidTile g) fun T => { T with down := SMap.set T.down (colourKey c col) (f (SMap.getD T.down (colourKey c col) {})) }
  | 6 | 7 => s.modElem g fun e =>
      { e with ports := SMap.set e.ports (128 * src + colourKey c col) (f (SMap.getD e.ports (128 * src + colourKey c col) {})) }
  | _ =>
    match neighbour g src with
    | some h => s.modEdge h c col ((src + 2) % 4) f
    | none => s

/-- A token enters the switch of an element at source `src` (6 node, 7 memory port), R49. -/
def inject (s : State) (g src : Nat) (t : Token) : State :=
  s.modSource g src t.tag.ctx.toNat t.tag.col.toNat fun l => { l with beats := l.beats ++ t.toBeats }

end State

/-! ## Switch words, R49 -/

def swCol (w : BitVec 16) : Nat := (w.extractLsb' 11 5).toNat
def swFrom (w : BitVec 16) : Nat := (w.extractLsb' 8 3).toNat
def swTo (w : BitVec 16) : BitVec 4 := w.extractLsb' 4 4
def swCtx (w : BitVec 16) : Nat := (w.extractLsb' 1 2).toNat
def swEn (w : BitVec 16) : Bool := w.getLsbD 0

/-- The ports of a port mask (bit 3 N, bit 2 E, bit 1 S, bit 0 W), R44 and R49. -/
def maskPorts (m : BitVec 4) : List Nat := (List.range 4).filter fun p => m.getLsbD (3 - p)

/-- The enabled entries of a switch for one context, colour and source, with their numbers. -/
def Elem.routes (e : Elem) (c col src : Nat) : List (Nat × BitVec 16) :=
  e.switch.filter fun x => swEn x.2 && swCtx x.2 == c && swCol x.2 == col && swFrom x.2 == src

/-- The ports on which results of `col` leave: those of dst and of the entries from source 4, R173. -/
def Elem.resultPorts (e : Elem) (c col : Nat) (dst : BitVec 4) : List Nat :=
  let m := (e.routes c col 4).foldl (fun m x => m ||| swTo x.2) dst
  maskPorts m

/-! ## Legends and headers, R52, R102, R103, R153 -/

def ElemCtx.entry (x : ElemCtx) (col : Nat) : Legend := if h : col < 32 then x.legend[col] else {}
def ElemCtx.setEntry (x : ElemCtx) (col : Nat) (l : Legend) : ElemCtx := if h : col < 32 then { x with legend := x.legend.set col l } else x
def ElemCtx.slot (x : ElemCtx) (n : Nat) : Slot := if h : n < 16 then x.slots[n] else {}
def ElemCtx.setSlot (x : ElemCtx) (n : Nat) (v : Slot) : ElemCtx := if h : n < 16 then { x with slots := x.slots.set n v } else x
def ElemCtx.const (x : ElemCtx) (n : Nat) : BitVec 64 := if h : n < 4 then x.consts[n] else 0

/-- The width the element gives a colour: the grant, or 1; a joined colour carries its partner's lanes above its own, R103
and R166. -/
def Legend.width (l : Legend) : Nat := if l.g then l.gw.toNat + 1 else 1
def ElemCtx.width (x : ElemCtx) (col : Nat) : Nat :=
  let l := x.entry col
  if l.pk && !x.high.contains col then l.width + (x.entry l.pcol.toNat).width else l.width

/-- The format of a colour's operands: the latched header's, else the legend's, R52. -/
def ElemCtx.inFmt (x : ElemCtx) (col : Nat) : Nat :=
  match SMap.get? x.headers col with
  | some h => h.fmt.toNat
  | none => (x.entry col).fmt.toNat

/-- The block length latched for a colour, else the granted width, R52. -/
def ElemCtx.blen (x : ElemCtx) (col : Nat) : Nat :=
  match SMap.get? x.headers col with
  | some h => h.blen
  | none => x.width col

/-- The scale latched for a colour, else the legend's, as the legend's scale format reads it, R52 and R145. -/
def ElemCtx.scaleBits (x : ElemCtx) (col : Nat) : BitVec 16 :=
  match SMap.get? x.headers col with
  | some h => h.scale
  | none => (x.entry col).scl

/-- The header fields of a header word's data, R52. -/
def headerOf (d : BitVec 256) (sfmt : BitVec 2) : Header :=
  let n := (d.extractLsb' 8 8).toNat
  { fmt := d.extractLsb' 17 4, lot := d.getLsbD 16, blen := if n = 0 then 256 else n,
    scale := if sfmt = 2 then d.extractLsb' 32 16 else (d.extractLsb' 0 8).setWidth 16 }

/-- A request for width `q` for a colour, R103: the other grants of the context bound it, and 1 is always granted. -/
def ElemCtx.grant (x : ElemCtx) (col q : Nat) : ElemCtx :=
  let used := (List.range 32).foldl (fun n c =>
    let l := x.entry c
    if c ≠ col ∧ l.g then n + l.gw.toNat + 1 else n) 0
  let w := Max.max 1 (Min.min q (Min.min 32 (128 - used)))
  x.setEntry col { x.entry col with g := true, gw := BitVec.ofNat 5 (w - 1) }

end Sys2Proof.Machine
end

