-- ==== Sys2Proof/Machine/Ring.lean ====
section
/-! DEFINITION. Launches as their tiles see them, faults of elements (R252), the overflow ring of a context and the throttle
of its loops (R110–R113). -/

namespace Sys2Proof.Machine

/-- Bit fields of the CTL byte of a launch record, R209. -/
def LaunchRec.prio (r : LaunchRec) : BitVec 3 := r.ctl.extractLsb' 0 3
def LaunchRec.ctx (r : LaunchRec) : Nat := (r.ctl.extractLsb' 3 2).toNat
def LaunchRec.det (r : LaunchRec) : Bool := r.ctl.getLsbD 5
def LaunchRec.mok (r : LaunchRec) : Bool := r.ctl.getLsbD 6

namespace State

def modLaunch (s : State) (n : Nat) (f : Launch → Launch) : State :=
  match s.launch n with
  | some l => { s with launches := SMap.set s.launches n (f l) }
  | none => s
/-- Firing is ordered by frames: DET = 1 latched for the launch, R117 and R124. -/
def detAt (s : State) (t c : Nat) : Bool := match s.launchAt t c with | some l => l.det | none => false

/-- The tile of a launch with its index there, (TY − OY) · W + (TX − OX), R112. -/
def tileIndex (l : Launch) (t : Nat) : Nat := (tileY t - l.oy) * l.info.w + (tileX t - l.ox)
/-- The tiles of a launch's rectangle, by rising index. -/
def rectangle (ox oy w h : Nat) : List Nat :=
  ((List.range h).map fun j => (List.range w).map fun i => tileAt (ox + i) (oy + j)).flatten

/-! ## Faults of elements, R252 -/

/-- The element records a fault of context `c` and stops firing it; while its register is in use the fault waits. -/
def elemFault (s : State) (g c slot cause : Nat) (val : BitVec 64) (req : Option Nat) (bkpt : Bool)
    (null : Option (OpWord × Token) := none) : State :=
  let f : ElemFault := ⟨c, slot, cause, val, req, bkpt, s.serial, null⟩
  (((s.noteError (gidTile g) cause).tick.modElem g fun e => match e.fault with
    | none => { e with fault := some f }
    | some _ => { e with faults := e.faults ++ [f] }).modEctx g c fun x => { x with stopped := true }).pauseFrozen c

end State

/-! ## The throttle, R113 -/

def Slot.op (r : Slot) : Nat := (r.opw.extractLsb' 25 7).toNat

/-- The loop sources of a context: its slots that hold LOOPB. -/
def ElemCtx.sources (x : ElemCtx) : List Nat := (List.range 16).filter fun n => (x.slot n).op == 60

/-- The configured depth D of the loop of slot `n`, R168. -/
def ElemCtx.depth (x : ElemCtx) (n : Nat) : Nat :=
  let d := (x.const (n % 4)).toNat % 4096
  if d = 0 then 4096 else d

/-- The effective depth E of the loop of slot `n`, which starts equal to D. -/
def ElemCtx.eff (x : ElemCtx) (n : Nat) : Nat :=
  match SMap.get? x.throttles n with
  | some t => Min.min t.eff (x.depth n)
  | none => x.depth n

/-- One source halves E at a spill, unless it has within 256 cycles; the spilled record ends its calm. -/
def ElemCtx.halve (x : ElemCtx) (cyc : BitVec 64) (n : Nat) : ElemCtx :=
  let due := match SMap.get? x.throttles n with | none => true | some t => decide (256 ≤ (cyc - t.halved).toNat)
  { x with throttles := match due, SMap.get? x.throttles n with
      | false, some t => SMap.set x.throttles n { t with calm := cyc }
      | _, _ => SMap.set x.throttles n ⟨Max.max 1 (x.eff n / 2), cyc, cyc⟩ }

/-- 1,024 calm cycles double E, up to D, R113 step 2. -/
def ElemCtx.recover (x : ElemCtx) (cyc : BitVec 64) (n : Nat) : ElemCtx :=
  match SMap.get? x.throttles n with
  | none => x
  | some t =>
    if (cyc - t.calm).toNat < 1024 then x
    else if x.depth n ≤ 2 * x.eff n then { x with throttles := SMap.erase x.throttles n }
    else { x with throttles := SMap.set x.throttles n { t with eff := 2 * x.eff n, calm := cyc } }

namespace State

/-- The keys of the element contexts of launch `n` in context `c` that hold loop sources. -/
def sourceKeys (s : State) (n c : Nat) : List Nat :=
  (s.ectxs.filter fun k => k.1 % 4 == c && k.2.sources != [] && s.lidOf (gidTile (k.1 / 4)) c == some n).map (·.1)

/-- A change of the throttles of every context of a launch that holds loop sources; `f` takes the cycle of its tile. -/
def modSources (s : State) (n c : Nat) (f : BitVec 64 → ElemCtx → ElemCtx) : State :=
  (s.sourceKeys n c).foldl (fun s k => s.modEctx (k / 4) c (f (s.tile (gidTile (k / 4))).cycle)) s

/-- A spill: every source halves its effective depth, at most once in 256 of its tile's cycles, R113 step 1. -/
def throttleSpill (s : State) (n c : Nat) : State :=
  s.modSources n c fun cyc x => x.sources.foldl (fun x n => x.halve cyc n) x

/-- Every source of the context has E = 1, R113 step 4. -/
def sourcesLowest (s : State) (n c : Nat) : Bool :=
  (s.sourceKeys n c).all fun k => let x := s.ectx (k / 4) c; x.sources.all fun n => x.eff n ≤ 1

/-! ## The ring, R112 -/

def ringSize (l : Launch) : Nat := 2 ^ l.info.ring
def ringVa (l : Launch) (seq : Nat) : Nat := l.info.rbase + 64 * (seq % ringSize l)

/-- The physical address of a ring position, or none where its page does not serve the ring, R113 step 5. -/
def ringPlace (s : State) (g c : Nat) (l : Launch) (seq : Nat) : Option Leaf × State :=
  match s.translate (tileDie (gidTile g)) c (ringVa l seq) with
  | (none, s) => (none, s)
  | (some p, s) =>
    if pteRd p.entry && pteW p.entry && !pteNh p.entry && pteLoc p.entry == 0 then
      (if physExists .hbm (p.place (ringVa l seq)).2 64 then (some p, s)
       else (none, { s with absent := some (p.place (ringVa l seq)).2 }))
    else (none, s)

/-- The first of some ring positions that fails its test: its address, R113 step 5. -/
def ringBad (s : State) (g c : Nat) (l : Launch) : List Nat → Option Nat × State
  | [] => (none, s)
  | q :: r =>
    match s.ringPlace g c l q with
    | (none, s) => (some (ringVa l q), s)
    | (some _, s) => s.ringBad g c l r

/-- The `k` positions that a spill of `k` beats needs are free, R112 and R113 step 3. -/
def ringRoom (l : Launch) (k : Nat) : Bool :=
  k ≤ ringSize l && (List.range k).all fun j => !l.held.contains ((l.seq + j) % ringSize l)

/-- One record, R112. -/
def ringRecord (t elem slot which seq : Nat) (b : Beat) : Nat :=
  which <<< 372 ||| slot <<< 368 ||| elem <<< 362 ||| t <<< 352 ||| (seq % 2 ^ 32) <<< 320
    ||| b.tag.toWord.toNat <<< 256 ||| b.data.toNat

/-- A beat is written to the next ring position; its SEQ. -/
def spillBeat (s : State) (g c n : Nat) (l : Launch) (slot which : Nat) (b : Beat) : Nat × State :=
  match s.ringPlace g c l l.seq with
  | (none, s) => (l.seq, s)
  | (some p, s) =>
    let pa := (p.place (ringVa l l.seq)).2
    let s := (s.markDirty (tileDie (gidTile g)) p).callBack none .hbm pa 64
    let s := s.perform .hbm pa 64 (ringRecord (tileIndex l (gidTile g)) (gidElem g) slot which l.seq b)
    let s := s.modLaunch n fun x => { x with seq := x.seq + 1, held := NSet.insert x.held (l.seq % ringSize l) }
    (l.seq, s.throttleSpill n c)

/-- Records are taken back or consumed: their positions are free; a context that holds none any more is calm from now on. -/
def freeRecords (s : State) (t c : Nat) (seqs : List Nat) : State :=
  match seqs, s.lidOf t c with
  | [], _ | _, none => s
  | _, some n =>
    let s := s.modLaunch n fun x => { x with held := seqs.foldl (fun h q => NSet.erase h (q % ringSize x)) x.held }
    if (match s.launch n with | some x => x.held == [] | none => false) then
      s.modSources n c fun cyc x => { x with throttles := x.throttles.map fun t => (t.1, { t.2 with calm := cyc }) } else s

/-- The oldest spilled operand of a context of an element, R111. -/
def oldestSpilled (x : ElemCtx) : Option Operand :=
  x.operands.foldl (fun best o =>
    match o.spilled, best with
    | [], _ => best
    | q :: _, some { spilled := r :: _, .. } => if q < r then some o else best
    | _ :: _, _ => some o) none

/-- Matching entries in use: waiting operands, and one for each open group of a reduction (R110, R161). -/
def entriesUsed (x : ElemCtx) : Nat := x.operands.foldl (fun n o => n + o.entries) 0 + x.groups.length

/-- SPILLED_RECORD_TAKE_BACK: the oldest spilled record returns to the allotment when it has room, R111 and R113 step 5. -/
def takeBack (s : State) (g c : Nat) : State :=
  let x := s.ectx g c
  match oldestSpilled x, s.launchAt (gidTile g) c with
  | some o, some l =>
    if !s.inForce g c || x.allot < entriesUsed x + 1 then s
    else
      match s.ringBad g c l (o.spilled.take 1) with
      | (some va, s) => if x.stopped then s else s.elemFault g c o.slot 0x11 (word va) none false
      | (none, s) =>
        (s.freeRecords (gidTile g) c (o.spilled.take 1)).modEctx g c fun x =>
          { x with operands := x.operands.map fun p =>
              if p.seq = o.seq then { p with spilled := o.spilled.drop 1, entries := o.entries + 1 } else p }
  | _, _ => s

/-- THROTTLE_RECOVERY: 1,024 calm cycles double a source's effective depth, R113 step 2. -/
def throttleRecover (s : State) (g c slot : Nat) : State :=
  let cyc := (s.tile (gidTile g)).cycle
  let calm := match s.launchAt (gidTile g) c with | some l => l.held == [] | none => false
  if calm then
    s.modEctx g c fun x => x.recover cyc slot
  else s

end State

end Sys2Proof.Machine
end

