-- ==== Sys2Proof/Machine/Operands.lean ====
section
/-! DEFINITION. The operands of an operation word: its sources (R46), the sets of tokens that make a slot ready (R105, R124),
the lanes that a firing reads (R152, R153) and the tag and lanes of its result. -/

namespace Sys2Proof.Machine

/-! ## Sources, R46, R105, R154 -/

/-- An operand slot of a word: 0 A, 1 B, 2 C; a port, or a latch. -/
abbrev Role := Nat × Option Nat

/-- The operand slot that source code `c` makes of operand `r`; constants, LIX and ZERO make none. -/
def roleOf (r : Nat) (c : BitVec 4) : List Role :=
  if c.toNat < 4 ∨ c = 12 ∨ c = 13 then [(r, none)] else if c.toNat < 8 then [(r, some (c.toNat - 4))] else []

/-- MAC and FMA read C from L(slot mod 4), R154. -/
def hasC (op : Nat) : Bool := op == 3 || op == 19

def wordRoles (w : OpWord) (op n : Nat) : List Role :=
  roleOf 0 w.sa ++ roleOf 1 w.sb ++ (if hasC op then [(2, some (n % 4))] else [])

/-- A token in an operand slot: a waiting operand, or a latch. -/
inductive Pick where
  | held (o : Operand)
  | latch (i : Nat) (l : Latch)
  deriving DecidableEq, Repr

def Pick.token : Pick → Token
  | .held o => o.token
  | .latch _ l => l.token
def Pick.seq : Pick → Nat
  | .held o => o.seq
  | .latch _ l => l.seq

/-- The tokens that stand in an operand slot of slot `n`, in order of arrival. -/
def ElemCtx.avail (x : ElemCtx) (n : Nat) (r : Role) : List Pick :=
  match r.2 with
  | none => (x.operands.filter fun o => o.slot == n && o.which == r.1 && o.whole).map .held
  | some i =>
    match SMap.get? x.latches i with
    | some l => if l.used.contains n then [] else [.latch i l]
    | none => []

/-- The first token of each further operand slot that meets a tag, R105. -/
def ElemCtx.partners (x : ElemCtx) (n : Nat) (t : Tag) : List Role → Option (List (Nat × Pick))
  | [] => some []
  | r :: rs =>
    match (x.avail n r).find? fun p => p.token.tag.meets t with
    | none => none
    | some p => (x.partners n t rs).map ((r.1, p) :: ·)

/-- The sets of tokens on which slot `n` may fire. MERGE takes either source, A first; MERGEO the one whose turn it is,
R160. -/
def ElemCtx.sets (x : ElemCtx) (n op : Nat) (roles : List Role) : List (List (Nat × Pick)) :=
  if op = 43 then (roles.map fun r => (x.avail n r).map fun p => [(0, p)]).flatten
  else if op = 44 then
    ((roles.filter fun r => r.1 == (if x.turnB.contains n then 1 else 0)).map fun r => (x.avail n r).map fun p => [(0, p)]).flatten
  else
    match roles with
    | [] => []
    | r :: rs => (x.avail n r).filterMap fun p => (x.partners n p.token.tag rs).map ((r.1, p) :: ·)

/-! ## Operands and lanes -/

/-- A token as a firing reads it: format, width, block length and scale, R52 and R153. -/
structure Arg where
  token : Token
  fmt   : Nat
  width : Nat
  blen  : Nat
  scale : BitVec 16
  deriving DecidableEq, Repr

/-- A token read under a header, or under the legend. -/
def ElemCtx.arg (x : ElemCtx) (t : Token) (h : Option Header) : Arg :=
  let col := t.tag.col.toNat
  match h with
  | some h => ⟨t, h.fmt.toNat, x.width col, h.blen, h.scale⟩
  | none => ⟨t, (x.entry col).fmt.toNat, x.width col, x.width col, (x.entry col).scl⟩

def ElemCtx.pickArg (x : ElemCtx) (p : Pick) : Arg :=
  match p with
  | .held o => x.arg o.token o.hdr
  | .latch _ l => x.arg l.token l.hdr

/-- A firing: where it happens, the operands that are tokens, and what it takes them from. -/
structure Firing where
  g     : Nat
  c     : Nat
  n     : Nat
  w     : OpWord
  a     : Option Arg
  b     : Option Arg
  c3    : Option Arg
  picks : List Pick
  deriving DecidableEq, Repr

/-- The firing of a set of tokens. -/
def ElemCtx.firing (x : ElemCtx) (g c n : Nat) (w : OpWord) (ps : List (Nat × Pick)) : Firing :=
  let arg (r : Nat) : Option Arg := (ps.find? fun p => p.1 == r).map fun p => x.pickArg p.2
  ⟨g, c, n, w, arg 0, arg 1, arg 2, ps.map (·.2)⟩

/-- The tag source, R46: A, else B, else C. -/
def Firing.src (F : Firing) : Tag :=
  match F.a, F.b, F.c3 with
  | some a, _, _ => a.token.tag
  | none, some b, _ => b.token.tag
  | none, none, some c => c.token.tag
  | none, none, none => {}

/-- Operand A's PRD; a source that is no token has PRD 0 (DESIGN CHOICE: R45, R105 and R160 speak of tokens). -/
def Firing.prdA (F : Firing) : Bool := match F.a with | some a => a.token.tag.prd | none => false

/-- The tag of a result that is formed from `base`: `tg` acts on its ITR, R46. -/
def Firing.tagFrom (F : Firing) (base : Tag) : Tag :=
  let itr := match F.w.tg.toNat with
    | 1 => base.itr + 1
    | 2 => 0
    | 3 => (match F.b with | some b => b.token.tag.itr | none => base.itr)
    | _ => base.itr
  { ctx := base.ctx, col := F.w.col, thr := base.thr, itr := itr, frm := base.frm }
def Firing.tag (F : Firing) : Tag := F.tagFrom F.src

/-- The pattern of +0, R152 and R134. -/
def zeroPat (f : Nat) : Nat := if f = 7 then 0x77 else 0

/-- Lanes read by an operation: their format and patterns. -/
structure Lanes where
  fmt  : Nat
  pats : List Nat
  deriving DecidableEq, Repr

/-- Lane `j`: a width-1 operand is broadcast, a lane beyond the width reads as +0, R153(3). -/
def Lanes.at (l : Lanes) (j : Nat) : Nat :=
  match l.pats with
  | [p] => p
  | ps => ps.getD j (zeroPat l.fmt)
/-- Lane `j` without broadcast; none beyond the width. -/
def Lanes.own (l : Lanes) (j : Nat) : Option Nat := l.pats[j]?
def Lanes.val (l : Lanes) (j : Nat) : Val := decodeVal l.fmt (l.at j)
def Lanes.int (l : Lanes) (j : Nat) : Int := decodeInt l.fmt (l.at j)
/-- Lane 0 read as an unsigned integer, R163: its value modulo 2^64, as R247 reads an address (DEDUCED). -/
def Lanes.first (l : Lanes) : Nat := wrapBits 64 (l.int 0)

def Arg.lanes (a : Arg) : Lanes := ⟨a.fmt, (List.range a.width).map (a.token.lane (fmtBits a.fmt))⟩

/-- The pattern of an integer in a format: converted exactly, or rounded to nearest, R152. -/
def intPat (f i : Nat) : Nat :=
  if fmtIsInt f then i % 2 ^ fmtBits f
  else match encodeVal f .rne (Val.ofInt i) with | .ok p => p | .error _ => 0

/-- The single lane of a source that carries no token, in format `f`, R152. -/
def ElemCtx.constLane (x : ElemCtx) (code : BitVec 4) (f itr : Nat) : Nat :=
  if code = 14 then intPat f itr
  else if code = 15 then zeroPat f
  else (x.const (code.toNat - 8)).toNat % 2 ^ fmtBits f

/-- The format of the results of a colour: the legend's, R153(2). -/
def ElemCtx.outFmt (x : ElemCtx) (col : BitVec 5) : Nat := (x.entry col.toNat).fmt.toNat

/-- The lanes of operand A (`first`) or B; a source without a token is read in the format of the other operand, else in
the result format, R152. -/
def Firing.lanes (F : Firing) (x : ElemCtx) (first : Bool) : Lanes :=
  match (if first then F.a else F.b) with
  | some a => a.lanes
  | none =>
    let f := match (if first then F.b else F.a) with | some o => o.fmt | none => x.outFmt F.w.col
    ⟨f, [x.constLane (if first then F.w.sa else F.w.sb) f F.src.itr.toNat]⟩
def Firing.la (F : Firing) (x : ElemCtx) : Lanes := F.lanes x true
def Firing.lb (F : Firing) (x : ElemCtx) : Lanes := F.lanes x false
/-- Operand C's lanes; without C, +0. -/
def Firing.lc (F : Firing) : Lanes := match F.c3 with | some a => a.lanes | none => ⟨0, [0]⟩
/-- B_0 as an unsigned integer. -/
def Firing.b0 (F : Firing) (x : ElemCtx) : Nat := (F.lb x).first

/-! ## Results, R103, R142, R143, R153 -/

/-- A result of lane patterns in the result format, or the error token of the lowest lane that has no pattern. -/
def Firing.pack (F : Firing) (x : ElemCtx) (tag : Tag) (ps : List (Except Nat Nat)) : Token :=
  match ps.zipIdx.findSome? fun p => (match p.1 with | .error o => some (p.2, o) | .ok _ => none) with
  | some (lane, orig) => errorToken tag lane orig
  | none => laneToken tag (fmtBits (x.outFmt F.w.col)) (ps.map fun p => match p with | .ok v => v | .error _ => 0)

/-- The lanes 0 to Wr − 1 of a result, by a function of the lane. -/
def Firing.each (F : Firing) (x : ElemCtx) (f : Nat → Except Nat Nat) : Token :=
  F.pack x F.tag ((List.range (x.width F.w.col.toNat)).map f)

/-- Values written into the result format; lanes that are not listed are +0. -/
def Firing.values (F : Firing) (x : ElemCtx) (tag : Tag) (mode : Rnd) (vs : List Val) : Token :=
  F.pack x tag ((List.range (x.width F.w.col.toNat)).map fun j => encodeVal (x.outFmt F.w.col) mode (vs.getD j Val.zero))
def Firing.naturals (F : Firing) (x : ElemCtx) (ns : List Nat) : Token :=
  F.values x F.tag .rne (ns.map fun n : Nat => Val.ofInt n)

/-- Integers wrapped to the result width and stored as patterns, R153(4). -/
def Firing.integers (F : Firing) (x : ElemCtx) (f : Nat → Int) : Token :=
  F.each x fun j => .ok (wrapBits (fmtBits (x.outFmt F.w.col)) (f j))

/-- One lane converted: equal formats copy the pattern, a missing lane is +0, R158. -/
def convLane (fa fr : Nat) (mode : Rnd) (p : Option Nat) : Except Nat Nat :=
  match p with
  | none => encodeVal fr mode Val.zero
  | some p => if fa = fr then .ok p else encodeVal fr mode (decodeVal fa p)

/-- Lane `j` of an operand for a conversion: broadcast, and missing beyond the width. -/
def Lanes.conv (l : Lanes) (j : Nat) : Option Nat :=
  match l.pats with
  | [p] => some p
  | ps => ps[j]?

/-- A's data unchanged under a tag, with A's PRD: its beats as they stand, also where the result colour has another width or format (DEDUCED from
"unchanged" in R160, R165 and R170); the lanes of a constant in the result format, R152 and R170. -/
def Firing.same (F : Firing) (x : ElemCtx) (tag : Tag) : Token :=
  match F.a with
  | some a => ⟨{ tag with prd := a.token.tag.prd }, a.token.beats⟩
  | none =>
    let l := F.la x
    F.pack x tag ((List.range (x.width F.w.col.toNat)).map fun j => convLane l.fmt (x.outFmt F.w.col) .rne (l.conv j))

/-- B's lanes in the result format. -/
def Firing.lanesOfB (F : Firing) (x : ElemCtx) (tag : Tag) : Token :=
  let l := F.lb x
  F.pack x tag ((List.range (x.width F.w.col.toNat)).map fun j => convLane l.fmt (x.outFmt F.w.col) .rne (l.conv j))

/-- T of a REORD firing, R165. A B without data leaves every THR free to pass, and a T outside 1 to 256 stands as it is (DESIGN CHOICE: R165
states neither). -/
def Firing.threads (F : Firing) (x : ElemCtx) : Nat :=
  match F.b with
  | some b => if b.token.tag.err || b.token.tag.nul then 0 else F.b0 x
  | none => F.b0 x

/-- The lowest THR that REORD has not passed of the tokens of A's (FRM, ITR), R165. -/
def ElemCtx.turnOf (x : ElemCtx) (n : Nat) (t : Tag) : Nat :=
  match x.reorders.find? fun r => r.slot == n && r.frm == t.frm && r.itr == t.itr with
  | some r => r.next
  | none => 0

/-- The error token that A's, else B's, else C's error makes, R105 and R143. -/
def Firing.erring (F : Firing) : Option Token :=
  [F.a, F.b, F.c3].findSome? fun a =>
    match a with
    | some a => if a.token.tag.err then some a.token else none
    | none => none
def forwardError (tag : Tag) (t : Token) : Token :=
  ⟨{ tag with err := true, nul := false, hdr := false, last := true, prd := false }, [BitVec.ofNat 256 (bitString t.beats % 2 ^ 48)]⟩
/-- Some operand is a null token. -/
def Firing.anyNull (F : Firing) : Bool :=
  [F.a, F.b, F.c3].any fun a => match a with | some a => a.token.tag.nul && !a.token.tag.err | none => false

/-! ## Which sets a slot offers the arbiter, R124 -/

/-- The order of the arbiter within one priority. -/
def orderKey (det : Bool) (x : ElemCtx) (ps : List (Nat × Pick)) : Nat :=
  if det then
    match ps with
    | [] => 0
    | p :: _ =>
      let t := p.2.token.tag
      SMap.getD x.rootSeqs t.frm.toNat 0 * 2 ^ 36 + t.frm.toNat * 2 ^ 20 + t.itr.toNat * 2 ^ 8 + t.thr.toNat
  else ps.foldl (fun m p => Max.max m p.2.seq) 0

/-- Insertion into a list that rises by its first component; equal keys keep their order. -/
def insertKey {α : Type} (k : Nat) (v : α) : List (Nat × α) → List (Nat × α)
  | [] => [(k, v)]
  | (j, u) :: r => if k < j then (k, v) :: (j, u) :: r else (j, u) :: insertKey k v r

/-- Ops whose requests an element holds at most 32 of, R251. -/
def isRequestOp (op : Nat) : Bool := (79 ≤ op && op ≤ 88) || (91 ≤ op && op ≤ 94)

/-- The memory requests in progress of an element, R251; a fence, a skip request and a reply that stands alone are none. -/
def Elem.inProgress (e : Elem) : Nat := (e.reqs.filter fun q => isRequestOp q.op && !q.skip).length

/-- The firings that a slot could make now, in the arbiter's order, each with its key. -/
def State.candidates (s : State) (g c n : Nat) (w : OpWord) (op : Nat) : List (Nat × Firing) :=
  let x := s.ectx g c
  if !s.inForce g c || x.stopped || x.bad || (op == 60 && x.loops.any fun l => l.slot == n && l.running) then []
  else
    let det := s.detAt (gidTile g) c
    let fs := (x.sets n op (wordRoles w op n)).map fun ps => (orderKey det x ps, x.firing g c n w ps)
    if op = 43 ∨ op = 44 then fs else fs.foldl (fun l f => insertKey f.1 f.2 l) []

/-! ## Consuming the operands, R105, R111, R151 -/

/-- The slots of a context that name latch `i`. -/
def ElemCtx.namers (x : ElemCtx) (i : Nat) : List Nat :=
  (List.range 16).filter fun n =>
    let r := x.slot n
    let op := (r.opw.extractLsb' 25 7).toNat
    (r.opw.extractLsb' 18 4).toNat == 4 + i || (r.opw.extractLsb' 14 4).toNat == 4 + i || (hasC op && n % 4 == i)

/-- Slot `n` has consumed the token of latch `i`, which empties when every slot that names it has, R151. -/
def ElemCtx.unlatch (x : ElemCtx) (n i : Nat) : ElemCtx :=
  match SMap.get? x.latches i with
  | none => x
  | some l =>
    let used := NSet.insert l.used n
    if (x.namers i).all used.contains then { x with latches := SMap.erase x.latches i }
    else { x with latches := SMap.set x.latches i { l with used := used } }

/-- One operand of slot `n` is consumed. -/
def ElemCtx.eat (x : ElemCtx) (n : Nat) (p : Pick) : ElemCtx :=
  match p with
  | .held o => { x with operands := x.operands.filter fun q => q.seq != o.seq }
  | .latch i _ => x.unlatch n i

/-- The SEQs of the spilled records that a firing reads. -/
def Firing.records (F : Firing) : List Nat :=
  (F.picks.map fun p => match p with | .held o => o.spilled | .latch _ _ => []).flatten

def State.consume (s : State) (F : Firing) : State :=
  (s.modEctx F.g F.c fun x => F.picks.foldl (·.eat F.n ·) x).freeRecords (gidTile F.g) F.c F.records

end Sys2Proof.Machine
end

