-- ==== Sys2Proof/Machine/Firing.lean ====
section
/-! DEFINITION. Firing: the firing rule of R105 and R106 for every operation word, the delivery of results (R44, R173), blocks
(R118, R119), and the travel of beats into slots, through switches and along the tile bus (R109–R111, R151, R172, R175). -/

namespace Sys2Proof.Machine

/-- A lane without its first beat, which every acceptor has taken. -/
def Lane.pop (l : Lane) : Lane :=
  { l with beats := l.beats.drop 1, taken := [], inside := match l.beats with | b :: _ => !b.tag.last | [] => l.inside }
/-- A lane whose tokens are discarded. -/
def Lane.emptied (l : Lane) : Lane := { l with beats := [], taken := [], inside := false }

/-! ## Results -/

namespace State

/-- A token enters every output port of a mask that is not 0, or the latch of the slot, where it is read under the last header of its
colour (R44, R52, R173). The beats of a lane beyond its depth have not entered the buffer: they follow one by one as it drains, R106. -/
def deliver (s : State) (g c n : Nat) (dst mask : BitVec 4) (t : Token) : State :=
  if dst = 0 then
    (s.modEctx g c fun x =>
      { x with latches := SMap.set x.latches (n % 4) { token := t, seq := (s.elem g).seq, hdr := SMap.get? x.headers t.tag.col.toNat } }).modElem g
      fun e => { e with seq := e.seq + 1 }
  else
    let col := t.tag.col.toNat
    ((s.elem g).resultPorts c col mask).foldl (fun s p => s.modEdge g c col p fun l => { l with beats := l.beats ++ t.toBeats }) s

/-- A lane takes `k` beats more: it is empty, or its depth holds them, R106. -/
def laneRoom (l : Lane) (k : Nat) : Bool := l.beats == [] || l.beats.length + k ≤ l.depth

/-- A result stands before output port `p` whose last beat has not entered its buffer: the port carries no other token, R106. -/
def portHeld (e : Elem) (p : Nat) : Bool := e.edges.any fun l => l.1 % 4 == p && decide (l.2.depth < l.2.beats.length)

/-- The destinations of a result can accept it, R106 and R172. -/
def room (s : State) (g c n : Nat) (dst mask : BitVec 4) (t : Token) : Bool :=
  if dst = 0 then (SMap.get? (s.ectx g c).latches (n % 4)).isNone
  else
    let col := t.tag.col.toNat
    ((s.elem g).resultPorts c col mask).all fun p =>
      (SMap.get? (s.elem g).busy p).isNone && !portHeld (s.elem g) p && laneRoom (s.edge g c col p) t.toBeats.length

end State

/-! ## Blocks, R118 and R119 -/

def Instance.carries (i : Instance) (c : Nat) (t : Tag) : Bool :=
  i.block.ctx == c && i.frm == t.frm && i.thr == t.thr && i.itr == t.itr

namespace State

/-- The instance inside which slot `n` of element `g` acts for a token with this tag. DESIGN CHOICE: an operation belongs to the instance
of its block whose entry token had the FRM, THR and ITR of its own operands, so a node whose operands' tags the block has changed acts
outside the instance; R118 and R119 say only that the operations are marked as the block's. -/
def instanceOf (s : State) (g c n : Nat) (t : Tag) : Option Instance :=
  s.insts.find? fun i => i.carries c t && i.block.nodes.contains (g, n)

/-- The block that a slot enters. -/
def blockEntered (s : State) (g c n : Nat) : Option Block := s.blocks.find? fun b => b.ctx == c && b.entry == (g, n)

/-- Entries of a tile's commit buffer that its instances reserve. -/
def reserved (s : State) (t : Nat) : Nat := s.insts.foldl (fun k i => if i.tile = t then k + i.block.stores.length else k) 0

/-- A context save has stopped the launch of a context: no iteration or block starts, R373. -/
def stoppedForSave (s : State) (t c : Nat) : Bool := match s.launchAt t c with | some l => l.saving | none => false

/-- No iteration or block of a context starts: a save or a move has stopped its launch, R123 and R373. -/
def sourcesHeld (s : State) (t c : Nat) : Bool := match s.launchAt t c with | some l => l.saving || l.moving | none => false

/-- An instance is admitted when its reservation can be made; none where it must wait, R118. -/
def reserve (s : State) (F : Firing) : Option State :=
  match s.blockEntered F.g F.c F.n with
  | none => some s
  | some b =>
    let t := gidTile F.g
    if decide (512 < s.reserved t + b.stores.length) || s.sourcesHeld t F.c then none
    else some { s with insts := s.insts ++ [{ id := s.serial, block := b, tile := t, frm := F.src.frm, thr := F.src.thr, itr := F.src.itr }], serial := s.serial + 1 }

/-- The exit token of an instance has arrived, R119. -/
def reachExit (s : State) (F : Firing) : State :=
  { s with insts := s.insts.map fun i => if i.carries F.c F.src && i.block.exit == (F.g, F.n) then { i with atExit := true } else i }

def modInst (s : State) (id : Nat) (f : Instance → Instance) : State :=
  { s with insts := s.insts.map fun i => if i.id = id then f i else i }

/-- The exception bit of an instance is set, with its first cause, R119. -/
def condemn (s : State) (id cause : Nat) (val : BitVec 64) : State :=
  s.modInst id fun i => if i.cause = none then { i with cause := some (cause, val) } else i

/-- A fault of a firing: inside a block it only sets the exception bit, R119; elsewhere the element records it. -/
def fireFault (s : State) (F : Firing) (cause : Nat) (val : BitVec 64) (null : Option Token := none) : State :=
  match s.instanceOf F.g F.c F.n F.src with
  | none => s.elemFault F.g F.c F.n cause val none false (null.map fun t => (F.w, t))
  | some i => s.condemn i.id cause val

end State

/-! ## The firing rule, R105 -/

/-- What a firing does: the state after it, and the token it emits with the ports it names. -/
structure Deed where
  s   : State
  out : Option (Token × BitVec 4) := none

/-- A firing that emits a token to all of dst. -/
def Firing.emit (F : Firing) (s : State) (t : Token) : Option Deed := some ⟨s, some (t, F.w.dst)⟩
/-- A firing that emits nothing. -/
def Firing.quiet (s : State) : Option Deed := some ⟨s, none⟩

/-- A firing attempted: the slot's breakpoint, the ring positions of spilled operands, the block's reservation, then the
operation `k` on the state with the operands consumed, and room for its result. None where the slot is not selected. -/
def State.attempt (s : State) (F : Firing) (k : State → Firing → Option Deed) : Option State :=
  let x := s.ectx F.g F.c
  if (x.slot F.n).bkpt ∧ x.pastBkpt ≠ some F.n then some (s.elemFault F.g F.c F.n 0x09 0 none true)
  else
    match (match s.launchAt (gidTile F.g) F.c with | some l => s.ringBad F.g F.c l F.records | none => (none, s)) with
    | (some va, s) => some (s.elemFault F.g F.c F.n 0x11 (word va) none false)
    | (none, s) =>
      match s.reserve F with
      | none => none
      | some s =>
        match k ((s.consume F).modEctx F.g F.c fun x => { x with pastBkpt := none }) F with
        | none => none
        | some ⟨s, none⟩ => some (s.reachExit F)
        | some ⟨s, some (t, m)⟩ =>
          if s.room F.g F.c F.n F.w.dst m t then some ((s.deliver F.g F.c F.n F.w.dst m t).reachExit F) else none

/-- The focused slot, holding word `w`, fires on the first of its sets that can go. -/
def State.fireBy (s : State) (w : OpWord) (op : Nat) (k : State → Firing → Option Deed) : Option State :=
  (s.candidates s.focus.gid s.focus.ctx s.focus.slot w op).findSome? fun f => s.attempt f.2 k

/-- An operation that follows R105 unchanged: errors, null tokens and pm first, then `k`. -/
def regular (k : State → Firing → Option Deed) (s : State) (F : Firing) : Option Deed :=
  match F.erring with
  | some t => F.emit s (forwardError F.tag t)
  | none =>
    if F.anyNull then F.emit s (nullToken F.tag)
    else
      match verdict F.w.pm F.prdA with
      | .nothing => Firing.quiet s
      | .null => F.emit s (nullToken F.tag)
      | .compute =>
        match k s F with
        | some ⟨s, some (t, m)⟩ =>
          some ⟨s, some (if t.tag.err then t else { t with tag := { t.tag with prd := resultPrd F.w.pm F.prdA t.tag.prd } }, m)⟩
        | d => d

/-- An operation that only computes a token from its operands. -/
def pureOp (f : ElemCtx → Firing → Token) : State → Firing → Option Deed :=
  regular fun s F => F.emit s (f (s.ectx F.g F.c) F)

/-- The step of a slot: it fires, or stays as it is until it can. -/
def State.after (s : State) (o : Option State) : Out := settle (o.getD s)

/-! ## Beats into slots, R110, R111, R151 -/

namespace State

/-- The operand slots of a context that accept colour `col` from source `src`, R151; high lanes of a joined colour are
accepted as no token of their own, R166. -/
def acceptors (x : ElemCtx) (src col : Nat) : List (Nat × Nat) :=
  if x.high.contains col then []
  else
    let code := if src = 5 then 13 else if src = 7 then 12 else if src = 6 then 16 else src
    ((List.range 16).map fun n =>
      let r := x.slot n
      (if (r.opw.extractLsb' 18 4).toNat = code ∧ r.ica.toNat = col then [(n, 0)] else [])
        ++ (if (r.opw.extractLsb' 14 4).toNat = code ∧ r.icb.toNat = col then [(n, 1)] else [])).flatten

/-- The key of a frame in a tag store, and of a spawned frame of a launch. -/
def frameKey (c : Nat) (f : BitVec 16) : Nat := 65536 * c + f.toNat
def spawnKey (s : State) (t c : Nat) (f : BitVec 16) : Nat :=
  2 ^ 18 * (match s.lidOf t c with | some n => n + 1 | none => 0) + frameKey c f

/-- A token of a spawned frame takes an entry of the tag store where it first arrives, under the root sequence of the frame; none while
none is free, R117 and R167. -/
def takeFrame (s : State) (g c : Nat) (f : BitVec 16) : Option State :=
  let e := s.elem g
  match SMap.get? s.spawned (s.spawnKey (gidTile g) c f) with
  | none => some s
  | some seq =>
    if e.frames.contains (frameKey c f) then some s
    else if 32 ≤ e.frames.length then none
    else
      some ((s.modElem g fun e => { e with frames := NSet.insert e.frames (frameKey c f) }).modEctx g c fun x =>
        { x with rootSeqs := SMap.set x.rootSeqs f.toNat seq })

/-- A partner of the token in operand slot `q` that no earlier token of its own slot `r` takes. -/
def freePartner (x : ElemCtx) (n r : Nat) (t : Tag) (q : Role) : Option Pick :=
  ((x.avail n q).filter fun p => p.token.tag.meets t)[((x.avail n (r, none)).filter fun p => p.token.tag.meets t).length]?

/-- The token completes a set of slot `n` whose turn has come, so that it waits for no partner and needs no matching entry, R110: MERGEO
waits for the source whose turn it is (R160), REORD for the lower THRs (R165). DESIGN CHOICE: such a token stands in its operand slot
until the slot fires; the spec states no number of tokens that an operand slot holds. -/
def completes (x : ElemCtx) (c n r : Nat) (o : Operand) : Bool :=
  let w := opFields (x.slot n).opw
  let op := (x.slot n).op
  let t := o.token.tag
  let others := (wordRoles w op n).filter (· != (r, none))
  let ps := others.filterMap fun q => (freePartner x n r t q).map ((q.1, ·))
  if op = 43 then true
  else if op = 44 then r == (if x.turnB.contains n then 1 else 0) && (x.avail n (r, none)) == []
  else
    ps.length == others.length &&
      (op != 52 || (let T := (x.firing 0 c n w ((r, .held o) :: ps)).threads x
        decide (T ≤ t.thr.toNat) || t.thr.toNat == x.turnOf n t))

/-- A beat that must spill: to the next ring position; none while the ring has no room for the `k` beats of its token, and
then, or where the position's page fails, the fault of R113 steps 4 and 5. -/
def spill (s : State) (g c n r k : Nat) (b : Beat) : Option Nat × State :=
  match s.lidOf (gidTile g) c, s.launchAt (gidTile g) c with
  | some lid, some l =>
    let x := s.ectx g c
    if !ringRoom l k then
      (none, if !x.stopped && s.sourcesLowest lid c then s.elemFault g c n 0x10 (word l.info.rbase) none false else s)
    else
      match s.ringBad g c l ((List.range k).map (l.seq + ·)) with
      | (some va, s) => (none, if x.stopped then s else s.elemFault g c n 0x11 (word va) none false)
      | (none, s) => let (q, s) := s.spillBeat g c lid l n r b; (some q, s)
  | _, _ => (none, s)

/-- Operand slot `r` of slot `n` takes a beat, and whether it could. -/
def takeBeat (s : State) (g c n r : Nat) (b : Beat) : Bool × State :=
  let x := s.ectx g c
  match x.operands.find? fun o => o.slot == n && o.which == r && !o.whole with
  | some o =>
    let add (s : State) (sp : List Nat) : State :=
      s.modEctx g c fun x => { x with operands := x.operands.map fun p =>
        if p.seq = o.seq then { p with token := { p.token with beats := p.token.beats ++ [b.data] }, whole := b.tag.last, spilled := p.spilled ++ sp } else p }
    if !o.ring then (true, add s [])
    else
      match s.spill g c n r 1 b with
      | (none, s) => (false, s)
      | (some q, s) => (true, add s [q])
  | none =>
    match s.takeFrame g c b.tag.frm with
    | none => (false, s)
    | some s' =>
      let col := b.tag.col.toNat
      let o : Operand :=
        { slot := n, which := r, token := ⟨{ b.tag with last := true }, [b.data]⟩, whole := b.tag.last, seq := (s.elem g).seq,
          hdr := SMap.get? x.headers col }
      let k := if b.tag.last then 1 else Max.max 1 (beatCount (x.width col) (fmtBits (x.inFmt col)))
      let put (s : State) (o : Operand) : State :=
        (s.modEctx g c fun x => { x with operands := x.operands ++ [o] }).modElem g fun e => { e with seq := e.seq + 1 }
      if completes x c n r o then (true, put s' o)
      else if entriesUsed x + k ≤ x.allot then (true, put s' { o with entries := k })
      else
        match s'.spill g c n r k b with
        | (none, s'') => (false, s'')
        | (some q, s'') => (true, put s'' { o with ring := true, spilled := [q] })

/-- No acceptor has taken a part of the token at the head of a source. -/
def atBoundary (s : State) (g src c col : Nat) : Bool := !(s.source g src c col).inside && (s.source g src c col).taken == []

/-- A started out-stream drains the colour at this port, R322: from the first token on that nothing else has begun to take. -/
def drained (s : State) (g src c col : Nat) : Bool :=
  ((s.tile (gidTile g)).ctx c).streams.any fun x =>
    x.2.out && x.2.going && !x.2.st.fin && x.2.elem == gidElem g && x.2.port == src && x.2.col.toNat == col
      && (x.2.hand != [] || s.atBoundary g src c col)

/-- Everything that takes the head beat of a source: slots and enabled switch entries; on the tile bus those of every element
of the tile in force, R175. -/
def takers (s : State) (g src c col : Nat) : List Nat :=
  let of (g base : Nat) : List Nat :=
    if s.inForce g c then
      ((acceptors (s.ectx g c) src col).map fun a => base + 2 * a.1 + a.2) ++ ((s.elem g).routes c col src).map fun e => base + 32 + e.1
    else []
  if src = 5 then ((List.range 64).map fun e => of (64 * gidTile g + e) (128 * e)).flatten else of g 0

/-- The number under which an acceptor of element `g` is kept. -/
def takerKey (g src a : Nat) : Nat := if src = 5 then 128 * gidElem g + a else a

/-- The head beat leaves its source once every acceptor has taken it; a CHWR that it held goes on, R177. -/
def clearHead (s : State) (g src c col : Nat) : State :=
  let l := s.source g src c col
  let ks := s.takers g src c col
  if l.beats = [] ∨ ks = [] ∨ !ks.all l.taken.contains then s
  else
    let s := s.modSource g src c col Lane.pop
    if src = 5 then
      s.modTile (gidTile g) fun T =>
        { T with tasks := mapEach (fun k => if k.held = some (colourKey c col) then { k with held := none } else k) T.tasks }
    else s

/-- TOKEN_ARRIVAL: the head beat of a source is offered to the slots that accept it, each of which takes its own copy when
it can; a header latches, R52 and R151. -/
def offer (s : State) (g src c col : Nat) : State :=
  let l := s.source g src c col
  match l.beats with
  | [] => s
  | b :: _ =>
    if !s.inForce g c || s.drained g src c col then s
    else
      let x := s.ectx g c
      let acc := acceptors x src col
      let mark (s : State) (a : Nat × Nat) : State :=
        s.modSource g src c col fun l => { l with taken := NSet.insert l.taken (takerKey g src (2 * a.1 + a.2)) }
      let s :=
        if b.tag.isHeader then
          if acc = [] then s
          else acc.foldl mark (s.modEctx g c fun x => { x with headers := SMap.set x.headers col (headerOf b.data (x.entry col).sfmt) })
        else acc.foldl (fun s a =>
          if l.taken.contains (takerKey g src (2 * a.1 + a.2)) then s
          else match s.takeBeat g c a.1 a.2 b with
            | (true, s) => mark s a
            | (false, s) => s) s
      s.clearHead g src c col

/-- The beat that switch entry `entry`, holding `w`, has to pass: the head beat of its source, which it has not passed yet. -/
def offered (s : State) (g entry : Nat) (w : BitVec 16) : Option Beat :=
  let l := s.source g (swFrom w) (swCtx w) (swCol w)
  if !swEn w || swFrom w = 4 || !s.inForce g (swCtx w) || s.drained g (swFrom w) (swCtx w) (swCol w)
      || l.taken.contains (takerKey g (swFrom w) (32 + entry)) then none
  else l.beats.head?

/-- Every port of the entry could take its beat: no other token is on the port, and the edge has room, R106, R109 and R172. -/
def portsFree (s : State) (g entry : Nat) (w : BitVec 16) : Bool :=
  (maskPorts (swTo w)).all fun p =>
    (match SMap.get? (s.elem g).busy p with | some e => e == entry | none => !portHeld (s.elem g) p)
      && decide ((s.edge g (swCtx w) (swCol w) p).beats.length < (s.edge g (swCtx w) (swCol w) p).depth)

/-- Entry `e`, holding `v`, comes before entry `f`, holding `w`, at a port that both want: the higher priority, then the longer wait,
then the lower number, R172 and R183. -/
def portBefore (s : State) (g e : Nat) (v : BitVec 16) (f : Nat) (w : BitVec 16) : Bool :=
  let prio (z : BitVec 16) : Nat := ((s.tile (gidTile g)).ctx (swCtx z)).prio.toNat
  let age (k : Nat) : Nat := ((s.elem g).asked.findIdx? (· == k)).getD (s.elem g).asked.length
  decide (prio w < prio v) || (prio v == prio w && (decide (age e < age f) || (age e == age f && decide (e < f))))

/-- Another entry takes one of the entry's ports first, R172. -/
def outranked (s : State) (g entry : Nat) (w : BitVec 16) : Bool :=
  (s.elem g).switch.any fun z =>
    z.1 != entry && swTo z.2 &&& swTo w != 0 && (s.offered g z.1 z.2).isSome && s.portsFree g z.1 z.2 && s.portBefore g z.1 z.2 entry w

/-- EDGE_BEAT_FORWARD: a switch entry passes the head beat of its source on all its ports at once, unless the token of another entry has
one of them, R109 and R172; an entry that must wait keeps its place in the order of waiting. -/
def forward (s : State) (g entry : Nat) : State :=
  match SMap.get? (s.elem g).switch entry with
  | none => s
  | some w =>
    let c := swCtx w
    let col := swCol w
    let src := swFrom w
    let ports := maskPorts (swTo w)
    match s.offered g entry w with
    | none => s.modElem g fun e => { e with asked := e.asked.filter (· != entry) }
    | some b =>
      if s.portsFree g entry w && !s.outranked g entry w then
        let s := ports.foldl (fun s p => s.modEdge g c col p fun l => { l with beats := l.beats ++ [b] }) s
        let s := s.modElem g fun e =>
          { e with
            busy := ports.foldl (fun m p => if b.tag.last then SMap.erase m p else SMap.set m p entry) e.busy
            asked := e.asked.filter (· != entry) }
        (s.modSource g src c col fun l => { l with taken := NSet.insert l.taken (takerKey g src (32 + entry)) }).clearHead g src c col
      else s.modElem g fun e => { e with asked := if e.asked.contains entry then e.asked else e.asked ++ [entry] }

end State

end Sys2Proof.Machine
end

