-- ==== Sys2Proof/Machine/ElemFloat.lean ====
section
/-! DEFINITION. Floating-point operations, op 16–31 (R135–R141, R153(5), R154, R157), and the floating-class operations FRND, FCLS and FCPS of R171. -/

namespace Sys2Proof.Machine

/-- The rounding mode of a suffix, R48 and R135. -/
def rndOf (sub : BitVec 3) : Rnd := match sub.toNat with | 1 => .rz | 2 => .rup | 3 => .rdn | _ => .rne

/-- A floating-class operation: exact values of A, B and C, rounded once into the result format, R140 and R153(5). -/
def floatLanes (f : Val → Val → Val → Val) (x : ElemCtx) (F : Firing) : Token :=
  let a := F.la x
  let b := F.lb x
  let c := F.lc
  F.each x fun j => encodeVal (x.outFmt F.w.col) (rndOf F.w.sub) (f (a.val j) (b.val j) (c.val j))
def floatOp (f : Val → Val → Val) : State → Firing → Option Deed := pureOp (floatLanes fun a b _ => f a b)

/-- A function whose value a revision fixes within the bound of R140, by its number there. -/
def functionOp (fn : Nat) : State → Firing → Option Deed :=
  pureOp fun x F =>
    let a := F.la x
    F.each x fun j => boundedFn fn (x.outFmt F.w.col) a.fmt (a.at j)

/-- FMIN and FMAX, R157: a NaN loses against a number, −0 < +0. -/
def minVal (a b : Val) : Val :=
  if a.isNan then b else if b.isNan then a else if Val.lt a b then a else if Val.lt b a then b else if a.isNeg then a else b
def maxVal (a b : Val) : Val :=
  if a.isNan then b else if b.isNan then a else if Val.lt a b then b else if Val.lt b a then a else if a.isNeg then b else a

/-- FRND, R171: rounded to an integral value; zeros, infinities and the sign are kept. -/
def integral (mode : Rnd) (v : Val) : Val :=
  match v with
  | .fin n m e => .fin n (if m = 0 then 0 else roundUnits mode n m e 0) 0
  | v => v

/-- The class of a lane, R171: a lane of a format without subnormals goes by its sign. -/
def classOf (f p : Nat) : Nat :=
  match decodeVal f p with
  | .nan => 8
  | .inf n => if n then 0 else 7
  | .fin n m _ =>
    if m = 0 then (if n then 3 else 4)
    else if fmtIsFloat f && (p >>> (floatFmt f).k) % 2 ^ (floatFmt f).w == 0 then (if n then 2 else 5)
    else (if n then 1 else 6)

/-- |A| with the sign of B, R171; a NaN B has the sign + (DEDUCED from R140, by which a NaN has no sign of its own). -/
def copySign (a b : Val) : Val := if a.isNan then a else if b.isNeg then a.abs.neg else a.abs

/-- FADD, R140 and R157. -/
def fireFadd (w : OpWord) (s : State) : Option State := s.fireBy w 16 (floatOp Val.add)
def execFadd (w : OpWord) (s : State) : Out := s.after (fireFadd w s)

/-- FSUB, R140 and R157. -/
def fireFsub (w : OpWord) (s : State) : Option State := s.fireBy w 17 (floatOp fun a b => Val.add a b.neg)
def execFsub (w : OpWord) (s : State) : Out := s.after (fireFsub w s)

/-- FMUL, R140 and R157. -/
def fireFmul (w : OpWord) (s : State) : Option State := s.fireBy w 18 (floatOp Val.mul)
def execFmul (w : OpWord) (s : State) : Out := s.after (fireFmul w s)

/-- FMA, R140, R154 and R157: one rounding, C from L(slot mod 4). -/
def fireFma (w : OpWord) (s : State) : Option State := s.fireBy w 19 (pureOp (floatLanes fun a b c => Val.add (Val.mul a b) c))
def execFma (w : OpWord) (s : State) : Out := s.after (fireFma w s)

/-- FMIN, R157. -/
def fireFmin (w : OpWord) (s : State) : Option State := s.fireBy w 20 (floatOp minVal)
def execFmin (w : OpWord) (s : State) : Out := s.after (fireFmin w s)

/-- FMAX, R157. -/
def fireFmax (w : OpWord) (s : State) : Option State := s.fireBy w 21 (floatOp maxVal)
def execFmax (w : OpWord) (s : State) : Out := s.after (fireFmax w s)

/-- FABS, R157. -/
def fireFabs (w : OpWord) (s : State) : Option State := s.fireBy w 22 (floatOp fun a _ => a.abs)
def execFabs (w : OpWord) (s : State) : Out := s.after (fireFabs w s)

/-- FNEG, R157. -/
def fireFneg (w : OpWord) (s : State) : Option State := s.fireBy w 23 (floatOp fun a _ => a.neg)
def execFneg (w : OpWord) (s : State) : Out := s.after (fireFneg w s)

/-- FDIV, R140 and R157. -/
def fireFdiv (w : OpWord) (s : State) : Option State := s.fireBy w 24 (floatOp Val.div)
def execFdiv (w : OpWord) (s : State) : Out := s.after (fireFdiv w s)

/-- FSQRT, R140 and R157. -/
def fireFsqrt (w : OpWord) (s : State) : Option State := s.fireBy w 25 (floatOp fun a _ => a.sqrt)
def execFsqrt (w : OpWord) (s : State) : Out := s.after (fireFsqrt w s)

/-- FRCP, R140 and R157. -/
def fireFrcp (w : OpWord) (s : State) : Option State := s.fireBy w 26 (functionOp 0)
def execFrcp (w : OpWord) (s : State) : Out := s.after (fireFrcp w s)

/-- FRSQ, R140 and R157. -/
def fireFrsq (w : OpWord) (s : State) : Option State := s.fireBy w 27 (functionOp 1)
def execFrsq (w : OpWord) (s : State) : Out := s.after (fireFrsq w s)

/-- FEXP, R140 and R157. -/
def fireFexp (w : OpWord) (s : State) : Option State := s.fireBy w 28 (functionOp 2)
def execFexp (w : OpWord) (s : State) : Out := s.after (fireFexp w s)

/-- FLOG, R140 and R157. -/
def fireFlog (w : OpWord) (s : State) : Option State := s.fireBy w 29 (functionOp 3)
def execFlog (w : OpWord) (s : State) : Out := s.after (fireFlog w s)

/-- FTANH, R140 and R157. -/
def fireFtanh (w : OpWord) (s : State) : Option State := s.fireBy w 30 (functionOp 4)
def execFtanh (w : OpWord) (s : State) : Out := s.after (fireFtanh w s)

/-- FSIG, R140 and R157. -/
def fireFsig (w : OpWord) (s : State) : Option State := s.fireBy w 31 (functionOp 5)
def execFsig (w : OpWord) (s : State) : Out := s.after (fireFsig w s)

/-- FRND, R171. -/
def fireFrnd (w : OpWord) (s : State) : Option State := s.fireBy w 110 (pureOp fun x F => floatLanes (fun a _ _ => integral (rndOf F.w.sub) a) x F)
def execFrnd (w : OpWord) (s : State) : Out := s.after (fireFrnd w s)

/-- FCLS, R171. -/
def fireFcls (w : OpWord) (s : State) : Option State := s.fireBy w 111 (pureOp fun x F => let a := F.la x; F.each x fun j => encodeVal (x.outFmt F.w.col) .rne (Val.ofInt (classOf a.fmt (a.at j))))
def execFcls (w : OpWord) (s : State) : Out := s.after (fireFcls w s)

/-- FCPS, R171. -/
def fireFcps (w : OpWord) (s : State) : Option State := s.fireBy w 112 (floatOp copySign)
def execFcps (w : OpWord) (s : State) : Out := s.after (fireFcps w s)

end Sys2Proof.Machine
end

