-- ==== Sys2Proof/Machine/Named.lean ====
section
/-! DEFINITION. Names, fold descriptors, slot headers and the named access at a slot's home, R231–R240. -/

namespace Sys2Proof.Machine

/-! ## Names and layouts, R231–R233 -/

/-- The statement and the iteration vector that a stamp packs, R9. -/
def stampS (x : Nat) : Nat := bitsOf x 63 52
def stampI (x k : Nat) : Nat := x / 2 ^ (13 * (3 - k)) % 2 ^ 13

def Layout.modulus (l : Layout) (k : Nat) : Nat := l.m.getD k 1

/-- σ(k, m), R232. -/
def Layout.sigma (l : Layout) (k m : Nat) : Int := l.skew.getD (if k = 0 then m - 1 else k + m) 0

/-- The normalised stamp: components at or above d are zero, R231 and R254. -/
def Layout.normal (l : Layout) (x : Nat) : Nat :=
  let i (k : Nat) : Nat := if k < l.d then stampI x k else 0
  stampOf (stampS x) (i 0) (i 1) (i 2) (i 3)

/-- The slot of a name, counted from the statement's first slot: slot_of − b of R9 and R233. -/
def Layout.slotOf (l : Layout) (x : Nat) : Nat :=
  let i (k : Nat) : Int := stampI x k
  let t (k : Nat) : Int := i k + ((List.range 4).foldl (fun a m => if k < m then a + l.sigma k m * i m else a) 0)
  let j (k : Nat) : Nat := (t k % (l.modulus k : Int)).toNat
  j 0 + l.modulus 0 * (j 1 + l.modulus 1 * (j 2 + l.modulus 2 * j 3))

/-- u, the lines of a slot; the slots; L, the lines of the statement, R232. -/
def Layout.u (l : Layout) : Nat := l.z / 32
def Layout.slots (l : Layout) : Nat := l.modulus 0 * l.modulus 1 * l.modulus 2 * l.modulus 3
def Layout.lines (l : Layout) : Nat := l.u * l.slots
/-- The first line of slot `r`, R233. -/
def Layout.line (l : Layout) (r : Nat) : Nat := l.b + l.u * r

/-! ## Headers, R234 and R235 -/

def NameHdr.toNat (h : NameHdr) : Nat := h.stamp.toNat + h.cnt % 256 * 2 ^ 64 + h.st % 4 * 2 ^ 72
def NameHdr.ofNat (x : Nat) : NameHdr := ⟨bitsOf x 73 72, bitsOf x 71 64, BitVec.ofNat 64 x⟩

namespace State

def region (s : State) (c : Nat) : Region := if h : c < 4 then s.regions[c] else {}

/-- The active descriptor of statement `n` in a context. -/
def fold? (s : State) (c n : Nat) : Option Descriptor := s.folds.find? fun f => f.ctx == c && f.s == n

/-- The device address of a device-scope slot's data and of the header of a line, R233 and R234. -/
def lineVa (s : State) (c line : Nat) : Nat := (s.region c).nb.toNat * 65536 + 32 * line
def headerVa (s : State) (c line : Nat) : Nat := (s.region c).nb.toNat * 65536 + 32 * (s.region c).nl.toNat + 16 * line

/-- Where a slot of element `g`'s tile lies: the pieces of its data, and its header where device memory holds it. -/
structure SlotAt where
  line   : Nat
  data   : List (Space × Nat × Nat)
  header : Option (Space × Nat)
  deriving DecidableEq, Repr

/-- The slot at `line` of descriptor `f` for an access of element `g`; a device-scope slot is translated and tested. -/
def slotAt (s : State) (g : Nat) (f : Descriptor) (line : Nat) (need : Need) : Except (Nat × Nat) SlotAt × State :=
  let z := f.lay.z
  match f.lay.scope with
  | 0 => (.ok ⟨line, [(.localMem g, 32 * line, z)], none⟩, s)
  | 1 => (.ok ⟨line, [(.overlay (gidTile g), 32 * line, z)], none⟩, s)
  | _ =>
    let die := tileDie (gidTile g)
    match s.probeAll die f.ctx need (pieces (z / 65536 + 2) (s.lineVa f.ctx line) z) with
    | (.error e, s) => (.error e, s)
    | (.ok ps, s) =>
      match s.probe die f.ctx (s.headerVa f.ctx line) 16 { read := true, write := true, sup := need.sup, header := true } with
      | (.error c, s) => (.error (c, s.headerVa f.ctx line), s)
      | (.ok h, s) => (.ok ⟨line, ps, some h⟩, s)

/-- The header of a slot: on die beside its first line, or in device memory. -/
def headerAt (s : State) (g : Nat) (f : Descriptor) (p : SlotAt) : NameHdr :=
  match p.header with
  | some (sp, a) => NameHdr.ofNat (s.bytesAt sp a 16)
  | none =>
    if f.lay.scope = 0 then SMap.getD (s.elem g).names p.line {} else SMap.getD (s.tile (gidTile g)).names p.line {}

def setHeader (s : State) (g : Nat) (f : Descriptor) (p : SlotAt) (h : NameHdr) : State :=
  match p.header with
  | some (sp, a) => s.perform sp a 16 h.toNat
  | none =>
    if f.lay.scope = 0 then s.modElem g fun e => { e with names := SMap.set e.names p.line h }
    else s.modTile (gidTile g) fun T => { T with names := SMap.set T.names p.line h }

/-- A read of these pieces meets poison or an uncorrectable error, R249 step 4. -/
def piecesCause (s : State) (ps : List (Space × Nat × Nat)) : Option Nat :=
  ps.findSome? fun p => (s.store p.1).readCause p.2.1 p.2.2

/-- Correctable errors in the bytes that a read meets are corrected and counted, R377. -/
def correctPieces (s : State) (g : Nat) (ps : List (Space × Nat × Nat)) : State :=
  ps.foldl (fun s p => s.correct (tileDie (gidTile g)) p.1 p.2.1 p.2.2) s

/-! ## The access, R238 -/

end State

/-- What a named access does at the home: it waits, raises a cause, or is performed. -/
inductive NamedResult where
  | wait
  | fault (cause val : Nat)
  | done (data : Nat)
  deriving DecidableEq, Repr

/-- Which named access: NLD, NLDT, NST. -/
inductive NamedKind where
  | read | peek | write
  deriving DecidableEq, Repr

/-- The test of R238 on header `h` for stamp `sn`: what happens, and the header afterwards. -/
def namedTest (k : NamedKind) (c : Nat) (h : NameHdr) (sn : Nat) : Option (Option Nat) × NameHdr :=
  match k with
  | .write =>
    if h.st = 0 ∨ (h.st = 2 ∧ h.stamp.toNat < sn) then (none, ⟨1, if c = 255 then 0 else c, BitVec.ofNat 64 sn⟩)
    else if h.st = 1 ∧ h.stamp.toNat < sn then (some none, h)
    else (some (some 0x0C), h)
  | k =>
    if h.st = 0 ∨ h.stamp.toNat < sn then (some none, h)
    else if sn < h.stamp.toNat then (some (some 0x0A), h)
    else if k = .read ∧ h.st = 1 ∧ c ≠ 255 then (none, ⟨if h.cnt - 1 = 0 then 2 else 1, h.cnt - 1, h.stamp⟩)
    else (none, h)

namespace State

/-- R238 at the home of the slot that holds the name `x`: header test, data transfer and header update as one step. `v` is
what a write stores, zero beyond the data. DESIGN CHOICE: without a descriptor the stamp of cause 0x0C is A_0 itself, as no d normalises it;
GROWING comes before FAILED, and both before translation; the data pages are tested before the header page, which is tested as read and
written whatever the access; the marks of the header come before R238, and those of the data after it. -/
def namedAccess (s : State) (g c : Nat) (k : NamedKind) (x v : Nat) : NamedResult × State :=
  match s.fold? c (stampS x) with
  | none => (.fault 0x0C x, s)
  | some f =>
    let sn := f.lay.normal x
    if f.growing then (.wait, s)
    else if f.check = 2 then (.fault 0x0D sn, s)
    else
      match s.slotAt g f (f.lay.line (f.lay.slotOf sn)) { read := k != .write, write := k == .write } with
      | (.error e, s) => (.fault e.1 e.2, s)
      | (.ok p, s) =>
        let s := s.piecesHome (elemAgent g) p.data
        let h := s.headerAt g f p
        match (match p.header with | some (sp, a) => (s.store sp).readCause a 16 | none => none) with
        | some cause => (.fault cause (s.headerVa c p.line), s)
        | none =>
          let s := match p.header with | some (sp, a) => s.correctPieces g [(sp, a, 16)] | none => s
          match namedTest k f.lay.c h sn with
          | (some none, _) => (.wait, s)
          | (some (some cause), _) => (.fault cause sn, s)
          | (none, h') =>
            if k = .write then
              (.done 0, (s.writePieces c (v % 256 ^ f.lay.z) p.data).setHeader g f p h')
            else
              match s.piecesCause p.data with
              | some cause => (.fault cause (if f.lay.scope = 2 then s.lineVa c p.line else 32 * p.line), s)
              | none =>
                let s := s.correctPieces g p.data
                (.done (s.readPieces p.data), if h' = h then s else s.setHeader g f p h')

/-- The accesses of a statement have no count running any more, nor the writes of it that delay a commit, R239 and R243. -/
def pauseStatement (s : State) (c n : Nat) : State :=
  let names (q : Request) : Bool := q.ctx == c && stampS q.a0 == n && decide (79 ≤ q.op) && decide (q.op ≤ 81)
  let now (g : Nat) : BitVec 64 := (s.tile (gidTile g)).cycle
  { s with
    elems := s.elems.map fun e =>
      (e.1, { e.2 with reqs := e.2.reqs.map fun q => if names q then { q with state := q.state.hold (now e.1) } else q })
    insts := s.insts.map fun i =>
      { i with stall := i.stall.map fun w =>
          if i.buffer.any fun b => b.gid == w.1 && b.req.id == w.2.1 && names b.req then (w.1, w.2.1, w.2.2.hold (now w.1)) else w } }

end State

end Sys2Proof.Machine
end

