-- ==== Sys2Proof/Machine/Requests.lean ====
section
/-! DEFINITION. Memory requests of elements between firing and reply: the control word (R248), the address checks (R249), the
homes (R256–R264), alias chains (R258), faults (R252) and replies (R251). -/

namespace Sys2Proof.Machine

/-! ## Control words and shapes, R248 and R249 -/

def Request.sp (q : Request) : Nat := (q.ctl.extractLsb' 62 2).toNat
def Request.cls (q : Request) : Nat := (q.ctl.extractLsb' 16 8).toNat
def Request.lst (q : Request) : Bool := q.ctl.getLsbD 15
def Request.seqNo (q : Request) : Nat := (q.ctl.extractLsb' 8 6).toNat

/-- SP = 11, or a reserved bit set, R248. -/
def controlBad (k : BitVec 64) : Bool :=
  k.extractLsb' 62 2 == 3#2 || k.extractLsb' 24 38 != 0#38 || k.getLsbD 14 || k.extractLsb' 0 8 != 0#8

/-- Nodes that stand in an alias chain; stores of R118. -/
def isChained (op : Nat) : Bool := op == 82 || op == 83 || op == 84
def isStoreNode (op : Nat) : Bool := op == 80 || op == 83 || op == 87 || op == 88 || op == 91

/-- n and e of R249: of the result for a load, of B for a store. OUPD acts on one word of B's format. -/
def Request.span (q : Request) : Nat × Nat :=
  if q.op = 88 then (fmtBits q.bfmt / 8, fmtBits q.bfmt / 8)
  else if q.op = 83 ∨ q.op = 87 then (q.bytes, Max.max 1 (fmtBits q.bfmt / 8))
  else ((q.rwid * fmtBits q.rfmt + 7) / 8, Max.max 1 (fmtBits q.rfmt / 8))

/-- A reply: the bit string of the result, cut to its lanes, R249 and R254. -/
def Request.reply (q : Request) (own : Bool) (bits : Nat) : Token :=
  ⟨{ q.tag with prd := resultPrd q.w.pm q.prdA own },
   beatList (beatCount q.rwid (fmtBits q.rfmt)) (bits % 2 ^ (q.rwid * fmtBits q.rfmt))⟩
/-- Lane patterns of a reply; the other lanes are +0. -/
def Request.lanes (q : Request) (own : Bool) (ps : List Nat) : Token :=
  q.reply own (packLanes (fmtBits q.rfmt) ((List.range q.rwid).map fun j => ps.getD j (zeroPat q.rfmt)))
/-- The acknowledgement of R247. -/
def Request.ack (q : Request) : Token := q.lanes false []
def Request.null (q : Request) : Token := nullToken q.tag

/-- ITR `b` follows ITR `a` in a thread, modulo 4,096 (R107, R115). -/
def itrAfter (a b : BitVec 12) : Bool := let d := (b - a).toNat; 0 < d && d < 2048

/-- A request of the slot in the same thread whose reply has not left and whose ITR comes first, R107 and R251. -/
def Elem.earlier (e : Elem) (c n : Nat) (t : Tag) : Bool :=
  e.reqs.any fun r => r.ctx == c && r.slot == n && !r.skip && r.state != .silent && r.src.frm == t.frm && r.src.thr == t.thr
    && itrAfter r.src.itr t.itr

/-- A request is issued again from the start, R252. -/
def Request.again (q : Request) : Request := { q with state := .pending, parts := none, off := 0, got := 0 }

/-- A request of the key of a chain state, R258. -/
def Request.chainOf (q : Request) (k : Chain) : Bool := k.ctx == q.ctx && k.cls == q.cls && k.frm == q.src.frm && k.thr == q.src.thr

/-- Not performed yet. -/
def ReqState.live (r : ReqState) : Bool :=
  match r with
  | .performed _ | .silent => false
  | _ => true

namespace State

def request? (s : State) (g id : Nat) : Option Request := (s.elem g).reqs.find? (·.id == id)
def modRequest (s : State) (g id : Nat) (f : Request → Request) : State :=
  s.modElem g fun e => { e with reqs := e.reqs.map fun q => if q.id = id then f q else q }
/-- A change of every request in progress on the device. -/
def mapRequests (s : State) (f : Request → Request) : State :=
  s.elems.foldl (fun s e => s.modElem e.1 fun x => { x with reqs := x.reqs.map f }) s
def dropRequest (s : State) (g id : Nat) : State := s.modElem g fun e => { e with reqs := e.reqs.filter (·.id != id) }

/-- A request has been performed. -/
def answer (s : State) (g : Nat) (q : Request) (t : Token) : State := s.modRequest g q.id fun q => { q with state := .performed t }

/-- A request whose fault is recorded: inside a block the exception bit is set and a null token goes on (R119), elsewhere
the request stays pending and the element records the fault (R252). -/
def failRequest (s : State) (g : Nat) (q : Request) (cause val : Nat) : State :=
  match s.instanceOf g q.ctx q.slot q.src with
  | some i =>
    (s.condemn i.id cause (word val)).modRequest g q.id fun q => { q with state := if q.op = 84 then .silent else .performed q.null }
  | none => (s.modRequest g q.id fun q => { q with state := .faulted }).elemFault g q.ctx q.slot cause (word val) (some q.id) false

/-! ## Address checks, R248, R249, R259, R261, R262 -/

/-- Where an access in on-die memory lies, after steps 1 and 2. -/
def localPlace (g sp a n : Nat) : Except Nat (Space × Nat × Nat) :=
  if sp = 0 then (if 0x6000 < a + n then .error 0x04 else .ok (.localMem g, a, n))
  else (if 0x180000 < a + n then .error 0x04 else .ok (.overlay (gidTile g), a, n))

/-- ALDR's reply enters the consumer's switch at source 7, R257. -/
def consumer (s : State) (g : Nat) (q : Request) : Option Nat :=
  match s.launchAt (gidTile g) q.ctx with
  | none => none
  | some l =>
    let x := q.b0 % 256
    let y := q.b0 / 256 % 256
    if x < 8 * l.info.w ∧ y < 8 * l.info.h then some (gidAt (8 * l.ox + x) (8 * l.oy + y)) else none

/-- Step 3 for OUPD, the checks of an atomic, R68, R227 and R262. -/
def wordPlace (s : State) (g c a n : Nat) : Except (Nat × Nat) (List (Space × Nat × Nat)) × State :=
  match s.probe (tileDie (gidTile g)) c a n { read := true, write := true, farOk := true } with
  | (.error e, s) => (.error (e, a), s)
  | (.ok (sp, pa), s) => if sp = .hbm then (.ok [(sp, pa, n)], s) else (.error (0x16, a), s)

/-- The checks of an address-based request before anything is sent, in their order: the pieces of the access, or the cause and
its value. DESIGN CHOICE: R249 does not place the checks of R248, R259, R261 and R262 among its own; the control word comes first, then B's
format and the space, and the shapes of R259 and R261 follow check 1. A VST that is a probe is tested as a read, any other as a write. -/
def checkRequest (s : State) (g : Nat) (q : Request) : Except (Nat × Nat) (List (Space × Nat × Nat)) × State :=
  let a := q.a0
  let n := q.span.1
  let sp := q.sp
  if controlBad q.ctl then (.error (0x01, 0), s)
  else if q.op = 88 ∧ ¬(q.bfmt = 0 ∨ q.bfmt = 12 ∨ q.bfmt = 13 ∨ q.bfmt = 14 ∨ q.bfmt = 15) then (.error (0x01, 0), s)
  else if q.op = 87 ∧ sp ≠ 2 then (.error (0x06, a), s)
  else if a % q.span.2 ≠ 0 then (.error (0x03, a), s)
  else if (q.op = 85 ∨ q.op = 86) ∧ (32 < n ∨ a % 8 ≠ 0 ∨ a / 32 ≠ (a + n - 1) / 32) then (.error (0x03, a), s)
  else if q.op = 87 ∧ a / 64 ≠ (a + n - 1) / 64 then (.error (0x03, a), s)
  else if sp ≠ 2 then
    match localPlace g sp a n with
    | .error c => (.error (c, a), s)
    | .ok p => (.ok [p], s)
  else if q.op = 88 then s.wordPlace g q.ctx a n
  else
    let write := q.op = 83 ∨ (q.op = 87 ∧ q.a1 < 256)
    s.probeAll (tileDie (gidTile g)) q.ctx { read := !write, write := write } (pieces (n / 65536 + 2) a n)

/-- The consumer of an ALDR is tested after its address, R257; in a context without a launch no consumer is within it (DESIGN CHOICE). -/
def checkAll (s : State) (g : Nat) (q : Request) : Except (Nat × Nat) (List (Space × Nat × Nat)) × State :=
  match s.checkRequest g q with
  | (.ok ps, s) => if q.op = 84 ∧ (s.consumer g q).isNone then (.error (0x06, q.b0), s) else (.ok ps, s)
  | r => r

/-! ## Performing, R256–R263 -/

/-- The full-empty bits of every word of these pieces are full, R259. -/
def allFull (s : State) (ps : List (Space × Nat × Nat)) : Bool :=
  ps.all fun p => (unitsOf 8 p.2.1 p.2.2).all fun u => (s.store p.1).full.contains u
def setEmpty (s : State) (ps : List (Space × Nat × Nat)) : State :=
  ps.foldl (fun s p => s.modStore p.1 fun x => { x with full := x.full.filter fun u => !(unitsOf 8 p.2.1 p.2.2).contains u }) s

/-- A read of checked pieces at their homes: the bytes, or the cause of R249 step 4. -/
def readHome (s : State) (g : Nat) (ps : List (Space × Nat × Nat)) : Except Nat Nat × State :=
  let s := s.piecesHome (elemAgent g) ps
  match s.piecesCause ps with
  | some c => (.error c, s)
  | none => (.ok (s.readPieces ps), s.correctPieces g ps)

/-- A store of an element: on die it is performed; to device, host or peer memory it is performed once accepted, R256. -/
def storeAt (s : State) (g c v : Nat) : List (Space × Nat × Nat) → State
  | [] => s
  | (sp, a, n) :: r =>
    let s := match sp with
      | .localMem _ | .overlay _ => s.performFor c sp a n (v % 256 ^ n)
      | _ => s.accept (elemAgent g) sp a n (v % 256 ^ n) true
    s.storeAt g c (v / 256 ^ n) r

/-- The test and write of R261 at a unit: the status lanes and PRD. Host and peer memory keep versions, and full-empty bits, as device memory
does (DESIGN CHOICE: R259 and R261 speak of device memory, R406 of pages that lie elsewhere). -/
def versioned (s : State) (sp : Space) (a n data expect : Nat) : List Nat × Bool × State :=
  let u := a / 64
  let vf := SMap.getD (s.store sp).version u 0
  if expect < 256 ∧ vf = expect then
    let v' := (vf + 1) % 256
    ([1, vf, v'], true, (s.perform sp a n (data % 256 ^ n)).modStore sp fun x => { x with version := SMap.set x.version u v' })
  else ([0, vf, vf], false, s)

end State

/-- The new value of R262 for old value `m`, operand `v` and comparand `c`, patterns of format `f`; none where .CAS writes
nothing. -/
def ownerNew (f sub m v c : Nat) : Option Nat :=
  let b := fmtBits f
  let fp (x : Val) : Nat := match encodeVal f .rne x with | .ok p => p | .error _ => canonicalNan f
  let pick (lt : Bool) : Nat := if lt then m else v
  match sub with
  | 0 => some (if f = 0 then fp (Val.add (decodeVal f m) (decodeVal f v)) else (m + v) % 2 ^ b)
  | 1 => some (if f = 0 then fp (minVal (decodeVal f m) (decodeVal f v)) else pick (decide (decodeInt f m < decodeInt f v)))
  | 2 => some (if f = 0 then fp (maxVal (decodeVal f m) (decodeVal f v)) else pick (decide (decodeInt f v < decodeInt f m)))
  | 3 => some (m &&& v)
  | 4 => some (m ||| v)
  | 5 => some (m ^^^ v)
  | 6 => some v
  | _ => if m = c then some v else none

/-- The result of an OUPD on old value `m`, R262; an old value that the result format cannot hold makes an error token, R142. -/
def Request.ownerReply (q : Request) (m : Nat) (wrote : Bool) : Token :=
  match convLane q.bfmt q.rfmt .rne (some m) with
  | .error orig => errorToken q.tag 0 orig
  | .ok lane => if q.w.sub = 7 then q.lanes wrote [lane, intPat q.rfmt (if wrote then 1 else 0)] else q.lanes false [lane]

/-- Operand and comparand patterns of an OUPD. -/
def Request.operand (q : Request) (j : Nat) : Nat := q.data / 2 ^ (fmtBits q.bfmt * j) % 2 ^ fmtBits q.bfmt

def Request.ownerNew (q : Request) (m : Nat) : Option Nat :=
  Machine.ownerNew q.bfmt q.w.sub.toNat m (q.operand 0) (if fmtBits q.bfmt * 2 ≤ 8 * q.bytes then q.operand 1 else 0)

namespace State

/-- The line of an owner buffer that holds a device line, fetched and made the most recently used; the least recently used
of nine is written back, R263. The cause where the line cannot be read: R263 fetches the line, so that an uncorrectable word anywhere in it
counts (DEDUCED). -/
def ownLine (s : State) (g line : Nat) : Except Nat (BitVec 256) × State :=
  match (s.elem g).owner.find? (·.line == line) with
  | some o => (.ok o.data, s)
  | none =>
    let s := s.atHome (elemAgent g) none .hbm (32 * line) 32
    match s.hbm.readCause (32 * line) 32 with
    | some c => (.error c, s)
    | none =>
      let s := match (s.elem g).owner.drop 7 with
        | o :: _ => s.recallLine o.line
        | [] => s
      (.ok (BitVec.ofNat 256 (s.bytesAt .hbm (32 * line) 32)), s.correctPieces g [(.hbm, 32 * line, 32)])

/-- OUPD on a word of a buffered line. -/
def ownerWord (s : State) (g : Nat) (q : Request) (pa n : Nat) : Except Nat (Nat × Bool) × State :=
  match s.ownLine g (pa / 32) with
  | (.error c, s) => (.error c, s)
  | (.ok d, s) =>
    let sh := 8 * (pa % 32)
    let m := d.toNat / 2 ^ sh % 256 ^ n
    let v := (q.ownerNew m).getD m
    let d' := BitVec.ofNat 256 (d.toNat - m * 2 ^ sh + v * 2 ^ sh)
    (.ok (m, (q.ownerNew m).isSome), s.modElem g fun e =>
      { e with owner := ⟨pa / 32, d'⟩ :: e.owner.filter (·.line != pa / 32) })

/-- OUPD at checked pieces. -/
def performOwner (s : State) (g : Nat) (q : Request) (ps : List (Space × Nat × Nat)) : Except Nat (Nat × Bool) × State :=
  match ps with
  | [(.hbm, pa, n)] => s.ownerWord g q pa n
  | _ =>
    match s.readHome g ps with
    | (.error c, s) => (.error c, s)
    | (.ok m, s) =>
      let s := match q.ownerNew m with
        | some v => s.writePieces q.ctx v ps
        | none => s
      (.ok (m, (q.ownerNew m).isSome), s)

/-! ## Reads that see a block's own stores, R119 and R253 -/

/-- The buffered accesses of its block instance that fired before a request. -/
def heldBefore (s : State) (g : Nat) (q : Request) : List Buffered :=
  match s.instanceOf g q.ctx q.slot q.src with
  | none => []
  | some i => i.buffer.filter fun b => decide (b.req.id < q.id)

/-- Where the slot of a named access lies. -/
def slotOfName (s : State) (g : Nat) (q : Request) (need : Need) : Option (List (Space × Nat × Nat)) × State :=
  match s.fold? q.ctx (stampS q.a0) with
  | none => (none, s)
  | some f =>
    match s.slotAt g f (f.lay.line (f.lay.slotOf (f.lay.normal q.a0))) need with
    | (.ok p, s) => (some p.data, s)
    | (.error _, s) => (none, s)

/-- A buffered store written at once, where it can be: the memory that the later loads of its block see. -/
def showHeld (s : State) (b : Buffered) : State :=
  let q := b.req
  let g := b.gid
  if q.op = 80 then
    match s.slotOfName g q { write := true } with
    | (some ps, s) => s.writePieces q.ctx q.data ps
    | (none, s) => s
  else if q.op = 83 ∨ q.op = 87 ∨ q.op = 88 then
    match s.checkRequest g q with
    | (.error _, s) => s
    | (.ok ps, s) =>
      if q.op = 83 then s.writePieces q.ctx q.data ps
      else if q.op = 87 then
        match ps with
        | [(sp, a, n)] => (s.versioned sp a n q.data q.a1).2.2
        | _ => s
      else ps.foldl (fun s p => s.callBack none p.1 p.2.1 p.2.2) (s.performOwner g q ps).2
  else s

/-- Memory as the block of a request sees it; only reads are made of this state. -/
def ownView (s : State) (g : Nat) (q : Request) : State := (s.heldBefore g q).foldl showHeld s

/-- A read by a load: `readHome`, but for what the load's own block has stored. -/
def readAt (s : State) (g : Nat) (q : Request) (ps : List (Space × Nat × Nat)) : Except Nat Nat × State :=
  let s := s.piecesHome (elemAgent g) ps
  let view := s.ownView g q
  match view.piecesCause ps with
  | some c => (.error c, s)
  | none => (.ok (view.readPieces ps), s.correctPieces g ps)

/-- A buffered NST of its block has written the name that a read names. -/
def nameHeld (s : State) (g : Nat) (q : Request) : Bool :=
  match s.fold? q.ctx (stampS q.a0) with
  | some f => (s.heldBefore g q).any fun b => b.req.op == 80 && f.lay.normal b.req.a0 == f.lay.normal q.a0
      && (f.lay.scope == 2 || b.gid == g || (f.lay.scope == 1 && gidTile b.gid == gidTile g))
  | none => false

/-- The data of a named read in a block that has stored before it: `v` where nothing of the slot is held. -/
def nameView (s : State) (g : Nat) (q : Request) (v : Nat) : Nat :=
  if s.heldBefore g q = [] then v
  else
    match s.slotOfName g q { read := true } with
    | (some ps, s) => (s.ownView g q).readPieces ps
    | (none, _) => v

/-! ## Requests at their homes, R256–R262 -/

/-- One line request of an ALD, AST or ALDR at its home, R249: `ps` are those that are left. With the last the access is performed. -/
def performLines (s : State) (g : Nat) (q : Request) (ps : List (Space × Nat × Nat)) : State :=
  let done (s : State) (n v : Nat) (r : List (Space × Nat × Nat)) : State :=
    let q' := { q with parts := some r, off := q.off + n, got := q.got + v * 256 ^ q.off }
    let s := s.modRequest g q.id fun _ => q'
    if r = [] then s.answer g q (if q.op = 83 then q.ack else q.reply false q'.got) else s
  match ps with
  | [] => done s 0 0 []
  | p :: r =>
    if q.op = 83 then done (s.storeAt g q.ctx (q.data / 256 ^ q.off) [p]) p.2.2 0 r
    else
      match s.readAt g q [p] with
      | (.error c, s) => s.failRequest g q c q.a0
      | (.ok v, s) => done s p.2.2 v r

/-- An ALD, AST or ALDR whose turn has come: its checks, then one line request after another. DEDUCED: checks 1–3 of R249 are made as the
node fires and again here, since the page may have changed while the request waited for its turn. -/
def performOrdered (s : State) (g : Nat) (q : Request) : State :=
  match q.parts with
  | some ps => s.performLines g q ps
  | none =>
    match s.checkAll g q with
    | (.error e, s) => s.failRequest g q e.1 e.2
    | (.ok ps, s) => s.performLines g q (ps.flatMap lineParts)

/-- A request at its home: what R259–R262 do, with its reply. SLD and SLDC that find a bit empty stay as they are. -/
def performAt (s : State) (g : Nat) (q : Request) : State :=
  match s.checkAll g q with
  | (.error e, s) => s.failRequest g q e.1 e.2
  | (.ok ps, s) =>
    if q.op = 87 then
      match ps with
      | [(sp, a, n)] =>
        let s := s.atHome (elemAgent g) none sp a n
        let r := s.versioned sp a n q.data q.a1
        r.2.2.answer g q (q.lanes r.2.1 (r.1.map (intPat q.rfmt)))
      | _ => s
    else if q.op = 88 then
      match s.performOwner g q ps with
      | (.error c, s) => s.failRequest g q c q.a0
      | (.ok (m, wrote), s) => s.answer g q (q.ownerReply m wrote)
    else
      let s' := s.piecesHome (elemAgent g) ps
      if !s'.allFull ps then s
      else
        match s.readAt g q ps with
        | (.error c, s) => s.failRequest g q c q.a0
        | (.ok v, s) =>
          let t := q.reply false v
          if q.op = 86 then
            match s.instanceOf g q.ctx q.slot q.src with
            | some i =>
              (s.modInst i.id fun j => { j with buffer := j.buffer ++ [⟨g, q⟩] }).answer g q t
            | none => (s.setEmpty ps).answer g q t
          else s.answer g q t

/-! ## Fences, R264 and R283 -/

/-- A fence of scope `f` waits for a request: local memory, overlay, and from QUAD up device memory. -/
def fenceCovers (s : State) (f : Nat) (r : Request) : Bool :=
  let level := if 79 ≤ r.op ∧ r.op ≤ 81 then (match s.fold? r.ctx (stampS r.a0) with | some d => d.lay.scope | none => 2)
    else if r.op = 92 ∨ r.op = 93 then 2 else if r.op = 91 ∨ r.op = 94 then 3 else r.sp
  if f = 0 then level == 0 else if f ≤ 2 then level ≤ 1 else if f = 3 then level ≤ 2 else true

/-- FENCEE is performed when every earlier request of its context has been performed at its scope; a write that a block instance still
holds has not been performed. -/
def performFence (s : State) (g : Nat) (q : Request) : State :=
  let f := q.w.sub.toNat
  let before (r : Request) : Bool := r.ctx == q.ctx && decide (r.id < q.id) && s.fenceCovers f r
  if (s.elem g).reqs.any (fun r => before r && r.op != 89 && !r.skip && r.state.live)
      || s.insts.any fun i => i.buffer.any fun b => b.gid == g && before b.req then s
  else
    let s := s.fence (elemAgent g) f
    s.answer g q q.pass

/-! ## Alias chains, R258 -/

/-- The chain state of a request at its tile's interface, created at (0, 0) while one of the 256 is free. -/
def enterChain (s : State) (g : Nat) (q : Request) : State :=
  let t := gidTile g
  let T := s.tile t
  if T.chains.any q.chainOf || decide (256 ≤ T.chains.length) then s
  else s.modTile t fun T => { T with chains := T.chains ++ [{ ctx := q.ctx, cls := q.cls, frm := q.src.frm, thr := q.src.thr }] }

/-- The position after a request that has been performed. -/
def advanceChain (s : State) (g : Nat) (q : Request) : State :=
  let next (k : Chain) : Chain := if q.lst then { k with ei := (k.ei + 1) % 4096, es := 0 } else { k with es := q.seqNo + 1 }
  s.modTile (gidTile g) fun T => { T with chains := T.chains.map fun k => if q.chainOf k then next k else k }

/-- ALIAS_CHAIN_REQUEST: the interface acts on a waiting request when its position is expected. -/
def chainRequest (s : State) (g id : Nat) : State :=
  match s.request? g id with
  | none => s
  | some q =>
    if !isChained q.op || q.state != .pending || q.inst.isSome then s
    else
      let s := s.enterChain g q
      match (s.tile (gidTile g)).chains.find? q.chainOf with
      | none => s
      | some k =>
        if q.src.itr.toNat = k.ei ∧ q.seqNo < k.es then s.failRequest g q 0x01 0
        else if q.src.itr.toNat = k.ei ∧ q.seqNo = k.es then
          if q.skip then (s.advanceChain g q).dropRequest g id
          else
            let s := s.performOrdered g q
            if (match s.request? g id with | some r => r.state.live | none => true) then s else s.advanceChain g q
        else s

/-- CHAIN_STATE_RELEASE: a marked state goes once no request of its key waits at the interface. -/
def releaseChain (s : State) (t n : Nat) : State :=
  match (s.tile t).chains[n]? with
  | none => s
  | some k =>
    let busy := (List.range 64).any fun e => (s.elem (64 * t + e)).reqs.any fun q =>
      isChained q.op && q.state.live && q.chainOf k
    if k.marked && !busy then s.modTile t fun T => { T with chains := T.chains.eraseIdx n } else s

/-! ## Events at the homes -/

/-- An OUPD of the element fired before this one and has still to be performed, R262. -/
def updateBefore (e : Elem) (q : Request) : Bool :=
  e.reqs.any fun r => r.op == 88 && decide (r.id < q.id) && r.inst.isNone && r.state == .pending

/-- MEMORY_REQUEST_PERFORM for an element's request outside the chains, the folds and the datum units. A frozen region's SLD and SLDC do not
wait any more, R260. -/
def performRequest (s : State) (g id : Nat) : State :=
  match s.request? g id with
  | none => s
  | some q =>
    if q.state != .pending || q.inst.isSome then s
    else if q.op = 85 ∨ q.op = 86 then (if s.regionFrozen g q.ctx then s else s.performAt g q)
    else if q.op = 87 then s.performAt g q
    else if q.op = 88 then (if updateBefore (s.elem g) q then s else s.performAt g q)
    else if q.op = 89 then s.performFence g q
    else s

/-- MEMORY_REQUEST_PERFORM for the n-th store in flight. -/
def performStore (s : State) (n : Nat) : State :=
  match s.inflight[n]? with
  | none => s
  | some f =>
    -- a home performs the stores that it has accepted in their order, R276
    if (s.inflight.take n).any fun e => homeOf e.space e.addr == homeOf f.space f.addr then s
    else State.land { s with inflight := s.inflight.eraseIdx n } f

/-- MEMORY_REPLY: the oldest reply of its thread leaves the node, R251; it needs room as any result does. -/
def replyRequest (s : State) (g id : Nat) : State :=
  match s.request? g id with
  | none => s
  | some q =>
    match q.state with
    | .silent => s.dropRequest g id
    | .performed t =>
      if (s.elem g).earlier q.ctx q.slot q.src then s
      else if q.op = 84 then
        match s.consumer g q with
        | some h => (s.dropRequest g id).inject h 7 t
        | none => s.dropRequest g id
      else if s.room g q.ctx q.slot q.w.dst q.w.dst t then (s.dropRequest g id).deliver g q.ctx q.slot q.w.dst q.w.dst t
      else s
    | _ => s

/-- The statement that a named access names is GROWING. -/
def isGrowing (s : State) (q : Request) : Bool := match s.fold? q.ctx (stampS q.a0) with | some f => f.growing | none => false

/-- NAMED_ACCESS: a named request is tried at its slot's home, R237 and R238; one that must wait starts or goes on with its
count, R239. -/
def tryNamed (s : State) (g id : Nat) : State :=
  match s.request? g id with
  | none => s
  | some q =>
    if q.op < 79 ∨ 81 < q.op ∨ q.inst.isSome then s
    else
      let k := if q.op = 79 then NamedKind.read else if q.op = 81 then .peek else .write
      let attempt (s : State) : State :=
        if k ≠ .write ∧ s.nameHeld g q then s.answer g q (q.reply false (s.nameView g q 0))
        else
          match s.namedAccess g q.ctx k q.a0 q.data with
          | (.fault c v, s) => s.failRequest g q c v
          | (.done v, s) => s.answer g q (if k = .write then q.ack else q.reply false (s.nameView g q v))
          | (.wait, s) =>
            let held := s.isGrowing q || s.regionFrozen g q.ctx
            s.modRequest g id fun q => { q with state := q.state.await held (s.tile (gidTile g)).cycle }
      match q.state with
      | .pending | .waiting _ | .paused _ => attempt s
      | _ => s

/-- FOLD_STALL_TIMEOUT: a count that exceeds the bound raises cause 0x0B, R239. -/
def stallOut (s : State) (g id : Nat) : State :=
  match s.request? g id with
  | none => s
  | some q =>
    match s.fold? q.ctx (stampS q.a0) with
    | some f =>
      if 79 ≤ q.op ∧ q.op ≤ 81 ∧ q.state.exceeds f.lay.bound (s.tile (gidTile g)).cycle then s.failRequest g q 0x0B (f.lay.normal q.a0) else s
    | none => s

end State

def execAliasChainRequest (gid id : Nat) (s : State) : Out := settle (s.chainRequest gid id)
def execChainStateRelease (tile n : Nat) (s : State) : Out := .next (s.releaseChain tile n)
def execMemoryReply (gid id : Nat) (s : State) : Out := .next (s.replyRequest gid id)
def execNamedAccess (gid id : Nat) (s : State) : Out := settle (s.tryNamed gid id)
/-- OWNER_BUFFER_REFERRAL, R263. -/
def execOwnerBufferReferral (gid line : Nat) (s : State) : Out :=
  .next (if (s.elem gid).owner.any (·.line == line) then s.recallLine line else s)
/-- TRANSLATION_WALK: the walk fills the die's caches, R225, R228 and R229. -/
def execTranslationWalk (die ctx va : Nat) (s : State) : Out := settle (s.walk die ctx va).2

end Sys2Proof.Machine
end

