-- ==== Sys2Proof/Machine/DatumUnits.lean ====
section
/-! DEFINITION. Datum units: cells and their activation (R291–R293), histories (R294–R296), domains and watermarks
(R297, R298), the tests of an update (R299), and the reads of R303 and R304. -/

namespace Sys2Proof.Machine

/-! ## Lines, R292 -/

/-- The datum unit of a line: the stack of its home and the pseudo-channel there, R291 and R383. -/
def unitOf (line : Nat) : Nat := 32 * (line / 4096 % 8) + Config.channel line % 32

def DatumCell.ofLine (line x : Nat) : DatumCell :=
  { line := line, dom := bitsOf x 149 144, cls := bitsOf x 137 136, hm1 := bitsOf x 135 133, bv := x.testBit 129, v := x.testBit 128,
    bstamp := bitsOf x 127 64, base := bitsOf x 63 0 }

/-- The backing line as DSETUP and the units write it, reserved bits zero. -/
def DatumCell.toLine (k : DatumCell) : Nat :=
  k.dom <<< 144 ||| k.cls <<< 136 ||| k.hm1 <<< 133 ||| (if k.bv then 1 <<< 129 else 0) ||| (if k.v then 1 <<< 128 else 0)
    ||| k.bstamp <<< 64 ||| k.base

/-! ## Histories, R294–R296 -/

/-- The value after one entry, R295. -/
def Update.apply (u : Update) (cls x : Nat) : Nat :=
  match u.op with
  | 0 =>
    let v := Val.add (Val.mul (decodeVal 0 (bitsOf u.p 31 0)) (decodeVal 0 (x % 2 ^ 32))) (decodeVal 0 (bitsOf u.p 63 32))
    match encodeVal 0 .rne v with | .ok p => p | .error _ => canonicalNan 0
  | 1 => (wrap64 (sextNat (bitsOf u.p 63 0) 64 * sextNat x 64 + sextNat (bitsOf u.p 127 64) 64)).toNat
  | 2 => if cls = 0 then u.p % 2 ^ 32 else u.p % 2 ^ 64
  | _ => (x <<< 16 ||| u.p % 2 ^ 16) % 2 ^ 64

/-- The key order of a history, R294. -/
def Update.before (a b : Update) : Bool :=
  a.stamp < b.stamp || (a.stamp == b.stamp && (a.op < b.op || (a.op == b.op && a.p ≤ b.p)))

/-- An entry takes the first position whose entry has a greater key, R296. -/
def Update.insert (u : Update) : List Update → List Update
  | [] => [u]
  | e :: r => if e.before u then e :: u.insert r else u :: e :: r

/-- BASE with some entries applied in order: a prefix of R294. -/
def DatumCell.after (k : DatumCell) (us : List Update) : Nat := us.foldl (fun x u => u.apply k.cls x) k.base
def DatumCell.tentative (k : DatumCell) : Nat := k.after k.hist
/-- The value as of stamp `t`, R304. -/
def DatumCell.asOf (k : DatumCell) (t : Nat) : Nat := k.after (k.hist.takeWhile fun u => u.stamp ≤ t)
/-- The entries with a stamp at or below the watermark fold into BASE, R298. -/
def DatumCell.settle (k : DatumCell) (wm : Nat) : DatumCell :=
  let gone := k.hist.takeWhile fun u => u.stamp ≤ wm
  match gone.getLast? with
  | none => k
  | some u => { k with base := k.after gone, bstamp := u.stamp, bv := true, hist := k.hist.drop gone.length }

/-- The class accepts the operation, R294. -/
def classAccepts (cls op : Nat) : Bool := op == 2 || (cls == 0 && op == 0) || (cls == 1 && op == 1) || (cls == 2 && op == 3)

namespace State

/-- A unit's copy of a domain's watermark; none while it is not valid. -/
def unitMark (s : State) (line dom : Nat) : Option Nat := SMap.get? s.unitWm (256 * dom + unitOf line)
def cell? (s : State) (line : Nat) : Option DatumCell := s.cells.find? (·.line == line)
def putCell (s : State) (k : DatumCell) : State :=
  if s.cells.any (·.line == k.line) then { s with cells := s.cells.map fun c => if c.line = k.line then k else c }
  else { s with cells := s.cells ++ [k] }

/-- BASE, BSTAMP and BV go back to the line, R293 and R298: the other bits of the byte that holds BV, and the rest of the line, stay. -/
def writeBack (s : State) (k : DatumCell) : State :=
  let b := s.bytesAt .hbm (k.line + 16) 1
  let b := if k.bv then b ||| 2 else b &&& 0xFD
  s.perform .hbm k.line 17 (k.base + k.bstamp * 2 ^ 64 + b * 2 ^ 128)

/-- The address checks of R301 and R291: the physical address of the line, or the cause; elements act without
supervisor state (R227). -/
def cellPlace (s : State) (die c a : Nat) (write sup : Bool) : Except Nat Nat × State :=
  if a % 64 ≠ 0 then (.error 0x03, s)
  else
    match s.translate die c a with
    | (none, s) => (.error 0x05, s)
    | (some l, s) =>
      let e := l.entry
      if pteLoc e ≠ 0 ∨ !pteNh e ∨ !pteRd e ∨ !pteW e ∨ (pteSo e ∧ !sup) then (.error 0x06, s)
      else
        let pa := (l.place a).2
        if !physExists .hbm pa 64 then (.error 0x05, { s with absent := some pa })
        else (.ok pa, if write then s.markDirty die l else s)

/-- The least recently used cell of a unit whose history is empty. -/
def idleCell (s : State) (unit : Nat) : Option DatumCell :=
  (s.cells.filter fun k => unitOf k.line == unit && k.hist == []).foldl (fun best k =>
    match best with
    | some b => if k.used < b.used then some k else some b
    | none => some k) none

/-- What an access that needs a cell finds: the cell, a wait for a position, or a cause. -/
inductive Found where
  | cell (k : DatumCell)
  | wait
  | cause (c : Nat)
  deriving DecidableEq, Repr

/-- A cell is made active, R293. -/
def activate (s : State) (line : Nat) : Found × State :=
  match s.cell? line with
  | some k => let k := { k with used := s.serial }; (.cell k, s.tick.putCell k)
  | none =>
    match s.hbm.readCause line 64 with
    | some c => (.cause c, s)
    | none =>
      let load (s : State) : Found × State :=
        let s := s.correct (line / 4096 % 8 / 2) .hbm line 64
        let k := { DatumCell.ofLine line (s.bytesAt .hbm line 64) with used := s.serial }
        (.cell k, s.tick.putCell k)
      if (s.cells.filter fun k => unitOf k.line == unitOf line).length < 512 then load s
      else
        match s.idleCell (unitOf line) with
        | none => (.wait, s)
        | some k => load (({ s with cells := s.cells.filter fun c => c.line != k.line } : State).writeBack k)

/-- The tests of R299 on an update. -/
def updateCause (s : State) (k : DatumCell) (u : Update) : Option Nat :=
  if !k.v || k.cls == 3 || (SMap.get? s.domains k.dom).isNone || !classAccepts k.cls u.op then some 0x01
  else if (k.bv && u.stamp ≤ k.bstamp) || (match s.unitMark k.line k.dom with | some w => u.stamp ≤ w | none => false) then some 0x0F
  else if k.hm1 + 1 ≤ k.hist.length then some 0x0E
  else none

def updateOf (q : Request) : Update := ⟨q.a1, q.w.sub.toNat, q.data % 2 ^ (Min.min 128 (8 * q.bytes))⟩

/-- A DUPD at its unit: inserted, made to wait, or refused with a cause and value, R296, R299 and R301. -/
def insertUpdate (s : State) (g : Nat) (q : Request) : Except (Nat × Nat) Bool × State :=
  match s.cellPlace (tileDie (gidTile g)) q.ctx q.a0 true false with
  | (.error c, s) => (.error (c, q.a0), s)
  | (.ok line, s) =>
    match s.activate line with
    | (.cause c, s) => (.error (c, q.a0), s)
    | (.wait, s) => (.ok false, s)
    | (.cell k, s) =>
      let u := updateOf q
      match s.updateCause k u with
      | some 0x01 => (.error (0x01, 0), s)
      | some c => (.error (c, u.stamp), s)
      | none => (.ok true, s.putCell { k with hist := u.insert k.hist })

/-- The status beat of R303. -/
def statusBeat (s : State) (k : DatumCell) (value : Nat) : Nat :=
  let wm := s.unitMark k.line k.dom
  (if k.bv then k.bstamp <<< 192 else 0) ||| k.cls <<< 134 ||| (if k.bv then 1 <<< 133 else 0)
    ||| (if wm.isSome then 1 <<< 132 else 0) ||| k.hist.length <<< 128 ||| (wm.getD 0) <<< 64 ||| value

/-- The first test of R299, which a read of a cell makes as well (DEDUCED from R309 and R311): a line that is no cell, or a domain that is not
active. -/
def cellUnfit (s : State) (k : DatumCell) : Bool := !k.v || k.cls == 3 || (SMap.get? s.domains k.dom).isNone

/-- What a DLDS as of stamp `t` finds at a cell whose watermark has passed `t`, R304. -/
def answerAsOf (s : State) (g : Nat) (q : Request) (k : DatumCell) : State :=
  if k.bv ∧ q.a1 < k.bstamp then s.failRequest g q 0x0A q.a1
  else s.answer g q (q.reply false (s.statusBeat k (k.asOf q.a1)))

/-- The unit's copy of the watermark has reached stamp `t`. -/
def markPassed (s : State) (line dom t : Nat) : Bool := match s.unitMark line dom with | some wm => decide (t ≤ wm) | none => false

/-- DLDT and DLDS at the unit, R303 and R304. A DLDS above the watermark waits at the cell; one that has waited is answered once the
watermark has passed its stamp and its region is not frozen. -/
def readCell (s : State) (g : Nat) (q : Request) : State :=
  if q.state.waits && (s.regionFrozen g q.ctx || !s.markPassed q.line q.dom q.a1) then s
  else
    match s.cellPlace (tileDie (gidTile g)) q.ctx q.a0 false false with
    | (.error c, s) => s.failRequest g q c q.a0
    | (.ok line, s) =>
      match s.activate line with
      | (.cause c, s) => s.failRequest g q c q.a0
      | (.wait, s) => s
      | (.cell k, s) =>
        if s.cellUnfit k then s.failRequest g q 0x01 0
        else if q.op = 92 then s.answer g q (q.reply false (s.statusBeat k k.tentative))
        else if s.markPassed line k.dom q.a1 then s.answerAsOf g q k
        else s.modRequest g q.id fun q => { q with state := .waiting 0, line := line, dom := k.dom }

/-- A DLDS that waits at a cell of a domain. -/
def waitsAt (q : Request) (dom : Nat) : Bool := q.op == 93 && q.dom == dom && q.state.waits

/-! ## Frontiers, R297 and R305 -/

/-- c(p) − and WM of a domain: none while a frontier is 0. -/
def watermark (d : Domain) : Option Nat :=
  (List.range d.p).foldl (fun m p =>
    match m, SMap.getD d.f p 0 with
    | some w, f + 1 => some (Min.min w (if f + 1 = 2 ^ 64 - 1 then 2 ^ 64 - 1 else f))
    | _, _ => none) (some (2 ^ 64 - 1))

/-- The keeper applies a frontier: it never falls, and a watermark that has risen is sent to the units. -/
def applyFrontier (s : State) (dom p f : Nat) : State :=
  match SMap.get? s.domains dom with
  | none => s
  | some d =>
    let d := { d with f := SMap.set d.f p (Max.max (SMap.getD d.f p 0) f) }
    let d := match watermark d with
      | none => d
      | some w => if d.wv ∧ w ≤ d.wm then d else { d with wv := true, wm := w, formed := d.formed ++ [w] }
    { s with domains := SMap.set s.domains dom d }

/-- Every unit has received watermark `wm` of a domain. -/
def marksReached (s : State) (dom wm : Nat) : Bool :=
  match SMap.get? s.domains dom with
  | none => true
  | some d => !d.wv || (List.range 256).all fun u => match SMap.get? s.unitWm (256 * dom + u) with | some w => wm ≤ w | none => false

/-- KEEPER_FRONTIER_APPLY: a DFRONT whose element's earlier updates have been inserted reaches the keeper, R305. -/
def applyDfront (s : State) (g id : Nat) : State :=
  match s.request? g id with
  | none => s
  | some q =>
    if q.op ≠ 94 ∨ q.state ≠ .pending ∨ q.inst.isSome then s
    else
      let dom := q.b0 % 64
      let p := q.b0 / 256 % 256
      match SMap.get? s.domains dom with
      | none => s.failRequest g q 0x01 q.b0
      | some d =>
        if d.p ≤ p then s.failRequest g q 0x01 q.b0
        else if (s.elem g).reqs.any fun r => r.op == 91 && r.ctx == q.ctx && r.id < q.id && r.state.live then s
        else
          let s := s.applyFrontier dom p q.a0
          match SMap.get? s.domains dom with
          | some d =>
            if s.marksReached dom d.wm then s.answer g q q.pass
            else s.modRequest g id fun q => { q with state := .posted d.wm }
          | none => s

/-- The cell of a line as its unit holds it, or, where it is not active, as its backing line does. -/
def cellOrLine (s : State) (line : Nat) : DatumCell := (s.cell? line).getD (DatumCell.ofLine line (s.bytesAt .hbm line 64))

/-- The DLDSs that a risen watermark of a domain answers at a unit, R298 step 1. Those of a frozen region wait no more and are not
answered, R304. -/
def answerWaiting (s : State) (unit dom wm : Nat) : State :=
  s.elems.foldl (fun s e =>
    (e.2.reqs.filter fun q => waitsAt q dom && unitOf q.line == unit && decide (q.a1 ≤ wm) && !s.regionFrozen e.1 q.ctx).foldl
      (fun s q => s.answerAsOf e.1 q (s.cellOrLine q.line)) s) s

/-- WATERMARK_RISE: a unit takes the next value that the keeper has formed, and each of its cells answers, folds and writes
back, R298. -/
def riseMark (s : State) (unit dom : Nat) : State :=
  match SMap.get? s.domains dom with
  | none => s
  | some d =>
    match d.formed.find? fun w => match SMap.get? s.unitWm (256 * dom + unit) with | some v => v < w | none => true with
    | none => s
    | some wm =>
      let s := ({ s with unitWm := SMap.set s.unitWm (256 * dom + unit) wm } : State).answerWaiting unit dom wm
      let s := (s.cells.filter fun k => k.dom == dom && k.v && unitOf k.line == unit).foldl (fun s k =>
        let k' := k.settle wm
        if k' = k then s else (s.putCell k').writeBack k') s
      -- DFRONTs that waited for the units are answered, R305
      s.mapRequests fun q =>
        match q.state with
        | .posted w => if q.b0 % 64 = dom ∧ s.marksReached dom w then { q with state := .performed q.pass } else q
        | _ => q

/-- CELL_ACTIVATION: a line that a datum request in progress names becomes active, R293. -/
def activateWanted (s : State) (line : Nat) : State :=
  let wanted := s.elems.any fun e => e.2.reqs.any fun q =>
    decide (91 ≤ q.op) && decide (q.op ≤ 93) && q.state == .pending
      && (match (s.cellPlace (tileDie (gidTile e.1)) q.ctx q.a0 false false).1 with | .ok pa => pa == line | .error _ => false)
  if wanted then (s.activate line).2 else s

/-- DATUM_INSERTION, R296. -/
def tryInsert (s : State) (g id : Nat) : State :=
  match s.request? g id with
  | none => s
  | some q =>
    if q.op ≠ 91 ∨ q.state ≠ .pending ∨ q.inst.isSome then s
    else
      match s.insertUpdate g q with
      | (.error e, s) => s.failRequest g q e.1 e.2
      | (.ok true, s) => s.answer g q q.ack
      | (.ok false, s) => s

end State

/-- MEMORY_REQUEST_PERFORM: a request of an element at its home, or the n-th store in flight, R276. -/
def execMemoryRequestPerform (r : MemRef) (s : State) : Out :=
  settle (match r with
    | .element g id =>
      match s.request? g id with
      | some q => if (q.op = 92 ∧ q.state = .pending) ∨ (q.op = 93 ∧ (q.state = .pending ∨ q.state.waits = true)) then s.readCell g q else s.performRequest g id
      | none => s
    | .store n => s.performStore n)
def execCellActivation (line : Nat) (s : State) : Out := settle (s.activateWanted line)
def execDatumInsertion (gid id : Nat) (s : State) : Out := settle (s.tryInsert gid id)
def execKeeperFrontierApply (gid id : Nat) (s : State) : Out := .next (s.applyDfront gid id)
def execWatermarkRise (unit dom : Nat) (s : State) : Out := .next (s.riseMark unit dom)

end Sys2Proof.Machine
end

