-- ==== Sys2Proof/Machine/Blocks.lean ====
section
/-! DEFINITION. The commit and the discard of block instances, R119, R240, R253, R287 and R306. -/

namespace Sys2Proof.Machine

/-- What one buffered access does at the commit: it is performed, it waits, or it would fault. -/
inductive Commit where
  | done (s : State)
  | wait
  | fault (cause : Nat)

namespace State

/-- A buffered access performed as part of the commit. -/
def commitOne (s : State) (b : Buffered) : Commit :=
  let q := b.req
  let g := b.gid
  if q.op = 80 then
    match s.namedAccess g q.ctx .write q.a0 q.data with
    | (.wait, _) => .wait
    | (.fault c _, _) => .fault c
    | (.done _, s) => .done s
  else if q.op = 91 then
    match s.insertUpdate g q with
    | (.error e, _) => .fault e.1
    | (.ok false, _) => .wait
    | (.ok true, s) => .done (s.answer g q q.ack)
  else
    match s.checkRequest g q with
    | (.error e, _) => .fault e.1
    | (.ok ps, s) =>
      if q.op = 83 then
        let s := s.enterChain g q
        match (s.tile (gidTile g)).chains.find? q.chainOf with
        | none => .wait
        | some k =>
          if q.src.itr.toNat = k.ei ∧ q.seqNo < k.es then .fault 0x01
          else if q.src.itr.toNat = k.ei ∧ q.seqNo = k.es then
            .done (((s.piecesHome (elemAgent g) ps).writePieces q.ctx q.data ps).advanceChain g q)
          else .wait
      else if q.op = 86 then .done (s.setEmpty ps)
      else if q.op = 87 then
        match ps with
        | [(sp, a, n)] =>
          let r := (s.atHome (elemAgent g) none sp a n).versioned sp a n q.data q.a1
          .done (r.2.2.answer g q (q.lanes r.2.1 (r.1.map (intPat q.rfmt))))
        | _ => .done s
      else
        match s.performOwner g q ps with
        | (.error c, _) => .fault c
        | (.ok (m, wrote), s) => .done (s.answer g q (q.ownerReply m wrote))

/-- The buffered accesses in the order of firing: the state, the chained stores whose turn has not come, and the access that waits or
faults, if any. -/
def commitPass (s : State) : List Buffered → State × List Buffered × Option (Buffered × Option Nat)
  | [] => (s, [], none)
  | b :: r =>
    match s.commitOne b with
    | .done s => s.commitPass r
    | .fault c => (s, [], some (b, some c))
    | .wait =>
      if b.req.op = 83 then
        let (s, late, x) := s.commitPass r
        (s, b :: late, x)
      else (s, [], some (b, none))

/-- The buffered accesses as one step, with the access that waits or faults. A chained store whose predecessor fired after it takes its
turn in a later pass, R258 and R287; each pass but the last performs one. -/
def commitAll (s : State) : Nat → List Buffered → Commit × Option Buffered
  | 0, bs => (.wait, bs.head?)
  | n + 1, bs =>
    match s.commitPass bs with
    | (_, _, some (b, some c)) => (.fault c, some b)
    | (_, _, some (b, none)) => (.wait, some b)
    | (s, [], none) => (.done s, none)
    | (s, b :: r, none) => if (b :: r).length = bs.length then (.wait, some b) else s.commitAll n (b :: r)

/-- An instance is over: its reservation is released. -/
def endInstance (s : State) (id : Nat) : State := { s with insts := s.insts.filter (·.id != id) }

/-- Every request that waited for the commit goes on by itself: a DFRONT, R306. -/
def freeInstance (s : State) (id : Nat) : State :=
  s.mapRequests fun q => if q.inst = some id then { q with inst := none } else q

/-- The requests that waited for the commit are gone. -/
def dropInstance (s : State) (id : Nat) : State :=
  s.elems.foldl (fun s e => s.modElem e.1 fun el => { el with reqs := el.reqs.filter fun q => q.inst != some id }) s

/-- Every held chain position becomes a skip request, R253. -/
def skipHeld (s : State) (bs : List Buffered) : State :=
  (bs.filter fun b => b.req.op == 83).foldl (fun s b =>
    (s.modElem b.gid fun e => { e with reqs := e.reqs ++ [{ b.req with skip := true, inst := none, state := .pending }] }).enterChain b.gid b.req) s

/-- A discard: nothing that was held is performed, and the region receives cause 0x17, R119. -/
def discard (s : State) (i : Instance) (cause : Nat) : State :=
  let s := ((s.dropInstance i.id).skipHeld i.buffer).endInstance i.id
  s.elemFault i.block.exit.1 i.block.ctx i.block.exit.2 0x17 (word (cause % 64)) none false

/-- BLOCK_COMMIT: at the exit token the instance's accesses are performed together or discarded, R119 and R287. -/
def commitBlock (s : State) (id : Nat) : State :=
  match s.insts.find? (·.id == id) with
  | none => s
  | some i =>
    if !i.atExit then s
    else
      match i.cause with
      | some c => s.discard i c.1
      | none =>
        match s.commitAll (i.buffer.length + 1) i.buffer with
        | (.done s, _) => (s.freeInstance id).endInstance id
        | (.fault c, _) => s.discard i c
        | (.wait, some b) =>
          s.modInst id fun j =>
            if b.req.op ≠ 80 then { j with stall := none }
            else
              let since : ReqState := match j.stall with
                | some (g, r, st) => if g = b.gid ∧ r = b.req.id then st else .pending
                | none => .pending
              let held := s.isGrowing b.req || s.regionFrozen b.gid b.req.ctx
              { j with stall := some (b.gid, b.req.id, since.await held (s.tile (gidTile b.gid)).cycle) }
        | (.wait, none) => s

/-- FOLD_STALL_TIMEOUT of a named write that delays a commit, R239 and R240. -/
def stallCommit (s : State) (g id : Nat) : State :=
  match s.insts.find? fun i => match i.stall with | some (h, r, _) => h == g && r == id | none => false with
  | none => s
  | some i =>
    match i.stall, (i.buffer.find? fun b => b.gid == g && b.req.id == id).bind fun b => s.fold? b.req.ctx (stampS b.req.a0) with
    | some (_, _, st), some f => if st.exceeds f.lay.bound (s.tile (gidTile g)).cycle then s.discard i 0x0B else s
    | _, _ => s

end State

def execBlockCommit (inst : Nat) (s : State) : Out := settle (s.commitBlock inst)
def execFoldStallTimeout (gid id : Nat) (s : State) : Out := .next ((s.stallOut gid id).stallCommit gid id)

end Sys2Proof.Machine
end

