-- ==== Sys2Proof/Machine/ElemConvert.lean ====
section
/-! DEFINITION. Conversions and scales, op 32–37, R158, and comparisons, op 38–41, R159. -/

namespace Sys2Proof.Machine

/-- A lane scaled by `sc` and rounded, with the cases of R145. -/
def scaleLane (fr : Nat) (mode : Rnd) (sc v : Val) : Except Nat Nat :=
  match scaleVal sc v with
  | .error o => .error o
  | .ok y => encodeVal fr mode y

/-- s_A, the scale latched for A's colour, R52 and R145. -/
def Firing.scaleA (F : Firing) (x : ElemCtx) : Val :=
  match F.a with
  | some a => decodeScale (x.entry a.token.tag.col.toNat).sfmt.toNat a.scale.toNat
  | none => .nan

/-- A comparison, R159: 1 or 0 in each lane, and PRD when it holds in every lane. -/
def compareLanes (f : Val → Val → Bool) (x : ElemCtx) (F : Firing) : Token :=
  let a := F.la x
  let b := F.lb x
  let hs := (List.range (x.width F.w.col.toNat)).map fun j => f (a.val j) (b.val j)
  F.pack x { F.tag with prd := hs.all (·) } (hs.map fun h => encodeVal (x.outFmt F.w.col) .rne (Val.ofInt (if h then 1 else 0)))

/-- CVT, R158. -/
def fireCvt (w : OpWord) (s : State) : Option State := s.fireBy w 32 (pureOp fun x F => let a := F.la x; F.each x fun j => convLane a.fmt (x.outFmt F.w.col) (rndOf F.w.sub) (a.conv j))
def execCvt (w : OpWord) (s : State) : Out := s.after (fireCvt w s)

/-- CVTR, R158: A · 2^k with one rounding, k the low 16 bits of B. -/
def fireCvtr (w : OpWord) (s : State) : Option State := s.fireBy w 33 (pureOp fun x F => let a := F.la x; let b := F.lb x
    F.each x fun j => encodeVal (x.outFmt F.w.col) (rndOf F.w.sub) ((a.val j).scale2 (sextNat (wrapBits 16 (b.int j)) 16)))
def execCvtr (w : OpWord) (s : State) : Out := s.after (fireCvtr w s)

/-- PACK, R158. -/
def firePack (w : OpWord) (s : State) : Option State := s.fireBy w 34 (pureOp fun x F => let a := F.la x; let b := F.lb x
    F.each x fun j => if j < a.pats.length then convLane a.fmt (x.outFmt F.w.col) .rne (a.own j)
      else convLane b.fmt (x.outFmt F.w.col) .rne (b.own (j - a.pats.length)))
def execPack (w : OpWord) (s : State) : Out := s.after (firePack w s)

/-- UNPACK, R158. -/
def fireUnpack (w : OpWord) (s : State) : Option State := s.fireBy w 35 (pureOp fun x F => let a := F.la x; F.each x fun j => convLane a.fmt (x.outFmt F.w.col) .rne (a.own (F.b0 x + j)))
def execUnpack (w : OpWord) (s : State) : Out := s.after (fireUnpack w s)

/-- SCALE, R158. -/
def fireScale (w : OpWord) (s : State) : Option State := s.fireBy w 36 (pureOp fun x F => let a := F.la x
    let sc := if F.w.sb = 15 then F.scaleA x else (F.lb x).val 0
    F.each x fun j => scaleLane (x.outFmt F.w.col) .rne sc (a.val j))
def execScale (w : OpWord) (s : State) : Out := s.after (fireScale w s)

/-- QNT, R158: the scale byte of the result colour's legend entry, read as E8M0. -/
def fireQnt (w : OpWord) (s : State) : Option State := s.fireBy w 37 (pureOp fun x F => let a := F.la x
    let c := (x.entry F.w.col.toNat).scl.toNat % 256
    F.each x fun j => if c = 255 then .error 5 else scaleLane (x.outFmt F.w.col) (rndOf F.w.sub) (.fin false 1 (127 - (c : Int))) (a.val j))
def execQnt (w : OpWord) (s : State) : Out := s.after (fireQnt w s)

/-- CMPEQ, R159. -/
def fireCmpeq (w : OpWord) (s : State) : Option State := s.fireBy w 38 (pureOp (compareLanes Val.eq))
def execCmpeq (w : OpWord) (s : State) : Out := s.after (fireCmpeq w s)

/-- CMPNE, R159. -/
def fireCmpne (w : OpWord) (s : State) : Option State := s.fireBy w 39 (pureOp (compareLanes fun a b => !Val.eq a b))
def execCmpne (w : OpWord) (s : State) : Out := s.after (fireCmpne w s)

/-- CMPLT, R159. -/
def fireCmplt (w : OpWord) (s : State) : Option State := s.fireBy w 40 (pureOp (compareLanes Val.lt))
def execCmplt (w : OpWord) (s : State) : Out := s.after (fireCmplt w s)

/-- CMPLE, R159. -/
def fireCmple (w : OpWord) (s : State) : Option State := s.fireBy w 41 (pureOp (compareLanes fun a b => Val.lt a b || Val.eq a b))
def execCmple (w : OpWord) (s : State) : Out := s.after (fireCmple w s)

end Sys2Proof.Machine
end

