-- ==== Sys2Proof/Machine/ElemSteer.lean ====
section
/-! DEFINITION. Steering and merging, op 42–47 (R155, R160), and the miscellaneous operations, op 98–104 (R170). -/

namespace Sys2Proof.Machine

/-- A operation that emits nothing at dst: errors, null tokens and pm end the firing, else `k` acts, R106. -/
def quietly (k : State → Firing → Option State) (s : State) (F : Firing) : Option Deed :=
  if F.erring.isSome || F.anyNull then Firing.quiet s
  else
    match verdict F.w.pm F.prdA with
    | .compute => (k s F).map fun s => ⟨s, none⟩
    | _ => Firing.quiet s

/-- MERGE and MERGEO emit the token they have taken, whatever its kind, with col and tg, R160; pm gates a token that is neither null
nor in error as it gates any op, R105 and R155. -/
def passOn (s : State) (F : Firing) : Option Deed :=
  match F.a with
  | none => Firing.quiet s
  | some a =>
    let t : Token := ⟨{ a.token.tag with col := F.w.col, itr := F.tag.itr }, a.token.beats⟩
    if F.erring.isSome || F.anyNull then F.emit s t
    else
      match verdict F.w.pm F.prdA with
      | .nothing => Firing.quiet s
      | .null => F.emit s (nullToken F.tag)
      | .compute => F.emit s t

/-- MERGEO: an emission passes the turn to the other source, R160. DEDUCED: a token that pm keeps from being emitted is consumed and
the turn stays. -/
def passInTurn (s : State) (F : Firing) : Option Deed :=
  match passOn s F with
  | some ⟨s, some o⟩ =>
    some ⟨s.modEctx F.g F.c fun x =>
      { x with turnB := if x.turnB.contains F.n then NSet.erase x.turnB F.n else NSet.insert x.turnB F.n }, some o⟩
  | d => d

/-- Operand B's PRD; a source that is no token has none. -/
def Firing.prdB (F : Firing) : Bool := match F.b with | some b => b.token.tag.prd | none => false

/-- The half of dst that a predicate selects: N and E for 1, S and W for 0, R160. -/
def halfOf (dst : BitVec 4) (prd : Bool) : BitVec 4 := if prd then dst &&& 12 else dst &&& 3

/-- B's token under the tag of the result, or the lanes of a constant B. -/
def Firing.sameB (F : Firing) (x : ElemCtx) : Token :=
  match F.b with
  | some b => ⟨{ F.tag with prd := b.token.tag.prd }, b.token.beats⟩
  | none => F.lanesOfB x F.tag

/-- NULLGEN fires on a null token as on any other, R155. -/
def nullgen (s : State) (F : Firing) : Option Deed :=
  match F.erring with
  | some t => F.emit s (forwardError F.tag t)
  | none =>
    match verdict F.w.pm F.prdA with
    | .nothing => Firing.quiet s
    | _ => F.emit s { nullToken F.tag with tag := { (nullToken F.tag).tag with prd := resultPrd F.w.pm F.prdA false } }

/-- The upward path accepts a token: no beat of its colour and context is held at the tile input, R16 and R175. -/
def State.upRoom (s : State) (t : Nat) (tag : Tag) : Bool := !(s.tile t).held.any (·.onColour tag.ctx.toNat tag.col.toNat)
/-- Its beats come to the tile input; a colour without a binding holds them there, which is an event of IDLE too (R77). -/
def State.sendUp (s : State) (t : Nat) (k : Token) : State :=
  s.modTile t fun T =>
    let T := { T with held := T.held ++ k.toBeats }
    if (T.binding k.tag.ctx.toNat k.tag.col.toNat).isNone then T.idleEvent else T

/-- COPYT: what it emits also goes up the tile bus; with dst = 0 it goes there alone, R106 and R170. -/
def copyUp (s : State) (F : Firing) : Option Deed :=
  match regular (fun s F => F.emit s (F.same (s.ectx F.g F.c) F.tag)) s F with
  | some ⟨s, some (t, m)⟩ =>
    if s.upRoom (gidTile F.g) t.tag then some ⟨s.sendUp (gidTile F.g) t, if F.w.dst = 0 then none else some (t, m)⟩ else none
  | d => d

/-- ERRCHK takes an error token as a value, which pm gates as it gates any other, R155 and R170. -/
def errorCheck (s : State) (F : Firing) : Option Deed :=
  match F.a with
  | some a =>
    if a.token.tag.err then
      match verdict F.w.pm F.prdA with
      | .nothing => Firing.quiet s
      | .null => F.emit s (nullToken F.tag)
      | .compute =>
        let t := F.naturals (s.ectx F.g F.c) [a.token.orig, a.token.errLane]
        F.emit s (if t.tag.err then t else { t with tag := { t.tag with prd := resultPrd F.w.pm F.prdA true } })
    else regular (fun s F => let t := F.same (s.ectx F.g F.c) F.tag; F.emit s { t with tag := { t.tag with prd := false } }) s F
  | none => regular (fun s F => let t := F.same (s.ectx F.g F.c) F.tag; F.emit s { t with tag := { t.tag with prd := false } }) s F

/-- STEER, R160. -/
def fireSteer (w : OpWord) (s : State) : Option State := s.fireBy w 42 (regular fun s F =>
    let t := F.same (s.ectx F.g F.c) F.tag
    some ⟨s, some ({ t with tag := { t.tag with prd := F.prdB } }, halfOf F.w.dst F.prdB)⟩)
def execSteer (w : OpWord) (s : State) : Out := s.after (fireSteer w s)

/-- MERGE, R160. -/
def fireMerge (w : OpWord) (s : State) : Option State := s.fireBy w 43 passOn
def execMerge (w : OpWord) (s : State) : Out := s.after (fireMerge w s)

/-- MERGEO, R160: each emission passes the turn to the other source. -/
def fireMergeo (w : OpWord) (s : State) : Option State := s.fireBy w 44 passInTurn
def execMergeo (w : OpWord) (s : State) : Out := s.after (fireMergeo w s)

/-- GATE, R160. -/
def fireGate (w : OpWord) (s : State) : Option State := s.fireBy w 45 (pureOp fun x F => F.same x F.tag)
def execGate (w : OpWord) (s : State) : Out := s.after (fireGate w s)

/-- SELP, R160. -/
def fireSelp (w : OpWord) (s : State) : Option State := s.fireBy w 46 (pureOp fun x F => if F.prdA then F.same x F.tag else F.sameB x)
def execSelp (w : OpWord) (s : State) : Out := s.after (fireSelp w s)

/-- NULLGEN, R160. -/
def fireNullgen (w : OpWord) (s : State) : Option State := s.fireBy w 47 nullgen
def execNullgen (w : OpWord) (s : State) : Out := s.after (fireNullgen w s)

/-- NOP, R170. -/
def fireNop (w : OpWord) (s : State) : Option State := s.fireBy w 98 (pureOp fun x F => F.same x F.tag)
def execNop (w : OpWord) (s : State) : Out := s.after (fireNop w s)

/-- CONST, R170. -/
def fireConst (w : OpWord) (s : State) : Option State := s.fireBy w 99 (pureOp fun x F => F.lanesOfB x F.tag)
def execConst (w : OpWord) (s : State) : Out := s.after (fireConst w s)

/-- COPYT, R170. -/
def fireCopyt (w : OpWord) (s : State) : Option State := s.fireBy w 100 copyUp
def execCopyt (w : OpWord) (s : State) : Out := s.after (fireCopyt w s)

/-- SINK, R155 and R170. -/
def fireSink (w : OpWord) (s : State) : Option State := s.fireBy w 101 (fun s _ => Firing.quiet s)
def execSink (w : OpWord) (s : State) : Out := s.after (fireSink w s)

/-- ERRCHK, R170. -/
def fireErrchk (w : OpWord) (s : State) : Option State := s.fireBy w 102 errorCheck
def execErrchk (w : OpWord) (s : State) : Out := s.after (fireErrchk w s)

/-- TRAPE, R170: cause 0x08 with A's lane 0. -/
def fireTrape (w : OpWord) (s : State) : Option State := s.fireBy w 103 (quietly fun s F => some (s.fireFault F 0x08 (word (F.la (s.ectx F.g F.c)).first)))
def execTrape (w : OpWord) (s : State) : Out := s.after (fireTrape w s)

/-- BRK, R170: cause 0x09. -/
def fireBrk (w : OpWord) (s : State) : Option State := s.fireBy w 104 (quietly fun s F => some (s.fireFault F 0x09 0))
def execBrk (w : OpWord) (s : State) : Out := s.after (fireBrk w s)

end Sys2Proof.Machine
end

