-- ==== Sys2Proof/Machine/MemNodes.lean ====
section
/-! DEFINITION. Memory nodes, op 79–90 (R247–R265). -/

namespace Sys2Proof.Machine

namespace State

/-- The request of a firing, with everything that its performance reads, R247–R249. -/
def newRequest (s : State) (F : Firing) (op : Nat) : Request :=
  let x := s.ectx F.g F.c
  let a := F.la x
  let b := F.lb x
  { id := s.serial, ctx := F.c, slot := F.n, op := op, w := F.w, ctl := x.const (F.n % 4), tag := F.tag, src := F.src, prdA := F.prdA,
    a0 := a.first, a1 := (match a.own 1 with | some p => wrapBits 64 (decodeInt a.fmt p) | none => 0), b0 := b.first,
    data := packLanes (fmtBits b.fmt) b.pats, bytes := (b.pats.length * fmtBits b.fmt + 7) / 8, bfmt := b.fmt,
    rfmt := x.outFmt F.w.col, rwid := x.width F.w.col.toNat, pass := F.same x F.tag }

def addRequest (s : State) (g : Nat) (q : Request) : State := s.tick.modElem g fun e => { e with reqs := e.reqs ++ [q] }

/-- A node of an alias class that performs no access sends a skip request to its chain, R250. -/
def skipChain (s : State) (F : Firing) (op : Nat) : State :=
  if isChained op then
    let q := { s.newRequest F op with skip := true }
    (s.addRequest F.g q).enterChain F.g q
  else s

/-- A request outside blocks: its address is checked before anything is sent; it enters its chain. -/
def sendRequest (s : State) (F : Firing) (q : Request) : State :=
  let s := s.addRequest F.g q
  if 82 ≤ q.op ∧ q.op ≤ 88 then
    match s.checkAll F.g q with
    | (.error e, s) =>
      let s := s.failRequest F.g q e.1 e.2
      -- inside a block the null token of the fault stands for the access, R119 and R250
      if (s.instanceOf F.g F.c F.n F.src).isSome then s.skipChain F q.op else s
    | (.ok _, s) => if isChained q.op then s.enterChain F.g q else s
  else s

/-- A store node inside an admitted instance: the access is held in the commit buffer, and NST and AST are acknowledged; the
result of VST, OUPD and DUPD leaves at the commit, R119, R253, R254 and R306. -/
def bufferRequest (s : State) (F : Firing) (q : Request) (i : Instance) : Option Deed :=
  let hold (s : State) : State := s.tick.modInst i.id fun j => { j with buffer := j.buffer ++ [⟨F.g, q⟩] }
  if q.op = 80 then F.emit (hold s) q.ack
  else if q.op = 83 then
    match s.checkRequest F.g q with
    | (.error e, s) => F.emit ((s.condemn i.id e.1 (word e.2)).skipChain F q.op) q.null
    | (.ok _, s) => F.emit (hold s) q.ack
  else Firing.quiet ((hold s).modElem F.g fun e => { e with reqs := e.reqs ++ [{ q with inst := some i.id }] })

/-- The request of a firing is issued; none where it would be the element's 33rd in progress, R251. -/
def issue (s : State) (F : Firing) (op : Nat) : Option Deed :=
  let q := s.newRequest F op
  let inside := s.instanceOf F.g F.c F.n F.src
  if isRequestOp op && !(inside.isSome && (op == 80 || op == 83)) && decide (32 ≤ (s.elem F.g).inProgress) then none
  else
  match inside with
  | some i =>
    if isStoreNode op then s.bufferRequest F q i
    else if op = 94 then Firing.quiet (s.addRequest F.g { q with inst := some i.id })
    else Firing.quiet (s.sendRequest F q)
  | none => Firing.quiet (s.sendRequest F q)

end State

/-- A memory node, R247 and R250: error and null operands and pm end the firing without an access, with the results in the
order of R107; else the request is sent. -/
def memNode (op : Nat) (s : State) (F : Firing) : Option Deed :=
  let out (t : Token) : Option Deed :=
    if op = 84 then Firing.quiet (s.skipChain F op)
    else if (s.elem F.g).earlier F.c F.n F.src then none
    else F.emit (s.skipChain F op) t
  match F.erring with
  | some t => out (forwardError F.tag t)
  | none =>
    if F.anyNull then out (nullToken F.tag)
    else
      match verdict F.w.pm F.prdA with
      | .nothing => Firing.quiet (s.skipChain F op)
      | .null => out (nullToken F.tag)
      | .compute => s.issue F op

/-- NLD, R254. -/
def fireNld (w : OpWord) (s : State) : Option State := s.fireBy w 79 (memNode 79)
def execNld (w : OpWord) (s : State) : Out := s.after (fireNld w s)

/-- NST, R254. -/
def fireNst (w : OpWord) (s : State) : Option State := s.fireBy w 80 (memNode 80)
def execNst (w : OpWord) (s : State) : Out := s.after (fireNst w s)

/-- NLDT, R254. -/
def fireNldt (w : OpWord) (s : State) : Option State := s.fireBy w 81 (memNode 81)
def execNldt (w : OpWord) (s : State) : Out := s.after (fireNldt w s)

/-- ALD, R256. -/
def fireAld (w : OpWord) (s : State) : Option State := s.fireBy w 82 (memNode 82)
def execAld (w : OpWord) (s : State) : Out := s.after (fireAld w s)

/-- AST, R256. -/
def fireAst (w : OpWord) (s : State) : Option State := s.fireBy w 83 (memNode 83)
def execAst (w : OpWord) (s : State) : Out := s.after (fireAst w s)

/-- ALDR, R257. -/
def fireAldr (w : OpWord) (s : State) : Option State := s.fireBy w 84 (memNode 84)
def execAldr (w : OpWord) (s : State) : Out := s.after (fireAldr w s)

/-- SLD, R260. -/
def fireSld (w : OpWord) (s : State) : Option State := s.fireBy w 85 (memNode 85)
def execSld (w : OpWord) (s : State) : Out := s.after (fireSld w s)

/-- SLDC, R260. -/
def fireSldc (w : OpWord) (s : State) : Option State := s.fireBy w 86 (memNode 86)
def execSldc (w : OpWord) (s : State) : Out := s.after (fireSldc w s)

/-- VST, R261. -/
def fireVst (w : OpWord) (s : State) : Option State := s.fireBy w 87 (memNode 87)
def execVst (w : OpWord) (s : State) : Out := s.after (fireVst w s)

/-- OUPD, R262. -/
def fireOupd (w : OpWord) (s : State) : Option State := s.fireBy w 88 (memNode 88)
def execOupd (w : OpWord) (s : State) : Out := s.after (fireOupd w s)

/-- FENCEE, R264. -/
def fireFencee (w : OpWord) (s : State) : Option State := s.fireBy w 89 (memNode 89)
def execFencee (w : OpWord) (s : State) : Out := s.after (fireFencee w s)

/-- PFETCH, R265: it changes no visible state, raises no cause, also for a control word that R248 refuses (DEDUCED), and emits A at once. -/
def firePfetch (w : OpWord) (s : State) : Option State := s.fireBy w 90 (pureOp fun x F => F.same x F.tag)
def execPfetch (w : OpWord) (s : State) : Out := s.after (firePfetch w s)

end Sys2Proof.Machine
end

