-- ==== Sys2Proof/Machine/DatumNodes.lean ====
section
/-! DEFINITION. Datum operations of elements, op 91–94 (R301–R306). -/

namespace Sys2Proof.Machine



/-- DUPD, R302. -/
def fireDupd (w : OpWord) (s : State) : Option State := s.fireBy w 91 (memNode 91)
def execDupd (w : OpWord) (s : State) : Out := s.after (fireDupd w s)

/-- DLDT, R303. -/
def fireDldt (w : OpWord) (s : State) : Option State := s.fireBy w 92 (memNode 92)
def execDldt (w : OpWord) (s : State) : Out := s.after (fireDldt w s)

/-- DLDS, R304. -/
def fireDlds (w : OpWord) (s : State) : Option State := s.fireBy w 93 (memNode 93)
def execDlds (w : OpWord) (s : State) : Out := s.after (fireDlds w s)

/-- DFRONT, R305. -/
def fireDfront (w : OpWord) (s : State) : Option State := s.fireBy w 94 (memNode 94)
def execDfront (w : OpWord) (s : State) : Out := s.after (fireDfront w s)

end Sys2Proof.Machine
end

