-- ==== Sys2Proof/Machine/ElemInteger.lean ====
section
/-! DEFINITION. Integer and generic operations, op 0–15 (R153(4), R156) and the integer-class operations of R171. -/

namespace Sys2Proof.Machine

/-- What an integer-class operation knows beside its lanes: the width and format of the result, the width of A's lanes, the
context's constants and k(slot mod 4). -/
structure IntEnv where
  n  : Nat
  fr : Nat
  na : Nat
  ks : Nat → Nat
  k  : Nat

/-- An integer-class operation: lanes as mathematical values x, y, z of A, B, C, and the pattern p of A; the result wraps,
R153(4). -/
def intLanes (f : IntEnv → Int → Int → Int → Nat → Int) (x : ElemCtx) (F : Firing) : Token :=
  let a := F.la x
  let b := F.lb x
  let c := F.lc
  let fr := x.outFmt F.w.col
  let E : IntEnv := ⟨fmtBits fr, fr, fmtBits a.fmt, fun i => (x.const i).toNat, (x.const (F.n % 4)).toNat⟩
  F.integers x fun j => f E (a.int j) (b.int j) (c.int j) (a.at j)

/-- The common form, of A and B alone. -/
def intOp (f : IntEnv → Int → Int → Int) : State → Firing → Option Deed := pureOp (intLanes fun E x y _ _ => f E x y)

/-- Two integers as n-bit patterns. -/
def bitwise (n : Nat) (f : Nat → Nat → Nat) (x y : Int) : Int := f (wrapBits n x) (wrapBits n y)

/-- sext(A, n). -/
def sextInt (n : Nat) (x : Int) : Int := if 2 ^ (n - 1) ≤ wrapBits n x then (wrapBits n x : Int) - 2 ^ n else wrapBits n x

/-- CLAMP, R156; a result in a format without integers counts as unsigned (DESIGN CHOICE). -/
def clampInt (E : IntEnv) (x y : Int) : Int :=
  if fmtSigned E.fr then
    let m : Int := Min.min (y.natAbs : Int) (2 ^ (E.n - 1) - 1)
    Min.min (Max.max x (-m)) m
  else Min.min x y.natAbs

/-- Clamped to the result format's range, R171; a result in a format without integers has the range of its patterns (DESIGN CHOICE). -/
def satInt (E : IntEnv) (x : Int) : Int :=
  if fmtSigned E.fr then Max.max (-2 ^ (E.n - 1)) (Min.min (2 ^ (E.n - 1) - 1) x) else Max.max 0 (Min.min (2 ^ E.n - 1) x)

/-- The number of 1 bits of a pattern of `n` bits, and of its leading zeros. -/
def popNat (n p : Nat) : Nat := (List.range n).foldl (fun c i => if p.testBit i then c + 1 else c) 0
def clzNat (n p : Nat) : Nat := if p % 2 ^ n = 0 then n else n - 1 - (p % 2 ^ n).log2

/-- lo and len of BITS and BITI, R171. -/
def fieldLo (k : Nat) : Nat := bitsOf k 5 0
def fieldLen (k : Nat) : Nat := if bitsOf k 13 8 = 0 then 64 else bitsOf k 13 8

/-- A with bits [lo + len − 1 : lo] replaced by the low bits of B, on 128 bits. -/
def insertField (lo len : Nat) (x y : Int) : Int :=
  let m := (2 ^ len - 1) <<< lo
  let a := wrapBits 128 x
  (((a ||| m) ^^^ m) ||| ((wrapBits len y) <<< lo) % 2 ^ 128 : Nat)

/-- ADD, R156. -/
def fireElemAdd (w : OpWord) (s : State) : Option State := s.fireBy w 0 (intOp fun _ x y => x + y)
def execElemAdd (w : OpWord) (s : State) : Out := s.after (fireElemAdd w s)

/-- SUB, R156. -/
def fireElemSub (w : OpWord) (s : State) : Option State := s.fireBy w 1 (intOp fun _ x y => x - y)
def execElemSub (w : OpWord) (s : State) : Out := s.after (fireElemSub w s)

/-- MUL, R156. -/
def fireElemMul (w : OpWord) (s : State) : Option State := s.fireBy w 2 (intOp fun _ x y => x * y)
def execElemMul (w : OpWord) (s : State) : Out := s.after (fireElemMul w s)

/-- MAC, R154 and R156: C comes from L(slot mod 4). -/
def fireMac (w : OpWord) (s : State) : Option State := s.fireBy w 3 (pureOp (intLanes fun _ x y z _ => x * y + z))
def execMac (w : OpWord) (s : State) : Out := s.after (fireMac w s)

/-- MIN, R156. -/
def fireElemMin (w : OpWord) (s : State) : Option State := s.fireBy w 4 (intOp fun _ x y => Min.min x y)
def execElemMin (w : OpWord) (s : State) : Out := s.after (fireElemMin w s)

/-- MAX, R156. -/
def fireElemMax (w : OpWord) (s : State) : Option State := s.fireBy w 5 (intOp fun _ x y => Max.max x y)
def execElemMax (w : OpWord) (s : State) : Out := s.after (fireElemMax w s)

/-- ABS, R156. -/
def fireAbs (w : OpWord) (s : State) : Option State := s.fireBy w 6 (intOp fun _ x _ => (x.natAbs : Int))
def execAbs (w : OpWord) (s : State) : Out := s.after (fireAbs w s)

/-- NEG, R156. -/
def fireNeg (w : OpWord) (s : State) : Option State := s.fireBy w 7 (intOp fun _ x _ => -x)
def execNeg (w : OpWord) (s : State) : Out := s.after (fireNeg w s)

/-- AND, R156. -/
def fireElemAnd (w : OpWord) (s : State) : Option State := s.fireBy w 8 (intOp fun E x y => bitwise E.n Nat.land x y)
def execElemAnd (w : OpWord) (s : State) : Out := s.after (fireElemAnd w s)

/-- OR, R156. -/
def fireElemOr (w : OpWord) (s : State) : Option State := s.fireBy w 9 (intOp fun E x y => bitwise E.n Nat.lor x y)
def execElemOr (w : OpWord) (s : State) : Out := s.after (fireElemOr w s)

/-- XOR, R156. -/
def fireElemXor (w : OpWord) (s : State) : Option State := s.fireBy w 10 (intOp fun E x y => bitwise E.n Nat.xor x y)
def execElemXor (w : OpWord) (s : State) : Out := s.after (fireElemXor w s)

/-- NOT, R156. -/
def fireNot (w : OpWord) (s : State) : Option State := s.fireBy w 11 (intOp fun E x _ => bitwise E.n (fun a _ => (2 ^ E.n - 1) ^^^ a) x 0)
def execNot (w : OpWord) (s : State) : Out := s.after (fireNot w s)

/-- SHL, R156. -/
def fireElemShl (w : OpWord) (s : State) : Option State := s.fireBy w 12 (intOp fun E x y => x * 2 ^ (y % E.n).toNat)
def execElemShl (w : OpWord) (s : State) : Out := s.after (fireElemShl w s)

/-- SHR, R156. -/
def fireElemShr (w : OpWord) (s : State) : Option State := s.fireBy w 13 (intOp fun E x y => (wrapBits E.n x >>> (y % E.n).toNat : Nat))
def execElemShr (w : OpWord) (s : State) : Out := s.after (fireElemShr w s)

/-- SHA, R156. -/
def fireElemSha (w : OpWord) (s : State) : Option State := s.fireBy w 14 (intOp fun E x y => sextInt E.n x / 2 ^ (y % E.n).toNat)
def execElemSha (w : OpWord) (s : State) : Out := s.after (fireElemSha w s)

/-- CLAMP, R156. -/
def fireClamp (w : OpWord) (s : State) : Option State := s.fireBy w 15 (intOp clampInt)
def execClamp (w : OpWord) (s : State) : Out := s.after (fireClamp w s)

/-- ADDS, R171. -/
def fireAdds (w : OpWord) (s : State) : Option State := s.fireBy w 105 (intOp fun E x y => satInt E (x + y))
def execAdds (w : OpWord) (s : State) : Out := s.after (fireAdds w s)

/-- SUBS, R171. -/
def fireSubs (w : OpWord) (s : State) : Option State := s.fireBy w 106 (intOp fun E x y => satInt E (x - y))
def execSubs (w : OpWord) (s : State) : Out := s.after (fireSubs w s)

/-- MULS, R171. -/
def fireMuls (w : OpWord) (s : State) : Option State := s.fireBy w 107 (intOp fun E x y => satInt E (x * y))
def execMuls (w : OpWord) (s : State) : Out := s.after (fireMuls w s)

/-- POPC, R171: of A's pattern at A's width. -/
def fireElemPopc (w : OpWord) (s : State) : Option State := s.fireBy w 108 (pureOp (intLanes fun E _ _ _ p => popNat E.na p))
def execElemPopc (w : OpWord) (s : State) : Out := s.after (fireElemPopc w s)

/-- CLZ, R171: of A's pattern at A's width. -/
def fireElemClz (w : OpWord) (s : State) : Option State := s.fireBy w 109 (pureOp (intLanes fun E _ _ _ p => clzNat E.na p))
def execElemClz (w : OpWord) (s : State) : Out := s.after (fireElemClz w s)

/-- LUT, R171: entry A mod 16 of the table k0–k3. -/
def fireLut (w : OpWord) (s : State) : Option State := s.fireBy w 116 (intOp fun E x _ => let e := (x % 16).toNat; (E.ks (e / 4) >>> (16 * (e % 4)) % 65536 : Nat))
def execLut (w : OpWord) (s : State) : Out := s.after (fireLut w s)

/-- BITS, R171. -/
def fireBits (w : OpWord) (s : State) : Option State := s.fireBy w 117 (intOp fun E x _ => x / 2 ^ fieldLo E.k % 2 ^ fieldLen E.k)
def execBits (w : OpWord) (s : State) : Out := s.after (fireBits w s)

/-- BITI, R171. -/
def fireBiti (w : OpWord) (s : State) : Option State := s.fireBy w 118 (intOp fun E x y => insertField (fieldLo E.k) (fieldLen E.k) x y)
def execBiti (w : OpWord) (s : State) : Out := s.after (fireBiti w s)

end Sys2Proof.Machine
end

