-- ==== Sys2Proof/Machine/ElemTags.lean ====
section
/-! DEFINITION. Tags, colours and frames, op 48–59 (R103, R116, R117, R165–R167). -/

namespace Sys2Proof.Machine

/-- A's data under a changed tag; tg then acts on the changed ITR, R165. -/
def retag (f : ElemCtx → Firing → Tag → Tag) : State → Firing → Option Deed :=
  pureOp fun x F => F.same x (F.tagFrom (f x F F.src))

/-! ## REORD -/

/-- REORD: a token passes when its THR is T or more or has its turn; null and error tokens take their turn as well, R165.
After THR T − 1 the next token of that (CTX, FRM, ITR) has its turn at THR 0 again (DEDUCED). -/
def reorder (s : State) (F : Firing) : Option Deed :=
  let x := s.ectx F.g F.c
  let bound := F.threads x
  match F.a with
  | none => pureOp (fun x F => F.same x F.tag) s F
  | some a =>
    let t := a.token.tag
    let pass (s : State) := pureOp (fun x F => F.same x F.tag) s F
    if bound ≤ t.thr.toNat then pass s
    else if t.thr.toNat ≠ x.turnOf F.n t then none
    else
      pass (s.modEctx F.g F.c fun x =>
        let rest := x.reorders.filter fun r => !(r.slot == F.n && r.frm == t.frm && r.itr == t.itr)
        { x with reorders := if t.thr.toNat + 1 < bound then rest ++ [⟨F.n, t.frm, t.itr, t.thr.toNat + 1⟩] else rest })

/-! ## Colour controls, R103 and R166 -/

/-- CTXALLOC: the width is requested and granted; lane 0 of the token is the grant. -/
def allocWidth (s : State) (F : Firing) : Option Deed :=
  let col := F.w.col.toNat
  let q := Max.max 1 (Min.min 32 (F.b0 (s.ectx F.g F.c)))
  let s := s.modEctx F.g F.c fun x =>
    let x := x.grant col q
    x.setEntry col { x.entry col with qw := BitVec.ofNat 5 (q - 1) }
  let x := s.ectx F.g F.c
  F.emit s (F.naturals x [(x.entry col).width])

/-- COLPACK: the two grants are joined when they do not exceed 32 lanes and neither colour is joined. A colour joined with itself, of which
R166 says nothing, is not joined: lane 0 is 0 (DESIGN CHOICE). -/
def joinColours (s : State) (F : Firing) : Option Deed :=
  let x := s.ectx F.g F.c
  let col := F.w.col.toNat
  let p := F.b0 x % 32
  let a := x.entry col
  let b := x.entry p
  if col = p ∨ a.pk ∨ b.pk ∨ 32 < a.width + b.width then F.emit s (F.naturals x [0])
  else
    let s := s.modEctx F.g F.c fun x =>
      let x := (x.setEntry col { a with pk := true, pcol := BitVec.ofNat 5 p }).setEntry p { b with pk := true, pcol := F.w.col }
      { x with high := NSet.insert x.high p }
    F.emit s (F.naturals (s.ectx F.g F.c) [1])

/-- COLUNPK: the join is undone. The spec states no data for its token: lane 0 is a free value. -/
def partColours (s : State) (F : Firing) : Option Deed :=
  let col := F.w.col.toNat
  let a := (s.ectx F.g F.c).entry col
  let s := if a.pk then
      s.modEctx F.g F.c fun x =>
        let p := a.pcol.toNat
        let x := (x.setEntry col { a with pk := false, pcol := 0 }).setEntry p { x.entry p with pk := false, pcol := 0 }
        { x with high := NSet.erase (NSet.erase x.high p) col }
    else s
  let (v, s) := s.free
  let x := s.ectx F.g F.c
  F.emit s (F.integers x fun j => if j = 0 then v.toNat else 0)

/-! ## Frames, R116, R117 and R167 -/

/-- The next root identifier in rotation that is not live, R116. -/
def nextRoot (e : Elem) (x : ElemCtx) (c : Nat) : Option Nat :=
  ((List.range 15).map fun i => (x.lastRoot + i) % 15 + 1).find? fun r => !e.frames.contains (State.frameKey c (BitVec.ofNat 16 r))

/-- The next ordinal of frame `p` whose identifier is not live in the element: R167 never reuses a live identifier (DEDUCED: such an ordinal
is passed over). -/
def nextOrdinal (e : Elem) (c : Nat) (p : BitVec 16) (used : Nat) : Option Nat :=
  (List.range 16).find? fun i => used ≤ i && !e.frames.contains (State.frameKey c (BitVec.ofNat 16 (p.toNat * 16 + i)))

/-- The child of frame `p` that comes next in the element; with `take` it takes a tag-store entry. None where it waits,
R116. -/
def State.child (s : State) (g c : Nat) (p : BitVec 16) (take : Bool) : Option (BitVec 16 × State) :=
  let x := s.ectx g c
  let e := s.elem g
  if take && 32 ≤ e.frames.length then none
  else
    let ordinal := if 1 ≤ p.toNat ∧ p.toNat < 4096 then nextOrdinal e c p (SMap.getD x.ordinals p.toNat 0) else none
    let made : Option (Nat × Nat × ElemCtx) := -- the child, its root sequence, the context
      match ordinal with
      | some i => some (p.toNat * 16 + i, SMap.getD x.rootSeqs p.toNat 0, { x with ordinals := SMap.set x.ordinals p.toNat (i + 1) })
      | none => (nextRoot e x c).map fun r => (r, x.reroots, { x with lastRoot := r, reroots := x.reroots + 1 })
    match made with
    | none => none
    | some (f, seq, x) =>
      let x := { x with ordinals := SMap.set x.ordinals f 0 }
      let x := if take then { x with rootSeqs := SMap.set x.rootSeqs f seq } else x
      let s := s.modEctx g c fun _ => x
      let k := s.spawnKey (gidTile g) c (BitVec.ofNat 16 f)
      let s := if take then s.modElem g fun e => { e with frames := NSet.insert e.frames (State.frameKey c (BitVec.ofNat 16 f)) } else s
      some (BitVec.ofNat 16 f, { s with spawned := if take then SMap.erase s.spawned k else SMap.set s.spawned k seq })

/-- FRAMEALLOC and SPAWN emit A in the child frame. -/
def newFrame (take : Bool) : State → Firing → Option Deed :=
  regular fun s F =>
    match s.child F.g F.c F.src.frm take with
    | none => none
    | some (f, s) => F.emit s (F.same (s.ectx F.g F.c) (F.tagFrom { F.src with frm := f }))

/-- The chain states of a frame are marked for release where no slot of the tile can still use them, R258. -/
def State.markChains (s : State) (t c : Nat) (frm : BitVec 16) : State :=
  s.modTile t fun T => { T with chains := T.chains.map fun k => if k.ctx = c ∧ k.frm = frm then { k with marked := true } else k }

/-- Some matching entry or spilled record of a frame remains: a waiting token's, or an open reduction group's, R161 and R167. -/
def ElemCtx.holdsFrame (x : ElemCtx) (f : BitVec 16) : Bool :=
  (x.operands.any fun o => o.token.tag.frm == f && (o.entries != 0 || o.spilled != [])) || x.groups.any fun k => k.frm == f

/-- FRAMEFREE waits until the element holds no matching entry or spilled record of the frame, frees its entry, and emits A in the
parent. -/
def freeFrame : State → Firing → Option Deed :=
  regular fun s F =>
    let f := F.src.frm
    if (s.ectx F.g F.c).holdsFrame f then none
    else
      let s := (s.modElem F.g fun e => { e with frames := NSet.erase e.frames (State.frameKey F.c f) }).markChains (gidTile F.g) F.c f
      F.emit s (F.same (s.ectx F.g F.c) (F.tagFrom { F.src with frm := f >>> 4 }))

/-- STAMP: lane 0 is stamp_of of S and A's lanes, none of them broadcast, R165. -/
def stampLanes (x : ElemCtx) (F : Firing) : Token :=
  let a := F.la x
  let i (k : Nat) : Nat := match a.own k with | some p => wrapBits 64 (decodeInt a.fmt p) % 2 ^ 13 | none => 0
  F.integers x fun j => if j = 0 then stampOf (F.b0 x % 2 ^ 12) (i 0) (i 1) (i 2) (i 3) else 0

/-- TAGINC, R165. -/
def fireTaginc (w : OpWord) (s : State) : Option State := s.fireBy w 48 (retag fun x F t => { t with itr := BitVec.ofNat 12 (t.itr.toNat + F.b0 x) })
def execTaginc (w : OpWord) (s : State) : Out := s.after (fireTaginc w s)

/-- TAGSET, R165. -/
def fireTagset (w : OpWord) (s : State) : Option State := s.fireBy w 49 (retag fun x F t => { t with itr := BitVec.ofNat 12 (F.b0 x) })
def execTagset (w : OpWord) (s : State) : Out := s.after (fireTagset w s)

/-- TAGGET, R165. -/
def fireTagget (w : OpWord) (s : State) : Option State := s.fireBy w 50 (pureOp fun x F => F.naturals x [F.src.itr.toNat, F.src.frm.toNat, F.src.thr.toNat])
def execTagget (w : OpWord) (s : State) : Out := s.after (fireTagget w s)

/-- TAGCLR, R165. -/
def fireTagclr (w : OpWord) (s : State) : Option State := s.fireBy w 51 (retag fun _ _ t => { t with itr := 0, thr := 0 })
def execTagclr (w : OpWord) (s : State) : Out := s.after (fireTagclr w s)

/-- REORD, R165. -/
def fireReord (w : OpWord) (s : State) : Option State := s.fireBy w 52 reorder
def execReord (w : OpWord) (s : State) : Out := s.after (fireReord w s)

/-- CTXALLOC, R166. -/
def fireCtxalloc (w : OpWord) (s : State) : Option State := s.fireBy w 53 (regular allocWidth)
def execCtxalloc (w : OpWord) (s : State) : Out := s.after (fireCtxalloc w s)

/-- COLPACK, R166. -/
def fireColpack (w : OpWord) (s : State) : Option State := s.fireBy w 54 (regular joinColours)
def execColpack (w : OpWord) (s : State) : Out := s.after (fireColpack w s)

/-- COLUNPK, R166. -/
def fireColunpk (w : OpWord) (s : State) : Option State := s.fireBy w 55 (regular partColours)
def execColunpk (w : OpWord) (s : State) : Out := s.after (fireColunpk w s)

/-- FRAMEALLOC, R167. -/
def fireFramealloc (w : OpWord) (s : State) : Option State := s.fireBy w 56 (newFrame true)
def execFramealloc (w : OpWord) (s : State) : Out := s.after (fireFramealloc w s)

/-- FRAMEFREE, R167. -/
def fireFramefree (w : OpWord) (s : State) : Option State := s.fireBy w 57 freeFrame
def execFramefree (w : OpWord) (s : State) : Out := s.after (fireFramefree w s)

/-- SPAWN, R167. -/
def fireSpawn (w : OpWord) (s : State) : Option State := s.fireBy w 58 (newFrame false)
def execSpawn (w : OpWord) (s : State) : Out := s.after (fireSpawn w s)

/-- STAMP, R165. -/
def fireStamp (w : OpWord) (s : State) : Option State := s.fireBy w 59 (pureOp stampLanes)
def execStamp (w : OpWord) (s : State) : Out := s.after (fireStamp w s)

end Sys2Proof.Machine
end

