-- ==== Sys2Proof/Machine/ElemLoops.lean ====
section
/-! DEFINITION. Configured loops, op 60–64 (R50, R113–R115, R168). -/

namespace Sys2Proof.Machine

/-- More iterations may start. -/
def Loop.more (l : Loop) : Bool := l.next < l.bound && (match l.stop with | some k => decide (l.next ≤ k) | none => true)
/-- m, the lowest iteration whose exit token has not returned, R115. -/
def Loop.lowest (l : Loop) : Nat := l.live.foldl Min.min l.next
/-- The live iteration of an ITR; no two live iterations share one, R115. -/
def Loop.liveOf (l : Loop) (itr : BitVec 12) : Option Nat := l.live.find? fun k => k % 4096 == itr.toNat

def ElemCtx.loop (x : ElemCtx) (n : Nat) : Option Loop := x.loops.find? fun l => l.slot == n
def ElemCtx.setLoop (x : ElemCtx) (l : Loop) : ElemCtx := { x with loops := (x.loops.filter fun k => k.slot != l.slot) ++ [l] }

/-- The dst and col fields of the word that a slot holds. -/
def Slot.dst (r : Slot) : BitVec 4 := r.opw.extractLsb' 10 4
def Slot.col (r : Slot) : BitVec 5 := r.opw.extractLsb' 5 5

/-- A's data of the start token under colour `col` and ITR `itr`. -/
def Loop.token (l : Loop) (col : BitVec 5) (itr : BitVec 12) : Token :=
  ⟨{ l.start.tag with col := col, itr := itr, last := true }, l.start.beats⟩

namespace State

/-- A loop whose iterations have all returned and that starts no more completes: LOOPE, in the next slot, emits the start
token with its ITR when it has room, R168. -/
def loopEnd (s : State) (g c n : Nat) : State :=
  let x := s.ectx g c
  match x.loop n with
  | none => s
  | some l =>
    if !l.running || l.more || l.live != [] then s
    else
      let r := x.slot (n + 1)
      let t := l.token r.col l.start.tag.itr
      if s.room g c (n + 1) r.dst r.dst t then
        (s.modEctx g c fun x => x.setLoop { l with running := false }).deliver g c (n + 1) r.dst r.dst t
      else s

/-- LOOP_ITERATION_ISSUE: the next iteration token leaves once the window and the throttle allow it, R113–R115. -/
def loopIssue (s : State) (g c n : Nat) : State :=
  let x := s.ectx g c
  match x.loop n with
  | none => s
  | some l =>
    if !l.running || !s.inForce g c || x.stopped || x.bad then s
    else if !l.more then s.loopEnd g c n
    else
      let ring := match s.launchAt (gidTile g) c with | some k => ringRoom k 1 && !k.saving && !k.moving | none => true
      let t := l.token l.w.col (BitVec.ofNat 12 l.next)
      if ring && decide (l.next < l.lowest + x.eff n) && s.room g c n l.w.dst l.w.dst t then
        (s.modEctx g c fun x => x.setLoop { l with next := l.next + 1, live := l.live ++ [l.next] }).deliver g c n l.w.dst l.w.dst t
      else s

end State

/-- The null token that LOOPB or LOOPE emits when its fault is ignored, R364; tg does not apply to it (R168). -/
def loopNull (F : Firing) : Option Token := some (nullToken { F.src with col := F.w.col })

/-- LOOPB on a start token, R50 and R168. -/
def startLoop (s : State) (F : Firing) : Option State :=
  let x := s.ectx F.g F.c
  if (x.slot (F.n + 1)).op ≠ 61 ∨ 15 < F.n + 1 then some (s.fireFault F 0x01 0 (loopNull F))
  else
    let start := match F.a with | some a => a.token | none => F.same x F.src
    let l : Loop := { slot := F.n, running := true, w := F.w, start := start, bound := F.b0 x }
    some ((s.modEctx F.g F.c fun x => x.setLoop l).loopEnd F.g F.c F.n)

/-- LOOPE on an exit token of any kind: it counts for a live iteration of the running loop, else it is a fault, R168. -/
def exitLoop (s : State) (F : Firing) : Option Deed :=
  let t := F.src
  let l := if F.n = 0 then none else (s.ectx F.g F.c).loop (F.n - 1)
  let hit := match l with
    | some l =>
      if l.running && l.start.tag.ctx == t.ctx && l.start.tag.frm == t.frm && l.start.tag.thr == t.thr then
        (l.liveOf t.itr).map fun k => { l with live := l.live.filter (· != k) }
      else none
    | none => none
  match hit with
  | some l => Firing.quiet ((s.modEctx F.g F.c fun x => x.setLoop l).loopEnd F.g F.c (F.n - 1))
  | none => Firing.quiet (s.fireFault F 0x01 t.toWord (loopNull F))

/-- LOOPT: A with ITR + 1 to N and E, or A unchanged to S and W; tg does not apply, R168. -/
def loopOn (s : State) (F : Firing) : Option Deed :=
  let t := F.same (s.ectx F.g F.c) { F.src with col := F.w.col, itr := if F.prdA then F.src.itr + 1 else F.src.itr, last := true, err := false, nul := false, hdr := false, prd := false }
  some ⟨s, some (t, halfOf F.w.dst F.prdA)⟩

/-- The iteration of an ITR: the last one issued under it, or, before any, the first that will be (DEDUCED from R168: ITR is the iteration
modulo 4,096). -/
def Loop.named (l : Loop) (itr : BitVec 12) : Nat :=
  if l.next ≤ itr.toNat then itr.toNat else l.next - 1 - (l.next - 1 - itr.toNat) % 4096

/-- LOOPX: running loops of the context start no iteration beyond A's, R168, which names no loop: each is cut (DEDUCED). -/
def stopLoops (s : State) (F : Firing) : Option State :=
  if !F.prdA then some s
  else
    let cut (l : Loop) : Loop :=
      if !l.running then l
      else
        let k := l.named F.src.itr
        { l with stop := some (match l.stop with | some j => Min.min j k | none => k) }
    let s := s.modEctx F.g F.c fun x => { x with loops := x.loops.map cut }
    some ((s.ectx F.g F.c).loops.foldl (fun s l => s.loopEnd F.g F.c l.slot) s)

/-- LOOPB, R168. -/
def fireLoopb (w : OpWord) (s : State) : Option State := s.fireBy w 60 (regular fun s F => (startLoop s F).map fun s => ⟨s, none⟩)
def execLoopb (w : OpWord) (s : State) : Out := s.after (fireLoopb w s)

/-- LOOPE, R168: it ignores pm and takes every kind of token. -/
def fireLoope (w : OpWord) (s : State) : Option State := s.fireBy w 61 exitLoop
def execLoope (w : OpWord) (s : State) : Out := s.after (fireLoope w s)

/-- LOOPT, R168. -/
def fireLoopt (w : OpWord) (s : State) : Option State := s.fireBy w 62 (regular loopOn)
def execLoopt (w : OpWord) (s : State) : Out := s.after (fireLoopt w s)

/-- LOOPX, R168. -/
def fireLoopx (w : OpWord) (s : State) : Option State := s.fireBy w 63 (quietly stopLoops)
def execLoopx (w : OpWord) (s : State) : Out := s.after (fireLoopx w s)

/-- LOOPI, R168. -/
def fireLoopi (w : OpWord) (s : State) : Option State := s.fireBy w 64 (pureOp fun x F => let n := x.width F.w.col.toNat; F.naturals x ((List.range n).map fun j => F.src.itr.toNat * n + j))
/-- LOOP_ITERATION_ISSUE, R115. -/
def execLoopIterationIssue (gid ctx slot : Nat) (s : State) : Out := .next (s.loopIssue gid ctx slot)
def execLoopi (w : OpWord) (s : State) : Out := s.after (fireLoopi w s)

end Sys2Proof.Machine
end

