-- ==== Sys2Proof/Machine/Sums.lean ====
section
/-! DEFINITION. Sums of products with their offenders: the accumulation orders of R146–R149 under the error rules of R142
and R144, as reductions (R161) and matrix nodes (R193) use them. -/

namespace Sys2Proof.Machine

/-- One term of a sum: its exact value, the origin it raises itself (R142), the rank of the token that carries it and the
lane at which it stands there. -/
structure Term where
  v    : Val
  bad  : Option Nat := none
  who  : Nat
  lane : Nat := 0
  deriving DecidableEq, Repr

/-- Who makes a result an error: the token's rank, the lowest lane and the origin, R143 and R144. -/
structure Offence where
  who  : Nat
  lane : Nat
  orig : Nat
  deriving DecidableEq, Repr

/-- The offence of the lower rank, then of the lower lane. -/
def Offence.first (a b : Offence) : Offence := if b.who < a.who ∨ (b.who = a.who ∧ b.lane < a.lane) then b else a

/-- A product of two factors charged to one token, R142 and R193. -/
def productTerm (a b : Val) (who lane : Nat) : Term := ⟨Val.mul a b, productOrigin a b, who, lane⟩

/-- A sum in progress: the accumulator, and the lowest ranks with a +∞ and a −∞ contribution, R144. -/
structure Running where
  c   : Val
  pos : Option Offence := none
  neg : Option Offence := none
  deriving DecidableEq, Repr

/-- A contribution of an infinity by the token `who`. -/
def Running.note (r : Running) (v : Val) (who lane : Nat) : Running :=
  let o : Offence := ⟨who, lane, 3⟩
  let low (x : Option Offence) : Option Offence := some (match x with | none => o | some y => Offence.first y o)
  match v with
  | .inf false => { r with pos := low r.pos }
  | .inf true => { r with neg := low r.neg }
  | _ => r

/-- An accumulation step that adds `t` and rounds, charged to the token that carries it, R144. -/
def Running.step (r : Running) (t : Term) : Running :=
  if t.bad.isSome || t.v.isNan then r
  else
    let r := r.note t.v t.who t.lane
    if r.c.isInf then r
    else
      let c := rneFp32 (Val.add r.c t.v)
      { r with c := c }.note c t.who t.lane

/-- One group of R146, charged to the token that carries its highest product. -/
def Running.group (r : Running) (ts : List Term) : Running :=
  let good := ts.filter fun t => t.bad.isNone && !t.v.isNan
  let r := good.foldl (fun r t => r.note t.v t.who t.lane) r
  match groupSum (r.c :: good.map (·.v) ++ List.replicate (16 - good.length) Val.zero) with
  | .error _ => r
  | .ok c =>
    match ts.getLast? with
    | some t => if r.c.isInf || good.any (·.v.isInf) then { r with c := c } else { r with c := c }.note c t.who t.lane
    | none => { r with c := c }

/-- Groups of 16 in ascending K, R146. -/
def Running.groups : Nat → Running → List Term → Running
  | 0, r, _ => r
  | n + 1, r, ts => if ts = [] then r else Running.groups n (r.group (ts.take 16)) (ts.drop 16)

/-- The offences of the terms themselves. -/
def termOffences (ts : List Term) : List Offence :=
  ts.filterMap fun t =>
    match t.bad with
    | some o => some ⟨t.who, t.lane, o⟩
    | none => if t.v.isNan then some ⟨t.who, t.lane, 1⟩ else none

/-- The offence of origin 3: the later of the two first contributions, R144. -/
def Running.clash (r : Running) : Option Offence :=
  match r.pos, r.neg with
  | some p, some n => some (if p.who < n.who then n else if n.who < p.who then p else Offence.first p n)
  | _, _ => none

/-- The value of a finished sum, or its offence. -/
def Running.finish (r : Running) (offs : List Offence) : Except Offence Val :=
  let offs := match r.clash with | some o => offs ++ [o] | none => offs
  match offs with
  | [] => .ok r.c
  | o :: os => .error (os.foldl Offence.first o)

/-- How products are summed, R146, R147 and R148. -/
inductive SumOrder where
  | groups | steps | integers
  deriving DecidableEq, Repr

/-- A sum of `c` (charged to rank `cw`) and the terms, in FP32, by R146 or R147. -/
def sumTerms (o : SumOrder) (c : Val) (cw : Nat) (ts : List Term) : Except Offence Val :=
  let c0 := if c.isNan then Val.zero else c
  let r : Running := Running.note { c := c0 } c0 cw 0
  let offs := (if c.isNan then [(⟨cw, 0, 1⟩ : Offence)] else []) ++ termOffences ts
  match o with
  | .groups => (Running.groups (ts.length + 1) r ts).finish offs
  | _ => (ts.foldl Running.step r).finish offs

/-- A block of R149: its products in order, the scales of A and B with the ranks they are charged to, and whether the block
is that of a null token. -/
structure BlockSum where
  terms : List Term
  sa    : Val
  sb    : Val
  wa    : Nat
  wb    : Nat
  null  : Bool := false
  deriving DecidableEq, Repr

/-- r_j of R149 with its offences: the exact block sum scaled once by each scale and rounded once. -/
def BlockSum.result (b : BlockSum) : Val × List Offence :=
  if b.null then (Val.zero, [])
  else
    let run := b.terms.foldl (fun (r : Running) t =>
      if t.bad.isSome || t.v.isNan then r
      else
        let r := r.note t.v t.who t.lane
        if r.c.isInf then r else { r with c := Val.add r.c t.v }) { c := match b.terms with | [] => Val.zero | _ => Val.negZero }
    let noScale (s : Val) (w : Nat) : List Offence := if s.isNan then [⟨w, 0, 5⟩] else []
    let offs := termOffences b.terms ++ run.clash.toList ++ noScale b.sa b.wa ++ noScale b.sb b.wb
    if offs ≠ [] then (Val.zero, offs)
    else
      match scaleVal b.sa run.c with
      | .error o => (Val.zero, [⟨b.wa, 0, o⟩])
      | .ok x =>
        match scaleVal b.sb x with
        | .error o => (Val.zero, [⟨b.wb, 0, o⟩])
        | .ok y => (rneFp32 y, [])

/-- R149: blocks in ascending order, then the tensor scale, then with `acc` the incoming accumulator. Where a block or the fold is in error
there is no T to scale, and of the tensor scale only a NaN, which is an error whatever T is, counts. -/
def sumBlocks (bs : List BlockSum) (ts : Val) (acc : Option Val) : Except Offence Val :=
  let rs := bs.map fun b => (b.result, b.wa)
  let w0 := match bs with | b :: _ => b.wa | [] => 0
  let start : Running := match rs with
    | [] => { c := Val.zero }
    | r :: _ => Running.note { c := r.1.1 } r.1.1 r.2 0
  let run := (rs.drop 1).foldl (fun (r : Running) x => r.step ⟨x.1.1, none, x.2, 0⟩) start
  let offs := (rs.map fun r => r.1.2).flatten ++ run.clash.toList ++ (if acc == some .nan then [⟨w0, 0, 1⟩] else [])
    ++ (if ts.isNan then [⟨w0, 0, 5⟩] else [])
  match offs, scaleVal ts run.c with
  | o :: os, _ => .error (os.foldl Offence.first o)
  | [], .error o => .error ⟨w0, 0, o⟩
  | [], .ok x =>
    match acc with
    | none => .ok (rneFp32 x)
    | some a =>
      let who := match run.pos, run.neg with | some o, _ => o.who | none, some o => o.who | _, _ => w0
      ((Running.note { c := a } a w0 0).step ⟨rneFp32 x, none, who, 0⟩).finish []

end Sys2Proof.Machine
end

