-- ==== Sys2Proof/Machine/ElemReduce.lean ====
section
/-! DEFINITION. Reductions, op 65–72 (R142, R144, R146–R148, R161, R162). -/

namespace Sys2Proof.Machine

/-- G, the tokens of a tag group, R161. -/
def groupSize (x : ElemCtx) (n : Nat) : Nat := 2 ^ Min.min 12 ((x.const (n % 4)).toNat % 16)

/-- A consumed token as a member keeps it. -/
def Firing.keep (F : Firing) (r : Nat) (a : Option Arg) : Option Operand :=
  match a with
  | none => none
  | some a =>
    match F.picks.find? fun p => p.token == a.token with
    | some (.held o) => some { o with which := r }
    | some (.latch _ l) => some { slot := F.n, which := r, token := a.token, seq := 0, hdr := l.hdr }
    | none => none

/-- A member as a firing of the slot would read it. -/
def Member.firing (m : Member) (x : ElemCtx) (F : Firing) : Firing :=
  { F with a := m.a.map fun o => x.arg o.token o.hdr, b := m.b.map fun o => x.arg o.token o.hdr }

/-- A lane of a group: rank of its token, lane, pattern and format of A, and of B for RDOT. -/
structure GroupTerm where
  who  : Nat
  lane : Nat
  pos  : Nat
  p    : Nat
  f    : Nat
  q    : Nat
  h    : Nat

/-- Members in ascending ITR, equal ones in order of arrival, R162. -/
def sortMembers (ms : List Member) : List Member := (ms.foldl (fun l m => insertKey m.itr m l) []).map (·.2)

/-- The terms of a group in ascending (ITR, lane), R162. -/
def groupTerms (x : ElemCtx) (F : Firing) (base : Nat) (ms : List Member) : List GroupTerm :=
  (ms.map fun m =>
    let f := m.firing x F
    if !m.real || f.erring.isSome then []
    else
      let a := f.la x
      let b := f.lb x
      a.pats.zipIdx.map fun z => ⟨m.itr - base, z.2, (m.itr - base) * a.pats.length + z.2, z.1, a.fmt, b.at z.2, b.fmt⟩).flatten

/-- The offence of a member that arrived as an error token. -/
def memberErrors (x : ElemCtx) (F : Firing) (base : Nat) (ms : List Member) : List Offence :=
  ms.filterMap fun m => (m.firing x F).erring.map fun t => ⟨m.itr - base, 0, t.orig⟩

/-- What a group comes to: a pattern for lane 0, or its offence. -/
abbrev Reducer := List GroupTerm → Nat → Except Offence (Except Nat Nat)

def allIntegers (ts : List GroupTerm) : Bool := ts.all fun t => fmtIsInt t.f
def GroupTerm.val (t : GroupTerm) : Val := decodeVal t.f t.p
def GroupTerm.int (t : GroupTerm) : Int := decodeInt t.f t.p

/-- RSUM: integers wrapped, or an FP32 accumulator that rounds at each term. -/
def reduceSum : Reducer := fun ts fr =>
  if allIntegers ts then .ok (.ok (wrapBits (fmtBits fr) ((ts.map (·.int)).foldl (· + ·) 0)))
  else
    match sumTerms .steps Val.zero 0 (ts.map fun t => ⟨t.val, none, t.who, t.lane⟩) with
    | .error o => .error o
    | .ok v => .ok (encodeVal fr .rne v)

/-- RMAX and RMIN: a NaN term is origin 1. -/
def reducePick (f : Val → Val → Val) : Reducer := fun ts fr =>
  match ts.find? (·.val.isNan) with
  | some t => .error ⟨t.who, t.lane, 1⟩
  | none =>
    match ts with
    | [] => .ok (encodeVal fr .rne Val.zero)
    | t :: r => .ok (encodeVal fr .rne (r.foldl (fun v u => f v u.val) t.val))

/-- RAND, ROR and RXOR: terms as patterns of the result width. -/
def reduceBits (f : Nat → Nat → Nat) (ones : Bool) : Reducer := fun ts fr =>
  let n := fmtBits fr
  .ok (.ok (ts.foldl (fun v t => f v (wrapBits n t.int)) (if ones then 2 ^ n - 1 else 0)))

/-- RCNT. -/
def reduceCount : Reducer := fun ts fr => .ok (.ok (wrapBits (fmtBits fr) (ts.filter fun t => !t.val.isZero).length))

/-- A factor that selects R146: FP8, FP4, DS8, or INT4 beside a format that is no integer format. -/
def bySixteen (f h : Nat) : Bool := f == 3 || f == 4 || f == 5 || f == 7 || (f == 6 && !fmtIsInt h)

/-- The products at every position from `k` up, absent ones +0 and charged to the last real product before them. -/
def densify (ts : List GroupTerm) : Nat → Nat → Nat → Nat → List Term
  | 0, _, _, _ => []
  | n + 1, k, who, lane =>
    match ts.find? fun t => t.pos == k with
    | some t => productTerm t.val (decodeVal t.h t.q) t.who t.lane :: densify ts n (k + 1) t.who t.lane
    | none => ⟨Val.zero, none, who, lane⟩ :: densify ts n (k + 1) who lane

/-- RDOT: by R148 for integers, by R146 for the narrow formats, otherwise by R147. -/
def reduceDot : Reducer := fun ts fr =>
  if ts.all fun t => fmtIsInt t.f && fmtIsInt t.h then
    let sum := (ts.map fun t => t.int * decodeInt t.h t.q).foldl (· + ·) 0
    .ok (encodeVal fr .rne (Val.ofInt (sextNat (wrapBits 32 sum) 32)))
  else
    let r := if ts.any fun t => bySixteen t.f t.h || bySixteen t.h t.f then
        sumTerms .groups Val.zero 0 (densify ts ((ts.foldl (fun m t => Max.max m t.pos) 0) + 1) 0 0 0)
      else sumTerms .steps Val.zero 0 (ts.map fun t => productTerm t.val (decodeVal t.h t.q) t.who t.lane)
    match r with
    | .error o => .error o
    | .ok v => .ok (encodeVal fr .rne v)

/-- The PRD of a group's result: 0, or under pm = 101 the PRD that all A operands carry; the spec does not say which one
counts where they differ. -/
def groupPrd (s : State) (F : Firing) (ms : List Member) : Bool × State :=
  if F.w.pm ≠ 5 then (false, s)
  else
    let ps := ms.map fun m => match m.a with | some o => o.token.tag.prd | none => false
    if ps.all (·) then (true, s) else if ps.all (!·) then (false, s) else s.freeChoice

/-- A group that has all its members gives its result, R144 and R161. -/
def groupResult (s : State) (F : Firing) (red : Reducer) (index size : Nat) (ms : List Member) : Option Deed :=
  let x := s.ectx F.g F.c
  let base := index * size
  let ms := sortMembers ms
  let tag : Tag := { ctx := F.src.ctx, col := F.w.col, thr := F.src.thr, itr := BitVec.ofNat 12 base, frm := F.src.frm }
  let errs := memberErrors x F base ms
  let ts := groupTerms x F base ms
  if errs = [] ∧ !ms.any (·.real) then F.emit s (nullToken tag)
  else
    let fr := x.outFmt F.w.col
    let res := red ts fr
    let offs := errs ++ (match res with | .error o => [o] | .ok _ => [])
    match offs with
    | o :: os =>
      let o := os.foldl Offence.first o
      let tag := { tag with itr := BitVec.ofNat 12 (base + o.who) }
      match (ms.filter fun m => m.itr == base + o.who).findSome? fun m => (m.firing x F).erring with
      | some t => F.emit s (forwardError tag t)
      | none => F.emit s (errorToken tag o.lane o.orig)
    | [] =>
      match res with
      | .ok (.ok p) =>
        let (prd, s) := groupPrd s F ms
        let z := (match encodeVal fr .rne Val.zero with | .ok z => z | .error _ => 0)
        F.emit s (laneToken { tag with prd := prd } (fmtBits fr) (p :: List.replicate (x.width F.w.col.toNat - 1) z))
      | .ok (.error o) => F.emit s (errorToken tag 0 o)
      | .error _ => F.emit s (nullToken tag)

/-- A reduction consumes a member of any kind, and emits when its group is complete, R155 and R161. -/
def reduce (red : Reducer) (s : State) (F : Firing) : Option Deed :=
  let x := s.ectx F.g F.c
  let size := groupSize x F.n
  let index := F.src.itr.toNat / size
  let real := !F.anyNull && (match verdict F.w.pm F.prdA with | .compute => true | _ => false)
  let m : Member := ⟨F.src.itr.toNat, F.keep 0 F.a, F.keep 1 F.b, real⟩
  let mine (g : Group) : Bool := g.slot == F.n && g.frm == F.src.frm && g.thr == F.src.thr && g.index == index
  let ms := (match x.groups.find? mine with | some g => g.members | none => []) ++ [m]
  let rest := x.groups.filter fun g => !mine g
  if ms.length < size then
    Firing.quiet (s.modEctx F.g F.c fun x => { x with groups := rest ++ [⟨F.n, F.src.frm, F.src.thr, index, ms⟩] })
  else groupResult (s.modEctx F.g F.c fun x => { x with groups := rest }) F red index size ms

/-- RSUM, R162. -/
def fireRsum (w : OpWord) (s : State) : Option State := s.fireBy w 65 (reduce reduceSum)
def execRsum (w : OpWord) (s : State) : Out := s.after (fireRsum w s)

/-- RMAX, R162. -/
def fireRmax (w : OpWord) (s : State) : Option State := s.fireBy w 66 (reduce (reducePick maxVal))
def execRmax (w : OpWord) (s : State) : Out := s.after (fireRmax w s)

/-- RMIN, R162. -/
def fireRmin (w : OpWord) (s : State) : Option State := s.fireBy w 67 (reduce (reducePick minVal))
def execRmin (w : OpWord) (s : State) : Out := s.after (fireRmin w s)

/-- RAND, R162. -/
def fireRand (w : OpWord) (s : State) : Option State := s.fireBy w 68 (reduce (reduceBits Nat.land true))
def execRand (w : OpWord) (s : State) : Out := s.after (fireRand w s)

/-- ROR, R162. -/
def fireElemRor (w : OpWord) (s : State) : Option State := s.fireBy w 69 (reduce (reduceBits Nat.lor false))
def execElemRor (w : OpWord) (s : State) : Out := s.after (fireElemRor w s)

/-- RXOR, R162. -/
def fireRxor (w : OpWord) (s : State) : Option State := s.fireBy w 70 (reduce (reduceBits Nat.xor false))
def execRxor (w : OpWord) (s : State) : Out := s.after (fireRxor w s)

/-- RDOT, R162. -/
def fireElemRdot (w : OpWord) (s : State) : Option State := s.fireBy w 71 (reduce reduceDot)
def execElemRdot (w : OpWord) (s : State) : Out := s.after (fireElemRdot w s)

/-- RCNT, R162. -/
def fireRcnt (w : OpWord) (s : State) : Option State := s.fireBy w 72 (reduce reduceCount)
def execRcnt (w : OpWord) (s : State) : Out := s.after (fireRcnt w s)

end Sys2Proof.Machine
end

