-- ==== Sys2Proof/Machine/ElemLanes.lean ====
section
/-! DEFINITION. Lane operations, op 73–78 (R163, R164), and AVG, SAD, HIST and IDX of R171. -/

namespace Sys2Proof.Machine

/-- Lanes of A chosen by index, missing ones +0; converted under .RNE, R163. -/
def chooseLanes (f : ElemCtx → Firing → Nat → Option Nat) (x : ElemCtx) (F : Firing) : Token :=
  let a := F.la x
  F.each x fun j => convLane a.fmt (x.outFmt F.w.col) .rne ((f x F j).bind a.own)
def Firing.wa (F : Firing) (x : ElemCtx) : Nat := (F.la x).pats.length

/-- The FP32 running sums of some values, rounded at each step, R163. -/
def runningSums : Option Val → List Val → List Val
  | _, [] => []
  | none, v :: r => rneFp32 v :: runningSums (some (rneFp32 v)) r
  | some c, v :: r => let d := rneFp32 (Val.add c v); d :: runningSums (some d) r

/-- SCANADD, R163: lanes beyond A's width hold the whole sum. -/
def scanLanes (x : ElemCtx) (F : Firing) : Token :=
  let a := F.la x
  if fmtIsInt a.fmt then
    F.integers x fun j => ((a.pats.take (j + 1)).map (decodeInt a.fmt)).foldl (· + ·) 0
  else
    let vs := runningSums none (a.pats.map (decodeVal a.fmt))
    F.each x fun j => encodeVal (x.outFmt F.w.col) .rne (vs.getD j (vs.getLastD Val.zero))

/-- The order of R164: value descending, every NaN after every number, ties by the lower lane. -/
def before (a b : Val × Nat) : Bool :=
  if a.1.isNan || b.1.isNan then (!a.1.isNan && b.1.isNan) || (a.1.isNan == b.1.isNan && a.2 < b.2)
  else Val.lt b.1 a.1 || (Val.eq a.1 b.1 && a.2 < b.2)
def insertTop (v : Val × Nat) : List (Val × Nat) → List (Val × Nat)
  | [] => [v]
  | u :: r => if before v u then v :: u :: r else u :: insertTop v r

/-- TOPK, R164. -/
def topLanes (x : ElemCtx) (F : Firing) : Token :=
  let a := F.la x
  let fr := x.outFmt F.w.col
  let order := (a.pats.zipIdx.foldl (fun l z => insertTop (decodeVal a.fmt z.1, z.2) l) []).map (·.2)
  F.each x fun j =>
    match order[j]? with
    | none => if fmtIsInt fr then .ok (2 ^ fmtBits fr - 1) else encodeVal fr .rne Val.zero
    | some i =>
      if fmtIsInt fr then .ok (i % 2 ^ fmtBits fr)
      else if (decodeVal a.fmt (a.at i)).isNan then encodeVal fr .rne .nan
      else convLane a.fmt fr .rne (a.own i)

/-- AVG and SAD act on values when either operand is in a floating format (DESIGN CHOICE: R171 speaks of the two together). -/
def Firing.floating (F : Firing) (x : ElemCtx) : Bool := !fmtIsInt (F.la x).fmt || !fmtIsInt (F.lb x).fmt

/-- AVG, R171. -/
def averageLanes (x : ElemCtx) (F : Firing) : Token :=
  let a := F.la x
  let b := F.lb x
  if F.floating x then F.each x fun j => encodeVal (x.outFmt F.w.col) .rne ((Val.add (a.val j) (b.val j)).scale2 (-1))
  else F.integers x fun j => (a.int j + b.int j) / 2

/-- SAD, R171: an exact sum, rounded or wrapped once. -/
def differenceSum (x : ElemCtx) (F : Firing) : Token :=
  let a := F.la x
  let b := F.lb x
  let js := List.range (Max.max a.pats.length b.pats.length)
  if F.floating x then
    F.values x F.tag .rne [js.foldl (fun v j => Val.add v (Val.add (a.val j) (b.val j).neg).abs) Val.zero]
  else
    let sum : Int := js.foldl (fun (v : Int) j => v + ((a.int j - b.int j).natAbs : Int)) 0
    F.integers x fun j => if j = 0 then sum else 0

/-- HIST, R171. -/
def histogram (x : ElemCtx) (F : Firing) : Token :=
  let a := F.la x
  let b := F.lb x
  F.integers x fun j => b.int j + ((a.pats.filter fun p => decodeInt a.fmt p == (j : Int)).length : Int)

/-- IDX, R171: the position of the element relative to its launch, the slot and the context. -/
def position (s : State) (F : Firing) : Token :=
  let (ox, oy) := match ((s.tile (gidTile F.g)).ctx F.c).launch with | some p => (p.ox.toNat, p.oy.toNat) | none => (0, 0)
  F.integers (s.ectx F.g F.c) fun j =>
    match j with
    | 0 => (gidX F.g : Int) - 8 * (ox : Int)
    | 1 => (gidY F.g : Int) - 8 * (oy : Int)
    | 2 => F.n
    | 3 => F.c
    | _ => 0

/-- SHUF, R163. -/
def fireShuf (w : OpWord) (s : State) : Option State := s.fireBy w 73 (pureOp (chooseLanes fun x F j => some (wrapBits 64 ((F.lb x).int j) % F.wa x)))
def execShuf (w : OpWord) (s : State) : Out := s.after (fireShuf w s)

/-- BCAST, R163. -/
def fireBcast (w : OpWord) (s : State) : Option State := s.fireBy w 74 (pureOp (chooseLanes fun x F _ => some (F.b0 x % F.wa x)))
def execBcast (w : OpWord) (s : State) : Out := s.after (fireBcast w s)

/-- ROTL, R163. -/
def fireRotl (w : OpWord) (s : State) : Option State := s.fireBy w 75 (pureOp (chooseLanes fun x F j => some ((j + F.b0 x) % F.wa x)))
def execRotl (w : OpWord) (s : State) : Out := s.after (fireRotl w s)

/-- LSEL, R163. -/
def fireLsel (w : OpWord) (s : State) : Option State := s.fireBy w 76 (pureOp (chooseLanes fun x F j => if (F.b0 x).testBit j then some j else none))
def execLsel (w : OpWord) (s : State) : Out := s.after (fireLsel w s)

/-- SCANADD, R163. -/
def fireScanadd (w : OpWord) (s : State) : Option State := s.fireBy w 77 (pureOp scanLanes)
def execScanadd (w : OpWord) (s : State) : Out := s.after (fireScanadd w s)

/-- TOPK, R164. -/
def fireTopk (w : OpWord) (s : State) : Option State := s.fireBy w 78 (pureOp topLanes)
def execTopk (w : OpWord) (s : State) : Out := s.after (fireTopk w s)

/-- AVG, R171. -/
def fireAvg (w : OpWord) (s : State) : Option State := s.fireBy w 113 (pureOp averageLanes)
def execAvg (w : OpWord) (s : State) : Out := s.after (fireAvg w s)

/-- SAD, R171. -/
def fireSad (w : OpWord) (s : State) : Option State := s.fireBy w 114 (pureOp differenceSum)
def execSad (w : OpWord) (s : State) : Out := s.after (fireSad w s)

/-- HIST, R171. -/
def fireHist (w : OpWord) (s : State) : Option State := s.fireBy w 115 (pureOp histogram)
def execHist (w : OpWord) (s : State) : Out := s.after (fireHist w s)

/-- IDX, R171. -/
def fireIdx (w : OpWord) (s : State) : Option State := s.fireBy w 119 (regular fun s F => F.emit s (position s F))
def execIdx (w : OpWord) (s : State) : Out := s.after (fireIdx w s)

end Sys2Proof.Machine
end

