-- ==== Sys2Proof/Machine/Matrix.lean ====
section
/-! DEFINITION. Matrix nodes: cells, columns, operand FIFOs, the B operands in the overlay, replies, and what each control
token does when it stands at the head of its node's queue, R186–R201. -/

namespace Sys2Proof

/-! ## The fields of a token, R54 -/

def MxWord.m (t : MxWord) : Nat := t.mm1.toNat + 1
def MxWord.n (t : MxWord) : Nat := t.nm1.toNat + 1
def MxWord.k (t : MxWord) : Nat := t.km1.toNat + 1
/-- The rows and the columns of the region. -/
def MxWord.rows (t : MxWord) : List Nat := (List.range t.m).map (t.row0.toNat + ·)
def MxWord.cols (t : MxWord) : List Nat := (List.range t.n).map (t.col0.toNat + ·)
def MxWord.rcol (t : MxWord) : BitVec 5 := t.km1.extractLsb' 0 5

/-- The token's bits [63:0]. -/
def MxWord.bits (t : MxWord) (opc : Nat) : BitVec 64 := packMx (BitVec.ofNat 5 opc) t

end Sys2Proof

namespace Sys2Proof.Machine

/-! ## Cells and columns -/

def cellIndex (r c : Nat) : Nat := 128 * r + c
def Node.cell (n : Node) (r c : Nat) : Cell := SMap.getD n.cells (cellIndex r c) {}
def Node.setCell (n : Node) (r c : Nat) (x : Cell) : Node := { n with cells := SMap.set n.cells (cellIndex r c) x }
def Node.column (n : Node) (c : Nat) : Column := SMap.getD n.cols c .free
def Node.setColumn (n : Node) (c : Nat) (x : Column) : Node := { n with cols := SMap.set n.cols c x }
def Node.ctxRegs (n : Node) (c : BitVec 2) : NodeCtx := n.ctxs[c.toNat]
def Node.setCtx (n : Node) (c : BitVec 2) (x : NodeCtx) : Node := { n with ctxs := n.ctxs.set c.toNat x }

/-- A cell that an error has struck, R186 and R193. -/
def errorCell (orig itr : Nat) : Cell := ⟨0x7FC00000, true, BitVec.ofNat 3 orig, BitVec.ofNat 12 itr⟩
def Cell.fp (x : Cell) : Val := decodeVal 0 x.value.toNat
def Cell.int (x : Cell) : Int := x.value.toInt
/-- A cell of an FP32 value. -/
def fpCell (v : Val) : Cell := { value := BitVec.ofNat 32 (match encodeVal 0 .rne v with | .ok p => p | .error _ => 0x7FC00000) }
def intCell (i : Int) : Cell := { value := BitVec.ofInt 32 i }

/-- The cells of a column cleared, R187. -/
def Node.clearColumn (n : Node) (c : Nat) : Node := { n with cells := n.cells.filter fun x => x.1 % 128 != c }

/-! ## The outcome of an entry, R189, R190 and R201 -/

/-- What the entry at the head comes to: it waits for operand tokens, it stops the node with a cause, or it completes. -/
inductive EntryOut where
  | wait
  | fault (cause : Nat) (val : Nat) (ate : Nat)
  | done (n : Node) (ate : Nat) (replies : List Token)

/-- The operand FIFO of an element at the node. -/
def Node.fifo (n : Node) (e : Nat) : List Fed := SMap.getD n.fifos e []

/-- The first `ate` tokens of the FIFO are consumed. -/
def Node.eat (n : Node) (e ate : Nat) : Node := { n with fifos := SMap.set n.fifos e ((n.fifo e).drop ate) }

/-- The columns of the region are owned by the context: the first that is not, R187. -/
def Node.foreignColumn (n : Node) (c : BitVec 2) (cols : List Nat) : Option Nat :=
  cols.find? fun k => n.column k != .owned c

/-! ## Operand tokens, R189 -/

/-- One vector of `k` elements that begins at a new token: the tokens it takes, or none while they are missing. -/
def takeVector : List Fed → Nat → Option (List Fed)
  | _, 0 => some []
  | [], _ + 1 => none
  | f :: r, k + 1 =>
    match takeVector r (k + 1 - Max.max f.width 1) with
    | some v => some (f :: v)
    | none => none

/-- `m` vectors of `k` elements, with how many tokens each takes. -/
def takeVectors : List Fed → Nat → Nat → Option (List (List Fed))
  | _, 0, _ => some []
  | q, m + 1, k =>
    match takeVector q k with
    | none => none
    | some v =>
      match takeVectors (q.drop v.length) m k with
      | some vs => some (v :: vs)
      | none => none

/-- An element of an operand vector: its value in format `f`; absent in a null token; in error with the payload's ORIG. -/
inductive Elt where
  | val (v : Val)
  | absent
  | bad (orig : Nat)
  deriving DecidableEq, Repr

/-- The elements that one token supplies, with the token's number in its vector and the lane. -/
def fedElts (f : Nat) (t : Fed) (i : Nat) : List (Elt × Nat × Nat) :=
  (List.range (Max.max t.width 1)).map fun j =>
    (if t.token.tag.err then .bad t.token.orig
     else if t.token.tag.nul then .absent
     else .val (decodeVal f (t.token.lane (fmtBits f) j)), i, j)

/-- The first `k` elements of a vector, each with its token's number and its lane. -/
def vectorElts (f k : Nat) (v : List Fed) : List (Elt × Nat × Nat) :=
  ((v.zipIdx.map fun x => fedElts f x.1 x.2).flatten).take k

/-- The product term of an element and its partner, charged to rank `who`. -/
def eltTerm (a : Elt) (b : Val) (negate : Bool) (who lane : Nat) : Term :=
  match a with
  | .absent => ⟨Val.zero, none, who, lane⟩
  | .bad o => ⟨Val.zero, some o, who, lane⟩
  | .val v =>
    let t := productTerm v b who lane
    if negate then { t with v := t.v.neg } else t

/-- The origin that an element raises itself beside its partner: that of an error token, or 1 for a NaN; a product with an absent partner
is +0 whatever the element holds, R189. -/
def Elt.offence (x partner : Elt) : Option Nat :=
  match x, partner with
  | .bad o, _ => some o
  | .val v, .val _ | .val v, .bad _ => if v.isNan then some 1 else none
  | _, _ => none

/-- The product term of an x and a y element, R193: both tokens carry it, so whatever it raises is charged to the lower rank that raises
it. -/
def pairTerm (x y : Elt) (wx wy lx ly : Nat) : Term :=
  let (w, l) := if wx ≤ wy then (wx, lx) else (wy, ly)
  match x.offence y, y.offence x with
  | some o, some p => ⟨Val.zero, some (if wx ≤ wy then o else p), w, l⟩
  | some o, none => ⟨Val.zero, some o, wx, lx⟩
  | none, some p => ⟨Val.zero, some p, wy, ly⟩
  | none, none =>
    match x, y with
    | .val a, .val b => productTerm a b w l
    | _, _ => ⟨Val.zero, none, w, l⟩

/-! ## B operands in the overlay, R191 -/

/-- The first word of the B operand: BASE of the bank, plus BOFF. -/
def bStart (x : NodeCtx) (other : Bool) (boff : Nat) : Nat := (if xor x.cb other then x.base1 else x.base0) + boff

def bWords (k b : Nat) : Nat := (k * b + 31) / 32

namespace State

/-- Element `k` of column `col`'s operand of `b`-bit elements from word `w0`. -/
def bElement (s : State) (tile col w0 b k : Nat) : Nat :=
  let a := 12288 * col + 4 * w0 + b * k / 8
  (s.bytesAt (.overlay tile) a ((b + 7) / 8)) >>> (b * k % 8) % 2 ^ b

/-- The first cause of a read of the operand bytes of the columns, with the overlay address, R377 and R378. -/
def bCause (s : State) (tile : Nat) (cols : List Nat) (w0 words : Nat) : Option (Nat × Nat) :=
  cols.findSome? fun c =>
    let a := 12288 * c + 4 * w0
    ((s.store (.overlay tile)).readCause a (4 * words)).map fun x => (x, a)

end State

/-! ## The multiply family, R193–R195 -/

/-- How the opcode differs, R194: format of A and of B. -/
def mxFmtB (opc fmt : Nat) : Nat := if opc = 5 then 7 else if opc = 7 then 6 else fmt

/-- The order of R194 for operand formats `fa` and `fb`. -/
def mxOrder (fa fb : Nat) : SumOrder :=
  if fmtIsInt fa && fmtIsInt fb then .integers
  else if (fa == 1 && fb == 1) || (fa == 2 && fb == 2) then .steps
  else .groups

/-- A cell after a sum: the value, or the error of the offender whose ITR `itrOf` gives, R193. -/
def cellOf (r : Except Offence Val) (itrOf : Nat → Nat) : Cell :=
  match r with
  | .ok v => fpCell v
  | .error o => errorCell o.orig (itrOf o.who)

/-- One cell of R193: `ts` are its terms in ascending K and `itrOf` the ITR of each rank. -/
def sumCell (old : Cell) (acc : Bool) (ord : SumOrder) (ts : List Term) (itrOf : Nat → Nat) : Cell :=
  if acc && old.err then old
  else
    match ord with
    | .integers =>
      match (termOffences ts) with
      | [] => intCell (ts.foldl (fun (i : Int) t =>
          match t.v with
          | .fin n m e => i + (if n then -1 else 1) * ((m : Int) * 2 ^ e.toNat)
          | _ => i) (if acc then old.int else 0))
      | o :: os => let f := os.foldl Offence.first o; errorCell f.orig (itrOf f.who)
    | _ => cellOf (sumTerms ord (if acc then old.fp else Val.zero) 0 ts) itrOf

/-- The ITR of token `i` of a list of operand tokens. -/
def fedItr (v : List Fed) (i : Nat) : Nat := match v[i]? with | some f => f.token.tag.itr.toNat | none => 0

/-- The cells of the region replaced by `f row column`, R190: rows and columns count from the region's first. -/
def Node.mapRegion (n : Node) (t : MxWord) (f : Nat → Nat → Cell → Cell) : Node :=
  (List.range t.m).foldl (fun n i => (List.range t.n).foldl (fun n j =>
    let r := t.row0.toNat + i
    let c := t.col0.toNat + j
    n.setCell r c (f i j (n.cell r c))) n) n

/-- Whether the operand tokens' ranks: x token `i` and y token `j` of RDOT by the K of their first element, R193. -/
def startsAt (v : List Fed) (i : Nat) : Nat := ((v.take i).map fun f => Max.max f.width 1).foldl (· + ·) 0

/-- MMA, MMAO, MMAT, MMAS, MMAD, MMAI, MMAQ, MMAB and MMAF, R193 and R194. -/
def mxMultiply (s : State) (tile opc : Nat) (t : MxWord) (n : Node) (e : Entry) : EntryOut :=
  let c := e.tag.ctx
  let x := n.ctxRegs c
  let fa := t.fmt.toNat
  let fb := mxFmtB opc fa
  let w0 := bStart x (opc == 8) t.boff.toNat
  let words := bWords t.k (fmtBits fb)
  if 3072 < w0 + words then .fault 0x01 0 0
  else
    match n.foreignColumn c t.cols with
    | some k => .fault 0x06 k 0
    | none =>
      match s.bCause tile t.cols w0 words with
      | some (cause, a) => .fault cause a 0
      | none =>
        let bs := (t.cols.map fun col => ((List.range t.k).map fun k => decodeVal fb (s.bElement tile col w0 (fmtBits fb) k)).toArray).toArray
        let bAt (j k : Nat) : Val := match bs[j]? with | some a => (match a[k]? with | some v => v | none => Val.zero) | none => Val.zero
        let q := n.fifo e.elem
        let ord := if opc = 1 then (if fb = 8 || fb = 6 then .integers else if fb = 2 then .steps else .groups) else mxOrder fa fb
        if opc = 1 then
          let n := n.mapRegion t fun _ j old =>
            sumCell old t.acc ord ((List.range t.k).map fun k => productTerm (.fin false 1 0) (bAt j k) 0 0) fun _ => e.tag.itr.toNat
          .done n 0 []
        else if opc = 2 then
          match takeVectors q t.k t.m with
          | none => .wait
          | some vs =>
            let cols := (vs.map fun v => (vectorElts fa t.m v).toArray).toArray
            let elt (k i : Nat) : Elt × Nat × Nat := match cols[k]? with | some a => (match a[i]? with | some z => z | none => (.absent, 0, 0)) | none => (.absent, 0, 0)
            let itr (i k : Nat) : Nat := match vs[k]? with | some v => fedItr v (elt k i).2.1 | none => 0
            let n := n.mapRegion t fun i j old =>
              sumCell old t.acc ord ((List.range t.k).map fun k => eltTerm (elt k i).1 (bAt j k) false k (elt k i).2.2) (itr i)
            .done n ((vs.map List.length).foldl (· + ·) 0) []
        else
          match takeVectors q t.m t.k with
          | none => .wait
          | some vs =>
            let rows := (vs.map fun v => (vectorElts fa t.k v).toArray).toArray
            let n := n.mapRegion t fun i j old =>
              let row := match rows[i]? with | some a => a.toList | none => []
              let v := match vs[i]? with | some v => v | none => []
              sumCell old t.acc ord (row.zipIdx.map fun z => eltTerm z.1.1 (bAt j z.2) (opc == 3) z.1.2.1 z.1.2.2) (fedItr v)
            .done n ((vs.map List.length).foldl (· + ·) 0) []

/-- The product terms of a row of RDOT or RDOTX in ascending K, each with the number of its x token and of its y token. A token ranks by the
K of its first element, x before y at equal K, R193. -/
def dotTerms (f k : Nat) (xs ys : List Fed) : List (Term × Nat × Nat) :=
  ((vectorElts f k xs).zip (vectorElts f k ys)).map fun z =>
    (pairTerm z.1.1 z.2.1 (2 * startsAt xs z.1.2.1) (2 * startsAt ys z.2.2.1 + 1) z.1.2.2 z.2.2.2, z.1.2.1, z.2.2.1)

/-- The ITR of the token of a rank of `dotTerms`. -/
def dotItr (xs ys : List Fed) (w : Nat) : Nat :=
  let v := if w % 2 = 0 then xs else ys
  match v.zipIdx.find? fun z => startsAt v z.2 == w / 2 with
  | some z => z.1.token.tag.itr.toNat
  | none => 0

/-- Vector `i` of those taken. -/
def vectorAt (vs : List (List Fed)) (i : Nat) : List Fed := match vs[i]? with | some v => v | none => []

/-- RDOT, R193 and R194: for each row a vector x and then a vector y. -/
def mxDot (t : MxWord) (n : Node) (e : Entry) : EntryOut :=
  let c := e.tag.ctx
  let f := t.fmt.toNat
  match n.foreignColumn c t.cols with
  | some k => .fault 0x06 k 0
  | none =>
    match takeVectors (n.fifo e.elem) (2 * t.m) t.k with
    | none => .wait
    | some vs =>
      let n := n.mapRegion t fun i _ old =>
        let xs := vectorAt vs (2 * i)
        let ys := vectorAt vs (2 * i + 1)
        sumCell old t.acc (mxOrder f f) ((dotTerms f t.k xs ys).map (·.1)) (dotItr xs ys)
      .done n ((vs.map List.length).foldl (· + ·) 0) []

/-- The first token of a list whose width is not its BLEN, R195. -/
def badBlock (q : List Fed) : Option Nat := (q.zipIdx.find? fun z => z.1.width != z.1.blen).map (·.2)

/-- A block of a row: its elements against B elements `b k` from element `k0` on, those from element `k` of the row on discarded, R149, R189
and R195. -/
def blockOf (f k : Nat) (a : Fed) (who : Nat) (b : Nat → Val) (k0 : Nat) (sb : Val) : BlockSum :=
  if a.token.tag.err then ⟨[⟨Val.zero, some a.token.orig, who, 0⟩], .fin false 1 0, .fin false 1 0, who, who, false⟩
  else if a.token.tag.nul then ⟨[], .fin false 1 0, .fin false 1 0, who, who, true⟩
  else
    { terms := (List.range (Min.min a.width (k - k0))).map fun j => productTerm (decodeVal f (a.token.lane (fmtBits f) j)) (b (k0 + j)) who j
      sa := decodeScale a.sfmt a.scale.toNat, sb := sb, wa := who, wb := who }

/-- MMAX, R149, R191 and R195. -/
def mxBlocks (s : State) (tile : Nat) (t : MxWord) (n : Node) (e : Entry) : EntryOut :=
  let c := e.tag.ctx
  let x := n.ctxRegs c
  let f := t.fmt.toNat
  let w0 := bStart x false t.boff.toNat
  let words := bWords t.k (fmtBits f)
  if 3072 < w0 + words then .fault 0x01 0 0
  else
    match n.foreignColumn c t.cols with
    | some k => .fault 0x06 k 0
    | none =>
      match n.fifo e.elem with
      | [] => .wait
      | first :: _ =>
        let nb := t.k / first.blen
        let z := if x.bsf = 2 then 2 else 1
        if first.width ≠ first.blen ∨ t.k % first.blen ≠ 0 ∨ 3072 < w0 + words + (nb * z + 3) / 4 then .fault 0x01 0 1
        else
          match s.bCause tile t.cols w0 (words + (nb * z + 3) / 4) with
          | some (cause, a) => .fault cause a 1
          | none =>
            match takeVectors (n.fifo e.elem) t.m t.k with
            | none =>
              match badBlock (n.fifo e.elem) with
              | some i => .fault 0x01 0 (i + 1)
              | none => .wait
            | some vs =>
              let used := (vs.map List.length).foldl (· + ·) 0
              match badBlock ((n.fifo e.elem).take used) with
              | some i => .fault 0x01 0 (i + 1)
              | none =>
                let n' := n.mapRegion t fun i j old =>
                  if t.acc && old.err then old
                  else
                    let v := match vs[i]? with | some v => v | none => []
                    let col := t.col0.toNat + j
                    let b (k : Nat) : Val := decodeVal f (s.bElement tile col w0 (fmtBits f) k)
                    let sb (q : Nat) : Val := decodeScale x.bsf.toNat (s.bytesAt (.overlay tile) (12288 * col + 4 * (w0 + words) + q * z) z)
                    let bs := v.zipIdx.map fun a => blockOf f t.k a.1 a.2 b (startsAt v a.2) (sb a.2)
                    cellOf (sumBlocks bs (decodeVal 0 x.ts.toNat) (if t.acc then some old.fp else none)) (fedItr v)
                .done n' used []

/-- Block `i` of a row of RDOTX: x token `i` and the elements that y has at the same K, R149 and R195. Its sb is the scale of the y token that
carries the block's first element (DESIGN CHOICE: the spec's `y's block j` is that token where y's BLEN is x's, and no other case is
stated). -/
def dotBlock (f k : Nat) (xs ys : List Fed) (i : Nat) : BlockSum :=
  let terms := (dotTerms f k xs ys).filter fun z => z.2.1 == i
  let y := ys[match terms with | z :: _ => z.2.2 | [] => i]?
  let plain (a : Option Fed) : Bool := match a with | some a => !a.token.tag.err && !a.token.tag.nul | none => false
  let null (a : Option Fed) : Bool := match a with | some a => a.token.tag.nul | none => false
  let scale (a : Option Fed) : Val := match a with
    | some a => if plain (some a) then decodeScale a.sfmt a.scale.toNat else .fin false 1 0
    | none => .fin false 1 0
  { terms := terms.map (·.1)
    sa := scale xs[i]?
    sb := scale y
    wa := 2 * startsAt xs i
    wb := 2 * startsAt ys (match terms with | z :: _ => z.2.2 | [] => i) + 1
    null := (null xs[i]? || null y) && terms.all fun z => z.1.bad.isNone }

/-- RDOTX, R149 and R195. -/
def mxDotBlocks (t : MxWord) (n : Node) (e : Entry) : EntryOut :=
  let c := e.tag.ctx
  let x := n.ctxRegs c
  let f := t.fmt.toNat
  match n.foreignColumn c t.cols with
  | some k => .fault 0x06 k 0
  | none =>
    match n.fifo e.elem with
    | [] => .wait
    | first :: _ =>
      if first.width ≠ first.blen ∨ t.k % first.blen ≠ 0 then .fault 0x01 0 1
      else
        match takeVectors (n.fifo e.elem) (2 * t.m) t.k with
        | none =>
          match badBlock (n.fifo e.elem) with
          | some i => .fault 0x01 0 (i + 1)
          | none => .wait
        | some vs =>
          let used := (vs.map List.length).foldl (· + ·) 0
          match badBlock ((n.fifo e.elem).take used) with
          | some i => .fault 0x01 0 (i + 1)
          | none =>
            let n' := n.mapRegion t fun i _ old =>
              if t.acc && old.err then old
              else
                let xs := vectorAt vs (2 * i)
                let ys := vectorAt vs (2 * i + 1)
                let bs := (List.range xs.length).map (dotBlock f t.k xs ys)
                cellOf (sumBlocks bs (decodeVal 0 x.ts.toNat) (if t.acc then some old.fp else none)) (dotItr xs ys)
            .done n' used []

/-! ## Replies, R198 -/

/-- The tag of a reply token of an entry, for row `m` of a region read. -/
def replyTag (e : Entry) (col : BitVec 5) (m : Nat) : Tag :=
  { ctx := e.tag.ctx, col := col, thr := e.tag.thr, frm := e.tag.frm, itr := e.tag.itr + BitVec.ofNat 12 m }

/-- AREAD and ACVT: one token per row; a row with a cell in error gives an error token, R198. `conv` gives the pattern of a
cell or the origin of R142. -/
def rowReplies (n : Node) (t : MxWord) (e : Entry) (col : BitVec 5) (b : Nat) (conv : Cell → Except Nat Nat) : List Token :=
  (List.range t.m).map fun i =>
    let cells := (List.range t.n).map fun j => n.cell (t.row0.toNat + i) (t.col0.toNat + j)
    let tag := replyTag e col i
    match cells.zipIdx.find? fun z => z.1.err with
    | some z =>
      let low := cells.foldl (fun (o : Nat) x => if x.err then Min.min o x.oitr.toNat else o) 4095
      errorToken { tag with itr := BitVec.ofNat 12 low } z.2 z.1.orig.toNat
    | none =>
      let ps := cells.map conv
      match ps.zipIdx.findSome? fun z => (match z.1 with | .error o => some (z.2, o) | .ok _ => none) with
      | some (lane, o) => errorToken tag lane o
      | none => laneToken tag b (ps.map fun p => match p with | .ok x => x | .error _ => 0)

/-- A single reply of UINT32 lanes, R197 and R198. -/
def wordsReply (e : Entry) (col : BitVec 5) (xs : List Nat) : Token := laneToken (replyTag e col 0) 32 xs

/-! ## Accumulator and bank operations, R197 -/

/-- The value that AWRITE and ABIAS read from a lane, R197: FP32 for a floating FMT or DS8, INT32 for an integer FMT. -/
def laneCell (f p : Nat) : Cell := if fmtIsInt f then intCell (decodeInt f p) else fpCell (decodeVal f p)

/-- A cell plus a lane's value, R197: FP32 rounded once, or wrapped INT32. -/
def addCell (old : Cell) (f p : Nat) : Cell :=
  if fmtIsInt f then intCell (old.int + decodeInt f p) else fpCell (Val.add old.fp (decodeVal f p))

/-- A check of the region's columns, then `k`. -/
def ownedRegion (n : Node) (t : MxWord) (e : Entry) (k : EntryOut) : EntryOut :=
  match n.foreignColumn e.tag.ctx t.cols with
  | some c => .fault 0x06 c 0
  | none => k

/-- ACLR. -/
def mxClear (t : MxWord) (n : Node) (e : Entry) : EntryOut :=
  ownedRegion n t e (.done (n.mapRegion t fun _ _ _ => {}) 0 [])

/-- AREAD, and an MXRDA request, R198. -/
def mxRead (t : MxWord) (n : Node) (e : Entry) (col : BitVec 5) : EntryOut :=
  ownedRegion n t e (.done n 0 (rowReplies n t e col 32 fun x => .ok x.value.toNat))

/-- ACVT: FP32 or INT32 cells converted to FMT under .RNE. -/
def mxConvert (t : MxWord) (n : Node) (e : Entry) : EntryOut :=
  let f := t.fmt.toNat
  let si := t.km1.getLsbD 5
  ownedRegion n t e (.done n 0 (rowReplies n t e t.rcol (fmtBits f) fun x =>
    encodeVal f .rne (if si then Val.ofInt x.int else x.fp)))

/-- AWRITE: M row tokens of N lanes. -/
def mxWrite (t : MxWord) (n : Node) (e : Entry) : EntryOut :=
  let f := t.fmt.toNat
  ownedRegion n t e <|
    match takeVectors (n.fifo e.elem) t.m t.n with
    | none => .wait
    | some vs =>
      let rows := vs.map fun v => v.zipIdx.map (fun x =>
        (List.range (Max.max x.1.width 1)).map fun j => (x.1, j)) |>.flatten
      let n := n.mapRegion t fun i j old =>
        match rows[i]? with
        | none => old
        | some r =>
          match r[j]? with
          | none => if t.acc then old else {}
          | some (fed, lane) =>
            if fed.token.tag.err then (if t.acc && old.err then old else errorCell fed.token.orig fed.token.tag.itr.toNat)
            else if fed.token.tag.nul then old
            else
              let p := fed.token.lane (fmtBits f) lane
              if t.acc then (if old.err then old else addCell old f p) else laneCell f p
      .done n ((vs.map List.length).foldl (· + ·) 0) []

/-- ASCALE: TS := lane 0 of one token. -/
def mxScale (t : MxWord) (n : Node) (e : Entry) : EntryOut :=
  let f := t.fmt.toNat
  match n.fifo e.elem with
  | [] => .wait
  | fed :: _ =>
    let x := n.ctxRegs e.tag.ctx
    let ts : BitVec 32 :=
      if fed.token.tag.err then 0x7FC00000
      else if fed.token.tag.nul then x.ts
      else (fpCell (decodeVal f (fed.token.lane (fmtBits f) 0))).value
    .done (n.setCtx e.tag.ctx { x with ts := ts }) 1 []

/-- ABIAS: one token of N lanes added to every row. -/
def mxBias (t : MxWord) (n : Node) (e : Entry) : EntryOut :=
  let f := t.fmt.toNat
  ownedRegion n t e <|
    match takeVector (n.fifo e.elem) t.n with
    | none => .wait
    | some v =>
      let lanes := (v.map fun fed => (List.range (Max.max fed.width 1)).map fun j => (fed, j)).flatten
      let n := n.mapRegion t fun _ j old =>
        match lanes[j]? with
        | none => old
        | some (fed, lane) =>
          if old.err then old
          else if fed.token.tag.err then errorCell fed.token.orig fed.token.tag.itr.toNat
          else if fed.token.tag.nul then old
          else addCell old f (fed.token.lane (fmtBits f) lane)
      .done n v.length []

/-- f of AACT, R197. -/
def actCell (act : Nat) (x : Cell) : Cell :=
  match act with
  | 0 => { x with value := match x.fp with | .nan => 0x7FC00000 | v => if v.isNeg || v.isZero then 0 else x.value }
  | 4 => { x with value := if x.int < 0 then 0 else x.value }
  | n => { x with value := BitVec.ofNat 32 (match boundedFn (n + 5) 0 0 x.value.toNat with | .ok p => p | .error _ => 0x7FC00000) }

def mxAct (t : MxWord) (n : Node) (e : Entry) : EntryOut :=
  ownedRegion n t e (.done (n.mapRegion t fun _ _ x => if x.err then x else actCell (t.km1.toNat % 8) x) 0 [])

/-- ATRN: cells (i, j) and (j, i) of a square region exchange value and status. -/
def mxTranspose (t : MxWord) (n : Node) (e : Entry) : EntryOut :=
  ownedRegion n t e (.done (n.mapRegion t fun i j _ => n.cell (t.row0.toNat + j) (t.col0.toNat + i)) 0 [])

/-- BSEL, BFLIP. -/
def mxSelect (t : MxWord) (n : Node) (e : Entry) : EntryOut :=
  let x := n.ctxRegs e.tag.ctx
  let x := if t.km1.getLsbD 2 then { x with base1 := t.boff.toNat } else { x with base0 := t.boff.toNat }
  .done (n.setCtx e.tag.ctx { x with bsf := t.km1.extractLsb' 0 2 }) 0 []

def mxFlip (n : Node) (e : Entry) : EntryOut :=
  let x := n.ctxRegs e.tag.ctx
  .done (n.setCtx e.tag.ctx { x with cb := !x.cb }) 0 []

/-- BSTAT. -/
def mxStatus (t : MxWord) (n : Node) (e : Entry) : EntryOut :=
  let x := n.ctxRegs e.tag.ctx
  let owned := (List.range 128).countP fun c => n.column c == .owned e.tag.ctx
  let parked := (List.range 128).countP fun c => match n.column c with | .parked _ => true | _ => false
  .done n 0 [wordsReply e t.rcol [x.base0, x.base1, if x.cb then 1 else 0, x.bsf.toNat, owned, parked, n.queue.length - 1, 0]]

/-- AERRQ. -/
def mxErrors (t : MxWord) (n : Node) (e : Entry) : EntryOut :=
  ownedRegion n t e <|
    let at_ := (t.rows.map fun r => t.cols.map fun c => (cellIndex r c, n.cell r c)).flatten
    let bad := at_.filter fun x => x.2.err
    let reply := match bad with
      | [] => [0, 0xFFFFFFFF, 0, 0]
      | (i, x) :: _ => [bad.length, i, x.oitr.toNat, x.orig.toNat]
    let n := if t.acc then n.mapRegion t fun _ _ x => { x with err := false, orig := 0, oitr := 0 } else n
    .done n 0 [wordsReply e t.rcol reply]

/-- AFLUSH and ASYNC: every earlier entry has completed, and with it its overlay writes, R190 and R197. -/
def mxSync (t : MxWord) (n : Node) (e : Entry) : EntryOut := .done n 0 [wordsReply e t.rcol [0]]

/-! ## Running the head entry -/

namespace State

/-- The node stops with a fault recorded in MXFLT, R201; the tokens the entry had consumed leave the FIFO. -/
def nodeFault (s : State) (tile : Nat) (e : Entry) (cause val ate : Nat) : State :=
  ((s.noteError tile cause).tick.modNode tile fun n =>
    { n.eat e.elem ate with
      fault := some ⟨e.tag.ctx.toNat, e.elem, cause, BitVec.ofNat 56 val, e.word, (n.fifo e.elem).take ate, s.serial⟩ }).pauseFrozen e.tag.ctx.toNat

/-- The entry completes: its changes appear together, and its replies enter the switch of the element that sent it, R190
and R198. -/
def nodeDone (s : State) (tile : Nat) (e : Entry) (n : Node) (ate : Nat) (replies : List Token) : State :=
  let n := { n.eat e.elem ate with queue := n.queue.drop 1 }
  replies.foldl (fun s r => s.inject (64 * tile + e.elem) 6 r) { s with nodes := SMap.set s.nodes tile n }

def nodeOut (s : State) (tile : Nat) (e : Entry) : EntryOut → State
  | .wait => s
  | .fault c v ate => s.nodeFault tile e c v ate
  | .done n ate rs => s.nodeDone tile e n ate rs

/-- The entry at the head of the focused tile's queue runs as opcode `opc` with fields `t`, unless the node has stopped; a
malformed token stops it, R56 and R201. -/
def nodeRun (s : State) (opc : Nat) (t : MxWord) (k : State → Nat → Node → Entry → State) : State :=
  let tile := s.focus.tile
  let n := s.node tile
  match n.fault, n.queue with
  | none, e :: _ =>
    match t.checkOpc opc with
    | some _ => s.nodeFault tile e 0x01 0 0
    | none => k s tile n e
  | _, _ => s

/-- As `nodeRun`, for an entry that changes only the node. -/
def nodePure (s : State) (opc : Nat) (t : MxWord) (k : Node → Entry → EntryOut) : State :=
  s.nodeRun opc t fun s tile n e => s.nodeOut tile e (k n e)

/-! ## BLOAD, R197 -/

/-- The lanes of BLOAD's tokens as patterns of FMT: the first token that cannot be converted, by number. -/
def loadLanes (f : Nat) (vs : List (List Fed)) (nn : Nat) : Except Nat (List (List (Option Nat))) :=
  let rec go (vs : List (List Fed)) (seen : Nat) : Except Nat (List (List (Option Nat))) :=
    match vs with
    | [] => .ok []
    | v :: r =>
      let lanes := (v.zipIdx.map fun z => (List.range (Max.max z.1.width 1)).map fun j =>
        if z.1.token.tag.err then (Except.error (seen + z.2 + 1) : Except Nat (Option Nat))
        else if z.1.token.tag.nul then .ok none
        else match encodeVal f .rne (decodeVal z.1.fmt (z.1.token.lane (fmtBits z.1.fmt) j)) with
          | .ok p => .ok (some p)
          | .error _ => .error (seen + z.2 + 1)).flatten.take nn
      match lanes.mapM id, go r (seen + v.length) with
      | .error i, _ => .error i
      | .ok _, .error i => .error i
      | .ok ps, .ok qs => .ok (ps :: qs)
  go vs 0

/-- One element of a B operand written in the overlay: bits of its bytes outside it keep their values. -/
def bWrite (s : State) (c tile col w0 b k p : Nat) : State :=
  let a := 12288 * col + 4 * w0 + b * k / 8
  let n := (b + 7) / 8
  let sh := b * k % 8
  let old := s.bytesAt (.overlay tile) a n
  let low := old % 2 ^ sh
  let high := old >>> (sh + b)
  s.performFor c (.overlay tile) a n (low + (p % 2 ^ b) <<< sh + high <<< (sh + b))

def mxLoad (s : State) (tile : Nat) (t : MxWord) (n : Node) (e : Entry) : State :=
  let f := t.fmt.toNat
  let w0 := bStart (n.ctxRegs e.tag.ctx) t.acc t.boff.toNat
  if 3072 < w0 + bWords t.k (fmtBits f) then s.nodeFault tile e 0x01 0 0
  else
    match n.foreignColumn e.tag.ctx t.cols with
    | some c => s.nodeFault tile e 0x06 c 0
    | none =>
      match takeVectors (n.fifo e.elem) t.k t.n with
      | none => s
      | some vs =>
        match loadLanes f vs t.n with
        | .error i => s.nodeFault tile e 0x01 0 i
        | .ok rows =>
          let s := rows.zipIdx.foldl (fun s r => r.1.zipIdx.foldl (fun s l =>
            match l.1 with
            | some p => s.bWrite e.tag.ctx.toNat tile (t.col0.toNat + l.2) w0 (fmtBits f) r.2 p
            | none => s) s) s
          s.nodeDone tile e n ((vs.map List.length).foldl (· + ·) 0) []

end State

/-! ## Columns, R19, R199 and R200 -/

/-- A column that no context owns and that holds no bank, R18. -/
def Node.freeColumn (n : Node) (avoid : List Nat) : Option Nat :=
  (List.range 128).find? fun c => n.column c == .free && !avoid.contains c

/-- A free register bank of a tile, R18. -/
def Tile.freeBank (T : Tile) : Option Nat :=
  (List.range 8).find? fun b => !(List.range 32).any fun n => (T.task n).state != .free && (T.task n).place == .bank b

namespace State

/-- The bytes of a task's registers as one number, s0 first, R18. -/
def regsNat (k : Task) : Nat := (List.range 32).foldl (fun x i => x + (k.reg (BitVec.ofNat 5 i)).toNat <<< (64 * i)) 0
def regsOfNat (k : Task) (x : Nat) : Task :=
  (List.range 32).foldl (fun k i => k.setReg (BitVec.ofNat 5 i) (word (x >>> (64 * i) % 2 ^ 64))) k

/-- The registers of task `tid` are written to its slot of the spill area, R18 step 3; none when AREA is zero or the page
does not translate for reads and writes. The access is the core's own, in supervisor state. -/
def spillRegs (s : State) (tile tid : Nat) : Option State × State :=
  let k := (s.tile tile).task tid
  let area := ((s.tile tile).ctx k.ctx.toNat).area.toNat
  if area = 0 then (none, s)
  else
    match s.probe (tileDie tile) k.ctx.toNat (area * 65536 + 256 * tid) 256 { read := true, write := true, sup := true } with
    | (.error _, s) => (none, s)
    | (.ok (sp, pa), s) =>
      let s' := ((s.atHome (taskAgent tile tid) none sp pa 256).perform sp pa 256 (regsNat k)).modTile tile fun T =>
        T.modTask tid fun k => { k with place := .area tid }
      (some s', s)

/-- The registers of task `tid` come back from its slot of the spill area. -/
def fetchRegs (s : State) (tile tid : Nat) : Option State × State :=
  let k := (s.tile tile).task tid
  let area := ((s.tile tile).ctx k.ctx.toNat).area.toNat
  match s.probe (tileDie tile) k.ctx.toNat (area * 65536 + 256 * tid) 256 { read := true, write := true, sup := true } with
  | (.error _, s) => (none, s)
  | (.ok (sp, pa), s) =>
    let s := s.atHome (taskAgent tile tid) none sp pa 256
    let x := s.bytesAt sp pa 256
    -- results that came while the registers were out take the place of what stands there
    (some (s.modTile tile fun T => T.modTask tid fun k => { k.late.foldl (fun k e => k.setReg e.1 e.2) (regsOfNat k x) with late := [] }), s)

/-- A parked bank leaves column `c` for another unallocated column outside `avoid`, the spill area, or a free bank, R19. -/
def moveParked (s : State) (tile c tid : Nat) (avoid : List Nat) : Option State × State :=
  match (s.node tile).freeColumn avoid with
  | some d => (some ((s.modNode tile fun n => (n.setColumn c .free).setColumn d (.parked tid)).modTile tile fun T =>
      T.modTask tid fun k => { k with place := .column d }), s)
  | none =>
    match s.spillRegs tile tid with
    | (some s', _) => (some (s'.modNode tile fun n => n.setColumn c .free), s)
    | (none, s) =>
      match (s.tile tile).freeBank with
      | some b => (some ((s.modNode tile fun n => n.setColumn c .free).modTile tile fun T => T.modTask tid fun k => { k with place := .bank b }), s)
      | none => (none, s)

/-- The columns are allocated in ascending order, R199; none while a parked bank has no place to go. -/
def allocColumns (s : State) (tile : Nat) (ctx : BitVec 2) (all : List Nat) : List Nat → Option State
  | [] => some s
  | c :: r =>
    match (s.node tile).column c with
    | .owned _ => s.allocColumns tile ctx all r
    | .free => (s.modNode tile fun n => (n.clearColumn c).setColumn c (.owned ctx)).allocColumns tile ctx all r
    | .parked tid =>
      match s.moveParked tile c tid all with
      | (none, _) => none
      | (some s, _) => (s.modNode tile fun n => (n.clearColumn c).setColumn c (.owned ctx)).allocColumns tile ctx all r

/-- The first column of the list that another context owns, R199. -/
def othersColumn (n : Node) (ctx : BitVec 2) (cols : List Nat) : Option Nat :=
  cols.find? fun c => match n.column c with | .owned d => d != ctx | _ => false

def mxAlloc (s : State) (tile : Nat) (t : MxWord) (n : Node) (e : Entry) : State :=
  match othersColumn n e.tag.ctx t.cols with
  | some c => s.nodeFault tile e 0x06 c 0
  | none =>
    match s.allocColumns tile e.tag.ctx t.cols t.cols with
    | none => s
    | some s => s.nodeDone tile e (s.node tile) 0 []

def mxFree (s : State) (tile : Nat) (t : MxWord) (n : Node) (e : Entry) : State :=
  match n.foreignColumn e.tag.ctx t.cols with
  | some c => s.nodeFault tile e 0x06 c 0
  | none => s.nodeDone tile e (t.cols.foldl (fun n c => n.setColumn c .free) n) 0 []

/-- The 384 bytes of a column, R200: 64 values, then 64 status halfwords. -/
def columnNat (n : Node) (c : Nat) : Nat :=
  let vals := (List.range 64).foldl (fun x r => x + (n.cell r c).value.toNat <<< (32 * r)) 0
  let stat (x : Cell) : Nat := (if x.err then 32768 else 0) + x.orig.toNat * 4096 + x.oitr.toNat
  (List.range 64).foldl (fun x r => x + stat (n.cell r c) <<< (2048 + 16 * r)) vals

def columnOfNat (n : Node) (c x : Nat) : Node :=
  (List.range 64).foldl (fun n r =>
    let st := x >>> (2048 + 16 * r) % 65536
    n.setCell r c ⟨BitVec.ofNat 32 (x >>> (32 * r)), decide (32768 ≤ st), BitVec.ofNat 3 (st / 4096), BitVec.ofNat 12 st⟩) n

/-- CPARK and CFETCH move the columns one by one; `step` moves column `c` at address `a`. The first cause ends the entry
with its address; what was moved before it stays moved. -/
def moveColumns (s : State) (tile : Nat) (e : Entry) (write : Bool) : List Nat → Nat → Except (Nat × Nat × State) State
  | [], _ => .ok s
  | c :: r, a =>
    match s.probeAll (tileDie tile) e.tag.ctx.toNat { read := !write, write := write } (pieces 3 a 384) with
    | (.error (cause, va), s) => .error (cause, va, s)
    | (.ok ps, s) =>
      let s := ps.foldl (fun s p => s.atHome (elemAgent (64 * tile + e.elem)) none p.1 p.2.1 p.2.2) s
      if write then (s.writePieces e.tag.ctx.toNat (columnNat (s.node tile) c) ps).moveColumns tile e write r (a + 384)
      else
        match ps.findSome? fun p => (s.store p.1).readCause p.2.1 p.2.2 with
        | some cause => .error (cause, a, s)
        | none =>
          let x := s.readPieces ps
          let s := ps.foldl (fun s p => s.correct (tileDie tile) p.1 p.2.1 p.2.2) s
          (s.modNode tile fun n => columnOfNat n c x).moveColumns tile e write r (a + 384)

/-- The device address of CPARK and CFETCH: lane 0 of their token as UINT64, R200. A null or an error token carries none. -/
def parkAddress (f : Fed) : Nat := f.token.lane 64 0

def mxPark (s : State) (tile : Nat) (t : MxWord) (n : Node) (e : Entry) : State :=
  match n.fifo e.elem with
  | [] => s
  | f :: _ =>
    let a := parkAddress f
    if a % 128 ≠ 0 then s.nodeFault tile e 0x03 a 1
    else
      match n.foreignColumn e.tag.ctx t.cols with
      | some c => s.nodeFault tile e 0x06 c 1
      | none =>
        match s.moveColumns tile e true t.cols a with
        | .error (cause, va, s) => s.nodeFault tile e cause va 1
        | .ok s => s.nodeDone tile e (t.cols.foldl (fun n c => n.setColumn c .free) (s.node tile)) 1 []

def mxFetch (s : State) (tile : Nat) (t : MxWord) (n : Node) (e : Entry) : State :=
  match n.fifo e.elem with
  | [] => s
  | f :: _ =>
    let a := parkAddress f
    if a % 128 ≠ 0 then s.nodeFault tile e 0x03 a 1
    else
      match othersColumn n e.tag.ctx t.cols with
      | some c => s.nodeFault tile e 0x06 c 1
      | none =>
        match s.allocColumns tile e.tag.ctx t.cols t.cols with
        | none => s
        | some s =>
          match s.moveColumns tile e false t.cols a with
          | .error (cause, va, s) => (s.modNode tile fun n => t.cols.foldl Node.clearColumn n).nodeFault tile e cause va 1
          | .ok s => s.nodeDone tile e (s.node tile) 1 []

end State

/-! ## The opcodes, R55 -/

def execMma (t : MxWord) (s : State) : Out := settle (s.nodeRun 0 t fun s tile n e => s.nodeOut tile e (mxMultiply s tile 0 t n e))
def execMmao (t : MxWord) (s : State) : Out := settle (s.nodeRun 1 t fun s tile n e => s.nodeOut tile e (mxMultiply s tile 1 t n e))
def execMmat (t : MxWord) (s : State) : Out := settle (s.nodeRun 2 t fun s tile n e => s.nodeOut tile e (mxMultiply s tile 2 t n e))
def execMmas (t : MxWord) (s : State) : Out := settle (s.nodeRun 3 t fun s tile n e => s.nodeOut tile e (mxMultiply s tile 3 t n e))
def execMmax (t : MxWord) (s : State) : Out := settle (s.nodeRun 4 t fun s tile n e => s.nodeOut tile e (mxBlocks s tile t n e))
def execMmad (t : MxWord) (s : State) : Out := settle (s.nodeRun 5 t fun s tile n e => s.nodeOut tile e (mxMultiply s tile 5 t n e))
def execMmai (t : MxWord) (s : State) : Out := settle (s.nodeRun 6 t fun s tile n e => s.nodeOut tile e (mxMultiply s tile 6 t n e))
def execMmaq (t : MxWord) (s : State) : Out := settle (s.nodeRun 7 t fun s tile n e => s.nodeOut tile e (mxMultiply s tile 7 t n e))
def execMmab (t : MxWord) (s : State) : Out := settle (s.nodeRun 8 t fun s tile n e => s.nodeOut tile e (mxMultiply s tile 8 t n e))
def execMmaf (t : MxWord) (s : State) : Out := settle (s.nodeRun 9 t fun s tile n e => s.nodeOut tile e (mxMultiply s tile 9 t n e))
def execMxRdot (t : MxWord) (s : State) : Out := .next (s.nodePure 10 t (mxDot t))
def execRdotx (t : MxWord) (s : State) : Out := .next (s.nodePure 11 t (mxDotBlocks t))
def execAclr (t : MxWord) (s : State) : Out := .next (s.nodePure 12 t (mxClear t))
def execAread (t : MxWord) (s : State) : Out := .next (s.nodePure 13 t (fun n e => mxRead t n e t.rcol))
def execAwrite (t : MxWord) (s : State) : Out := .next (s.nodePure 14 t (mxWrite t))
def execAscale (t : MxWord) (s : State) : Out := .next (s.nodePure 15 t (mxScale t))
def execAcvt (t : MxWord) (s : State) : Out := .next (s.nodePure 16 t (mxConvert t))
def execAbias (t : MxWord) (s : State) : Out := .next (s.nodePure 17 t (mxBias t))
def execAact (t : MxWord) (s : State) : Out := .next (s.nodePure 18 t (mxAct t))
def execAtrn (t : MxWord) (s : State) : Out := .next (s.nodePure 19 t (mxTranspose t))
def execBload (t : MxWord) (s : State) : Out := settle (s.nodeRun 20 t fun s tile n e => s.mxLoad tile t n e)
def execBsel (t : MxWord) (s : State) : Out := .next (s.nodePure 21 t (mxSelect t))
def execBflip (t : MxWord) (s : State) : Out := .next (s.nodePure 22 t mxFlip)
def execBstat (t : MxWord) (s : State) : Out := .next (s.nodePure 23 t (mxStatus t))
def execCalloc (t : MxWord) (s : State) : Out := settle (s.nodeRun 24 t fun s tile n e => s.mxAlloc tile t n e)
def execCfree (t : MxWord) (s : State) : Out := settle (s.nodeRun 25 t fun s tile n e => s.mxFree tile t n e)
def execCpark (t : MxWord) (s : State) : Out := settle (s.nodeRun 26 t fun s tile n e => s.mxPark tile t n e)
def execCfetch (t : MxWord) (s : State) : Out := settle (s.nodeRun 27 t fun s tile n e => s.mxFetch tile t n e)
def execAerrq (t : MxWord) (s : State) : Out := .next (s.nodePure 28 t (mxErrors t))
def execAflush (t : MxWord) (s : State) : Out := .next (s.nodePure 29 t (mxSync t))
def execAsync (t : MxWord) (s : State) : Out := .next (s.nodePure 30 t (mxSync t))
def execAnop (t : MxWord) (s : State) : Out := .next (s.nodePure 31 t (fun n _ => .done n 0 []))

end Sys2Proof.Machine
end

