-- ==== Sys2Proof/Machine/ElemMatrix.lean ====
section
/-! DEFINITION. The matrix interface, op 95–97 (R56, R169, R188, R189). -/

namespace Sys2Proof.Machine

/-- How many vectors, and of how many elements, the entry of a control token takes from its element's FIFO, R189 and R197. -/
def entryNeeds (w : BitVec 64) : Nat × Nat :=
  let t := mxFields w
  match (w.extractLsb' 0 5).toNat with
  | 0 | 3 | 4 | 5 | 6 | 7 | 8 | 9 => (t.m, t.k)
  | 2 => (t.k, t.m)
  | 10 | 11 => (2 * t.m, t.k)
  | 14 => (t.m, t.n)
  | 15 | 26 | 27 => (1, 1)
  | 17 => (1, t.n)
  | 20 => (t.k, t.n)
  | _ => (0, 0)

/-- What remains of a FIFO when `rows` vectors of `len` elements are taken from its front as far as they have come; `left`
counts the elements still missing of the present vector. -/
def afterNeeds (len : Nat) : Nat → Nat → List Fed → List Fed
  | _, _, [] => []
  | rows, left, f :: r =>
    let left' := left - Max.max f.width 1
    if rows = 0 then f :: r
    else if left' = 0 then afterNeeds len (rows - 1) len r
    else afterNeeds len rows left' r

def Fed.beats (f : Fed) : Nat := f.token.toBeats.length

/-- The FIFO of an element takes one token more: 16 beats beside those that the entry at the head takes away, R188, R189. -/
def Node.feedRoom (n : Node) (e : Nat) (f : Fed) : Bool :=
  let q := n.fifo e ++ [f]
  let rest := match n.queue with
    | h :: _ => if h.elem = e ∧ n.fault = none then (let k := entryNeeds h.word; afterNeeds k.2 k.1 k.2 q) else q
    | [] => q
  (rest.map Fed.beats).foldl (· + ·) 0 ≤ 16

/-- An entry joins the node's queue when it has room, R188. -/
def State.enqueue (s : State) (F : Firing) (w : BitVec 64) : Option State :=
  if 64 ≤ (s.node (gidTile F.g)).queue.length then none
  else some (s.modNode (gidTile F.g) fun n => { n with queue := n.queue ++ [⟨gidElem F.g, w, F.src⟩] })

/-- MXCTL and MXRDA: an error token A is cause 0x01 with its payload; a null token or pm sends nothing, R169. -/
def sendEntry (word : ElemCtx → Firing → BitVec 64) (s : State) (F : Firing) : Option Deed :=
  match F.a with
  | some a =>
    if a.token.tag.err then Firing.quiet (s.fireFault F 0x01 (BitVec.ofNat 64 (bitString a.token.beats)))
    else quietly (fun s F => s.enqueue F (word (s.ectx F.g F.c) F)) s F
  | none => quietly (fun s F => s.enqueue F (word (s.ectx F.g F.c) F)) s F

/-- Bits [63:0] of A's first beat. -/
def controlWord (x : ElemCtx) (F : Firing) : BitVec 64 :=
  match F.a with
  | some a => BitVec.ofNat 64 (bitString a.token.beats)
  | none => BitVec.ofNat 64 ((F.la x).at 0)

/-- The AREAD token of an MXRDA, R198: the region from B_0, the reply colour from the word. -/
def readWord (x : ElemCtx) (F : Firing) : BitVec 64 :=
  let b := F.b0 x
  packMx 13 ⟨0, 0, BitVec.ofNat 6 (bitsOf b 5 0), BitVec.ofNat 7 (bitsOf b 18 12), F.w.col.setWidth 12, BitVec.ofNat 7 (bitsOf b 25 19),
    BitVec.ofNat 6 (bitsOf b 11 6), false⟩

/-- MXFEED: A's token with its width, block length and scale; null and error tokens stand as one beat, R169. -/
def feed (s : State) (F : Firing) : Option Deed :=
  let x := s.ectx F.g F.c
  let a : Arg := match F.a with
    | some a => a
    | none => x.arg (F.same x F.tag) none
  let nul (t : Token) : Bool := t.tag.nul && !t.tag.err
  let send (t : Token) : Option Deed :=
    let f : Fed := ⟨t, a.width, a.fmt, a.blen, a.scale, (x.entry a.token.tag.col.toNat).sfmt.toNat⟩
    let n := s.node (gidTile F.g)
    if n.feedRoom (gidElem F.g) f then
      Firing.quiet (s.modNode (gidTile F.g) fun n => { n with fifos := SMap.set n.fifos (gidElem F.g) (n.fifo (gidElem F.g) ++ [f]) })
    else none
  if a.token.tag.err || nul a.token then send a.token
  else
    match verdict F.w.pm F.prdA with
    | .nothing => Firing.quiet s
    | .null => send (nullToken a.token.tag)
    | .compute => send a.token

/-- MXCTL, R169. -/
def fireMxctl (w : OpWord) (s : State) : Option State := s.fireBy w 95 (sendEntry controlWord)
def execMxctl (w : OpWord) (s : State) : Out := s.after (fireMxctl w s)

/-- MXFEED, R169. -/
def fireMxfeed (w : OpWord) (s : State) : Option State := s.fireBy w 96 feed
def execMxfeed (w : OpWord) (s : State) : Out := s.after (fireMxfeed w s)

/-- MXRDA, R169 and R198. -/
def fireMxrda (w : OpWord) (s : State) : Option State := s.fireBy w 97 (sendEntry readWord)
def execMxrda (w : OpWord) (s : State) : Out := s.after (fireMxrda w s)

end Sys2Proof.Machine
end

