-- ==== Sys2Proof/Machine/Arbiter.lean ====
section
/-! DEFINITION. The arbiter of an element, R124, and the admission of a block, R118: the operation word of a slot fires by its op
number. -/

namespace Sys2Proof.Machine

/-- The focused slot, holding the fields `w` of op `n`, fires, R47; none for an op that R47 does not assign. -/
def fireNum (n : Nat) (w : OpWord) (s : State) : Option State :=
  match n with
  | 0 => fireElemAdd w s
  | 1 => fireElemSub w s
  | 2 => fireElemMul w s
  | 3 => fireMac w s
  | 4 => fireElemMin w s
  | 5 => fireElemMax w s
  | 6 => fireAbs w s
  | 7 => fireNeg w s
  | 8 => fireElemAnd w s
  | 9 => fireElemOr w s
  | 10 => fireElemXor w s
  | 11 => fireNot w s
  | 12 => fireElemShl w s
  | 13 => fireElemShr w s
  | 14 => fireElemSha w s
  | 15 => fireClamp w s
  | 16 => fireFadd w s
  | 17 => fireFsub w s
  | 18 => fireFmul w s
  | 19 => fireFma w s
  | 20 => fireFmin w s
  | 21 => fireFmax w s
  | 22 => fireFabs w s
  | 23 => fireFneg w s
  | 24 => fireFdiv w s
  | 25 => fireFsqrt w s
  | 26 => fireFrcp w s
  | 27 => fireFrsq w s
  | 28 => fireFexp w s
  | 29 => fireFlog w s
  | 30 => fireFtanh w s
  | 31 => fireFsig w s
  | 32 => fireCvt w s
  | 33 => fireCvtr w s
  | 34 => firePack w s
  | 35 => fireUnpack w s
  | 36 => fireScale w s
  | 37 => fireQnt w s
  | 38 => fireCmpeq w s
  | 39 => fireCmpne w s
  | 40 => fireCmplt w s
  | 41 => fireCmple w s
  | 42 => fireSteer w s
  | 43 => fireMerge w s
  | 44 => fireMergeo w s
  | 45 => fireGate w s
  | 46 => fireSelp w s
  | 47 => fireNullgen w s
  | 48 => fireTaginc w s
  | 49 => fireTagset w s
  | 50 => fireTagget w s
  | 51 => fireTagclr w s
  | 52 => fireReord w s
  | 53 => fireCtxalloc w s
  | 54 => fireColpack w s
  | 55 => fireColunpk w s
  | 56 => fireFramealloc w s
  | 57 => fireFramefree w s
  | 58 => fireSpawn w s
  | 59 => fireStamp w s
  | 60 => fireLoopb w s
  | 61 => fireLoope w s
  | 62 => fireLoopt w s
  | 63 => fireLoopx w s
  | 64 => fireLoopi w s
  | 65 => fireRsum w s
  | 66 => fireRmax w s
  | 67 => fireRmin w s
  | 68 => fireRand w s
  | 69 => fireElemRor w s
  | 70 => fireRxor w s
  | 71 => fireElemRdot w s
  | 72 => fireRcnt w s
  | 73 => fireShuf w s
  | 74 => fireBcast w s
  | 75 => fireRotl w s
  | 76 => fireLsel w s
  | 77 => fireScanadd w s
  | 78 => fireTopk w s
  | 79 => fireNld w s
  | 80 => fireNst w s
  | 81 => fireNldt w s
  | 82 => fireAld w s
  | 83 => fireAst w s
  | 84 => fireAldr w s
  | 85 => fireSld w s
  | 86 => fireSldc w s
  | 87 => fireVst w s
  | 88 => fireOupd w s
  | 89 => fireFencee w s
  | 90 => firePfetch w s
  | 91 => fireDupd w s
  | 92 => fireDldt w s
  | 93 => fireDlds w s
  | 94 => fireDfront w s
  | 95 => fireMxctl w s
  | 96 => fireMxfeed w s
  | 97 => fireMxrda w s
  | 98 => fireNop w s
  | 99 => fireConst w s
  | 100 => fireCopyt w s
  | 101 => fireSink w s
  | 102 => fireErrchk w s
  | 103 => fireTrape w s
  | 104 => fireBrk w s
  | 105 => fireAdds w s
  | 106 => fireSubs w s
  | 107 => fireMuls w s
  | 108 => fireElemPopc w s
  | 109 => fireElemClz w s
  | 110 => fireFrnd w s
  | 111 => fireFcls w s
  | 112 => fireFcps w s
  | 113 => fireAvg w s
  | 114 => fireSad w s
  | 115 => fireHist w s
  | 116 => fireLut w s
  | 117 => fireBits w s
  | 118 => fireBiti w s
  | 119 => fireIdx w s
  | _ => none

namespace State

/-- A slot of an element's context becomes the focus. -/
def focusSlot (s : State) (g c n : Nat) : State := { s with focus := { s.focus with gid := g, ctx := c, slot := n } }

/-- The operation word that a slot holds. -/
def slotWord (s : State) (g c n : Nat) : Word32 := ((s.ectx g c).slot n).opw

/-- The slot fires by its own operation word; none where it is not ready. -/
def fireSlot (s : State) (g c n : Nat) : Option State :=
  fireNum (opNum (s.slotWord g c n)) (opFields (s.slotWord g c n)) (s.focusSlot g c n)

/-- The rank of a slot among the slots of its priority, R124: the key of the first set of tokens on which it is ready. -/
def slotKey (s : State) (g c n : Nat) : Option Nat :=
  (s.candidates g c n (opFields (s.slotWord g c n)) (opNum (s.slotWord g c n))).head?.map (·.1)

/-- The slots of an element's contexts of priority `p` that hold the tokens of a firing, in the arbiter's order; at one rank the
lowest slot number first. -/
def rankedAt (s : State) (g p : Nat) : List (Nat × (Nat × Nat)) :=
  ((List.range 16).map fun n => ((List.range 4).filter fun c => ((s.tile (gidTile g)).ctx c).prio.toNat == p).map fun c => (n, c)).flatten.foldl
    (fun l q =>
      match s.slotKey g q.2 q.1 with
      | none => l
      | some k => insertKey k (q.2, q.1) l) []

/-- All of them, the highest priority first, R124. -/
def ranked (s : State) (g : Nat) : List (Nat × (Nat × Nat)) :=
  ((List.range 8).map fun p => s.rankedAt g (7 - p)).flatten

/-- The number under which an element keeps how long a slot has waited. -/
def slotNumber (q : Nat × Nat) : Nat := 16 * q.1 + q.2

/-- The slots of the highest priority that have one ready, R124. -/
def topRanked (s : State) (g : Nat) : List (Nat × (Nat × Nat)) :=
  (((List.range 8).map fun p => s.rankedAt g (7 - p)).find? (· != [])).getD []

/-- The slot that has been passed over longest. -/
def longest (w : SMap Nat) : List (Nat × (Nat × Nat)) → Option (Nat × (Nat × Nat))
  | [] => none
  | r :: rs =>
    match longest w rs with
    | some q => if SMap.getD w (slotNumber r.2) 0 < SMap.getD w (slotNumber q.2) 0 then some q else some r
    | none => some r

/-- The bound of 64 issue opportunities is due for a slot of the list: those that have waited as long as it fill the opportunities that
are left to it, R124. -/
def boundDue (w : SMap Nat) (rs : List (Nat × (Nat × Nat))) : Bool :=
  rs.any fun r =>
    let k := SMap.getD w (slotNumber r.2) 0
    decide (64 ≤ k + (rs.filter fun q => decide (k ≤ SMap.getD w (slotNumber q.2) 0)).length)

/-- The slots in the order in which the arbiter tries them, R124. DESIGN CHOICE: where the bound of 64 issue opportunities leaves no other
way, the slot that has been passed over longest comes first; the spec gives the bound beside its order and names no means. -/
def firingOrder (s : State) (g : Nat) : List (Nat × (Nat × Nat)) :=
  let w := (s.elem g).waited
  let top := s.topRanked g
  if boundDue w top then (longest w top).toList ++ s.ranked g else s.ranked g

/-- An issue opportunity has gone to slot `q`: the other ready slots of the highest priority have been passed over once more, and a slot
that is not ready waits for nothing. -/
def passOver (s : State) (g : Nat) (q : Nat × Nat) : SMap Nat :=
  let w := (s.elem g).waited
  let top := s.topRanked g
  (s.ranked g).foldl (fun m r =>
    let k := SMap.getD w (slotNumber r.2) 0 + (if top.contains r then 1 else 0)
    if r.2 == q || k == 0 then m else SMap.set m (slotNumber r.2) k) []

/-- One selection of the arbiter: the first slot in its order that can fire, R124; none where no slot is ready. -/
def arbitrate (s : State) (g : Nat) : Option State :=
  (s.firingOrder g).findSome? fun r =>
    (s.fireSlot g r.2.1 r.2.2).map fun u => u.modElem g fun e => { e with waited := s.passOver g r.2 }

/-- BLOCK_ADMISSION: the slot at a block's entry fires on its entry token once the reservation can be made, R118. -/
def admitBlock (s : State) (g c n : Nat) : Option State :=
  match s.blockEntered g c n with
  | none => none
  | some _ => s.fireSlot g c n

end State

def execBlockAdmission (gid ctx slot : Nat) (s : State) : Out := s.after (s.admitBlock gid ctx slot)

end Sys2Proof.Machine
end

