-- ==== Sys2Proof/Machine/DataStore.lean ====
section
/-! DEFINITION. Majors 0x11–0x13, loads and stores of the data store, and the address checks they share, R14 and R65. -/

namespace Sys2Proof.Machine

/-- ea := wrap64(a + sext(off, 10) · n), R65. -/
def effective (a : Word) (off : BitVec 10) (n : Nat) : Word := a + off.signExtend 64 * word n

/-- The first check of R65 that fails: 0x03 misaligned, 0x04 beyond 0x7FFF. -/
def dataCheck (ea : Word) (n : Nat) : Option Nat :=
  if ea.toNat % n ≠ 0 then some 0x03 else if 0x7FFF < ea.toNat then some 0x04 else none

/-- `n` bytes of the tile's data store, R5. -/
def Tile.dataRead (T : Tile) (a n : Nat) : Nat := Memory.readN T.dstore.bytes a n
def Tile.dataWrite (T : Tile) (a n x : Nat) : Tile :=
  { T with dstore := T.dstore.write a n x }

/-- LDZ and LDS, R65: `ext` extends the bytes read; a word that its code cannot correct gives cause 0x15 (R377). A load
takes two cycles, R127. -/
def State.dataLoad (s : State) (d a : SReg) (off : BitVec 10) (n : Nat) (ext : Nat → Word) : State :=
  let ea := effective (s.reg a) off n
  match dataCheck ea n with
  | some c => s.raise c ea
  | none =>
    if s.here.dstore.uncorrectable ea.toNat n then s.raise 0x15 ea
    else
      let v := s.here.dataRead ea.toNat n
      (s.correct (tileDie s.focus.tile) (.dataStore s.focus.tile) ea.toNat n).retireIn 2 fun k => k.setReg d (ext v)

/-- ST, R65: guarded under R20. -/
def State.dataStore (s : State) (v a : SReg) (off : BitVec 10) (n : Nat) (g : BitVec 4) : State :=
  let ea := effective (s.reg a) off n
  s.guarded g (match dataCheck ea n with
    | some c => s.raise c ea
    | none => (s.modHere fun T => T.dataWrite ea.toNat n (s.reg v).toNat).retire id)

def execLdzB (d a : SReg) (off : BitVec 10) (s : State) : Out := .next (s.dataLoad d a off 1 word)
def execLdzH (d a : SReg) (off : BitVec 10) (s : State) : Out := .next (s.dataLoad d a off 2 word)
def execLdzW (d a : SReg) (off : BitVec 10) (s : State) : Out := .next (s.dataLoad d a off 4 word)
def execLdzD (d a : SReg) (off : BitVec 10) (s : State) : Out := .next (s.dataLoad d a off 8 word)
def execLdsB (d a : SReg) (off : BitVec 10) (s : State) : Out := .next (s.dataLoad d a off 1 fun x => sextWord 8 (word x))
def execLdsH (d a : SReg) (off : BitVec 10) (s : State) : Out := .next (s.dataLoad d a off 2 fun x => sextWord 16 (word x))
def execLdsW (d a : SReg) (off : BitVec 10) (s : State) : Out := .next (s.dataLoad d a off 4 fun x => sextWord 32 (word x))
def execStB (v a : SReg) (off : BitVec 10) (g : BitVec 4) (s : State) : Out := .next (s.dataStore v a off 1 g)
def execStH (v a : SReg) (off : BitVec 10) (g : BitVec 4) (s : State) : Out := .next (s.dataStore v a off 2 g)
def execStW (v a : SReg) (off : BitVec 10) (g : BitVec 4) (s : State) : Out := .next (s.dataStore v a off 4 g)
def execStD (v a : SReg) (off : BitVec 10) (g : BitVec 4) (s : State) : Out := .next (s.dataStore v a off 8 g)

end Sys2Proof.Machine
end

