-- ==== Sys2Proof/Machine/Branch.lean ====
section
/-! DEFINITION. Majors 0x17–0x1B: branches, calls and returns, R72–R75. -/

namespace Sys2Proof.Machine

/-- (pc + 4 · sext(off, 22)) mod 2^15, R72. -/
def branchTarget (pc : BitVec 15) (off : BitVec 22) : BitVec 15 := pc + 4#15 * off.signExtend 15

/-- The link value pc + 4 as R57 reads it: an integer that R13 does not reduce, R72 and R75. -/
def linkWord (pc : BitVec 15) : Word := word (pc.toNat + 4)

/-- A jump target that is no instruction address, R73 and R74. -/
def badTarget (t : Word) : Bool := t.toNat % 4 != 0 || 0x7FFC < t.toNat

/-- The control word at an address of the instruction store. -/
def Tile.istoreWord (T : Tile) (a : Nat) : Word32 := BitVec.ofNat 32 (Memory.readN T.istore.bytes a 4)

def State.branch (s : State) (off : BitVec 22) : State := s.jump (branchTarget s.cur.pc off)
/-- CALL: s31 := pc + 4, then the branch, R72. -/
def State.call (s : State) (off : BitVec 22) : State :=
  s.finish 1 fun k => { k.setReg 31 (linkWord k.pc) with pc := branchTarget k.pc off }
/-- JR, R73. -/
def State.jumpReg (s : State) (t : Word) : State :=
  if badTarget t then s.raise 0x03 t
  else if !s.here.jrMarks.contains t.toNat then s.raise 0x06 0
  else s.jump (t.setWidth 15)
/-- RET reaches only a word that follows a CALL or a CALLT, R74. -/
def State.ret (s : State) (t : Word) : State :=
  let m := (s.here.istoreWord ((t.toNat + 0x8000 - 4) % 0x8000)).extractLsb' 26 6
  if badTarget t then s.raise 0x03 t
  else if m ≠ 0x18 ∧ m ≠ 0x1A then s.raise 0x06 0
  else s.jump (t.setWidth 15)
/-- CALLT through a function-table entry, R75. -/
def State.callTable (s : State) (d : SReg) (a b : Word) : State :=
  if a.toNat % 8 ≠ 0 then s.raise 0x03 a
  else if 0x7FFF < a.toNat then s.raise 0x04 a
  else
    let e := word (s.here.dataRead a.toNat 8)
    let sig : BitVec 32 := e.extractLsb' 32 32
    let code : BitVec 32 := b.setWidth 32
    if sig ≠ code ∨ e.extractLsb' 15 17 ≠ 0#17 ∨ e.extractLsb' 0 2 ≠ 0#2 then s.raise 0x07 (code ++ sig)
    else s.finish 1 fun k => { k.setReg d (linkWord k.pc) with pc := e.setWidth 15 }

def execBr (off : BitVec 22) (g : BitVec 4) (s : State) : Out := .next (s.guarded g (s.branch off))
def execCall (off : BitVec 22) (g : BitVec 4) (s : State) : Out := .next (s.guarded g (s.call off))
def execJr (a : SReg) (g : BitVec 4) (s : State) : Out := .next (s.guarded g (s.jumpReg (s.reg a)))
def execCallt (d a b : SReg) (g : BitVec 4) (s : State) : Out :=
  .next (s.guarded g (s.callTable d (s.reg a) (s.reg b)))
def execRet (a : SReg) (g : BitVec 4) (s : State) : Out := .next (s.guarded g (s.ret (s.reg a)))

end Sys2Proof.Machine
end

