-- ==== Sys2Proof/Machine/Csr.lean ====
section
/-! DEFINITION. The control and status registers, R24–R31, and the CSR words of major 0x3F, R76. Reserved bits read as zero
and a write leaves every RO field as it stands (R7). -/

namespace Sys2Proof.Machine

/-- A field of a register in place: `v` from bit `lo` up. -/
def field (lo : Nat) (v : Nat) : Word := word (v <<< lo)
def flag (lo : Nat) (b : Bool) : Word := if b then word (1 <<< lo) else 0

/-- STATUS, R25. -/
def statusWord (k : Task) (pstall : Bool) : Word :=
  field 8 k.ctx.toNat ||| flag 5 k.bsk ||| flag 4 pstall ||| flag 3 k.psup ||| flag 2 k.sup ||| flag 1 k.pte ||| flag 0 k.te

/-- GRID, R27. -/
def gridWord (t : Nat) : Word := field 10 (tileDie t) ||| field 5 (tileY t) ||| field 0 (tileX t)

/-- LAUNCH, R27: zero when no launch is placed. -/
def launchWord (x : CtxRegs) : Word :=
  match x.launch with
  | none => 0
  | some p => field 21 p.lead.toNat ||| field 16 p.h.toNat ||| field 10 p.w.toNat ||| field 5 p.oy.toNat ||| field 0 p.ox.toNat

/-- The quad of a tile in a launch: its column and row, R27 and R101. -/
def quadOf (x : CtxRegs) (p : Placed) (t : Nat) : Nat × Nat :=
  ((tileX t - p.ox.toNat) >>> x.lw.toNat, (tileY t - p.oy.toNat) >>> x.lh.toNat)

/-- QIDX, R27. -/
def quadIndex (x : CtxRegs) (t : Nat) : Nat :=
  match x.launch with
  | none => 0
  | some p =>
    let q := quadOf x p t
    q.2 * (p.w.toNat >>> x.lw.toNat) + q.1

/-- Where a task's registers are, as SPILLMAP reports it, R29: LOC and POS. -/
def placeWord (pl : RegPlace) : Word :=
  match pl with
  | .none => 0
  | .bank n => field 7 1 ||| field 9 n
  | .column n => field 7 2 ||| field 9 n
  | .area n => field 7 3 ||| field 9 n

/-- CHMAP, R28: SET reads as 0. -/
def chmapWord (x : CtxRegs) : Word :=
  match SMap.get? x.bound x.colsel.toNat with
  | some (v, n) => flag 13 v ||| field 8 n.toNat ||| field 0 x.colsel.toNat
  | none => field 0 x.colsel.toNat

def bankOf (pl : RegPlace) : Nat := match pl with | .bank n => n | _ => 0

def ibkWord (b : Ibk) : Word := field 2 b.addr.toNat ||| flag 0 b.en

/-- The numbers of R24. -/
def csrExists (n : Nat) : Bool :=
  n ≤ 5 || (0x10 ≤ n && n ≤ 0x14) || (0x20 ≤ n && n ≤ 0x22) || n == 0x30 || n == 0x31 || (0x40 ≤ n && n ≤ 0x43)
    || n == 0x60 || n == 0x70

/-- A write needs STATUS.SUP = 1, R24. -/
def csrNeedsSup (n : Nat) : Bool :=
  n == 0 || n == 4 || n == 0x14 || n == 0x21 || n == 0x22 || (0x40 ≤ n && n ≤ 0x43) || n == 0x60 || n == 0x70

/-- The value of CSR `n` for task `tid` of tile `t`, R25–R31; none for a number that R24 does not list. -/
def csrRead (t : Nat) (T : Tile) (tid n : Nat) : Option Word :=
  let k := T.task tid
  let x := T.ctx k.ctx.toNat
  match n with
  | 0x000 => some (statusWord k T.pstall)
  | 0x001 => some (k.cause.setWidth 64)
  | 0x002 => some (field 2 k.epc.toNat)
  | 0x003 => some k.tval
  | 0x004 => some (field 2 x.tvec.toNat)
  | 0x005 => some k.scratch
  | 0x010 => some (gridWord t)
  | 0x011 => some (launchWord x)
  | 0x012 => some (field 8 (quadIndex x t) ||| field 4 x.lh.toNat ||| field 0 x.lw.toNat)
  | 0x013 => some (k.ctx.setWidth 64)
  | 0x014 => some (x.prio.setWidth 64)
  | 0x020 => some (field 8 (bankOf k.place) ||| field 0 tid)
  | 0x021 => some (chmapWord x)
  | 0x022 => some (field 24 x.area.toNat ||| placeWord (T.task x.spsel.toNat).place ||| field 0 x.spsel.toNat)
  | 0x030 => some T.cycle
  | 0x031 => some T.retired
  | 0x040 => some (ibkWord x.ibk[0])
  | 0x041 => some (ibkWord x.ibk[1])
  | 0x042 => some (ibkWord x.ibk[2])
  | 0x043 => some (ibkWord x.ibk[3])
  | 0x060 => some (x.contain.setWidth 64)
  | 0x070 => some (flag 0 x.det)
  | _ => none

/-- A QUADLVL write takes effect only when a launch is placed and every quad lies wholly inside it, R27. -/
def quadWrite (x : CtxRegs) (v : Word) : CtxRegs :=
  let lw := v.extractLsb' 0 4
  let lh := v.extractLsb' 4 4
  match x.launch with
  | none => x
  | some p => if p.w.toNat % 2 ^ lw.toNat = 0 ∧ p.h.toNat % 2 ^ lh.toNat = 0 then { x with lw := lw, lh := lh } else x

/-- A CHMAP write, R28: COLSEL is written, and with SET = 1 also V and TASK of that colour. Where V = 1 names a FREE task, the binding is
ignored and COLSEL is written all the same (DESIGN CHOICE). -/
def chmapWrite (T : Tile) (c : Nat) (v : Word) : Tile :=
  let T := T.modCtx c fun x => { x with colsel := v.extractLsb' 0 5 }
  if v.getLsbD 15 then T.bindColour c (v.extractLsb' 0 5).toNat (v.getLsbD 13) (v.extractLsb' 8 5) else T

def ibkOf (v : Word) : Ibk := ⟨v.extractLsb' 2 13, v.getLsbD 0⟩

/-- A write of `v` to CSR `n` by task `tid`, field by field (R7). -/
def csrWrite (T : Tile) (tid n : Nat) (v : Word) : Tile :=
  let c := (T.task tid).ctx.toNat
  match n with
  | 0x000 => T.modTask tid fun k =>
      { k with te := v.getLsbD 0, pte := v.getLsbD 1, psup := v.getLsbD 3, bsk := v.getLsbD 5 }
  | 0x001 => T.modTask tid fun k => { k with cause := v.setWidth 6 }
  | 0x002 => T.modTask tid fun k => { k with epc := v.extractLsb' 2 13 }
  | 0x003 => T.modTask tid fun k => { k with tval := v }
  | 0x004 => T.modCtx c fun x => { x with tvec := v.extractLsb' 2 13 }
  | 0x005 => T.modTask tid fun k => { k with scratch := v }
  | 0x012 => T.modCtx c fun x => quadWrite x v
  | 0x014 => T.modCtx c fun x => { x with prio := v.setWidth 3 }
  | 0x021 => chmapWrite T c v
  | 0x022 => T.modCtx c fun x => { x with area := v.extractLsb' 24 40, spsel := v.extractLsb' 0 5 }
  | 0x040 => T.modCtx c fun x => { x with ibk := x.ibk.set 0 (ibkOf v) }
  | 0x041 => T.modCtx c fun x => { x with ibk := x.ibk.set 1 (ibkOf v) }
  | 0x042 => T.modCtx c fun x => { x with ibk := x.ibk.set 2 (ibkOf v) }
  | 0x043 => T.modCtx c fun x => { x with ibk := x.ibk.set 3 (ibkOf v) }
  | 0x060 => T.modCtx c fun x => { x with contain := v.setWidth 8 }
  | 0x070 => T.modCtx c fun x => { x with det := v.getLsbD 0 }
  | _ => T

/-- The control word of a CSR instruction, as TVAL reports it for cause 0x01 (R22, R76). -/
def csrTval (d : SReg) (csr : BitVec 10) (fn : BitVec 7) : Word := (packC d csr fn).setWidth 64

/-- The checks of R76, then the effect: a CSR write takes effect as the word retires. The core has cleared a BSK that exempts the
word as it issues (R23), so the word reads it as 0 (DEDUCED). -/
def State.csrAccess (s : State) (d : SReg) (csr : BitVec 10) (fn : BitVec 7) (write : Option (Word → Word)) : State :=
  match csrRead s.focus.tile (s.here.modTask s.focus.task Task.unexempt) s.focus.task csr.toNat with
  | none => s.raise 0x01 (csrTval d csr fn)
  | some v =>
    match write with
    | none => s.writeReg d v
    | some f =>
      if csrNeedsSup csr.toNat ∧ !s.cur.sup then s.raise 0x06 0
      else ((s.retire id).modHere fun T => csrWrite T s.focus.task csr.toNat (f v)).dropLost s.focus.tile

def execCsrr (d : SReg) (csr : BitVec 10) (s : State) : Out := .next (s.csrAccess d csr 2 none)
def execCsrw (d : SReg) (csr : BitVec 10) (s : State) : Out := .next (s.csrAccess d csr 3 (some fun _ => s.reg d))
def execCsrs (d : SReg) (csr : BitVec 10) (s : State) : Out := .next (s.csrAccess d csr 4 (some fun v => v ||| s.reg d))
def execCsrc (d : SReg) (csr : BitVec 10) (s : State) : Out := .next (s.csrAccess d csr 5 (some fun v => v &&& ~~~(s.reg d)))

end Sys2Proof.Machine
end

