-- ==== Sys2Proof/Machine/DeviceMemory.lean ====
section
/-! DEFINITION. Majors 0x14–0x16: device loads and stores, atomics, WAITV and WAKE, R66–R71. -/

namespace Sys2Proof.Machine

namespace State

def curDie (s : State) : Nat := tileDie s.focus.tile
def curAgent (s : State) : Nat := taskAgent s.focus.tile s.focus.task

/-- The translation of an access of the running task, R66 and R227. -/
def curProbe (s : State) (va n : Nat) (need : Need) : Except Nat (Space × Nat) × State :=
  s.probe s.curDie s.cur.ctx.toNat va n { need with sup := s.cur.sup }

/-- LDG, R66 and R67: the task is held until the data returns, about 240 cycles (R127). -/
def deviceLoad (s : State) (d a : SReg) (off : BitVec 10) (n : Nat) : State :=
  let ea := effective (s.reg a) off n
  if ea.toNat % n ≠ 0 then s.raise 0x03 ea
  else
    match s.curProbe ea.toNat n { read := true } with
    | (.error c, s) => s.raise c ea
    | (.ok (sp, pa), s) =>
      let s := s.atHome s.curAgent none sp pa n
      match (s.store sp).readCause pa n with
      | some c => s.raise c ea
      | none =>
        let v := s.bytesAt sp pa n
        (s.correct s.curDie sp pa n).retireIn 240 fun k => k.setReg d (word v)

/-- STG, R66 and R67: it retires when the memory system has accepted it. -/
def deviceStore (s : State) (v a : SReg) (off : BitVec 10) (n : Nat) (g : BitVec 4) : State :=
  let ea := effective (s.reg a) off n
  s.guarded g <|
    if ea.toNat % n ≠ 0 then s.raise 0x03 ea
    else
      match s.curProbe ea.toNat n { write := true } with
      | (.error c, s) => s.raise c ea
      | (.ok (sp, pa), s) => (s.accept s.curAgent sp pa n ((s.reg v).toNat % 256 ^ n) false).retire id

/-! ## Atomics, R68 and R69 -/

/-- The checks that every atomic makes of its address `a`, R68; `k` is what it does at the word's home. A word in host,
peer or far-tier memory gives cause 0x16, which the region controller takes itself (R379): the task stays in RUN and issues
nothing until the emulation ends. -/
def atomicAt (s : State) (i : Instr) (d : Word) (a b : Word) (k : State → Nat → State) : State :=
  if a.toNat % 8 ≠ 0 then s.raise 0x03 a
  else
    match s.curProbe a.toNat 8 { read := true, write := true, farOk := true } with
    | (.error c, s) => s.raise c a
    | (.ok (sp, pa), s) =>
      if sp ≠ .hbm then s.modCur fun t => { t with taken := some { word := i, a := a, b := b, d := d, sup := t.sup } }
      else
        let s := s.atHome s.curAgent none sp pa 8
        match (s.store sp).readCause pa 8 with
        | some c => s.raise c a
        | none => k (s.correct s.curDie sp pa 8) pa

end State

/-- The new value of R69: of the word `m`, the operand `b` and the comparand `c`; none where nothing is written. -/
def atomicNew (fn : Nat) (m b c : Word) : Option Word :=
  match fn with
  | 0 => some (m + b)
  | 1 => some b
  | 2 => if m = c then some b else none
  | 3 => some (if m.slt b then m else b)
  | 4 => some (if m.slt b then b else m)
  | 5 => some (m &&& b)
  | 6 => some (m ||| b)
  | _ => some (m ^^^ b)

namespace State

/-- AADD to AXOR, R69: one read-modify-write of the word; d := the old value. -/
def atomic (s : State) (i : Instr) (fn : Nat) (d a b : SReg) (g : BitVec 4) : State :=
  s.guarded g <| s.atomicAt i (s.reg d) (s.reg a) (s.reg b) fun s pa =>
    let m := word (s.bytesAt .hbm pa 8)
    let t := match atomicNew fn m (s.reg b) (s.reg d) with
      | some v => s.perform .hbm pa 8 v.toNat
      | none => s
    t.writeReg d m

/-- WAITV, R70: comparison and arming are one step at the word's home. -/
def waitv (s : State) (d a b : SReg) (g : BitVec 4) : State :=
  s.guarded g <| s.atomicAt (.waitv d a b g) (s.reg d) (s.reg a) (s.reg b) fun s pa =>
    if word (s.bytesAt .hbm pa 8) ≠ s.reg b then s.writeReg d 1
    else
      let s := (s.modCur fun k => { k with taken := some { word := .waitv d a b g, a := k.reg a, b := k.reg b, sup := k.sup } }).block .monitor
      { s with monitors := s.monitors ++ [⟨.hbm, pa, s.focus.tile, s.focus.task⟩] }

/-- The monitors on a word that a WAKE with operand `b` selects, oldest first, R71. -/
def selectMonitors (s : State) (sp : Space) (pa : Nat) (b : Word) : List Monitor :=
  let ms := s.monitors.filter fun m => m.space == sp && m.word == pa
  if b = 0 then ms else ms.take b.toNat

/-- The selected monitors are released and disarmed. -/
def releaseAll (s : State) (ms : List Monitor) : State :=
  ms.foldl release { s with monitors := s.monitors.filter fun m => !ms.contains m }

/-- WAKE, R71: d := the number of monitors released. -/
def wake (s : State) (d a b : SReg) (g : BitVec 4) : State :=
  s.guarded g <| s.atomicAt (.wake d a b g) (s.reg d) (s.reg a) (s.reg b) fun s pa =>
    let ms := s.selectMonitors .hbm pa (s.reg b)
    (s.releaseAll ms).writeReg d (word ms.length)

end State

def execLdgB (d a : SReg) (off : BitVec 10) (s : State) : Out := settle (s.deviceLoad d a off 1)
def execLdgH (d a : SReg) (off : BitVec 10) (s : State) : Out := settle (s.deviceLoad d a off 2)
def execLdgW (d a : SReg) (off : BitVec 10) (s : State) : Out := settle (s.deviceLoad d a off 4)
def execLdgD (d a : SReg) (off : BitVec 10) (s : State) : Out := settle (s.deviceLoad d a off 8)
def execStgB (v a : SReg) (off : BitVec 10) (g : BitVec 4) (s : State) : Out := settle (s.deviceStore v a off 1 g)
def execStgH (v a : SReg) (off : BitVec 10) (g : BitVec 4) (s : State) : Out := settle (s.deviceStore v a off 2 g)
def execStgW (v a : SReg) (off : BitVec 10) (g : BitVec 4) (s : State) : Out := settle (s.deviceStore v a off 4 g)
def execStgD (v a : SReg) (off : BitVec 10) (g : BitVec 4) (s : State) : Out := settle (s.deviceStore v a off 8 g)
def execAadd (d a b : SReg) (g : BitVec 4) (s : State) : Out := settle (s.atomic (.aadd d a b g) 0 d a b g)
def execAswp (d a b : SReg) (g : BitVec 4) (s : State) : Out := settle (s.atomic (.aswp d a b g) 1 d a b g)
def execAcas (d a b : SReg) (g : BitVec 4) (s : State) : Out := settle (s.atomic (.acas d a b g) 2 d a b g)
def execAmin (d a b : SReg) (g : BitVec 4) (s : State) : Out := settle (s.atomic (.amin d a b g) 3 d a b g)
def execAmax (d a b : SReg) (g : BitVec 4) (s : State) : Out := settle (s.atomic (.amax d a b g) 4 d a b g)
def execAand (d a b : SReg) (g : BitVec 4) (s : State) : Out := settle (s.atomic (.aand d a b g) 5 d a b g)
def execAor (d a b : SReg) (g : BitVec 4) (s : State) : Out := settle (s.atomic (.aor d a b g) 6 d a b g)
def execAxor (d a b : SReg) (g : BitVec 4) (s : State) : Out := settle (s.atomic (.axor d a b g) 7 d a b g)
def execWaitv (d a b : SReg) (g : BitVec 4) (s : State) : Out := settle (s.waitv d a b g)
def execWake (d a b : SReg) (g : BitVec 4) (s : State) : Out := settle (s.wake d a b g)

end Sys2Proof.Machine
end

