-- ==== Sys2Proof/Machine/Tasks.lean ====
section
/-! DEFINITION. Major 0x1C: tasks, channels and barriers (R174–R178, R284), and what the core and the tile bus do by themselves:
the selection of a task (R17, R18), arrivals (R16, R175) and work stealing (R125). -/

namespace Sys2Proof.Machine

/-! ## Creating and ending tasks, R174 -/

/-- An entry address that TBIND (`bind`) or TSPAWN refuses with cause 0x03. -/
def badEntry (a : Word) (bind : Bool) : Bool := a.getLsbD 1 || (bind && a.getLsbD 0) || decide (0x7FFF < a.toNat)

/-- A new task of the running task's context, with TE = 1 and SUP = 0, R25. -/
def State.freshTask (s : State) (a : Word) : Task := { ctx := s.cur.ctx, pc := a.setWidth 15 &&& 0x7FFC#15, te := true, sup := false }

/-- TBIND, R174. -/
def State.tbind (s : State) (d a b : SReg) : State :=
  let c := s.cur.ctx.toNat
  let col := (s.reg b).toNat % 32
  if badEntry (s.reg a) true then s.raise 0x03 (s.reg a)
  else
    match s.here.freeTask with
    | none => s.writeReg d (word (2 ^ 64 - 1))
    | some n =>
      if (s.here.binding c col).isSome then s.writeReg d (word (2 ^ 64 - 2))
      else
        let k := s.freshTask (s.reg a)
        (((s.publish s.curAgent).modHere fun T => (T.create n k .wait .colour).bindColour c col true (BitVec.ofNat 5 n)).writeReg d (word n))

/-- TSPAWN, R174: the task is created in READY. R15's first row has TSPAWN create its task in WAIT; R174, and the text before R15 that
names creation by TSPAWN among the events that start a task, have it READY at once, which the model follows (DEDUCED). -/
def State.tspawn (s : State) (d a b : SReg) : State :=
  if badEntry (s.reg a) false then s.raise 0x03 (s.reg a)
  else
    match s.here.freeTask with
    | none => s.writeReg d (word (2 ^ 64 - 1))
    | some n =>
      let k := { s.freshTask (s.reg a) with scratch := s.reg b, stealable := (s.reg a).getLsbD 0 }
      ((s.publish s.curAgent).modHere fun T => T.create n k .ready .nothing).writeReg d (word n)

/-- What a FREE descriptor holds of the task that was in it: its CSRs, guards and pc stand; its storage, its CHWR staging and all that its
words had under way are released, R174. -/
def Task.released (k : Task) : Task :=
  { state := .free, ctx := k.ctx, guards := k.guards, pc := k.pc, te := k.te, pte := k.pte, sup := k.sup, psup := k.psup, bsk := k.bsk
    exempt := k.exempt, cause := k.cause, epc := k.epc, tval := k.tval, scratch := k.scratch, readySeq := k.readySeq, leftSeq := k.leftSeq }

namespace State

/-- A job word loses one: an AADD of −1 at its home, R389, which a word that cannot be read does not take (R68). -/
def jobDone (s : State) (j : Option (Space × Nat)) : State :=
  match j with
  | none => s
  | some (sp, a) =>
    let s := s.callBack none sp a 8
    match (s.store sp).readCause a 8 with
    | some _ => s
    | none => s.perform sp a 8 ((word (s.bytesAt sp a 8) - 1).toNat)

/-- A task ends: its colours are unbound, its bank, parking place, monitor and staging are released, and it is FREE, R174. A
handler that it was running ends with it (R368). -/
def freeTask (s : State) (t n : Nat) : State :=
  let k := (s.tile t).task n
  let s := s.dropMonitor t n
  let s := match k.place with
    | .column c => s.modNode t fun (x : Node) => if x.column c = Column.parked n then x.setColumn c .free else x
    | _ => s
  let closing (x : Search) : Search :=
    if k.handling = true ∧ x.tile = t ∧ x.phase = .handled ∧ x.ctx = k.ctx.toNat then { x with phase := .abandoned } else x
  let s := { s with searches := s.searches.map closing }
  (s.modTile t fun T => ((T.unbindTask n).enter n .free .nothing).modTask n Task.released).jobDone k.job

end State

/-- TEXIT, R174. -/
def State.texit (s : State) : State := (s.retire id).freeTask s.focus.tile s.focus.task

/-! ## Channels, R176 and R177 -/

/-- What CHRD reads of a channel. -/
def channelItem (bs : List Beat) (i : Nat) : Word :=
  match i, bs with
  | 5, _ => word bs.length
  | 6, _ | 7, _ | _, [] => 0
  | 4, b :: _ => b.tag.toWord
  | i, b :: _ => b.data.extractLsb' (64 * i) 64

/-- CHRD, R176. -/
def State.chrd (s : State) (d a b : SReg) : State :=
  let c := s.cur.ctx.toNat
  let col := (s.reg a).toNat % 32
  let i := (s.reg b).toNat % 8
  let bs := s.here.channel c col
  if s.here.binding c col ≠ some s.focus.task then s.raise 0x06 0
  else if i ≤ 4 ∧ bs = [] then s.block .colour
  else
    let s := s.writeReg d (channelItem bs i)
    if (s.reg b).getLsbD 3 ∧ i ≤ 4 then s.modHere fun T => T.setChannel c col (bs.drop 1) else s

/-- The tag of a beat that CHWR sends, R177: a token that is open on its colour goes on under the tag of its first beat. -/
def chwrTag (k : Task) (b : Word) : Tag :=
  let hdr := b.getLsbD 4
  let nul := b.getLsbD 6
  let col : BitVec 5 := b.extractLsb' 7 5
  match k.openToks.find? (·.col == col) with
  | some t => { t with last := b.getLsbD 3 || t.hdr || t.nul }
  | none =>
    { ctx := k.ctx, col := col, thr := b.extractLsb' 24 8, itr := b.extractLsb' 12 12, frm := b.extractLsb' 32 16,
      last := b.getLsbD 3 || hdr || nul, nul := nul, prd := b.getLsbD 5, hdr := hdr }

/-- CHWR, R177. While another task has a token open on the colour the word waits to be issued. -/
def State.chwr (s : State) (a b : SReg) : State :=
  let k := s.cur
  let i := (s.reg b).toNat % 4
  let beat := (k.staging &&& ~~~((BitVec.ofNat 256 (2 ^ 64 - 1)) <<< (64 * i))) ||| ((s.reg a).setWidth 256 <<< (64 * i))
  if !(s.reg b).getLsbD 2 then s.retire fun k => { k with staging := beat }
  else
    let t := chwrTag k (s.reg b)
    let key := colourKey k.ctx.toNat t.col.toNat
    let others := (List.range 32).any fun n =>
      n != s.focus.task && (s.here.task n).ctx == k.ctx && (s.here.task n).openToks.any (·.col == t.col)
    if others then s.stall
    else
      let opened := (k.openToks.filter (·.col != t.col)) ++ (if t.last then [] else [t])
      let lane (T : Tile) : Lane := SMap.getD T.down key {}
      ((s.publish s.curAgent).retire fun k => { k with staging := 0, openToks := opened, held := some key }).modHere fun T =>
        { T with down := SMap.set T.down key { lane T with beats := (lane T).beats ++ [⟨t, beat⟩] } }

/-- TWAIT, R174. -/
def State.twait (s : State) (d : SReg) : State :=
  let cols := s.here.coloursOf s.cur.ctx.toNat s.focus.task
  match cols with
  | [] => s.writeReg d (word (2 ^ 64 - 1))
  | _ =>
    match cols.find? fun c => s.here.channel s.cur.ctx.toNat c != [] with
    | some c => s.writeReg d (word c)
    | none => s.block .colour

/-! ## Triggers and barriers, R126, R178 and R284 -/

namespace State

/-- The tile whose cycles a die's scheduler counts, R121: the spec names no tile; it is the die's first. -/
def schedulerTile (die : Nat) : Nat := tileAt (16 * (die % 2)) (10 * (die / 2))

/-- Every launch named in a dependence list has completed or triggered, R121. -/
def depsMet (s : State) (l : Launch) : Bool :=
  l.deps.all fun id => s.launches.any fun x => x.2.info.id == id && (x.2.phase == .done || x.2.trig)

/-- Launches whose dependences are met become eligible, in the order of their pulls. -/
def makeEligible (s : State) : State :=
  s.launches.foldl (fun s x =>
    match s.launch x.1 with
    | some l =>
      if l.phase = .waiting ∧ s.depsMet l = true then
        s.tick.modLaunch x.1 fun l => { l with phase := .eligible, order := s.serial, since := (s.tile (schedulerTile l.die)).cycle, rises := 0 }
      else s
    | none => s) s

/-- The launch has triggered once every tile has, R126. -/
def checkTrigger (s : State) (n : Nat) : State :=
  s.modLaunch n fun l =>
    let ts := rectangle l.ox l.oy l.info.w l.info.h
    if ts.all fun t => l.ended.contains t || ((s.tile t).ctx l.info.ctx).trig then { l with trig := true } else l

/-- TRIG: FENCE.DEVICE, then the tile triggers for its launch; a dependant follows every access of the task, R284. -/
def trigger (s : State) : State :=
  let s := ((s.fence s.curAgent 4).publish s.curAgent).retire id
  let c := s.cur.ctx.toNat
  match s.lidOf s.focus.tile c with
  | none => s
  | some n => ((s.modHere fun T => T.modCtx c fun x => { x with trig := true }).checkTrigger n).makeEligible

/-- The tiles of a barrier's group: the tile's quad of the given QUADLVL, or the whole launch; without a launch the tile alone. -/
def groupAt (s : State) (t c : Nat) (lw lh : BitVec 4) (whole : Bool) : List Nat :=
  match ((s.tile t).ctx c).launch with
  | none => [t]
  | some p =>
    let ts := rectangle p.ox.toNat p.oy.toNat p.w.toNat p.h.toNat
    let quad (u : Nat) : Nat × Nat := ((tileX u - p.ox.toNat) >>> lw.toNat, (tileY u - p.oy.toNat) >>> lh.toNat)
    if whole then ts else ts.filter fun u => quad u == quad t

/-- The group of a barrier at which a task of the tile arrives: its current quad, or the launch. -/
def barrierGroup (s : State) (t c : Nat) (whole : Bool) : List Nat :=
  s.groupAt t c ((s.tile t).ctx c).lw ((s.tile t).ctx c).lh whole

/-- Rounds are counted for each barrier and group: a tile's group is its launch, or its quad of the QUADLVL under which its task arrived
(DESIGN CHOICE: R178 does not say what a new QUADLVL does to a round in progress). -/
def barrierKey (lw lh : BitVec 4) (bar : Nat) (whole : Bool) : Nat := if whole then bar else 16 * (16 * lh.toNat + lw.toNat + 1) + bar

/-- The rounds of a barrier that every tile of its group has reached: tiles that have completed are not waited for. -/
def roundsDone (s : State) (ts : List Nat) (c key : Nat) : Option Nat :=
  (ts.filter fun t => !((s.tile t).ctx c).compl).foldl (fun m t =>
    let r := SMap.getD ((s.tile t).ctx c).rounds key 0
    match m with | none => some r | some x => some (Min.min x r)) none

/-- The waiting tasks of every round that is full enter READY, past their BARQ. -/
def releaseBarrier (s : State) (t c bar : Nat) (lw lh : BitVec 4) (whole : Bool) : State :=
  let ts := s.groupAt t c lw lh whole
  let key := barrierKey lw lh bar whole
  match s.roundsDone ts c key with
  | none => s
  | some m =>
    ts.foldl (fun s u =>
      let out := ((s.tile u).ctx c).arrivals.filter fun a => barrierKey a.lw a.lh a.bar a.whole == key && decide (a.round < m)
      s.modTile u fun T =>
        let T := T.modCtx c fun x => { x with arrivals := x.arrivals.filter fun a => !out.contains a }
        out.foldl (fun T a => (({ T with retired := T.retired + 1 } : Tile).modTask a.tid Task.next).wake a.tid) T) s

/-- BARQ, R178 and R284: FENCE.QUAD or FENCE.DEVICE, then the arrival, which every access of the task precedes for whoever leaves the
barrier. -/
def barq (s : State) (a : SReg) : State :=
  let v := (s.reg a).toNat
  let sel := v / 16 % 16
  if 2 ≤ sel then s.raise 0x01 ((packA 0x1C 0 a 0 8 0).setWidth 64)
  else
    let whole := sel == 1
    let bar := v % 16
    let c := s.cur.ctx.toNat
    let lw := s.curCtx.lw
    let lh := s.curCtx.lh
    let key := barrierKey lw lh bar whole
    let s := ((s.fence s.curAgent (if whole then 4 else 3)).publish s.curAgent).block .barrier
    let r := SMap.getD (s.here.ctx c).rounds key 0
    let s := s.modHere fun T => T.modCtx c fun x =>
      { x with arrivals := x.arrivals ++ [⟨bar, whole, lw, lh, s.focus.task, r⟩], rounds := SMap.set x.rounds key (r + 1) }
    s.releaseBarrier s.focus.tile c bar lw lh whole

end State

def execTwait (d : SReg) (s : State) : Out := .next (s.twait d)
def execTbind (d a b : SReg) (s : State) : Out := .next (s.tbind d a b)
/-- TYIELD: the task enters READY past the word. -/
def execTyield (s : State) : Out := .next ((s.retire id).modHere fun T => T.enter s.focus.task .ready .nothing)
def execTspawn (d a b : SReg) (s : State) : Out := .next (s.tspawn d a b)
def execTexit (s : State) : Out := .next s.texit
def execChrd (d a b : SReg) (s : State) : Out := .next (s.chrd d a b)
def execChwr (a b : SReg) (s : State) : Out := .next (s.chwr a b)
def execTrig (s : State) : Out := .next s.trigger
def execBarq (a : SReg) (s : State) : Out := .next (s.barq a)

/-! ## The core selects a task, R17 and R18 -/

/-- The READY task that R17 selects. -/
def Tile.nextTask (T : Tile) : Option Nat :=
  (List.range 32).foldl (fun best n =>
    let k := T.task n
    if k.state ≠ .ready then best
    else
      match best with
      | none => some n
      | some m =>
        let p := (T.ctx k.ctx.toNat).prio.toNat
        let q := (T.ctx (T.task m).ctx.toNat).prio.toNat
        if q < p ∨ (q = p ∧ k.readySeq < (T.task m).readySeq) then some n else best) none

/-- A task runs, or is held in RUN by the core. -/
def Tile.running (T : Tile) : Option Nat := (List.range 32).find? fun n => (T.task n).state == .run

/-- The task that occupies a bank, is not in RUN, and left RUN longest ago, R18. -/
def Tile.victim (T : Tile) : Option (Nat × Nat) :=
  (List.range 32).foldl (fun best n =>
    let k := T.task n
    match k.place with
    | .bank b =>
      if k.state = .run ∨ k.state = .free then best
      else
        match best with
        | some (m, c) => if k.leftSeq < (T.task m).leftSeq then some (n, b) else some (m, c)
        | none => some (n, b)
    | _ => best) none

namespace State

/-- A bank for the selected task: a free one, or one whose registers are parked, R18 steps 1–3. -/
def findBank (s : State) (t : Nat) : Option Nat × State :=
  match (s.tile t).freeBank with
  | some b => (some b, s)
  | none =>
    match (s.tile t).victim with
    | none => (none, s)
    | some (v, b) =>
      match (s.node t).freeColumn [] with
      | some c =>
        (some b, (s.modNode t fun n => n.setColumn c (.parked v)).modTile t fun T => T.modTask v fun k => { k with place := .column c })
      | none =>
        match s.spillRegs t v with
        | (some s, _) => (some b, s)
        | (none, s) => (none, s)

/-- The registers of a task come into bank `b`. -/
def placeRegs (s : State) (t n b : Nat) : Option State × State :=
  let into (s : State) : State := s.modTile t fun T => T.modTask n fun k => { k with place := .bank b }
  match ((s.tile t).task n).place with
  | .column c => (some (into (s.modNode t fun x => x.setColumn c .free)), s)
  | .area _ =>
    match s.fetchRegs t n with
    | (some s', _) => (some (into s'), s)
    | (none, s) => (none, s)
  | _ => (some (into s), s)

/-- TASK_SELECT: the free core selects a READY task and runs it once its registers are in a bank; else PSTALL is set, R18. -/
def selectTask (s : State) (t : Nat) : State :=
  let T := s.tile t
  if T.halted || T.running.isSome then s
  else
    match T.nextTask with
    | none => s
    | some n =>
      let run (s : State) : State := s.modTile t fun T => T.enter n .run .nothing
      match (T.task n).place with
      | .bank _ => run s
      | _ =>
        match s.findBank t with
        | (none, s) => s.modTile t fun T => { T with pstall := true }
        | (some b, s) =>
          match s.placeRegs t n b with
          | (some s, _) => run (s.modTile t fun T => { T with pstall := false })
          | (none, s) => s.modTile t fun T => { T with pstall := true }

/-- A bank is free, or parking is possible, R18 steps 1 to 3. -/
def bankReady (s : State) (t : Nat) : Bool :=
  (s.tile t).freeBank.isSome
    || match (s.tile t).victim with
      | some (v, _) => ((s.node t).freeColumn []).isSome || (s.spillRegs t v).1.isSome
      | none => false

/-- BANK_FREED: a bank is free, or parking has become possible: PSTALL ends, and a free core selects again. -/
def bankFreed (s : State) (t : Nat) : State :=
  if (s.tile t).pstall && s.bankReady t then (s.modTile t fun T => { T with pstall := false }).selectTask t else s

/-- COLOUR_BEAT_ARRIVAL: the oldest beat at the tile input whose colour is bound enters its channel, R16. -/
def beatArrival (s : State) (t : Nat) : State :=
  (s.modTile t fun T =>
    match T.held.find? fun b => (T.binding b.tag.ctx.toNat b.tag.col.toNat).isSome with
    | some b => T.admitHeld b.tag.ctx.toNat b.tag.col.toNat
    | none => T).dropLost t

/-- TILE_BUS_DOWNWARD_ACCEPT: the head beat of a colour is offered to every element of the tile, R175. -/
def busAccept (s : State) (t c col : Nat) : State :=
  ((List.range 64).foldl (fun s e => s.offer (64 * t + e) 5 c col) s).clearHead (64 * t) 5 c col

/-! ## Work stealing, R125 -/

/-- A task that may be stolen. -/
def mayMove (T : Tile) (n : Nat) : Bool :=
  let k := T.task n
  k.state == .ready && k.stealable && (List.range 4).all fun c => T.coloursOf c n == []

/-- The victims of a thief: the other tiles of its launch in its quad, nearest QIDX first, lower QIDX first; each tile's QIDX is its own. -/
def victims (s : State) (t c : Nat) : List Nat :=
  match ((s.tile t).ctx c).launch with
  | none => []
  | some _ =>
    let q (u : Nat) : Int := quadIndex ((s.tile u).ctx c) u
    let ts := (s.barrierGroup t c false).filter (· != t)
    (ts.foldl (fun l u => insertKey ((q u - q t).natAbs * 2 ^ 20 + (q u).toNat) u l) []).map (·.2)

/-- The stealable task of a context that has been READY longest on the first victim that has one. -/
def stealFrom (s : State) (t c : Nat) : Option (Nat × Nat) :=
  (s.victims t c).findSome? fun u =>
    let T := s.tile u
    ((List.range 32).foldl (fun best n =>
      if mayMove T n && (T.task n).ctx.toNat == c && ((T.ctx c).launch.map (·.lid) == ((s.tile t).ctx c).launch.map (·.lid)) then
        match best with
        | some m => if (T.task n).readySeq < (T.task m).readySeq then some n else some m
        | none => some n
      else best) none).map fun n => (u, n)

/-- The stores in flight of a task go with it to another descriptor: its program order is kept, R275. -/
def renameAgent (s : State) (a b : Nat) : State :=
  { s with inflight := s.inflight.map fun f => if f.agent = a then { f with agent := b } else f }

/-- WORK_STEAL: a Surveyor with no READY task and a free bank takes a task of its quad into its lowest FREE descriptor. -/
def workSteal (s : State) (t : Nat) : State :=
  let T := s.tile t
  if T.halted || T.nextTask.isSome then s
  else
    match T.freeBank, T.freeTask, (List.range 4).findSome? fun c => s.stealFrom t c with
    | some b, some m, some (u, n) =>
      let k := (s.tile u).task n
      let fetched := match k.place with
        | .area _ => (s.fetchRegs u n).1
        | .column c => some (s.modNode u fun x => x.setColumn c .free)
        | _ => some s
      match fetched with
      | none => s
      | some s =>
        let k := { (s.tile u).task n with place := .bank b }
        ((s.modTile u fun T => T.modTask n Task.released).modTile t fun T => T.create m k .ready .nothing).renameAgent (taskAgent u n) (taskAgent t m)
    | _, _, _ => s

end State

def execTaskSelect (tile : Nat) (s : State) : Out := settle (s.selectTask tile)
def execBankFreed (tile : Nat) (s : State) : Out := settle (s.bankFreed tile)
def execColourBeatArrival (tile : Nat) (s : State) : Out := .next (s.beatArrival tile)
def execTileBusDownwardAccept (tile ctx col : Nat) (s : State) : Out := settle (s.busAccept tile ctx col)
def execTokenArrival (gid src ctx col : Nat) (s : State) : Out := settle (s.offer gid src ctx col)
def execSpilledRecordTakeBack (gid ctx : Nat) (s : State) : Out := settle (s.takeBack gid ctx)
def execThrottleRecovery (gid ctx slot : Nat) (s : State) : Out := .next (s.throttleRecover gid ctx slot)
def execEdgeBeatForward (gid entry : Nat) (s : State) : Out := .next (s.forward gid entry)
def execWorkSteal (tile : Nat) (s : State) : Out := settle (s.workSteal tile)

end Sys2Proof.Machine
end

