-- ==== Sys2Proof/Machine/Engines.lean ====
section
/-! DEFINITION. What the words of majors 0x1E–0x25 share: sync pairs (R36, R37, R316), words that a controller, a unit or an
engine takes (R266, R307, R346), and words that wait for an event of an engine (R317). -/

namespace Sys2Proof.Machine

/-! ## Sync pairs, R36, R37, R316 -/

namespace State

/-- A word of majors 0x1E–0x23 issues when its sync conditions hold; else its task waits with the word not issued, so that an exemption from
the breakpoint check stays (R23), R37. -/
def gated (s : State) (maj : Nat) (y : Sync) (k : State) : State :=
  if s.here.syncOk s.cur.ctx.toNat maj y.push y.pop y.fifo.toNat then k
  else s.withhold (.sync maj y.fifo.toNat y.push y.pop)

/-- The token of a POP is taken and that of a PUSH given, which the engine takes with the word: the word's place in the order
of completions. -/
def issueSync (s : State) (maj : Nat) (y : Sync) : Option Nat × State :=
  let c := s.cur.ctx.toNat
  let f := y.fifo.toNat
  let s := if y.pop then s.modHere fun T => T.modPair c maj f fun p => { p with toTask := p.toTask - 1 } else s
  if y.push then
    let q := s.serial
    (some q, (s.modHere fun T => T.modPair c maj f fun p => { p with order := p.order ++ [(q, false)] }).tick)
  else (none, s)

/-- The completion token of place `q` of a pair is due. -/
def tokenDue (s : State) (t c maj fifo q : Nat) : State :=
  s.modTile t fun T => T.modPair c maj fifo fun p => { p with order := p.order.map fun e => if e.1 = q then (q, true) else e }

/-- A word that posts a command retires; the command's place in the pair's order. -/
def retirePosted (s : State) (maj : Nat) (y : Sync) (f : Task → Task) : Option Nat × State :=
  let (q, s) := s.issueSync maj y
  (q, s.retire f)

/-- A word whose effect is performed as it retires. -/
def retireNow (s : State) (maj : Nat) (y : Sync) (f : Task → Task) : State :=
  let t := s.focus.tile
  let c := s.cur.ctx.toNat
  match s.retirePosted maj y f with
  | (some q, s) => s.tokenDue t c maj y.fifo.toNat q
  | (none, s) => s

/-! ## Words taken by a controller, a unit or an engine -/

/-- What is kept of a word that issues with operands `a` and `b`. -/
def takenWord (s : State) (i : Instr) (d a b : SReg) (record : Nat) : Taken :=
  { word := i, dest := d, a := s.reg a, b := s.reg b, d := s.reg d, sup := s.cur.sup, ctx := s.cur.ctx.toNat, record := record }

/-- The task leaves RUN for WAIT with its word in the hands of `w`. -/
def waitWith (s : State) (k : Taken) (w : Waiting) : State := (s.modCur fun t => { t with taken := some k }).block w

/-- A synced word is taken, R266 and R346, and takes its place among the words taken (R341); accesses that precede it in issue order come
first (R285). -/
def takeSynced (s : State) (maj : Nat) (y : Sync) (k : Taken) (w : Waiting) : State :=
  let (q, s) := (s.publish s.curAgent).issueSync maj y
  s.tick.waitWith { k with pair := some (maj, y.fifo.toNat), seq := q, pop := y.pop, order := s.serial } w

/-- A word of major 0x24 or 0x25 is taken, R307 and R387. -/
def takePlain (s : State) (k : Taken) : State := (s.publish s.curAgent).waitWith k .engine

/-- The words of tasks that have been killed on a tile, R365. -/
def orphansOf (s : State) (t : Nat) : List Taken := (s.orphans.filter fun o => o.1 == t).map (·.2)

/-- A word that acts on one word of memory, R68 to R71: no engine holds it. -/
def atomicWord (i : Instr) : Bool :=
  match i with
  | .aadd .. | .aswp .. | .acas .. | .amin .. | .amax .. | .aand .. | .aor .. | .axor .. | .waitv .. | .wake .. => true
  | _ => false

/-- The word is in the hands of a controller, a unit or an engine, which completes it whatever becomes of its task, R347. -/
def engaged (k : Taken) : Bool := k.cause.isNone && !atomicWord k.word

/-- Word `n` of tile `t` that an engine holds: of task `n`, or from 32 on of a killed task. -/
def takenBy (s : State) (t n : Nat) : Option Taken :=
  if n < 32 then
    let k := (s.tile t).task n
    if (k.state = .wait ∧ (k.waiting = .engine ∨ k.waiting = .ticket)) ∨ k.state = .frozen then k.taken.filter fun w => w.cause.isNone else none
  else (s.orphansOf t)[n - 32]?

/-- The word of a killed task leaves the list. -/
def dropOrphan (s : State) (t n : Nat) : State :=
  match (s.orphansOf t)[n - 32]? with
  | none => s
  | some k => { s with orphans := s.orphans.erase (t, k) }

/-- A change of what is kept of word `n` of tile `t`. -/
def modTaken (s : State) (t n : Nat) (f : Taken → Taken) : State :=
  if n < 32 then s.modTile t fun T => T.modTask n fun k => { k with taken := k.taken.map f }
  else
    match (s.orphansOf t)[n - 32]? with
    | none => s
    | some k => { s with orphans := s.orphans.map fun o => if o = (t, k) then (t, f k) else o }

/-- The word completes: d is written, pc moves past it, the task enters READY, and its completion token is due. -/
def endWord (s : State) (t n : Nat) (v : Word) : State :=
  match s.takenBy t n with
  | none => s
  | some k =>
    let s :=
      if n < 32 then
        s.modTile t fun T =>
          let T := T.modTask n fun x => (({ x with taken := none } : Task).result k.dest v).next
          ({ T with retired := T.retired + 1 } : Tile).wake n
      else s.dropOrphan t n
    match k.pair, k.seq with
    | some p, some q => s.tokenDue t k.ctx p.1 p.2 q
    | _, _ => s

/-- The word ends with a cause, raised when its task next runs, R266 and R316. -/
def failWord (s : State) (t n cause : Nat) (v : Word) : State :=
  match s.takenBy t n with
  | none => s
  | some k =>
    let s :=
      if n < 32 then
        s.modTile t fun T =>
          (T.modTask n fun x => { x with taken := some { k with pair := none, seq := none, pop := false, cause := some (cause, v) } }).wake n
      else s.dropOrphan t n
    s.modTile t fun T => T.untake k

/-- The running task's word ended with a cause: it is raised, with EPC on the word. -/
def raiseTaken (s : State) : State :=
  match s.cur.taken with
  | some { cause := some (c, v), .. } => (s.modCur fun k => { k with taken := none }).raise c v
  | _ => s

/-! ## Words that wait for an event, R317 -/

/-- A word that waits under R317: `ready` gives its answer once the event has occurred. -/
def waitFor (s : State) (maj : Nat) (y : Sync) (k : Taken) (ready : State → Nat → Taken → Option (Word × State)) : State :=
  match ready s s.focus.tile k with
  | some (v, s) => s.retireNow maj y fun t => t.setReg k.dest v
  | none => s.takeSynced maj y k .ticket

/-- Every waiting word of a tile whose event has occurred completes. -/
def serveTickets (s : State) (t : Nat) (ready : State → Nat → Taken → Option (Word × State)) : State :=
  (List.range 32).foldl (fun s n =>
    let x := (s.tile t).task n
    if x.state = .wait ∧ x.waiting = .ticket then
      match x.taken with
      | none => s
      | some k =>
        match ready s t k with
        | some (v, s) => s.endWord t n v
        | none => s
    else s) s

/-- A wait under R317 is given up: the word issues again later. -/
def giveUp (s : State) (t n : Nat) : State :=
  let x := (s.tile t).task n
  if x.state = .wait ∧ x.waiting = .ticket then
    match x.taken with
    | some k => s.modTile t fun T => (T.modTask n fun x => { x with taken := none }).untake k
    | none => s
  else s

/-- A task of a killed region loses its word: a wait is given up, and a word that an engine holds goes on without it, R347 and R365. -/
def orphan (s : State) (t n : Nat) : State :=
  let x := (s.tile t).task n
  if (x.state = .wait ∧ x.waiting = .engine) ∨ x.state = .frozen then
    match x.taken with
    | some k =>
      if engaged k then { (s.modTile t fun T => T.modTask n fun x => { x with taken := none }) with orphans := s.orphans ++ [(t, k)] }
      else s
    | none => s
  else s.giveUp t n

/-- A FROZEN task resumes as `f` leaves it: it is READY, or it waits on for a word that an engine holds, after which it resumes, R347. -/
def resume (s : State) (t n : Nat) (f : Task → Task) : State :=
  s.modTile t fun T =>
    match (T.task n).taken.filter engaged with
    | some _ => T.enter n .wait .engine
    | none => (T.modTask n f).enter n .ready .nothing

end State

end Sys2Proof.Machine
end

