-- ==== Sys2Proof/Machine/Streams.lean ====
section
/-! DEFINITION. Majors 0x1E and 0x1F: traverse registers, streams and the copy engines, R318–R330 and R372. -/

namespace Sys2Proof.Machine

/-! ## Status words, R327 -/

def EngStatus.flagged (x : EngStatus) : Bool := x.pois || x.flt || x.canc || x.errt
def EngStatus.word (x : EngStatus) : Word :=
  flag 63 x.fin ||| flag 62 x.pois ||| flag 61 x.flt ||| flag 60 x.canc ||| flag 59 x.errt
    ||| field 50 (if x.flt then x.cause else 0) ||| field 32 (Min.min x.rej (2 ^ 18 - 1)) ||| field 0 (x.off % 2 ^ 32)
/-- DONE alone. -/
def doneWord : Word := flag 63 true

/-- OFF is the lowest offset met. -/
def EngStatus.lower (x : EngStatus) (o : Nat) : Nat := if x.pois || x.flt then Min.min x.off o else o
def EngStatus.poisonAt (x : EngStatus) (o : Nat) : EngStatus := { x with pois := true, off := x.lower o }
def EngStatus.faultAt (x : EngStatus) (c o : Nat) : EngStatus :=
  if x.flt ∧ x.faultOff ≤ o then x else { x with flt := true, cause := c, off := x.lower o, faultOff := o }

/-- The status that a wait for several commands returns: that of the lowest with a flag, or DONE alone, R323 and R327. -/
def lowestFlagged (l : List EngStatus) : Word := match l.find? (·.flagged) with | some x => x.word | none => doneWord

namespace State

/-! ## Where stream bytes lie, R319 -/

/-- Where the `n` contiguous bytes from stream offset `o` lie; or the first that cannot be reached, with its cause. -/
def streamPlace (s : State) (t c : Nat) (sup : Bool) (w : BitVec 256) (o n : Nat) (write : Bool) :
    Except (Nat × Nat) (List (Space × Nat × Nat)) × State :=
  let a := tvAddr w o
  let top : Int := if tvSp w = 1 then 0x180000 else 2 ^ 56
  let cause := if tvSp w = 1 then 0x04 else 0x05
  if a < 0 ∨ top ≤ a then (.error (cause, o), s)
  else if top < a + n then (.error (cause, o + (top - a).toNat), s)
  else if tvSp w = 1 then (.ok [(.overlay t, a.toNat, n)], s)
  else
    match s.probeAll (tileDie t) c { read := !write, write := write, sup := sup, farOk := true } (pieces 2 a.toNat n) with
    | (.error e, s) => (.error (e.1, o + (e.2 - a.toNat)), s)
    | (.ok ps, s) => (.ok ps, s)

/-- The offset up to which `n` bytes from `o` can be reached, with the places of those bytes and the fault that follows. -/
def streamReach (s : State) (t c : Nat) (sup : Bool) (w : BitVec 256) (o n : Nat) (write : Bool) :
    List (Space × Nat × Nat) × Option (Nat × Nat) × State :=
  match s.streamPlace t c sup w o n write with
  | (.ok ps, s) => (ps, none, s)
  | (.error e, s) =>
    if e.2 ≤ o then ([], some e, s)
    else
      match s.streamPlace t c sup w o (e.2 - o) write with
      | (.ok ps, s) => (ps, some e, s)
      | (.error e, s) => ([], some (e.1, o), s)

/-- The bytes of a sector that an engine cannot trust: a poison mark or an uncorrectable error, R328. -/
def badSector (s : State) (sp : Space) (u : Nat) : Bool :=
  (s.store sp).poison.contains u || (List.range 4).any fun i => (s.store sp).badEcc.contains (4 * u + i)

/-- Which of the bytes of some places lie in such sectors, counted from the first. -/
def badBytes (s : State) : List (Space × Nat × Nat) → Nat → List Nat
  | [], _ => []
  | (sp, a, n) :: r, i =>
    ((List.range n).filter fun j => s.badSector sp ((a + j) / 32)).map (i + ·) ++ s.badBytes r (i + n)

/-- Byte `i` of a number replaced. -/
def setByte (v i b : Nat) : Nat := v - v / 256 ^ i % 256 * 256 ^ i + b % 256 * 256 ^ i

/-- Bytes whose data the spec leaves open are free values. -/
def scramble (s : State) (v : Nat) : List Nat → Nat × State
  | [] => (v, s)
  | i :: r => let (x, s) := s.free; s.scramble (setByte v i x.toNat) r

/-- What was read of some stream bytes: their number, their value, the offsets of poisoned ones, and the fault after them. -/
structure Gathered where
  n     : Nat
  v     : Nat
  bad   : List Nat
  fault : Option (Nat × Nat)
  deriving DecidableEq, Repr

/-- `k` runs of `m` bytes read from stream offset `o` on: each run is contiguous. -/
def gather (s : State) (t c : Nat) (sup : Bool) (w : BitVec 256) (m o : Nat) : Nat → Gathered × State
  | 0 => (⟨0, 0, [], none⟩, s)
  | k + 1 =>
    let (ps, fault, s) := s.streamReach t c sup w o m false
    let s := s.piecesHome engineAgent ps
    let n := ps.foldl (fun n p => n + p.2.2) 0
    let bad := s.badBytes ps 0
    let v := s.readPieces ps
    let s := ps.foldl (fun s p => s.correct (tileDie t) p.1 p.2.1 p.2.2) s
    match fault with
    | some e => (⟨n, v, bad.map (o + ·), some e⟩, s)
    | none =>
      let (g, s) := s.gather t c sup w m (o + m) k
      (⟨n + g.n, v + 256 ^ n * g.v, bad.map (o + ·) ++ g.bad, g.fault⟩, s)

/-! ## Traverse registers, R320 -/

def tvReg (s : State) (n : Nat) : BitVec 256 := SMap.getD s.curCtx.tv n 0

/-- TVSET. -/
def tvset (s : State) (d a b : SReg) (y : Sync) : State := s.gated 0x1E y <|
  let p := (s.reg a).toNat
  let n := (s.reg b).toNat % 16
  let w := BitVec.ofNat 256 (s.here.dataRead p 32)
  let set : BitVec 256 := BitVec.ofNat 256 (2 ^ 58)
  if p % 8 ≠ 0 then s.raise 0x03 (s.reg a)
  else if 0x8000 < p + 32 then s.raise 0x04 (s.reg a)
  else if 2 ≤ tvSp w ∨ tvEsz w = 7 ∨ w.extractLsb' 56 2 ≠ 0#2 then s.retireNow 0x1E y fun k => k.setReg d 1
  else
    (s.modHere fun T => T.modCtx s.cur.ctx.toNat fun x => { x with tv := SMap.set x.tv n (w ||| set) }).retireNow 0x1E y
      fun k => k.setReg d 0

/-- TVCLR. -/
def tvclr (s : State) (a : SReg) (y : Sync) : State := s.gated 0x1E y <|
  let m := s.reg a
  let clear (x : CtxRegs) : CtxRegs :=
    { x with tv := x.tv.map fun e => if e.1 < 16 ∧ m.getLsbD e.1 = true then (e.1, e.2 &&& ~~~(BitVec.ofNat 256 (2 ^ 58))) else e }
  (s.modHere fun T => T.modCtx s.cur.ctx.toNat clear).retireNow 0x1E y id

/-! ## Streams, R321–R324 -/

/-- A stream has to wait for one bound before it: of its list, or of an earlier phase, R323. -/
def streamBlocked (x : CtxRegs) (y : Stream) : Bool :=
  x.streams.any fun z => !z.2.st.fin && z.2.order < y.order &&
    (decide (z.2.phase < y.phase) || (z.2.elem == y.elem && z.2.out == y.out && z.2.port == y.port))

def modStream (s : State) (t c n : Nat) (f : Stream → Stream) : State :=
  s.modTile t fun T => T.modCtx c fun x =>
    match SMap.get? x.streams n with
    | some y => { x with streams := SMap.set x.streams n (f y) }
    | none => x

/-- STREAM_START. -/
def startStream (s : State) (t c n : Nat) : State :=
  match SMap.get? ((s.tile t).ctx c).streams n with
  | some y => if y.going || y.st.fin || streamBlocked ((s.tile t).ctx c) y then s else s.modStream t c n fun y => { y with going := true }
  | none => s

/-- SBIND, R321. DESIGN CHOICE: with sixteen streams allocated d is 2^64 − 1, whatever else fails; W and b are those of COL as the word
issues. -/
def sbind (s : State) (d a b : SReg) (y : Sync) : State := s.gated 0x1E y <|
  let t := s.focus.tile
  let c := s.cur.ctx.toNat
  let v := s.reg b
  let e := (v.extractLsb' 0 6).toNat
  let col := v.extractLsb' 9 5
  let w := s.tvReg ((s.reg a).toNat % 16)
  let x := s.ectx (64 * t + e) c
  match (List.range 16).find? fun n => (SMap.get? s.curCtx.streams n).isNone with
  | none => s.retireNow 0x1E y fun k => k.setReg d (word (2 ^ 64 - 1))
  | some n =>
    if !tvV w || decide (2 ^ 32 ≤ tvBytes w) || v.extractLsb' 14 2 != 0#2 || !(x.entry col.toNat).g then
      s.retireNow 0x1E y fun k => k.setReg d (word (2 ^ 64 - 2))
    else
      let out := v.getLsbD 6
      let bits := x.width col.toNat * fmtBits (x.entry col.toNat).fmt.toNat
      let z : Stream :=
        { elem := e, out := out, port := if out then (v.extractLsb' 7 2).toNat else 7, col := col, itr0 := v.extractLsb' 16 12,
          trav := w, sup := s.cur.sup, per := (bits + 7) / 8, order := s.serial, phase := s.curCtx.phase }
      let (q, s) := (s.publish s.curAgent).retirePosted 0x1E y fun k => k.setReg d (word n)
      let z := { z with sync := q.map fun q => (y.fifo.toNat, q) }
      ((s.modTile t fun T => T.modCtx c fun x => { x with streams := SMap.set x.streams n z }).tick).startStream t c n

/-- SBAR, R323. -/
def sbar (s : State) (y : Sync) : State := s.gated 0x1E y <|
  (s.modHere fun T => T.modCtx s.cur.ctx.toNat fun x => { x with phase := x.phase + 1 }).retireNow 0x1E y id

/-- SCAN, R323. -/
def scan (s : State) (a : SReg) (y : Sync) : State := s.gated 0x1E y <|
  (s.modStream s.focus.tile s.cur.ctx.toNat ((s.reg a).toNat % 16) fun z =>
    if z.st.fin then z else { z with st := { z.st with canc := true } }).retireNow 0x1E y id

def dropStreams (s : State) (t c : Nat) (ns : List Nat) : State :=
  s.modTile t fun T => T.modCtx c fun x => { x with streams := ns.foldl SMap.erase x.streams }

def dropCopies (s : State) (t c : Nat) (ns : List Nat) : State :=
  s.modTile t fun T => T.modCtx c fun x => { x with copies := ns.foldl SMap.erase x.copies }

/-- What a waiting SWAIT or CPYSYNC returns once its event has occurred, R323 and R327. -/
def copyReady (s : State) (t : Nat) (k : Taken) : Option (Word × State) :=
  let x := (s.tile t).ctx k.ctx
  match k.word with
  | .swait .. =>
    if k.a.getLsbD 4 then
      if x.streams.all fun z => z.2.st.fin then
        some (lowestFlagged (x.streams.map (·.2.st)), s.dropStreams t k.ctx (x.streams.map (·.1)))
      else none
    else
      match SMap.get? x.streams (k.a.toNat % 16) with
      | none => some (0, s)
      | some z => if z.st.fin then some (z.st.word, s.dropStreams t k.ctx [k.a.toNat % 16]) else none
  | .cpysync .. =>
    if k.a.getLsbD 6 then
      if x.copies.all fun z => z.2.st.fin then
        some (lowestFlagged (x.copies.map (·.2.st)), s.dropCopies t k.ctx (x.copies.map (·.1)))
      else none
    else
      match SMap.get? x.copies (k.a.toNat % 64) with
      | none => some (0, s)
      | some z => if z.st.fin then some (z.st.word, s.dropCopies t k.ctx [k.a.toNat % 64]) else none
  | _ => none

/-- SWAIT, R323. -/
def swait (s : State) (d a : SReg) (y : Sync) : State :=
  s.gated 0x1E y (s.waitFor 0x1E y (s.takenWord (.swait d a y) d a 0 0) copyReady)

/-- The tokens of a stream, ⌈T / B⌉, R322. -/
def streamTokens (z : Stream) : Nat := (tvBytes z.trav + z.per - 1) / z.per

/-- A stream meets a cause at stream offset `o`: it stops there and the element records the fault, R324, with SLOT 0 (DESIGN CHOICE: a stream
has no slot). -/
def streamFault (s : State) (t c n : Nat) (z : Stream) (cause o : Nat) : State :=
  (s.modStream t c n fun z => { z with held := true }).elemFault (64 * t + z.elem) c 0 cause (wrap64 (tvAddr z.trav o)) none false

/-- An in-stream emits its next token when the element's memory port has room, R322. -/
def emitStream (s : State) (t c n : Nat) (z : Stream) : State :=
  let g := 64 * t + z.elem
  let o := z.count * z.per
  let m := Min.min z.per (tvBytes z.trav - o)
  let run := 2 ^ tvEsz z.trav
  -- the bytes of one token in runs that each lie in one traverse element
  let (r, s') := s.gather t c z.sup z.trav (Nat.gcd run z.per) o ((m + Nat.gcd run z.per - 1) / Nat.gcd run z.per)
  let tag : Tag := { ctx := BitVec.ofNat 2 c, col := z.col, itr := z.itr0 + BitVec.ofNat 12 z.count }
  let tok : Token := ⟨tag, beatList ((z.per + 31) / 32) (r.v % 256 ^ m)⟩
  match r.bad, r.fault with
  | b :: _, _ =>
    let cause := match s'.streamPlace t c z.sup z.trav b 1 false with
      | (.ok [(sp, a, _)], s) => if (s.store sp).poison.contains (a / 32) then 0x14 else 0x15
      | _ => 0x15
    s'.streamFault t c n z cause b
  | [], some e => s'.streamFault t c n z e.1 e.2
  | [], none =>
    if laneRoom (s'.source g 7 c z.col.toNat) tok.toBeats.length then
      (s'.inject g 7 tok).modStream t c n fun z => { z with count := z.count + 1 }
    else s'

/-- `k` contiguous runs of `m` bytes written from stream offset `o` on, from a value; where a fault stops them. -/
def scatter (s : State) (t c : Nat) (sup : Bool) (w : BitVec 256) (m o v : Nat) : Nat → Option (Nat × Nat) × State
  | 0 => (none, s)
  | k + 1 =>
    let (ps, fault, s) := s.streamReach t c sup w o m true
    let s := (s.piecesHome engineAgent ps).writePieces c v ps
    match fault with
    | some e => (some e, s)
    | none => s.scatter t c sup w m (o + m) (v / 256 ^ m) k

/-- An out-stream writes the token that it holds, from the first byte not yet written, R322 and R324. A token of another width than COL's
supplies its low B bytes, zero beyond its own (DESIGN CHOICE). -/
def writeStream (s : State) (t c n : Nat) (z : Stream) : State :=
  let next (s : State) (err : Bool) : State := s.modStream t c n fun z =>
    { z with count := z.count + 1, tag := {}, hand := [], whole := false, part := 0, st := { z.st with errt := z.st.errt || err } }
  if z.tag.err then next s true
  else if z.tag.nul then next s false
  else
    let o := z.count * z.per + z.part
    let m := Min.min z.per (tvBytes z.trav - z.count * z.per) - z.part
    let run := Nat.gcd (Nat.gcd (2 ^ tvEsz z.trav) z.per) (if z.part = 0 then 0 else z.part)
    match s.scatter t c z.sup z.trav run o (bitString z.hand / 256 ^ z.part) ((m + run - 1) / run) with
    | (none, s) => next s false
    | (some e, s) => (s.modStream t c n fun z => { z with part := e.2 - z.count * z.per }).streamFault t c n z e.1 e.2

/-- STREAM_TOKEN_TRANSFER: an in-stream emits a token; an out-stream takes a beat, or writes the token that it holds; a header beat is taken
and supplies nothing (DESIGN CHOICE: R322 counts tokens). A stream stopped by a fault goes on once its element's context fires again, and a save stops it at a token boundary (R373). -/
def streamStep (s : State) (t c n : Nat) : State :=
  match SMap.get? ((s.tile t).ctx c).streams n with
  | none => s
  | some z =>
    let g := 64 * t + z.elem
    if !z.going || z.st.fin || (z.held && (s.ectx g c).stopped) || (z.hand == [] && (s.stoppedForSave t c || z.st.canc))
        || decide (streamTokens z ≤ z.count) then s
    else
      let s := s.modStream t c n fun z => { z with held := false }
      let z := { z with held := false }
      if !z.out then s.emitStream t c n z
      else if z.whole then s.writeStream t c n z
      else
        match (s.source g z.port c z.col.toNat).beats with
        | [] => s
        | b :: _ =>
          if z.hand = [] ∧ s.atBoundary g z.port c z.col.toNat = false then s else
          let s := s.modSource g z.port c z.col.toNat Lane.pop
          if b.tag.isHeader then s
          else
            s.modStream t c n fun z =>
              { z with tag := if z.hand = [] then b.tag else z.tag, hand := z.hand ++ [b.data], whole := b.tag.last }

/-- A stream is complete: its token is due, R316. -/
def finishStream (s : State) (t c n : Nat) (z : Stream) : State :=
  let s := s.modStream t c n fun z => { z with hand := [], st := { z.st with fin := true } }
  let s := match z.sync with | some (f, q) => s.tokenDue t c 0x1E f q | none => s
  s.serveTickets t copyReady

/-- The streams that are still open end as cancelled ones do. -/
def cancelStreams (s : State) (t c : Nat) : State :=
  (((s.tile t).ctx c).streams.filter fun z => !z.2.st.fin).foldl (fun s z =>
    (s.modStream t c z.1 fun y => { y with st := { y.st with canc := true } }).finishStream t c z.1 z.2) s

/-- STREAM_COMPLETE, R322: every token is done, or the stream is cancelled between two tokens. -/
def streamEnd (s : State) (t c n : Nat) : State :=
  match SMap.get? ((s.tile t).ctx c).streams n with
  | none => s
  | some z =>
    if z.st.fin || !(decide (streamTokens z ≤ z.count) || (z.st.canc && (z.hand == [] || z.whole))) then s
    else s.finishStream t c n z

/-! ## Copies, R325–R329 -/

/-- The failure code of a copy, R325: of several reasons the first of its table (DESIGN CHOICE). -/
def copyRefused (form : Nat) (src dst : BitVec 256) : Option Nat :=
  let strides (m : Int) : Bool := (List.range 4).all fun k => tvStride dst k % m == 0
  if !tvV src || !tvV dst || tvBytes src != tvBytes dst || decide (2 ^ 32 ≤ tvBytes src) then some (2 ^ 64 - 2)
  else if form = 1 ∧ (tvSp dst ≠ 0 ∨ tvEsz dst ≠ 6 ∨ tvBase dst % 64 ≠ 0 ∨ strides 64 = false) then some (2 ^ 64 - 3)
  else if form = 2 ∧ (tvEsz dst < 3 ∨ tvBase dst % 8 ≠ 0 ∨ strides 8 = false) then some (2 ^ 64 - 3)
  else none

/-- CPY, CPYV and CPYF, R325: the copy is checked and posted. -/
def copy (s : State) (form : Nat) (d a : SReg) (ver : Nat) (y : Sync) : State := s.gated 0x1F y <|
  let c := s.cur.ctx.toNat
  let src := s.tvReg ((s.reg a).extractLsb' 0 4).toNat
  let dst := s.tvReg ((s.reg a).extractLsb' 4 4).toNat
  match (List.range 64).find? fun n => (SMap.get? s.curCtx.copies n).isNone with
  | none => s.retireNow 0x1F y fun k => k.setReg d (word (2 ^ 64 - 1))
  | some n =>
    match copyRefused form src dst with
    | some e => s.retireNow 0x1F y fun k => k.setReg d (word e)
    | none =>
      let sup := s.cur.sup
      let (q, s) := (s.publish s.curAgent).retirePosted 0x1F y fun k => k.setReg d (word n)
      let z : Copy := { form := form, src := src, dst := dst, ver := ver, sup := sup, sync := q.map fun q => (y.fifo.toNat, q), order := s.serial }
      (s.modHere fun T => T.modCtx c fun x => { x with copies := SMap.set x.copies n z }).tick

def modCopy (s : State) (t c n : Nat) (f : Copy → Copy) : State :=
  s.modTile t fun T => T.modCtx c fun x =>
    match SMap.get? x.copies n with
    | some y => { x with copies := SMap.set x.copies n (f y) }
    | none => x

/-- Sectors that have received poisoned bytes carry a mark, R328. -/
def markBytes (s : State) : List (Space × Nat × Nat) → Nat → List Nat → State
  | [], _, _ => s
  | (sp, a, n) :: r, i, bad =>
    let hit := (bad.filter fun j => i ≤ j && j < i + n).map fun j => (a + (j - i)) / 32
    (if hit = [] then s else s.modStore sp fun x => { x with poison := hit.foldl NSet.insert x.poison }).markBytes r (i + n) bad

/-- The full-empty bits of the words that lie wholly in some bytes are full, R259. -/
def setFull (s : State) (ps : List (Space × Nat × Nat)) : State :=
  ps.foldl (fun s p => s.modStore p.1 fun x => { x with full := (unitsWithin 8 p.2.1 p.2.2).foldl NSet.insert x.full }) s

/-- Contiguous bytes that a segment writes: their place and value, with the poisoned ones counted from the first. -/
structure Run where
  sp  : Space
  a   : Nat
  n   : Nat
  v   : Nat
  bad : List Nat
  deriving DecidableEq, Repr

/-- A run joined to the one before it when it follows it in memory. -/
def addRun (l : List Run) (r : Run) : List Run :=
  match l with
  | h :: t =>
    if h.sp = r.sp ∧ h.a + h.n = r.a then { h with n := h.n + r.n, v := h.v + 256 ^ h.n * r.v, bad := h.bad ++ r.bad.map (h.n + ·) } :: t
    else r :: h :: t
  | [] => [r]

/-- The runs of some places, each with its part of a value; `i` bytes lie before them. -/
def runsOf (v : Nat) (bad : List Nat) : List (Space × Nat × Nat) → Nat → List Run
  | [], _ => []
  | (sp, a, n) :: r, i =>
    ⟨sp, a, n, v / 256 ^ i % 256 ^ n, (bad.filter fun j => i ≤ j && j < i + n).map (· - i)⟩ :: runsOf v bad r (i + n)

/-- One destination element of a copy read and placed: the runs that it writes, its poisoned offsets and the fault that stops
it. A 64-byte unit of a CPYV is written whole or not at all. -/
def copyElement (s : State) (t c : Nat) (z : Copy) (o : Nat) : List Run × List Nat × Option (Nat × Nat) × State :=
  let u := 2 ^ tvEsz z.dst
  let m := Min.min u (2 ^ tvEsz z.src)
  let (g, s) := s.gather t c z.sup z.src m o (u / m)
  let (v, s) := s.scramble g.v (g.bad.map (· - o))
  let (ps, fault, s) := s.streamReach t c z.sup z.dst o g.n true
  let fault := match fault with | some e => some e | none => g.fault
  if z.form = 1 ∧ fault.isSome then ([], g.bad, fault, s)
  else (runsOf v (g.bad.map (· - o)) ps 0, g.bad, fault, s)

/-- The elements of a segment from offset `o` on, of at most `k`: the runs in reverse order, the lowest poisoned offset and the
fault. -/
def copyPlan (s : State) (t c : Nat) (z : Copy) (o : Nat) : Nat → List Run → Option Nat → List Run × Option Nat × Option (Nat × Nat) × State
  | 0, l, p => (l, p, none, s)
  | k + 1, l, p =>
    let (rs, bad, fault, s) := s.copyElement t c z o
    let l := if z.form = 1 then rs.reverse ++ l else rs.foldl addRun l
    let p := match p, bad with | none, b :: _ => some b | p, _ => p
    match fault with
    | some e => (l, p, some e, s)
    | none => s.copyPlan t c z (o + 2 ^ tvEsz z.dst) k l p

/-- A run written in the way of the copy's form, R325; whether a unit was rejected. -/
def writeRun (s : State) (c : Nat) (z : Copy) (r : Run) : Bool × State :=
  let ps := [(r.sp, r.a, r.n)]
  let s := s.piecesHome engineAgent ps
  if z.form = 1 then
    let x := s.versioned r.sp r.a r.n r.v z.ver
    if x.2.1 then (false, x.2.2.markBytes ps 0 r.bad) else (true, x.2.2)
  else
    let s := (s.performFor c r.sp r.a r.n r.v).markBytes ps 0 r.bad
    (false, if z.form = 2 then s.setFull ps else s)

def segBytes : Nat := 4096
/-- The segments of a copy. -/
def copySegs (z : Copy) : Nat := (tvBytes z.src + segBytes - 1) / segBytes

/-- Every earlier copy of the context has started, R326. -/
def copyTurn (x : CtxRegs) (z : Copy) : Bool :=
  x.copies.all fun y => z.order ≤ y.2.order || y.2.st.fin || y.2.segs != [] || y.2.st.flt || y.2.st.canc

/-- The effect of a segment: the units rejected, the lowest poisoned offset and the fault that it meets. -/
def runSegment (s : State) (t c : Nat) (z : Copy) (seg : Nat) : Nat × Option Nat × Option (Nat × Nat) × State :=
  let o := segBytes * seg
  let (rs, bad, fault, s) := s.copyPlan t c z o ((Min.min segBytes (tvBytes z.src - o)) / 2 ^ tvEsz z.dst) [] none
  let (rej, s) := rs.reverse.foldl (fun (x : Nat × State) r =>
    let (no, s) := x.2.writeRun c z r
    (if no then x.1 + 1 else x.1, s)) (0, s)
  (rej, bad, fault, s)

/-- COPY_SEGMENT: a 4 KiB segment is performed, R326, R328 and R329. -/
def copySegment (s : State) (t c n seg : Nat) : State :=
  match SMap.get? ((s.tile t).ctx c).copies n with
  | none => s
  | some z =>
    if z.st.fin || z.st.canc || z.segs.contains seg || decide (copySegs z ≤ seg) || !copyTurn ((s.tile t).ctx c) z
        || s.stoppedForSave t c || (z.st.flt && decide (z.st.faultOff ≤ segBytes * seg)) then s
    else
      let (rej, bad, fault, s) := s.runSegment t c z seg
      s.modCopy t c n fun z =>
        let st := { z.st with rej := z.st.rej + rej }
        let st := match bad with | some b => st.poisonAt b | none => st
        let st := match fault with | some e => st.faultAt e.1 e.2 | none => st
        { z with segs := NSet.insert z.segs seg, st := st }

/-- Every page that the source of a copy touches is read-only, R372. -/
def readOnlySource (s : State) (t c : Nat) (w : BitVec 256) : Bool :=
  tvSp w == 0 && (List.range (tvBytes w / 2 ^ tvEsz w)).all fun i =>
    match (s.translate (tileDie t) c (tvAddr w (i * 2 ^ tvEsz w)).toNat).1, (s.translate (tileDie t) c (tvAddr w (i * 2 ^ tvEsz w + 2 ^ tvEsz w - 1)).toNat).1 with
    | some l, some m => !pteW l.entry && !pteW m.entry
    | _, _ => false

/-- The destinations of two staging entries share a byte. -/
def destinationsMeet (x y : BitVec 256) : Bool :=
  (List.range (tvBytes x / 2 ^ tvEsz x)).any fun i => tvTouches y (tvAddr x (i * 2 ^ tvEsz x)).toNat (2 ^ tvEsz x)

/-- A completed CPY or CPYF of read-only memory into the overlay leaves a staging entry, R372. -/
def stage (s : State) (t c : Nat) (z : Copy) : State :=
  if z.form = 1 ∨ tvSp z.dst ≠ 1 ∨ z.st.flt = true ∨ z.st.canc = true ∨ s.readOnlySource t c z.src = false then s
  else
    s.modTile t fun T => T.modCtx c fun x =>
      let kept := x.staging.filter fun e => !destinationsMeet z.dst e.dst
      if 32 ≤ kept.length then { x with staging := kept } else { x with staging := kept ++ [⟨z.form, z.src, z.dst⟩] }

/-- A copy is complete: its token is due, R316 and R326. -/
def finishCopy (s : State) (t c n : Nat) (z : Copy) : State :=
  let s := s.modCopy t c n fun z => { z with st := { z.st with fin := true } }
  let s := match z.sync with | some (f, q) => s.tokenDue t c 0x1F f q | none => s
  s.serveTickets t copyReady

/-- COPY_COMMAND_COMPLETE: every segment is performed, or every one below a fault (R329), or the copy is cancelled. -/
def copyEnd (s : State) (t c n : Nat) : State :=
  match SMap.get? ((s.tile t).ctx c).copies n with
  | none => s
  | some z =>
    let need := if z.st.flt then Min.min (copySegs z) (z.st.faultOff / segBytes + 1) else copySegs z
    if z.st.fin || !(z.st.canc || (List.range need).all z.segs.contains) then s
    else (s.stage t c z).finishCopy t c n z

/-- CPYST, R327. -/
def cpyst (s : State) (d a b : SReg) (y : Sync) : State := s.gated 0x1F y <|
  let c := s.cur.ctx.toNat
  let n := (s.reg a).toNat % 64
  match SMap.get? s.curCtx.copies n with
  | none => s.retireNow 0x1F y fun k => k.setReg d 0
  | some z =>
    let s' := if z.st.fin && (s.reg b).getLsbD 0 then s.dropCopies s.focus.tile c [n] else s
    s'.retireNow 0x1F y fun k => k.setReg d (if z.st.fin then z.st.word else { z.st with fin := false }.word)

/-- CPYSYNC, R327. -/
def cpysync (s : State) (d a : SReg) (y : Sync) : State :=
  s.gated 0x1F y (s.waitFor 0x1F y (s.takenWord (.cpysync d a y) d a 0 0) copyReady)

end State

def execTvset (d a b : SReg) (y : Sync) (s : State) : Out := .next (s.tvset d a b y)
def execTvclr (a : SReg) (y : Sync) (s : State) : Out := .next (s.tvclr a y)
def execSbind (d a b : SReg) (y : Sync) (s : State) : Out := .next (s.sbind d a b y)
def execSbar (y : Sync) (s : State) : Out := .next (s.sbar y)
def execSwait (d a : SReg) (y : Sync) (s : State) : Out := .next (s.swait d a y)
def execScan (a : SReg) (y : Sync) (s : State) : Out := .next (s.scan a y)
def execCpy (d a : SReg) (y : Sync) (s : State) : Out := .next (s.copy 0 d a 0 y)
def execCpyv (d a b : SReg) (y : Sync) (s : State) : Out := .next (s.copy 1 d a ((s.reg b).toNat % 256) y)
def execCpyf (d a : SReg) (y : Sync) (s : State) : Out := .next (s.copy 2 d a 0 y)
def execCpyst (d a b : SReg) (y : Sync) (s : State) : Out := .next (s.cpyst d a b y)
def execCpysync (d a : SReg) (y : Sync) (s : State) : Out := .next (s.cpysync d a y)
def execStreamStart (tile ctx n : Nat) (s : State) : Out := .next (s.startStream tile ctx n)
def execStreamTokenTransfer (tile ctx n : Nat) (s : State) : Out := settle (s.streamStep tile ctx n)
def execStreamComplete (tile ctx n : Nat) (s : State) : Out := .next (s.streamEnd tile ctx n)
def execCopySegment (tile ctx ticket seg : Nat) (s : State) : Out := settle (s.copySegment tile ctx ticket seg)
def execCopyCommandComplete (tile ctx ticket : Nat) (s : State) : Out := .next (s.copyEnd tile ctx ticket)

end Sys2Proof.Machine
end

