-- ==== Sys2Proof/Machine/Egress.lean ====
section
/-! DEFINITION. Rings in memory that the host reads (R332, R369, R404), and major 0x21: the egress hold queues, R331–R334. -/

namespace Sys2Proof.Machine

/-! ## Rings -/

/-- The fields that EGRING, FLTRING and MSGRING share. -/
def ringHead (r : BitVec 128) : Nat := (r.extractLsb' 96 32).toNat
def ringTail (r : BitVec 128) : Nat := (r.extractLsb' 64 32).toNat
def ringBase (r : BitVec 128) : Nat := (r.extractLsb' 12 44).toNat * 4096
def ringOn (r : BitVec 128) : Bool := r.getLsbD 5
def ringRecords (r : BitVec 128) : Nat := 2 ^ (r.extractLsb' 0 5).toNat
def ringOpen (r : BitVec 128) : Bool := decide ((ringTail r + 2 ^ 32 - ringHead r) % 2 ^ 32 < ringRecords r)

/-- `v` in bits [lo + n - 1 : lo] of a register. -/
def putBits (r : BitVec 128) (lo n v : Nat) : BitVec 128 :=
  BitVec.ofNat 128 (r.toNat - r.toNat / 2 ^ lo % 2 ^ n * 2 ^ lo + v % 2 ^ n * 2 ^ lo)
def ringNext (r : BitVec 128) : BitVec 128 := putBits r 64 32 (ringTail r + 1)

namespace State

/-- The place of `n` bytes that the device's own agents of a die write for a context. -/
def ownPlace (s : State) (die c va n : Nat) : Option (List (Space × Nat × Nat)) × State :=
  match s.probeAll die c { write := true, sup := true, farOk := true } (pieces 2 va n) with
  | (.ok ps, s) => (some ps, s)
  | (.error _, s) => (none, { s with absent := none })

/-- A record of `n` bytes is written to a ring at system scope; none where its page cannot be reached. -/
def recordWrite (s : State) (die : Nat) (r : BitVec 128) (n v : Nat) : Option State :=
  let c := Config.ringContext % 4
  match s.ownPlace die c (ringBase r + n * (ringTail r % ringRecords r)) n with
  | (none, _) => none
  | (some ps, s) => some ((s.piecesHome engineAgent ps).writePieces c v ps)

/-- A record is written to a ring, then TAIL to the word after the ring, both at system scope, R332 and R404; none where a page cannot be
reached. -/
def ringWrite (s : State) (die : Nat) (r : BitVec 128) (n v : Nat) : Option State :=
  let c := Config.ringContext % 4
  match s.ownPlace die c (ringBase r + n * ringRecords r) 8 with
  | (none, _) => none
  | (some qs, s) => (s.recordWrite die r n v).map fun s => (s.piecesHome engineAgent qs).writePieces c (ringTail (ringNext r)) qs

end State

/-! ## The hold queue, R331 -/

def sessionLimit : Nat := 64
def queueLimit : Nat := 8192

namespace State

/-- Records of a session, in stamp order; those neither released nor rejected. -/
def session (s : State) (n : Nat) : List EgRecord := s.egress.filter (·.sess == n)
def unreleased (s : State) (n : Nat) : List EgRecord := (s.session n).filter (·.hold == .held)
/-- Free records in the queue of a session. -/
def queueFree (s : State) (n : Nat) : Nat := queueLimit - (s.egress.filter fun r => r.sess % 4 == n % 4).length

/-- EGSTAT's item, R334. -/
def egItem (s : State) (n i : Nat) : Word :=
  let open' := s.unreleased n
  if i = 0 then word open'.length
  else if i = 1 then (match open' with | r :: _ => word r.stamp | [] => word (2 ^ 64 - 1))
  else if i = 2 then word (SMap.getD s.posted n 0 - 1)
  else if i = 3 then word (s.queueFree n)
  else if i ≤ 9 then (match open' with | r :: _ => r.payload.extractLsb' (64 * (i - 4)) 64 | [] => 0)
  else 0

/-- What a waiting EGSTAT returns once its session holds an unreleased record. -/
def egReady (s : State) (_ : Nat) (k : Taken) : Option (Word × State) :=
  match k.word with
  | .egstat .. =>
    let n := k.a.toNat % 2 ^ 20
    if k.b.getLsbD 4 && s.unreleased n == [] then none else some (s.egItem n (k.b.toNat % 16), s)
  | _ => none

/-- Every waiting EGSTAT whose event has occurred completes. -/
def serveEgress (s : State) : State := s.tiles.foldl (fun s T => s.serveTickets T.1 egReady) s

/-- The stamp and the session of a post image, R333. -/
def imageStamp (image : Nat) : Nat := image % 2 ^ 64
def imageSession (image : Nat) : Nat := image / 2 ^ 64 % 2 ^ 20

/-- The session has room for a record, R333. -/
def egRoom (s : State) (n : Nat) : Bool := decide ((s.unreleased n).length < sessionLimit) && decide (0 < s.queueFree n)
/-- The stamp is not greater than the highest ever posted. -/
def egLate (s : State) (image : Nat) : Bool := decide (imageStamp image < SMap.getD s.posted (imageSession image) 0)

/-- The record enters the queue after the release of R288. -/
def egEnter (s : State) (agent image : Nat) : State :=
  let s := s.fence agent 4
  { s with
    egress := s.egress ++ [{ sess := imageSession image, stamp := imageStamp image, payload := BitVec.ofNat 384 (image / 2 ^ 128) }]
    posted := SMap.set s.posted (imageSession image) (imageStamp image + 1) }

/-- EGPOST, R333. -/
def egpost (s : State) (d a : SReg) (y : Sync) : State := s.gated 0x21 y <|
  let p := (s.reg a).toNat
  let image := s.here.dataRead p 64
  if p % 8 ≠ 0 then s.raise 0x03 (s.reg a)
  else if 0x8000 < p + 64 then s.raise 0x04 (s.reg a)
  else if s.egLate image then s.raise 0x19 (word (imageStamp image))
  else if s.egRoom (imageSession image) then
    ((s.egEnter s.curAgent image).retireNow 0x21 y fun k => k.setReg d 0).serveEgress
  else s.takeSynced 0x21 y (s.takenWord (.egpost d a y) d a 0 image) .ticket

/-- EGRESS_RECORD_ENTER: the record of a waiting EGPOST enters once there is room; its stamp is tested again. -/
def egressEnter (s : State) (t n : Nat) : State :=
  match s.takenBy t n with
  | some { word := .egpost .., record := image, .. } =>
    if s.egLate image then s.failWord t n 0x19 (word (imageStamp image))
    else if s.egRoom (imageSession image) then ((s.egEnter (taskAgent t n) image).endWord t n 0).serveEgress
    else s
  | _ => s

/-- EGREL, R334. -/
def egrel (s : State) (d a b : SReg) (y : Sync) : State := s.gated 0x21 y <|
  let n := (s.reg a).toNat % 2 ^ 20
  let hit (r : EgRecord) : Bool := r.sess == n && r.hold == .held && decide (r.stamp ≤ (s.reg b).toNat)
  let s' := { s with egress := s.egress.map fun r => if hit r then { r with hold := .released } else r }
  s'.retireNow 0x21 y fun k => k.setReg d (word (s.egress.filter hit).length)

/-- EGREJ, R334. -/
def egrej (s : State) (d a b : SReg) (y : Sync) : State := s.gated 0x21 y <|
  let n := (s.reg a).toNat % 2 ^ 20
  let hit (r : EgRecord) : Bool := r.sess == n && r.stamp == (s.reg b).toNat
  match s.egress.find? hit with
  | none => s.retireNow 0x21 y fun k => k.setReg d 0
  | some r =>
    if r.hold = .released then s.retireNow 0x21 y fun k => k.setReg d 2
    else
      let s := { s with egress := s.egress.map fun r => if hit r then { r with hold := .rejected } else r }
      s.retireNow 0x21 y fun k => k.setReg d 1

/-- EGSTAT, R334. -/
def egstat (s : State) (d a b : SReg) (y : Sync) : State :=
  s.gated 0x21 y (s.waitFor 0x21 y (s.takenWord (.egstat d a b y) d a b 0) egReady)

/-- A record as the host ring holds it, R331. -/
def egImage (r : EgRecord) (seq : Nat) : Nat :=
  let gone := r.hold == .rejected
  (if gone then 0 else r.payload.toNat * 2 ^ 128) + r.stamp * 2 ^ 64 + r.sess * 2 ^ 44 + (if gone then 2 ^ 42 else 0) + seq

/-- EGRESS_DELIVERY: the lowest record of a session, if it is ready, goes to the host ring of its die, R332. -/
def egressDeliver (s : State) (die n : Nat) : State :=
  let m := s.mgmtOf die
  match s.session n with
  | [] => s
  | r :: _ =>
    if n % 4 ≠ die ∨ r.hold = .held ∨ ringOn m.egring = false ∨ ringOpen m.egring = false then s
    else
      match s.ringWrite die m.egring 64 (egImage r m.egseq.toNat) with
      | none => s
      | some s =>
        ({ s with egress := s.egress.erase r } : State).modMgmt die fun m => { m with egring := ringNext m.egring, egseq := m.egseq + 1 }

end State

def execEgpost (d a : SReg) (y : Sync) (s : State) : Out := .next (s.egpost d a y)
def execEgrel (d a b : SReg) (y : Sync) (s : State) : Out := .next (s.egrel d a b y)
def execEgrej (d a b : SReg) (y : Sync) (s : State) : Out := .next (s.egrej d a b y)
def execEgstat (d a b : SReg) (y : Sync) (s : State) : Out := .next (s.egstat d a b y)
def execEgressRecordEnter (tile tid : Nat) (s : State) : Out := .next (s.egressEnter tile tid)
def execEgressDelivery (die sess : Nat) (s : State) : Out := .next (s.egressDeliver die sess)

end Sys2Proof.Machine
end

