-- ==== Sys2Proof/Machine/Reports.lean ====
section
/-! DEFINITION. The fault ring of a die (R369) and the message ring of the module (R404). -/

namespace Sys2Proof.Machine

/-- A report of the fault ring, R369; `src` is 0 for an element, 1 for a matrix node, 2 for a task. -/
structure Report where
  val   : Nat
  lid   : Nat := 0
  tidx  : Nat := 0
  elem  : Nat := 0
  slot  : Nat := 0
  ctx   : Nat
  src   : Nat
  task  : Nat := 0
  lvl   : Nat
  act   : Nat
  cause : Nat
  deriving DecidableEq, Repr

/-- Its 32 bytes. -/
def Report.image (r : Report) (seq : Nat) : Nat :=
  r.val % 2 ^ 64 * 2 ^ 192 + r.lid % 2 ^ 32 * 2 ^ 160 + r.tidx % 2 ^ 10 * 2 ^ 150 + r.elem % 2 ^ 6 * 2 ^ 144 + r.slot % 2 ^ 4 * 2 ^ 140
    + r.ctx % 4 * 2 ^ 138 + r.src % 4 * 2 ^ 136 + r.task % 32 * 2 ^ 131 + r.lvl % 4 * 2 ^ 129 + r.act % 8 * 2 ^ 126
    + r.cause % 64 * 2 ^ 120 + seq

/-- A ring register with one more report not written, DROP saturating. -/
def ringDrop (r : BitVec 128) : BitVec 128 := putBits r 56 8 (Min.min 255 ((r.extractLsb' 56 8).toNat + 1))

namespace State

/-- A record is written to a ring by `write`, or counted in DROP, the reports not written: with EN = 0, with a full ring, and where its page
cannot be reached. -/
def ringPost (s : State) (r : BitVec 128) (write : State → Option State) : BitVec 128 × State :=
  if ringOn r && ringOpen r then
    match write s with
    | some s => (ringNext r, s)
    | none => (ringDrop r, s)
  else (ringDrop r, s)

/-- A report goes to the fault ring of a die, R369. -/
def report (s : State) (die : Nat) (r : Report) : State :=
  let m := s.mgmtOf die
  let (ring, s) := s.ringPost m.fltring (·.recordWrite die m.fltring 32 (r.image m.fltseq.toNat))
  s.modMgmt die fun m => { m with fltring := ring, fltseq := m.fltseq + 1 }

/-- A message of `kind` from a die goes to the message ring, R404; its TAIL follows in memory, as an egress ring's does (DEDUCED: R404 says
that TAIL follows at system scope). -/
def message (s : State) (kind die val : Nat) : State :=
  let v := val % 2 ^ 64 + kind * 2 ^ 64 + die * 2 ^ 72 + s.module.msgseq.toNat * 2 ^ 96
  let (ring, s) := s.ringPost s.module.msgring (·.ringWrite 0 s.module.msgring 16 v)
  { s with module := { s.module with msgring := ring, msgseq := s.module.msgseq + 1 } }

/-- LID and TIDX of a context on a tile, as a report gives them. -/
def launchOf (s : State) (t c : Nat) : Nat × Nat := match s.launchAt t c with | some l => (l.info.id, tileIndex l t) | none => (0, 0)

end State

end Sys2Proof.Machine
end

