-- ==== Sys2Proof/Machine/Collectives.lean ====
section
/-! DEFINITION. Major 0x23: collectives, R391–R395. Ranks of other modules are seen only as what they contribute: values that
the spec leaves to those modules. -/

namespace Sys2Proof.Machine

/-! ## Commands, R391 -/

/-- The bytes of an element. -/
def collSize (op fmt : Nat) : Nat := if op = 4 then 8 else fmtBits fmt / 8

def collOf (r : Nat) (sup : Bool) (sync : Option (Nat × Nat)) : Coll :=
  { gid := bitsOf r 31 0, seq := bitsOf r 63 32, op := bitsOf r 71 64, red := bitsOf r 79 72, fmt := bitsOf r 87 80, root := bitsOf r 95 88,
    rank := bitsOf r 111 96, n := bitsOf r 127 112, count := bitsOf r 159 128, k := bitsOf r 191 160, src := bitsOf r 255 192,
    dst := bitsOf r 319 256, gtab := bitsOf r 383 320, sup := sup, sync := sync }

/-- The limits of a command of 64 bytes. -/
def collOk (r : Nat) : Bool :=
  let z := collOf r false none
  z.gid != 0 && z.op ≤ 4 && z.red ≤ 5 && (z.fmt == 0 || (12 ≤ z.fmt && z.fmt ≤ 15)) && (z.red < 3 || z.fmt != 0)
    && 1 ≤ z.n && z.n ≤ 1024 && z.rank < z.n && 1 ≤ z.count && z.count ≤ 2 ^ 28 && (z.op != 3 || z.root < z.n)
    && (z.op != 4 || (1 ≤ z.k && z.k ≤ 4096)) && z.src % collSize z.op z.fmt == 0 && z.dst % collSize z.op z.fmt == 0
    && bitsOf r 511 384 == 0

def Coll.size (z : Coll) : Nat := collSize z.op z.fmt
/-- The bytes that a rank reads and those that it writes, R392. -/
def Coll.srcBytes (z : Coll) : Nat := if z.op = 1 then z.n * z.count * z.size else z.count * z.size
def Coll.dstBytes (z : Coll) : Nat :=
  match z.op with | 2 => z.n * z.count * z.size | 4 => 8 * z.k | _ => z.count * z.size

/-- The status word, R394. -/
def EngStatus.collWord (x : EngStatus) : Word := flag 63 x.fin ||| flag 62 x.abrt ||| field 50 (x.cause % 64) ||| field 40 (x.who % 1024)

/-! ## Results, R392 and R393 -/

/-- One reduction of two patterns. -/
def reduceOne (red fmt a b : Nat) : Nat :=
  let lanes := fmtBits fmt
  if fmt = 0 then
    let x := decodeVal 0 a
    let y := decodeVal 0 b
    let v := match red with | 0 => Val.add x y | 1 => minVal x y | _ => maxVal x y
    match encodeVal 0 .rne v with | .ok p => p | .error _ => canonicalNan 0
  else
    match red with
    | 0 => (a + b) % 2 ^ lanes
    | 1 => if decodeInt fmt a ≤ decodeInt fmt b then a else b
    | 2 => if decodeInt fmt a ≤ decodeInt fmt b then b else a
    | 3 => a &&& b
    | 4 => a ||| b
    | _ => a ^^^ b

/-- One round of the pairwise tree: an odd last entry passes unchanged. -/
def pairUp (f : Nat → Nat → Nat) : List Nat → List Nat
  | a :: b :: r => f a b :: pairUp f r
  | l => l

/-- The fixed pairwise tree over ranks. -/
def treeOf (f : Nat → Nat → Nat) : Nat → List Nat → Nat
  | 0, l => l.headD 0
  | k + 1, l => treeOf f k (pairUp f l)

/-- Element `i` of a block of bytes. -/
def blockItem (size v i : Nat) : Nat := v / 256 ^ (size * i) % 256 ^ size

/-- Elements as bytes. -/
def itemsBytes (size : Nat) : List Nat → Nat
  | [] => 0
  | x :: r => x + 256 ^ size * itemsBytes size r

/-- Pair `p` comes before pair `q` of a top-k merge, R393: by value, numbers before NaN, then by index. -/
def pairBefore (p q : Nat) : Bool :=
  let a := decodeVal 0 (p % 2 ^ 32)
  let b := decodeVal 0 (q % 2 ^ 32)
  if a.isNan && b.isNan then p / 2 ^ 32 < q / 2 ^ 32
  else if a.isNan then false
  else if b.isNan then true
  else Val.lt b a || (Val.eq a b && p / 2 ^ 32 < q / 2 ^ 32)

/-- A pair put among sorted pairs, after those that it does not come before: rank and position decide the rest. -/
def putPair (p : Nat) : List Nat → List Nat
  | [] => [p]
  | q :: r => if pairBefore p q then p :: q :: r else q :: putPair p r

/-- The pairs as they are written. -/
def topPairs (k : Nat) (ps : List Nat) : List Nat :=
  let best := ((ps.foldl (fun l p => putPair p l) []).take k).map fun p =>
    if (decodeVal 0 (p % 2 ^ 32)).isNan then p / 2 ^ 32 * 2 ^ 32 + canonicalNan 0 else p
  best ++ List.replicate (k - best.length) 0xFFFFFFFF7FC00000

/-- What DST receives at a rank, from the blocks that the ranks supply in rank order. -/
def Coll.result (z : Coll) (vs : List Nat) : Nat :=
  let red (at_ : Nat → Nat) : Nat :=
    itemsBytes z.size ((List.range z.count).map fun i => treeOf (reduceOne z.red z.fmt) 11 (vs.map fun v => blockItem z.size v (at_ i)))
  match z.op with
  | 0 => red fun i => i
  | 1 => red fun i => z.rank * z.count + i
  | 2 => itemsBytes (z.count * z.size) vs
  | 3 => vs.getD z.root 0
  | _ => itemsBytes 8 (topPairs z.k ((vs.map fun v => (List.range z.count).map (blockItem 8 v)).flatten))

namespace State

/-! ## Memory -/

/-- `n` bytes read by an engine at a device address; bytes that it cannot trust are free values; none where it cannot reach them. -/
def engineRead (s : State) (die c : Nat) (sup : Bool) (va n : Nat) : Option Nat × State :=
  match s.probeAll die c { read := true, sup := sup, farOk := true } (pieces (n / 65536 + 2) va n) with
  | (.error _, s) => (none, s)
  | (.ok ps, s) =>
    let s := s.piecesHome engineAgent ps
    let (v, s) := s.scramble (s.readPieces ps) (s.badBytes ps 0)
    (some v, ps.foldl (fun s p => s.correct die p.1 p.2.1 p.2.2) s)

/-- The place of `n` bytes that an engine writes. -/
def enginePlace (s : State) (die c : Nat) (sup : Bool) (va n : Nat) : Option (List (Space × Nat × Nat)) × State :=
  match s.probeAll die c { write := true, sup := sup, farOk := true } (pieces (n / 65536 + 2) va n) with
  | (.error _, s) => (none, s)
  | (.ok ps, s) => (some ps, s)

/-! ## Ranks -/

def modColl (s : State) (t c n : Nat) (f : Coll → Coll) : State :=
  s.modTile t fun T => T.modCtx c fun x =>
    match SMap.get? x.colls n with
    | some z => { x with colls := SMap.set x.colls n (f z) }
    | none => x

/-- The tickets of a key on this module: tile, context, ticket and command. -/
def ranksOf (s : State) (gid seq : Nat) : List (Nat × Nat × Nat × Coll) :=
  s.tiles.flatMap fun T => (List.range 4).flatMap fun c => ((T.2.ctx c).colls.filter fun z => z.2.gid == gid && z.2.seq == seq).map fun z =>
    (T.1, c, z.1, z.2)

/-- Module, die and context of a group table's entry. -/
def gtabModule (e : Nat) : Nat := e % 256
def gtabDie (e : Nat) : Nat := e / 256 % 4
def gtabCtx (e : Nat) : Nat := e / 1024 % 4

/-- The group table of a command. -/
def groupTable (s : State) (t c : Nat) (z : Coll) : Option (List Nat) × State :=
  match s.engineRead (tileDie t) c z.sup z.gtab (8 * z.n) with
  | (some v, s) => (some ((List.range z.n).map (blockItem 8 v)), s)
  | (none, s) => (none, { s with absent := none })

/-- The token of a completed command is due, R316. -/
def collToken (s : State) (t c : Nat) (z : Coll) : State :=
  match z.sync with | some (f, q) => s.tokenDue t c 0x23 f q | none => s

/-! ## Aborts, R395 -/

/-- Every sector that some bytes touch receives a poison mark. -/
def markAll (s : State) (ps : List (Space × Nat × Nat)) : State :=
  ps.foldl (fun s p => s.modStore p.1 fun x => { x with poison := (unitsOf 32 p.2.1 p.2.2).foldl NSet.insert x.poison }) s

/-- A die's engine keeps an aborted key. -/
def keepAborted (s : State) (die gid seq rank cause : Nat) : State :=
  s.modMgmt die fun m => { m with aborted := ((gid, seq, rank, cause) :: m.aborted.filter fun a => !(a.1 == gid && a.2.1 == seq)).take 16 }

/-- A rank that is not DONE completes aborted; its die reports it. -/
def abortRank (s : State) (t c n : Nat) (z : Coll) (rank cause : Nat) : State :=
  if z.st.fin then s
  else
    let s := match s.enginePlace (tileDie t) c z.sup z.dst z.dstBytes with
      | (some ps, s) => s.markAll ps
      | (none, s) => { s with absent := none }
    let s := s.modColl t c n fun z => { z with st := { z.st with fin := true, abrt := true, cause := cause, who := rank } }
    let (v, s) := s.free
    let p := s.launchOf t c
    let r : Report :=
      { val := z.gid * 2 ^ 32 + z.seq, lid := p.1, tidx := p.2, ctx := c, src := 2, task := v.toNat % 32, lvl := v.toNat / 32 % 4,
        act := 3, cause := cause }
    (s.report (tileDie t) r).collToken t c z

/-- An abort reaches the ranks of this module and the engines of `dies`. -/
def abortKey (s : State) (dies : List Nat) (gid seq rank cause : Nat) : State :=
  let s := dies.foldl (fun s d => s.keepAborted d gid seq rank cause) s
  (s.ranksOf gid seq).foldl (fun s r => s.abortRank r.1 r.2.1 r.2.2.1 r.2.2.2 rank cause) s

/-- The aborting rank's engine sends the abort to every rank of its group table. -/
def abortFrom (s : State) (t c : Nat) (z : Coll) (cause : Nat) : State :=
  let (table, s) := s.groupTable t c z
  let dies := match table with
    | some es => (es.filter fun e => gtabModule e == Config.thisModule).map gtabDie
    | none => []
  s.abortKey (tileDie t :: dies).eraseDups z.gid z.seq z.rank cause

/-- Every collective of a context on a tile that is not DONE aborts: the context is killed. -/
def abortAll (s : State) (t c : Nat) : State :=
  (((s.tile t).ctx c).colls.filter fun z => !z.2.st.fin).foldl (fun s z => s.abortFrom t c z.2 0x1A) s

/-! ## The words -/

/-- COLL, R391. A key that has been aborted completes at once, R395. -/
def coll (s : State) (d a : SReg) (y : Sync) : State := s.gated 0x23 y <|
  let p := (s.reg a).toNat
  let r := s.here.dataRead p 64
  let t := s.focus.tile
  let c := s.cur.ctx.toNat
  if p % 8 ≠ 0 then s.raise 0x03 (s.reg a)
  else if 0x8000 < p + 64 then s.raise 0x04 (s.reg a)
  else if !collOk r then s.retireNow 0x23 y fun k => k.setReg d (word (2 ^ 64 - 2))
  else
    match (List.range 16).find? fun n => (SMap.get? s.curCtx.colls n).isNone with
    | none => s.retireNow 0x23 y fun k => k.setReg d (word (2 ^ 64 - 1))
    | some n =>
      let sup := s.cur.sup
      let (q, s) := (s.fence s.curAgent 4).retirePosted 0x23 y fun k => k.setReg d (word n)
      let z := collOf r sup (q.map fun q => (y.fifo.toNat, q))
      let s := s.modHere fun T => T.modCtx c fun x => { x with colls := SMap.set x.colls n z }
      match (s.mgmtOf s.curDie).aborted.find? fun e => e.1 == z.gid && e.2.1 == z.seq with
      | some e => s.abortRank t c n z e.2.2.1 e.2.2.2
      | none => s

/-- COLST, R394. -/
def colst (s : State) (d a b : SReg) (y : Sync) : State := s.gated 0x23 y <|
  let c := s.cur.ctx.toNat
  let n := (s.reg a).toNat % 16
  match SMap.get? s.curCtx.colls n with
  | none => s.retireNow 0x23 y fun k => k.setReg d 0
  | some z =>
    let s' := if z.st.fin && (s.reg b).getLsbD 0 then s.modHere fun T => T.modCtx c fun x => { x with colls := SMap.erase x.colls n } else s
    s'.retireNow 0x23 y fun k => k.setReg d z.st.collWord

/-- COLAB, R394. -/
def colab (s : State) (d a b : SReg) (y : Sync) : State := s.gated 0x23 y <|
  let c := s.cur.ctx.toNat
  let gid := (s.reg a).toNat % 2 ^ 32
  let seq := (s.reg b).toNat % 2 ^ 32
  match (s.ranksOf gid seq).find? fun r => tileDie r.1 == s.curDie && r.2.1 == c with
  | none =>
    -- the rank that this context would have is not known here
    let (v, s) := s.free
    (s.keepAborted s.curDie gid seq (v.toNat % 1024) 0x1A).retireNow 0x23 y fun k => k.setReg d 1
  | some r => (if r.2.2.2.st.fin then s else s.abortFrom r.1 c r.2.2.2 0x1A).retireNow 0x23 y fun k => k.setReg d 0

/-! ## Events -/

/-- What rank `r` of a group supplies; a rank of another module supplies free values; none while a rank has not issued its COLL or
its data cannot be read. -/
def supply (s : State) (z : Coll) (r e : Nat) : Option Nat × State :=
  if gtabModule e ≠ Config.thisModule then
    let (v, s) := s.scramble 0 (List.range z.srcBytes)
    (some v, s)
  else
    match (s.ranksOf z.gid z.seq).find? fun x => tileDie x.1 == gtabDie e && x.2.1 == gtabCtx e && x.2.2.2.rank == r with
    | none => (none, s)
    | some x =>
      -- a broadcast uses SRC at ROOT alone, R392
      if z.op = 3 ∧ r ≠ z.root then (some 0, s) else s.engineRead (tileDie x.1) x.2.1 x.2.2.2.sup x.2.2.2.src x.2.2.2.srcBytes

def supplies (s : State) (z : Coll) (r : Nat) : List Nat → Option (List Nat) × State
  | [] => (some [], s)
  | e :: es =>
    match s.supply z r e with
    | (none, s) => (none, s)
    | (some v, s) =>
      match s.supplies z (r + 1) es with
      | (none, s) => (none, s)
      | (some vs, s) => (some (v :: vs), s)

/-- Every rank's data has been read: the results of the ranks of this module are known. -/
def collGather (s : State) (t c : Nat) (z : Coll) : State :=
  match s.groupTable t c z with
  | (none, s) => s
  | (some es, s) =>
    if es.any fun e => gtabModule e != Config.thisModule && !s.reachable (.peer (gtabModule e)) then s.abortFrom t c z 0x1D
    else
      match s.supplies z 0 es with
      | (none, s) => { s with absent := none }
      | (some vs, s) =>
        (s.ranksOf z.gid z.seq).foldl (fun s x =>
          s.modColl x.1 x.2.1 x.2.2.1 fun z => if z.st.fin ∨ z.out.isSome then z else { z with out := some (z.result vs) }) s

/-- COLLECTIVE_COMPLETE: the rank's DST is written at system scope and its token is due, R392. -/
def collComplete (s : State) (t c n : Nat) : State :=
  match SMap.get? ((s.tile t).ctx c).colls n with
  | none => s
  | some z =>
    if z.st.fin then s
    else
      let s := if z.out.isSome then s else s.collGather t c z
      match SMap.get? ((s.tile t).ctx c).colls n with
      | none => s
      | some z =>
        match z.out with
        | none => s
        | some v =>
          if z.st.fin then s
          else
            match s.enginePlace (tileDie t) c z.sup z.dst z.dstBytes with
            | (none, s) => { s with absent := none }
            | (some ps, s) =>
              (((s.piecesHome engineAgent ps).writePieces c v ps).modColl t c n fun z => { z with st := { z.st with fin := true } }).collToken t c z

end State

def execColl (d a : SReg) (y : Sync) (s : State) : Out := .next (s.coll d a y)
def execColst (d a b : SReg) (y : Sync) (s : State) : Out := .next (s.colst d a b y)
def execColab (d a b : SReg) (y : Sync) (s : State) : Out := .next (s.colab d a b y)
def execCollectiveComplete (tile ctx ticket : Nat) (s : State) : Out := settle (s.collComplete tile ctx ticket)
/-- COLLECTIVE_ABORT: an abort message from another module reaches the engines of this one. -/
def execCollectiveAbort (gkey seq rank cause : Nat) (s : State) : Out := settle (s.abortKey [0, 1, 2, 3] gkey seq rank cause)

end Sys2Proof.Machine
end

