-- ==== Sys2Proof/Machine/FabricWords.lean ====
section
/-! DEFINITION. Major 0x1D: loading slots, switches and images, placing sheets and sizing edges (R179–R184), with the checks
of R50 and the edges of R108. -/

namespace Sys2Proof.Machine

/-! ## Checks, R50 -/

/-- The reason of R50 for an operation word in slot `n`. DESIGN CHOICE: of several checks that fail the one with the lowest reason is
reported; R50 gives no order. -/
def slotReason (w : Word32) (n : Nat) : Option Nat :=
  let op := opNum w
  let latch : BitVec 4 := BitVec.ofNat 4 (4 + n % 4)
  if 120 ≤ op then some 0x01
  else
    match (opFields w).checkOp op with
    | some .subUndefined | some .sbNotZero => some 0x02
    | some .pmReserved => some 0x03
    | e =>
      if (op = 3 ∨ op = 19) ∧ ((opFields w).sa = latch ∨ (opFields w).sb = latch) then some 0x08
      else if e = some .comparePm then some 0x09
      else if (op = 60 ∧ n % 2 = 1) ∨ (op = 61 ∧ n % 2 = 0) then some 0x0A
      else none

/-- The reason of R50 for an enabled switch word beside the other words of its switch. -/
def switchReason (w : BitVec 16) (others : List (BitVec 16)) : Option Nat :=
  let same := others.filter fun v => swEn v && swCol v == swCol w && swCtx v == swCtx w
  if !swEn w then none
  else if swFrom w < 4 ∧ (swTo w).getLsbD (3 - swFrom w) = true then some 0x04
  else if swTo w = 0 then some 0x05
  else if same.any fun v => swFrom v == swFrom w then some 0x06
  else if same.any fun v => swTo v &&& swTo w != 0 then some 0x07
  else none

/-- The TVAL of cause 0x1E, R50. -/
def configTval (e reason entry : Nat) (w : Nat) : Word := word (e % 256 * 2 ^ 48 + reason * 2 ^ 40 + entry % 256 * 2 ^ 32 + w % 2 ^ 32)

/-! ## Edges, R108 -/

/-- The edges that the enabled words of a switch make, by their keys. -/
def edgesMade (sw : SMap (BitVec 16)) : NSet :=
  sw.foldl (fun m x =>
    if swEn x.2 then (maskPorts (swTo x.2)).foldl (fun m p => NSet.insert m (State.edgeKey (swCtx x.2) (swCol x.2) p)) m else m) []

/-- The depths of the edges of an element that `ks` names. -/
def Elem.depths (e : Elem) (ks : NSet) : Nat := ks.foldl (fun n k => n + (SMap.getD e.edges k {}).depth) 0

namespace State

/-- Entries of the pool of a tile that its edges hold. -/
def poolUsed (s : State) (t : Nat) : Nat :=
  (List.range 64).foldl (fun n e => n + (s.elem (64 * t + e)).depths (edgesMade (s.elem (64 * t + e)).switch)) 0

/-! ## Loading one record, R50, R179, R180, R182 -/

/-- A slot record, R150: written, or the reason of its refusal. -/
def loadSlot (s : State) (g c n : Nat) (r : BitVec 64) : Option Nat × State :=
  match slotReason (r.extractLsb' 0 32) n with
  | some e => (some e, s)
  | none =>
    let v : Slot := ⟨r.extractLsb' 0 32, r.extractLsb' 32 5, r.extractLsb' 37 5, r.getLsbD 42⟩
    (none, s.modEctx g c fun x => x.setSlot n v)

/-- A switch word: written, or the reason of its refusal; edges that it makes take `depth`, those that go give theirs back. -/
def loadSwitch (s : State) (g entry : Nat) (w : BitVec 16) (depth : Nat) : Option Nat × State :=
  let e := s.elem g
  match switchReason w ((e.switch.filter fun x => x.1 != entry).map (·.2)) with
  | some r => (some r, s)
  | none =>
    let old := edgesMade e.switch
    let sw := SMap.set e.switch entry w
    let all := edgesMade sw
    let new := all.filter fun k => !old.contains k
    let gone := old.filter fun k => !all.contains k
    if 2048 < s.poolUsed (gidTile g) - e.depths gone + new.length * depth then (some 0x0C, s)
    else
      let size (m : SMap Lane) (d k : Nat) : SMap Lane := SMap.set m k { SMap.getD m k {} with depth := d }
      let edges := new.foldl (fun m k => size m depth k) (gone.foldl (fun m k => size m 4 k) e.edges)
      (none, s.modElem g fun e => { e with switch := sw, edges := edges })

/-- A legend entry of an image, with G and GW as 0, R102 and R208. -/
def loadLegend (s : State) (g c col : Nat) (r : BitVec 64) : Option Nat × State :=
  if r.extractLsb' 38 2 = 3#2 then (some 0x0B, s)
  else
    let l : Legend := { scl := r.extractLsb' 48 16, sfmt := r.extractLsb' 38 2, qw := r.extractLsb' 8 5, fmt := r.extractLsb' 0 4 }
    (none, s.modEctx g c fun x => x.setEntry col l)

def loadConst (s : State) (g c n : Nat) (v : BitVec 64) : State :=
  s.modEctx g c fun x => if h : n < 4 then { x with consts := x.consts.set n v } else x

/-! ## OPLD and SWLD -/

/-- `k` records one after the other from record number `n`, with how many have been written before: the number written, or
the refused record with its reason. -/
def loadFrom (s : State) (load : State → Nat → Option Nat × State) (n : Nat) : Nat → Option (Nat × Nat) × State
  | 0 => (none, s)
  | k + 1 =>
    match load s n with
    | (some r, s) => (some (n, r), s)
    | (none, s) => s.loadFrom load (n + 1) k

/-- OPLD, R179. -/
def opld (s : State) (d a b : SReg) : State :=
  let at0 := (s.reg a).toNat
  let v := s.reg b
  let e := (v.extractLsb' 0 6).toNat
  let c := (v.extractLsb' 6 2).toNat
  let n := (v.extractLsb' 8 4).toNat
  let k := Min.min 15 (n + (v.extractLsb' 12 4).toNat) - n + 1
  let rec8 (n' : Nat) : BitVec 64 := word (s.here.dataRead (at0 + 8 * (n' - n)) 8)
  if at0 % 8 ≠ 0 then s.raise 0x03 (s.reg a)
  else if 0x8000 < at0 + 8 * k then s.raise 0x04 (s.reg a)
  else s.supOnly <|
    let g := 64 * s.focus.tile + e
    match s.loadFrom (fun s n' => s.loadSlot g c n' (rec8 n')) n k with
    | (none, s) => s.writeReg d (word k)
    | (some (n', r), s) => s.raise 0x1E (configTval e r (16 * c + n') ((rec8 n').extractLsb' 0 32).toNat)

/-- SWLD, R180. -/
def swld (s : State) (d a b : SReg) : State :=
  let at0 := (s.reg a).toNat
  let v := s.reg b
  let e := (v.extractLsb' 0 6).toNat
  let n := (v.extractLsb' 6 6).toNat
  let k := Min.min 63 (n + (v.extractLsb' 12 6).toNat) - n + 1
  let rec2 (n' : Nat) : BitVec 16 := BitVec.ofNat 16 (s.here.dataRead (at0 + 2 * (n' - n)) 2)
  if at0 % 2 ≠ 0 then s.raise 0x03 (s.reg a)
  else if 0x8000 < at0 + 2 * k then s.raise 0x04 (s.reg a)
  else s.supOnly <|
    let g := 64 * s.focus.tile + e
    match s.loadFrom (fun s n' => s.loadSwitch g n' (rec2 n') 4) n k with
    | (none, s) => s.writeReg d (word k)
    | (some (n', r), s) => s.raise 0x1E (configTval e r n' (rec2 n').toNat)

/-! ## Sheets, R181 -/

/-- SHPLACE, R181. -/
def shplace (s : State) (d a b : SReg) : State := s.supOnly <|
  let k := 4 * ((s.reg a).toNat % 4) + (s.reg b).toNat % 4
  if s.here.inForce.contains k then s.writeReg d 1
  else (s.modHere fun T => { T with inForce := NSet.insert T.inForce k }).writeReg d 0

/-- An element holds no token, request, running loop or admitted block of a context, R126 and R181. -/
def elemIdle (s : State) (g c : Nat) : Bool :=
  let x := s.ectx g c
  let e := s.elem g
  x.operands == [] && x.latches == [] && x.groups == [] && (x.loops.all fun l => !l.running)
    && (e.reqs.all fun q => q.ctx != c || q.skip)
    && (e.edges.all fun l => l.1 / 128 != c || l.2.beats == [])
    && (e.ports.all fun l => l.1 % 128 / 32 != c || l.2.beats == [])
    && (s.insts.all fun i => i.block.ctx != c || i.block.nodes.all fun n => n.1 != g)

/-- SHFREE, R181: the word waits while the sheet holds anything of the context. -/
def shfree (s : State) (d a b : SReg) : State := s.supOnly <|
  let sh := (s.reg a).toNat % 4
  let c := (s.reg b).toNat % 4
  if (s.here.ctx c).launch.isSome then s.writeReg d 2
  else if (List.range 64).all fun e => elemSheet e != sh || s.elemIdle (64 * s.focus.tile + e) c then
    (s.modHere fun T => { T with inForce := NSet.erase T.inForce (4 * sh + c) }).writeReg d 0
  else s.stall

/-! ## Images, R182 and R208 -/

/-- What stops an image: a cause with its value. -/
abbrev Stop := Nat × Word

/-- Where byte `j` of an access in pieces lies. -/
def pieceByte : List (Space × Nat × Nat) → Nat → Option (Space × Nat)
  | [], _ => none
  | (sp, a, n) :: r, j => if j < n then some (sp, a + j) else pieceByte r (j - n)

/-- `n` bytes of an image at a device address of context `tc`, translated and tested as R66 does in supervisor state; the stores that the
task in focus has made to them come first (R277). -/
def imageRead (s : State) (t tc va n : Nat) : Except Stop Nat × State :=
  match s.probeAll (tileDie t) tc { read := true, sup := true } (pieces 2 va n) with
  | (.error e, s) => (.error (e.1, word e.2), s)
  | (.ok ps, s) =>
    let s := s.piecesHome s.curAgent ps
    -- the failing address is that of the first byte that cannot be read
    match ((List.range n).findSome? fun j => ((pieceByte ps j).bind fun p => (s.store p.1).readCause p.2 1).map fun c => (c, j)) with
    | some (cause, j) => (.error (cause, word (va + j)), s)
    | none => (.ok (s.readPieces ps), ps.foldl (fun s p => s.correct (tileDie t) p.1 p.2.1 p.2.2) s)

/-- A record of an element block: slot n, legend entry n, constant n, a switch record. -/
inductive ImageRec where
  | slot (n : Nat)
  | legend (col : Nat)
  | const (n : Nat)
  | switch
  deriving DecidableEq, Repr

/-- The records that follow the header `h` of an element block, in their order. -/
def imageRecs (h : Nat) : List ImageRec :=
  ((List.range 16).filter fun n => (h >>> 16).testBit n).map .slot
    ++ ((List.range 32).filter fun n => (h >>> 32).testBit n).map .legend
    ++ ((List.range 4).filter fun n => (h >>> 64).testBit n).map .const
    ++ List.replicate (bitsOf h 79 72) .switch

/-- One record at its place loaded into context `c` of element `g`. A switch record of depth 0, which R208 does not bound, makes a buffer of one
beat (DESIGN CHOICE). -/
def loadRec (s : State) (g c : Nat) (r : ImageRec) (v : BitVec 64) : Option Stop × State :=
  let stop (reason entry w : Nat) : Option Stop := some (0x1E, configTval (gidElem g) reason entry w)
  match r with
  | .slot n =>
    match s.loadSlot g c n v with
    | (some e, s) => (stop e (16 * c + n) (v.extractLsb' 0 32).toNat, s)
    | (none, s) => (none, s)
  | .legend col =>
    match s.loadLegend g c col v with
    | (some e, s) => (stop e col (v.extractLsb' 32 32).toNat, s)
    | (none, s) => (none, s)
  | .const n => (none, s.loadConst g c n v)
  | .switch =>
    let w : BitVec 16 := v.extractLsb' 19 13 ++ BitVec.ofNat 2 c ++ v.extractLsb' 16 1
    match s.loadSwitch g (v.extractLsb' 0 6).toNat w (Max.max 1 (v.extractLsb' 32 16).toNat) with
    | (some e, s) => (stop e (v.extractLsb' 0 6).toNat w.toNat, s)
    | (none, s) => (none, s)

/-- The records of an element block from address `va` on: how many were loaded, and what stopped them. -/
def loadRecs (s : State) (t g c tc va : Nat) : List ImageRec → Nat → Nat × Option Stop × State
  | [], n => (n, none, s)
  | r :: rs, n =>
    match s.imageRead t tc va 8 with
    | (.error e, s) => (n, some e, s)
    | (.ok v, s) =>
      match s.loadRec g c r (word v) with
      | (some e, s) => (n, some e, s)
      | (none, s) => s.loadRecs t g c tc (va + 8) rs (n + 1)

/-- The widths of the legend entries that a block has loaded are granted in ascending colour, R103 and R208. -/
def grantLoaded (s : State) (g c : Nat) (rs : List ImageRec) : State :=
  s.modEctx g c fun x => rs.foldl (fun x r => match r with | .legend col => x.grant col ((x.entry col).qw.toNat + 1) | _ => x) x

/-- The element blocks of a tile block from `va` on. -/
def loadElems (s : State) (t c tc va : Nat) : Nat → Nat → Nat × Option Stop × State
  | 0, n => (n, none, s)
  | k + 1, n =>
    match s.imageRead t tc va 16 with
    | (.error e, s) => (n, some e, s)
    | (.ok h, s) =>
      let g := 64 * t + h % 64
      let rs := imageRecs h
      match (s.modEctx g c fun x => { x with allot := bitsOf h 15 8 }).loadRecs t g c tc (va + 16) rs n with
      | (m, some e, s) => (m, some e, s.grantLoaded g c (rs.take (m - n)))
      | (m, none, s) => (s.grantLoaded g c rs).loadElems t c tc (va + 16 + 8 * rs.length) k m

/-- The tile blocks of an image from `va` on: those of body position (`tx`, `ty`) are loaded. -/
def loadTiles (s : State) (t c tc tx ty va : Nat) : Nat → Nat → Nat × Option Stop × State
  | 0, n => (n, none, s)
  | k + 1, n =>
    match s.imageRead t tc va 8 with
    | (.error e, s) => (n, some e, s)
    | (.ok h, s) =>
      let (m, e, s) := if h % 256 = tx ∧ bitsOf h 15 8 = ty then s.loadElems t c tc (va + 8) (bitsOf h 23 16) n else (n, none, s)
      match e with
      | some e => (m, some e, s)
      | none => s.loadTiles t c tc tx ty (va + bitsOf h 63 32) k m

/-- The image at address `va` of context `tc` loaded into context `c` of tile `t`: the number of words loaded, and what stopped it. -/
def loadImage (s : State) (t c tc va : Nat) : Nat × Option Stop × State :=
  match s.imageRead t tc va 16 with
  | (.error e, s) => (0, some e, s)
  | (.ok h, s) =>
    let (tx, ty) := match (s.tile t).ctx c with
      | { launch := some p, .. } => (tileX t - p.ox.toNat, tileY t - p.oy.toNat)
      | _ => (0, 0)
    s.loadTiles t c tc tx ty (va + 16) (bitsOf h 63 48) 0

/-- CFGLOAD, R182: the device address is translated in the context of the running task. -/
def cfgload (s : State) (d a b : SReg) : State :=
  let va := (s.reg a).toNat
  let c := (s.reg b).toNat % 4
  match (s.translate s.curDie s.cur.ctx.toNat va).1 with
  | none => s.raise 0x05 (s.reg a)
  | some _ => s.supOnly <|
    match s.loadImage s.focus.tile c s.cur.ctx.toNat va with
    | (_, some (cause, v), s) => s.raise cause v
    | (n, none, s) => s.retireIn 240 fun k => k.setReg d (word n)

/-! ## CTXPRI and EDGEDEPTH, R183 and R184 -/

/-- CTXPRI, R183. -/
def ctxpri (s : State) (a b : SReg) : State := s.supOnly <|
  let c := (s.reg a).toNat % 4
  let p : BitVec 3 := (s.reg b).setWidth 3
  (s.retire id).modHere fun T => T.modCtx c fun x => { x with prio := p }

/-- The edge that operand `a` of EDGEDEPTH names: element, context, colour and port. -/
def edgeNamed (s : State) (a : BitVec 64) : Nat × Nat × Nat × Nat :=
  (64 * s.focus.tile + (a.extractLsb' 0 6).toNat, (a.extractLsb' 6 2).toNat, (a.extractLsb' 8 5).toNat, (a.extractLsb' 13 2).toNat)

/-- The new depth of an edge: what EDGEDEPTH answers. -/
def sizeEdge (s : State) (t : Nat) (e : Nat × Nat × Nat × Nat) (n : Nat) : Word × State :=
  let (g, c, col, p) := e
  if 2048 < s.poolUsed t - (s.edge g c col p).depth + n then (1, s) else (0, s.modEdge g c col p fun l => { l with depth := n })

/-- EDGEDEPTH, R184: while the edge holds a beat the task is held in RUN, and EDGE_DEPTH_CHANGE ends the word. -/
def edgedepth (s : State) (d a b : SReg) : State := s.supOnly <|
  let e := s.edgeNamed (s.reg a)
  let (g, c, col, p) := e
  let n := (s.reg b).toNat % 4096
  if n = 0 ∨ 2048 < n then s.writeReg d 3
  else if !(edgesMade (s.elem g).switch).contains (edgeKey c col p) then s.writeReg d 2
  else if (s.edge g c col p).beats ≠ [] then
    s.modCur fun k => { k with taken := some { word := .edgedepth d a b, dest := d, a := k.reg a, b := k.reg b } }
  else
    let (v, s) := s.sizeEdge s.focus.tile e n
    s.writeReg d v

/-- EDGE_DEPTH_CHANGE: the edge that a held EDGEDEPTH of the tile names is empty. -/
def edgeChange (s : State) (t : Nat) : State :=
  match (s.tile t).running with
  | none => s
  | some n =>
    match ((s.tile t).task n).taken with
    | some { word := .edgedepth d _ _, a, b, .. } =>
      let f := s.focus
      let s := { s with focus := { f with tile := t, task := n } }
      let e := s.edgeNamed a
      let (g, c, col, p) := e
      if (s.edge g c col p).beats ≠ [] then { s with focus := f }
      else
        let (v, s) := s.sizeEdge t e (b.toNat % 4096)
        { (s.modCur fun k => { k with taken := none }).writeReg d v with focus := f }
    | _ => s

end State

def execOpld (d a b : SReg) (s : State) : Out := .next (s.opld d a b)
def execSwld (d a b : SReg) (s : State) : Out := .next (s.swld d a b)
def execShplace (d a b : SReg) (s : State) : Out := .next (s.shplace d a b)
def execShfree (d a b : SReg) (s : State) : Out := .next (s.shfree d a b)
def execCfgload (d a b : SReg) (s : State) : Out := settle (s.cfgload d a b)
def execCtxpri (a b : SReg) (s : State) : Out := .next (s.ctxpri a b)
def execEdgedepth (d a b : SReg) (s : State) : Out := .next (s.edgedepth d a b)
def execEdgeDepthChange (tile : Nat) (s : State) : Out := .next (s.edgeChange tile)

end Sys2Proof.Machine
end

