-- ==== Sys2Proof/Machine/Completion.lean ====
section
/-! DEFINITION. The end of a launch on a tile and as a whole (R126, R284), and what becomes eligible by it (R121). -/

namespace Sys2Proof.Machine

namespace State

/-- The owner buffers of a tile's elements are written back, R263. -/
def returnLines (s : State) (t : Nat) : State :=
  s.elems.foldl (fun s e => if gidTile e.1 = t then (s.elem e.1).owner.foldl (fun s o => s.recallLine o.line) s else s) s

/-- A tile is free for the context of its launch; its configuration is out of force and its stream numbers are free, R321. DESIGN CHOICE:
an out-stream that is still open then ends as a cancelled one does; the spec does not say how it ends. -/
def leaveTile (s : State) (t c : Nat) : State :=
  ((s.returnLines t).cancelStreams t c).modTile t fun T =>
    let T := T.modCtx c fun x =>
      { x with launch := none, trig := false, compl := false, arrivals := [], rounds := [], streams := [], phase := 0 }
    { T with inForce := T.inForce.filter fun k => k % 4 != c, chains := T.chains.filter fun k => k.ctx != c }

/-- A launch completes: its tiles are free, and its dependants may become eligible. -/
def completeLaunch (s : State) (n : Nat) : State :=
  match s.launch n with
  | none => s
  | some l =>
    let ts := rectangle l.ox l.oy l.info.w l.info.h
    let s := (ts.filter fun t => s.lidOf t l.info.ctx == some n).foldl (fun s t => s.leaveTile t l.info.ctx) s
    (s.modLaunch n fun l => { l with phase := .done, trig := true }).makeEligible

/-- A tile has completed, or has been killed, for the launch that it holds in a context, R126 and R365: barriers no longer wait
for it. -/
def endTile (s : State) (t c : Nat) : State :=
  match s.lidOf t c with
  | none => s
  | some n =>
    let s := s.modTile t fun T => T.modCtx c fun x => { x with compl := true, trig := true }
    let s := (s.modLaunch n fun l => { l with ended := NSet.insert l.ended t }).checkTrigger n
    let s := ((s.groupAt t c 0 0 true).flatMap fun u => ((s.tile u).ctx c).arrivals).foldl (fun s a => s.releaseBarrier t c a.bar a.lw a.lh a.whole) s
    match s.launch n with
    | none => s
    | some l =>
      if (rectangle l.ox l.oy l.info.w l.info.h).all l.ended.contains then s.completeLaunch n
      else s.makeEligible

/-- The work of a context on a tile is over, R126: no task, no token, no admitted block, nothing with the node, no fault, and no
copy or in-stream under way. -/
def tileQuiet (s : State) (t c : Nat) : Bool :=
  let T := s.tile t
  let n := s.node t
  let x := T.ctx c
  (List.range 32).all (fun k => (T.task k).state == .free || (T.task k).ctx.toNat != c)
    && (List.range 64).all (fun e => s.elemIdle (64 * t + e) c && (match (s.elem (64 * t + e)).fault with | some f => f.ctx != c | none => true)
        && (s.elem (64 * t + e)).faults.all (·.ctx != c))
    && n.queue.all (fun e => e.tag.ctx.toNat != c) && n.fifos.all (fun f => f.2.all fun x => x.token.tag.ctx.toNat != c)
    && (match n.fault with | some f => f.ctx != c | none => true)
    && T.down.all (fun l => l.1 / 32 != c || l.2.beats == [])
    && x.copies.all (fun z => z.2.st.fin) && x.streams.all (fun z => z.2.st.fin || z.2.out)
    && s.searches.all (fun y => y.tile != t || y.ctx != c)

/-- The accesses of a tile's agents are performed at device scope, and its owner buffers written back, R284. -/
def settleTile (s : State) (t : Nat) : State :=
  let mine (a : Nat) : Bool := if a < 2 ^ 20 then a / 32 == t else gidTile (a - 2 ^ 20) == t && a < engineAgent
  (s.landWhere fun f => mine f.agent).returnLines t

/-- TILE_COMPLETION, R126: every store of the launch on the tile is performed, and the tile completes for it. -/
def tileComplete (s : State) (t c : Nat) : State :=
  match s.launchAt t c with
  | none => s
  | some l => if l.ended.contains t || l.saving || !s.tileQuiet t c then s else (s.settleTile t).endTile t c

end State

def execTileCompletion (tile ctx : Nat) (s : State) : Out := .next (s.tileComplete tile ctx)

end Sys2Proof.Machine
end

