-- ==== Sys2Proof/Machine/System.lean ====
section
/-! DEFINITION. Major 0x3F but for the CSR words and CTXSAVE and CTXREST: traps, fences, HALT, IDLE and TLBINV (R21, R77, R78,
R283, R284). -/

namespace Sys2Proof.Machine

namespace State

/-- TRET, R77. The TRET of a handler ends its delivery, R366. -/
def tret (s : State) : State := s.supOnly <|
  let t := s.focus.tile
  let c := s.cur.ctx.toNat
  let closing (x : Search) : Search := if x.tile = t ∧ x.ctx = c ∧ x.phase = .handled then { x with phase := .returned } else x
  let s := if s.cur.handling then { s with searches := s.searches.map closing } else s
  s.finish 1 fun k => { k.trapReturn with handling := false }

/-- HALT, R77: the word retires and the Surveyor issues no more. -/
def halt (s : State) : State := s.supOnly <| (s.retire id).modHere fun T => { T with halted := true }

/-- IDLE, R77: the word retires and the task waits for an event. -/
def idle (s : State) : State := (s.retire id).modHere fun T => T.enter s.focus.task .wait .idle

/-- TLBINV, R77, R78, R228 and R284: on all four dies, the leaves of a page or of the context, and its pointer entries. R77 names no context
for the leaves of the page; those of the issuing context, whose address `a` is, are dropped (DESIGN CHOICE). -/
def tlbinv (s : State) (a b : Word) : State := s.supOnly <|
  let c := s.cur.ctx.toNat
  let hit (l : LeafEntry) : Bool := l.ctx == c && (b != 0 || l.page == (if l.big then a.toNat / 2 ^ 25 else a.toNat / 65536))
  let clear (u : TransUnit) : TransUnit := { leaves := u.leaves.filter fun l => !hit l, ptrs := u.ptrs.filter fun p => p.ctx != c }
  let s := s.fence s.curAgent 4
  (s.units.foldl (fun s u => s.modUnit u.1 clear) s).retire id

end State

def execTrap (a : SReg) (s : State) : Out := .next (s.raise 0x08 (s.reg a))
def execTret (s : State) : Out := .next s.tret
/-- FENCE, R77 and R283: the scope is the d field. -/
def execFence (scope : BitVec 5) (s : State) : Out :=
  .next (if 2 ≤ scope.toNat ∧ scope.toNat ≤ 5 then (s.fence s.curAgent scope.toNat).retire id
    else s.raise 0x01 ((packA 0x3F scope 0 0 6 0).setWidth 64))
def execHalt (s : State) : Out := .next s.halt
def execBrkpt (s : State) : Out := .next (s.raise 0x09 (s.cur.pc.setWidth 64))
def execIdle (s : State) : Out := .next s.idle
def execTlbinv (a b : SReg) (s : State) : Out := .next (s.tlbinv (s.reg a) (s.reg b))

end Sys2Proof.Machine
end

