-- ==== Sys2Proof/Machine/Containment.lean ====
section
/-! DEFINITION. Containment, R361–R369 and R376: the region controllers' searches, kills, deliveries and restarts. -/

namespace Sys2Proof.Machine

/-- The code of a level in a report, R369; its place in CONTAIN, R363. -/
def levelCode : Level → Nat
  | .sheet => 0 | .tile => 1 | .quad => 2 | .launch => 3

/-- The lead task of a context on a tile, R210: with a launch the task of LAUNCH.LEAD, without one task 0, if it holds a task of the
context. -/
def Tile.lead (T : Tile) (c : Nat) : Option Nat :=
  let n := match (T.ctx c).launch with | some p => p.lead.toNat | none => 0
  if (T.task n).state ≠ .free ∧ (T.task n).ctx.toNat = c then some n else none

/-- A handler exists, R368. -/
def Tile.hasHandler (T : Tile) (c : Nat) : Bool :=
  match T.lead c with
  | some n => (T.task n).state != .frozen
  | none => false

/-- A fault that a search may take: where it stands, its slot, cause and value, and the order in which it was recorded. -/
structure Recorded where
  src   : FaultSrc
  slot  : Nat := 0
  cause : Nat
  val   : BitVec 64
  ord   : Nat
  deriving DecidableEq, Repr

namespace State

/-- The recorded faults of a context on a tile that a search may take, R362. -/
def recorded (s : State) (t c : Nat) : List Recorded :=
  let elems := (List.range 64).filterMap fun e =>
    match (s.elem (64 * t + e)).fault with
    | some f => if f.ctx = c ∧ f.cause ≠ 0x16 then some { src := .element (64 * t + e), slot := f.slot, cause := f.cause, val := f.val, ord := f.ord } else none
    | none => none
  let node := match (s.node t).fault with
    | some f => if f.ctx = c then [{ src := .node, cause := f.cause, val := f.val.setWidth 64, ord := f.ord }] else []
    | none => []
  let tasks := (s.notices.filter fun x => x.tile == t && x.ctx == c).map fun x =>
    { src := .task x.tid, cause := x.cause, val := x.val, ord := x.ord }
  elems ++ node ++ tasks

/-- The fault that was recorded first. -/
def oldestFault : List Recorded → Option Recorded
  | [] => none
  | f :: r =>
    match oldestFault r with
    | some g => if g.ord < f.ord then some g else some f
    | none => some f

/-! ## Reports, R369 -/

/-- The report of a fault with action `act`. -/
def faultReport (src : FaultSrc) (slot c cause lvl act lid tidx : Nat) (val : BitVec 64) : Report :=
  let r : Report := { val := val.toNat, lid := lid, tidx := tidx, ctx := c, src := 0, lvl := lvl, act := act, cause := cause }
  match src with
  | .element g => { r with elem := gidElem g, slot := slot }
  | .node => { r with src := 1 }
  | .task n => { r with src := 2, task := n }
  | .order => r

/-- A search ends: it is reported, but for a failed save or restore (R375), and later faults no longer wait for it. -/
def closeSearch (s : State) (x : Search) (act : Nat) : State :=
  let s := { s with searches := s.searches.filter (· != x) }
  if x.cause = 0x1C then s
  else s.report (tileDie x.tile) (faultReport x.src x.slot x.ctx x.cause (levelCode x.level) act x.lid x.tidx x.val)

/-- A change of one search. -/
def modSearch (s : State) (x : Search) (f : Search → Search) : State :=
  { s with searches := s.searches.map fun y => if y = x then f y else y }

/-! ## The element's register, R252 -/

/-- V is cleared; the oldest waiting fault is recorded, and a context without a fault fires again. -/
def clearFault (s : State) (g c : Nat) : State :=
  let s := s.tick.modElem g fun e =>
    match e.faults with
    | f :: r => { e with fault := some { f with ord := s.serial }, faults := r }
    | [] => { e with fault := none }
  let held (f : ElemFault) : Bool := f.ctx == c
  let more := (match (s.elem g).fault with | some f => held f | none => false) || (s.elem g).faults.any held
  s.modEctx g c fun x => { x with stopped := more }

/-- The slot of a BKPT fires once without the breakpoint check, R376. -/
def passBkpt (s : State) (g : Nat) (f : ElemFault) : State :=
  if f.bkpt then s.modEctx g f.ctx fun x => { x with pastBkpt := some f.slot } else s

/-! ## Ignore, R364 -/

/-- The pending request of an element is discarded: a null token stands for its result, and a chained one sends a skip request, which is tested
as any other (R258). A skip request that has faulted itself is only discarded (DESIGN CHOICE: another would fault again without end). -/
def abandon (s : State) (g : Nat) (q : Request) : State :=
  if q.skip then s.dropRequest g q.id
  else
    let s := s.modRequest g q.id fun q => { q with state := if q.op = 84 then .silent else .performed q.null }
    if isChained q.op then
      (s.tick.modElem g fun e => { e with reqs := e.reqs ++ [{ q.again with id := s.serial, skip := true }] }).enterChain g q
    else s

/-- The null token of an abandoned operation that holds no request leaves as a reply does. -/
def emitNull (s : State) (g c n : Nat) (w : OpWord) (t : Token) : State :=
  s.tick.modElem g fun e => { e with reqs := e.reqs ++
    [{ id := s.serial, ctx := c, slot := n, op := 0, w := w, ctl := 0, tag := t.tag, src := t.tag, prdA := false, a0 := 0, a1 := 0, b0 := 0, data := 0,
       bytes := 0, bfmt := 0, rfmt := 0, rwid := 1, pass := t, state := .performed t }] }

def ignoreFault (s : State) (t : Nat) (f : FaultSrc) : State :=
  match f with
  | .element g =>
    match (s.elem g).fault with
    | none => s
    | some f =>
      let s := match f.req.bind (s.request? g) with
        | some q => s.abandon g q
        | none =>
          match f.null with
          | some (w, t) => s.emitNull g f.ctx f.slot w t
          | none => s.passBkpt g f
      s.clearFault g f.ctx
  | .node => s.modNode t fun n => { n with queue := n.queue.drop 1, fault := none }
  | .task n => s.resume t n Task.next
  | .order => s

/-! ## Retry, R368 -/

/-- The faulting operation starts again from the beginning. -/
def restart (s : State) (t : Nat) (f : FaultSrc) : State :=
  match f with
  | .element g =>
    match (s.elem g).fault with
    | none => s
    | some f =>
      let s := match f.req with
        | some id => s.modRequest g id Request.again
        | none => s.passBkpt g f
      s.clearFault g f.ctx
  | .node => s.modNode t fun n =>
      match n.fault with
      | some f => { n with fault := none, fifos := SMap.set n.fifos f.elem (f.ate ++ n.fifo f.elem) }
      | none => n
  | .task n => s.resume t n id
  | .order => s

/-! ## Taking a fault, R362 and R363 -/

/-- REGION_FAULT_TAKE: the controller takes the oldest fault of a context and finds the level that absorbs it. -/
def faultTake (s : State) (t c : Nat) : State :=
  if (s.searches.any fun x => x.tile == t && x.ctx == c && x.cause != 0x1C) || s.stoppedForSave t c then s
  else
    match oldestFault (s.recorded t c) with
    | none => s
    | some f =>
      let x := (s.tile t).ctx c
      let (lvl, policy) := absorbs x.contain false (startLevel f.src) 4
      let (lid, tidx) := s.launchOf t c
      let missing := !(s.tile t).hasHandler c
      let y : Search :=
        { tile := t, ctx := c, src := f.src, slot := f.slot, cause := f.cause, val := f.val, level := levelOf lvl, lw := x.lw.toNat,
          lh := x.lh.toNat, lid := lid, tidx := tidx, late := decide (policy = .retry) && missing,
          phase := if policy = .retry ∧ missing = false then .waiting else .killing }
      let s := match f.src with
        | .task n => { s with notices := s.notices.filter fun z => !(z.tile == t && z.tid == n && z.ord == f.ord) }
        | _ => s
      if policy = .ignore then
        (s.ignoreFault t f.src).report (tileDie t) (faultReport f.src f.slot c f.cause lvl 0 lid tidx f.val)
      else { s with searches := s.searches ++ [y] }

/-! ## Kill, R365 -/

/-- The tiles of a region: the tile alone, its quad under the QUADLVL of the search, or its launch. -/
def regionTiles (s : State) (x : Search) : List Nat :=
  match s.launchAt x.tile x.ctx with
  | none => [x.tile]
  | some l =>
    let ts := rectangle l.ox l.oy l.info.w l.info.h
    let quad (u : Nat) : Nat × Nat := ((tileX u - l.ox) >>> x.lw, (tileY u - l.oy) >>> x.lh)
    match x.level with
    | .sheet | .tile => [x.tile]
    | .quad => ts.filter fun u => quad u == quad x.tile
    | .launch => ts

/-- The elements of a region. -/
def regionElems (x : Search) (ts : List Nat) : List Nat :=
  let es := ts.flatMap fun u => (List.range 64).map (64 * u + ·)
  match x.level, x.src with
  | .sheet, .element g => es.filter fun e => elemSheet (gidElem e) == elemSheet (gidElem g)
  | _, _ => es

/-- A fault that a kill covers is discarded and reported so. -/
def reportDiscard (s : State) (lvl c t : Nat) (src : FaultSrc) (slot cause : Nat) (val : BitVec 64) : State :=
  let (lid, tidx) := s.launchOf t c
  s.report (tileDie t) (faultReport src slot c cause lvl 3 lid tidx val)

/-- The faults of a region that no search has ended, but for the fault of search `x`, are reported as discarded. -/
def discardFaults (s : State) (x : Search) (ts es : List Nat) : State :=
  let c := x.ctx
  let lvl := levelCode x.level
  let others := s.searches.filter fun y => y.cause != 0x1C && y.ctx == c && ts.contains y.tile && y != x && x.level != .sheet
  let taken (src : FaultSrc) : Bool := x.src == src || others.any fun y => y.src == src
  let s := es.foldl (fun s g =>
    let e := s.elem g
    let s := match e.fault with
      | some f => if f.ctx = c ∧ taken (.element g) = false then s.reportDiscard lvl c (gidTile g) (.element g) f.slot f.cause f.val else s
      | none => s
    (e.faults.filter (·.ctx == c)).foldl (fun s f => s.reportDiscard lvl c (gidTile g) (.element g) f.slot f.cause f.val) s) s
  if x.level = .sheet then s
  else
    let s := ts.foldl (fun s t =>
      let taken := (x.tile == t && x.src == .node) || others.any fun y => y.tile == t && y.src == .node
      match (s.node t).fault with
      | some f => if f.ctx = c ∧ taken = false then s.reportDiscard lvl c t .node 0 f.cause (f.val.setWidth 64) else s
      | none => s) s
    let gone := s.notices.filter fun n => n.ctx == c && ts.contains n.tile
    let s := gone.foldl (fun s n => s.reportDiscard lvl c n.tile (.task n.tid) 0 n.cause n.val) s
    let s := { s with notices := s.notices.filter fun n => !gone.contains n }
    others.foldl (fun s y =>
      let s := { s with searches := s.searches.filter (· != y) }
      s.report (tileDie y.tile) (faultReport y.src y.slot c y.cause lvl 3 y.lid y.tidx y.val)) s

/-- The block instances of a region are discarded with their reservations; at the sheet level, where the chains go on, their
chain positions are skipped. -/
def killInstances (s : State) (c : Nat) (es : List Nat) (skip : Bool) : State :=
  (s.insts.filter fun i => i.block.ctx == c && i.block.nodes.any fun n => es.contains n.1).foldl (fun s i =>
    let s := s.dropInstance i.id
    (if skip then s.skipHeld i.buffer else s).endInstance i.id) s

/-- The tokens of a context at an element's input ports: on the edges that lead to it. -/
def clearInputs (s : State) (g c : Nat) : State :=
  (List.range 4).foldl (fun s p =>
    match neighbour g p with
    | none => s
    | some h => s.modElem h fun e =>
        { e with edges := e.edges.map fun l => if l.1 / 128 = c ∧ l.1 % 4 = (p + 2) % 4 then (l.1, l.2.emptied) else l }) s

/-- An element's work in a context is discarded; its configuration, its headers and its frames stay, R365 steps 1 and 3. -/
def killElement (s : State) (g c : Nat) : State :=
  let spilled := ((s.ectx g c).operands.map (·.spilled)).flatten
  let s := (s.freeRecords (gidTile g) c spilled).clearInputs g c
  let s := s.tick.modElem g fun e =>
    let later := e.faults.filter (·.ctx != c)
    let mine := match e.fault with | some f => f.ctx == c | none => true
    { e with
      reqs := e.reqs.filter (·.ctx != c)
      fault := if mine then later.head?.map fun f => { f with ord := s.serial } else e.fault
      faults := if mine then later.drop 1 else later
      edges := e.edges.map fun l => if l.1 / 128 = c then (l.1, l.2.emptied) else l
      ports := e.ports.filter fun l => l.1 % 128 / 32 != c
      busy := e.busy.filter fun b => match SMap.get? e.switch b.2 with | some w => swCtx w != c | none => true }
  s.modEctx g c fun x =>
    { x with operands := [], latches := [], groups := [], reorders := [], loops := [], turnB := [], stopped := false, pastBkpt := none }

/-- The Surveyor's, node's and engines' work of a context on a tile is discarded, R365 step 2. -/
def killTile (s : State) (t c : Nat) : State :=
  let mine := (List.range 32).filter fun n => ((s.tile t).task n).state != .free && ((s.tile t).task n).ctx.toNat == c
  let s := mine.foldl (fun s n => (s.orphan t n).freeTask t n) s
  let s := s.modNode t fun n =>
    { n with
      queue := n.queue.filter fun e => e.tag.ctx.toNat != c
      fifos := n.fifos.map fun f => (f.1, f.2.filter fun x => x.token.tag.ctx.toNat != c)
      fault := match n.fault with | some f => if f.ctx = c then none else some f | none => none }
  let s := (s.modTile t fun T => T.modCtx c fun x => { x with arrivals := [] }).cancelStreams t c
  let s := (((s.tile t).ctx c).copies.filter fun z => !z.2.st.fin).foldl (fun s z =>
    (s.modCopy t c z.1 fun y => { y with st := { y.st with canc := true } }).finishCopy t c z.1 z.2) s
  let s := s.abortAll t c
  let s := s.modTile t fun T =>
    { T with
      chains := T.chains.filter fun k => k.ctx != c
      held := T.held.filter fun b => b.tag.ctx.toNat != c
      down := T.down.map fun l => if l.1 / 32 = c then (l.1, l.2.emptied) else l }
  s.serveTickets t copyReady

/-- The region of a search is killed, R365: what the region controllers of its tiles do together. -/
def killRegion (s : State) (x : Search) : State :=
  let ts := s.regionTiles x
  let es := regionElems x ts
  let s := s.discardFaults x ts es
  let s := es.foldl (fun s g => s.killElement g x.ctx) s
  let s := s.killInstances x.ctx es (x.level == .sheet)
  if x.level = .sheet then s
  else
    let s := ts.foldl (fun s t => s.killTile t x.ctx) s
    ts.foldl (fun s t => s.endTile t x.ctx) s

/-- REGION_KILL: a search whose fault its level kills for ends, or goes on to the delivery that follows a kill of a sheet; a save in
progress comes first, R373. -/
def regionKill (s : State) (lvl : Level) (t sh c : Nat) : State :=
  let due (x : Search) : Bool :=
    x.tile == t && x.ctx == c && x.level == lvl && x.phase == .killing
      && (match x.src with | .element g => lvl != .sheet || elemSheet (gidElem g) == sh | _ => true)
  match s.searches.find? due with
  | none => s
  | some x =>
    if (s.regionTiles x).any fun u => s.stoppedForSave u c then s
    else
      let s := s.killRegion x
      if lvl = .sheet ∧ x.late = false then s.modSearch x fun y => { y with killed := true, phase := .waiting }
      else s.closeSearch x (if x.late then 4 else 2)

/-! ## Delivery, R366 and R367 -/

/-- A task is in RUN, READY or an interruptible wait, with no word in the hands of another agent. -/
def mayInterrupt (k : Task) : Bool :=
  match k.state, k.waiting with
  | .run, _ => k.taken.isNone && k.held.isNone
  | .ready, _ => k.taken.isNone
  | .wait, .colour | .wait, .monitor | .wait, .sync .. | .wait, .idle | .wait, .ticket => true
  | _, _ => false

/-- A task leaves an interruptible wait with its pc on the word that waited. -/
def leaveWait (s : State) (t n : Nat) : State :=
  let k := (s.tile t).task n
  match k.state, k.waiting with
  | .wait, .idle => s.modTile t fun T => T.modTask n fun k => { k with pc := k.pc - 4 }
  | .wait, _ => (s.dropMonitor t n).modTile t fun T => T.quitWait n
  | _, _ => s

/-- The trap entry of a delivery: a pending exemption of R23 is left for the task's own words. -/
def deliverTo (s : State) (t n : Nat) (cause : Nat) (val : BitVec 64) : State :=
  let s := s.leaveWait t n
  s.modTile t fun T =>
    let k := T.task n
    let entered := { k with exempt := false }.trapEntry (T.ctx k.ctx.toNat).tvec cause val
    (T.setTask n { entered with bsk := k.bsk, handling := true }).wake n

/-- HANDLER_DELIVERY: the cause of the oldest waiting search of a context goes to its lead task when that is ready; a search whose
handler is missing is read as a kill, or ends when its kill is done. -/
def handlerDelivery (s : State) (t c : Nat) : State :=
  match s.searches.find? fun x => x.tile == t && x.ctx == c && x.phase == .waiting with
  | none => s
  | some x =>
    match (s.tile t).hasHandler c, (s.tile t).lead c with
    | true, some n =>
      let k := (s.tile t).task n
      if k.te && !k.handling && mayInterrupt k && !s.stoppedForSave t c then
        (s.deliverTo t n x.cause x.val).modSearch x fun y => { y with phase := .handled }
      else s
    | _, _ =>
      if x.killed then s.closeSearch x 2 else s.modSearch x fun y => { y with phase := .killing, late := true }

/-- RETRY_RESTART: a delivery has ended; by TRET the faulting operation starts again, else the retry is read as a kill, R368. -/
def retryRestart (s : State) (t c : Nat) : State :=
  match s.searches.find? fun x => x.tile == t && x.ctx == c && (x.phase == .returned || x.phase == .abandoned) with
  | none => s
  | some x =>
    if x.killed then s.closeSearch x 2
    else if x.phase = .returned then (s.restart t x.src).closeSearch x 1
    else s.modSearch x fun y => { y with phase := .killing, late := true }

end State

def execRegionFaultTake (tile ctx : Nat) (s : State) : Out := .next (s.faultTake tile ctx)
def execRegionKill (level : Level) (tile sheet ctx : Nat) (s : State) : Out := settle (s.regionKill level tile sheet ctx)
def execHandlerDelivery (tile ctx : Nat) (s : State) : Out := .next (s.handlerDelivery tile ctx)
def execRetryRestart (tile ctx : Nat) (s : State) : Out := .next (s.retryRestart tile ctx)

end Sys2Proof.Machine
end

