-- ==== Sys2Proof/Machine/DdNodes.lean ====
section
/-! DEFINITION. The nodes of a decision-diagram engine: levels, references, collection, mk, the operation cache and the recursions of R350,
which proceed by node steps (R335–R345, R350, R358). -/

namespace Sys2Proof.Machine

/-! ## Nodes, levels and order, R335–R338 -/

/-- The end of a word with a cause. -/
abbrev DdStop := Nat × Word

/-- The answer of a part of a word and the engine that it leaves. -/
abbrev DdOut (α : Type) := Except DdStop α × DdEngine

/-- What follows a part that has answered. -/
def DdOut.andThen {α β : Type} (r : DdOut α) (k : α → DdEngine → DdOut β) : DdOut β :=
  match r with
  | (.ok v, e) => k v e
  | (.error x, e) => (.error x, e)

def nodeLimit : Nat := 2 ^ 24
/-- The level of a terminal. -/
def ddLevels : Nat := 4096

/-- The lowest index from `n` on that a rising list of indices lacks. -/
def freeIndex : List Nat → Nat → Nat
  | [], n => n
  | j :: r, n => if n < j then n else freeIndex r (if j = n then n + 1 else n)

namespace DdEngine

def node? (e : DdEngine) (n : Nat) : Option DdNode := SMap.get? e.nodes n
def isNode (e : DdEngine) (n : Nat) : Bool := (e.node? n).isSome
/-- ORD[l] and LEV[v]. -/
def ord (e : DdEngine) (l : Nat) : Nat := SMap.getD e.order l l
def lev (e : DdEngine) (v : Nat) : Nat := ((e.order.find? (·.2 == v)).map (·.1)).getD v

/-- The level of a node. -/
def level (e : DdEngine) (n : Nat) : Nat := match e.node? n with | some x => e.lev x.var | none => ddLevels
def lo (e : DdEngine) (n : Nat) : Nat := match e.node? n with | some x => x.lo | none => n
def hi (e : DdEngine) (n : Nat) : Nat := match e.node? n with | some x => x.hi | none => n
/-- The cofactors of R350. -/
def cof0 (e : DdEngine) (n l : Nat) : Nat := if e.level n = l then e.lo n else n
def cof1 (e : DdEngine) (n l : Nat) : Nat := if e.level n = l then e.hi n else n

/-! The gazetteer and the chains of nodes, R335 and R336. DESIGN CHOICE: a chain links the nodes of its bucket in rising index order. -/

def bucketOf (v l h : Nat) : Nat := Config.bucket v l h % 2 ^ 20
/-- The nodes of a bucket in the order of their chain; the head of the bucket, 0 where it is empty. -/
def chain (e : DdEngine) (b : Nat) : List Nat := (e.nodes.filter fun x => bucketOf x.2.var x.2.lo x.2.hi == b).map (·.1)
def head (e : DdEngine) (b : Nat) : Nat := (e.chain b).headD 0

/-- NEXT of an internal index, R336 and R341: the next node of its bucket, or for a free node the next free one. -/
def next (e : DdEngine) (n : Nat) : Nat :=
  match e.node? n with
  | some x => ((e.chain (bucketOf x.var x.lo x.hi)).find? fun j => decide (n < j)).getD 0
  | none => let j := freeIndex ((e.nodes.map (·.1)).filter fun j => decide (n < j)) (n + 1); if j < nodeLimit then j else 0

/-- The 128 bits of a node, R336. -/
def image (e : DdEngine) (n : Nat) : BitVec 128 :=
  match e.node? n with
  | some x => BitVec.ofNat 128 (x.var * 2 ^ 116 + x.lo * 2 ^ 88 + x.hi * 2 ^ 60 + x.ref * 2 ^ 44 + e.next n * 2 ^ 16)
  | none => if n < 2 then 0 else BitVec.ofNat 128 (e.next n * 2 ^ 16 + 2 ^ 15)

/-- The engine reads a node: an error that its code cannot correct ends the word and sets FAIL, R358; another is corrected, R377. -/
def touch {α : Type} (e : DdEngine) (n : Nat) (k : DdEngine → DdOut α) : DdOut α :=
  if !e.isNode n then k e
  else if e.bad.contains n then (.error (0x15, word n), { e with fail := true })
  else k (if e.weak.contains n then { e with weak := NSet.erase e.weak n } else e)

/-- Every node of a list is read. -/
def touchEach {α : Type} (e : DdEngine) : List Nat → (DdEngine → DdOut α) → DdOut α
  | [], k => k e
  | n :: r, k => e.touch n fun e => e.touchEach r k

def touchAll {α : Type} (e : DdEngine) (ns : List Nat) (k : DdEngine → DdOut α) : DdOut α :=
  if e.bad = [] ∧ e.weak = [] then k e else e.touchEach ns k

/-- The errors of nodes in use that are corrected from one engine to the next. -/
def fixed (e e' : DdEngine) : Nat := (e.weak.filter fun n => e.isNode n && !e'.weak.contains n).length

/-! ## Reference counts and collection, R340–R342 -/

def modNode (e : DdEngine) (n : Nat) (f : DdNode → DdNode) : DdEngine :=
  match e.node? n with
  | some x => { e with nodes := SMap.set e.nodes n (f x) }
  | none => e

/-- A reference more, or one less, unless the count is at 0xFFFF. -/
def addRef (e : DdEngine) (n : Nat) : DdEngine := e.modNode n fun x => { x with ref := Min.min (x.ref + 1) 0xFFFF }
def dropRef (e : DdEngine) (n : Nat) : DdEngine := e.modNode n fun x => if x.ref = 0xFFFF then x else { x with ref := x.ref - 1 }

/-- A word's result takes an external reference, and a word gives one back: the node is read for its count, R340 and R358. -/
def refer (e : DdEngine) (n : Nat) : DdOut Nat := e.touch n fun e => (.ok n, e.addRef n)
def release (e : DdEngine) (n : Nat) : DdOut Nat := e.touch n fun e => (.ok n, e.dropRef n)

/-- The dead nodes that nothing holds are freed, and those that become dead with them: at most `k` nodes. -/
def freeDead (e : DdEngine) (held : List Nat) : Nat → DdEngine
  | 0 => e
  | k + 1 =>
    match e.nodes.find? fun x => x.2.ref == 0 && !held.contains x.1 with
    | none => e
    | some (n, x) => ((({ e with nodes := SMap.erase e.nodes n } : DdEngine).dropRef x.lo).dropRef x.hi).freeDead held k

/-- A collection that spares the nodes held, R341: every node is read. The number of nodes freed. -/
def collect (e : DdEngine) (held : List Nat) : DdOut Nat :=
  e.touchAll (e.nodes.map (·.1)) fun e =>
    let n := e.nodes.length
    let e := { e.freeDead held n with cache := [], colls := e.colls + 1 }
    (.ok (n - e.nodes.length), e)

/-- A node is made of a triple that no node has, at the lowest free index. -/
def create (e : DdEngine) (v l h : Nat) : DdOut Nat :=
  e.touchAll [l, h] fun e =>
    let n := freeIndex (e.nodes.map (·.1)) 2
    let e := { e with nodes := SMap.set e.nodes n { var := v, lo := l, hi := h }, bad := NSet.erase e.bad n, weak := NSet.erase e.weak n }
    (.ok n, ((e.addRef l).addRef h))

/-- The nodes of a bucket that are read until the one with a triple is found. -/
def seek (e : DdEngine) (v l h : Nat) : Option Nat → List Nat
  | some n => (e.chain (bucketOf v l h)).filter fun j => decide (j ≤ n)
  | none => e.chain (bucketOf v l h)

/-- mk, R343: `held` are the nodes that the words in progress hold, `en` is the engine's number. -/
def mkNode (en : Nat) (held : List Nat) (v l h : Nat) (e : DdEngine) : DdOut Nat :=
  if l = h then (.ok l, e)
  else
    let found := (e.nodes.find? fun x => x.2.var == v && x.2.lo == l && x.2.hi == h).map (·.1)
    e.touchAll (e.seek v l h found) fun e =>
      match found with
      | some n => (.ok n, e)
      | none =>
        if e.nodes.length < e.gzth.toNat ∧ e.nodes.length < nodeLimit - 2 then e.create v l h
        else
          (e.collect (l :: h :: held)).andThen fun _ e =>
            let n := e.nodes.length
            if e.gzth.toNat < n + 65536 ∨ nodeLimit - 2 ≤ n then (.error (0x12, word (en * 2 ^ 61 + n)), e)
            else e.create v l h

/-! ## The operation cache, R344 -/

def entryOf (op f g h : Nat) : Nat := Config.cacheEntry op f g h % 65536
def lookUp (e : DdEngine) (op f g h : Nat) : Option Nat :=
  ((SMap.get? e.cache (entryOf op f g h)).filter fun m => m.op == op && m.f == f && m.g == g && m.h == h).map (·.r)
def remember (e : DdEngine) (op f g h r : Nat) : DdEngine := { e with cache := SMap.set e.cache (entryOf op f g h) ⟨op, f, g, h, r⟩ }

end DdEngine

/-! ## The recursions of R350, node step by node step -/

/-- The nodes that an operation in progress holds, R342. -/
def DdCall.nodes (c : DdCall) : List Nat :=
  match c with
  | .apply _ f g => [f, g]
  | .ite f g h => [f, g, h]
  | .rest _ f q => [f, q]
  | .build .. => []
def DdFrame.nodes (x : DdFrame) : List Nat :=
  match x with
  | .high c _ => c.nodes
  | .low x _ => [x]
  | .keep _ f g h => [f, g, h]
def DdNow.nodes (x : DdNow) : List Nat := match x with | .call c => c.nodes | .result n => [n]
def DdRun.nodes (r : DdRun) : List Nat := r.now.nodes ++ r.stack.flatMap (·.nodes)

/-- An operation starts; it has come to its result. -/
def DdRun.of (c : DdCall) : DdRun := { now := .call c }
def DdRun.done? (r : DdRun) : Option Nat := match r with | ⟨[], .result n⟩ => some n | _ => none

namespace DdEngine

/-- A key is looked up: its result, or the computation, whose result is to be stored. -/
def cached (e : DdEngine) (st : List DdFrame) (op f g h : Nat) (k : List DdFrame → DdEngine → DdOut DdRun) : DdOut DdRun :=
  match e.lookUp op f g h with
  | some r => (.ok ⟨st, .result r⟩, { e with hits := e.hits + 1 })
  | none => k (.keep op f g h :: st) { e with misses := e.misses + 1 }

/-- Two branches, the low one first, R345. -/
def branch (st : List DdFrame) (low high : DdCall) (j : DdJoin) (e : DdEngine) : DdOut DdRun := (.ok ⟨.high high j :: st, .call low⟩, e)

/-- next(q): the child of a cube node that is not FALSE. -/
def nextOf (e : DdEngine) (q : Nat) : Nat := if e.lo q = 0 then e.hi q else e.lo q

/-- The first step of a recursion. -/
def enter (e : DdEngine) (st : List DdFrame) (c : DdCall) : DdOut DdRun :=
  let answer (n : Nat) : DdOut DdRun := (.ok ⟨st, .result n⟩, e)
  match c with
  | .apply c f g =>
    if f < 2 ∧ g < 2 then answer (c / 2 ^ (2 * f + g) % 2)
    else
      e.cached st c f g 0 fun st e => e.touchAll [f, g] fun e =>
        let l := Min.min (e.level f) (e.level g)
        branch st (.apply c (e.cof0 f l) (e.cof0 g l)) (.apply c (e.cof1 f l) (e.cof1 g l)) (.node (e.ord l)) e
  | .ite f g h =>
    if f = 1 then answer g
    else if f = 0 then answer h
    else if g = h then answer g
    else if g = 1 ∧ h = 0 then answer f
    else
      e.cached st 16 f g h fun st e => e.touchAll [f, g, h] fun e =>
        let l := Min.min (e.level f) (Min.min (e.level g) (e.level h))
        branch st (.ite (e.cof0 f l) (e.cof0 g l) (e.cof0 h l)) (.ite (e.cof1 f l) (e.cof1 g l) (e.cof1 h l)) (.node (e.ord l)) e
  | .rest ex f q =>
    if q = 1 ∨ f < 2 then answer f
    else
      e.touchAll [f, q] fun e =>
        if e.level q < e.level f then (.ok ⟨st, .call (.rest ex f (e.nextOf q))⟩, e)
        else
          e.cached st (if ex then 18 else 17) f q 0 fun st e =>
            if e.level f < e.level q then
              branch st (.rest ex (e.lo f) q) (.rest ex (e.hi f) q) (.node (match e.node? f with | some x => x.var | none => 0)) e
            else if ex then branch st (.rest ex (e.lo f) (e.nextOf q)) (.rest ex (e.hi f) (e.nextOf q)) .either e
            else (.ok ⟨st, .call (.rest ex (if e.lo q = 0 then e.hi f else e.lo f) (e.nextOf q))⟩, e)
  | .build bm vs t =>
    match vs with
    | [] => answer (if bm.testBit t then 1 else 0)
    | v :: vs => branch st (.build bm vs t) (.build bm vs (t + 2 ^ v)) (.node v) e

/-- A node step of an operation; `held` are the nodes that the other words in progress hold. -/
def stepRun (en : Nat) (held : List Nat) (r : DdRun) (e : DdEngine) : DdOut DdRun :=
  match r.now, r.stack with
  | .call c, st => e.enter st c
  | .result _, [] => (.ok r, e)
  | .result n, .high c j :: st => (.ok ⟨.low n j :: st, .call c⟩, e)
  | .result n, .low x (.node v) :: st => (mkNode en (r.nodes ++ held) v x n e).andThen fun n e => (.ok ⟨st, .result n⟩, e)
  | .result n, .low x .either :: st => (.ok ⟨st, .call (.apply 14 x n)⟩, e)
  | .result n, .keep op f g h :: st => (.ok ⟨st, .result n⟩, e.remember op f g h n)

/-- An operation that no other work on the engine comes between, of at most `k` node steps. -/
def runAll (en : Nat) (held : List Nat) : Nat → DdRun → DdEngine → DdOut Nat
  | 0, _, e => (.ok 0, e)
  | k + 1, r, e =>
    match r.done? with
    | some n => (.ok n, e)
    | none => (stepRun en held r e).andThen fun r e => runAll en held k r e

/-- More node steps than an operation on 2^24 nodes has. -/
def runLimit : Nat := 2 ^ 80

/-- Whether `q` is a cube, 1 or 0: its nodes are read. -/
def cube (e : DdEngine) : Nat → Nat → DdOut Nat
  | 0, _ => (.ok 0, e)
  | k + 1, q =>
    if q = 1 then (.ok 1, e)
    else if !e.isNode q then (.ok 0, e)
    else e.touch q fun e => if (e.lo q == 0) != (e.hi q == 0) then e.cube k (e.nextOf q) else (.ok 0, e)

end DdEngine

/-! ## The engines and the words that they hold -/

/-- The engine that a word addresses, R346. -/
def ddEngineOf (a : Word) : Nat := (a.extractLsb' 28 3).toNat
def handleNode (x : Word) : Nat := (x.extractLsb' 0 28).toNat
def handleOf (en n : Nat) : Word := word (en * 2 ^ 28 + n)

/-- The handle operands of a word, each checked in turn. -/
def ddHandles (i : Instr) (k : Taken) : List Word :=
  match i with
  | .ddapply .. | .ddrest .. | .ddex .. => [k.a, k.b]
  | .ddite .. => [k.a, k.b, k.d]
  | .ddwcnt .. | .ddeval .. | .ddref .. | .ddderef .. | .ddexp .. => [k.a]
  | _ => []

/-- A word that an engine holds and has not ended; the nodes that it holds, R342. -/
def Taken.atEngine (k : Taken) (en : Nat) : Bool :=
  k.cause.isNone && (match k.pair with | some (0x20, _) => true | _ => false) && ddEngineOf k.a == en
def Taken.ddNodes (k : Taken) : List Nat :=
  (ddHandles k.word k).map handleNode ++ match k.run with | some r => r.nodes | none => []

namespace State

def ddEngine (s : State) (en : Nat) : DdEngine := SMap.getD s.dd en {}
def setDd (s : State) (en : Nat) (e : DdEngine) : State := { s with dd := SMap.set s.dd en e }

/-- The words in progress on an engine. -/
def ddWords (s : State) (en : Nat) : List Taken :=
  (s.tiles.flatMap fun T => T.2.tasks.toList.filterMap (·.taken)).filter (·.atEngine en)
    ++ (s.orphans.map (·.2)).filter (·.atEngine en)

/-- The nodes that the words in progress on an engine hold. -/
def ddHeld (s : State) (en : Nat) : List Nat := (s.ddWords en).flatMap (·.ddNodes)

/-- A computation of an engine: what it answers, and the errors that it has corrected, R377. -/
def ddCompute {α : Type} (s : State) (en : Nat) (f : DdEngine → DdOut α) : Except DdStop α × State :=
  let e := s.ddEngine en
  let r := f e
  (r.1, (s.setDd en r.2).countFixed (en / 2) (e.fixed r.2))

end State

end Sys2Proof.Machine
end

