-- ==== Sys2Proof/Machine/FoldCheck.lean ====
section
/-! DEFINITION. FCHECK on a decision-diagram engine, R241 and R242: the conflict set as a diagram, and its witness. -/

namespace Sys2Proof.Machine

/-! ## The box, R241 and R270 -/

/-- The statement that a FOLD record or a check record names. -/
def recordS (r : Nat) : Nat := bitsOf r 11 0

/-- E_k, R270. -/
def boxExtent (r k : Nat) : Nat := bitsOf r (47 + 16 * k) (32 + 16 * k)
/-- The stamp at position `n` of the box, lin(i) = n, R241. -/
def boxStamp (r n : Nat) : Nat :=
  let e (k : Nat) : Nat := boxExtent r k
  stampOf (recordS r) (n / (e 1 * e 2 * e 3)) (n / (e 2 * e 3) % e 1) (n / e 3 % e 2) (n % e 3)

/-- The first number from `n` on, of at most `k`, that `p` holds for. -/
def firstFrom (p : Nat → Bool) (n : Nat) : Nat → Option Nat
  | 0 => none
  | k + 1 => if p n then some n else firstFrom p (n + 1) k

/-- The witness of R241: the conflicting pair with the lowest lin(i), then the lowest lin(j). -/
def conflict (l : Layout) (r : Nat) : Option (Nat × Nat) :=
  let total := boxExtent r 0 * boxExtent r 1 * boxExtent r 2 * boxExtent r 3
  let reach := bitsOf r 127 96 - 1
  let partner (i : Nat) : Option Nat :=
    firstFrom (fun j => l.slotOf (boxStamp r i) == l.slotOf (boxStamp r j)) (i + 1) (Min.min reach (total - 1 - i))
  (firstFrom (fun i => (partner i).isSome) 0 total).bind fun i => (partner i).map fun j => (i, j)

/-- The limits of a check record that do not depend on the descriptor, R270. -/
def checkRecordOk (r : Nat) : Bool :=
  bitsOf r 15 12 == 0 && bitsOf r 31 16 == 0 && bitsOf r 127 96 != 0
    && (List.range 4).all fun k => 1 ≤ boxExtent r k && boxExtent r k ≤ 8192

/-! ## Diagrams of linear conditions -/

/-- A condition on the value of a sum of weighted variables: it lies in a range, or it is a multiple of a number. -/
inductive LinCond where
  | between (lo hi : Int)
  | multiple (m : Nat)
  deriving DecidableEq, Repr

/-- Variables with their weights. -/
abbrev Weights := List (Nat × Int)

/-- What a condition comes to when the variables `r` are still open and the others have given `x`: decided, or the value that decides it. -/
def LinCond.cut (q : LinCond) (r : Weights) (x : Int) : Sum Nat Int :=
  match q with
  | .multiple m => if r.isEmpty || m == 1 then .inl (if x % m = 0 then 1 else 0) else .inr (x % m)
  | .between lo hi =>
    let least := r.foldl (fun a t => a + Min.min t.2 0) x
    let most := r.foldl (fun a t => a + Max.max t.2 0) x
    if most < lo ∨ hi < least then .inl 0 else if lo ≤ least ∧ most ≤ hi then .inl 1 else .inr x

/-- The node of a value in the layer below. -/
def LinCond.below (q : LinCond) (r : Weights) (m : List (Int × Nat)) (x : Int) : Nat :=
  match q.cut r x with
  | .inl n => n
  | .inr y => ((m.find? (·.1 == y)).map (·.2)).getD 0

namespace DdEngine

/-- The nodes of one variable, one for each value that the variables above it have given. -/
def linNodes (en : Nat) (held : List Nat) (q : LinCond) (v : Nat) (c : Int) (r : Weights) (m : List (Int × Nat)) :
    List Int → List (Int × Nat) → DdEngine → DdOut (List (Int × Nat))
  | [], made, e => (.ok made, e)
  | x :: xs, made, e =>
    (mkNode en (held ++ (m ++ made).map (·.2)) v (q.below r m x) (q.below r m (x + c)) e).andThen fun n e =>
      linNodes en held q v c r m xs ((x, n) :: made) e

/-- The nodes of a condition for some values, the layers below first. -/
def linLayer (en : Nat) (held : List Nat) (q : LinCond) : Weights → List Int → DdEngine → DdOut (List (Int × Nat))
  | [], _, e => (.ok [], e)
  | (v, c) :: r, xs, e =>
    let left := (xs.flatMap fun x => [x, x + c]).filterMap fun y => match q.cut r y with | .inl _ => none | .inr z => some z
    (linLayer en held q r left.eraseDups e).andThen fun m e => linNodes en held q v c r m xs [] e

/-- The diagram of a condition: its variables are taken in the engine's order of levels. -/
def linear (en : Nat) (held : List Nat) (q : LinCond) (ts : Weights) (e : DdEngine) : DdOut Nat :=
  let ts := (ts.foldl (fun o t => insertKey (e.lev t.1) t o) []).map (·.2)
  match q.cut ts 0 with
  | .inl n => (.ok n, e)
  | .inr x => (linLayer en held q ts [x] e).andThen fun m e => (.ok (((m.find? (·.1 == x)).map (·.2)).getD 0), e)

/-- The conjunction of conditions with a diagram, by DDAPPLY. -/
def conjunction (en : Nat) (held : List Nat) : List (LinCond × Weights) → Nat → DdEngine → DdOut Nat
  | [], f, e => (.ok f, e)
  | (q, ts) :: r, f, e =>
    (linear en (f :: held) q ts e).andThen fun g e =>
      (runAll en held runLimit (.of (.apply 8 f g)) e).andThen fun f e => conjunction en held r f e

/-- A cube of positive literals, by DDAPPLY. -/
def cubeOf (en : Nat) (held : List Nat) : List Nat → Nat → DdEngine → DdOut Nat
  | [], q, e => (.ok q, e)
  | v :: r, q, e =>
    (mkNode en (q :: held) v 0 1 e).andThen fun x e =>
      (runAll en held runLimit (.of (.apply 8 q x)) e).andThen fun q e => cubeOf en held r q e

/-- A diagram with a variable fixed, by DDREST. -/
def fixed1 (en : Nat) (held : List Nat) (f v : Nat) (x : Bool) (e : DdEngine) : DdOut Nat :=
  (mkNode en (f :: held) v (if x then 0 else 1) (if x then 1 else 0) e).andThen fun q e => runAll en held runLimit (.of (.rest false f q)) e

/-- A set's variables are fixed one at a time, each to 0 where what is left is not empty. -/
def lowest (en : Nat) (held : List Nat) : List Nat → Nat → DdEngine → DdOut (List (Nat × Bool))
  | [], _, e => (.ok [], e)
  | v :: r, f, e =>
    (fixed1 en (f :: held) f v false e).andThen fun g e =>
      if g ≠ 0 then (lowest en held r g e).andThen fun xs e => (.ok ((v, false) :: xs), e)
      else
        (fixed1 en held f v true e).andThen fun g e => (lowest en held r g e).andThen fun xs e => (.ok ((v, true) :: xs), e)

/-- A set restricted to values of variables. -/
def restricted (en : Nat) (held : List Nat) : List (Nat × Bool) → Nat → DdEngine → DdOut Nat
  | [], f, e => (.ok f, e)
  | (v, x) :: r, f, e => (fixed1 en held f v x e).andThen fun g e => restricted en held r g e

end DdEngine

/-! ## The conflict set, R242 -/

/-- The bits of component k of a vector in the box. -/
def boxBits (r k : Nat) : Nat := if boxExtent r k ≤ 1 then 0 else Nat.log2 (boxExtent r k - 1) + 1

/-- The bits of a vector in the box, the most significant first: the component, the weight and the number of each. -/
def boxPlaces (r : Nat) : List (Nat × Nat × Nat) :=
  ((List.range 4).flatMap fun k => (List.range (boxBits r k)).reverse.map fun b => (k, b)).zipIdx.map fun p => (p.1.1, p.1.2, p.2)

/-- The sum of the components of j less those of i, weighted by `w`; the variables are interleaved, i before j. -/
def boxDifference (r : Nat) (w : Nat → Int) : Weights :=
  (boxPlaces r).flatMap fun p => [(2 * p.2.2, -(w p.1 * 2 ^ p.2.1)), (2 * p.2.2 + 1, w p.1 * 2 ^ p.2.1)]

/-- One component of i or of j. -/
def boxComponent (r k : Nat) (ofJ : Bool) : Weights :=
  ((boxPlaces r).filter (·.1 == k)).map fun p => (2 * p.2.2 + (if ofJ then 1 else 0), 2 ^ p.2.1)

/-- Q_k of lin, R241. -/
def boxStride (r k : Nat) : Nat := ((List.range 4).filter (k < ·)).foldl (fun a m => a * boxExtent r m) 1

/-- The conditions of the conflict set: the box, the two constraints on lin, and the modular equality of each j_k. -/
def conflictConditions (l : Layout) (r : Nat) : List (LinCond × Weights) :=
  let total : Int := boxExtent r 0 * boxStride r 0
  let lin := boxDifference r fun k => boxStride r k
  ((List.range 4).flatMap fun k => [false, true].map fun j => (LinCond.between 0 (boxExtent r k - 1), boxComponent r k j))
    ++ [(.between 1 total, lin), (.between (-total) (bitsOf r 127 96 - 1), lin)]
    ++ (List.range 4).map fun k => (.multiple (l.modulus k), boxDifference r fun m => if m = k then 1 else if k < m then l.sigma k m else 0)

namespace DdEngine

/-- The work of FCHECK at its engine: the conflict set, and its witness in the two stages of R242. The controller's references are taken and
given back within it: `held` stands for them. -/
def checkFold (en : Nat) (held : List Nat) (l : Layout) (r : Nat) (e : DdEngine) : DdOut Unit :=
  let vars (j : Nat) : List Nat := (boxPlaces r).map fun p => 2 * p.2.2 + j
  (conjunction en held (conflictConditions l r) 1 e).andThen fun f e =>
    (cubeOf en (f :: held) (vars 1) 1 e).andThen fun q e =>
      (runAll en (f :: held) runLimit (.of (.rest true f q)) e).andThen fun g e =>
        if g = 0 then (.ok (), e)
        else
          (lowest en (f :: held) (vars 0) g e).andThen fun xs e =>
            (restricted en held xs f e).andThen fun g e => (lowest en held (vars 1) g e).andThen fun _ e => (.ok (), e)

end DdEngine

/-- The engine that R242 chooses on a die, the one with fewer nodes in use: 0 or 1. -/
def State.checkEngine (s : State) (die : Nat) : Nat :=
  if (s.ddEngine (2 * die + 1)).nodes.length < (s.ddEngine (2 * die)).nodes.length then 1 else 0

end Sys2Proof.Machine
end

