-- ==== Sys2Proof/Machine/FoldWords.lean ====
section
/-! DEFINITION. Major 0x22: declaring, growing, checking and dropping folds, R241–R244 and R266–R273. -/

namespace Sys2Proof.Machine

/-! ## Records, R214 and R232 -/

/-- The layout of a FOLD record. -/
def recordLayout (r : Nat) : Layout :=
  { scope := bitsOf r 23 16, d := bitsOf r 31 24, b := bitsOf r 63 32, z := bitsOf r 95 64,
    m := (List.range 4).map fun k => bitsOf r (111 + 16 * k) (96 + 16 * k),
    skew := (List.range 6).map fun j => sextNat (bitsOf r (167 + 8 * j) (160 + 8 * j)) 8,
    c := bitsOf r 215 208, bound := bitsOf r 255 224 }

/-- The limits of R232; reserved bits are zero. -/
def recordOk (r : Nat) : Bool :=
  let l := recordLayout r
  bitsOf r 15 12 == 0 && l.scope ≤ 2 && 1 ≤ l.d && l.d ≤ 4 && 32 ≤ l.z && l.z ≤ 65536 && l.z % 32 == 0 && l.c != 0 && l.bound != 0
    && (List.range 4).all (fun k => l.modulus k != 0 && (k < l.d || l.modulus k == 1))
    && [(0, 1), (0, 2), (0, 3), (1, 2), (1, 3), (2, 3)].all fun p => p.2 < l.d || l.sigma p.1 p.2 == 0

/-- Two layouts share a line. -/
def Layout.meets (x y : Layout) : Bool := decide (x.b < y.b + y.lines) && decide (y.b < x.b + x.lines)

namespace State

/-- The lines fit their level, R236. -/
def linesFit (s : State) (c : Nat) (l : Layout) : Bool :=
  l.b + l.lines ≤ (match l.scope with | 0 => 768 | 1 => 49152 | _ => (s.region c).nl.toNat)

/-- Another active descriptor shares a line with the layout, R236; one that grows has its new lines too, R243. -/
def linesShared (s : State) (c n : Nat) (l : Layout) : Bool :=
  s.folds.any fun f => !(f.ctx == c && f.s == n) && f.lay.scope == l.scope && (l.scope != 2 || f.ctx == c)
    && (f.lay.meets l || match f.next with | some m => m.meets l | none => false)

def modFold (s : State) (c n : Nat) (g : Descriptor → Descriptor) : State :=
  { s with folds := s.folds.map fun f => if f.ctx = c ∧ f.s = n then g f else f }

/-- A named access of a statement. -/
def namesFold (c n : Nat) (q : Request) : Bool := q.ctx == c && decide (79 ≤ q.op) && decide (q.op ≤ 81) && stampS q.a0 == n

/-- The accesses of a statement that wait at a home, each with its element: requests, and the writes that make a commit wait, R240. -/
def foldWaits (s : State) (c n : Nat) : List (Nat × Request) :=
  (s.elems.flatMap fun e => (e.2.reqs.filter fun q => namesFold c n q && q.inst.isNone && q.state.waits).map fun q => (e.1, q))
    ++ s.insts.flatMap fun i =>
      match i.stall with
      | some (g, id, st) => (i.buffer.filter fun b => b.gid == g && b.req.id == id && namesFold c n b.req && st.waits).map fun b => (g, b.req)
      | none => []

/-- An access of the statement waits at a home. -/
def foldBusy (s : State) (c n : Nat) : Bool := s.foldWaits c n != []

/-- The tiles of the launch that a context of a tile holds; without one, of which R268 and R243 do not speak, the tile alone (DESIGN CHOICE). -/
def launchTiles (s : State) (t c : Nat) : List Nat :=
  match (s.tile t).ctx c with
  | { launch := some p, .. } => rectangle p.ox.toNat p.oy.toNat p.w.toNat p.h.toNat
  | _ => [t]

/-- Every on-die header of some lines is EMPTY in an element or a tile. -/
def emptyLines (m : SMap NameHdr) (b n : Nat) : SMap NameHdr := m.filter fun e => !(decide (b ≤ e.1) && decide (e.1 < b + n))

/-- The on-die headers of a layout are EMPTY on some tiles. -/
def emptyTiles (s : State) (l : Layout) (ts : List Nat) : State :=
  ts.foldl (fun s t =>
    if l.scope = 0 then
      s.elems.foldl (fun s e =>
        if gidTile e.1 = t then s.modElem e.1 fun x => { x with names := emptyLines x.names l.b l.lines } else s) s
    else s.modTile t fun T => { T with names := emptyLines T.names l.b l.lines }) s

/-- Zeros over headers in device memory, page after page, one header at a time (so that the mark of a poisoned sector stays,
R378), with the supervisor state of the word's task (R227): the first that cannot be written. -/
def zeroHeaders (s : State) (die c : Nat) (sup : Bool) : List (Nat × Nat) → Option (Nat × Nat) × State
  | [] => (none, s)
  | (va, n) :: r =>
    match s.probe die c va n { read := true, write := true, sup := sup, header := true } with
    | (.error e, s) => (some (e, va), s)
    | (.ok (sp, pa), s) =>
      ((List.range (n / 16)).foldl (fun s i => s.perform sp (pa + 16 * i) 16 0) (s.callBack none sp pa n)).zeroHeaders die c sup r

/-- The headers of a layout are EMPTY, R268: the first device-scope header that cannot be written. -/
def emptyHeaders (s : State) (t c : Nat) (sup : Bool) (l : Layout) : Option (Nat × Nat) × State :=
  if l.scope = 2 then s.zeroHeaders (tileDie t) c sup (pieces (l.lines / 4096 + 2) (s.headerVa c l.b) (16 * l.lines))
  else (none, s.emptyTiles l (s.launchTiles t c))

/-! ## FDECL, R268 -/

/-- The status of a layout that cannot be declared for statement `n`, R267: of several the lowest (DESIGN CHOICE, here and in the other words). -/
def layoutStatus (s : State) (c n : Nat) (l : Layout) : Option Nat :=
  let others := s.folds.filter fun f => !(f.ctx == c && f.s == n)
  if !s.linesFit c l then some 2
  else if s.linesShared c n l then some 3
  else if 256 ≤ (others.filter (·.ctx == c)).length ∨ 1024 ≤ others.length then some 5
  else none

/-- The status of a FOLD record that FDECL refuses, R267. -/
def declareStatus (s : State) (c r : Nat) : Option Nat :=
  if !recordOk r then some 1 else s.layoutStatus c (recordS r) (recordLayout r)

/-- FDECL, descriptor form: while accesses of an active S wait, the word stays with the controller. -/
def declare (s : State) (t n : Nat) (k : Taken) : State :=
  let st := recordS k.record
  match s.fold? k.ctx st with
  | some f => if f.growing || s.foldBusy k.ctx st then s else go s st
  | none => go s st
where
  go (s : State) (st : Nat) : State :=
    match s.declareStatus k.ctx k.record with
    | some e => s.endWord t n (word e)
    | none =>
      match s.emptyHeaders t k.ctx k.sup (recordLayout k.record) with
      | (some e, s) => s.failWord t n e.1 (word e.2)
      | (none, s) =>
        let f : Descriptor := { ctx := k.ctx, s := st, lay := recordLayout k.record, serial := s.serial }
        { (s.endWord t n 0).tick with folds := (s.folds.filter fun f => !(f.ctx == k.ctx && f.s == st)) ++ [f] }

/-- FDECL, region form, R234. -/
def declareRegion (s : State) (t n : Nat) (k : Taken) : State :=
  let r := k.record
  if bitsOf r 95 56 ≠ 0 ∨ bitsOf r 15 0 ≠ 0 then s.endWord t n 1
  else if s.folds.any fun f => f.ctx == k.ctx && f.lay.scope == 2 then s.endWord t n 6
  else
    let v : Region := ⟨BitVec.ofNat 32 (bitsOf r 127 96), BitVec.ofNat 40 (bitsOf r 55 16)⟩
    { (s.endWord t n 0) with regions := if h : k.ctx < 4 then s.regions.set k.ctx v else s.regions }

/-! ## FGROW, R243 and R269 -/

/-- A slot held under the old layout: the element or tile that it is read in, its number and its header. -/
structure HeldSlot where
  g   : Nat
  at0 : SlotAt
  hdr : NameHdr
  deriving DecidableEq, Repr

/-- The elements in which the slots of a layout are kept: one for each array. -/
def arraysOf (s : State) (t c : Nat) (l : Layout) : List Nat :=
  let ts := s.launchTiles t c
  match l.scope with
  | 0 => (s.elems.filter fun e => ts.contains (gidTile e.1) && e.2.names != []).map (·.1)
  | 1 => ts.map (64 * ·)
  | _ => [64 * t]

/-- The held slots of one array from slot `r` on, or what stops the reading; owners give their lines back first, R263. -/
def heldFrom (s : State) (g : Nat) (sup : Bool) (f : Descriptor) : Nat → Nat → Except (Nat × Nat) (List HeldSlot) × State
  | _, 0 => (.ok [], s)
  | r, k + 1 =>
    match s.slotAt g f (f.lay.line r) { read := true, sup := sup } with
    | (.error e, s) => (.error e, s)
    | (.ok p, s) =>
      let hs := match p.header with | some (sp, a) => [(sp, a, 16)] | none => []
      let s := s.piecesHome engineAgent (hs ++ p.data)
      if hs.any fun p => (s.store p.1).poisoned p.2.1 16 then (.error (0x14, s.headerVa f.ctx p.line), s)
      else
        let s := s.correctPieces g hs
        let h := s.headerAt g f p
        match s.heldFrom g sup f (r + 1) k with
        | (.error e, s) => (.error e, s)
        | (.ok hs, s) => (.ok (if h.st = 0 then hs else ⟨g, p, h⟩ :: hs), s)

/-- The held slots of every array of a descriptor. -/
def heldSlots (s : State) (sup : Bool) (f : Descriptor) : List Nat → Except (Nat × Nat) (List HeldSlot) × State
  | [] => (.ok [], s)
  | g :: gs =>
    match s.heldFrom g sup f 0 f.lay.slots with
    | (.error e, s) => (.error e, s)
    | (.ok hs, s) =>
      match s.heldSlots sup f gs with
      | (.error e, s) => (.error e, s)
      | (.ok rest, s) => (.ok (hs ++ rest), s)

/-- Two held names that meet in one slot of the new layout with at least one LIVE: the first such pair in the order of the arrays and slots
(DESIGN CHOICE: R269 does not say which pair is recorded). -/
def growClash (l : Layout) : List HeldSlot → Option (BitVec 64 × BitVec 64)
  | [] => none
  | h :: r =>
    match r.find? fun k => k.g == h.g && l.slotOf k.hdr.stamp.toNat == l.slotOf h.hdr.stamp.toNat && (k.hdr.st == 1 || h.hdr.st == 1) with
    | some k => some (h.hdr.stamp, k.hdr.stamp)
    | none => growClash l r

/-- The data of the held slots, or poison met. A word with an uncorrectable error, for which R269 names no cause, is copied as it stands
(DESIGN CHOICE). -/
def heldData (s : State) (f : Descriptor) : List HeldSlot → Except (Nat × Nat) (List (HeldSlot × Nat)) × State
  | [] => (.ok [], s)
  | h :: r =>
    match h.at0.data.find? fun p => (s.store p.1).poisoned p.2.1 p.2.2 with
    | some _ => (.error (0x14, if f.lay.scope = 2 then s.lineVa f.ctx h.at0.line else 32 * h.at0.line), s)
    | none =>
      let v := s.readPieces h.at0.data
      match (s.correctPieces h.g h.at0.data).heldData f r with
      | (.error e, s) => (.error e, s)
      | (.ok ds, s) => (.ok ((h, v) :: ds), s)

/-- The held names put into the slots of the new layout, older names first so that the latest stays. -/
def putHeld (s : State) (sup : Bool) (f : Descriptor) : List (Nat × HeldSlot × Nat) → Option (Nat × Nat) × State
  | [] => (none, s)
  | (_, h, v) :: r =>
    match s.slotAt h.g f (f.lay.line (f.lay.slotOf h.hdr.stamp.toNat)) { write := true, sup := sup } with
    | (.error e, s) => (some e, s)
    | (.ok p, s) => (((s.piecesHome engineAgent p.data).writePieces f.ctx v p.data).setHeader h.g f p h.hdr).putHeld sup f r

/-- The status of an FGROW record, R267: then the word begins. -/
def growStatus (s : State) (c r : Nat) : Option Nat :=
  let l := recordLayout r
  let n := recordS r
  if !recordOk r then some 1
  else
    match s.fold? c n with
    | none => some 4
    | some f =>
      if l.d ≠ f.lay.d ∨ l.z ≠ f.lay.z ∨ l.c ≠ f.lay.c ∨ l.scope ≠ f.lay.scope then some 1
      else if !s.linesFit c l then some 2
      else if s.linesShared c n l ∨ f.lay.meets l = true then some 3
      else none

/-- FGROW ends and the statement is ACTIVE under the layout that `g` leaves. -/
def growEnd (s : State) (t m c n : Nat) (v : Word) (g : Descriptor → Descriptor) : State :=
  ((s.modFold c n fun f => { g f with growing := false, next := none, serial := s.serial }).tick).endWord t m v

/-- FGROW: the statement enters GROWING and takes its new lines, then its held names move, R243. -/
def grow (s : State) (t m : Nat) (k : Taken) : State :=
  let n := recordS k.record
  let l := recordLayout k.record
  if k.begun = 0 then
    if (match s.fold? k.ctx n with | some f => f.growing | none => false) || s.stoppedForSave t k.ctx then s
    else
      match s.growStatus k.ctx k.record with
      | some e => s.endWord t m (word e)
      | none =>
        (((s.modFold k.ctx n fun f => { f with growing := true, next := some l }).pauseStatement k.ctx n).modTaken t m fun w => { w with begun := 1 })
  else
    match s.fold? k.ctx n with
    | none => s.endWord t m 4
    | some f =>
      let stop (s : State) (e : Nat × Nat) : State :=
        (s.modFold k.ctx n fun f => { f with growing := false, next := none }).failWord t m e.1 (word e.2)
      match s.heldSlots k.sup f (s.arraysOf t k.ctx f.lay) with
      | (.error e, s) => stop s e
      | (.ok hs, s) =>
        match growClash l hs with
        | some (x, y) => (s.modFold k.ctx n fun f => { f with growing := false, next := none, wit := (x, y) }).endWord t m 7
        | none =>
          match s.heldData f hs with
          | (.error e, s) => stop s e
          | (.ok ds, s) =>
            match s.emptyHeaders t k.ctx k.sup l with
            | (some e, s) => stop s e
            | (none, s) =>
              match s.putHeld k.sup { f with lay := l } (ds.foldl (fun o d => insertKey d.1.hdr.stamp.toNat d o) []) with
              | (some e, s) => stop s e
              | (none, s) => s.growEnd t m k.ctx n 0 fun f => { f with lay := l, gen := (f.gen + 1) % 256, check := 0 }

/-! ## FCHECK, R241, R242 and R270 -/

/-- FCHECK: it begins on a statement that is not GROWING, with the choice of its engine, and ends with the state that the statement has kept
meanwhile. What the engine finds is the witness of R241, whatever the engine and its other work (R242); where it stops, nothing is decided. -/
def check (s : State) (t m : Nat) (k : Taken) : State :=
  let n := recordS k.record
  if k.begun = 0 then
    if !checkRecordOk k.record then s.endWord t m 1
    else
      match s.fold? k.ctx n with
      | none => s.endWord t m 4
      | some f =>
        if (List.range 4).any fun j => f.lay.d ≤ j && boxExtent k.record j != 1 then s.endWord t m 1
        else if f.growing then s
        else s.modTaken t m fun w => { w with begun := 2 * (f.serial + 1) + s.checkEngine (tileDie t) }
  else
    match s.fold? k.ctx n with
    | none => s.endWord t m 10
    | some f =>
      let en := 2 * tileDie t + k.begun % 2
      if f.serial + 1 ≠ k.begun / 2 ∨ f.growing = true then s.endWord t m 10
      else if (s.ddEngine en).fail then s.endWord t m 9
      else
        match s.ddCompute en (DdEngine.checkFold en (s.ddHeld en) f.lay k.record) with
        | (.error _, s) => s.endWord t m 9
        | (.ok _, s) =>
          match conflict f.lay k.record with
          | none => (s.modFold k.ctx n fun f => { f with check := 1 }).endWord t m 0
          | some (i, j) =>
            (s.modFold k.ctx n fun f =>
              { f with check := 2, wit := (BitVec.ofNat 64 (boxStamp k.record i), BitVec.ofNat 64 (boxStamp k.record j)) }).endWord t m 8

/-! ## FDROP and FSTAT, R271 and R272 -/

/-- FDROP: while accesses of the statement wait, or while it grows, the word stays with the controller. -/
def dropFold (s : State) (t m : Nat) (k : Taken) : State :=
  let n := k.a.toNat % 4096
  match s.fold? k.ctx n with
  | none => s.endWord t m 4
  | some f =>
    if f.growing || s.foldBusy k.ctx n then s
    else { (s.endWord t m 0) with folds := s.folds.filter fun f => !(f.ctx == k.ctx && f.s == n) }

/-- The die of the stack that holds a physical address, R383. -/
def stackDie (a : Nat) : Nat := a / 4096 % 8 / 2

/-- Accesses of a statement that wait at homes on a die; the home of a device-scope slot is that of its first line (DEDUCED from R233). -/
def waitingOn (s : State) (die : Nat) (f : Descriptor) : Nat :=
  ((s.foldWaits f.ctx f.s).filter fun w =>
    let own := tileDie (gidTile w.1)
    if f.lay.scope = 2 then
      let va := s.lineVa f.ctx (f.lay.line (f.lay.slotOf (f.lay.normal w.2.a0)))
      match (s.translate own f.ctx va).1 with
      | some l => stackDie (l.place va).2 == die
      | none => false
    else own == die).length

/-- The header that FSTAT reads; none where it cannot be read. -/
def statHeader (s : State) (t : Nat) (sup : Bool) (f : Descriptor) (b : Word) : Option NameHdr × State :=
  let r := (b.extractLsb' 32 32).toNat
  let g := 64 * t + (b.extractLsb' 8 6).toNat
  if f.lay.slots ≤ r then (none, s)
  else
    let line := f.lay.line r
    if f.lay.scope = 2 then
      match s.probe (tileDie t) f.ctx (s.headerVa f.ctx line) 16 { read := true, sup := sup, header := true } with
      | (.error _, s) => (none, { s with absent := none })
      | (.ok (sp, a), s) =>
        let s := s.atHome engineAgent none sp a 16
        if ((s.store sp).readCause a 16).isSome then (none, s)
        else (some (NameHdr.ofNat (s.bytesAt sp a 16)), s.correct (tileDie t) sp a 16)
    else (some (s.headerAt g f ⟨line, [], none⟩), s)

/-- FSTAT. -/
def statFold (s : State) (t m : Nat) (k : Taken) : State :=
  match s.fold? k.ctx (k.a.toNat % 4096) with
  | none => s.endWord t m 0
  | some f =>
    match k.b.toNat % 16 with
    | 0 => s.endWord t m (word (f.gen * 256 + f.check * 4 + (if f.growing then 2 else 1)))
    | 1 => s.endWord t m f.wit.1
    | 2 => s.endWord t m f.wit.2
    | 3 =>
      match s.statHeader t k.sup f k.b with
      | (some h, s) => s.endWord t m h.stamp
      | (none, s) => s.endWord t m (word (2 ^ 64 - 1))
    | 4 =>
      match s.statHeader t k.sup f k.b with
      | (some h, s) => s.endWord t m (word (h.st * 256 + h.cnt))
      | (none, s) => s.endWord t m (word (2 ^ 64 - 1))
    | 5 => s.endWord t m (word f.lay.b)
    | 6 => s.endWord t m (word f.lay.lines)
    | 7 => s.endWord t m (word (s.waitingOn (tileDie t) f))
    | _ => s.endWord t m 0

/-! ## Taking and completing a fold word, R266 and R267 -/

/-- A fold word issues: its sync conditions, the checks of its record operand of `size` bytes, its supervisor test; then the
controller takes it. -/
def foldWord (s : State) (i : Instr) (d a b : SReg) (y : Sync) (size : Nat) (sup : Bool) : State :=
  s.gated 0x22 y <|
    let p := (s.reg a).toNat
    if size ≠ 0 ∧ p % 8 ≠ 0 then s.raise 0x03 (s.reg a)
    else if size ≠ 0 ∧ 0x8000 < p + size then s.raise 0x04 (s.reg a)
    else if sup && !s.cur.sup then s.raise 0x06 0
    else s.takeSynced 0x22 y (s.takenWord i d a b (s.here.dataRead p size)) .engine

/-- FDECL reads 16 bytes in its region form and 32 in the other, R268. -/
def fdecl (s : State) (i : Instr) (d a b : SReg) (y : Sync) : State :=
  s.foldWord i d a b y (if (s.reg b).getLsbD 0 then 16 else 32) true

/-- FOLD_WORD_COMPLETE: the controller goes on with the word that it holds. -/
def foldComplete (s : State) (t n : Nat) : State :=
  match s.takenBy t n with
  | none => s
  | some k =>
    match k.word with
    | .fdeclDescriptor .. | .fdeclRegion .. => if k.b.getLsbD 0 then s.declareRegion t n k else s.declare t n k
    | .fgrow .. => s.grow t n k
    | .fcheck .. => s.check t n k
    | .fdrop .. => s.dropFold t n k
    | .fstat .. => s.statFold t n k
    | _ => s

end State

def execFdeclDescriptor (d a b : SReg) (y : Sync) (s : State) : Out := .next (s.fdecl (.fdeclDescriptor d a b y) d a b y)
def execFdeclRegion (d a b : SReg) (y : Sync) (s : State) : Out := .next (s.fdecl (.fdeclRegion d a b y) d a b y)
def execFgrow (d a : SReg) (y : Sync) (s : State) : Out := .next (s.foldWord (.fgrow d a y) d a 0 y 32 true)
def execFcheck (d a : SReg) (y : Sync) (s : State) : Out := .next (s.foldWord (.fcheck d a y) d a 0 y 16 false)
def execFdrop (d a : SReg) (y : Sync) (s : State) : Out := .next (s.foldWord (.fdrop d a y) d a 0 y 0 true)
def execFstat (d a b : SReg) (y : Sync) (s : State) : Out := .next (s.foldWord (.fstat d a b y) d a b y 0 false)
def execFoldWordComplete (tile tid : Nat) (s : State) : Out := settle (s.foldComplete tile tid)

end Sys2Proof.Machine
end

