-- ==== Sys2Proof/Machine/DatumWords.lean ====
section
/-! DEFINITION. Major 0x25: DSETUP, DWMARK and DSTAT, R307–R310. -/

namespace Sys2Proof.Machine

/-! ## The DATUM record, R214 -/

def datumDom (r : Nat) : Nat := bitsOf r 7 0
def datumH (r : Nat) : Nat := bitsOf r 15 8
def datumOp (r : Nat) : Nat := bitsOf r 23 16
def datumP (r : Nat) : Nat := bitsOf r 31 24
def datumCount (r : Nat) : Nat := bitsOf r 63 32
def datumBase (r : Nat) : Nat := bitsOf r 127 64
/-- The class that follows the operation, R308. -/
def datumClass (r : Nat) : Nat := match datumOp r with | 0 => 0 | 3 => 2 | _ => 1

/-- The limits of R214 and R308. -/
def datumOk (r : Nat) : Bool :=
  datumDom r ≤ 63 && 1 ≤ datumH r && datumH r ≤ 8 && datumOp r ≤ 3 && datumP r != 0 && datumCount r ≤ 2 ^ 24
    && datumBase r % 64 == 0 && datumBase r + 64 * datumCount r ≤ 2 ^ 56

namespace State

/-- The DLDSs that wait at the cells of a domain, active or not, R304. -/
def waitsOn (s : State) (dom : Nat) : List Request := s.elems.flatMap fun e => e.2.reqs.filter (waitsAt · dom)
/-- A DLDS waits at the cell of a line. -/
def waitsLine (s : State) (line : Nat) : Bool := s.elems.any fun e => e.2.reqs.any fun q => q.op == 93 && q.line == line && q.state.waits

/-- The lines of a record, each translated and checked: the first that fails, with its cause. With `write` the pages' D bits are set. -/
def cellLines (s : State) (die c : Nat) (write sup : Bool) (va : Nat) : Nat → Except (Nat × Nat) (List Nat) × State
  | 0 => (.ok [], s)
  | n + 1 =>
    match s.cellPlace die c va write sup with
    | (.error e, s) => (.error (e, va), s)
    | (.ok pa, s) =>
      match s.cellLines die c write sup (va + 64) n with
      | (.error e, s) => (.error e, s)
      | (.ok ps, s) => (.ok (pa :: ps), s)

/-- The status of R308 that the record and the domain give. -/
def setupStatus (s : State) (r : Nat) (add : Bool) : Option Nat :=
  if !datumOk r then some 1
  else
    match SMap.get? s.domains (datumDom r), add with
    | some _, false => some 2
    | none, true => some 3
    | some d, true => if d.p ≠ datumP r then some 3 else none
    | none, false => none

/-- The units' copies of a domain's watermark are not valid. -/
def dropMarks (s : State) (dom : Nat) : State := { s with unitWm := s.unitWm.filter fun e => e.1 / 256 != dom }

/-- DSETUP at the units, R308: every line passes its checks, and none is in use, before anything changes. -/
def setupDomain (s : State) (t n : Nat) (k : Taken) : State :=
  let r := k.record
  let add := k.b.getLsbD 0
  match s.setupStatus r add with
  | some e => s.endWord t n (word e)
  | none =>
    match s.cellLines (tileDie t) k.ctx false k.sup (datumBase r) (datumCount r) with
    | (.error e, s) => s.failWord t n e.1 (word e.2)
    | (.ok lines, s) =>
      if lines.any s.waitsLine || s.cells.any (fun c => lines.contains c.line && c.hist != []) then s.endWord t n 4
      else
        let s := (s.cellLines (tileDie t) k.ctx true k.sup (datumBase r) (datumCount r)).2
        let fresh (line : Nat) : DatumCell :=
          { line := line, dom := datumDom r, cls := datumClass r, hm1 := datumH r - 1, bv := false, v := true, bstamp := 0, base := 0 }
        let s := lines.foldl (fun s line => s.perform .hbm line 64 (fresh line).toLine) { s with cells := s.cells.filter fun c => !lines.contains c.line }
        let s := if add then s else { s.dropMarks (datumDom r) with domains := SMap.set s.domains (datumDom r) { p := datumP r } }
        s.endWord t n 0

/-- DWMARK at the units, R309: a posted frontier has reached every unit when the word completes. -/
def markDomain (s : State) (t n : Nat) (k : Taken) : State :=
  let dom := k.a.toNat % 64
  let p := (k.a.extractLsb' 8 8).toNat
  if k.begun ≠ 0 then (if s.marksReached dom (k.begun - 1) then s.endWord t n 0 else s)
  else
    match (k.a.extractLsb' 16 2).toNat, SMap.get? s.domains dom with
    | 0, some d =>
      if d.p ≤ p then s.endWord t n 1
      else
        let s := s.applyFrontier dom p k.b.toNat
        match SMap.get? s.domains dom with
        | some d => if d.wv then s.modTaken t n fun w => { w with begun := d.wm + 1 } else s.endWord t n 0
        | none => s.endWord t n 0
    | 1, some d =>
      if (List.range d.p).any fun p => SMap.getD d.f p 0 != 2 ^ 64 - 1 then s.endWord t n 6
      else if s.waitsOn dom ≠ [] ∨ s.marksReached dom d.wm = false then s
      else ({ s.dropMarks dom with domains := SMap.erase s.domains dom } : State).endWord t n 0
    | 0, none | 1, none => s.endWord t n 3
    | _, _ => s.endWord t n 1

/-- DATUM_WORD_COMPLETE, R307. -/
def datumComplete (s : State) (t n : Nat) : State :=
  match s.takenBy t n with
  | none => s
  | some k =>
    match k.word with
    | .dsetupNew .. | .dsetupAdd .. => s.setupDomain t n k
    | .dwmarkPost .. | .dwmarkRelease .. => s.markDomain t n k
    | _ => s

/-- DSETUP issues, R308. -/
def dsetup (s : State) (i : Instr) (d a b : SReg) : State :=
  let p := (s.reg a).toNat
  if p % 8 ≠ 0 then s.raise 0x03 (s.reg a)
  else if 0x8000 < p + 16 then s.raise 0x04 (s.reg a)
  else s.supOnly (s.takePlain (s.takenWord i d a b (s.here.dataRead p 16)))

/-- DWMARK issues, R309. -/
def dwmark (s : State) (i : Instr) (d a b : SReg) : State := s.supOnly (s.takePlain (s.takenWord i d a b 0))

/-! ## DSTAT, R310 -/

/-- Items 0–3, of a domain. -/
def domainItem (s : State) (die : Nat) (dom i p : Nat) : Nat :=
  match SMap.get? s.domains dom with
  | none => 0
  | some d =>
    match i with
    | 0 => 1 + (if d.wv then 2 else 0) + d.p * 2 ^ 8 + ((List.range d.p).filter fun p => SMap.getD d.f p 0 == 2 ^ 64 - 1).length * 2 ^ 16
    | 1 => if d.wv then d.wm else 0
    | 2 => if p < d.p then SMap.getD d.f p 0 else 0
    | _ => ((s.waitsOn dom).filter fun q => stackDie q.line == die).length

/-- Items 4–8, of an active cell. -/
def cellItem (s : State) (k : DatumCell) (i e : Nat) : Nat :=
  match i with
  | 4 => k.tentative
  | 5 => k.hist.length + k.hm1 * 2 ^ 4 + k.cls * 2 ^ 8 + (if k.bv then 2 ^ 10 else 0) + (if k.v then 2 ^ 11 else 0) + 2 ^ 12 + k.dom * 2 ^ 16
  | 6 => k.bstamp
  | 7 => match k.hist[e]? with | some u => u.stamp | none => 2 ^ 64 - 1
  | _ => (s.cells.filter fun c => unitOf c.line == unitOf k.line).length

/-- DSTAT: while the cell cannot be made active its task stays in RUN with the word unretired. -/
def dstat (s : State) (d a b : SReg) : State :=
  let i := (s.reg b).toNat % 16
  let a := s.reg a
  let give (s : State) (v : Nat) : State := s.retireIn 240 fun k => k.setReg d (word v)
  if i < 4 then give s (s.domainItem s.curDie (a.toNat % 64) i ((s.reg b).extractLsb' 8 8).toNat)
  else if 8 < i then give s 0
  else
    match s.cellPlace s.curDie s.cur.ctx.toNat a.toNat false s.cur.sup with
    | (.error c, s) => s.raise c a
    | (.ok line, s') =>
      match s'.activate line with
      | (.cause c, s) => s.raise c a
      | (.wait, s) => s.stall
      | (.cell k, s') => give s' (s'.cellItem k i ((s.reg b).extractLsb' 8 4).toNat)

end State

def execDsetupNew (d a b : SReg) (s : State) : Out := .next (s.dsetup (.dsetupNew d a b) d a b)
def execDsetupAdd (d a b : SReg) (s : State) : Out := .next (s.dsetup (.dsetupAdd d a b) d a b)
def execDwmarkPost (d a b : SReg) (s : State) : Out := .next (s.dwmark (.dwmarkPost d a b) d a b)
def execDwmarkRelease (d a b : SReg) (s : State) : Out := .next (s.dwmark (.dwmarkRelease d a b) d a b)
def execDstat (d a b : SReg) (s : State) : Out := settle (s.dstat d a b)
def execDatumWordComplete (tile tid : Nat) (s : State) : Out := settle (s.datumComplete tile tid)

end Sys2Proof.Machine
end

