-- ==== Sys2Proof/Machine/DdEngine.lean ====
section
/-! DEFINITION. Major 0x20: the words of the decision-diagram engines, R335–R358. A word that makes nodes proceeds by node steps, which
interleave with those of other words (R345); every other word is performed in one step. -/

namespace Sys2Proof.Machine

namespace DdEngine

/-! ## Walks over a diagram -/

/-- The internal nodes of the diagram rooted at a node. -/
def reach (e : DdEngine) : Nat → Nat → NSet → NSet
  | 0, _, seen => seen
  | k + 1, n, seen => if !e.isNode n || seen.contains n then seen else reach e k (e.hi n) (reach e k (e.lo n) (NSet.insert seen n))

def nodesOf (e : DdEngine) (f : Nat) : NSet := e.reach (ddLevels + 1) f []

/-- The value of a diagram where variable `v` has the value `p v`. -/
def value (e : DdEngine) (p : Nat → Bool) : Nat → Nat → Nat
  | 0, n => n
  | k + 1, n => match e.node? n with | some x => value e p k (if p x.var then x.hi else x.lo) | none => n

/-- The bitmap of a diagram over `k` variables, R354: bits `i` to `i + n - 1`. -/
def bitmap (e : DdEngine) (f : Nat) (i : Nat) : Nat → Nat
  | 0 => 0
  | n + 1 => e.value (fun v => i.testBit v) (ddLevels + 1) f + 2 * e.bitmap f (i + 1) n

end DdEngine

/-- The 1 bits of a number of at most `k` bits. -/
def onesOf (x : Nat) : Nat → Nat
  | 0 => 0
  | k + 1 => x % 2 + onesOf (x / 2) k

/-! ## Counting, R351 -/

/-- The arithmetic of a count: values, product and sum. -/
structure Counting where
  α    : Type
  none : α
  one  : α
  mul  : α → α → α
  add  : α → α → α
  /-- w0(v) and w1(v). -/
  w    : Nat → α × α

/-- UINT64 that saturates. -/
def exactCounting : Counting :=
  { α := Nat, none := 0, one := 1, mul := fun x y => Min.min (x * y) (2 ^ 64 - 1), add := fun x y => Min.min (x + y) (2 ^ 64 - 1), w := fun _ => (1, 1) }

/-- FP32 with each step rounded, under weights read as patterns. -/
def weightedCounting (table : SMap Nat) : Counting :=
  { α := Val, none := Val.zero, one := Val.ofInt 1, mul := fun x y => rneFp32 (Val.mul x y), add := fun x y => rneFp32 (Val.add x y),
    w := fun v => let p := SMap.getD table v 0; (decodeVal 0 (p % 2 ^ 32), decodeVal 0 (p / 2 ^ 32)) }

namespace DdEngine

/-- skip(p, q): the product of s(l) over the `k` levels from `l`, from `x` on. -/
def skip (e : DdEngine) (C : Counting) (l : Nat) : Nat → C.α → C.α
  | 0, x => x
  | k + 1, x => e.skip C (l + 1) k (C.mul x (C.add (C.w (e.ord l)).1 (C.w (e.ord l)).2))

def levelTo (e : DdEngine) (nl n : Nat) : Nat := if e.isNode n then e.level n else nl

/-- c(n) with the counts of the nodes met so far. -/
def countOf (e : DdEngine) (C : Counting) (nl : Nat) : Nat → Nat → List (Nat × C.α) → C.α × List (Nat × C.α)
  | 0, _, m => (C.none, m)
  | k + 1, n, m =>
    match e.node? n with
    | none => (if n = 0 then C.none else C.one, m)
    | some x =>
      match m.find? (·.1 == n) with
      | some r => (r.2, m)
      | none =>
        let gap (c : Nat) : C.α := e.skip C (e.level n + 1) (e.levelTo nl c - (e.level n + 1)) C.one
        let (c0, m) := e.countOf C nl k x.lo m
        let (c1, m) := e.countOf C nl k x.hi m
        let t := C.add (C.mul (C.mul (C.w x.var).1 c0) (gap x.lo)) (C.mul (C.mul (C.w x.var).2 c1) (gap x.hi))
        (t, (n, t) :: m)

/-- The count of a diagram over levels 0 to NL − 1. -/
def count (e : DdEngine) (C : Counting) (nl f : Nat) : C.α :=
  C.mul (e.skip C 0 (e.levelTo nl f) C.one) (e.countOf C nl (ddLevels + 1) f []).1

/-! ## DDSWAP, R353 -/

/-- A node receives another triple in place; what it refers to is counted. -/
def rewrite (e : DdEngine) (n v l h : Nat) : DdEngine :=
  let e := (e.addRef l).addRef h
  match e.node? n with
  | none => e
  | some x => ((e.modNode n fun x => { x with var := v, lo := l, hi := h }).dropRef x.lo).dropRef x.hi

/-- A node of `u` is rewritten with `v` below: its cofactors at the two levels are joined anew, the low ones first. -/
def swapNode (en u v : Nat) (held : List Nat) (n : Nat) (x : DdNode) (e : DdEngine) : DdOut Nat :=
  let of (c : Nat) : Option DdNode := (e.node? c).filter (·.var == v)
  let c0 (c : Nat) : Nat := match of c with | some y => y.lo | none => c
  let c1 (c : Nat) : Nat := match of c with | some y => y.hi | none => c
  if (of x.lo).isNone && (of x.hi).isNone then (.ok 0, e)
  else
    (mkNode en held u (c0 x.lo) (c0 x.hi) e).andThen fun a e =>
      (mkNode en (a :: held) u (c1 x.lo) (c1 x.hi) e).andThen fun b e => e.touchAll [a, b, x.lo, x.hi] fun e => (.ok 1, e.rewrite n v a b)

/-- The nodes of `u` that have a child of `v` are rewritten; with those rewritten so far and their old triples. -/
def swapNodes (en u v : Nat) (held : List Nat) : List Nat → List (Nat × DdNode) → DdEngine → DdOut Nat × List (Nat × DdNode)
  | [], old, e => ((.ok 0, e), old)
  | n :: r, old, e =>
    match e.node? n with
    | none => swapNodes en u v held r old e
    | some x =>
      match swapNode en u v held n x e with
      | (.ok k, e) => swapNodes en u v held r (if k = 0 then old else (n, x) :: old) e
      | (.error z, e) => ((.error z, e), old)

/-- ORD with levels l and l + 1 exchanged. -/
def exchange (e : DdEngine) (l : Nat) : DdEngine :=
  let put (o : SMap Nat) (l v : Nat) : SMap Nat := if v = l then SMap.erase o l else SMap.set o l v
  { e with order := put (put e.order l (e.ord (l + 1))) (l + 1) (e.ord l) }

/-- DDSWAP of levels l and l + 1: their nodes number. -/
def swap (en l : Nat) (e : DdEngine) : DdOut Nat :=
  let u := e.ord l
  let v := e.ord (l + 1)
  let at2 (e : DdEngine) : List Nat := (e.nodes.filter fun x => x.2.var == u || x.2.var == v).map (·.1)
  let us := (((e.nodes.filter fun x => x.2.var == u).map (·.1)).foldl (fun o n => insertKey (Config.swapOrder n) n o) []).map (·.2)
  e.touchAll (at2 e) fun e =>
    match swapNodes en u v (at2 e) us [] (e.exchange l) with
    | ((.ok _, e), _) => (.ok (at2 e).length, { e with cache := [] })
    | ((.error z, e), old) =>
      (.error z, { (old.foldl (fun (e : DdEngine) o => e.rewrite o.1 o.2.var o.2.lo o.2.hi) e).exchange l with cache := [] })

end DdEngine

/-! ## Words -/

/-- The failure statuses of R348. -/
def ddShape : Word := word (2 ^ 64 - 2)
def ddNoRef : Word := word (2 ^ 64 - 3)
def ddInUse : Word := word (2 ^ 64 - 4)
def ddTooHigh : Word := word (2 ^ 64 - 5)

/-- A handle operand of engine `en` is bad, R338. -/
def DdEngine.badHandle (e : DdEngine) (en : Nat) (x : Word) : Bool :=
  let n := (x.extractLsb' 0 28).toNat
  x.getLsbD 31 || decide (nodeLimit ≤ n) || decide (ddEngineOf x ≠ en) || !(decide (n < 2) || e.isNode n)

/-- How a word ends: a value, a handle that takes an external reference, or a cause; or how far it has come. -/
inductive DdEnd where
  | value (v : Word)
  | handle (n : Nat)
  | cause (c : Nat) (v : Word)
  | running (r : DdRun)
  deriving DecidableEq, Repr

namespace State

/-- The word ends, or goes on later. A killed task's handle is released, R347; a node that cannot be read ends the word, R358. -/
def endDd (s : State) (t n en : Nat) : DdEnd → State
  | .value v => s.endWord t n v
  | .cause c v => s.failWord t n c v
  | .running r => s.modTaken t n fun k => { k with run := some r }
  | .handle h =>
    match s.ddCompute en fun e => (e.refer h).andThen fun h e => if n < 32 then (.ok h, e) else e.release h with
    | (.ok h, s) => s.endWord t n (handleOf en h)
    | (.error x, s) => s.failWord t n x.1 x.2

/-- What an engine computes ends the word: `k` gives the end from its answer. -/
def ddRun {α : Type} (s : State) (en : Nat) (f : DdEngine → DdOut α) (k : α → DdEnd) : DdEnd × State :=
  match s.ddCompute en f with
  | (.ok v, s) => (k v, s)
  | (.error x, s) => (.cause x.1 x.2, s)

/-- An operation takes a node step; `me` are its word's operands. -/
def ddStep (s : State) (en : Nat) (me : List Nat) (r : DdRun) : DdEnd × State :=
  s.ddRun en (DdEngine.stepRun en (me ++ s.ddHeld en) r) fun r => match r.done? with | some n => .handle n | none => .running r

/-! ## Memory, R355 -/

def ddNeed (k : Taken) (write : Bool) : Need := { read := !write, write := write, sup := k.sup, farOk := true, near := true }

/-- `n` bytes at a device address read by an engine of a die; or the cause and its address. -/
def ddRead (s : State) (die : Nat) (k : Taken) : List (Nat × Nat) → Except (Nat × Nat) Nat × State
  | [] => (.ok 0, s)
  | (va, n) :: r =>
    match s.probe die k.ctx va n (ddNeed k false) with
    | (.error c, s) => (.error (c, va), s)
    | (.ok (sp, a), s) =>
      let s := s.atHome engineAgent none sp a n
      match (s.store sp).readCause a n with
      | some c => (.error (c, va), s)
      | none =>
        let v := s.bytesAt sp a n
        match (s.correct die sp a n).ddRead die k r with
        | (.ok x, s) => (.ok (v + 256 ^ n * x), s)
        | (.error e, s) => (.error e, s)

/-- Bytes written by an engine, as far as they can be. -/
def ddWrite (s : State) (die : Nat) (k : Taken) (v : Nat) : List (Nat × Nat) → Option (Nat × Nat) × State
  | [] => (none, s)
  | (va, n) :: r =>
    match s.probe die k.ctx va n (ddNeed k true) with
    | (.error c, s) => (some (c, va), s)
    | (.ok (sp, a), s) => ((s.atHome engineAgent none sp a n).perform sp a n (v % 256 ^ n)).ddWrite die k (v / 256 ^ n) r

/-- The weights of the variables at levels `l` to `l + n - 1`, R351. -/
def ddWeights (s : State) (die : Nat) (k : Taken) (e : DdEngine) (l : Nat) : Nat → SMap Nat → Except (Nat × Nat) (SMap Nat) × State
  | 0, m => (.ok m, s)
  | n + 1, m =>
    match s.ddRead die k [(k.b.toNat + 8 * e.ord l, 8)] with
    | (.ok p, s) => s.ddWeights die k e (l + 1) n (SMap.set m (e.ord l) p)
    | (.error x, s) => (.error x, s)

/-- The count of a diagram under one arithmetic; a node at level NL or above ends it. -/
def ddCountBy (s : State) (en nl f : Nat) (C : Counting) (g : C.α → Word) : DdEnd × State :=
  let e := s.ddEngine en
  s.ddRun en (fun e => e.touchAll (e.nodesOf f) fun e => (.ok (), e)) fun _ =>
    .value (if (e.nodesOf f).any fun n => decide (nl ≤ e.level n) then ddShape else g (e.count C nl f))

/-- DDWCNT, R351: the weights are read first. -/
def ddCount (s : State) (en : Nat) (k : Taken) (f : Nat) : DdEnd × State :=
  let nl := match (k.a.extractLsb' 32 13).toNat with | 0 => ddLevels | n => n
  if k.b.getLsbD 0 then s.ddCountBy en nl f exactCounting word
  else
    match s.ddWeights (en / 2) k (s.ddEngine en) 0 (Min.min nl ddLevels) [] with
    | (.error x, s) => (.cause x.1 (word x.2), s)
    | (.ok table, s) =>
      if ddLevels < nl then
        let (v, s) := s.free
        (.value (v &&& 0xFFFFFFFF), s)
      else s.ddCountBy en nl f (weightedCounting table) fun v => match encodeVal 0 .rne v with | .ok p => word p | .error _ => 0

/-- DDEVAL, R352: the path is followed from the root, each byte read as it is needed. -/
def ddEval (s : State) (en : Nat) (k : Taken) : Nat → Nat → DdEnd × State
  | 0, n => (.value (word n), s)
  | fuel + 1, n =>
    match (s.ddEngine en).node? n with
    | none => (.value (word n), s)
    | some x =>
      match s.ddCompute en fun e => e.touch n fun e => (.ok (), e) with
      | (.error z, s) => (.cause z.1 z.2, s)
      | (.ok _, s) =>
        match s.ddRead (en / 2) k [(k.b.toNat + x.var / 8, 1)] with
        | (.error z, s) => (.cause z.1 (word z.2), s)
        | (.ok b, s) => s.ddEval en k fuel (if b.testBit (x.var % 8) then x.hi else x.lo)

/-- DDORD, R353. -/
def ddOrder (s : State) (en : Nat) (k : Taken) : DdEnd × State :=
  if (s.ddEngine en).nodes ≠ [] then (.value ddInUse, s)
  else
    match s.ddRead (en / 2) k (pieces 3 k.b.toNat 8192) with
    | (.error x, s) => (.cause x.1 (word x.2), s)
    | (.ok image, s) =>
      let vs := (List.range ddLevels).map fun l => image / 2 ^ (16 * l) % 4096
      let seen : Nat := vs.foldl (fun x v => x ||| 2 ^ v) 0
      if seen ≠ 2 ^ ddLevels - 1 then (.value ddShape, s)
      else
        let order := ((List.range ddLevels).map fun l => (l, image / 2 ^ (16 * l) % 4096)).filter fun x => x.1 != x.2
        (.value 0, s.setDd en { s.ddEngine en with order := order, cache := [] })

/-- k of DDEXP and DDIMP, and the bytes of a tile, R354. -/
def tileVars (a : Word) : Nat := (a.extractLsb' 32 4).toNat + 1
def tileBytes (k : Nat) : Nat := Max.max 1 (2 ^ k / 8)

/-- DDEXP, R354. -/
def ddExport (s : State) (en : Nat) (k : Taken) (f : Nat) : DdEnd × State :=
  let e := s.ddEngine en
  let v := tileVars k.a
  match s.ddCompute en fun e => e.touchAll (e.nodesOf f) fun e => (.ok (), e) with
  | (.error z, s) => (.cause z.1 z.2, s)
  | (.ok _, s) =>
    if (e.nodesOf f).any fun n => match e.node? n with | some x => decide (v ≤ x.var) | none => false then (.value ddShape, s)
    else
      let bm := e.bitmap f 0 (2 ^ v)
      match s.ddWrite (en / 2) k bm (pieces 2 k.b.toNat (tileBytes v)) with
      | (some x, s) => (.cause x.1 (word x.2), s)
      | (none, s) => (.value (word (onesOf bm (2 ^ v))), s)

/-- DDIMP, R354: the tile is read, and its diagram is built in the engine's order of levels. -/
def ddImport (s : State) (en : Nat) (k : Taken) : DdEnd × State :=
  let v := tileVars k.a
  match s.ddRead (en / 2) k (pieces 2 k.b.toNat (tileBytes v)) with
  | (.error x, s) => (.cause x.1 (word x.2), s)
  | (.ok bm, s) =>
    let vs := ((List.range v).foldl (fun o i => insertKey ((s.ddEngine en).lev i) i o) []).map (·.2)
    (.running (.of (.build bm vs 0)), s)

/-- DDSTAT, R356. -/
def ddStat (s : State) (en : Nat) (k : Taken) : DdEnd × State :=
  let e := s.ddEngine en
  let n := handleNode k.a
  let ofNode (f : DdNode → Word) (terminal : Word) : DdEnd × State :=
    if e.badHandle en k.a then (.cause 0x13 (k.a &&& 0xFFFFFFFF), s)
    else s.ddRun en (fun e => e.touch n fun e => (.ok (), e)) fun _ => .value (match e.node? n with | some x => f x | none => terminal)
  match k.b.toNat % 16 with
  | 0 => (.value (word e.nodes.length), s)
  | 1 => (.value (word (e.nodes.filter fun x => x.2.ref == 0).length), s)
  | 2 => (.value (word (nodeLimit - 2 - e.nodes.length)), s)
  | 3 => (.value (word e.gzth.toNat), s)
  | 4 => (.value e.hits, s)
  | 5 => (.value e.misses, s)
  | 6 => (.value e.colls, s)
  | 7 => (.value (word (e.lev (k.b.extractLsb' 16 12).toNat)), s)
  | 8 => (.value (word (e.ord (k.b.extractLsb' 16 12).toNat)), s)
  | 9 => ofNode (fun x => word x.ref) 0xFFFF
  | 10 => ofNode (fun x => word x.var) (word ddLevels)
  | 11 => ofNode (fun x => handleOf en x.lo) 0
  | 12 => ofNode (fun x => handleOf en x.hi) 0
  | 13 => (.value e.ctl, s)
  | _ => (.value ddShape, s)

/-- DDCOLL, R353. Form 1 writes every node afresh, so that no error is left in one (DEDUCED). -/
def ddColl (s : State) (en : Nat) (k : Taken) : DdEnd × State :=
  let e := s.ddEngine en
  match k.a.toNat % 4 with
  | 0 => s.ddRun en (fun e => e.collect []) fun n => .value (word n)
  | 1 => (.value 0, s.setDd en { e with nodes := [], cache := [], fail := false, bad := [], weak := [] })
  | 2 => (.value 0, s.setDd en { e with gzth := BitVec.ofNat 24 (Min.min (k.b.toNat % 2 ^ 24) (nodeLimit - 2)) })
  | _ => (.value ddShape, s)

/-- DDREF and DDDEREF, R353. -/
def ddRefer (s : State) (en n : Nat) (more : Bool) : DdEnd × State :=
  let e := s.ddEngine en
  s.ddRun en (fun e => if more then e.refer n else e.release n) fun _ =>
    .value (match e.node? n with
      | none => 0xFFFF
      | some x => if x.ref = 0xFFFF then 0xFFFF else if more then word (x.ref + 1) else if x.ref = 0 then ddNoRef else word (x.ref - 1))

/-! ## A word at the engine, R339, R346, R358 -/

/-- The word starts once its operands are good: what it computes at once, or its first node step. -/
def ddBody (s : State) (en : Nat) (k : Taken) : DdEnd × State :=
  let f := handleNode k.a
  let g := handleNode k.b
  let start (c : DdCall) : DdEnd × State := s.ddStep en k.ddNodes (.of c)
  match k.word with
  | .ddvar .. =>
    let v := (k.a.extractLsb' 0 12).toNat
    s.ddRun en (if k.a.getLsbD 12 then DdEngine.mkNode en (s.ddHeld en) v 1 0 else DdEngine.mkNode en (s.ddHeld en) v 0 1) .handle
  | .ddapply .. => start (.apply (k.a.extractLsb' 32 4).toNat f g)
  | .ddite .. => start (.ite f g (handleNode k.d))
  | .ddrest .. => s.ddRun en (fun e => e.cube (ddLevels + 2) g) fun c => if c = 1 then .running (.of (.rest false f g)) else .value ddShape
  | .ddex .. => s.ddRun en (fun e => e.cube (ddLevels + 2) g) fun c => if c = 1 then .running (.of (.rest true f g)) else .value ddShape
  | .ddwcnt .. => s.ddCount en k f
  | .ddeval .. => s.ddEval en k (ddLevels + 1) f
  | .ddref .. => s.ddRefer en f true
  | .ddderef .. => s.ddRefer en f false
  | .ddcollCollect .. | .ddcollReset .. | .ddcollThreshold .. => s.ddColl en k
  | .ddord .. => s.ddOrder en k
  | .ddswap .. =>
    let l := (k.b.extractLsb' 0 12).toNat
    if l = 4095 then (.value ddTooHigh, s) else s.ddRun en (DdEngine.swap en l) fun n => .value (word n)
  | .ddexp .. => s.ddExport en k f
  | .ddimp .. => s.ddImport en k
  | _ => s.ddStat en k

/-- The word is exempt from FAIL, R358. -/
def ddExempt (k : Taken) : Bool :=
  match k.word with
  | .ddstat .. => true
  | .ddcollCollect .. | .ddcollReset .. | .ddcollThreshold .. => k.a.toNat % 4 == 1
  | _ => false

/-- An engine performs a word that it begins, or takes the next node step of one. DESIGN CHOICE: CTXM comes before FAIL, and FAIL before the
handles. -/
def ddPerform (s : State) (k : Taken) : DdEnd × State :=
  let en := ddEngineOf k.a
  let e := s.ddEngine en
  if k.run.isNone && !e.ctxm.getLsbD k.ctx then (.cause 0x06 0, s)
  else if e.fail && !ddExempt k then
    let (v, s) := s.free
    (.cause 0x15 v, s)
  else
    match k.run with
    | some r => s.ddStep en k.ddNodes r
    | none =>
      match (ddHandles k.word k).find? fun x => e.badHandle en x with
      | some x => (.cause 0x13 (x &&& 0xFFFFFFFF), s)
      | none => s.ddBody en k

/-- The word has the engine to itself: a collection, and what waits as one does, R341 and R353. -/
def ddAlone (k : Taken) : Bool :=
  match k.word with
  | .ddcollCollect .. | .ddcollReset .. | .ddcollThreshold .. => decide (k.a.toNat % 4 < 2)
  | .ddord .. | .ddswap .. => true
  | _ => false

/-- No word that came earlier keeps the word waiting: one that is alone waits for every such word, and every later word waits for it. -/
def ddTurn (s : State) (k : Taken) : Bool :=
  (s.ddWords (ddEngineOf k.a)).all fun j => decide (k.order ≤ j.order) || !(ddAlone k || ddAlone j)

/-- DD_WORD_COMPLETE: the engine goes on with a word that it holds. -/
def ddComplete (s : State) (t n : Nat) : State :=
  match s.takenBy t n with
  | none => s
  | some k =>
    match k.pair with
    | some (0x20, _) =>
      if !s.ddTurn k then s
      else
        let (r, s) := s.ddPerform k
        s.endDd t n (ddEngineOf k.a) r
    | _ => s

/-! ## Issue, R346 -/

/-- A word issues once its own checks pass: an aligned address in b where `aligned` asks for it, and supervisor state. -/
def ddWord (s : State) (i : Instr) (d a b : SReg) (y : Sync) (aligned sup : Bool) : State :=
  if aligned && (s.reg b).toNat % 8 != 0 then s.raise 0x03 (s.reg b)
  else if sup && !s.cur.sup then s.raise 0x06 0
  else s.gated 0x20 y (s.takeSynced 0x20 y (s.takenWord i d a b 0) .engine)

/-- DDCOLL issues: forms 1 and 2 need supervisor state. -/
def ddCollWord (s : State) (i : Instr) (d a b : SReg) (y : Sync) : State :=
  s.ddWord i d a b y false ((s.reg a).toNat % 4 == 1 || (s.reg a).toNat % 4 == 2)

end State

def execDdvar (d a : SReg) (y : Sync) (s : State) : Out := .next (s.ddWord (.ddvar d a y) d a 0 y false false)
def execDdapply (d a b : SReg) (y : Sync) (s : State) : Out := .next (s.ddWord (.ddapply d a b y) d a b y false false)
def execDdite (d a b : SReg) (y : Sync) (s : State) : Out := .next (s.ddWord (.ddite d a b y) d a b y false false)
def execDdrest (d a b : SReg) (y : Sync) (s : State) : Out := .next (s.ddWord (.ddrest d a b y) d a b y false false)
def execDdex (d a b : SReg) (y : Sync) (s : State) : Out := .next (s.ddWord (.ddex d a b y) d a b y false false)
def execDdwcnt (d a b : SReg) (y : Sync) (s : State) : Out := .next (s.ddWord (.ddwcnt d a b y) d a b y (!(s.reg b).getLsbD 0) false)
def execDdeval (d a b : SReg) (y : Sync) (s : State) : Out := .next (s.ddWord (.ddeval d a b y) d a b y true false)
def execDdref (d a : SReg) (y : Sync) (s : State) : Out := .next (s.ddWord (.ddref d a y) d a 0 y false false)
def execDdderef (d a : SReg) (y : Sync) (s : State) : Out := .next (s.ddWord (.ddderef d a y) d a 0 y false false)
def execDdcollCollect (d a b : SReg) (y : Sync) (s : State) : Out := .next (s.ddCollWord (.ddcollCollect d a b y) d a b y)
def execDdcollReset (d a b : SReg) (y : Sync) (s : State) : Out := .next (s.ddCollWord (.ddcollReset d a b y) d a b y)
def execDdcollThreshold (d a b : SReg) (y : Sync) (s : State) : Out := .next (s.ddCollWord (.ddcollThreshold d a b y) d a b y)
def execDdord (d a b : SReg) (y : Sync) (s : State) : Out := .next (s.ddWord (.ddord d a b y) d a b y true true)
def execDdswap (d a b : SReg) (y : Sync) (s : State) : Out := .next (s.ddWord (.ddswap d a b y) d a b y false false)
def execDdexp (d a b : SReg) (y : Sync) (s : State) : Out := .next (s.ddWord (.ddexp d a b y) d a b y true false)
def execDdimp (d a b : SReg) (y : Sync) (s : State) : Out := .next (s.ddWord (.ddimp d a b y) d a b y true false)
def execDdstat (d a b : SReg) (y : Sync) (s : State) : Out := .next (s.ddWord (.ddstat d a b y) d a b y false false)
def execDdWordComplete (tile tid : Nat) (s : State) : Out := settle (s.ddComplete tile tid)

end Sys2Proof.Machine
end

