-- ==== Sys2Proof/Machine/Emulation.lean ====
section
/-! DEFINITION. Atomic emulation on host, peer and far-tier memory, R379: the region controllers take cause 0x16 themselves. -/

namespace Sys2Proof.Machine

/-- The function code of R69 of an atomic word. -/
def atomicFn : Instr → Option Nat
  | .aadd .. => some 0
  | .aswp .. => some 1
  | .acas .. => some 2
  | .amin .. => some 3
  | .amax .. => some 4
  | .aand .. => some 5
  | .aor .. => some 6
  | .axor .. => some 7
  | _ => none

/-- The destination of an atomic, WAITV or WAKE. -/
def atomicDest : Instr → SReg
  | .aadd d .. | .aswp d .. | .acas d .. | .amin d .. | .amax d .. | .aand d .. | .aor d .. | .axor d .. | .waitv d .. | .wake d .. => d
  | _ => 0

/-- The lock of an emulated address. -/
def lockAddress (base a : Nat) : Nat := base + 8 * ((bitsOf a 14 3 ^^^ bitsOf a 26 15) % 4096)

namespace State

/-- The emulated word of `n` bytes at `a` with its lock: where both are, or the cause of the access that fails. DESIGN CHOICE: the lock lies in
device memory and comes first; R379 gives no cause for it, and its failure counts as one of the emulated access. -/
def emulated (s : State) (die c agent : Nat) (sup : Bool) (a n : Nat) : Except Nat ((Space × Nat) × (Space × Nat)) × State :=
  match s.probe die c (lockAddress (s.module.lockbase.toNat * 2 ^ 15) a) 8 { read := true, write := true, sup := true, near := true } with
  | (.error e, s) => (.error e, s)
  | (.ok lock, s) =>
    let s := s.atHome agent none lock.1 lock.2 8
    match (s.store lock.1).readCause lock.2 8 with
    | some e => (.error e, s)
    | none =>
      match s.probe die c a n { read := true, write := true, sup := sup, farOk := true } with
      | (.error e, s) => (.error e, s)
      | (.ok p, s) =>
        let s := s.atHome agent none p.1 p.2 n
        match (s.store p.1).readCause p.2 n with
        | some e => (.error e, s)
        | none => (.ok (lock, p), s.correct die p.1 p.2 n)

/-- The lock is free. -/
def lockFree (s : State) (lock : Space × Nat) : Bool := s.bytesAt lock.1 lock.2 8 == 0

/-- The lock is held by tile `i` of its launch while `k` is done, and then free again. -/
def underLock (s : State) (lock : Space × Nat) (agent i : Nat) (k : State → State) : State :=
  ((k (s.perform lock.1 lock.2 8 (i + 1))).fence agent 5).perform lock.1 lock.2 8 0

/-- A word of a task that its tile's region controller emulates ends: d is written and pc advances. -/
def endEmulated (s : State) (t n : Nat) (v : Word) : State :=
  s.modTile t fun T =>
    let k := T.task n
    match k.taken with
    | some w =>
      let k := (({ k with taken := none } : Task).setReg (atomicDest w.word) v).next
      let T := { T.setTask n k with retired := T.retired + 1 }
      -- a WAITV that ends by a release is an event of IDLE, R77
      match w with
      | { word := .waitv .., begun := 1, .. } => T.idleEvent
      | _ => T
    | none => T

/-- Its access has failed: the task raises the cause. -/
def failEmulated (s : State) (t n cause : Nat) (v : Word) : State :=
  let f := s.focus
  let s := (s.dropMonitor t n).modTile t fun T => T.modTask n fun k => { k with taken := none }
  { ({ s with focus := { f with tile := t, task := n } } : State).raise cause v with focus := f }

/-- A task whose WAITV is emulated and waits. -/
def pollsWord (s : State) (m : Monitor) : Bool :=
  let k := (s.tile m.tile).task m.tid
  k.state == .run && match k.taken with | some { word := .waitv .., begun := 1, .. } => true | _ => false

/-- The monitors that an emulated WAKE selects are released. -/
def releaseEmulated (s : State) (ms : List Monitor) : State :=
  let s := { s with monitors := s.monitors.filter fun m => !ms.contains m }
  ms.foldl (fun s m => if s.pollsWord m then s.endEmulated m.tile m.tid 0 else s.release m) s

/-- The word of a task performed under the lock, and its result; none where a WAITV goes on waiting. -/
def emulateWord (s : State) (t n : Nat) (k : Taken) (p : Space × Nat) : Option Word × State :=
  let m := word (s.bytesAt p.1 p.2 8)
  match atomicFn k.word, k.word with
  | some fn, _ =>
    (some m, match atomicNew fn m k.b k.d with | some v => s.perform p.1 p.2 8 v.toNat | none => s)
  | none, .waitv .. =>
    if m ≠ k.b then (some 1, s)
    else
      (none, { s.modTile t fun T => T.modTask n fun x => { x with taken := some { k with begun := 1 } } with
        monitors := s.monitors ++ [⟨p.1, p.2, t, n⟩] })
  | none, _ =>
    let ms := s.selectMonitors p.1 p.2 k.b
    (some (word ms.length), s.releaseEmulated ms)

/-- A task's atomic, WAITV or WAKE is emulated once its lock is free. -/
def emulateTask (s : State) (t n : Nat) : State :=
  let x := (s.tile t).task n
  match x.taken with
  | none => s
  | some k =>
    let mine := (atomicFn k.word).isSome || (match k.word with | .waitv .. | .wake .. => true | _ => false)
    if x.state ≠ .run ∨ k.cause.isSome = true ∨ k.begun ≠ 0 ∨ mine = false then s
    else
      match s.emulated (tileDie t) x.ctx.toNat (taskAgent t n) k.sup k.a.toNat 8 with
      | (.error e, s) => s.failEmulated t n e k.a
      | (.ok (lock, p), s) =>
        if !s.lockFree lock then s
        else
          let s := s.perform lock.1 lock.2 8 ((s.launchOf t x.ctx.toNat).2 + 1)
          let (v, s) := s.emulateWord t n k p
          let s := (s.fence (taskAgent t n) 5).perform lock.1 lock.2 8 0
          match v with
          | some v => s.endEmulated t n v
          | none => s

/-- An element's OUPD is emulated once its lock is free: its result is emitted and V is cleared. -/
def emulateUpdate (s : State) (g id : Nat) : State :=
  match (s.elem g).fault, s.request? g id with
  | some f, some q =>
    if f.cause ≠ 0x16 ∨ f.req ≠ some id then s
    else
      let n := q.span.1
      match s.emulated (tileDie (gidTile g)) q.ctx (elemAgent g) false q.a0 n with
      | (.error e, s) => s.tick.modElem g fun x => { x with fault := some { f with cause := e, val := word q.a0, ord := s.serial } }
      | (.ok (lock, p), s) =>
        if !s.lockFree lock then s
        else
          let m := s.bytesAt p.1 p.2 n
          let s := s.underLock lock (elemAgent g) (s.launchOf (gidTile g) q.ctx).2 fun s =>
            match q.ownerNew m with
            | some v => s.performFor q.ctx p.1 p.2 n v
            | none => s
          (s.answer g q (q.ownerReply m (q.ownerNew m).isSome)).clearFault g q.ctx
  | _, _ => s

/-- EMULATED_WAITV_POLL: the word is read again; the task goes on once it differs. -/
def pollWord (s : State) (t n : Nat) : State :=
  let x := (s.tile t).task n
  match x.taken with
  | some { word := .waitv .., begun := 1, a := a, b := b, sup := sup, .. } =>
    if x.state ≠ .run then s
    else
      match s.probe (tileDie t) x.ctx.toNat a.toNat 8 { read := true, write := true, sup := sup, farOk := true } with
      | (.error e, s) => s.failEmulated t n e a
      | (.ok p, s) =>
        let s := s.atHome (taskAgent t n) none p.1 p.2 8
        match (s.store p.1).readCause p.2 8 with
        | some e => s.failEmulated t n e a
        | none => if word (s.bytesAt p.1 p.2 8) = b then s else (s.dropMonitor t n).endEmulated t n 0
  | _ => s

end State

/-- ATOMIC_EMULATION, R379. -/
def execAtomicEmulation (r : Requester) (s : State) : Out :=
  settle (match r with
    | .task t n => s.emulateTask t n
    | .element g id => s.emulateUpdate g id)
def execEmulatedWaitvPoll (tile tid : Nat) (s : State) : Out := settle (s.pollWord tile tid)

end Sys2Proof.Machine
end

