-- ==== Sys2Proof/Machine/Guards.lean ====
section
/-! DEFINITION. Majors 0x0E–0x10: compares, guard logic, select and guard transfer, R62–R64. -/

namespace Sys2Proof.Machine

def execCeq (q : QReg) (a b : SReg) (s : State) : Out := .next (s.writeGuard q (condEq (s.reg a) (s.reg b)))
def execCne (q : QReg) (a b : SReg) (s : State) : Out := .next (s.writeGuard q (condNe (s.reg a) (s.reg b)))
def execClt (q : QReg) (a b : SReg) (s : State) : Out := .next (s.writeGuard q (condLt (s.reg a) (s.reg b)))
def execCle (q : QReg) (a b : SReg) (s : State) : Out := .next (s.writeGuard q (condLe (s.reg a) (s.reg b)))
def execClts (q : QReg) (a b : SReg) (s : State) : Out := .next (s.writeGuard q (condLts (s.reg a) (s.reg b)))
def execCles (q : QReg) (a b : SReg) (s : State) : Out := .next (s.writeGuard q (condLes (s.reg a) (s.reg b)))
def execCbit (q : QReg) (a b : SReg) (s : State) : Out := .next (s.writeGuard q (condBit (s.reg a) (s.reg b)))
def execCz (q : QReg) (a : SReg) (s : State) : Out := .next (s.writeGuard q (condZero (s.reg a)))

def execQand (d a b : QReg) (s : State) : Out := .next (s.writeGuard d (s.cur.guard a && s.cur.guard b))
def execQor (d a b : QReg) (s : State) : Out := .next (s.writeGuard d (s.cur.guard a || s.cur.guard b))
def execQxor (d a b : QReg) (s : State) : Out := .next (s.writeGuard d (xor (s.cur.guard a) (s.cur.guard b)))
def execQnot (d a : QReg) (s : State) : Out := .next (s.writeGuard d (!s.cur.guard a))
def execQset (d : QReg) (b : Bool) (s : State) : Out := .next (s.writeGuard d b)
def execQmov (d a : QReg) (s : State) : Out := .next (s.writeGuard d (s.cur.guard a))

/-- d := a when the guard holds; otherwise R20 applies, R64. -/
def execSel (d a : SReg) (g : BitVec 4) (s : State) : Out := .next (s.guarded g (s.writeReg d (s.reg a)))
def execQrd (d : SReg) (s : State) : Out := .next (s.writeReg d s.cur.guardWord)
/-- q(n) := bit n of a for n = 1–7, R64. -/
def execQwr (a : SReg) (s : State) : Out := .next (s.retire fun k => { k with guards := (s.reg a).setWidth 8 })

end Sys2Proof.Machine
end

