-- ==== Sys2Proof/Machine/Launches.lean ====
section
/-! DEFINITION. Launch queues (R385), the scheduler (R121), the allocator and placement (R122, R209, R210). -/

namespace Sys2Proof.Machine

/-! ## Queue descriptors, R385 -/

def qdTail (q : BitVec 128) : Nat := (q.extractLsb' 96 32).toNat
def qdPull (q : BitVec 128) : Nat := (q.extractLsb' 64 32).toNat
def qdBad (q : BitVec 128) : Nat := (q.extractLsb' 56 8).toNat
def qdBase (q : BitVec 128) : Nat := (q.extractLsb' 12 44).toNat * 4096
def qdRemote (q : BitVec 128) : Bool := q.getLsbD 8
def qdCtx (q : BitVec 128) : Nat := (q.extractLsb' 6 2).toNat
def qdOn (q : BitVec 128) : Bool := q.getLsbD 5
def qdRecords (q : BitVec 128) : Nat := 2 ^ (q.extractLsb' 0 5).toNat

/-- A write of TAIL is ignored: more records than the ring holds would wait. -/
def tailIgnored (q : BitVec 128) (t : Nat) : Bool := decide (qdRecords q < (t + 2 ^ 32 - qdPull q) % 2 ^ 32)
/-- The descriptor after a write of TAIL. -/
def writeTail (q : BitVec 128) (t : Nat) : BitVec 128 :=
  if tailIgnored q t then putBits q 56 8 (Min.min 255 (qdBad q + 1)) else putBits q 96 32 t
/-- The descriptor after a host write of `v`: its RW fields, then TAIL. -/
def writeQdesc (q : BitVec 128) (v : Nat) : BitVec 128 :=
  writeTail (putBits (putBits q 12 44 (v / 4096)) 0 9 v) (v / 2 ^ 96 % 2 ^ 32)

namespace State

def queue (s : State) (die q : Nat) : BitVec 128 := SMap.getD (s.mgmtOf die).qdesc q 0
def setQueue (s : State) (die q : Nat) (v : BitVec 128) : State :=
  s.modMgmt die fun m => { m with qdesc := SMap.set m.qdesc q v }

/-- `n` bytes that the scheduler or the allocator of a die reads for context `c`; none where a page or a byte cannot be read. -/
def ownRead (s : State) (die c va n : Nat) : Option Nat × State :=
  match s.probeAll die c { read := true, sup := true } (pieces 2 va n) with
  | (.error _, s) => (none, { s with absent := none })
  | (.ok ps, s) =>
    let s := ps.foldl (fun s p => s.callBack none p.1 p.2.1 p.2.2) s
    match s.piecesCause ps with
    | some _ => (none, s)
    | none => (some (s.readPieces ps), s)

end State

/-! ## Launch records, R209 -/

def recordOf (r : Nat) : LaunchRec :=
  { id := bitsOf r 31 0, w := bitsOf r 39 32, h := bitsOf r 47 40, ctl := BitVec.ofNat 8 (bitsOf r 55 48), ring := bitsOf r 63 56,
    image := bitsOf r 127 64, text := bitsOf r 191 128, tsize := bitsOf r 223 192, dsize := bitsOf r 255 224, data := bitsOf r 319 256,
    rbase := bitsOf r 383 320, deps := bitsOf r 447 384, ndeps := bitsOf r 463 448, ql := BitVec.ofNat 8 (bitsOf r 471 464) }

/-- The limits of a record's fields. -/
def LaunchRec.ok (r : LaunchRec) : Bool :=
  r.id != 0 && 1 ≤ r.w && r.w ≤ 32 && 1 ≤ r.h && r.h ≤ 20 && 10 ≤ r.ring && r.ring ≤ 24 && r.tsize ≤ 32768 && r.dsize ≤ 32768
    && r.rbase % 65536 == 0 && r.ndeps ≤ 1024

namespace State

/-- The report of a launch that is cancelled, retired or not restored (R375, R381, R390); the fields that no rule gives it are free
values. -/
def orderReport (s : State) (die : Nat) (r : LaunchRec) (act cause : Nat) : State :=
  let (v, s) := s.free
  let (w, s) := s.free
  s.report die { val := v.toNat, lid := r.id, tidx := w.toNat, elem := w.toNat >>> 10, slot := w.toNat >>> 16, ctx := r.ctx,
                 src := w.toNat >>> 20, task := w.toNat >>> 22, lvl := 3, act := act, cause := cause }

/-- A pulled record joins the launches; one that breaks its limits, whose dependences cannot be read, or that a CANCEL has refused
completes with no tile having run. -/
def addLaunch (s : State) (die r : Nat) : State :=
  let x := recordOf r
  let (ds, s) := if x.ok && x.ndeps != 0 then s.ownRead die x.ctx x.deps (4 * x.ndeps) else (some 0, s)
  let deps := match ds with | some v => (List.range x.ndeps).map fun i => v / 2 ^ (32 * i) % 2 ^ 32 | none => []
  let refused := s.module.refused.contains x.id
  let good := x.ok && bitsOf r 511 472 == 0 && ds.isSome && !refused
  let l : Launch := { info := x, deps := deps, die := die, phase := if good then .waiting else .done, trig := !good }
  let s := { s with launches := SMap.set s.launches s.serial l }.tick
  (if refused then s.orderReport die x 3 0x1B else s).makeEligible

/-- SCHEDULER_PULL: the next record of an enabled queue is read and pulled, R385; one that cannot be read stays. -/
def pull (s : State) (die q : Nat) : State :=
  let v := s.queue die q
  if !qdOn v || qdPull v == qdTail v then s
  else
    match s.ownRead die (qdCtx v) (qdBase v + 64 * (qdPull v % qdRecords v)) 64 with
    | (none, s) => s
    | (some r, s) => (s.setQueue die q (putBits v 64 32 (qdPull v + 1))).addLaunch die r

/-! ## The scheduler, R121 -/

/-- A record's effective priority. -/
def effective (l : Launch) : Nat := Min.min 7 (l.info.prio.toNat + l.rises)

/-- PRIORITY_AGING: another 262,144 cycles of eligibility have passed. -/
def age (s : State) (die n : Nat) : State :=
  match s.launch n with
  | none => s
  | some l =>
    if l.phase = .eligible ∧ l.die = die ∧ 262144 * (l.rises + 1) ≤ ((s.tile (schedulerTile die)).cycle - l.since).toNat then
      s.modLaunch n fun l => { l with rises := l.rises + 1 }
    else s

/-- The eligible records of a die in the order in which they are considered, by their keys. -/
def considered (s : State) (die : Nat) : List (Nat × Launch) :=
  ((s.launches.filter fun x => x.2.phase == .eligible && x.2.die == die).foldl
    (fun l x => insertKey ((7 - effective x.2) * 2 ^ 64 + x.2.order) x l) []).map (·.2)

/-! ## The allocator, R122, R210 and R217 -/

/-- The allotments that an image gives the elements of body tile (`tx`, `ty`), read block by block. -/
def elemCaps (s : State) (die c va : Nat) : Nat → List (Nat × Nat)
  | 0 => []
  | k + 1 =>
    match (s.ownRead die c va 16).1 with
    | none => []
    | some h => (h % 64, bitsOf h 15 8) :: s.elemCaps die c (va + 16 + 8 * (imageRecs h).length) k
def tileCaps (s : State) (die c tx ty va : Nat) : Nat → List (Nat × Nat)
  | 0 => []
  | k + 1 =>
    match (s.ownRead die c va 8).1 with
    | none => []
    | some h =>
      (if h % 256 = tx ∧ bitsOf h 15 8 = ty then s.elemCaps die c (va + 8) (bitsOf h 23 16) else [])
        ++ s.tileCaps die c tx ty (va + bitsOf h 63 32) k
def imageCaps (s : State) (die c tx ty va : Nat) : List (Nat × Nat) :=
  match (s.ownRead die c va 16).1 with
  | none => []
  | some h => s.tileCaps die c tx ty (va + 16) (bitsOf h 63 48)

/-- The allotments that stand on element `e` of tile `t` beside context `c`: those of the contexts with a launch or a sheet there. -/
def otherCaps (s : State) (t c e : Nat) : Nat :=
  ((List.range 4).filter fun k => k != c && (((s.tile t).ctx k).launch.isSome || (s.tile t).inForce.contains (4 * elemSheet e + k))).foldl
    (fun n k => n + (s.ectx (64 * t + e) k).allot) 0

/-- The allotments of one element do not exceed its 64 entries, R217; an element that the image leaves out keeps what it has (R208). -/
def capsFit (s : State) (caps : List (Nat × Nat)) (t c : Nat) : Bool :=
  (List.range 64).all fun e => (SMap.getD caps e (s.ectx (64 * t + e) c).allot) + s.otherCaps t c e ≤ 64

/-- Launches of other contexts on a tile. -/
def residents (s : State) (t c : Nat) : List Launch := ((List.range 4).filter (· != c)).filterMap (s.launchAt t)

/-- The stores of a launch of another context may serve the record, R210 step 2. -/
def sharesImages (x y : LaunchRec) : Bool :=
  (x.text == 0 && x.data == 0) || (x.text == y.text && x.tsize == y.tsize && x.data == y.data && x.dsize == y.dsize)

/-- A tile is free for a record as body tile with allotments `caps`. -/
def tileFree (s : State) (x : LaunchRec) (caps : List (Nat × Nat)) (t : Nat) : Bool :=
  let T := s.tile t
  T.exposed && (T.ctx x.ctx).launch.isNone && (s.residents t x.ctx).all (fun l => sharesImages x l.info) && T.freeTask.isSome
    && s.capsFit caps t x.ctx

/-- Where a rectangle may lie: origins whose rectangle is on one die, then any other, by OY and then OX. -/
def origins (w h : Nat) : List (Nat × Nat) :=
  let all := (List.range (21 - h)).flatMap fun y => (List.range (33 - w)).map fun x => (x, y)
  let one (o : Nat × Nat) : Bool := tileDie (tileAt o.1 o.2) == tileDie (tileAt (o.1 + w - 1) (o.2 + h - 1))
  all.filter one ++ all.filter fun o => !one o

/-- The origin that the allocator chooses for a record, on none of the dies `held`. -/
def fitBeside (s : State) (held : List Nat) (l : Launch) : Option (Nat × Nat) :=
  let x := l.info
  let caps := (List.range (x.w * x.h)).map fun i => s.imageCaps l.die x.ctx (i % x.w) (i / x.w) x.image
  (origins x.w x.h).find? fun o =>
    ((rectangle o.1 o.2 x.w x.h).zip caps).all fun p => !held.contains (tileDie p.1) && s.tileFree x p.2 p.1

def fit (s : State) (l : Launch) : Option (Nat × Nat) := s.fitBeside [] l

/-- The dies other than `die` on which nothing is placed until a record of theirs fits: one that waits at effective priority 7. -/
def heldDies (s : State) (die : Nat) : List Nat :=
  (List.range 4).filter fun d => d != die && (s.considered d).any fun x => effective x.2 == 7 && (s.fit x.2).isNone

/-! ## Placement, R209 and R210 -/

/-- A store that a placement has written: its image from 0x0000, every other byte 0. -/
def imageStore (v n : Nat) : Store := { bytes := Memory.writeN [] 0 n v }

/-- The initial QUADLVL of a record, or 0 where R27 would ignore it (DESIGN CHOICE: R209 states no effect of such a QL). -/
def initialQuad (x : LaunchRec) : BitVec 4 × BitVec 4 :=
  let lw := x.ql.toNat % 16
  let lh := x.ql.toNat / 16
  if lw ≤ 5 ∧ lh ≤ 4 ∧ x.w % 2 ^ lw = 0 ∧ x.h % 2 ^ lh = 0 then (BitVec.ofNat 4 lw, BitVec.ofNat 4 lh) else (0, 0)

/-- A context of an element as a placement finds it: with its configuration, and without the sequences, frames and lowered loops of an
earlier launch (DEDUCED from R116, R117 and R218, which places a launch again). -/
def ElemCtx.renew (x : ElemCtx) : ElemCtx :=
  { x with reorders := [], turnB := [], loops := [], throttles := [], stopped := false, pastBkpt := none, ordinals := [], rootSeqs := [],
           lastRoot := 0, reroots := 0 }
def renewTile (s : State) (t c : Nat) : State :=
  (List.range 64).foldl (fun s e =>
    (s.modElem (64 * t + e) fun E => { E with frames := E.frames.filter fun k => k / 65536 != c }).modEctx (64 * t + e) c ElemCtx.renew) s

/-- One tile of a launch: its images, context registers, lead task, configuration and headers; none where the image is refused. -/
def placeTile (s : State) (n : Nat) (l : Launch) (text data : Option Nat) (marks : NSet) (t : Nat) : Option State :=
  let x := l.info
  let c := x.ctx
  let s := (if s.residents t c != [] then s else s.modTile t fun T =>
    let T := match text with | some v => { T with istore := imageStore v x.tsize, jrMarks := marks } | none => T
    match data with | some v => { T with dstore := imageStore v x.dsize } | none => T).renewTile t c
  match (s.tile t).freeTask with
  | none => none
  | some k =>
    let q := initialQuad x
    let p : Placed := ⟨n, BitVec.ofNat 5 k, BitVec.ofNat 5 x.h, BitVec.ofNat 6 x.w, BitVec.ofNat 5 l.oy, BitVec.ofNat 5 l.ox⟩
    let s := s.modTile t fun T =>
      let T := T.modCtx c fun r =>
        { r with launch := some p, prio := x.prio, lw := q.1, lh := q.2, trig := false, compl := false, arrivals := [], rounds := [] }
      let T := T.create k { ctx := BitVec.ofNat 2 c, sup := true, te := false } .ready .nothing
      { T with inForce := (List.range 4).foldl (fun m sh => NSet.insert m (4 * sh + c)) T.inForce }
    match s.loadImage t c c x.image with
    | (_, some _, _) => none
    | (_, none, s) => some ((s.folds.filter fun f => f.ctx == c && f.lay.scope != 2).foldl (fun s f => s.emptyTiles f.lay [t]) s)

def placeTiles (s : State) (n : Nat) (l : Launch) (text data : Option Nat) (marks : NSet) : List Nat → Option State
  | [] => some s
  | t :: r => (s.placeTile n l text data marks t).bind fun s => s.placeTiles n l text data marks r

/-- The blocks of a launch as the loader gives them, R118. -/
def placeBlocks (s : State) (l : Launch) (ts : List Nat) : State :=
  let at_ (e : Nat × Nat) : Nat × Nat := (64 * (ts.getD (e.1 / 64) 0) + e.1 % 64, e.2)
  let new := (Config.blockMarks s.fresh).map fun b =>
    { ctx := l.info.ctx, entry := at_ b.entry, exit := at_ b.exit, nodes := b.nodes.map at_, stores := b.stores.map at_ }
  { s with
    blocks := (s.blocks.filter fun b => b.ctx != l.info.ctx || !ts.contains (gidTile b.entry.1)) ++ new
    fresh := s.fresh + 1 }

/-- An image that is there is read; none where it cannot be. -/
def readImage (s : State) (l : Launch) (va n : Nat) : Option (Option Nat) × State :=
  if va = 0 then (some none, s)
  else
    match s.ownRead l.die l.info.ctx va n with
    | (some v, s) => (some (some v), s)
    | (none, s) => (none, s)

/-- A launch is placed at an origin, all tiles at once, with the DET value that it latches; one whose images cannot be used
completes with no tile having run. -/
def place (s : State) (n : Nat) (l : Launch) (o : Nat × Nat) : State :=
  let x := l.info
  let det := x.det || (x.mok && ((s.tile (tileAt o.1 o.2)).ctx x.ctx).det)
  let l := { l with phase := .running, ox := o.1, oy := o.2, det := det }
  let ts := rectangle o.1 o.2 x.w x.h
  let drop (s : State) : State := (s.modLaunch n fun l => { l with phase := .done, trig := true }).makeEligible
  match s.readImage l x.text x.tsize with
  | (none, s) => drop s
  | (some text, s) =>
    match s.readImage l x.data x.dsize with
    | (none, s) => drop s
    | (some data, s) =>
      let marks := ((Config.jumpMarks s.fresh).map (· % 32768)).foldl NSet.insert []
      match { s with fresh := s.fresh + 1, launches := SMap.set s.launches n l }.placeTiles n l text data marks ts with
      | none => { drop s with absent := none }
      | some s => { s.placeBlocks l ts with absent := none }

/-- Records before `n` in a list that do not fit, while none of them has effective priority 7; `held` as in `fitBeside`. -/
def mayPass (s : State) (held : List Nat) (n : Nat) : List (Nat × Launch) → Option (Launch × (Nat × Nat))
  | [] => none
  | (m, l) :: r =>
    match s.fitBeside held l with
    | some o => if m = n then some (l, o) else none
    | none => if m = n ∨ effective l = 7 then none else s.mayPass held n r

/-- ALLOCATOR_PLACE: the first record in order that fits is placed, on no die that a record of another scheduler holds (R122). -/
def allocate (s : State) (die n : Nat) : State :=
  match s.mayPass (s.heldDies die) n (s.considered die) with
  | some (l, o) => s.place n l o
  | none => s

end State

/-- QUEUE_TAIL_WRITE: the host's write over its link, or that of another module's QTAIL over a plane, which RQ and EN admit (R384–R387). -/
def execQueueTailWrite (die q : Nat) (tail : TailWrite) (s : State) : Out :=
  let v := s.queue die q
  .next (match tail with
    | .host t => if s.powered && !s.hostDown then s.setQueue die q (writeTail v t) else s
    | .module t =>
      if s.powered && decide (s.planesDown.length < 36) && qdRemote v && qdOn v then s.setQueue die q (writeTail v t) else s)
def execQdescWrite (die q value : Nat) (s : State) : Out := .next (s.fromHost fun s => s.setQueue die q (writeQdesc (s.queue die q) value))
def execSchedulerPull (die q : Nat) (s : State) : Out := .next (s.pull die q)
def execPriorityAging (die n : Nat) (s : State) : Out := .next (s.age die n)
def execAllocatorPlace (die n : Nat) (s : State) : Out := .next (s.allocate die n)

end Sys2Proof.Machine
end

