-- ==== Sys2Proof/Machine/Moves.lean ====
section
/-! DEFINITION. Launches killed by order (R375, R381, R390), launches moved by the allocator (R123), and tiles retired (R381, R403). -/

namespace Sys2Proof.Machine

namespace State

/-! ## Kills that no fault of the launch asked for -/

/-- A running launch is killed at the launch level with cause `cause`, R365; its report goes to the die of its origin. -/
def killLaunch (s : State) (n cause : Nat) : State :=
  match s.launch n with
  | none => s
  | some l =>
    let t := tileAt l.ox l.oy
    let s := s.killRegion { tile := t, ctx := l.info.ctx, src := .order, cause := cause, val := 0, level := .launch, phase := .killing }
    s.orderReport (tileDie t) l.info 2 cause

/-! ## Moves, R123 -/

/-- A launch has received a cause on one of its tiles and is frozen there. -/
def launchFrozen (s : State) (l : Launch) : Bool :=
  let c := l.info.ctx
  (rectangle l.ox l.oy l.info.w l.info.h).any fun t =>
    (List.range 64).any (fun e => (s.ectx (64 * t + e) c).stopped) || (match (s.node t).fault with | some f => f.ctx == c | none => false)
      || (List.range 32).any (fun k => ((s.tile t).task k).state == .frozen && ((s.tile t).task k).ctx.toNat == c)
      || s.searches.any fun x => x.tile == t && x.ctx == c

/-- Every admitted block instance of a launch is over and every edge of it is empty. -/
def launchDrained (s : State) (l : Launch) : Bool :=
  let c := l.info.ctx
  (rectangle l.ox l.oy l.info.w l.info.h).all fun t =>
    (s.insts.all fun i => i.block.ctx != c || i.tile != t)
      && (List.range 64).all fun e => (s.elem (64 * t + e)).edges.all (fun k => k.1 / 128 != c || k.2.beats == []) && (s.elem (64 * t + e)).busy == []

end State

/-- A task of context `c` is in the descriptor. -/
def Task.isIn (k : Task) (c : Nat) : Bool := k.state != .free && k.ctx.toNat == c

/-- The columns of a node that a move of context `c` takes along: those that it owns and those that hold its tasks' registers. -/
def movedColumns (T : Tile) (n : Node) (c : Nat) : List Nat :=
  (List.range 128).filter fun k =>
    match n.column k with
    | .owned o => o.toNat == c
    | .parked tid => (T.task tid).isIn c
    | .free => false

/-- Nothing on a tile stands in the way of what context `c` has on another: descriptors, banks, columns, switch entries. -/
def State.roomToMove (s : State) (c t u : Nat) : Bool :=
  let A := s.tile t
  let B := s.tile u
  B.exposed && (List.range 4).all (fun k => (B.ctx k).launch.isNone) && (List.range 32).all (fun k => !(B.task k).isIn c)
    && (List.range 4).all (fun sh => !B.inForce.contains (4 * sh + c))
    && (List.range 32).all (fun k =>
      !(A.task k).isIn c
        || ((B.task k).state == .free
          && match (A.task k).place with
            | .bank b => (List.range 32).all fun j => (B.task j).place != .bank b
            | _ => true))
    && (movedColumns A (s.node t) c).all (fun k => (s.node u).column k == .free)
    && (List.range 64).all fun e =>
      (s.elem (64 * t + e)).switch.all fun x => swCtx x.2 != c || (SMap.get? (s.elem (64 * u + e)).switch x.1).isNone

/-- The entries of one map that `f` selects, put into another. -/
def SMap.merge {α : Type} (f : Nat → α → Bool) (m n : SMap α) : SMap α :=
  (m.filter fun x => f x.1 x.2).foldl (fun n x => SMap.set n x.1 x.2) n

/-- A tile with what another tile holds of context `c`, and with its stores. -/
def Tile.receive (B A : Tile) (c : Nat) (p : Placed) : Tile :=
  let B := (List.range 32).foldl (fun B k => if (A.task k).isIn c then B.setTask k (A.task k) else B) B
  let B := B.modCtx c fun _ => { A.ctx c with launch := some p }
  { B with
    istore := A.istore
    dstore := A.dstore
    jrMarks := A.jrMarks
    overlay := A.overlay
    names := A.names
    channels := SMap.merge (fun k _ => k / 32 == c) A.channels B.channels
    held := B.held ++ A.held.filter fun b => b.tag.ctx.toNat == c
    down := SMap.merge (fun k _ => k / 32 == c) A.down B.down
    inForce := (A.inForce.filter fun k => k % 4 == c).foldl NSet.insert B.inForce
    chains := B.chains ++ A.chains.filter fun k => k.ctx == c
    pairs := SMap.merge (fun k _ => k / 64 == c) A.pairs B.pairs
    seq := Max.max A.seq B.seq }

/-- A tile without what it held of context `c`. -/
def Tile.vacate (A : Tile) (c : Nat) : Tile :=
  let A := (List.range 32).foldl (fun A k => if (A.task k).isIn c then A.setTask k {} else A) A
  let A := A.modCtx c fun _ => {}
  { A with
    channels := A.channels.filter fun x => x.1 / 32 != c
    held := A.held.filter fun b => b.tag.ctx.toNat != c
    down := A.down.filter fun x => x.1 / 32 != c
    inForce := A.inForce.filter fun k => k % 4 != c
    chains := A.chains.filter fun k => k.ctx != c
    pairs := A.pairs.filter fun x => x.1 / 64 != c }

/-- A count of a tile's cycles, read on a tile whose cycles are `d` ahead. -/
def Request.shift (q : Request) (d : BitVec 64) : Request :=
  match q.state with | .waiting since => { q with state := .waiting (since + d) } | _ => q

/-- An element with what another holds of context `c`, and with its memory; `d` as in `Request.shift`. -/
def Elem.receive (H G : Elem) (c : Nat) (d : BitVec 64) : Elem :=
  { H with
    switch := SMap.merge (fun _ w => swCtx w == c) G.switch H.switch
    store := G.store
    names := G.names
    frames := (G.frames.filter fun k => k / 65536 == c).foldl NSet.insert H.frames
    reqs := H.reqs ++ (G.reqs.filter fun q => q.ctx == c).map (·.shift d)
    edges := SMap.merge (fun k _ => k / 128 == c) G.edges H.edges
    ports := SMap.merge (fun k _ => k % 128 / 32 == c) G.ports H.ports
    waited := SMap.merge (fun k _ => k / 16 == c) G.waited H.waited
    seq := Max.max G.seq H.seq }

/-- An element without what it held of context `c`. -/
def Elem.vacate (G : Elem) (c : Nat) : Elem :=
  { G with
    switch := G.switch.filter fun x => swCtx x.2 != c
    frames := G.frames.filter fun k => k / 65536 != c
    reqs := G.reqs.filter fun q => q.ctx != c
    edges := G.edges.filter fun x => x.1 / 128 != c
    ports := G.ports.filter fun x => x.1 % 128 / 32 != c
    waited := G.waited.filter fun x => x.1 / 16 != c }

/-- A node with what another holds of context `c`; `cols` are the columns that move. -/
def Node.receive (B A : Node) (c : Nat) (cols : List Nat) : Node :=
  let mine (f : List Fed) : List Fed := f.filter fun x => x.token.tag.ctx.toNat == c
  { B with
    cells := SMap.merge (fun k _ => cols.contains (k % 128)) A.cells B.cells
    cols := cols.foldl (fun m k => SMap.set m k (A.column k)) B.cols
    ctxs := if h : c < 4 then B.ctxs.set c A.ctxs[c] else B.ctxs
    queue := B.queue ++ A.queue.filter fun e => e.tag.ctx.toNat == c
    fifos := A.fifos.foldl (fun m f => SMap.set m f.1 (SMap.getD m f.1 [] ++ mine f.2)) B.fifos }

def Node.vacate (A : Node) (c : Nat) (cols : List Nat) : Node :=
  { A with
    cells := A.cells.filter fun x => !cols.contains (x.1 % 128)
    cols := cols.foldl (fun m k => SMap.set m k .free) A.cols
    ctxs := if h : c < 4 then A.ctxs.set c {} else A.ctxs
    queue := A.queue.filter fun e => e.tag.ctx.toNat != c
    fifos := A.fifos.map fun f => (f.1, f.2.filter fun x => x.token.tag.ctx.toNat != c) }

namespace State

/-- What context `c` has on tile `t` goes to tile `u`, where `p` is its LAUNCH, R123 steps 2 and 3. -/
def moveTile (s : State) (c t u : Nat) (p : Placed) : State :=
  let s := s.settleTile t
  let A := s.tile t
  let d := (s.tile u).cycle - A.cycle
  let cols := movedColumns A (s.node t) c
  let s := (List.range 64).foldl (fun s e =>
    let g := 64 * t + e
    let h := 64 * u + e
    let G := s.elem g
    let x := s.ectx g c
    let s := (s.modElem h fun H => H.receive G c d).modElem g fun G => G.vacate c
    let s := s.modEctx h c fun _ =>
      { x with throttles := x.throttles.map fun l => (l.1, { l.2 with halved := l.2.halved + d, calm := l.2.calm + d }) }
    s.modEctx g c fun x => { slots := x.slots, legend := x.legend, consts := x.consts, allot := x.allot, high := x.high }) s
  let N := s.node t
  let s := (s.modNode u fun B => B.receive N c cols).modNode t fun A => A.vacate c cols
  let s := (s.modTile u fun B => B.receive A c p).modTile t fun A => A.vacate c
  let here (tid : Nat) : Bool := (A.task tid).isIn c
  { s with
    monitors := s.monitors.map fun m => if m.tile = t ∧ here m.tid = true then { m with tile := u } else m
    orphans := s.orphans.map fun o => if o.1 = t ∧ o.2.ctx = c then (u, o.2) else o }

/-- A launch moves to another origin: its tiles, its blocks, its routes and its LAUNCH; then its sources go on. -/
def moveLaunch (s : State) (n : Nat) (l : Launch) (ox oy : Nat) : State :=
  let c := l.info.ctx
  let ts := rectangle l.ox l.oy l.info.w l.info.h
  let dest (t : Nat) : Nat := tileAt (ox + (tileX t - l.ox)) (oy + (tileY t - l.oy))
  let s := ts.foldl (fun s t =>
    match ((s.tile t).ctx c).launch with
    | some p => s.moveTile c t (dest t) { p with ox := BitVec.ofNat 5 ox, oy := BitVec.ofNat 5 oy }
    | none => s) s
  let elem (e : Nat × Nat) : Nat × Nat := (64 * dest (gidTile e.1) + gidElem e.1, e.2)
  let move (b : Block) : Block :=
    if b.ctx = c ∧ ts.contains (gidTile b.entry.1) = true then
      { b with entry := elem b.entry, exit := elem b.exit, nodes := b.nodes.map elem, stores := b.stores.map elem }
    else b
  ({ s with blocks := s.blocks.map move } : State).modLaunch n fun l =>
    { l with ox := ox, oy := oy, moving := false, ended := (l.ended.map dest).foldl NSet.insert [] }

/-- A record that does not fit, although enough tiles are free, asks for a launch of no higher priority to move. DESIGN CHOICE: the launch's
own priority is compared with the effective (aged) priority of the record, which is what R121 ranks records by; R123 does not say which. -/
def moveAsked (s : State) (l : Launch) : Bool :=
  s.launches.any fun x =>
    x.2.phase == .eligible && (s.fit x.2).isNone && l.info.prio.toNat ≤ effective x.2
      && x.2.info.w * x.2.info.h ≤ (s.tiles.filter fun T => T.2.exposed && (T.2.ctx x.2.info.ctx).launch.isNone).length
          + (640 - s.tiles.length)

/-- COMPACTION: the allocator stops the sources of a launch and, once it has drained, moves it, R123. A launch that has frozen, or that
need not move any more, goes on where it is. -/
def compact (s : State) (n ox oy : Nat) : State :=
  match s.launch n with
  | none => s
  | some l =>
    let ts := rectangle l.ox l.oy l.info.w l.info.h
    let us := rectangle ox oy l.info.w l.info.h
    if l.phase ≠ .running ∨ l.saving = true then s
    else if s.launchFrozen l || !s.moveAsked l || decide (32 < ox + l.info.w) || decide (20 < oy + l.info.h) || us.any ts.contains
        || !(ts.zip us).all fun p => s.roomToMove l.info.ctx p.1 p.2 then s.modLaunch n fun l => { l with moving := false }
    else if l.moving && s.launchDrained l then s.moveLaunch n l ox oy
    else s.modLaunch n fun l => { l with moving := true }

/-! ## Retirement, R381 and R403 -/

/-- The die-relative index of a tile, R402, and the tile of an index. -/
def dieIndex (t : Nat) : Nat := 16 * (tileY t % 10) + tileX t % 16
def dieTile (die i : Nat) : Nat := tileAt (16 * (die % 2) + i % 16) (10 * (die / 2) + i / 16)

def physOf (m : Mgmt) (i : Nat) : Nat := SMap.getD m.phys i i
/-- The lowest physical tile that serves no logical tile and is not retired. -/
def nextSpare (m : Mgmt) : Nat :=
  ((List.range 168).find? fun p => !m.retired.contains p && (List.range 160).all fun i => physOf m i != p).getD 167

/-- Some state of a tile's launches cannot be read. -/
def unreadable (s : State) (t : Nat) : Bool :=
  let T := s.tile t
  T.istore.badEcc != [] || T.dstore.badEcc != [] || T.overlay.badEcc != [] || (List.range 32).any (fun k => (T.task k).bad)
    || (List.range 64).any fun e => (s.elem (64 * t + e)).store.badEcc != [] || (List.range 4).any fun c => (s.ectx (64 * t + e) c).bad

/-- Words with an error that their codes cannot correct hold free values from now on. -/
def refresh (s : State) (sp : Space) : State :=
  (s.store sp).badEcc.foldl (fun s u =>
    let (v, s) := s.free
    s.modStore sp fun x => { x with bytes := Memory.writeN x.bytes (8 * u) 8 v.toNat, badEcc := NSet.erase x.badEcc u }) s

/-- The spare takes over what the retired tile held; what could not be read is free values. -/
def useSpare (s : State) (t : Nat) : State :=
  let s := ((s.refresh (.instrStore t)).refresh (.dataStore t)).refresh (.overlay t)
  let s := (List.range 64).foldl (fun s e =>
    let s := s.refresh (.localMem (64 * t + e))
    (List.range 4).foldl (fun s c => if (s.ectx (64 * t + e) c).bad then s.modEctx (64 * t + e) c fun x => { x with bad := false } else s) s) s
  s.modTile t fun T =>
    (List.range 32).foldl (fun T k => if (T.task k).bad then T.modTask k fun k => { k with bad := false } else T) { T with errors := [] }

/-- A tile without a spare is gone: its tasks end and nothing of it acts any more. -/
def losesTile (s : State) (t : Nat) : State :=
  let s := (List.range 32).foldl (fun s n => if ((s.tile t).task n).state = .free then s else (s.orphan t n).freeTask t n) s
  let s := s.modTile t fun T => { tasks := T.tasks, cycle := T.cycle, halted := true, exposed := false }
  { s with elems := s.elems.filter fun e => gidTile e.1 != t, ectxs := s.ectxs.filter fun e => gidTile (e.1 / 4) != t, nodes := SMap.erase s.nodes t }

/-- TILE_RETIREMENT: the tile is retired; its launches go on on a spare, or are killed with cause 0x15. -/
def retireTile (s : State) (t : Nat) : State :=
  let die := tileDie t
  let m := s.mgmtOf die
  let i := dieIndex t
  let p := physOf m i
  let ns := (List.range 4).filterMap fun c => s.lidOf t c
  if (s.tile t).exposed = false ∨ (ns.any fun n => match s.launch n with | some l => l.saving | none => false) = true then s
  else
    let spare := decide (0 < m.spare)
    let lost := ns.filter fun n => !spare || s.unreadable t || (match s.launch n with | some l => s.launchFrozen l | none => false)
    let s := lost.foldl (fun s n => s.killLaunch n 0x15) s
    let s := s.modMgmt die fun m => { m with retired := NSet.insert m.retired p }
    if spare then
      (s.modMgmt die fun x => { x with spare := x.spare - 1, phys := SMap.set x.phys i (nextSpare x) }).useSpare t
    else
      let s := (s.losesTile t).modMgmt die fun m => { m with exposed := m.exposed - 1 }
      let s := (List.range 4).foldl (fun s d => s.modMgmt d fun m => { m with rr := true }) s
      s.message 1 die (retmap (s.mgmtOf die) / 2 ^ (64 * (p / 64)))

end State

def execCompaction (lid ox oy : Nat) (s : State) : Out := settle (s.compact lid ox oy)
def execTileRetirement (tile : Nat) (s : State) : Out := settle (s.retireTile tile)

end Sys2Proof.Machine
end

