-- ==== Sys2Proof/Machine/Host.lean ====
section
/-! DEFINITION. What reaches the device from outside: start-up (R399), the host window and the management registers (R290, R400–R404),
links (R384, R386), scrubbing (R377, R378), power and heat (R405). -/

namespace Sys2Proof.Machine

/-- A tile that is not in the exposed set, or that has no power: no task of it runs. -/
def idleTile (exposed : Bool) : Tile := { tasks := Vector.replicate 32 {}, halted := true, exposed := exposed }

/-- The management block of a die after self-test with some physical tiles retired, R399 steps 1 and 4: logical tiles are filled in
ascending order. -/
def startMgmt (retired : NSet) (rr : Bool) : Mgmt :=
  let good := (List.range 168).filter fun p => !retired.contains p
  let phys := ((List.range 160).zip good).filter fun x => x.1 != x.2
  { retired := retired, spare := good.length - 160, exposed := Min.min 160 good.length, phys := phys, rr := rr }

namespace State

/-- Self-test: which tiles of a die fail is a free choice; those that the flash records stay retired. -/
def selfTest (s : State) (die : Nat) : NSet × State :=
  (List.range 168).foldl (fun (x : NSet × State) p =>
    let (bad, s) := x.2.freeChoice
    (if bad then NSet.insert x.1 p else x.1, s)) ((s.mgmtOf die).retired, s)

/-- Tiles outside the exposed set are idle. -/
def hideTiles (s : State) : State :=
  (List.range 640).foldl (fun s t => if dieIndex t < (s.mgmtOf (tileDie t)).exposed then s else s.setTile t (idleTile false)) s

/-- Steps 1–5 of R399: everything is as reset leaves it, but for the flash record and what lies outside the module. -/
def startUp (s : State) : State :=
  let (r0, s) := s.selfTest 0
  let (r1, s) := s.selfTest 1
  let (r2, s) := s.selfTest 2
  let (r3, s) := s.selfTest 3
  let rr := [r0, r1, r2, r3].any fun r => (startMgmt r false).exposed < 160
  let b : State :=
    { host := s.host, peers := s.peers, fresh := s.fresh, turns := s.turns
      mgmt := [(0, startMgmt r0 rr), (1, startMgmt r1 rr), (2, startMgmt r2 rr), (3, startMgmt r3 rr)]
      module := { devkey := s.module.devkey } }
  if rr then b.hideTiles else b

/-- START_UP_COMPLETE: READY is set, and the message of kind 0 written. -/
def ready (s : State) : State :=
  if !s.powered || (s.mgmtOf 0).ready then s
  else ((List.range 4).foldl (fun s d => s.modMgmt d fun m => { m with ready := true }) s).message 0 0 s.module.devkey.toNat

/-! ## The host window, R290 and R400 -/

/-- A host write over the link: bytes of the node stores are discarded (R400), and those outside device memory too (DESIGN CHOICE). -/
def hostWrite (s : State) (a : Nat) (bs : List Byte) : State :=
  if s.hostDown || !s.powered then s
  else
    let bs := bs.take (hbmReach - a)
    let n := bs.length
    let v := bs.foldr (fun b v => b.toNat + 256 * v) 0
    (s.callBack none .hbm a n).perform .hbm a n v

/-- A host read over the link: lines that an element owns come back to memory, and correctable errors are corrected, on the die of the
first byte (DEDUCED). -/
def hostRead (s : State) (a n : Nat) : State :=
  if s.hostDown || !s.powered then s
  else
    let n := Min.min n (hbmReach - a)
    (s.callBack none .hbm a n).correct (a / 4096 % 8 / 2) .hbm a n

/-! ## Management registers -/

/-- The RW fields of a ring register, R332, R369 and R404. -/
def writeRing (r : BitVec 128) (v : Nat) : BitVec 128 := putBits (putBits (putBits r 96 32 (v / 2 ^ 96)) 12 44 (v / 4096)) 0 6 v

def writeTroot (s : State) (c v : Nat) : State :=
  let r : Troot := ⟨BitVec.ofNat 42 (v / 2 ^ 14), v % 2 == 1⟩
  { s with troot := if h : c < 4 then s.troot.set c r else s.troot }

/-- The RW fields of DDCTL, R339. -/
def writeDdctl (s : State) (k v : Nat) : State :=
  let e : DdEngine := SMap.getD s.dd k {}
  { s with dd := SMap.set s.dd k { e with gzth := BitVec.ofNat 24 (v / 2 ^ 32), ctxm := BitVec.ofNat 4 v } }

/-- The write of HALTREL.TILE resumes issue on a halted Surveyor, R402. -/
def writeHaltrel (s : State) (die v : Nat) : State :=
  let i := v % 256
  let t := dieTile die i
  if 160 ≤ i ∨ (s.tile t).halted = false then s
  else (s.modMgmt die fun m => { m with haltrel := BitVec.ofNat 8 i }).modTile t fun T => { T with halted := false }

/-- A write to any other register: PLIM and LOCKBASE of die 0 take their fields. -/
def writeManagement (s : State) (die off v : Nat) : State :=
  if die ≠ 0 then s
  else if off = 0x10 then { s with module := { s.module with plim := BitVec.ofNat 16 v } }
  else if off = 0x38 then { s with module := { s.module with lockbase := BitVec.ofNat 41 (v / 2 ^ 15) } }
  else s

/-! ## Links, R384 and R386 -/

/-- The host link is down; its message, of a port number that no rule gives, cannot reach the host before the link is up again. -/
def linkDown (s : State) : State :=
  let (v, s) := s.free
  let (d, s) := s.free
  ({ s with hostDown := true } : State).message 4 (d.toNat % 4) v.toNat

def planeDown (s : State) (p : Nat) : State :=
  if s.planesDown.contains p then s
  else
    let (d, s) := s.free
    ({ s with planesDown := NSet.insert s.planesDown p } : State).message 4 (d.toNat % 4) p

/-! ## Scrubbing, R377 and R378 -/

/-- PATROL_SCRUB: correctable words of a sector are written back corrected; a sector with an uncorrectable error is marked and counted. -/
def scrub (s : State) (sp : Space) (a : Nat) : State :=
  let u := a / 32
  let (d, s) := s.free
  let die := match sp with
    | .hbm => a / 4096 % 8 / 2
    | .localMem g => tileDie (gidTile g)
    | .overlay t | .dataStore t | .instrStore t => tileDie t
    | _ => d.toNat % 4
  let s := s.correct die sp (32 * u) 32
  let marked := match sp with | .dataStore _ | .instrStore _ => false | _ => true
  if marked && (List.range 4).any fun i => (s.store sp).badEcc.contains (4 * u + i) then
    (s.modStore sp fun x => { x with poison := NSet.insert x.poison u, badEcc := x.badEcc.filter fun w => w / 4 != u }).modMgmt die fun m =>
      { m with ue := if m.ue = 0xFFFFFFFF then m.ue else m.ue + 1 }
  else s

/-! ## Power and heat, R405 -/

/-- The limit that LIM sets. -/
def powerLimit (s : State) : Nat := Max.max 0x2580 (Min.min 0x4B00 s.module.plim.toNat)

/-- TEMP with its DIE field chosen by `f` from a free value. -/
def setTemp (s : State) (die : Nat) (f : Nat → Nat) : State :=
  let (v, s) := s.free
  s.modMgmt die fun m => { m with temp := v.extractLsb' 8 8 ++ BitVec.ofNat 8 (f (v.toNat % 256)) }

/-- THERMAL_THROTTLE: module power `p` above the limit sets PCAP on every die; otherwise the die has reached 100 °C and THR is set.
The message of kind 2 follows the change that it reports (DEDUCED). -/
def throttle (s : State) (die p : Nat) : State :=
  let hot := !decide (s.powerLimit < p % 65536)
  let s :=
    if hot then (s.setTemp die fun v => Max.max 100 v).modMgmt die fun m => { m with thr := true }
    else (List.range 4).foldl (fun s d => s.modMgmt d fun m => { m with pcap := true })
      { s with module := { s.module with power := BitVec.ofNat 16 p } }
  s.message 2 die (s.mgmtOf die).temp.toNat

/-- Issue cycles of a die are withheld. -/
def withheld (s : State) (die : Nat) : Bool := (s.mgmtOf die).thr || (s.mgmtOf die).pcap

/-- THERMAL_THROTTLE_LEFT: the conditions of a die have been clear for 1 ms. -/
def throttleLeft (s : State) (die : Nat) : State :=
  if !s.withheld die then s
  else
    let s := (s.setTemp die fun v => v % 100).modMgmt die fun m => { m with thr := false }
    let (v, s) := s.free
    let s := (List.range 4).foldl (fun s d => s.modMgmt d fun m => { m with pcap := false })
      { s with module := { s.module with power := BitVec.ofNat 16 (v.toNat % (s.powerLimit + 1)) } }
    s.message 2 die (s.mgmtOf die).temp.toNat

/-- THERMAL_SHUTDOWN: every Surveyor halts, and the message of kind 3 is written. -/
def shutDown (s : State) (die : Nat) : State :=
  let s := s.setTemp die fun v => Max.max 110 v
  let s := (List.range 640).foldl (fun s t => s.modTile t fun T => { T with halted := true }) s
  ({ s with shutdown := true } : State).message 3 die (s.mgmtOf die).temp.toNat

/-- POWER_REMOVAL: the module is without power; what it held is lost. -/
def removePower (s : State) : State :=
  if !s.shutdown then s
  else
    { tiles := (List.range 640).map fun t => (t, idleTile (s.tile t).exposed)
      host := s.host, peers := s.peers, fresh := s.fresh, turns := s.turns, powered := false
      mgmt := s.mgmt.map fun m => (m.1, { retired := m.2.retired, spare := m.2.spare, exposed := m.2.exposed, phys := m.2.phys })
      module := { devkey := s.module.devkey } }

end State

/-- POWER_ON, R399. -/
def execPowerOn (s : State) : Out := .next s.startUp
/-- MRESET, R399 and R402: a host write of GO = 1. -/
def execMreset (s : State) : Out := .next (s.fromHost State.startUp)
def execStartUpComplete (s : State) : Out := .next s.ready
def execHostMemoryWrite (addr : Nat) (bytes : List Byte) (s : State) : Out := .next (s.hostWrite addr bytes)
def execHostMemoryRead (addr n : Nat) (s : State) : Out := .next (s.hostRead addr n)
def execTrootWrite (ctx value : Nat) (s : State) : Out := .next (s.fromHost fun s => s.writeTroot ctx value)
def execEgringWrite (die value : Nat) (s : State) : Out :=
  .next (s.fromHost fun s => s.modMgmt die fun m => { m with egring := State.writeRing m.egring value })
def execFltringWrite (die value : Nat) (s : State) : Out :=
  .next (s.fromHost fun s => s.modMgmt die fun m => { m with fltring := State.writeRing m.fltring value })
def execMsgringWrite (value : Nat) (s : State) : Out :=
  .next (s.fromHost fun s => { s with module := { s.module with msgring := State.writeRing s.module.msgring value } })
def execDdctlWrite (die e value : Nat) (s : State) : Out := .next (s.fromHost fun s => s.writeDdctl (2 * die + e) value)
def execHaltrel (die value : Nat) (s : State) : Out := .next (s.fromHost fun s => s.writeHaltrel die value)
def execDevstatRrClear (die : Nat) (s : State) : Out := .next (s.fromHost fun s => s.modMgmt die fun m => { m with rr := false })
def execManagementRegisterWrite (die offset value : Nat) (s : State) : Out :=
  .next (s.fromHost fun s => s.writeManagement die offset value)
/-- LINK_FLIT_RESEND, R384: a flit is sent again; nothing that the link carries changes. -/
def execLinkFlitResend (_link : Nat) (s : State) : Out := .next s
def execLinkDown (_link : Nat) (s : State) : Out := .next s.linkDown
def execPlaneDown (plane : Nat) (s : State) : Out := .next (s.planeDown plane)
def execPatrolScrub (sp : Space) (addr : Nat) (s : State) : Out := .next (s.scrub sp addr)
def execThermalThrottle (die power : Nat) (s : State) : Out := .next (s.throttle die power)
def execThermalThrottleLeft (die : Nat) (s : State) : Out := .next (s.throttleLeft die)
def execThermalShutdown (die : Nat) (s : State) : Out := .next (s.shutDown die)
def execPowerRemoval (s : State) : Out := .next s.removePower

end Sys2Proof.Machine
end

