-- ==== Sys2Proof/Machine/Integer.lean ====
section
/-! DEFINITION. Majors 0x01–0x0D: the integer and immediate words, R59–R61. None of them traps. -/

namespace Sys2Proof.Machine

/-! ## What the words compute, R59 -/

/-- The low 32 bits sign-extended, R59. -/
def w32 (x : Word) : Word := sextWord 32 x
/-- DIV: all ones when dividing by zero. -/
def divWord (a b : Word) : Word := if b = 0 then BitVec.allOnes 64 else a / b
/-- DIVS: trunc(sa / sb) with the results of R59 for zero and for overflow. -/
def divsWord (a b : Word) : Word := if b = 0 then BitVec.allOnes 64 else wrap64 (a.toInt.tdiv b.toInt)
def remWord (a b : Word) : Word := if b = 0 then a else a % b
def remsWord (a b : Word) : Word := if b = 0 then a else wrap64 (a.toInt - b.toInt * a.toInt.tdiv b.toInt)
def mulhWord (a b : Word) : Word := BitVec.ofNat 64 (a.toNat * b.toNat / 2 ^ 64)
def mulhsWord (a b : Word) : Word := wrap64 (a.toInt * b.toInt / 2 ^ 64)
def shaWord (a : Word) (n : Nat) : Word := a.sshiftRight n
def rolWord (a b : Word) : Word := a.rotateLeft (b.toNat % 64)
def rorWord (a b : Word) : Word := a.rotateRight (b.toNat % 64)
def minWord (a b : Word) : Word := if a.ult b then a else b
def maxWord (a b : Word) : Word := if a.ult b then b else a
def minsWord (a b : Word) : Word := if a.slt b then a else b
def maxsWord (a b : Word) : Word := if a.slt b then b else a

/-- The number of zero bits of `x` from bit `i − 1` down to the first 1, of at most `i`. -/
def leadingFrom (x : Nat) : Nat → Nat
  | 0 => 0
  | i + 1 => if x.testBit i then 0 else 1 + leadingFrom x i
/-- The number of zero bits of `x` from bit `i` up to the first 1, of at most `n`. -/
def trailingFrom (x : Nat) (i : Nat) : Nat → Nat
  | 0 => 0
  | n + 1 => if x.testBit i then 0 else 1 + trailingFrom x (i + 1) n
/-- The number of 1 bits below bit `n`. -/
def onesBelow (x : Nat) : Nat → Nat
  | 0 => 0
  | n + 1 => (if x.testBit n then 1 else 0) + onesBelow x n
/-- The low `n` bits of `x` in the opposite order. -/
def reverseBits (x : Nat) : Nat → Nat
  | 0 => 0
  | n + 1 => (if x.testBit 0 then 2 ^ n else 0) + reverseBits (x / 2) n
/-- The low `n` bytes of `x` in the opposite order. -/
def reverseBytes (x : Nat) : Nat → Nat
  | 0 => 0
  | n + 1 => x % 256 * 256 ^ n + reverseBytes (x / 256) n

def clzWord (a : Word) : Word := word (leadingFrom a.toNat 64)
def ctzWord (a : Word) : Word := word (trailingFrom a.toNat 0 64)
def popcWord (a : Word) : Word := word (onesBelow a.toNat 64)
def brevWord (a : Word) : Word := word (reverseBits a.toNat 64)
def bswapWord (a : Word) : Word := word (reverseBytes a.toNat 8)
/-- SHLW: sext(zext(a, 32) << (b mod 32), 32). -/
def shlwWord (a b : Word) : Word := w32 (a <<< (b.toNat % 32))

/-! ## Major 0x01 -/

def execAdd (d a b : SReg) (s : State) : Out := .next (s.writeReg d (s.reg a + s.reg b))
def execSub (d a b : SReg) (s : State) : Out := .next (s.writeReg d (s.reg a - s.reg b))
def execMul (d a b : SReg) (s : State) : Out := .next (s.writeReg d (s.reg a * s.reg b))
def execMulh (d a b : SReg) (s : State) : Out := .next (s.writeReg d (mulhWord (s.reg a) (s.reg b)))
def execMulhs (d a b : SReg) (s : State) : Out := .next (s.writeReg d (mulhsWord (s.reg a) (s.reg b)))
def execDiv (d a b : SReg) (s : State) : Out := .next (s.writeReg d (divWord (s.reg a) (s.reg b)))
def execDivs (d a b : SReg) (s : State) : Out := .next (s.writeReg d (divsWord (s.reg a) (s.reg b)))
def execRem (d a b : SReg) (s : State) : Out := .next (s.writeReg d (remWord (s.reg a) (s.reg b)))
def execRems (d a b : SReg) (s : State) : Out := .next (s.writeReg d (remsWord (s.reg a) (s.reg b)))
def execAnd (d a b : SReg) (s : State) : Out := .next (s.writeReg d (s.reg a &&& s.reg b))
def execOr (d a b : SReg) (s : State) : Out := .next (s.writeReg d (s.reg a ||| s.reg b))
def execXor (d a b : SReg) (s : State) : Out := .next (s.writeReg d (s.reg a ^^^ s.reg b))
def execAndn (d a b : SReg) (s : State) : Out := .next (s.writeReg d (s.reg a &&& ~~~(s.reg b)))
def execOrn (d a b : SReg) (s : State) : Out := .next (s.writeReg d (s.reg a ||| ~~~(s.reg b)))
def execShl (d a b : SReg) (s : State) : Out := .next (s.writeReg d (s.reg a <<< ((s.reg b).toNat % 64)))
def execShr (d a b : SReg) (s : State) : Out := .next (s.writeReg d (s.reg a >>> ((s.reg b).toNat % 64)))
def execSha (d a b : SReg) (s : State) : Out := .next (s.writeReg d (shaWord (s.reg a) ((s.reg b).toNat % 64)))
def execRol (d a b : SReg) (s : State) : Out := .next (s.writeReg d (rolWord (s.reg a) (s.reg b)))
def execRor (d a b : SReg) (s : State) : Out := .next (s.writeReg d (rorWord (s.reg a) (s.reg b)))
def execMin (d a b : SReg) (s : State) : Out := .next (s.writeReg d (minWord (s.reg a) (s.reg b)))
def execMax (d a b : SReg) (s : State) : Out := .next (s.writeReg d (maxWord (s.reg a) (s.reg b)))
def execMins (d a b : SReg) (s : State) : Out := .next (s.writeReg d (minsWord (s.reg a) (s.reg b)))
def execMaxs (d a b : SReg) (s : State) : Out := .next (s.writeReg d (maxsWord (s.reg a) (s.reg b)))
def execClz (d a : SReg) (s : State) : Out := .next (s.writeReg d (clzWord (s.reg a)))
def execCtz (d a : SReg) (s : State) : Out := .next (s.writeReg d (ctzWord (s.reg a)))
def execPopc (d a : SReg) (s : State) : Out := .next (s.writeReg d (popcWord (s.reg a)))
def execBrev (d a : SReg) (s : State) : Out := .next (s.writeReg d (brevWord (s.reg a)))
def execBswap (d a : SReg) (s : State) : Out := .next (s.writeReg d (bswapWord (s.reg a)))
def execAddw (d a b : SReg) (s : State) : Out := .next (s.writeReg d (w32 (s.reg a + s.reg b)))
def execSubw (d a b : SReg) (s : State) : Out := .next (s.writeReg d (w32 (s.reg a - s.reg b)))
def execMulw (d a b : SReg) (s : State) : Out := .next (s.writeReg d (w32 (s.reg a * s.reg b)))
def execShlw (d a b : SReg) (s : State) : Out := .next (s.writeReg d (shlwWord (s.reg a) (s.reg b)))

/-! ## Majors 0x02–0x0D, R60 and R61 -/

def execAddi (d a : SReg) (imm : BitVec 12) (s : State) : Out := .next (s.writeReg d (s.reg a + sext12 imm))
def execAndi (d a : SReg) (imm : BitVec 12) (s : State) : Out := .next (s.writeReg d (s.reg a &&& sext12 imm))
def execOri (d a : SReg) (imm : BitVec 12) (s : State) : Out := .next (s.writeReg d (s.reg a ||| sext12 imm))
def execXori (d a : SReg) (imm : BitVec 12) (s : State) : Out := .next (s.writeReg d (s.reg a ^^^ sext12 imm))
def execShli (d a : SReg) (imm : BitVec 6) (s : State) : Out := .next (s.writeReg d (s.reg a <<< imm.toNat))
def execShri (d a : SReg) (imm : BitVec 6) (s : State) : Out := .next (s.writeReg d (s.reg a >>> imm.toNat))
def execShai (d a : SReg) (imm : BitVec 6) (s : State) : Out := .next (s.writeReg d (shaWord (s.reg a) imm.toNat))
def execMuli (d a : SReg) (imm : BitVec 12) (s : State) : Out := .next (s.writeReg d (s.reg a * sext12 imm))
def execMini (d a : SReg) (imm : BitVec 12) (s : State) : Out := .next (s.writeReg d (minsWord (s.reg a) (sext12 imm)))
def execMaxi (d a : SReg) (imm : BitVec 12) (s : State) : Out := .next (s.writeReg d (maxsWord (s.reg a) (sext12 imm)))
/-- sext(imm << 12, 29), R61. -/
def execLui (d : SReg) (imm : BitVec 17) (s : State) : Out := .next (s.writeReg d ((imm ++ 0#12).signExtend 64))
/-- (pc + 4 · sext(imm, 17)) mod 2^15, R61. -/
def execAddpc (d : SReg) (imm : BitVec 17) (s : State) : Out :=
  .next (s.writeReg d ((s.cur.pc + 4#15 * imm.signExtend 15).setWidth 64))

end Sys2Proof.Machine
end

