-- ==== Sys2Proof/Machine/Remote.lean ====
section
/-! DEFINITION. Major 0x24, R387–R390: tail writes, spawn packets and cancellation. Other modules of the pod are seen only by what
they answer. -/

namespace Sys2Proof.Machine

namespace State

/-! ## QTAIL, R387 -/

/-- The module that operand `a` of QTAIL names; none for this one. -/
def tailModule (a : Word) : Option Nat :=
  let m := a.toNat % 256
  if a.getLsbD 8 && m != Config.thisModule then some m else none

/-- QTAIL: FENCE.SYSTEM, then the link takes the word. -/
def qtail (s : State) (d a b : SReg) : State :=
  let v := s.reg a
  if v.getLsbD 8 && decide (191 < v.toNat % 256) then s.retire fun k => k.setReg d 3
  else
    match tailModule v with
    | some m =>
      if s.reachable (.peer m) then (s.fence s.curAgent 5).takePlain (s.takenWord (.qtail d a b) d a b 0)
      else s.raise 0x1D ((v.setWidth 16).setWidth 64)
    | none => (s.fence s.curAgent 5).takePlain (s.takenWord (.qtail d a b) d a b 0)

/-- The tail arrives at its queue; `resp` is the answer of another module. -/
def tailArrives (s : State) (k : Taken) (resp : Nat) : Word × State :=
  match tailModule k.a with
  | some _ => (word (resp % 4), s)
  | none =>
    let die := k.a.toNat / 512 % 4
    let q := k.a.toNat / 2048 % 16
    let v := s.queue die q
    let t := k.b.toNat % 2 ^ 32
    if k.a.getLsbD 8 && !qdRemote v then (3, s)
    else if !qdOn v then (2, s)
    else (if tailIgnored v t then 1 else 0, s.setQueue die q (writeTail v t))

/-! ## SPAWNAT, R388 -/

/-- The fields of a packet's 64 bytes. -/
def packetPc (r : Nat) : Nat := bitsOf r 47 32
def packetKind (r : Nat) : Nat := bitsOf r 55 48
def packetOp (r : Nat) : Nat := bitsOf r 63 56
def packetJob (r : Nat) : Nat := bitsOf r 95 64
def packetArg (r i : Nat) : Word := word (bitsOf r (191 + 64 * i) (128 + 64 * i))
/-- A KIND or a PC that names nothing, R388. DESIGN CHOICE: so does a PC of 0x8000 or more, and an OP that is no function of R69. -/
def packetBad (r : Nat) : Bool :=
  2 ≤ packetKind r || packetPc r % 4 != 0 || 0x8000 ≤ packetPc r || (packetKind r == 1 && 8 ≤ packetOp r)

/-- The packet of 64 bytes sent to an address, with its home and its job word. -/
def packetOf (r a : Nat) (home job : Space × Nat) : Packet :=
  { lid := bitsOf r 31 0, pc := BitVec.ofNat 16 (packetPc r), kind := packetKind r, op := packetOp r, job := packetJob r,
    args := (List.range 6).map (packetArg r), a := a, home := home, word := job }

/-- The owner of the device address of a spawn: its memory and address, or the cause, R388 step 2. Nothing is accessed there, and R396 lists
no cause 0x1D: a packet for a module that no plane reaches stays on its way. -/
def spawnOwner (s : State) (die c : Nat) (sup : Bool) (a : Nat) : Except Nat (Space × Nat) × State :=
  match s.translate die c a with
  | (none, s) => (.error 0x05, s)
  | (some l, s) =>
    let p := l.place a
    if Need.forbids { sup := sup } l a || p.1 == .host then (.error 0x06, s)
    else if !physExists p.1 p.2 1 then (.error 0x05, { s with absent := some p.2 })
    else (.ok p, s)

/-- SPAWNAT: the checks, then the link takes the word. -/
def spawnat (s : State) (d a b : SReg) : State :=
  let p := (s.reg b).toNat
  let r := s.here.dataRead p 64
  if p % 8 ≠ 0 then s.raise 0x03 (s.reg b)
  else if 0x8000 < p + 64 then s.raise 0x04 (s.reg b)
  else
    match s.spawnOwner s.curDie s.cur.ctx.toNat s.cur.sup (s.reg a).toNat with
    | (.error c, s) => s.raise c (s.reg a)
    | (.ok _, s) =>
      if packetKind r = 1 ∧ (s.reg a).toNat % 8 ≠ 0 then s.raise 0x03 (s.reg a)
      else if packetBad r then s.writeReg d (word (2 ^ 64 - 2))
      else s.takePlain (s.takenWord (.spawnat d a b) d a b r)

/-- The job word of a packet is incremented at its home, or the cause, R388 and R68: 0x03 where it is not aligned, and 0x06 where its page is not
one of device memory, each with its address (DEDUCED: R388 states the demand and no cause). R396 lists neither 0x14 nor 0x15: a word that cannot be
read stays as it is, and the packet leaves (DESIGN CHOICE). -/
def jobStart (s : State) (die c agent : Nat) (sup : Bool) (a : Nat) : Except Nat (Space × Nat) × State :=
  if a % 8 ≠ 0 then (.error 0x03, s)
  else
    match s.probe die c a 8 { read := true, write := true, sup := sup, near := true } with
    | (.error e, s) => (.error e, s)
    | (.ok (sp, pa), s) =>
      let s := s.atHome agent none sp pa 8
      match (s.store sp).readCause pa 8 with
      | some _ => (.ok (sp, pa), s)
      | none => (.ok (sp, pa), (s.correct die sp pa 8).perform sp pa 8 ((word (s.bytesAt sp pa 8) + 1).toNat))

/-- The spawn is dropped at its creation, or its job word is incremented and its packet sent. -/
def spawnSends (s : State) (t n : Nat) (k : Taken) : State :=
  let die := tileDie t
  let r := k.record
  if (s.mgmtOf die).cancel.contains (packetJob r) then s.endWord t n 1
  else
    match s.spawnOwner die k.ctx k.sup k.a.toNat with
    | (.error c, s) => s.failWord t n c k.a
    | (.ok home, s) =>
      match s.jobStart die k.ctx (taskAgent t n) k.sup (packetArg r 5).toNat with
      | (.error c, s) => s.failWord t n c (packetArg r 5)
      | (.ok job, s) =>
        ({ s with packets := s.packets ++ [packetOf r k.a.toNat home job] } : State).endWord t n 0

/-! ## Arrival of packets, R389 -/

/-- A packet has been dropped or has done its work: its job word is decremented. -/
def packetOver (s : State) (n : Nat) (p : Packet) : State := ({ s with packets := s.packets.eraseIdx n } : State).jobDone (some p.word)

/-- The atomic of a memory-side update at its home, which a word that cannot be read does not take (R68); the comparand of ACAS, which a packet
does not carry, is a free value. -/
def memorySide (s : State) (p : Packet) : State :=
  let (sp, a) := p.home
  let s := s.callBack none sp a 8
  let (c, s) := s.free
  match (s.store sp).readCause a 8 with
  | some _ => s
  | none =>
    match atomicNew p.op (word (s.bytesAt sp a 8)) (p.args.headD 0) c with
    | some v => s.perform sp a 8 v.toNat
    | none => s

/-- The running launch of an identifier. -/
def placedLaunch (s : State) (id : Nat) : Option Launch :=
  (s.launches.find? fun x => x.2.phase == .running && x.2.info.id == id).map (·.2)

/-- The task that a packet creates on its owner tile, whose s1–s6 start with its arguments. -/
def packetTask (p : Packet) (c : Nat) : Task :=
  let k : Task := { ctx := BitVec.ofNat 2 c, pc := p.pc.setWidth 15, te := true, sup := false, scratch := word p.a, job := some p.word }
  (List.range 6).foldl (fun k i => k.setReg (BitVec.ofNat 5 (i + 1)) (p.args.getD i 0)) k

/-- A packet of another module arrives. -/
def receivePacket (s : State) (sender raw va pa job : Nat) : State :=
  { s with packets := s.packets ++ [packetOf raw va (.hbm, pa) (.peer sender, job)] }

/-- A packet of this module arrives: it is dropped, creates its task, or updates its word; one for another module ends as that module
decides. -/
def packetArrives (s : State) (n : Nat) : State :=
  match s.packets[n]? with
  | none => s
  | some p =>
    match p.home.1 with
    | .peer m =>
      if !s.reachable (.peer m) then s else
      let (dropped, s) := s.freeChoice
      (if p.kind = 1 ∧ dropped = false then s.memorySide p else s).packetOver n p
    | _ =>
      match s.placedLaunch p.lid with
      | none => s.packetOver n p
      | some l =>
        let c := l.info.ctx
        let i := p.a / 2 ^ 21 % (l.info.w * l.info.h)
        let t := tileAt (l.ox + i % l.info.w) (l.oy + i / l.info.w)
        let die := if p.kind = 0 then tileDie t else p.home.2 / 4096 % 8 / 2
        if (s.mgmtOf die).cancel.contains p.job then s.packetOver n p
        else if p.kind = 1 then (s.memorySide p).packetOver n p
        else
          match (s.tile t).freeTask with
          | none => s
          | some k =>
            { s with packets := s.packets.eraseIdx n }.modTile t fun T => T.create k (packetTask p c) .ready .nothing

/-! ## CANCEL, R390 -/

/-- A job enters a cancel table of 64; the oldest entry goes when it is full. -/
def enterJob (l : List Nat) (job : Nat) : List Nat :=
  if l.contains job then l else (if 64 ≤ l.length then l.drop 1 else l) ++ [job]

/-- A launch is killed where it runs; its records are not placed. -/
def cancelLaunch (s : State) (id : Nat) : State :=
  let s := { s with module := { s.module with refused := NSet.insert s.module.refused id } }
  s.launches.foldl (fun (s : State) x =>
    if x.2.info.id ≠ id then s
    else
      match s.launch x.1 with
      | none => s
      | some l =>
        match l.phase with
        | .running => s.killLaunch x.1 0x1B
        | .waiting | .eligible =>
          ((s.modLaunch x.1 fun l => { l with phase := .done, trig := true }).orderReport x.2.die x.2.info 3 0x1B).makeEligible
        | .saved | .done => s) s

/-- Every die of this module applies a CANCEL. -/
def applyCancel (s : State) (form id : Nat) : State :=
  let tables (f : List Nat → List Nat) : State := (List.range 4).foldl (fun s d => s.modMgmt d fun m => { m with cancel := f m.cancel }) s
  match form with
  | 0 => tables fun l => enterJob l id
  | 1 => s.cancelLaunch id
  | 2 => tables fun l => l.filter (· != id)
  | _ => s

/-- A save in progress keeps a launch of the identifier from being killed, R373. -/
def cancelWaits (s : State) (form id : Nat) : Bool :=
  form == 1 && s.launches.any fun x => x.2.info.id == id && x.2.phase == .running && x.2.saving

/-- CANCEL: the checks, then the link takes the word. -/
def cancel (s : State) (i : Instr) (d a : SReg) : State :=
  let form := (s.reg a).toNat / 2 ^ 32 % 4
  if form = 3 then s.writeReg d (word (2 ^ 64 - 2))
  else if form = 1 ∧ s.cur.sup = false then s.raise 0x06 0
  else s.takePlain (s.takenWord i d a 0 0)

/-- Every die of the scope has applied the word; `resp` modules could not be reached. -/
def cancelDone (s : State) (t n : Nat) (k : Taken) (resp : Nat) : State :=
  let form := k.a.toNat / 2 ^ 32 % 4
  let id := k.a.toNat % 2 ^ 32
  if s.cancelWaits form id then s
  else
    let s := s.endWord t n (if k.a.getLsbD 34 then word (resp % 192) else 0)
    s.applyCancel form id

/-- REMOTE_WORD_COMPLETE. -/
def remoteComplete (s : State) (t n resp : Nat) : State :=
  match s.takenBy t n with
  | none => s
  | some k =>
    match k.word with
    | .qtail .. => let (v, s) := s.tailArrives k resp; s.endWord t n v
    | .spawnat .. => s.spawnSends t n k
    | .cancelJob .. | .cancelLaunch .. | .cancelClear .. => s.cancelDone t n k resp
    | _ => s

end State

def execQtail (d a b : SReg) (s : State) : Out := .next (s.qtail d a b)
def execSpawnat (d a b : SReg) (s : State) : Out := settle (s.spawnat d a b)
def execCancelJob (d a : SReg) (s : State) : Out := .next (s.cancel (.cancelJob d a) d a)
def execCancelLaunch (d a : SReg) (s : State) : Out := .next (s.cancel (.cancelLaunch d a) d a)
def execCancelClear (d a : SReg) (s : State) : Out := .next (s.cancel (.cancelClear d a) d a)
def execRemoteWordComplete (tile tid resp : Nat) (s : State) : Out := settle (s.remoteComplete tile tid resp)
/-- SPAWN_PACKET_ARRIVAL: one of another module joins those on their way, and arrives at once where it can; malformed ones are not sent. -/
def execSpawnPacketArrival (p : Spawn) (s : State) : Out :=
  match p with
  | .here n => .next (s.packetArrives n)
  | .sent sender raw va pa job =>
    .next (if State.packetBad raw then s else (s.receivePacket sender raw va pa job).packetArrives s.packets.length)
/-- CANCEL_MESSAGE_ARRIVAL, R390. -/
def execCancelMessageArrival (form id : Nat) (s : State) : Out :=
  settle (if s.cancelWaits form id then s else s.applyCancel form id)

end Sys2Proof.Machine
end

