-- ==== Sys2Proof/Machine/Snapshot.lean ====
section
/-! DEFINITION. What the segments of a save area hold, R374, as words that are written and read back: the layouts that the spec gives
(slot records, legend entries, records of R112, lines, columns, FOLD records, traverses) where they stand, and around them words in an order
of the model's own (DESIGN CHOICE: R374 lists what a segment holds and gives no order of the rest). Read back, every context number is that of
the context restored, and every serial number follows those that the device has given (R375). -/

namespace Sys2Proof.Machine

/-! ## Writing and reading back -/

/-- What stands in the segments of a tile block: 64-bit words, records of the Tokens segment, and lines of the Lines segment. -/
structure Reel where
  words : List Nat := []
  toks  : List Nat := []
  lines : List Nat := []
  deriving DecidableEq, Repr

def Reel.append (a b : Reel) : Reel := ⟨a.words ++ b.words, a.toks ++ b.toks, a.lines ++ b.lines⟩

/-- How a value is written, and how it is read back from the head of what is left. Any words can be read: what is missing reads as 0. -/
structure Codec (α : Type) where
  put : α → Reel
  get : Reel → α × Reel

/-- The tile and element that tokens are written for; the context number and the first serial number of what is read. -/
structure SaveEnv where
  tidx : Nat := 0
  elem : Nat := 0
  ctx  : Nat
  base : Nat := 0
  deriving DecidableEq, Repr

/-- `k` values one after the other. -/
def readMany {α : Type} (get : Reel → α × Reel) : Nat → Reel → List α × Reel
  | 0, r => ([], r)
  | k + 1, r =>
    let (a, r) := get r
    let (l, r) := readMany get k r
    (a :: l, r)
def writeMany {α : Type} (put : α → Reel) (l : List α) : Reel := l.foldr (fun a r => (put a).append r) {}

def wordCodec : Codec Nat := ⟨fun x => { words := [x % 2 ^ 64] }, fun r => (r.words.headD 0, { r with words := r.words.drop 1 })⟩
def tokCodec : Codec Nat := ⟨fun x => { toks := [x % 2 ^ 512] }, fun r => (r.toks.headD 0, { r with toks := r.toks.drop 1 })⟩
def lineCodec : Codec Nat := ⟨fun x => { lines := [x % 2 ^ 384] }, fun r => (r.lines.headD 0, { r with lines := r.lines.drop 1 })⟩

def Codec.iso {α β : Type} (k : Codec α) (f : β → α) (g : α → β) : Codec β :=
  ⟨fun b => k.put (f b), fun r => let (a, r) := k.get r; (g a, r)⟩
/-- One value after another. -/
def Codec.seq {α β : Type} (k : Codec α) (l : Codec β) : Codec (α × β) :=
  ⟨fun x => (k.put x.1).append (l.put x.2), fun r => let (a, r) := k.get r; let (b, r) := l.get r; ((a, b), r)⟩
/-- A list with its length before it. -/
def Codec.many {α : Type} (k : Codec α) : Codec (List α) :=
  ⟨fun l => (wordCodec.put l.length).append (writeMany k.put l), fun r =>
    let (n, r) := wordCodec.get r
    readMany k.get (Min.min n (r.words.length + r.toks.length + r.lines.length)) r⟩
def Codec.opt {α : Type} (k : Codec α) : Codec (Option α) := k.many.iso Option.toList List.head?
/-- `n` values, as many as there are. -/
def Codec.rep {α : Type} (k : Codec α) (n : Nat) : Codec (List α) := ⟨writeMany k.put, readMany k.get n⟩
def Codec.vec {α : Type} (k : Codec α) (n : Nat) (d : α) : Codec (Vector α n) :=
  (k.rep n).iso Vector.toList fun l => Vector.ofFn fun i => l.getD i.val d
/-- A map whose keys read back through `key`. -/
def Codec.smap {α : Type} (k : Codec α) (key : Nat → Nat) : Codec (SMap α) :=
  (wordCodec.seq k).many.iso id fun l => l.foldl (fun m x => SMap.set m (key x.1) x.2) []
def nsetCodec (key : Nat → Nat) : Codec NSet := wordCodec.many.iso id fun l => l.foldl (fun m k => NSet.insert m (key k)) []

def flagCodec : Codec Bool := wordCodec.iso Bool.toNat fun x => x % 2 == 1
def bitsCodec (n : Nat) : Codec (BitVec n) := wordCodec.iso BitVec.toNat (BitVec.ofNat n)
/-- The `k` low words of a number. -/
def wordsOf (k x : Nat) : List Nat := (List.range k).map fun i => x / 2 ^ (64 * i) % 2 ^ 64
def natOf (ws : List Nat) : Nat := ws.foldr (fun w x => w + 2 ^ 64 * x) 0
/-- A number of any size, with how many words it takes. -/
def bigCodec : Codec Nat := wordCodec.many.iso (fun x => wordsOf (Nat.log2 x / 64 + 1) x) natOf
def wideCodec (n : Nat) : Codec (BitVec n) := (wordCodec.rep (n / 64)).iso (fun x => wordsOf (n / 64) x.toNat) fun l => BitVec.ofNat n (natOf l)
def pairCodec : Codec (Nat × Nat) := wordCodec.seq wordCodec
/-- A number that the device gives in order. -/
def SaveEnv.ident (E : SaveEnv) : Codec Nat := wordCodec.iso id (E.base + ·)
/-- A context number. -/
def SaveEnv.ctxNo (E : SaveEnv) : Codec Nat := wordCodec.iso id fun _ => E.ctx
/-- A key `w · ctx + rest` of the restored context. -/
def SaveEnv.key (E : SaveEnv) (w k : Nat) : Nat := w * E.ctx + k % w

/-! ## Tokens, R51 and R112 -/

def SaveEnv.tag (E : SaveEnv) : Codec Tag :=
  (bitsCodec 64).iso Tag.toWord fun w => { Tag.ofWord w with ctx := BitVec.ofNat 2 E.ctx }

/-- A beat as one record in the layout of R112: SLOT and OPB say where it waited (a slot's operand; a latch or a port by its number). -/
def SaveEnv.beat (E : SaveEnv) (slot opb : Nat) : Codec Beat :=
  tokCodec.iso (fun b => State.ringRecord E.tidx E.elem slot opb 0 b) fun x =>
    ⟨{ Tag.ofWord (BitVec.ofNat 64 (x / 2 ^ 256)) with ctx := BitVec.ofNat 2 E.ctx }, BitVec.ofNat 256 x⟩

/-- A token of the Tokens segment, or the part of it that has come. -/
def SaveEnv.token (E : SaveEnv) (slot opb : Nat) : Codec Token :=
  (E.beat slot opb).many.iso Token.toBeats fun bs =>
    ⟨{ (match bs with | b :: _ => b.tag | [] => {}) with last := true }, bs.map (·.data)⟩
/-- A token among the words of another segment. -/
def SaveEnv.tokenWords (E : SaveEnv) : Codec Token := (E.tag.seq (wideCodec 256).many).iso (fun t => (t.tag, t.beats)) fun x => ⟨x.1, x.2⟩
def SaveEnv.beatWords (E : SaveEnv) : Codec Beat := (E.tag.seq (wideCodec 256)).iso (fun b => (b.tag, b.data)) fun x => ⟨x.1, x.2⟩

/-- A lane whose beats wait at port `p`. -/
def SaveEnv.lane (E : SaveEnv) (p : Nat) : Codec Lane :=
  (wordCodec.seq ((nsetCodec id).seq (flagCodec.seq (E.beat p 0).many))).iso (fun l => (l.depth, l.taken, l.inside, l.beats))
    fun (d, t, i, b) => { depth := d, taken := t, inside := i, beats := b }
def SaveEnv.laneWords (E : SaveEnv) : Codec Lane :=
  (wordCodec.seq ((nsetCodec id).seq (flagCodec.seq E.beatWords.many))).iso (fun l => (l.depth, l.taken, l.inside, l.beats))
    fun (d, t, i, b) => { depth := d, taken := t, inside := i, beats := b }
/-- Lanes by key, `port` giving the port of a key. -/
def SaveEnv.lanes (E : SaveEnv) (port key : Nat → Nat) : Codec (SMap Lane) :=
  ⟨fun m => (wordCodec.put m.length).append (writeMany (fun x => (wordCodec.put x.1).append ((E.lane (port x.1)).put x.2)) m), fun r =>
    let (n, r) := wordCodec.get r
    let (l, r) := readMany (fun r => let (k, r) := wordCodec.get r; let (v, r) := (E.lane 0).get r; ((k, v), r)) (Min.min n r.words.length) r
    (l.foldl (fun m x => SMap.set m (key x.1) x.2) [], r)⟩

def headerCodec : Codec Header :=
  ((bitsCodec 4).seq (flagCodec.seq (wordCodec.seq (bitsCodec 16)))).iso (fun h => (h.fmt, h.lot, h.blen, h.scale))
    fun (f, l, b, s) => ⟨f, l, b, s⟩

/-- An operand: its token stands in the Tokens segment, unless its beats stay in the overflow ring. -/
def SaveEnv.operand (E : SaveEnv) : Codec Operand :=
  let head : Codec (Nat × Nat × Bool × Nat × Nat × Bool × List Nat × Option Header) :=
    wordCodec.seq (wordCodec.seq (flagCodec.seq (wordCodec.seq (wordCodec.seq (flagCodec.seq (wordCodec.many.seq headerCodec.opt))))))
  let token (slot which : Nat) (ring : Bool) : Codec Token := if ring then E.tokenWords else E.token slot which
  ⟨fun o => (head.put (o.slot, o.which, o.whole, o.seq, o.entries, o.ring, o.spilled, o.hdr)).append ((token o.slot o.which o.ring).put o.token),
   fun r =>
    let ((slot, which, whole, seq, entries, ring, spilled, hdr), r) := head.get r
    let (t, r) := (token slot which ring).get r
    ({ slot := slot, which := which, token := t, whole := whole, seq := seq, entries := entries, ring := ring, spilled := spilled, hdr := hdr }, r)⟩

def SaveEnv.latch (E : SaveEnv) : Codec Latch :=
  ((E.token 0 1).seq (wordCodec.seq ((nsetCodec id).seq headerCodec.opt))).iso (fun l => (l.token, l.seq, l.used, l.hdr))
    fun (t, s, u, h) => { token := t, seq := s, used := u, hdr := h }
def SaveEnv.member (E : SaveEnv) : Codec Member :=
  (wordCodec.seq (E.operand.opt.seq (E.operand.opt.seq flagCodec))).iso (fun m => (m.itr, m.a, m.b, m.real)) fun (i, a, b, r) => ⟨i, a, b, r⟩
def SaveEnv.group (E : SaveEnv) : Codec Group :=
  (wordCodec.seq ((bitsCodec 16).seq ((bitsCodec 8).seq (wordCodec.seq E.member.many)))).iso (fun g => (g.slot, g.frm, g.thr, g.index, g.members))
    fun (s, f, t, i, m) => ⟨s, f, t, i, m⟩

/-! ## An element, R102, R150, R374 -/

def slotCodec : Codec Slot :=
  wordCodec.iso (fun r => r.opw.toNat + r.ica.toNat * 2 ^ 32 + r.icb.toNat * 2 ^ 37 + r.bkpt.toNat * 2 ^ 42)
    fun x => ⟨BitVec.ofNat 32 x, BitVec.ofNat 5 (x / 2 ^ 32), BitVec.ofNat 5 (x / 2 ^ 37), x.testBit 42⟩
def legendCodec : Codec Legend :=
  wordCodec.iso (fun l => l.fmt.toNat + l.g.toNat * 2 ^ 4 + l.qw.toNat * 2 ^ 8 + l.gw.toNat * 2 ^ 16 + l.pcol.toNat * 2 ^ 26 + l.pk.toNat * 2 ^ 31
      + l.sfmt.toNat * 2 ^ 38 + l.scl.toNat * 2 ^ 48)
    fun x => { scl := BitVec.ofNat 16 (x / 2 ^ 48), sfmt := BitVec.ofNat 2 (x / 2 ^ 38), pk := x.testBit 31, pcol := BitVec.ofNat 5 (x / 2 ^ 26),
               gw := BitVec.ofNat 5 (x / 2 ^ 16), qw := BitVec.ofNat 5 (x / 2 ^ 8), g := x.testBit 4, fmt := BitVec.ofNat 4 x }
/-- The configuration of an element, 52 words: slots, legend, constants. -/
def configCodec : Codec (Vector Slot 16 × Vector Legend 32 × Vector (BitVec 64) 4) :=
  (slotCodec.vec 16 {}).seq ((legendCodec.vec 32 {}).seq ((bitsCodec 64).vec 4 0))

def opWordCodec : Codec OpWord := (bitsCodec 32).iso (packOp 0) opFields

def SaveEnv.loop (E : SaveEnv) : Codec Loop :=
  (wordCodec.seq (flagCodec.seq (opWordCodec.seq (E.tokenWords.seq (wordCodec.seq (wordCodec.seq (wordCodec.many.seq wordCodec.opt))))))).iso
    (fun l => (l.slot, l.running, l.w, l.start, l.bound, l.next, l.live, l.stop))
    fun (s, r, w, t, b, n, l, x) => { slot := s, running := r, w := w, start := t, bound := b, next := n, live := l, stop := x }
/-- A lowered depth; its times begin anew. -/
def throttleCodec : Codec Throttle := wordCodec.iso (·.eff) fun e => ⟨e, 0, 0⟩
def reorderCodec : Codec Reorder :=
  (wordCodec.seq ((bitsCodec 16).seq ((bitsCodec 12).seq wordCodec))).iso (fun r => (r.slot, r.frm, r.itr, r.next)) fun (s, f, i, n) => ⟨s, f, i, n⟩
def SaveEnv.fault (E : SaveEnv) : Codec ElemFault :=
  (E.ctxNo.seq (wordCodec.seq (wordCodec.seq ((bitsCodec 64).seq (E.ident.opt.seq (flagCodec.seq (wordCodec.seq (opWordCodec.seq E.tokenWords).opt))))))).iso
    (fun f => (f.ctx, f.slot, f.cause, f.val, f.req, f.bkpt, f.ord, f.null)) fun (c, s, k, v, q, b, o, n) => ⟨c, s, k, v, q, b, o, n⟩

def spaceCodec : Codec Space :=
  pairCodec.iso (fun p => match p with
    | .hbm => (0, 0) | .far => (1, 0) | .host => (2, 0) | .peer m => (3, m) | .localMem g => (4, g) | .overlay t => (5, t)
    | .dataStore t => (6, t) | .instrStore t => (7, t))
  fun (k, x) => match k % 8 with
    | 0 => .hbm | 1 => .far | 2 => .host | 3 => .peer x | 4 => .localMem x | 5 => .overlay x | 6 => .dataStore x | _ => .instrStore x

/-- How far a request has come; one that waited is made again, with a new count, R245. -/
def SaveEnv.progress (E : SaveEnv) : Codec ReqState :=
  (wordCodec.seq E.tokenWords.opt).iso
    (fun p => match p with | .performed t => (1, some t) | .silent => (2, none) | .faulted => (3, none) | _ => (0, none))
    fun (k, t) => match k % 4, t with | 1, some t => .performed t | 2, _ => .silent | 3, _ => .faulted | _, _ => .pending
def SaveEnv.request (E : SaveEnv) : Codec Request :=
  (E.ident.seq (wordCodec.seq (wordCodec.seq (opWordCodec.seq ((bitsCodec 64).seq (E.tag.seq (E.tag.seq (flagCodec.seq
    (bigCodec.seq (bigCodec.seq (bigCodec.seq (bigCodec.seq (wordCodec.seq (wordCodec.seq (wordCodec.seq (wordCodec.seq
    (E.tokenWords.seq (flagCodec.seq E.progress)))))))))))))))))).iso
    (fun q => (q.id, q.slot, q.op, q.w, q.ctl, q.tag, q.src, q.prdA, q.a0, q.a1, q.b0, q.data, q.bytes, q.bfmt, q.rfmt, q.rwid, q.pass, q.skip, q.state))
    fun (i, s, o, w, l, t, u, p, a, b, d, x, n, f, g, h, y, k, z) =>
      { id := i, ctx := E.ctx, slot := s, op := o, w := w, ctl := l, tag := t, src := u, prdA := p, a0 := a, a1 := b, b0 := d, data := x, bytes := n,
        bfmt := f, rfmt := g, rwid := h, pass := y, skip := k, state := z }

/-- What else belongs to a context of an element: its headers, fault register and frames with their root sequences, its tokens, its allotment,
loops and requests, and the switch words with the edges that they make. -/
def SaveEnv.element (E : SaveEnv) : Codec (Elem × ElemCtx) :=
  ((headerCodec.smap id).seq (E.fault.many.seq ((nsetCodec (E.key 65536)).seq ((wordCodec.smap id).seq ((wordCodec.smap id).seq (wordCodec.seq (wordCodec.seq
    ((E.latch.smap id).seq (E.operand.many.seq (E.group.many.seq ((E.lanes (· % 4) (E.key 128)).seq
    ((E.lanes (· / 128) fun k => k / 128 * 128 + E.key 32 (k % 128)).seq
    (reorderCodec.many.seq ((nsetCodec id).seq (E.loop.many.seq ((throttleCodec.smap id).seq (wordCodec.seq (flagCodec.seq (wordCodec.opt.seq ((nsetCodec id).seq
    (((bitsCodec 16).smap id).seq (E.request.many.seq ((wordCodec.smap id).seq (wordCodec.many.seq wordCodec)))))))))))))))))))))))).iso
    (fun (G, x) =>
      (x.headers, G.fault.toList ++ G.faults, G.frames, x.ordinals, x.rootSeqs, x.lastRoot, x.reroots, x.latches, x.operands, x.groups, G.edges, G.ports,
       x.reorders, x.turnB, x.loops, x.throttles, x.allot, x.stopped, x.pastBkpt, x.high, G.switch, G.reqs, G.busy, G.asked, G.seq))
    fun (h, f, fr, o, rs, lr, rr, la, op, gr, ed, po, re, tb, lo, th, al, st, pb, hi, sw, rq, bu, as, sq) =>
      ({ faults := f, frames := fr, edges := ed, ports := po
         switch := sw.map fun x => (x.1, x.2.extractLsb' 3 13 ++ BitVec.ofNat 2 E.ctx ++ x.2.extractLsb' 0 1)
         reqs := rq, busy := bu, asked := as, seq := sq },
       { headers := h, ordinals := o, rootSeqs := rs, lastRoot := lr, reroots := rr, latches := la, operands := op, groups := gr, reorders := re
         turnB := tb, loops := lo, throttles := th, allot := al, stopped := st, pastBkpt := pb, high := hi })

/-! ## A Surveyor -/

/-- A control word in an engine's hands, as its 32 bits. -/
def instrCodec : Codec Instr :=
  wordCodec.iso (fun i => match encode i with | some (.control w) => w.toNat | _ => 0) fun x =>
    match decodeControl (BitVec.ofNat 32 x) with | .ok i => i | .error _ => .idle

def SaveEnv.taken (E : SaveEnv) : Codec Taken :=
  (instrCodec.seq ((bitsCodec 5).seq ((bitsCodec 64).seq ((bitsCodec 64).seq ((bitsCodec 64).seq (flagCodec.seq (bigCodec.seq (wordCodec.seq (E.ident.seq
    (pairCodec.opt.seq (E.ident.opt.seq (flagCodec.seq (wordCodec.seq (bitsCodec 64)).opt)))))))))))).iso
    (fun k => (k.word, k.dest, k.a, k.b, k.d, k.sup, k.record, k.begun, k.order, k.pair, k.seq, k.pop, k.cause))
    fun (w, d, a, b, x, s, r, g, o, p, q, y, z) =>
      { word := w, dest := d, a := a, b := b, d := x, sup := s, ctx := E.ctx, record := r, begun := g, order := o, pair := p, seq := q, pop := y, cause := z }

def stateCodec : Codec TaskState :=
  wordCodec.iso (fun x => match x with | .wait => 1 | .frozen => 2 | _ => 0) fun x => match x % 4 with | 1 => .wait | 2 => .frozen | _ => .ready
def waitingCodec : Codec Waiting :=
  (pairCodec.seq (flagCodec.seq flagCodec)).iso
    (fun w => match w with
      | .nothing => ((0, 0), false, false) | .colour => ((1, 0), false, false) | .monitor => ((2, 0), false, false)
      | .sync m p x y => ((3, 64 * m + p), x, y) | .idle => ((4, 0), false, false) | .barrier => ((5, 0), false, false)
      | .engine => ((6, 0), false, false) | .ticket => ((7, 0), false, false))
    fun ((k, v), x, y) => match k % 8 with
      | 0 => .nothing | 1 => .colour | 2 => .monitor | 3 => .sync (v / 64) (v % 64) x y | 4 => .idle | 5 => .barrier | 6 => .engine | _ => .ticket

/-- A task: descriptor state, pc, registers, guards, per-task CSRs and staging beat; it owns no bank when it comes back. -/
def SaveEnv.task (E : SaveEnv) : Codec Task :=
  (stateCodec.seq ((bitsCodec 15).seq (((bitsCodec 64).vec 32 0).seq ((bitsCodec 8).seq ((flagCodec.rep 6).seq ((bitsCodec 6).seq ((bitsCodec 13).seq
    ((bitsCodec 64).seq ((bitsCodec 64).seq ((wideCodec 256).seq (wordCodec.seq (wordCodec.seq (flagCodec.seq (waitingCodec.seq
    (((bitsCodec 5).seq (bitsCodec 64)).many.seq (E.taken.opt.seq (E.tag.many.seq ((spaceCodec.seq wordCodec).opt.seq flagCodec)))))))))))))))))).iso
    (fun k => (k.state, k.pc, k.regs, k.guards, [k.te, k.pte, k.sup, k.psup, k.bsk, k.exempt], k.cause, k.epc, k.tval, k.scratch, k.staging, k.readySeq,
      k.leftSeq, k.stealable, k.waiting, k.late, k.taken, k.openToks, k.job, k.handling))
    fun (st, pc, rs, gu, fl, ca, ep, tv, sc, sg, rq, lq, sl, wa, la, ta, ot, jo, ha) =>
      { state := st, ctx := BitVec.ofNat 2 E.ctx, regs := rs, guards := gu, pc := pc, te := fl.getD 0 false, pte := fl.getD 1 false, sup := fl.getD 2 false,
        psup := fl.getD 3 false, bsk := fl.getD 4 false, exempt := fl.getD 5 false, cause := ca, epc := ep, tval := tv, scratch := sc, readySeq := rq,
        leftSeq := lq, stealable := sl, waiting := wa, late := la, taken := ta, staging := sg, openToks := ot, job := jo, handling := ha }

def engStatusCodec : Codec EngStatus :=
  ((flagCodec.rep 6).seq (wordCodec.rep 5)).iso (fun x => ([x.fin, x.pois, x.flt, x.canc, x.errt, x.abrt], [x.cause, x.rej, x.off, x.faultOff, x.who]))
    fun (f, n) => { fin := f.getD 0 false, pois := f.getD 1 false, flt := f.getD 2 false, canc := f.getD 3 false, errt := f.getD 4 false,
                    abrt := f.getD 5 false, cause := n.getD 0 0, rej := n.getD 1 0, off := n.getD 2 0, faultOff := n.getD 3 0, who := n.getD 4 0 }

/-- A copy: both traverses, the sync pair, the status and the segments performed. -/
def SaveEnv.copy (E : SaveEnv) : Codec Copy :=
  ((wideCodec 256).seq ((wideCodec 256).seq (wordCodec.seq (wordCodec.seq (flagCodec.seq ((wordCodec.seq E.ident).opt.seq (E.ident.seq
    ((nsetCodec id).seq engStatusCodec)))))))).iso (fun z => (z.src, z.dst, z.form, z.ver, z.sup, z.sync, z.order, z.segs, z.st))
    fun (s, d, f, v, p, y, o, g, t) => ⟨f, s, d, v, p, y, o, g, t⟩
/-- A stream: its traverse, its binding, the tokens done, its place in its list and its status. -/
def SaveEnv.stream (E : SaveEnv) : Codec Stream :=
  ((wideCodec 256).seq (wordCodec.seq (flagCodec.seq (wordCodec.seq ((bitsCodec 5).seq ((bitsCodec 12).seq (wordCodec.seq (E.ident.seq (wordCodec.seq
    (flagCodec.seq (wordCodec.seq (flagCodec.seq (flagCodec.seq ((wordCodec.seq E.ident).opt.seq engStatusCodec)))))))))))))).iso
    (fun z => (z.trav, z.elem, z.out, z.port, z.col, z.itr0, z.count, z.order, z.phase, z.sup, z.per, z.going, z.held, z.sync, z.st))
    fun (t, e, o, p, c, i, n, k, h, s, r, g, l, y, u) =>
      { elem := e % 64, out := o, port := p, col := c, itr0 := i, trav := t, sup := s, per := r, order := k, phase := h, count := n, going := g, held := l,
        sync := y, st := u }
def stagedCodec : Codec Staged :=
  ((wideCodec 256).seq ((wideCodec 256).seq wordCodec)).iso (fun e => (e.src, e.dst, e.form)) fun (s, d, f) => ⟨f, s, d⟩
/-- A collective whose ticket is held, R391; the work of every one is over when a save begins. -/
def SaveEnv.coll (E : SaveEnv) : Codec Coll :=
  ((wordCodec.rep 13).seq (flagCodec.seq ((wordCodec.seq E.ident).opt.seq engStatusCodec))).iso
    (fun z => ([z.gid, z.seq, z.op, z.red, z.fmt, z.root, z.rank, z.n, z.count, z.k, z.src, z.dst, z.gtab], z.sup, z.sync, z.st))
    fun (l, s, y, t) =>
      let n (i : Nat) : Nat := l.getD i 0
      { gid := n 0, seq := n 1, op := n 2, red := n 3, fmt := n 4, root := n 5, rank := n 6, n := n 7, count := n 8, k := n 9, src := n 10, dst := n 11,
        gtab := n 12, sup := s, sync := y, st := t }
def ibkCodec : Codec Ibk := ((bitsCodec 13).seq flagCodec).iso (fun b => (b.addr, b.en)) fun (a, e) => ⟨a, e⟩
/-- An arrival of the current round of a barrier, R178. -/
def arrivalCodec : Codec Arrival :=
  (wordCodec.seq (flagCodec.seq ((bitsCodec 4).seq ((bitsCodec 4).seq pairCodec)))).iso (fun a => (a.bar, a.whole, a.lw, a.lh, a.tid, a.round))
    fun (b, w, l, h, t, r) => ⟨b, w, l, h, t, r⟩

/-- The context's registers on a tile, with the number of its lead task. -/
def SaveEnv.regs (E : SaveEnv) : Codec CtxRegs :=
  ((bitsCodec 13).seq ((bitsCodec 4).seq ((bitsCodec 4).seq ((bitsCodec 3).seq ((bitsCodec 5).seq ((bitsCodec 40).seq ((bitsCodec 5).seq
    ((ibkCodec.vec 4 {}).seq ((bitsCodec 8).seq (flagCodec.seq (((flagCodec.seq (bitsCodec 5)).smap id).seq (flagCodec.seq (flagCodec.seq
    (((wideCodec 256).smap id).seq ((E.copy.smap id).seq (wordCodec.seq ((E.coll.smap id).seq ((wordCodec.smap id).seq (bitsCodec 5))))))))))))))))))).iso
    (fun x => (x.tvec, x.lw, x.lh, x.prio, x.colsel, x.area, x.spsel, x.ibk, x.contain, x.det, x.bound, x.trig, x.compl, x.tv, x.copies, x.phase, x.colls,
      x.rounds, match x.launch with | some p => p.lead | none => 0))
    fun (tv, lw, lh, pr, cs, ar, ss, ib, co, de, bo, tr, cm, t, cp, ph, cl, ro, le) =>
      { tvec := tv, lw := lw, lh := lh, prio := pr, colsel := cs, area := ar, spsel := ss, ibk := ib, contain := co, det := de, bound := bo, trig := tr,
        compl := cm, tv := t, copies := cp, phase := ph, colls := cl, rounds := ro, launch := some ⟨0, le, 0, 0, 0, 0⟩ }

def SaveEnv.orders (E : SaveEnv) : Codec Pair :=
  (wordCodec.seq (wordCodec.seq ((E.ident.seq flagCodec).many.seq wordCodec))).iso (fun p => (p.toEngine, p.toTask, p.order, p.owed))
    fun (e, t, o, w) => ⟨e, t, o, w⟩
def SaveEnv.chain (E : SaveEnv) : Codec Chain :=
  (wordCodec.seq ((bitsCodec 16).seq ((bitsCodec 8).seq (pairCodec.seq flagCodec)))).iso (fun k => (k.cls, k.frm, k.thr, (k.ei, k.es), k.marked))
    fun (c, f, t, (i, s), m) => ⟨E.ctx, c, f, t, i, s, m⟩
def SaveEnv.notice (E : SaveEnv) : Codec Notice :=
  (wordCodec.seq (wordCodec.seq ((bitsCodec 15).seq (bitsCodec 64)))).iso (fun n => (n.tid, n.cause, n.pc, n.val)) fun (t, c, p, v) => ⟨0, t, E.ctx, c, p, v, 0⟩

/-! ## A matrix node, R200 -/

def SaveEnv.fed (E : SaveEnv) : Codec Fed :=
  (E.tokenWords.seq (wordCodec.seq (wordCodec.seq (wordCodec.seq ((bitsCodec 16).seq wordCodec))))).iso
    (fun f => (f.token, f.width, f.fmt, f.blen, f.scale, f.sfmt)) fun (t, w, f, b, s, g) => ⟨t, w, f, b, s, g⟩
def SaveEnv.entry (E : SaveEnv) : Codec Entry :=
  (wordCodec.seq ((bitsCodec 64).seq E.tag)).iso (fun e => (e.elem, e.word, e.tag)) fun (e, w, t) => ⟨e, w, t⟩
def SaveEnv.nodeFault (E : SaveEnv) : Codec NodeFault :=
  (wordCodec.seq (wordCodec.seq ((bitsCodec 56).seq ((bitsCodec 64).seq E.fed.many)))).iso (fun f => (f.elem, f.cause, f.val, f.token, f.ate))
    fun (e, c, v, t, a) => ⟨E.ctx, e, c, v, t, a, 0⟩
def nodeCtxCodec : Codec NodeCtx :=
  (wordCodec.seq (wordCodec.seq (flagCodec.seq ((bitsCodec 2).seq (bitsCodec 32))))).iso (fun x => (x.base0, x.base1, x.cb, x.bsf, x.ts))
    fun (a, b, c, s, t) => ⟨a, b, c, s, t⟩
/-- The columns of a node that context `c` owns. -/
def Node.columnsOf (n : Node) (c : Nat) : List Nat := (List.range 128).filter fun k => match n.column k with | .owned o => o.toNat == c | _ => false
/-- Columns with their 384 bytes each, read into an empty node. -/
def columnsCodec : Codec (List (Nat × Nat)) :=
  (wordCodec.seq ((wordCodec.rep 48).iso (wordsOf 48) natOf)).many
def SaveEnv.node (E : SaveEnv) : Codec Node :=
  (nodeCtxCodec.seq (columnsCodec.seq (E.entry.many.seq ((E.fed.many.smap id).seq E.nodeFault.opt)))).iso
    (fun n => (if h : E.ctx < 4 then n.ctxs[E.ctx] else {}, (n.columnsOf E.ctx).map fun k => (k, State.columnNat n k),
      n.queue.filter fun e => e.tag.ctx.toNat == E.ctx, n.fifos.map fun f => (f.1, f.2.filter fun x => x.token.tag.ctx.toNat == E.ctx),
      match n.fault with | some f => if f.ctx = E.ctx then some f else none | none => none))
    fun (x, cs, q, fs, f) =>
      let n := cs.foldl (fun n k => (State.columnOfNat n (k.1 % 128) k.2).setColumn (k.1 % 128) (.owned (BitVec.ofNat 2 E.ctx))) ({} : Node)
      { n with ctxs := (Vector.replicate 4 {}).set! E.ctx x, queue := q, fifos := fs, fault := f }

/-! ## Folds, R214 -/

/-- A FOLD record. -/
def foldRecord (f : Descriptor) : Nat :=
  f.s % 4096 + f.lay.scope % 256 * 2 ^ 16 + f.lay.d % 256 * 2 ^ 24 + f.lay.b % 2 ^ 32 * 2 ^ 32 + f.lay.z % 2 ^ 32 * 2 ^ 64
    + (List.range 4).foldl (fun x k => x + f.lay.modulus k % 65536 * 2 ^ (96 + 16 * k)) 0
    + (List.range 6).foldl (fun x j => x + ((f.lay.skew.getD j 0) % 256).toNat * 2 ^ (160 + 8 * j)) 0
    + f.lay.c % 256 * 2 ^ 208 + f.lay.bound % 2 ^ 32 * 2 ^ 224
/-- A descriptor: its FOLD record, the check state, the witness and the generation. -/
def SaveEnv.descriptor (E : SaveEnv) : Codec Descriptor :=
  ((wideCodec 256).seq (wordCodec.seq (((bitsCodec 64).seq (bitsCodec 64)).seq wordCodec))).iso
    (fun f => (BitVec.ofNat 256 (foldRecord f), f.check, f.wit, f.gen))
    fun (r, k, w, g) => { ctx := E.ctx, s := recordS r.toNat, lay := recordLayout r.toNat, gen := g, check := k, wit := w }
def regionCodec : Codec Region :=
  (wideCodec 128).iso (fun r => BitVec.ofNat 128 (r.nl.toNat * 2 ^ 96 + r.nb.toNat * 2 ^ 16)) fun x => ⟨x.extractLsb' 96 32, x.extractLsb' 16 40⟩

/-! ## What belongs to the launch as a whole -/

def placeCodec : Codec (Nat × Nat) := pairCodec
def SaveEnv.block (E : SaveEnv) : Codec Block :=
  (placeCodec.seq (placeCodec.seq (placeCodec.many.seq placeCodec.many))).iso (fun b => (b.entry, b.exit, b.nodes, b.stores))
    fun (e, x, n, s) => ⟨E.ctx, e, x, n, s⟩

/-- What the header of an area does not hold of a launch: record fields, dependences, its DET and trigger, the tiles on which it has ended (by TIDX),
its ring's next SEQ and held positions, its blocks with launch-relative elements, its spawned frames, and how far serial numbers had come. -/
structure SavedLaunch where
  image   : Nat
  deps    : Nat
  ndeps   : Nat
  ql      : BitVec 8
  ids     : List Nat
  det     : Bool
  trig    : Bool
  ended   : NSet
  seq     : Nat
  held    : NSet
  blocks  : List Block
  spawned : SMap Nat
  serial  : Nat
  deriving DecidableEq, Repr

def SaveEnv.launch (E : SaveEnv) : Codec SavedLaunch :=
  (wordCodec.seq (wordCodec.seq (wordCodec.seq ((bitsCodec 8).seq (wordCodec.many.seq (flagCodec.seq (flagCodec.seq ((nsetCodec id).seq (wordCodec.seq
    ((nsetCodec id).seq (E.block.many.seq ((wordCodec.smap id).seq wordCodec)))))))))))).iso
    (fun x => (x.image, x.deps, x.ndeps, x.ql, x.ids, x.det, x.trig, x.ended, x.seq, x.held, x.blocks, x.spawned, x.serial))
    fun (i, d, n, q, s, t, g, e, k, h, b, w, z) => ⟨i, d, n, q, s, t, g, e, k, h, b, w, z⟩

/-! ## Lines, R371 and R374 -/

/-- The lines of a store that context `c` owns. -/
def Store.owned (x : Store) (c : Nat) : List Nat := (x.marks.filter fun m => m.2 == c).map (·.1)

/-- A line lies wholly inside the destination of a staging entry. -/
def stagedLine (l : List Staged) (line : Nat) : Bool := l.any fun e => (List.range 32).all fun i => tvTouches e.dst (32 * line + i) 1

/-- A saved line: its number, its header of 128 bits and its 32 bytes. The numbers stand among the words, the rest in the Lines segment. -/
def linesCodec : Codec (List (Nat × Nat)) := (wordCodec.seq lineCodec).many
/-- The lines of a store that a save holds, with their headers and owner marks (R235, R371). -/
def savedLines (x : Store) (names : SMap NameHdr) (c : Nat) (skip : Nat → Bool) : List (Nat × Nat) :=
  ((x.owned c).filter fun l => !skip l).map fun l =>
    (l, (SMap.getD names l {}).toNat + c * 2 ^ 74 + 2 ^ 76 + Memory.readN x.bytes (32 * l) 32 * 2 ^ 128)
/-- Saved lines put into a store, owned by context `c`. -/
def Store.withLines (x : Store) (c : Nat) (ls : List (Nat × Nat)) : Store :=
  ls.foldl (fun x l => let x := x.write (32 * l.1) 32 (l.2 / 2 ^ 128); { x with marks := SMap.set x.marks l.1 c }) x
def withHeaders (names : SMap NameHdr) (ls : List (Nat × Nat)) : SMap NameHdr := ls.foldl (fun m l => SMap.set m l.1 (NameHdr.ofNat l.2)) names

/-- The part of an element that belongs to a context. -/
def Elem.only (G : Elem) (c : Nat) : Elem :=
  { switch := G.switch.filter fun x => swCtx x.2 == c
    frames := G.frames.filter fun k => k / 65536 == c
    reqs := G.reqs.filter fun q => q.ctx == c
    faults := (G.fault.toList ++ G.faults).filter fun f => f.ctx == c
    edges := G.edges.filter fun x => x.1 / 128 == c
    ports := G.ports.filter fun x => x.1 % 128 / 32 == c
    busy := G.busy.filter fun b => match SMap.get? G.switch b.2 with | some w => swCtx w == c | none => false
    asked := G.asked.filter fun e => match SMap.get? G.switch e with | some w => swCtx w == c | none => false
    seq := G.seq }

/-! ## The segments of a tile block -/

/-- The Surveyor segment beside its stores: the launch in the first block, tasks by number, registers, channels, held and downward beats, sheets in
force, chain states, sync pairs, marks of JR targets, traps of frozen tasks, and the saved lines of the overlay. -/
def SaveEnv.surveyor (E : SaveEnv) :
    Codec (Option SavedLaunch × SMap Task × CtxRegs × SMap (List Beat) × List Beat × SMap Lane × NSet × List Chain × SMap Pair × NSet × List Notice
      × Nat × List (Nat × Nat)) :=
  E.launch.opt.seq ((E.task.smap (· % 32)).seq (E.regs.seq ((E.beatWords.many.smap (E.key 32)).seq (E.beatWords.many.seq
    ((E.laneWords.smap (E.key 32)).seq ((nsetCodec fun k => k / 4 * 4 + E.ctx).seq (E.chain.many.seq ((E.orders.smap (E.key 64)).seq ((nsetCodec id).seq
    (E.notice.many.seq (wordCodec.seq linesCodec)))))))))))

/-- What the segments of one tile block hold, R374, and what a restore reads of them. -/
structure SavedTile where
  tidx    : Nat
  istore  : Nat
  dstore  : Nat
  launch  : Option SavedLaunch
  tasks   : SMap Task
  regs    : CtxRegs
  rest    : Tile
  notices : List Notice
  arrivals : List Arrival
  elems   : List (Elem × ElemCtx)
  /-- The saved lines of each element's memory, and of the overlay. -/
  lines   : List (List (Nat × Nat))
  overlay : List (Nat × Nat)
  staging : List Staged
  node    : Node
  streams : SMap Stream
  folds   : List Descriptor
  region  : Region
  deriving DecidableEq, Repr

end Sys2Proof.Machine
end

