-- ==== Sys2Proof/Machine/SaveRestore.lean ====
section
/-! DEFINITION. CTXSAVE and CTXREST with the context-save engines, R77, R78 and R371–R375. -/

namespace Sys2Proof.Machine

namespace State

/-! ## The words, R77 and R78 -/

/-- CTXSAVE (`back` false) and CTXREST: the engine of the die accepts or refuses; an accepted save stops the launch at once. Operands that
R77 refuses give 2 whether or not the engine is busy (DESIGN CHOICE). -/
def ctxWord (s : State) (back : Bool) (d a b : SReg) : State := s.supOnly <|
  let c := (s.reg a).toNat % 4
  let t := s.focus.tile
  if c = s.cur.ctx.toNat ∨ 4 ≤ (s.reg a).toNat ∨ (s.reg b).toNat % 4096 ≠ 0 then s.writeReg d 2
  else if s.jobs.any fun j => j.die == s.curDie then s.writeReg d 1
  else
    let n := if back then none else s.lidOf t c
    let j : SaveJob := { die := s.curDie, back := back, tile := t, rctx := s.cur.ctx.toNat, ctx := c, area := (s.reg b).toNat, n := n }
    let s := { s with jobs := s.jobs ++ [j] }
    let s := match n with | some n => s.modLaunch n fun l => { l with saving := true, moving := false } | none => s
    s.writeReg d 0

/-! ## The save area, R374 -/

/-- The header of a save area. -/
def saveHeader (r : LaunchRec) (size status faddr : Nat) : Nat :=
  0x41565343 + status * 2 ^ 32 + r.id * 2 ^ 64 + r.w * 2 ^ 96 + r.h * 2 ^ 104 + r.ctl.toNat * 2 ^ 112 + r.ring * 2 ^ 120 + size * 2 ^ 128
    + faddr * 2 ^ 192 + r.rbase * 2 ^ 256 + r.text * 2 ^ 320 + r.data * 2 ^ 384 + r.tsize * 2 ^ 448 + r.dsize * 2 ^ 480

/-- `n` bytes that an engine writes to a save area, or the cause and the failing address. -/
def areaWrite (s : State) (j : SaveJob) (va n v : Nat) : Except (Nat × Nat) State :=
  match s.probeAll j.die j.rctx { read := true, write := true, sup := true, farOk := true } (pieces 2 va n) with
  | (.error e, _) => .error e
  | (.ok ps, s) => .ok ((s.piecesHome engineAgent ps).writePieces j.rctx v ps)

/-- `n` bytes that an engine reads of a save area, or the cause and the failing address. -/
def areaRead (s : State) (j : SaveJob) (va n : Nat) : Except (Nat × Nat) Nat × State :=
  match s.probeAll j.die j.rctx { read := true, sup := true, farOk := true } (pieces (n / 65536 + 2) va n) with
  | (.error e, s) => (.error e, s)
  | (.ok ps, s) =>
    let s := s.piecesHome engineAgent ps
    match (List.range n).findSome? fun i => ((pieceByte ps i).bind fun p => (s.store p.1).readCause p.2 1).map fun c => (c, va + i) with
    | some e => (.error e, s)
    | none => (.ok (s.readPieces ps), ps.foldl (fun s p => s.correct j.die p.1 p.2.1 p.2.2) s)

/-- Words written to an area in pages of 4 KiB, of at most `k`. -/
def writeWords (s : State) (j : SaveJob) (va : Nat) : Nat → List Nat → Except (Nat × Nat) State
  | 0, _ => .ok s
  | k + 1, ws =>
    if ws = [] then .ok s
    else
      match s.areaWrite j va (8 * Min.min 512 ws.length) (natOf (ws.take 512)) with
      | .error e => .error e
      | .ok s => s.writeWords j (va + 4096) k (ws.drop 512)
/-- `n` words read from an area in pages of 4 KiB, of at most `k`. -/
def readWords (s : State) (j : SaveJob) (va : Nat) : Nat → Nat → Except (Nat × Nat) (List Nat) × State
  | 0, _ => (.ok [], s)
  | k + 1, n =>
    let m := Min.min 512 n
    if m = 0 then (.ok [], s)
    else
      match s.areaRead j va (8 * m) with
      | (.error e, s) => (.error e, s)
      | (.ok v, s) =>
        match s.readWords j (va + 4096) k (n - m) with
        | (.error e, s) => (.error e, s)
        | (.ok ws, s) => (.ok (wordsOf m v ++ ws), s)

/-! ## Failure, R375 -/

/-- STATUS := 4 and FADDR are written where they can be, and cause 0x1C goes to the lead task of the requester's context. -/
def jobFails (s : State) (j : SaveJob) (faddr : Nat) : State :=
  let s := match s.areaWrite j (j.area + 24) 8 faddr with | .ok s => s | .error _ => s
  let s := match s.areaWrite j (j.area + 4) 4 4 with | .ok s => s | .error _ => s
  let p := s.launchOf j.tile j.rctx
  let x : Search :=
    { tile := j.tile, ctx := j.rctx, src := .order, cause := 0x1C, val := word faddr, level := .launch, lid := p.1, tidx := p.2, killed := true,
      phase := .waiting }
  { s with searches := s.searches ++ [x], jobs := s.jobs.filter (· != j), absent := none }

/-! ## Save, R373 -/

/-- A request that is accepted and not performed may wait as long as it must (R120): for its place in an alias chain, for a position at its
datum unit, for the requests before it. Every other one is performed before a save copies it, R373 step 2. -/
def mayStayPending (q : Request) : Bool := isChained q.op || q.op == 88 || (decide (91 ≤ q.op) && decide (q.op ≤ 94))

/-- Work already begun of a launch is over: blocks, requests, tokens of streams, words in the hands of engines, collectives, growing folds. -/
def saveDrained (s : State) (l : Launch) : Bool :=
  let c := l.info.ctx
  (s.folds.all fun f => f.ctx != c || !f.growing)
    && (rectangle l.ox l.oy l.info.w l.info.h).all fun t =>
      (s.insts.all fun i => i.block.ctx != c || i.tile != t)
        && (((s.tile t).ctx c).streams.all fun z => z.2.hand == []) && (((s.tile t).ctx c).colls.all fun z => z.2.st.fin)
        && (s.orphans.all fun o => o.1 != t || o.2.ctx != c)
        && (List.range 64).all (fun e => (s.elem (64 * t + e)).reqs.all fun q =>
          q.ctx != c || (match q.state with | .posted _ => false | .pending => mayStayPending q | _ => true))
        && (List.range 32).all fun n =>
          let k := (s.tile t).task n
          !k.isIn c || ((k.state != .run || (k.taken.isNone && k.held.isNone)) && (k.state != .wait || k.waiting != .engine))

/-- A task stops at a word boundary: in RUN before its next word, in an interruptible wait with its pc on the word (R367). -/
def freezeTask (s : State) (t n : Nat) : State :=
  let k := (s.tile t).task n
  if k.state = .run then s.modTile t fun T => T.enter n .ready .nothing
  else if k.state = .wait ∧ mayInterrupt k = true then (s.leaveWait t n).modTile t fun T => T.wake n
  else s

/-- Every task of a context on a tile is frozen with its registers at hand; or the address of a spill area that cannot be read. -/
def freezeTile (s : State) (t c : Nat) : Except Nat State :=
  (List.range 32).foldl (fun o n =>
    match o with
    | .error a => .error a
    | .ok s =>
      if !((s.tile t).task n).isIn c then .ok s
      else
        let s := s.freezeTask t n
        match ((s.tile t).task n).place with
        | .area _ =>
          match (s.fetchRegs t n).1 with
          | some s => .ok s
          | none => .error (((s.tile t).ctx c).area.toNat * 65536 + 256 * n)
        | _ => .ok s) (.ok s)

/-- What belongs to a launch as a whole, with launch-relative elements and tiles. -/
def savedLaunch (s : State) (n : Nat) (l : Launch) : SavedLaunch :=
  let c := l.info.ctx
  let ts := rectangle l.ox l.oy l.info.w l.info.h
  let rel (e : Nat × Nat) : Nat × Nat := (64 * tileIndex l (gidTile e.1) + gidElem e.1, e.2)
  let mine := s.blocks.filter fun b => b.ctx == c && ts.contains (gidTile b.entry.1)
  { image := l.info.image, deps := l.info.deps, ndeps := l.info.ndeps, ql := l.info.ql, ids := l.deps, det := l.det, trig := l.trig
    ended := l.ended.map (tileIndex l), seq := l.seq, held := l.held
    blocks := mine.map fun b => { b with entry := rel b.entry, exit := rel b.exit, nodes := b.nodes.map rel, stores := b.stores.map rel }
    spawned := (s.spawned.filter fun k => k.1 / 2 ^ 18 == n + 1).map fun k => (k.1 % 65536, k.2), serial := s.serial }

/-- What the block of tile `t`, with index `i` in its launch, holds. -/
def savedTile (s : State) (n : Nat) (l : Launch) (i t : Nat) : SavedTile :=
  let c := l.info.ctx
  let T := s.tile t
  let x := T.ctx c
  let mine (x : Search) : Option Notice :=
    match x.src with
    | .task n => if x.tile = t ∧ x.ctx = c ∧ x.cause ≠ 0x1C then some ⟨t, n, c, x.cause, (T.task n).pc, x.val, 0⟩ else none
    | _ => none
  { tidx := i
    istore := Memory.readN T.istore.bytes 0 32768
    dstore := Memory.readN T.dstore.bytes 0 32768
    launch := if i = 0 then some (s.savedLaunch n l) else none
    tasks := ((List.range 32).filter fun n => (T.task n).isIn c).map fun n => (n, T.task n)
    regs := x
    rest := { channels := T.channels.filter fun k => k.1 / 32 == c
              held := T.held.filter fun b => b.tag.ctx.toNat == c
              down := T.down.filter fun k => k.1 / 32 == c
              inForce := T.inForce.filter fun k => k % 4 == c
              chains := T.chains.filter fun k => k.ctx == c
              pairs := T.pairs.filter fun k => k.1 / 64 == c
              jrMarks := T.jrMarks, seq := T.seq }
    notices := (s.notices.filter fun x => x.tile == t && x.ctx == c)
      ++ (s.searches.filterMap mine).filter fun x => (T.task x.tid).state == .frozen
    arrivals := x.arrivals
    elems := (List.range 64).map fun e => ((s.elem (64 * t + e)).only c, s.ectx (64 * t + e) c)
    lines := (List.range 64).map fun e => savedLines (s.elem (64 * t + e)).store (s.elem (64 * t + e)).names c fun _ => false
    overlay := savedLines T.overlay T.names c (stagedLine x.staging)
    staging := x.staging
    node := s.node t
    streams := x.streams
    folds := s.folds.filter fun f => f.ctx == c
    region := s.region c }

/-! ## Tile blocks, R374 -/

/-- The elements of a tile one after the other, each with its memory's lines. -/
def elementsReel (E : SaveEnv) (v : SavedTile) : Reel :=
  ((v.elems.zip v.lines).zipIdx).foldr (fun e r =>
    ((({ E with elem := e.2 } : SaveEnv).element.put e.1.1).append (linesCodec.put e.1.2)).append r) {}
def readElements (E : SaveEnv) : Nat → Reel → List ((Elem × ElemCtx) × List (Nat × Nat)) × Reel :=
  readMany (E.element.seq linesCodec).get

/-- The nine segments of a block, in the order of R374. -/
def segments (E : SaveEnv) (v : SavedTile) : List (List Nat) :=
  let T := v.rest
  let S := E.surveyor.put (v.launch, v.tasks, v.regs, T.channels, T.held, T.down, T.inForce, T.chains, T.pairs, T.jrMarks, v.notices, T.seq, v.overlay)
  let C := writeMany configCodec.put (v.elems.map fun e => (e.2.slots, e.2.legend, e.2.consts))
  let G := elementsReel E v
  [wordsOf 4096 v.istore ++ wordsOf 4096 v.dstore ++ S.words, (arrivalCodec.many.put v.arrivals).words, C.words ++ G.words,
    G.toks.flatMap (wordsOf 8), (G.lines ++ S.lines).flatMap (wordsOf 6), (stagedCodec.many.put v.staging).words, (E.node.put v.node).words,
    ((E.stream.smap id).put v.streams).words, ((E.descriptor.many.seq regionCodec).put (v.folds, v.region)).words]

/-- A tile block: its header with TIDX and the offset and byte count of each segment, counted from the header's start; then the segments. -/
def blockWords (i : Nat) (segs : List (List Nat)) : List Nat :=
  let heads := segs.foldl (fun (x : Nat × List Nat) g => (x.1 + 8 * g.length, x.2 ++ [x.1 + 8 * g.length * 2 ^ 32])) (128, [])
  (i % 65536) :: heads.2 ++ List.replicate (15 - segs.length) 0 ++ segs.flatten

/-- Where a block's segment `k` lies: its offset and its count, in words. -/
def segmentAt (b : List Nat) (k : Nat) : Nat × Nat := (b.getD (1 + k) 0 % 2 ^ 32 / 8, b.getD (1 + k) 0 / 2 ^ 32 % 2 ^ 32 / 8)
def segment (b : List Nat) (k : Nat) : List Nat := (b.drop (segmentAt b k).1).take (segmentAt b k).2
/-- The words of a block, its header and its segments. -/
def blockLength (b : List Nat) : Nat := (List.range 9).foldl (fun n k => Max.max n ((segmentAt b k).1 + (segmentAt b k).2)) 16

/-- Numbers of `k` words each. -/
def grouped (k : Nat) : Nat → List Nat → List Nat
  | 0, _ => []
  | n + 1, ws => if ws = [] then [] else natOf (ws.take k) :: grouped k n (ws.drop k)

/-- What a tile block holds, read back. -/
def readBlock (E : SaveEnv) (b : List Nat) : SavedTile :=
  let ofSeg (k : Nat) : Reel := { words := segment b k }
  let surveyor := segment b 0
  let elements := segment b 2
  let (cfg, r) := readMany configCodec.get 64 { words := elements }
  let (els, r) := readElements E 64 { r with toks := grouped 8 ((segment b 3).length) (segment b 3), lines := grouped 6 (segment b 4).length (segment b 4) }
  let ((launch, tasks, regs, channels, held, down, inForce, chains, pairs, jrMarks, notices, seq, overlay), _) :=
    E.surveyor.get { words := surveyor.drop 8192, lines := r.lines }
  let ((folds, region), _) := (E.descriptor.many.seq regionCodec).get (ofSeg 8)
  { tidx := b.headD 0 % 65536
    istore := natOf (surveyor.take 4096), dstore := natOf ((surveyor.drop 4096).take 4096)
    launch := launch, tasks := tasks, regs := regs
    rest := { channels := channels, held := held, down := down, inForce := inForce, chains := chains, pairs := pairs, jrMarks := jrMarks, seq := seq }
    notices := notices
    arrivals := (arrivalCodec.many.get (ofSeg 1)).1
    elems := (els.zip cfg).map fun e => (e.1.1.1, { e.1.1.2 with slots := e.2.1, legend := e.2.2.1, consts := e.2.2.2 })
    lines := els.map (·.2)
    overlay := overlay
    staging := (stagedCodec.many.get (ofSeg 5)).1
    node := (E.node.get (ofSeg 6)).1
    streams := ((E.stream.smap (· % 16)).get (ofSeg 7)).1
    folds := folds, region := region }

/-- The tile blocks from word `p` of an area on, each with the word at which it stands; the next begins at the next boundary of 4 KiB. -/
def readBlocks (E : SaveEnv) (ws : List Nat) : Nat → Nat → List (Nat × SavedTile)
  | 0, _ => []
  | k + 1, p =>
    let b := ws.drop p
    (p, readBlock E b) :: readBlocks E ws k (p + (blockLength b + 511) / 512 * 512)

/-- The address of the first saved legend entry that holds SFMT = 0b11, R375. -/
def badLegend (area : Nat) (vs : List (Nat × SavedTile)) (ws : List Nat) : Option Nat :=
  vs.findSome? fun v =>
    v.2.elems.zipIdx.findSome? fun e =>
      ((List.range 32).find? fun col => (e.1.2.legend.toList.getD col {}).sfmt == 3#2).map fun col =>
        area + 8 * (v.1 + (segmentAt (ws.drop v.1) 2).1 + 52 * e.2 + 16 + col)

/-- The tile blocks of a launch written from address `va` on, one for each TIDX; the address after the last. -/
def writeBlocks (s : State) (j : SaveJob) (n : Nat) (l : Launch) (va stop : Nat) : List (Nat × Nat) → Except (Nat × Nat) (Nat × State)
  | [] => .ok (stop, s)
  | (t, i) :: r =>
    let ws := blockWords i (segments { ctx := l.info.ctx, tidx := i } (s.savedTile n l i t))
    match s.writeWords j va (ws.length / 512 + 1) ws with
    | .error e => .error e
    | .ok s => s.writeBlocks j n l (va + 4096 * ((ws.length + 511) / 512)) (va + 8 * ws.length) r

/-- A tile holds nothing of a context any more. -/
def vacateTile (s : State) (t c : Nat) : State :=
  let cols := movedColumns (s.tile t) (s.node t) c
  let s := (List.range 64).foldl (fun s e =>
    let g := 64 * t + e
    let s := s.modElem g fun G =>
      let mine := match G.fault with | some f => f.ctx == c | none => false
      let later := G.faults.filter (·.ctx != c)
      { G.vacate c with fault := if mine then later.head? else G.fault, faults := if mine then later.drop 1 else later }
    s.modEctx g c fun x => { slots := x.slots, legend := x.legend, consts := x.consts, allot := x.allot, high := x.high }) s
  let s := s.modNode t fun A =>
    { A.vacate c cols with fault := match A.fault with | some f => if f.ctx = c then none else some f | none => none }
  { s.modTile t fun A => A.vacate c with
    monitors := s.monitors.filter fun m => !(m.tile == t && ((s.tile t).task m.tid).isIn c)
    notices := s.notices.filter fun x => !(x.tile == t && x.ctx == c)
    searches := s.searches.filter fun x => !(x.tile == t && x.ctx == c && x.cause != 0x1C) }

/-- Steps 3–5 of a save: the tasks freeze, the area is written, STATUS last, and the tiles are free of the launch; or the address that
could not be written. The context's descriptors travel with it (R245): the controllers hold them no more (DEDUCED). -/
def saveNow (s : State) (j : SaveJob) (n : Nat) (l : Launch) : Except Nat State :=
  let c := l.info.ctx
  let ts := rectangle l.ox l.oy l.info.w l.info.h
  let s := ts.foldl settleTile s
  match ts.foldl (fun (o : Except Nat State) t => o.bind fun s => s.freezeTile t c) (.ok s) with
  | .error a => .error a
  | .ok s =>
    match s.writeBlocks j n l (j.area + 4096) (j.area + 64) ts.zipIdx with
    | .error e => .error e.2
    | .ok (stop, s) =>
      let head := saveHeader l.info (stop - j.area) 0 0
      match s.areaWrite j j.area 4 head with
      | .error e => .error e.2
      | .ok s =>
        match s.areaWrite j (j.area + 8) 56 (head / 2 ^ 64) with
        | .error e => .error e.2
        | .ok s =>
          match s.areaWrite j (j.area + 4) 4 1 with
          | .error e => .error e.2
          | .ok s =>
            let s := ts.foldl (fun s t => s.vacateTile t c) s
            .ok { s.modLaunch n fun l => { l with phase := .saved, saving := false } with
              jobs := s.jobs.filter (· != j), folds := s.folds.filter (·.ctx != c) }

/-- CONTEXT_SAVE_COMPLETE: a save is done once its launch has drained; without a launch only STATUS is written. -/
def saveComplete (s : State) (die n : Nat) : State :=
  match (s.jobs.filter fun j => j.die == die && !j.back)[n]? with
  | none => s
  | some j =>
    match j.n.bind fun n => (s.launch n).map fun l => (n, l) with
    | none =>
      match s.areaWrite j (j.area + 4) 4 3 with
      | .ok s => { s with jobs := s.jobs.filter (· != j) }
      | .error e => s.jobFails j e.2
    | some (m, l) =>
      if !s.saveDrained l then s
      else
        match s.saveNow j m l with
        | .ok s => s
        | .error a => (s.modLaunch m fun l => { l with saving := false }).jobFails j a

/-! ## Restore, R375 -/

/-- The free descriptors of a tile. -/
def freeDescriptors (T : Tile) : List Nat := (List.range 32).filter fun n => (T.task n).state == .free

/-- A tile is free for a saved tile block: R122, R217 and R375, and what the block needs of node and switches is free. -/
def restoreFree (s : State) (x : LaunchRec) (v : SavedTile) (t : Nat) : Bool :=
  let T := s.tile t
  let c := x.ctx
  let same (y : LaunchRec) : Bool := x.text == y.text && x.tsize == y.tsize && x.data == y.data && x.dsize == y.dsize
  T.exposed && (T.ctx c).launch.isNone && (s.residents t c).all (fun l => same l.info)
    && decide (v.tasks.length ≤ (freeDescriptors T).length)
    && s.capsFit (v.elems.zipIdx.map fun e => (e.2, e.1.2.allot)) t c
    && (v.elems.zipIdx.all fun e => e.1.1.switch.all fun w => (SMap.get? (s.elem (64 * t + e.2)).switch w.1).isNone)
    && (v.node.columnsOf c).all (fun k => (s.node t).column k == .free)
    && (v.node.fault.isNone || (s.node t).fault.isNone)

/-- The fold descriptors of a save are declared as FDECL does; on-die headers are EMPTY on the launch's tiles. None where one is refused. -/
def restoreFolds (s : State) (c : Nat) (ts : List Nat) : List Descriptor → Option State
  | [] => some s
  | f :: r =>
    match s.layoutStatus c f.s f.lay with
    | some _ => none
    | none =>
      let s := if f.lay.scope = 2 then s else s.emptyTiles f.lay ts
      let s := { s with folds := (s.folds.filter fun (g : Descriptor) => !(g.ctx == c && g.s == f.s)) ++ [{ f with ctx := c, growing := false, serial := s.serial }] }
      s.tick.restoreFolds c ts r

/-- A saved element put on element `g`: its configuration, lines, tokens, requests and fault. -/
def restoreElem (s : State) (g c : Nat) (e : (Elem × ElemCtx) × List (Nat × Nat)) : State :=
  let G := e.1.1
  let cyc := (s.tile (gidTile g)).cycle
  let s := s.modElem g fun H =>
    let M := { H.receive G c 0 with
      store := H.store.withLines c e.2
      names := withHeaders H.names e.2
      asked := H.asked ++ G.asked
      busy := G.busy.foldl (fun (m : SMap Nat) (b : Nat × Nat) => SMap.set m b.1 b.2) H.busy }
    match H.fault, G.faults with
    | none, f :: r => { M with fault := some { f with ord := s.serial }, faults := H.faults ++ r }
    | _, fs => { M with faults := H.faults ++ fs }
  s.tick.modEctx g c fun _ => { e.1.2 with throttles := e.1.2.throttles.map fun k => (k.1, { k.2 with halved := cyc - 256, calm := cyc }) }

/-- One saved tile block put on a tile: stores, lines, elements, tokens, node, tasks with their new numbers. -/
def restoreTile (s : State) (l : Launch) (n : Nat) (v : SavedTile) (t : Nat) : State :=
  let c := l.info.ctx
  let pairs := v.tasks.zip (freeDescriptors (s.tile t))
  let num (k : Nat) : Nat := match pairs.find? fun p => p.1.1 == k with | some p => p.2 | none => k
  let alone := s.residents t c == []
  let s := ((v.elems.zip v.lines).zipIdx).foldl (fun s e => s.restoreElem (64 * t + e.2) c e.1) s
  let s := s.modNode t fun B =>
    { B.receive v.node c (v.node.columnsOf c) with
      fault := match v.node.fault with | some f => some { f with ord := s.serial } | none => B.fault }
  let s := s.tick.modTile t fun B =>
    let p : Placed := ⟨n, BitVec.ofNat 5 (num (match v.regs.launch with | some p => p.lead.toNat | none => 0)), BitVec.ofNat 5 l.info.h,
      BitVec.ofNat 6 l.info.w, BitVec.ofNat 5 l.oy, BitVec.ofNat 5 l.ox⟩
    let regs := { v.regs with
      launch := some p
      bound := v.regs.bound.map fun e => (e.1, (e.2.1, BitVec.ofNat 5 (num e.2.2.toNat)))
      arrivals := v.arrivals.map fun a => { a with tid := num a.tid }
      streams := v.streams
      staging := [] }
    let T := pairs.foldl (fun (T : Tile) k =>
      T.setTask k.2 { k.1.2 with readySeq := B.seq + k.1.2.readySeq, leftSeq := B.seq + k.1.2.leftSeq }) B
    let R := (B.receive { v.rest with tasks := Vector.replicate 32 {} } c p).modCtx c fun _ => regs
    { R with
      tasks := T.tasks
      istore := if alone then imageStore v.istore 32768 else B.istore
      dstore := if alone then imageStore v.dstore 32768 else B.dstore
      jrMarks := if alone then v.rest.jrMarks else B.jrMarks
      overlay := B.overlay.withLines c v.overlay
      names := withHeaders B.names v.overlay
      seq := v.rest.seq + B.seq + 1 }
  v.notices.foldl (fun s x =>
    { s with notices := s.notices ++ [{ x with tile := t, tid := num x.tid, ctx := c, ord := s.serial }] }.tick) s

/-- The staging entries of a tile are made again by running their copies, R372; the address of an access that fails. -/
def restage (s : State) (t c : Nat) : List Staged → Except Nat State
  | [] => .ok s
  | e :: r =>
    let z : Copy := { form := e.form, src := e.src, dst := e.dst, ver := 0, sup := true, sync := none, order := 0 }
    let (fault, s) := (List.range (copySegs z)).foldl (fun (x : Option (Nat × Nat) × State) seg =>
      match x.1 with
      | some _ => x
      | none => let (_, bad, fault, s) := x.2.runSegment t c z seg; (fault.or (bad.map (0x14, ·)), s)) (none, s)
    match fault with
    | some f => .error (tvAddr e.src f.2).toNat
    | none => (s.stage t c z).restage t c r

def restageAll (s : State) (c : Nat) : List (Nat × List Staged) → Except Nat State
  | [] => .ok s
  | e :: r =>
    match s.restage e.1 c e.2 with
    | .ok s => s.restageAll c r
    | .error a => .error a

/-- The launch of a save area placed again in context `c` at an origin: the whole restore, or the failing address. -/
def restoreNow (s : State) (j : SaveJob) (x : LaunchRec) (y : SavedLaunch) (vs : List SavedTile) (o : Nat × Nat) : Except Nat State :=
  let c := x.ctx
  let n := s.serial + y.serial
  let ts := rectangle o.1 o.2 x.w x.h
  let l : Launch :=
    { info := x, deps := y.ids, die := j.die, phase := .running, ox := o.1, oy := o.2, det := y.det, trig := y.trig
      ended := (y.ended.map fun i => ts.getD i 0).foldl NSet.insert [], seq := y.seq, held := y.held }
  let s := { s with
    launches := SMap.set s.launches n l, serial := n + 1
    regions := match vs with | v :: _ => (if h : c < 4 then s.regions.set c v.region else s.regions) | [] => s.regions }
  match s.restoreFolds c ts (match vs with | v :: _ => v.folds | [] => []) with
  | none => .error 0
  | some s =>
    let s := (vs.zip ts).foldl (fun s p => s.restoreTile l n p.1 p.2) s
    match s.restageAll c ((vs.zip ts).map fun p => (p.2, p.1.staging)) with
    | .error a => .error a
    | .ok s =>
      let at_ (e : Nat × Nat) : Nat × Nat := (64 * ts.getD (e.1 / 64) 0 + e.1 % 64, e.2)
      let new := y.blocks.map fun b => { b with ctx := c, entry := at_ b.entry, exit := at_ b.exit, nodes := b.nodes.map at_, stores := b.stores.map at_ }
      let s := { s with
        blocks := (s.blocks.filter fun (b : Block) => b.ctx != c || !ts.contains (gidTile b.entry.1)) ++ new
        spawned := y.spawned.foldl (fun (m : SMap Nat) (f : Nat × Nat) => SMap.set m (2 ^ 18 * (n + 1) + 65536 * c + f.1) f.2) s.spawned }
      match s.areaWrite j (j.area + 4) 4 2 with
      | .error e => .error e.2
      | .ok s => .ok { s with jobs := s.jobs.filter (· != j) }

/-- A restore that fails kills the launch that it has begun: it counts as completed, R365. -/
def restoreFails (s : State) (j : SaveJob) (x : LaunchRec) (a : Nat) : State :=
  let l : Launch := { info := x, die := j.die, phase := .done, trig := true }
  ((({ s with launches := SMap.set s.launches s.serial l } : State).tick).jobFails j a).makeEligible

/-- The launch record that the header of an area gives, in context `c`, with what the first block adds. -/
def savedRecord (h c : Nat) (y : SavedLaunch) : LaunchRec :=
  { id := bitsOf h 95 64, w := bitsOf h 103 96, h := bitsOf h 111 104, ctl := BitVec.ofNat 8 (bitsOf h 119 117 * 32 + 8 * c + bitsOf h 114 112),
    ring := bitsOf h 127 120, image := y.image, text := bitsOf h 383 320, tsize := bitsOf h 479 448, dsize := bitsOf h 511 480,
    data := bitsOf h 447 384, rbase := bitsOf h 319 256, deps := y.deps, ndeps := y.ndeps, ql := y.ql }

/-- The launch in the first tile block of an area; one that no save has written there has nothing but its header. -/
def firstLaunch (vs : List (Nat × SavedTile)) : SavedLaunch :=
  match vs with
  | (_, { launch := some y, .. }) :: _ => y
  | _ => ⟨0, 0, 0, 0, [], false, false, [], 0, [], [], [], 0⟩

/-- CONTEXT_RESTORE_COMPLETE: the launch of a save area resumes once tiles are free for it, or the restore fails. -/
def restoreComplete (s : State) (die n : Nat) : State :=
  match (s.jobs.filter fun j => j.die == die && j.back)[n]? with
  | none => s
  | some j =>
    match s.areaRead j j.area 64 with
    | (.error e, s) => s.jobFails j e.2
    | (.ok h, s) =>
      let size := bitsOf h 191 128
      match s.readWords j j.area (size / 4096 + 1) ((size + 7) / 8) with
      | (.error e, s) => s.restoreFails j (savedRecord h j.ctx (firstLaunch [])) e.2
      | (.ok ws, s) =>
        let vs := readBlocks { ctx := j.ctx, base := s.serial } ws (bitsOf h 103 96 * bitsOf h 111 104) 512
        let y := firstLaunch vs
        let x := savedRecord h j.ctx y
        match (origins x.w x.h).find? fun o => ((rectangle o.1 o.2 x.w x.h).zip (vs.map (·.2))).all fun p => s.restoreFree x p.2 p.1 with
        | none => s
        | some o =>
          match badLegend j.area vs ws with
          | some a => s.restoreFails j x a
          | none =>
            match s.restoreNow j x y (vs.map (·.2)) o with
            | .ok s => s
            | .error a => s.restoreFails j x a

end State

def execCtxsave (d a b : SReg) (s : State) : Out := .next (s.ctxWord false d a b)
def execCtxrest (d a b : SReg) (s : State) : Out := .next (s.ctxWord true d a b)
def execContextSaveComplete (die n : Nat) (s : State) : Out := settle (s.saveComplete die n)
def execContextRestoreComplete (die n : Nat) (s : State) : Out := settle (s.restoreComplete die n)

end Sys2Proof.Machine
end

