-- ==== Sys2Proof/Machine/Dispatch.lean ====
section
/-! DEFINITION. One arm for every constructor of `Instr`: a direct call of its meaning. -/

namespace Sys2Proof.Machine

def exec (i : Instr) (s : State) : Host.Outcome State Fault Refusal :=
  match i with
  | .add d a b => Sys2Proof.Machine.execAdd d a b s
  | .sub d a b => Sys2Proof.Machine.execSub d a b s
  | .mul d a b => Sys2Proof.Machine.execMul d a b s
  | .mulh d a b => Sys2Proof.Machine.execMulh d a b s
  | .mulhs d a b => Sys2Proof.Machine.execMulhs d a b s
  | .div d a b => Sys2Proof.Machine.execDiv d a b s
  | .divs d a b => Sys2Proof.Machine.execDivs d a b s
  | .rem d a b => Sys2Proof.Machine.execRem d a b s
  | .rems d a b => Sys2Proof.Machine.execRems d a b s
  | .and d a b => Sys2Proof.Machine.execAnd d a b s
  | .or d a b => Sys2Proof.Machine.execOr d a b s
  | .xor d a b => Sys2Proof.Machine.execXor d a b s
  | .andn d a b => Sys2Proof.Machine.execAndn d a b s
  | .orn d a b => Sys2Proof.Machine.execOrn d a b s
  | .shl d a b => Sys2Proof.Machine.execShl d a b s
  | .shr d a b => Sys2Proof.Machine.execShr d a b s
  | .sha d a b => Sys2Proof.Machine.execSha d a b s
  | .rol d a b => Sys2Proof.Machine.execRol d a b s
  | .ror d a b => Sys2Proof.Machine.execRor d a b s
  | .min d a b => Sys2Proof.Machine.execMin d a b s
  | .max d a b => Sys2Proof.Machine.execMax d a b s
  | .mins d a b => Sys2Proof.Machine.execMins d a b s
  | .maxs d a b => Sys2Proof.Machine.execMaxs d a b s
  | .clz d a => Sys2Proof.Machine.execClz d a s
  | .ctz d a => Sys2Proof.Machine.execCtz d a s
  | .popc d a => Sys2Proof.Machine.execPopc d a s
  | .brev d a => Sys2Proof.Machine.execBrev d a s
  | .bswap d a => Sys2Proof.Machine.execBswap d a s
  | .addw d a b => Sys2Proof.Machine.execAddw d a b s
  | .subw d a b => Sys2Proof.Machine.execSubw d a b s
  | .mulw d a b => Sys2Proof.Machine.execMulw d a b s
  | .shlw d a b => Sys2Proof.Machine.execShlw d a b s
  | .addi d a imm => Sys2Proof.Machine.execAddi d a imm s
  | .andi d a imm => Sys2Proof.Machine.execAndi d a imm s
  | .ori d a imm => Sys2Proof.Machine.execOri d a imm s
  | .xori d a imm => Sys2Proof.Machine.execXori d a imm s
  | .shli d a imm => Sys2Proof.Machine.execShli d a imm s
  | .shri d a imm => Sys2Proof.Machine.execShri d a imm s
  | .shai d a imm => Sys2Proof.Machine.execShai d a imm s
  | .muli d a imm => Sys2Proof.Machine.execMuli d a imm s
  | .mini d a imm => Sys2Proof.Machine.execMini d a imm s
  | .maxi d a imm => Sys2Proof.Machine.execMaxi d a imm s
  | .lui d imm => Sys2Proof.Machine.execLui d imm s
  | .addpc d imm => Sys2Proof.Machine.execAddpc d imm s
  | .ceq q a b => Sys2Proof.Machine.execCeq q a b s
  | .cne q a b => Sys2Proof.Machine.execCne q a b s
  | .clt q a b => Sys2Proof.Machine.execClt q a b s
  | .cle q a b => Sys2Proof.Machine.execCle q a b s
  | .clts q a b => Sys2Proof.Machine.execClts q a b s
  | .cles q a b => Sys2Proof.Machine.execCles q a b s
  | .cbit q a b => Sys2Proof.Machine.execCbit q a b s
  | .cz q a => Sys2Proof.Machine.execCz q a s
  | .qand d a b => Sys2Proof.Machine.execQand d a b s
  | .qor d a b => Sys2Proof.Machine.execQor d a b s
  | .qxor d a b => Sys2Proof.Machine.execQxor d a b s
  | .qnot d a => Sys2Proof.Machine.execQnot d a s
  | .qset d b => Sys2Proof.Machine.execQset d b s
  | .qmov d a => Sys2Proof.Machine.execQmov d a s
  | .sel d a g => Sys2Proof.Machine.execSel d a g s
  | .qrd d => Sys2Proof.Machine.execQrd d s
  | .qwr a => Sys2Proof.Machine.execQwr a s
  | .ldzB d a off => Sys2Proof.Machine.execLdzB d a off s
  | .ldzH d a off => Sys2Proof.Machine.execLdzH d a off s
  | .ldzW d a off => Sys2Proof.Machine.execLdzW d a off s
  | .ldzD d a off => Sys2Proof.Machine.execLdzD d a off s
  | .ldsB d a off => Sys2Proof.Machine.execLdsB d a off s
  | .ldsH d a off => Sys2Proof.Machine.execLdsH d a off s
  | .ldsW d a off => Sys2Proof.Machine.execLdsW d a off s
  | .stB v a off g => Sys2Proof.Machine.execStB v a off g s
  | .stH v a off g => Sys2Proof.Machine.execStH v a off g s
  | .stW v a off g => Sys2Proof.Machine.execStW v a off g s
  | .stD v a off g => Sys2Proof.Machine.execStD v a off g s
  | .ldgB d a off => Sys2Proof.Machine.execLdgB d a off s
  | .ldgH d a off => Sys2Proof.Machine.execLdgH d a off s
  | .ldgW d a off => Sys2Proof.Machine.execLdgW d a off s
  | .ldgD d a off => Sys2Proof.Machine.execLdgD d a off s
  | .stgB v a off g => Sys2Proof.Machine.execStgB v a off g s
  | .stgH v a off g => Sys2Proof.Machine.execStgH v a off g s
  | .stgW v a off g => Sys2Proof.Machine.execStgW v a off g s
  | .stgD v a off g => Sys2Proof.Machine.execStgD v a off g s
  | .aadd d a b g => Sys2Proof.Machine.execAadd d a b g s
  | .aswp d a b g => Sys2Proof.Machine.execAswp d a b g s
  | .acas d a b g => Sys2Proof.Machine.execAcas d a b g s
  | .amin d a b g => Sys2Proof.Machine.execAmin d a b g s
  | .amax d a b g => Sys2Proof.Machine.execAmax d a b g s
  | .aand d a b g => Sys2Proof.Machine.execAand d a b g s
  | .aor d a b g => Sys2Proof.Machine.execAor d a b g s
  | .axor d a b g => Sys2Proof.Machine.execAxor d a b g s
  | .waitv d a b g => Sys2Proof.Machine.execWaitv d a b g s
  | .wake d a b g => Sys2Proof.Machine.execWake d a b g s
  | .br off g => Sys2Proof.Machine.execBr off g s
  | .call off g => Sys2Proof.Machine.execCall off g s
  | .jr a g => Sys2Proof.Machine.execJr a g s
  | .callt d a b g => Sys2Proof.Machine.execCallt d a b g s
  | .ret a g => Sys2Proof.Machine.execRet a g s
  | .twait d => Sys2Proof.Machine.execTwait d s
  | .tbind d a b => Sys2Proof.Machine.execTbind d a b s
  | .tyield => Sys2Proof.Machine.execTyield s
  | .tspawn d a b => Sys2Proof.Machine.execTspawn d a b s
  | .texit => Sys2Proof.Machine.execTexit s
  | .chrd d a b => Sys2Proof.Machine.execChrd d a b s
  | .chwr a b => Sys2Proof.Machine.execChwr a b s
  | .trig => Sys2Proof.Machine.execTrig s
  | .barq a => Sys2Proof.Machine.execBarq a s
  | .opld d a b => Sys2Proof.Machine.execOpld d a b s
  | .swld d a b => Sys2Proof.Machine.execSwld d a b s
  | .shplace d a b => Sys2Proof.Machine.execShplace d a b s
  | .shfree d a b => Sys2Proof.Machine.execShfree d a b s
  | .cfgload d a b => Sys2Proof.Machine.execCfgload d a b s
  | .ctxpri a b => Sys2Proof.Machine.execCtxpri a b s
  | .edgedepth d a b => Sys2Proof.Machine.execEdgedepth d a b s
  | .tvset d a b y => Sys2Proof.Machine.execTvset d a b y s
  | .tvclr a y => Sys2Proof.Machine.execTvclr a y s
  | .sbind d a b y => Sys2Proof.Machine.execSbind d a b y s
  | .sbar y => Sys2Proof.Machine.execSbar y s
  | .swait d a y => Sys2Proof.Machine.execSwait d a y s
  | .scan a y => Sys2Proof.Machine.execScan a y s
  | .cpy d a y => Sys2Proof.Machine.execCpy d a y s
  | .cpyv d a b y => Sys2Proof.Machine.execCpyv d a b y s
  | .cpyf d a y => Sys2Proof.Machine.execCpyf d a y s
  | .cpyst d a b y => Sys2Proof.Machine.execCpyst d a b y s
  | .cpysync d a y => Sys2Proof.Machine.execCpysync d a y s
  | .ddvar d a y => Sys2Proof.Machine.execDdvar d a y s
  | .ddapply d a b y => Sys2Proof.Machine.execDdapply d a b y s
  | .ddite d a b y => Sys2Proof.Machine.execDdite d a b y s
  | .ddrest d a b y => Sys2Proof.Machine.execDdrest d a b y s
  | .ddex d a b y => Sys2Proof.Machine.execDdex d a b y s
  | .ddwcnt d a b y => Sys2Proof.Machine.execDdwcnt d a b y s
  | .ddeval d a b y => Sys2Proof.Machine.execDdeval d a b y s
  | .ddref d a y => Sys2Proof.Machine.execDdref d a y s
  | .ddderef d a y => Sys2Proof.Machine.execDdderef d a y s
  | .ddcollCollect d a b y => Sys2Proof.Machine.execDdcollCollect d a b y s
  | .ddcollReset d a b y => Sys2Proof.Machine.execDdcollReset d a b y s
  | .ddcollThreshold d a b y => Sys2Proof.Machine.execDdcollThreshold d a b y s
  | .ddord d a b y => Sys2Proof.Machine.execDdord d a b y s
  | .ddswap d a b y => Sys2Proof.Machine.execDdswap d a b y s
  | .ddexp d a b y => Sys2Proof.Machine.execDdexp d a b y s
  | .ddimp d a b y => Sys2Proof.Machine.execDdimp d a b y s
  | .ddstat d a b y => Sys2Proof.Machine.execDdstat d a b y s
  | .egpost d a y => Sys2Proof.Machine.execEgpost d a y s
  | .egrel d a b y => Sys2Proof.Machine.execEgrel d a b y s
  | .egrej d a b y => Sys2Proof.Machine.execEgrej d a b y s
  | .egstat d a b y => Sys2Proof.Machine.execEgstat d a b y s
  | .fdeclDescriptor d a b y => Sys2Proof.Machine.execFdeclDescriptor d a b y s
  | .fdeclRegion d a b y => Sys2Proof.Machine.execFdeclRegion d a b y s
  | .fgrow d a y => Sys2Proof.Machine.execFgrow d a y s
  | .fcheck d a y => Sys2Proof.Machine.execFcheck d a y s
  | .fdrop d a y => Sys2Proof.Machine.execFdrop d a y s
  | .fstat d a b y => Sys2Proof.Machine.execFstat d a b y s
  | .coll d a y => Sys2Proof.Machine.execColl d a y s
  | .colst d a b y => Sys2Proof.Machine.execColst d a b y s
  | .colab d a b y => Sys2Proof.Machine.execColab d a b y s
  | .qtail d a b => Sys2Proof.Machine.execQtail d a b s
  | .spawnat d a b => Sys2Proof.Machine.execSpawnat d a b s
  | .cancelJob d a => Sys2Proof.Machine.execCancelJob d a s
  | .cancelLaunch d a => Sys2Proof.Machine.execCancelLaunch d a s
  | .cancelClear d a => Sys2Proof.Machine.execCancelClear d a s
  | .dsetupNew d a b => Sys2Proof.Machine.execDsetupNew d a b s
  | .dsetupAdd d a b => Sys2Proof.Machine.execDsetupAdd d a b s
  | .dwmarkPost d a b => Sys2Proof.Machine.execDwmarkPost d a b s
  | .dwmarkRelease d a b => Sys2Proof.Machine.execDwmarkRelease d a b s
  | .dstat d a b => Sys2Proof.Machine.execDstat d a b s
  | .trap a => Sys2Proof.Machine.execTrap a s
  | .tret => Sys2Proof.Machine.execTret s
  | .csrr d csr => Sys2Proof.Machine.execCsrr d csr s
  | .csrw d csr => Sys2Proof.Machine.execCsrw d csr s
  | .csrs d csr => Sys2Proof.Machine.execCsrs d csr s
  | .csrc d csr => Sys2Proof.Machine.execCsrc d csr s
  | .fence scope => Sys2Proof.Machine.execFence scope s
  | .halt => Sys2Proof.Machine.execHalt s
  | .brkpt => Sys2Proof.Machine.execBrkpt s
  | .idle => Sys2Proof.Machine.execIdle s
  | .ctxsave d a b => Sys2Proof.Machine.execCtxsave d a b s
  | .ctxrest d a b => Sys2Proof.Machine.execCtxrest d a b s
  | .tlbinv a b => Sys2Proof.Machine.execTlbinv a b s
  | .elemAdd w => Sys2Proof.Machine.execElemAdd w s
  | .elemSub w => Sys2Proof.Machine.execElemSub w s
  | .elemMul w => Sys2Proof.Machine.execElemMul w s
  | .mac w => Sys2Proof.Machine.execMac w s
  | .elemMin w => Sys2Proof.Machine.execElemMin w s
  | .elemMax w => Sys2Proof.Machine.execElemMax w s
  | .abs w => Sys2Proof.Machine.execAbs w s
  | .neg w => Sys2Proof.Machine.execNeg w s
  | .elemAnd w => Sys2Proof.Machine.execElemAnd w s
  | .elemOr w => Sys2Proof.Machine.execElemOr w s
  | .elemXor w => Sys2Proof.Machine.execElemXor w s
  | .not w => Sys2Proof.Machine.execNot w s
  | .elemShl w => Sys2Proof.Machine.execElemShl w s
  | .elemShr w => Sys2Proof.Machine.execElemShr w s
  | .elemSha w => Sys2Proof.Machine.execElemSha w s
  | .clamp w => Sys2Proof.Machine.execClamp w s
  | .fadd w => Sys2Proof.Machine.execFadd w s
  | .fsub w => Sys2Proof.Machine.execFsub w s
  | .fmul w => Sys2Proof.Machine.execFmul w s
  | .fma w => Sys2Proof.Machine.execFma w s
  | .fmin w => Sys2Proof.Machine.execFmin w s
  | .fmax w => Sys2Proof.Machine.execFmax w s
  | .fabs w => Sys2Proof.Machine.execFabs w s
  | .fneg w => Sys2Proof.Machine.execFneg w s
  | .fdiv w => Sys2Proof.Machine.execFdiv w s
  | .fsqrt w => Sys2Proof.Machine.execFsqrt w s
  | .frcp w => Sys2Proof.Machine.execFrcp w s
  | .frsq w => Sys2Proof.Machine.execFrsq w s
  | .fexp w => Sys2Proof.Machine.execFexp w s
  | .flog w => Sys2Proof.Machine.execFlog w s
  | .ftanh w => Sys2Proof.Machine.execFtanh w s
  | .fsig w => Sys2Proof.Machine.execFsig w s
  | .cvt w => Sys2Proof.Machine.execCvt w s
  | .cvtr w => Sys2Proof.Machine.execCvtr w s
  | .pack w => Sys2Proof.Machine.execPack w s
  | .unpack w => Sys2Proof.Machine.execUnpack w s
  | .scale w => Sys2Proof.Machine.execScale w s
  | .qnt w => Sys2Proof.Machine.execQnt w s
  | .cmpeq w => Sys2Proof.Machine.execCmpeq w s
  | .cmpne w => Sys2Proof.Machine.execCmpne w s
  | .cmplt w => Sys2Proof.Machine.execCmplt w s
  | .cmple w => Sys2Proof.Machine.execCmple w s
  | .steer w => Sys2Proof.Machine.execSteer w s
  | .merge w => Sys2Proof.Machine.execMerge w s
  | .mergeo w => Sys2Proof.Machine.execMergeo w s
  | .gate w => Sys2Proof.Machine.execGate w s
  | .selp w => Sys2Proof.Machine.execSelp w s
  | .nullgen w => Sys2Proof.Machine.execNullgen w s
  | .taginc w => Sys2Proof.Machine.execTaginc w s
  | .tagset w => Sys2Proof.Machine.execTagset w s
  | .tagget w => Sys2Proof.Machine.execTagget w s
  | .tagclr w => Sys2Proof.Machine.execTagclr w s
  | .reord w => Sys2Proof.Machine.execReord w s
  | .ctxalloc w => Sys2Proof.Machine.execCtxalloc w s
  | .colpack w => Sys2Proof.Machine.execColpack w s
  | .colunpk w => Sys2Proof.Machine.execColunpk w s
  | .framealloc w => Sys2Proof.Machine.execFramealloc w s
  | .framefree w => Sys2Proof.Machine.execFramefree w s
  | .spawn w => Sys2Proof.Machine.execSpawn w s
  | .stamp w => Sys2Proof.Machine.execStamp w s
  | .loopb w => Sys2Proof.Machine.execLoopb w s
  | .loope w => Sys2Proof.Machine.execLoope w s
  | .loopt w => Sys2Proof.Machine.execLoopt w s
  | .loopx w => Sys2Proof.Machine.execLoopx w s
  | .loopi w => Sys2Proof.Machine.execLoopi w s
  | .rsum w => Sys2Proof.Machine.execRsum w s
  | .rmax w => Sys2Proof.Machine.execRmax w s
  | .rmin w => Sys2Proof.Machine.execRmin w s
  | .rand w => Sys2Proof.Machine.execRand w s
  | .elemRor w => Sys2Proof.Machine.execElemRor w s
  | .rxor w => Sys2Proof.Machine.execRxor w s
  | .elemRdot w => Sys2Proof.Machine.execElemRdot w s
  | .rcnt w => Sys2Proof.Machine.execRcnt w s
  | .shuf w => Sys2Proof.Machine.execShuf w s
  | .bcast w => Sys2Proof.Machine.execBcast w s
  | .rotl w => Sys2Proof.Machine.execRotl w s
  | .lsel w => Sys2Proof.Machine.execLsel w s
  | .scanadd w => Sys2Proof.Machine.execScanadd w s
  | .topk w => Sys2Proof.Machine.execTopk w s
  | .nld w => Sys2Proof.Machine.execNld w s
  | .nst w => Sys2Proof.Machine.execNst w s
  | .nldt w => Sys2Proof.Machine.execNldt w s
  | .ald w => Sys2Proof.Machine.execAld w s
  | .ast w => Sys2Proof.Machine.execAst w s
  | .aldr w => Sys2Proof.Machine.execAldr w s
  | .sld w => Sys2Proof.Machine.execSld w s
  | .sldc w => Sys2Proof.Machine.execSldc w s
  | .vst w => Sys2Proof.Machine.execVst w s
  | .oupd w => Sys2Proof.Machine.execOupd w s
  | .fencee w => Sys2Proof.Machine.execFencee w s
  | .pfetch w => Sys2Proof.Machine.execPfetch w s
  | .dupd w => Sys2Proof.Machine.execDupd w s
  | .dldt w => Sys2Proof.Machine.execDldt w s
  | .dlds w => Sys2Proof.Machine.execDlds w s
  | .dfront w => Sys2Proof.Machine.execDfront w s
  | .mxctl w => Sys2Proof.Machine.execMxctl w s
  | .mxfeed w => Sys2Proof.Machine.execMxfeed w s
  | .mxrda w => Sys2Proof.Machine.execMxrda w s
  | .nop w => Sys2Proof.Machine.execNop w s
  | .const w => Sys2Proof.Machine.execConst w s
  | .copyt w => Sys2Proof.Machine.execCopyt w s
  | .sink w => Sys2Proof.Machine.execSink w s
  | .errchk w => Sys2Proof.Machine.execErrchk w s
  | .trape w => Sys2Proof.Machine.execTrape w s
  | .brk w => Sys2Proof.Machine.execBrk w s
  | .adds w => Sys2Proof.Machine.execAdds w s
  | .subs w => Sys2Proof.Machine.execSubs w s
  | .muls w => Sys2Proof.Machine.execMuls w s
  | .elemPopc w => Sys2Proof.Machine.execElemPopc w s
  | .elemClz w => Sys2Proof.Machine.execElemClz w s
  | .frnd w => Sys2Proof.Machine.execFrnd w s
  | .fcls w => Sys2Proof.Machine.execFcls w s
  | .fcps w => Sys2Proof.Machine.execFcps w s
  | .avg w => Sys2Proof.Machine.execAvg w s
  | .sad w => Sys2Proof.Machine.execSad w s
  | .hist w => Sys2Proof.Machine.execHist w s
  | .lut w => Sys2Proof.Machine.execLut w s
  | .bits w => Sys2Proof.Machine.execBits w s
  | .biti w => Sys2Proof.Machine.execBiti w s
  | .idx w => Sys2Proof.Machine.execIdx w s
  | .mma t => Sys2Proof.Machine.execMma t s
  | .mmao t => Sys2Proof.Machine.execMmao t s
  | .mmat t => Sys2Proof.Machine.execMmat t s
  | .mmas t => Sys2Proof.Machine.execMmas t s
  | .mmax t => Sys2Proof.Machine.execMmax t s
  | .mmad t => Sys2Proof.Machine.execMmad t s
  | .mmai t => Sys2Proof.Machine.execMmai t s
  | .mmaq t => Sys2Proof.Machine.execMmaq t s
  | .mmab t => Sys2Proof.Machine.execMmab t s
  | .mmaf t => Sys2Proof.Machine.execMmaf t s
  | .mxRdot t => Sys2Proof.Machine.execMxRdot t s
  | .rdotx t => Sys2Proof.Machine.execRdotx t s
  | .aclr t => Sys2Proof.Machine.execAclr t s
  | .aread t => Sys2Proof.Machine.execAread t s
  | .awrite t => Sys2Proof.Machine.execAwrite t s
  | .ascale t => Sys2Proof.Machine.execAscale t s
  | .acvt t => Sys2Proof.Machine.execAcvt t s
  | .abias t => Sys2Proof.Machine.execAbias t s
  | .aact t => Sys2Proof.Machine.execAact t s
  | .atrn t => Sys2Proof.Machine.execAtrn t s
  | .bload t => Sys2Proof.Machine.execBload t s
  | .bsel t => Sys2Proof.Machine.execBsel t s
  | .bflip t => Sys2Proof.Machine.execBflip t s
  | .bstat t => Sys2Proof.Machine.execBstat t s
  | .calloc t => Sys2Proof.Machine.execCalloc t s
  | .cfree t => Sys2Proof.Machine.execCfree t s
  | .cpark t => Sys2Proof.Machine.execCpark t s
  | .cfetch t => Sys2Proof.Machine.execCfetch t s
  | .aerrq t => Sys2Proof.Machine.execAerrq t s
  | .aflush t => Sys2Proof.Machine.execAflush t s
  | .async t => Sys2Proof.Machine.execAsync t s
  | .anop t => Sys2Proof.Machine.execAnop t s
  | .powerOn => Sys2Proof.Machine.execPowerOn s
  | .mreset => Sys2Proof.Machine.execMreset s
  | .startUpComplete => Sys2Proof.Machine.execStartUpComplete s
  | .taskSelect tile => Sys2Proof.Machine.execTaskSelect tile s
  | .bankFreed tile => Sys2Proof.Machine.execBankFreed tile s
  | .colourBeatArrival tile => Sys2Proof.Machine.execColourBeatArrival tile s
  | .tileBusDownwardAccept tile ctx col => Sys2Proof.Machine.execTileBusDownwardAccept tile ctx col s
  | .tokenArrival gid src ctx col => Sys2Proof.Machine.execTokenArrival gid src ctx col s
  | .spilledRecordTakeBack gid ctx => Sys2Proof.Machine.execSpilledRecordTakeBack gid ctx s
  | .throttleRecovery gid ctx slot => Sys2Proof.Machine.execThrottleRecovery gid ctx slot s
  | .loopIterationIssue gid ctx slot => Sys2Proof.Machine.execLoopIterationIssue gid ctx slot s
  | .edgeBeatForward gid entry => Sys2Proof.Machine.execEdgeBeatForward gid entry s
  | .edgeDepthChange tile => Sys2Proof.Machine.execEdgeDepthChange tile s
  | .blockAdmission gid ctx slot => Sys2Proof.Machine.execBlockAdmission gid ctx slot s
  | .blockCommit inst => Sys2Proof.Machine.execBlockCommit inst s
  | .memoryRequestPerform r => Sys2Proof.Machine.execMemoryRequestPerform r s
  | .memoryReply gid id => Sys2Proof.Machine.execMemoryReply gid id s
  | .namedAccess gid id => Sys2Proof.Machine.execNamedAccess gid id s
  | .foldStallTimeout gid id => Sys2Proof.Machine.execFoldStallTimeout gid id s
  | .aliasChainRequest gid id => Sys2Proof.Machine.execAliasChainRequest gid id s
  | .chainStateRelease tile n => Sys2Proof.Machine.execChainStateRelease tile n s
  | .translationWalk die ctx va => Sys2Proof.Machine.execTranslationWalk die ctx va s
  | .ownerBufferReferral gid line => Sys2Proof.Machine.execOwnerBufferReferral gid line s
  | .cellActivation line => Sys2Proof.Machine.execCellActivation line s
  | .datumInsertion gid id => Sys2Proof.Machine.execDatumInsertion gid id s
  | .keeperFrontierApply gid id => Sys2Proof.Machine.execKeeperFrontierApply gid id s
  | .watermarkRise unit dom => Sys2Proof.Machine.execWatermarkRise unit dom s
  | .foldWordComplete tile tid => Sys2Proof.Machine.execFoldWordComplete tile tid s
  | .datumWordComplete tile tid => Sys2Proof.Machine.execDatumWordComplete tile tid s
  | .ddWordComplete tile tid => Sys2Proof.Machine.execDdWordComplete tile tid s
  | .copySegment tile ctx ticket seg => Sys2Proof.Machine.execCopySegment tile ctx ticket seg s
  | .copyCommandComplete tile ctx ticket => Sys2Proof.Machine.execCopyCommandComplete tile ctx ticket s
  | .streamStart tile ctx n => Sys2Proof.Machine.execStreamStart tile ctx n s
  | .streamTokenTransfer tile ctx n => Sys2Proof.Machine.execStreamTokenTransfer tile ctx n s
  | .streamComplete tile ctx n => Sys2Proof.Machine.execStreamComplete tile ctx n s
  | .egressRecordEnter tile tid => Sys2Proof.Machine.execEgressRecordEnter tile tid s
  | .egressDelivery die sess => Sys2Proof.Machine.execEgressDelivery die sess s
  | .collectiveComplete tile ctx ticket => Sys2Proof.Machine.execCollectiveComplete tile ctx ticket s
  | .collectiveAbort gkey seq rank cause => Sys2Proof.Machine.execCollectiveAbort gkey seq rank cause s
  | .queueTailWrite die q tail => Sys2Proof.Machine.execQueueTailWrite die q tail s
  | .schedulerPull die q => Sys2Proof.Machine.execSchedulerPull die q s
  | .priorityAging die n => Sys2Proof.Machine.execPriorityAging die n s
  | .allocatorPlace die n => Sys2Proof.Machine.execAllocatorPlace die n s
  | .compaction lid ox oy => Sys2Proof.Machine.execCompaction lid ox oy s
  | .tileCompletion tile ctx => Sys2Proof.Machine.execTileCompletion tile ctx s
  | .workSteal tile => Sys2Proof.Machine.execWorkSteal tile s
  | .regionFaultTake tile ctx => Sys2Proof.Machine.execRegionFaultTake tile ctx s
  | .regionKill level tile sheet ctx => Sys2Proof.Machine.execRegionKill level tile sheet ctx s
  | .handlerDelivery tile ctx => Sys2Proof.Machine.execHandlerDelivery tile ctx s
  | .retryRestart tile ctx => Sys2Proof.Machine.execRetryRestart tile ctx s
  | .atomicEmulation r => Sys2Proof.Machine.execAtomicEmulation r s
  | .emulatedWaitvPoll tile tid => Sys2Proof.Machine.execEmulatedWaitvPoll tile tid s
  | .contextSaveComplete die n => Sys2Proof.Machine.execContextSaveComplete die n s
  | .contextRestoreComplete die n => Sys2Proof.Machine.execContextRestoreComplete die n s
  | .patrolScrub sp addr => Sys2Proof.Machine.execPatrolScrub sp addr s
  | .tileRetirement tile => Sys2Proof.Machine.execTileRetirement tile s
  | .linkFlitResend link => Sys2Proof.Machine.execLinkFlitResend link s
  | .linkDown link => Sys2Proof.Machine.execLinkDown link s
  | .planeDown plane => Sys2Proof.Machine.execPlaneDown plane s
  | .spawnPacketArrival p => Sys2Proof.Machine.execSpawnPacketArrival p s
  | .remoteWordComplete tile tid resp => Sys2Proof.Machine.execRemoteWordComplete tile tid resp s
  | .thermalThrottle die power => Sys2Proof.Machine.execThermalThrottle die power s
  | .thermalShutdown die => Sys2Proof.Machine.execThermalShutdown die s
  | .powerRemoval => Sys2Proof.Machine.execPowerRemoval s
  | .hostMemoryWrite addr bytes => Sys2Proof.Machine.execHostMemoryWrite addr bytes s
  | .hostMemoryRead addr n => Sys2Proof.Machine.execHostMemoryRead addr n s
  | .trootWrite ctx value => Sys2Proof.Machine.execTrootWrite ctx value s
  | .qdescWrite die q value => Sys2Proof.Machine.execQdescWrite die q value s
  | .egringWrite die value => Sys2Proof.Machine.execEgringWrite die value s
  | .fltringWrite die value => Sys2Proof.Machine.execFltringWrite die value s
  | .msgringWrite value => Sys2Proof.Machine.execMsgringWrite value s
  | .ddctlWrite die e value => Sys2Proof.Machine.execDdctlWrite die e value s
  | .haltrel die value => Sys2Proof.Machine.execHaltrel die value s
  | .devstatRrClear die => Sys2Proof.Machine.execDevstatRrClear die s
  | .managementRegisterWrite die offset value => Sys2Proof.Machine.execManagementRegisterWrite die offset value s
  | .thermalThrottleLeft die => Sys2Proof.Machine.execThermalThrottleLeft die s
  | .cancelMessageArrival form id => Sys2Proof.Machine.execCancelMessageArrival form id s

end Sys2Proof.Machine
end

