-- ==== Sys2Proof/Machine/Surveyor.lean ====
section
/-! DEFINITION. How the agents of a tile take their turns: the Surveyor fetches and issues the words of its running task (R13, R17,
R23, R43, R377), the arbiter of an element selects a slot (R124), and the node takes the entry at the head of its queue (R189). -/

namespace Sys2Proof.Machine

namespace State

/-! ## The Surveyor -/

/-- The word at the running task's pc, lowest byte first. -/
def fetched (s : State) : List Byte := leBytes 4 (Memory.readN s.here.istore.bytes s.cur.pc.toNat 4)

/-- An instruction breakpoint of the context matches the word at pc, and BSK does not exempt it, R23. -/
def atBreakpoint (s : State) : Bool :=
  !s.cur.exempt && s.curCtx.ibk.toList.any fun b => b.en && b.addr == s.cur.pc.extractLsb' 2 13

/-- The cause of a word that decodes to nothing. That of a BARQ whose operand names no group comes before that of its guard, R21 and R178. -/
def rejectCause (s : State) (r : Reject) : Nat :=
  let w : Word32 := BitVec.ofNat 32 (leNat s.fetched)
  if r = .guardField ∧ fMaj w = 0x1C ∧ fFn w = 8 ∧ 2 ≤ (s.reg (fA w)).toNat / 16 % 16 then 0x01 else r.cause

/-- The running task issues the word at its pc, or traps there: a breakpoint, an error that the code cannot correct, a word that
decodes to nothing, and else the word. -/
def issueWord (s : State) : Out :=
  if s.atBreakpoint then .next (s.raise 0x09 (s.cur.pc.setWidth 64))
  else if s.here.istore.uncorrectable s.cur.pc.toNat 4 then
    .next ((s.noteError s.focus.tile 0x15).freeze 0x15 (s.cur.pc.setWidth 64))
  else
    match decodeControlBytes s.fetched with
    | .ok i => exec i (s.correct (tileDie s.focus.tile) (.instrStore s.focus.tile) s.cur.pc.toNat 4)
    | .error r => .next (s.raise (s.rejectCause r) (word (leNat s.fetched)))

/-- An error of the running task's bank or descriptor that the code can correct is corrected and counted as its word issues, R377. -/
def mendTask (s : State) : State :=
  if s.cur.weak then (s.modCur fun k => { k with weak := false }).countFixed (tileDie s.focus.tile) 1 else s

/-- Such errors of an element's slots, legends and matching entries, as its arbiter looks at them. -/
def mendElem (s : State) (g : Nat) : State :=
  (List.range 4).foldl (fun s c =>
    if (s.ectx g c).weak then (s.modEctx g c fun x => { x with weak := false }).countFixed (tileDie (gidTile g)) 1 else s) s

/-- A task whose bank or descriptor an error has struck, R377. -/
def struck (s : State) (t : Nat) : Option Nat :=
  (List.range 32).find? fun n =>
    let k := (s.tile t).task n
    k.bad && k.state != .free && k.state != .frozen

/-- A task that an error has struck freezes; the rule gives its fault no value. A wait whose word is to issue again is given up, with its
monitor, R70 and R317; a word that an engine holds goes on, R347. -/
def freezeStruck (s : State) (t n : Nat) : State :=
  let (v, s) := ({ s with focus := { s.focus with tile := t, task := n } } : State).free
  let s := (s.dropMonitor t n).modTile t fun T =>
    let k := T.task n
    match k.state, k.taken with
    | .wait, _ => T.quitWait n
    | _, some w => if atomicWord w.word then T.modTask n fun k => { k with taken := none } else T
    | _, none => T
  (s.noteError t 0x15).freeze 0x15 v

/-- One turn of a tile's Surveyor. A halted one issues nothing; a free core selects a task (R17); a running task issues a word, unless an
agent still holds its last word. -/
def survey (s : State) (t : Nat) : Out :=
  if !s.powered || (s.tile t).halted then .next (s.pass t)
  else
    match s.struck t with
    | some n => .next (s.freezeStruck t n)
    | none =>
      match (s.tile t).running with
      | none => settle ((s.selectTask t).pass t)
      | some n =>
        let s := { s with focus := { s.focus with tile := t, task := n } }
        match s.cur.taken with
        | some k => .next (if k.cause.isSome then s.raiseTaken else s.pass t)
        | none => if s.cur.held.isSome then .next (s.pass t) else s.mendTask.issueWord

/-! ## Elements and nodes -/

/-- A context that an error of its own slots, legend or matching state has struck is frozen with cause 0x18, R377. -/
def freezeElem (s : State) (g : Nat) : Option State :=
  match (List.range 4).find? fun c => (s.ectx g c).bad && !(s.ectx g c).stopped with
  | none => none
  | some c => some (s.elemFault g c 0 0x18 (word (gidElem g)) none false)

/-- One turn of an element's arbiter. -/
def arbiterTurn (s : State) (g : Nat) : Out :=
  if s.withheld (tileDie (gidTile g)) then .next s
  else
    match s.freezeElem g with
    | some s => .next s
    | none => let s := s.mendElem g; s.after (s.arbitrate g)

end State

/-- The entry at the head of the focused node's queue, of opcode `n` and fields `t`, R55. -/
def nodeNum (n : Nat) (t : MxWord) (s : State) : Out :=
  match n with
  | 0 => execMma t s
  | 1 => execMmao t s
  | 2 => execMmat t s
  | 3 => execMmas t s
  | 4 => execMmax t s
  | 5 => execMmad t s
  | 6 => execMmai t s
  | 7 => execMmaq t s
  | 8 => execMmab t s
  | 9 => execMmaf t s
  | 10 => execMxRdot t s
  | 11 => execRdotx t s
  | 12 => execAclr t s
  | 13 => execAread t s
  | 14 => execAwrite t s
  | 15 => execAscale t s
  | 16 => execAcvt t s
  | 17 => execAbias t s
  | 18 => execAact t s
  | 19 => execAtrn t s
  | 20 => execBload t s
  | 21 => execBsel t s
  | 22 => execBflip t s
  | 23 => execBstat t s
  | 24 => execCalloc t s
  | 25 => execCfree t s
  | 26 => execCpark t s
  | 27 => execCfetch t s
  | 28 => execAerrq t s
  | 29 => execAflush t s
  | 30 => execAsync t s
  | _ => execAnop t s

namespace State

/-- One turn of a tile's matrix node: a token with a reserved bit set is malformed, R56. -/
def nodeTurn (s : State) (t : Nat) : Out :=
  let s := { s with focus := { s.focus with tile := t } }
  match (s.node t).fault, (s.node t).queue with
  | none, e :: _ =>
    if s.withheld (tileDie t) then .next s
    else if e.word.extractLsb' 62 2 = 0#2 ∧ e.word.extractLsb' 6 2 = 0#2 then nodeNum (e.word.extractLsb' 0 5).toNat (mxFields e.word) s
    else .next (s.nodeFault t e 0x01 0 0)
  | _, _ => .next s

end State

/-- A step of an engine or controller, by its row. -/
def runWork (w : Work) (s : State) : Out :=
  match w with
  | .taskSelect tile => execTaskSelect tile s
  | .bankFreed tile => execBankFreed tile s
  | .colourBeatArrival tile => execColourBeatArrival tile s
  | .tileBusDownwardAccept tile ctx col => execTileBusDownwardAccept tile ctx col s
  | .tokenArrival gid src ctx col => execTokenArrival gid src ctx col s
  | .spilledRecordTakeBack gid ctx => execSpilledRecordTakeBack gid ctx s
  | .throttleRecovery gid ctx slot => execThrottleRecovery gid ctx slot s
  | .loopIterationIssue gid ctx slot => execLoopIterationIssue gid ctx slot s
  | .edgeBeatForward gid entry => execEdgeBeatForward gid entry s
  | .edgeDepthChange tile => execEdgeDepthChange tile s
  | .blockAdmission gid ctx slot => execBlockAdmission gid ctx slot s
  | .blockCommit inst => execBlockCommit inst s
  | .memoryRequestPerform r => execMemoryRequestPerform r s
  | .memoryReply gid id => execMemoryReply gid id s
  | .namedAccess gid id => execNamedAccess gid id s
  | .foldStallTimeout gid id => execFoldStallTimeout gid id s
  | .aliasChainRequest gid id => execAliasChainRequest gid id s
  | .chainStateRelease tile n => execChainStateRelease tile n s
  | .cellActivation line => execCellActivation line s
  | .datumInsertion gid id => execDatumInsertion gid id s
  | .keeperFrontierApply gid id => execKeeperFrontierApply gid id s
  | .watermarkRise unit dom => execWatermarkRise unit dom s
  | .foldWordComplete tile tid => execFoldWordComplete tile tid s
  | .datumWordComplete tile tid => execDatumWordComplete tile tid s
  | .ddWordComplete tile tid => execDdWordComplete tile tid s
  | .copySegment tile ctx ticket seg => execCopySegment tile ctx ticket seg s
  | .copyCommandComplete tile ctx ticket => execCopyCommandComplete tile ctx ticket s
  | .streamStart tile ctx n => execStreamStart tile ctx n s
  | .streamTokenTransfer tile ctx n => execStreamTokenTransfer tile ctx n s
  | .streamComplete tile ctx n => execStreamComplete tile ctx n s
  | .egressRecordEnter tile tid => execEgressRecordEnter tile tid s
  | .egressDelivery die sess => execEgressDelivery die sess s
  | .collectiveComplete tile ctx ticket => execCollectiveComplete tile ctx ticket s
  | .schedulerPull die q => execSchedulerPull die q s
  | .priorityAging die n => execPriorityAging die n s
  | .allocatorPlace die n => execAllocatorPlace die n s
  | .compaction lid ox oy => execCompaction lid ox oy s
  | .tileCompletion tile ctx => execTileCompletion tile ctx s
  | .workSteal tile => execWorkSteal tile s
  | .regionFaultTake tile ctx => execRegionFaultTake tile ctx s
  | .regionKill level tile sheet ctx => execRegionKill level tile sheet ctx s
  | .handlerDelivery tile ctx => execHandlerDelivery tile ctx s
  | .retryRestart tile ctx => execRetryRestart tile ctx s
  | .atomicEmulation r => execAtomicEmulation r s
  | .emulatedWaitvPoll tile tid => execEmulatedWaitvPoll tile tid s
  | .contextSaveComplete die n => execContextSaveComplete die n s
  | .contextRestoreComplete die n => execContextRestoreComplete die n s
  | .patrolScrub sp addr => execPatrolScrub sp addr s
  | .tileRetirement tile => execTileRetirement tile s
  | .spawnPacketArrival p => execSpawnPacketArrival p s
  | .remoteWordComplete tile tid resp => execRemoteWordComplete tile tid resp s
  | .startUpComplete => execStartUpComplete s
  | .powerRemoval => execPowerRemoval s

end Sys2Proof.Machine
end

