-- ==== Sys2Proof/Machine/Agents.lean ====
section
/-! DEFINITION. The sweep: every step that some agent of the device may take next. A step that turns out not to be possible leaves
the device as it is, so the list may name more steps than can be taken; what no agent of the device does by itself comes as an input. -/

namespace Sys2Proof.Machine

/-- The words of tasks, and of killed tasks, that an engine or a controller may complete on a tile. -/
def Tile.heldWords (T : Tile) : List Nat := (List.range 32).filter fun n => (T.task n).taken.isSome

/-- The steps that may complete word `n` of tile `t`; `r` is the response of the modules that it concerns. -/
def wordSteps (t n r : Nat) : List Work :=
  [.foldWordComplete t n, .datumWordComplete t n, .ddWordComplete t n, .egressRecordEnter t n, .remoteWordComplete t n r]

/-- The steps of one context of a tile: engines, completion and containment. -/
def contextSteps (t c : Nat) (x : CtxRegs) : List Work :=
  (x.copies.flatMap fun z => (List.range (State.copySegs z.2)).map (.copySegment t c z.1 ·) ++ [.copyCommandComplete t c z.1])
    ++ (x.streams.flatMap fun z => [.streamStart t c z.1, .streamTokenTransfer t c z.1, .streamComplete t c z.1])
    ++ (x.colls.map fun z => .collectiveComplete t c z.1)
    ++ [.regionFaultTake t c, .handlerDelivery t c, .retryRestart t c, .tileCompletion t c]

/-- The steps of a tile besides those of its elements; `r` is a free value. -/
def tileSteps (r t : Nat) (T : Tile) : List Work :=
  [.bankFreed t, .colourBeatArrival t, .edgeDepthChange t, .workSteal t]
    ++ (T.down.map fun l => .tileBusDownwardAccept t (l.1 / 32) (l.1 % 32))
    ++ ((List.range T.chains.length).map (.chainStateRelease t ·))
    ++ (T.heldWords.flatMap fun n => wordSteps t n r ++ [.atomicEmulation (.task t n), .emulatedWaitvPoll t n])
    ++ ((List.range 4).flatMap fun c => contextSteps t c (T.ctx c))
    -- R381: three errors within 2^30 of the tile's cycles
    ++ (if 3 ≤ (T.errors.filter fun e => decide ((T.cycle - e).toNat ≤ 2 ^ 30)).length then [.tileRetirement t] else [])

/-- The steps of the beats that leave element `g` or wait at its ports, of its switch, and of its memory requests. -/
def elemSteps (g : Nat) (e : Elem) : List Work :=
  (e.edges.filterMap fun l =>
      if l.2.beats = [] then none
      else (neighbour g (l.1 % 4)).map fun h => .tokenArrival h ((l.1 % 4 + 2) % 4) (l.1 / 128) (l.1 % 128 / 4))
    ++ (e.ports.map fun l => .tokenArrival g (l.1 / 128) (l.1 % 128 / 32) (l.1 % 32))
    ++ (e.switch.map fun w => .edgeBeatForward g w.1)
    ++ (e.reqs.flatMap fun q =>
      [.aliasChainRequest g q.id, .namedAccess g q.id, .datumInsertion g q.id, .keeperFrontierApply g q.id,
       .memoryRequestPerform (.element g q.id), .foldStallTimeout g q.id, .atomicEmulation (.element g q.id), .memoryReply g q.id])

/-- The steps of a context of element `g` that waits for room or for time. -/
def ectxSteps (g c : Nat) (x : ElemCtx) : List Work :=
  .spilledRecordTakeBack g c :: x.loops.flatMap fun l => [.throttleRecovery g c l.slot, .loopIterationIssue g c l.slot]

/-- The steps of a die's scheduler, allocator and context-save engine. -/
def dieSteps (s : State) (die : Nat) : List Work :=
  ((s.mgmtOf die).qdesc.map fun q => .schedulerPull die q.1)
    ++ (s.launches.flatMap fun l => [.priorityAging die l.1, .allocatorPlace die l.1])
    ++ ((List.range s.jobs.length).flatMap fun n => [.contextSaveComplete die n, .contextRestoreComplete die n])
    ++ ((s.egress.map (·.sess)).foldl NSet.insert []).map (.egressDelivery die ·)

/-- The words of a memory that the scrubber has to correct or to mark, R377. -/
def scrubSteps (sp : Space) (x : Store) : List Work := (x.badEcc ++ x.weakEcc).map fun u => .patrolScrub sp (8 * u)

/-- The steps that concern the whole device; `r`, `x` and `y` are free values, with which the allocator names the launch that it may
move and its new origin (R123). -/
def deviceSteps (s : State) (r x y : Nat) : List Work :=
  ((List.range s.inflight.length).map fun n => .memoryRequestPerform (.store n))
    ++ (s.insts.map fun i => .blockCommit i.id)
    ++ (s.insts.filterMap fun i => i.stall.map fun w => .foldStallTimeout w.1 w.2.1)
    ++ (s.domains.flatMap fun d => (List.range 256).map (.watermarkRise · d.1))
    ++ ((List.range s.packets.length).map fun n => .spawnPacketArrival (.here n))
    ++ (s.orphans.map (·.1) |>.foldl NSet.insert []).flatMap (fun t =>
      (List.range (s.orphansOf t).length).flatMap fun n => wordSteps t (32 + n) r)
    ++ (s.searches.filterMap fun z =>
      if z.phase = .killing then
        some (.regionKill z.level z.tile (match z.src with | .element g => elemSheet (gidElem g) | _ => 0) z.ctx)
      else none)
    ++ ((List.range 4).flatMap (dieSteps s ·))
    ++ (s.launches.map fun l => .compaction l.1 x y) ++ scrubSteps .hbm s.hbm ++ scrubSteps .far s.far
    ++ [.startUpComplete] ++ (if s.shutdown then [.powerRemoval] else [])

/-- The die whose element or engine issues a step: while its issue cycles are withheld, it does not, R405. -/
def Work.issuer (w : Work) : Option Nat :=
  match w with
  | .blockAdmission g _ _ => some (tileDie (gidTile g))
  | .loopIterationIssue g _ _ => some (tileDie (gidTile g))
  | .ddWordComplete t _ => some (tileDie t)
  | .copySegment t _ _ _ => some (tileDie t)
  | .copyCommandComplete t _ _ => some (tileDie t)
  | .streamStart t _ _ => some (tileDie t)
  | .streamTokenTransfer t _ _ => some (tileDie t)
  | .streamComplete t _ _ => some (tileDie t)
  | .egressRecordEnter t _ => some (tileDie t)
  | .egressDelivery d _ => some d
  | .collectiveComplete t _ _ => some (tileDie t)
  | _ => none

namespace State

/-- Every turn that follows: the steps of the device and of its tiles, the arbiters and the nodes, the steps of the elements, then
every Surveyor, and then the next sweep. The arbiters come after the release of a region and before the steps that may raise its
fault again, so that a slot that is ready then fires. -/
def sweep (s : State) : State :=
  let (r, s) := s.free
  let (x, s) := s.free
  let (y, s) := s.free
  let first := deviceSteps s r.toNat (x.toNat % 32) (y.toNat % 20) ++ (s.tiles.flatMap fun T => tileSteps r.toNat T.1 T.2)
  let last := (s.elems.flatMap fun e => elemSteps e.1 e.2) ++ (s.ectxs.flatMap fun e => ectxSteps (e.1 / 4) (e.1 % 4) e.2)
  { s with turns := first.map .work ++ (((s.ectxs.map fun e => e.1 / 4).foldl NSet.insert []).map .arbiter)
      ++ (s.nodes.map fun n => .node n.1) ++ last.map .work ++ ((List.range 640).map .surveyor) ++ [.sweep] }

/-- What a turn does. -/
def take (s : State) (t : Turn) : Out :=
  match t with
  | .sweep => .next s.sweep
  | .surveyor t => s.survey t
  | .arbiter g => s.arbiterTurn g
  | .slot g c n => if s.withheld (tileDie (gidTile g)) then .next s else s.after (s.fireSlot g c n)
  | .node t => s.nodeTurn t
  | .work w => if w.issuer.any s.withheld then .next s else runWork w s
  | .input i => exec i s

/-- One step of the device: the next turn of its list; where none is listed the focused Surveyor has its turn, and a sweep follows. -/
def turn (s : State) : Out :=
  match s.turns with
  | [] => ({ s with turns := [.sweep] } : State).survey s.focus.tile
  | t :: r => ({ s with turns := r } : State).take t

/-! ## An instruction laid out as the next one -/

/-- A control word stands at the pc of the focused tile's running task, whose Surveyor has the next turn. -/
def placeControl (s : State) (w : Nat) : State :=
  let t := s.focus.tile
  let n := ((s.tile t).running).getD s.focus.task
  { s.modTile t fun T => { T with istore := { T.istore with bytes := Memory.writeN T.istore.bytes (T.task n).pc.toNat 4 w } } with turns := [] }

/-- An operation word stands in the focused slot, whose context is in force; its operands are one-beat tokens of zeros, and the slot
has the next turn. -/
def placeOp (s : State) (w : Word32) : State :=
  let g := s.focus.gid
  let c := s.focus.ctx
  let n := s.focus.slot
  let t : Token := ⟨{ ctx := BitVec.ofNat 2 c }, [0]⟩
  let roles := wordRoles (opFields w) (opNum w) n
  let s := s.modEctx g c fun x =>
    { x with
      slots := x.slots.set! n { x.slot n with opw := w, bkpt := false }
      operands := (roles.filter (·.2 == none)).map fun r => { slot := n, which := r.1, token := t, seq := (s.elem g).seq + r.1 }
      latches := (roles.filterMap (·.2)).foldl (fun m i => SMap.set m i { token := t, seq := (s.elem g).seq }) [] }
  { (s.modElem g fun e => { e with seq := e.seq + 3 }).modTile (gidTile g) fun T =>
      { T with inForce := NSet.insert T.inForce (4 * elemSheet (gidElem g) + c) } with turns := [.slot g c n] }

/-- A matrix control token stands at the head of the focused tile's queue, and its node has the next turn. -/
def placeMatrix (s : State) (w : BitVec 64) : State :=
  { s.modNode s.focus.tile fun n => { n with queue := [⟨0, w, {}⟩], fault := none } with turns := [.node s.focus.tile] }

/-- A pattern of a table row laid out as `decodeTableWord` reads it. -/
def placeWord (s : State) (nbits w : Nat) : State :=
  if 32 < nbits then s.placeMatrix (BitVec.ofNat 64 w)
  else
    match decodeControlBytes (leBytes 4 w), (opFields (BitVec.ofNat 32 w)).checkOp (opNum (BitVec.ofNat 32 w)) with
    | .error _, none => if opNum (BitVec.ofNat 32 w) < 120 then s.placeOp (BitVec.ofNat 32 w) else s.placeControl w
    | _, _ => s.placeControl w

end State

end Sys2Proof.Machine
end

