-- ==== Sys2Proof/Machine/Step.lean ====
section
/-! DEFINITION. The step of the device, and the state in which its next step runs a given instruction. -/

namespace Sys2Proof.Machine

/-- One step: a turn of some agent of the device. -/
def step (s : State) : Host.Outcome State Fault Refusal := s.turn

/-- The instruction of a table row stored where the next step takes it from: a control word at the pc of the focused tile's running
task, an operation word in the focused slot with its operands, a matrix control token at the head of the focused tile's queue. -/
def State.withFetchWord (s : State) (nbits w : Nat) : State := s.placeWord nbits w

end Sys2Proof.Machine
end

