-- ==== Sys2Proof/Safety.lean ====
section
/-! DEFINITION. What the statements about the machine are written with: an instruction that completes, what a step leaves alone,
and the effects that several instructions share (a register, a guard or the pc written, a trap taken, a task that waits). -/

namespace Sys2Proof.Machine

/-- `i` answers a next state at `s`, and `P` holds of it. -/
def Gives (i : Instr) (s : State) (P : State → Prop) : Prop := ∃ t, exec i s = .next t ∧ P t

/-- The running task of the focused tile issues a word: a task in RUN, and no step before it reached an address that no memory
has. -/
structure State.Issues (s : State) : Prop where
  task : s.focus.task < 32
  run  : s.cur.state = .run
  here : s.absent = none

/-! ## What a word leaves alone -/

/-- Nothing outside the tiles has changed: no element, node, memory, launch, engine or register of the device. -/
def Beyond (s t : State) : Prop := ({ t with tiles := s.tiles } : State) = s

/-- The other tiles, and the other tasks of the focused tile, are as before. -/
def Elsewhere (s t : State) : Prop :=
  (∀ u, u ≠ s.focus.tile → t.tile u = s.tile u) ∧ ∀ n, n ≠ s.focus.task → t.here.task n = s.here.task n

/-- Of the focused tile nothing has changed but its tasks, RETIRED and CYCLE: its stores, contexts, channels and pairs are as
before. -/
def TileAside (s t : State) : Prop :=
  ({ t.here with tasks := s.here.tasks, retired := s.here.retired, cycle := s.here.cycle } : Tile) = s.here

/-- The word retired in `n` cycles and changed nothing but its own task, R30. -/
def Retires (s t : State) (n : Nat) : Prop :=
  Beyond s t ∧ Elsewhere s t ∧ TileAside s t
    ∧ t.here.retired = s.here.retired + 1 ∧ t.here.cycle = s.here.cycle + BitVec.ofNat 64 n

/-- The focus, the note of an address that no memory has, and every task in RUN are as before. -/
def Calm (s u : State) : Prop :=
  u.focus = s.focus ∧ u.absent = s.absent ∧ ∀ t n, ((s.tile t).task n).state = .run → (u.tile t).task n = (s.tile t).task n

/-- Every byte of every memory and store reads as before. -/
def SameBytes (s t : State) : Prop := ∀ sp, (t.store sp).bytes = (s.store sp).bytes

/-! ## What a word does -/

/-- The word wrote `v` to register `d` (a write to s0 is discarded, R11) and nothing else, and the next word follows. -/
def Wrote (s t : State) (d : SReg) (v : Word) (n : Nat) : Prop :=
  Retires s t n ∧ t.reg d = (if d = 0 then 0 else v) ∧ (∀ r, r ≠ d → t.reg r = s.reg r) ∧ t.cur.pc = s.cur.pc + 4
    ∧ ({ t.cur with regs := s.cur.regs, pc := s.cur.pc } : Task) = s.cur.unexempt

/-- The word wrote guard bit `q` (a write to q0 is discarded, R11) and nothing else, and the next word follows. -/
def WroteGuard (s t : State) (q : QReg) (v : Bool) : Prop :=
  Retires s t 1 ∧ t.cur.guard q = (if q = 0 then true else v) ∧ (∀ p, p ≠ q → t.cur.guard p = s.cur.guard p)
    ∧ t.cur.pc = s.cur.pc + 4 ∧ ({ t.cur with guards := s.cur.guards, pc := s.cur.pc } : Task) = s.cur.unexempt

/-- The word did nothing but advance pc and retire, R20. -/
def Passed (s t : State) : Prop := Retires s t 1 ∧ t.cur = { s.cur.unexempt with pc := s.cur.pc + 4 }

/-- The word transferred control to `target` and changed nothing else. -/
def Jumped (s t : State) (target : BitVec 15) : Prop := Retires s t 1 ∧ t.cur = { s.cur.unexempt with pc := target }

/-- The word trapped with cause `c` and fault value `v`, R21 with STATUS.TE = 1: the pc of the word in EPC, the cause and its value
saved, TE and SUP saved in PTE and PSUP, TE := 0, SUP := 1, pc at TVEC; the word did not retire, and nothing else changed. -/
def Trapped (s t : State) (c : Nat) (v : Word) : Prop :=
  Beyond s t ∧ Elsewhere s t ∧ TileAside s t ∧ t.here.retired = s.here.retired ∧ t.here.cycle = s.here.cycle + 1
    ∧ t.cur = { s.cur.unexempt with
        epc := s.cur.pc.extractLsb' 2 13, cause := BitVec.ofNat 6 c, tval := v, pte := s.cur.te, psup := s.cur.sup,
        te := false, sup := true, pc := s.curCtx.tvec ++ 0#2 }

/-- Of the elements and the block instances nothing has changed but that the counts of R239 stand in the frozen regions of context `c`, R363. -/
def CountsStand (u z : State) (c : Nat) : Prop := z = ({ z with elems := u.elems, insts := u.insts } : State).pauseFrozen c

/-- The running task froze on cause `c` with fault value `v`, R21 with STATUS.TE = 0: its registers and pc are kept, the region
controller is told, and the counts of R239 stop in the frozen region. -/
def Froze (s t : State) (c : Nat) (v : Word) : Prop :=
  ({ t with tiles := s.tiles, notices := s.notices, serial := s.serial, elems := s.elems, insts := s.insts } : State) = s
    ∧ CountsStand s t s.cur.ctx.toNat ∧ Elsewhere s t
    ∧ t.notices = s.notices ++ [⟨s.focus.tile, s.focus.task, s.cur.ctx.toNat, c, s.cur.pc, v, s.serial⟩]
    ∧ ({ t.here with tasks := s.here.tasks, cycle := s.here.cycle, seq := s.here.seq } : Tile) = s.here
    ∧ t.cur.state = .frozen ∧ t.cur.pc = s.cur.pc ∧ t.cur.regs = s.cur.regs ∧ t.cur.guards = s.cur.guards

/-- A synchronous cause that is not itself an error of the machine (0x15, 0x18): the trap, or the freeze, R21. -/
def Raised (s t : State) (c : Nat) (v : Word) : Prop :=
  (s.cur.te = true → Trapped s t c v) ∧ (s.cur.te = false → Froze s t c v)

/-- The task left RUN for WAIT with pc on its word, R15: nothing else changed but the order in which tasks leave RUN. -/
def Waits (s t : State) (w : Waiting) (k : Option Taken) : Prop :=
  Beyond s t ∧ Elsewhere s t
    ∧ ({ t.here with tasks := s.here.tasks, cycle := s.here.cycle, seq := s.here.seq } : Tile) = s.here
    ∧ t.cur = { s.cur.unexempt with state := .wait, waiting := w, taken := k, leftSeq := s.here.seq }

/-- The task left RUN for WAIT with its word not issued, R37: as `Waits`, and an exemption from the breakpoint check stays, R23. -/
def Withheld (s t : State) (w : Waiting) : Prop :=
  Beyond s t ∧ Elsewhere s t
    ∧ ({ t.here with tasks := s.here.tasks, cycle := s.here.cycle, seq := s.here.seq } : Tile) = s.here
    ∧ t.cur = { s.cur with state := .wait, waiting := w, leftSeq := s.here.seq }

/-! ## Control words: what several of them share -/

/-- `i` writes `v` to register `d` and retires. -/
def Writes (s : State) (i : Instr) (d : SReg) (v : Word) : Prop := Gives i s fun t => Wrote s t d v 1

/-- The word wrote the address of the next word to register `d`, transferred control to `target`, and did nothing else, R72 and R75. -/
def Linked (s t : State) (d : SReg) (target : BitVec 15) : Prop :=
  Retires s t 1 ∧ t.reg d = (if d = 0 then 0 else word (s.cur.pc.toNat + 4)) ∧ (∀ r, r ≠ d → t.reg r = s.reg r) ∧ t.cur.pc = target
    ∧ ({ t.cur with regs := s.cur.regs, pc := s.cur.pc } : Task) = s.cur.unexempt

/-- `i` raises cause `c` with fault value `v`. -/
def Raises (s : State) (i : Instr) (c : Nat) (v : Word) : Prop := Gives i s fun t => Raised s t c v

/-- `u` is `s` after the correctable errors of the words that `n` bytes at `a` touch have been corrected, R377: no byte of any store and no
task has changed, and without such errors nothing has. -/
def Corrected (s u : State) (sp : Space) (a n : Nat) : Prop :=
  SameBytes s u ∧ u.focus = s.focus ∧ (∀ t, (u.tile t).tasks = (s.tile t).tasks ∧ (u.tile t).ctxs = (s.tile t).ctxs)
    ∧ ((∀ w ∈ unitsOf 8 a n, w ∉ (s.store sp).weakEcc) → u = s)

/-- The word stored the low `n` bytes of `x` at address `a` of the data store, lowest byte first, and nothing else, and the next word
follows. -/
def StoredData (s t : State) (a n x : Nat) : Prop :=
  Beyond s t ∧ Elsewhere s t
    ∧ (∀ b, Memory.read t.here.dstore.bytes b
        = if a ≤ b ∧ b < a + n then BitVec.ofNat 8 (x / 256 ^ (b - a)) else Memory.read s.here.dstore.bytes b)
    ∧ ({ t.here with tasks := s.here.tasks, retired := s.here.retired, cycle := s.here.cycle, dstore := s.here.dstore } : Tile) = s.here
    ∧ t.here.retired = s.here.retired + 1 ∧ t.here.cycle = s.here.cycle + 1 ∧ t.cur = { s.cur.unexempt with pc := s.cur.pc + 4 }

/-- The address of R65: the base and the scaled offset. -/
def scaled (x : Word) (off : BitVec 10) (n : Nat) : Word := BitVec.ofInt 64 (x.toNat + off.toInt * n)

/-- `n` bytes read as an unsigned or a signed number. -/
def extended (x n : Nat) (signed : Bool) : Word := if signed then BitVec.ofInt 64 (BitVec.ofNat (8 * n) x).toInt else word x

/-- The running task's access of `n` bytes at device address `va` is allowed: it lies at `pa` of memory `sp`, and `u` is the state after its
translation, R66 and R228. -/
def Allowed (s : State) (va : Word) (n : Nat) (need : Need) (sp : Space) (pa : Nat) (u : State) : Prop :=
  s.curProbe va.toNat n need = (.ok (sp, pa), u)

/-- The access is refused with cause `c`, and no address that no memory has was met. -/
def Refused (s : State) (va : Word) (n : Nat) (need : Need) (c : Nat) (u : State) : Prop :=
  s.curProbe va.toNat n need = (.error c, u) ∧ u.absent = none

/-- A translation that refuses its access has changed the translation caches and has had page-table entries given back by their owners (R263);
where no element owns a line it has changed nothing else. -/
def OnlyWalked (s u : State) : Prop := Calm s u ∧ ((∀ g, (s.elem g).owner = []) → ({ u with units := s.units } : State) = s)

/-- The state in which the access is performed at its home: the stores that precede it have been performed. -/
def State.homed (u : State) (sp : Space) (pa n : Nat) : State := u.atHome u.curAgent none sp pa n

/-- `n` bytes of `x` at `a` of store `sp` have been written, lowest byte first, and no other byte of any store. -/
def WroteBytes (s t : State) (sp : Space) (a n x : Nat) : Prop :=
  ∀ sp' b, Memory.read (t.store sp').bytes b
    = if sp' = sp ∧ a ≤ b ∧ b < a + n then BitVec.ofNat 8 (x / 256 ^ (b - a)) else Memory.read (s.store sp').bytes b

/-- What an atomic needs of its word, R68. -/
def atomicNeed : Need := { read := true, write := true, farOk := true }

/-- The word at `pa` is at its home and can be read there: `h` is the state in which it is, and `w` the state after the correctable
errors of the word have been corrected. -/
structure AtWord (s : State) (va : Word) (pa : Nat) (h w : State) : Prop where
  allowed : ∃ u, Allowed s va 8 atomicNeed .hbm pa u ∧ h = u.homed .hbm pa 8
  good    : (h.store .hbm).readCause pa 8 = none
  fixed   : w = h.correct h.curDie .hbm pa 8

/-- The value of a CSR for the running task. -/
def State.csr (s : State) (n : Nat) : Option Word := csrRead s.focus.tile s.here s.focus.task n

/-- The state in which a word reads the CSRs: a BSK that exempts it has been cleared, R23. -/
def State.issued (s : State) : State := s.modCur Task.unexempt

/-- A field of one bit as a number. -/
def bit (b : Bool) : Nat := if b then 1 else 0

/-- LOC and POS of R29. -/
def locPos : RegPlace → Nat × Nat
  | .none => (0, 0)
  | .bank n => (1, n)
  | .column n => (2, n)
  | .area n => (3, n)

/-- The numbers of R24. -/
def csrNumbers : List Nat :=
  [0x000, 0x001, 0x002, 0x003, 0x004, 0x005, 0x010, 0x011, 0x012, 0x013, 0x014, 0x020, 0x021, 0x022, 0x030, 0x031, 0x040, 0x041, 0x042, 0x043, 0x060, 0x070]

/-- A write needs STATUS.SUP = 1, R24. -/
def csrSupervisor : List Nat := [0x000, 0x004, 0x014, 0x021, 0x022, 0x040, 0x041, 0x042, 0x043, 0x060, 0x070]

/-- What the three words that write a CSR make of its value `v`, R76. -/
def csrWriters (d : SReg) (n : BitVec 10) (x : Word) : List (Instr × (Word → Word)) :=
  [(.csrw d n, fun _ => x), (.csrs d n, fun v => v ||| x), (.csrc d n, fun v => v &&& ~~~x)]

/-- A CSR word that writes has retired: no general register, guard, other task, other tile or byte has changed. -/
def WroteCsr (s t : State) : Prop :=
  SameBytes s t ∧ Elsewhere s t ∧ t.cur.regs = s.cur.regs ∧ t.cur.guards = s.cur.guards ∧ t.cur.pc = s.cur.pc + 4
    ∧ t.here.retired = s.here.retired + 1 ∧ t.here.cycle = s.here.cycle + 1

/-- The task left RUN for another state and pc is past its word: the word of `u` has retired, and `t` differs only in the task's state and the
order in which tasks change state. -/
def Leaves (s t : State) (st : TaskState) (w : Waiting) : Prop :=
  ∃ u, Passed s u ∧ Beyond u t ∧ Elsewhere u t
    ∧ ({ t.here with tasks := u.here.tasks, seq := u.here.seq } : Tile) = u.here
    ∧ t.cur = { u.cur with state := st, waiting := w, leftSeq := u.here.seq, readySeq := if st = .ready then u.here.seq else u.cur.readySeq }

/-! ## Engine words: sync pairs, and words that an engine takes -/

/-- The sync conditions of R37 hold for a word of major `maj`. -/
def SyncReady (s : State) (maj : Nat) (y : Sync) : Prop := s.here.syncOk s.cur.ctx.toNat maj y.push y.pop y.fifo.toNat = true

/-- A synced word has retired with `v` in register `d`, R37 and R316: no other register, guard, byte or tile has changed, and on a pair with no
word in progress a POP has taken one token and a PUSH has given one. -/
def SyncRetired (s t : State) (maj : Nat) (y : Sync) (d : SReg) (v : Word) : Prop :=
  SameBytes s t ∧ (∀ u, u ≠ s.focus.tile → t.tile u = s.tile u)
    ∧ t.reg d = (if d = 0 then 0 else v) ∧ (∀ r, r ≠ d → t.reg r = s.reg r) ∧ t.cur.guards = s.cur.guards
    ∧ t.cur.pc = s.cur.pc + 4 ∧ t.cur.state = .run ∧ t.here.retired = s.here.retired + 1
    ∧ let p := s.here.pair s.cur.ctx.toNat maj y.fifo.toNat
      p.order = [] → p.owed = 0 → p.toTask - bit y.pop < 63 →
        (t.here.pair s.cur.ctx.toNat maj y.fifo.toNat).toTask = p.toTask - bit y.pop + bit y.push

/-- The word has been taken: the running task is in WAIT with pc on its word and `k` is kept of it, R266 and R346; no register, guard, byte or
other tile has changed. -/
def TakenAs (s t : State) (w : Waiting) (k : Taken) : Prop :=
  SameBytes s t ∧ (∀ u, u ≠ s.focus.tile → t.tile u = s.tile u)
    ∧ t.cur.state = .wait ∧ t.cur.waiting = w ∧ t.cur.taken = some k
    ∧ t.cur.pc = s.cur.pc ∧ t.cur.regs = s.cur.regs ∧ t.cur.guards = s.cur.guards ∧ t.here.retired = s.here.retired

/-- What is kept of a word with its operands. -/
def State.keeps (s : State) (i : Instr) (d : SReg) (a b : Word) (record : Nat) : Taken :=
  { word := i, dest := d, a := a, b := b, d := s.reg d, sup := s.cur.sup, ctx := s.cur.ctx.toNat, record := record }

/-- What is kept of a synced word: its pair, whether it popped, with PUSH its place in the order of completions, and its place among the
words that engines have taken. -/
def SyncKept (k : Taken) (maj : Nat) (y : Sync) (k' : Taken) : Prop :=
  ∃ q o, k' = { k with pair := some (maj, y.fifo.toNat), seq := q, pop := y.pop, order := o } ∧ (q.isSome = y.push)

/-- The word that task `n` of tile `t` had in an engine has ended with `v`: register `d` holds it, pc is past the word, the task is READY, and
the word has retired. -/
def Ended (s u : State) (t n : Nat) (d : SReg) (v : Word) : Prop :=
  let k := (s.tile t).task n
  let k' := (u.tile t).task n
  k'.reg d = (if d = 0 then 0 else v) ∧ (∀ r, r ≠ d → k'.reg r = k.reg r) ∧ k'.guards = k.guards ∧ k'.pc = k.pc + 4 ∧ k'.taken = none
    ∧ k'.state = .ready

/-! ## Operation words: a firing -/

/-- The test of the ring positions of a firing's spilled operands, R113: the address that failed, and the state after it. -/
def State.ringTest (s : State) (F : Firing) : Option Nat × State :=
  match s.launchAt (gidTile F.g) F.c with
  | some l => s.ringBad F.g F.c l F.records
  | none => (none, s)

/-- The focused slot, holding the word `w` of operation `op`, fires on `F`, R105, R106 and R124: `F` comes first in the arbiter's order, the slot
takes no breakpoint, the records of spilled operands can be read, and a block that the slot enters is admitted. The operation acts on `u`, in
which the operands have been consumed. -/
structure State.Fires (s : State) (w : OpWord) (op : Nat) (F : Firing) (u : State) : Prop where
  first : ∃ k l, s.candidates s.focus.gid s.focus.ctx s.focus.slot w op = (k, F) :: l
  ctx   : s.focus.ctx < 4
  bkpt  : ((s.ectx F.g F.c).slot F.n).bkpt = true → (s.ectx F.g F.c).pastBkpt = some F.n
  open' : ∃ r v, s.ringTest F = (none, r) ∧ r.reserve F = some v
    ∧ u = (v.consume F).modEctx F.g F.c fun x => { x with pastBkpt := none }
  here  : u.absent = none

/-- No operand is an error or a null token, and pm lets the operation compute, R105. -/
structure Firing.Plain (F : Firing) : Prop where
  error : F.erring = none
  null  : F.anyNull = false
  pm    : verdict F.w.pm F.prdA = .compute

/-- The PRD of a result, R105: operand A's under pm = 101, else what the operation gives it; an error token has none. -/
def Firing.marked (F : Firing) (t : Token) : Token :=
  if t.tag.err then t else { t with tag := { t.tag with prd := if F.w.pm = 5 then F.prdA else t.tag.prd } }

/-- The element contexts, but for those of the firing's, and everything else of the machine are as before; of the instances of blocks only the
mark of one whose exit slot has fired may have changed, R119. -/
def FiringFrame (u z : State) (F : Firing) : Prop :=
  ({ z with elems := u.elems, ectxs := u.ectxs, insts := u.insts } : State) = u
    ∧ z.insts = u.insts.map (fun i => if i.carries F.c F.src && i.block.exit == (F.g, F.n) then { i with atExit := true } else i)
    ∧ (∀ h, h ≠ F.g → z.elem h = u.elem h)
    ∧ ∀ h c, c < 4 → (h, c) ≠ (F.g, F.c) → z.ectx h c = u.ectx h c

/-- Beats of token `t` of colour `t.tag.col` have joined the output edges of the ports `ps`; the other edges, and the rest of the element, are as
before. -/
def OnPorts (u z : State) (F : Firing) (ps : List Nat) (t : Token) : Prop :=
  (∀ c col p, c < 4 → col < 32 → p < 4 → z.edge F.g c col p
      = if c = F.c ∧ col = t.tag.col.toNat ∧ p ∈ ps then
          { u.edge F.g c col p with beats := (u.edge F.g c col p).beats ++ t.toBeats }
        else u.edge F.g c col p)
    ∧ ({ z.elem F.g with edges := (u.elem F.g).edges } : Elem) = u.elem F.g ∧ z.ectx F.g F.c = u.ectx F.g F.c

/-- The firing emitted `t` on the ports of `m` and on those that switch entries from source 4 give its colour; with dst = 0, into the latch of its
slot. Nothing else changed, R44, R106 and R173. -/
def Emits (u z : State) (F : Firing) (m : BitVec 4) (t : Token) : Prop :=
  FiringFrame u z F
    ∧ (F.w.dst ≠ 0 → OnPorts u z F ((u.elem F.g).resultPorts F.c t.tag.col.toNat m) t)
    ∧ (F.w.dst = 0 →
        z.ectx F.g F.c = { u.ectx F.g F.c with
            latches := SMap.set (u.ectx F.g F.c).latches (F.n % 4) ⟨t, (u.elem F.g).seq, [], SMap.get? (u.ectx F.g F.c).headers t.tag.col.toNat⟩ }
          ∧ ({ z.elem F.g with seq := (u.elem F.g).seq } : Elem) = u.elem F.g)

/-- The word at the focus emits `t` on the ports of `m` when its destinations accept it. -/
def FiresTo (i : Instr) (s u : State) (F : Firing) (m : BitVec 4) (t : Token) : Prop :=
  u.room F.g F.c F.n F.w.dst m t = true → Gives i s fun z => Emits u z F m t

/-- The firing emitted nothing and, beyond the operands it consumed, left everything as in `u`. -/
def FiresQuietly (i : Instr) (s u : State) (F : Firing) : Prop := Gives i s fun z =>
  FiringFrame u z F ∧ z.elem F.g = u.elem F.g ∧ z.ectx F.g F.c = u.ectx F.g F.c

/-- The fault of a firing is recorded: outside blocks in the element's register, or behind the faults that wait for it, and the context stops
firing and the counts of R239 stop in its frozen region, R252; inside a block only as the first cause of its instance, R119. -/
def FaultsWith (i : Instr) (s u : State) (F : Firing) (cause : Nat) (val : BitVec 64) : Prop := Gives i s fun z =>
  match u.instanceOf F.g F.c F.n F.src with
  | some b => ∃ v, FiringFrame v z F ∧ ({ v with insts := u.insts } : State) = u ∧ ∀ j : Instance, j ∈ v.insts ↔
      ∃ k ∈ u.insts, j = if k.id = b.id ∧ k.cause = none then { k with cause := some (cause, val) } else k
  | none => ∃ (f : ElemFault) (v : State), f.ctx = F.c ∧ f.slot = F.n ∧ f.cause = cause ∧ f.val = val ∧ f.req = none
      ∧ (z.elem F.g).fault = some ((u.elem F.g).fault.getD f)
      ∧ ((u.elem F.g).fault ≠ none → (z.elem F.g).faults = (u.elem F.g).faults ++ [f])
      ∧ (z.ectx F.g F.c).stopped = true ∧ CountsStand v z F.c ∧ ∀ h, h ≠ F.g → v.elem h = u.elem h

/-! ## Control tokens of matrix nodes -/

/-- The node of the focused tile. -/
def State.hereNode (s : State) : Node := s.node s.focus.tile

/-- Entry `e`, a well-formed token of opcode `opc`, stands at the head of the focused tile's node, which has not stopped, R188–R190. -/
structure State.AtHead (s : State) (opc : Nat) (t : MxWord) (e : Entry) : Prop where
  fault  : s.hereNode.fault = none
  head   : ∃ r, s.hereNode.queue = e :: r
  formed : t.checkOpc opc = none
  here   : s.absent = none

/-- The beats that a list of tokens puts on colour `col` of context `c`. -/
def beatsOn (c col : Nat) (rs : List Token) : List Beat :=
  ((rs.filter fun r => r.tag.ctx.toNat = c ∧ r.tag.col.toNat = col).map Token.toBeats).flatten

/-- The entry `e` completes, R190 and R198: `u` becomes `z`, in which the node is `n` without the entry and without the first `ate` tokens of its
element's FIFO, and the replies `rs` have entered the switch of that element at source 6; no other node, element or anything else has changed. -/
def NodeCompleted (u z : State) (e : Entry) (n : Node) (ate : Nat) (rs : List Token) : Prop :=
  let g := 64 * u.focus.tile + e.elem
  z.hereNode = { n with queue := n.queue.drop 1, fifos := SMap.set n.fifos e.elem ((n.fifo e.elem).drop ate) }
    ∧ (∀ t, t ≠ u.focus.tile → z.node t = u.node t) ∧ ({ z with nodes := u.nodes, elems := u.elems } : State) = u
    ∧ (∀ h, h ≠ g → z.elem h = u.elem h) ∧ ({ z.elem g with ports := (u.elem g).ports } : Elem) = u.elem g
    ∧ ∀ c col, c < 4 → col < 32 → (z.source g 6 c col).beats = (u.source g 6 c col).beats ++ beatsOn c col rs

/-- The entry at the head completes with `n`, `ate` and `rs`, and nothing but the node and its replies changes. -/
def NodeCompletes (i : Instr) (s : State) (e : Entry) (n : Node) (ate : Nat) (rs : List Token) : Prop :=
  Gives i s fun z => NodeCompleted s z e n ate rs

/-- The node stops with a fault in MXFLT, R201: the entry stays at the head, the cells and columns are as in `u`, the tokens that the entry
had consumed leave the FIFO, and the counts of R239 stop in the frozen region. -/
def NodeStopped (u z : State) (e : Entry) (cause val ate : Nat) : Prop :=
  let n := u.hereNode
  ∃ q, z.hereNode = { n with
      fifos := SMap.set n.fifos e.elem ((n.fifo e.elem).drop ate)
      fault := some ⟨e.tag.ctx.toNat, e.elem, cause, BitVec.ofNat 56 val, e.word, (n.fifo e.elem).take ate, q⟩ }
    ∧ (∀ t, t ≠ u.focus.tile → z.node t = u.node t) ∧ CountsStand u z e.tag.ctx.toNat ∧ SameBytes u z

/-- The entry at the head stops the node, which is otherwise as before. -/
def NodeStops (i : Instr) (s : State) (e : Entry) (cause val ate : Nat) : Prop := Gives i s fun z => NodeStopped s z e cause val ate

/-- The cells of the token's region are those of `n` changed by `f row column` (counted from the region's first); the other cells and the rest
of the node are as in `n`, R190 and R193. -/
def RegionIs (n n' : Node) (t : MxWord) (f : Nat → Nat → Cell → Cell) : Prop :=
  ({ n' with cells := n.cells } : Node) = n ∧ ∀ r c, c < 128 → n'.cell r c =
    if t.row0.toNat ≤ r ∧ r < t.row0.toNat + t.m ∧ t.col0.toNat ≤ c ∧ c < t.col0.toNat + t.n then f (r - t.row0.toNat) (c - t.col0.toNat) (n.cell r c)
    else n.cell r c

/-- Every column of the token's region is owned by context `c`, R187. -/
def Owns (n : Node) (t : MxWord) (c : BitVec 2) : Prop := ∀ k, t.col0.toNat ≤ k → k < t.col0.toNat + t.n → n.column k = .owned c

/-! ## Memory -/

/-- Every memory and store of the machine is in its canonical form: addresses strictly rising, no byte listed that reads as an unlisted one. -/
def Canonical (s : State) : Prop := ∀ sp, (s.store sp).bytes.wf = true

end Sys2Proof.Machine
end

