-- ==== Sys2Proof/Certificates/Slice0/Obligations.lean ====
section
/-! DEFINITION. The statements about the machine, for the provers. Each part gives the claims of one chapter of the spec, each with the
rules that it comes from, and then the statements that put them together. -/

open Sys2Proof Sys2Proof.Machine

/-! # Control words of the core -/

namespace Sys2Proof.Claims

/-- R59. -/
def integerWords : Prop := ∀ (s : State) (d a b : SReg), s.Issues →
  let x := s.reg a
  let y := s.reg b
  let n := y.toNat % 64
  let low (z : Int) : Word := BitVec.ofInt 64 z
  let sext32 (z : Int) : Word := (BitVec.ofInt 32 z).signExtend 64
  Writes s (.add d a b) d (low (x.toNat + y.toNat))
    ∧ Writes s (.sub d a b) d (low (x.toNat - y.toNat))
    ∧ Writes s (.mul d a b) d (low (x.toNat * y.toNat))
    ∧ Writes s (.mulh d a b) d (low (x.toNat * y.toNat / 2 ^ 64))
    ∧ Writes s (.mulhs d a b) d (low (x.toInt * y.toInt / 2 ^ 64))
    ∧ Writes s (.div d a b) d (if y = 0 then low (2 ^ 64 - 1) else low (x.toNat / y.toNat))
    ∧ Writes s (.divs d a b) d (if y = 0 then low (2 ^ 64 - 1)
        else if x.toInt = -2 ^ 63 ∧ y.toInt = -1 then low (2 ^ 63) else low (x.toInt.tdiv y.toInt))
    ∧ Writes s (.rem d a b) d (if y = 0 then x else low (x.toNat % y.toNat))
    ∧ Writes s (.rems d a b) d (if y = 0 then x
        else if x.toInt = -2 ^ 63 ∧ y.toInt = -1 then 0 else low (x.toInt - y.toInt * x.toInt.tdiv y.toInt))
    ∧ Writes s (.and d a b) d (x &&& y)
    ∧ Writes s (.or d a b) d (x ||| y)
    ∧ Writes s (.xor d a b) d (x ^^^ y)
    ∧ Writes s (.andn d a b) d (x &&& (BitVec.allOnes 64 ^^^ y))
    ∧ Writes s (.orn d a b) d (x ||| (BitVec.allOnes 64 ^^^ y))
    ∧ Writes s (.shl d a b) d (low (x.toNat * 2 ^ n))
    ∧ Writes s (.shr d a b) d (low (x.toNat / 2 ^ n))
    ∧ Writes s (.sha d a b) d (low (x.toInt / 2 ^ n))
    ∧ (∃ v : Word, (∀ i < 64, v.getLsbD ((i + n) % 64) = x.getLsbD i) ∧ Writes s (.rol d a b) d v)
    ∧ (∃ v : Word, (∀ i < 64, v.getLsbD i = x.getLsbD ((i + n) % 64)) ∧ Writes s (.ror d a b) d v)
    ∧ Writes s (.min d a b) d (low (Min.min x.toNat y.toNat))
    ∧ Writes s (.max d a b) d (low (Max.max x.toNat y.toNat))
    ∧ Writes s (.mins d a b) d (low (Min.min x.toInt y.toInt))
    ∧ Writes s (.maxs d a b) d (low (Max.max x.toInt y.toInt))
    ∧ Writes s (.clz d a) d (low ((List.range 64).takeWhile fun i => !x.getLsbD (63 - i)).length)
    ∧ Writes s (.ctz d a) d (low ((List.range 64).takeWhile fun i => !x.getLsbD i).length)
    ∧ Writes s (.popc d a) d (low ((List.range 64).countP fun i => x.getLsbD i))
    ∧ (∃ v : Word, (∀ i < 64, v.getLsbD i = x.getLsbD (63 - i)) ∧ Writes s (.brev d a) d v)
    ∧ (∃ v : Word, (∀ i < 8, v.extractLsb' (8 * i) 8 = x.extractLsb' (8 * (7 - i)) 8) ∧ Writes s (.bswap d a) d v)
    ∧ Writes s (.addw d a b) d (sext32 (x.toNat + y.toNat))
    ∧ Writes s (.subw d a b) d (sext32 (x.toNat - y.toNat))
    ∧ Writes s (.mulw d a b) d (sext32 (x.toNat * y.toNat))
    ∧ Writes s (.shlw d a b) d (sext32 (x.toNat % 2 ^ 32 * 2 ^ (y.toNat % 32)))

/-- R60 and R61. -/
def immediateWords : Prop := ∀ (s : State) (d a : SReg) (imm : BitVec 12) (sh : BitVec 6) (up : BitVec 17), s.Issues →
  let x := s.reg a
  let i := imm.toInt
  let low (z : Int) : Word := BitVec.ofInt 64 z
  Writes s (.addi d a imm) d (low (x.toNat + i))
    ∧ Writes s (.andi d a imm) d (x &&& low i)
    ∧ Writes s (.ori d a imm) d (x ||| low i)
    ∧ Writes s (.xori d a imm) d (x ^^^ low i)
    ∧ Writes s (.shli d a sh) d (low (x.toNat * 2 ^ sh.toNat))
    ∧ Writes s (.shri d a sh) d (low (x.toNat / 2 ^ sh.toNat))
    ∧ Writes s (.shai d a sh) d (low (x.toInt / 2 ^ sh.toNat))
    ∧ Writes s (.muli d a imm) d (low (x.toNat * i))
    ∧ Writes s (.mini d a imm) d (low (Min.min x.toInt i))
    ∧ Writes s (.maxi d a imm) d (low (Max.max x.toInt i))
    ∧ Writes s (.lui d up) d (low ((BitVec.ofInt 29 (up.toNat * 2 ^ 12)).toInt))
    ∧ Writes s (.addpc d up) d (low ((s.cur.pc.toNat + 4 * up.toInt) % 2 ^ 15))

/-- `i` writes guard bit `q` and retires. -/
def SetsGuard (s : State) (i : Instr) (q : QReg) (p : Prop) : Prop :=
  ∃ v : Bool, (v = true ↔ p) ∧ Gives i s fun t => WroteGuard s t q v

/-- R62, R63. -/
def guardWords : Prop := ∀ (s : State) (q p r : QReg) (a b : SReg) (v : Bool), s.Issues →
  let x := s.reg a
  let y := s.reg b
  SetsGuard s (.ceq q a b) q (x = y)
    ∧ SetsGuard s (.cne q a b) q (x ≠ y)
    ∧ SetsGuard s (.clt q a b) q (x.toNat < y.toNat)
    ∧ SetsGuard s (.cle q a b) q (x.toNat ≤ y.toNat)
    ∧ SetsGuard s (.clts q a b) q (x.toInt < y.toInt)
    ∧ SetsGuard s (.cles q a b) q (x.toInt ≤ y.toInt)
    ∧ SetsGuard s (.cbit q a b) q (x.toNat / 2 ^ (y.toNat % 64) % 2 = 1)
    ∧ SetsGuard s (.cz q a) q (x = 0)
    ∧ SetsGuard s (.qand q p r) q (s.cur.guard p = true ∧ s.cur.guard r = true)
    ∧ SetsGuard s (.qor q p r) q (s.cur.guard p = true ∨ s.cur.guard r = true)
    ∧ SetsGuard s (.qxor q p r) q (s.cur.guard p ≠ s.cur.guard r)
    ∧ SetsGuard s (.qnot q p) q (s.cur.guard p = false)
    ∧ SetsGuard s (.qset q v) q (v = true)
    ∧ SetsGuard s (.qmov q p) q (s.cur.guard p = true)

/-- R64: the guards that a program sees, the guards that a program sees after. -/
def guardTransfer : Prop := ∀ (s : State) (d a : SReg) (g : BitVec 4), s.Issues →
  (s.cur.guardHolds g = true → Writes s (.sel d a g) d (s.reg a))
    ∧ (∃ w : Word, (∀ n : QReg, w.getLsbD n.toNat = s.cur.guard n) ∧ w.toNat < 256 ∧ Writes s (.qrd d) d w)
    ∧ Gives (.qwr a) s fun t => Retires s t 1 ∧ (∀ n : QReg, n ≠ 0 → t.cur.guard n = (s.reg a).getLsbD n.toNat) ∧ t.cur.guard 0 = true
        ∧ ({ t.cur with guards := s.cur.guards } : Task) = { s.cur.unexempt with pc := s.cur.pc + 4 }

/-- R20. -/
def guardedOff : Prop := ∀ (s : State) (g : BitVec 4) (d v a b : SReg) (off : BitVec 10) (far : BitVec 22),
  s.Issues → s.cur.guardHolds g = false →
  (∀ i ∈ [Instr.sel d a g, .stB v a off g, .stH v a off g, .stW v a off g, .stD v a off g,
      .stgB v a off g, .stgH v a off g, .stgW v a off g, .stgD v a off g,
      .aadd d a b g, .aswp d a b g, .acas d a b g, .amin d a b g, .amax d a b g, .aand d a b g, .aor d a b g, .axor d a b g,
      .waitv d a b g, .wake d a b g, .br far g, .call far g, .jr a g, .callt d a b g, .ret a g],
    Gives i s fun t => Passed s t)

/-- R72. -/
def branchWords : Prop := ∀ (s : State) (off : BitVec 22) (g : BitVec 4), s.Issues → s.cur.guardHolds g = true →
  let target := BitVec.ofInt 15 (s.cur.pc.toNat + 4 * off.toInt)
  (Gives (.br off g) s fun t => Jumped s t target) ∧ (Gives (.call off g) s fun t => Linked s t 31 target)

/-- R73. -/
def jumpRegister : Prop := ∀ (s : State) (a : SReg) (g : BitVec 4), s.Issues → s.cur.guardHolds g = true →
  let t := s.reg a
  (t.toNat % 4 ≠ 0 ∨ 0x7FFC < t.toNat → Raises s (.jr a g) 0x03 t)
    ∧ (t.toNat % 4 = 0 → t.toNat ≤ 0x7FFC → t.toNat ∉ s.here.jrMarks → Raises s (.jr a g) 0x06 0)
    ∧ (t.toNat % 4 = 0 → t.toNat ≤ 0x7FFC → t.toNat ∈ s.here.jrMarks → Gives (.jr a g) s fun u => Jumped s u (BitVec.ofNat 15 t.toNat))

/-- R74. -/
def returnWord : Prop := ∀ (s : State) (a : SReg) (g : BitVec 4), s.Issues → s.cur.guardHolds g = true →
  let t := s.reg a
  let maj := (Memory.readN s.here.istore.bytes ((t.toNat + 0x7FFC) % 0x8000) 4) / 2 ^ 26
  (t.toNat % 4 ≠ 0 ∨ 0x7FFC < t.toNat → Raises s (.ret a g) 0x03 t)
    ∧ (t.toNat % 4 = 0 → t.toNat ≤ 0x7FFC → maj ≠ 0x18 ∧ maj ≠ 0x1A → Raises s (.ret a g) 0x06 0)
    ∧ (t.toNat % 4 = 0 → t.toNat ≤ 0x7FFC → maj = 0x18 ∨ maj = 0x1A → Gives (.ret a g) s fun u => Jumped s u (BitVec.ofNat 15 t.toNat))

/-- R75. -/
def callThroughTable : Prop := ∀ (s : State) (d a b : SReg) (g : BitVec 4), s.Issues → s.cur.guardHolds g = true →
  let t := (s.reg a).toNat
  let e := Memory.readN s.here.dstore.bytes t 8
  let code := (s.reg b).toNat % 2 ^ 32
  let matches_ := e / 2 ^ 32 = code ∧ e / 2 ^ 15 % 2 ^ 17 = 0 ∧ e % 4 = 0
  (t % 8 ≠ 0 → Raises s (.callt d a b g) 0x03 (s.reg a))
    ∧ (t % 8 = 0 → 0x7FFF < t → Raises s (.callt d a b g) 0x04 (s.reg a))
    ∧ (t % 8 = 0 → t ≤ 0x7FFF → ¬ matches_ → Raises s (.callt d a b g) 0x07 (word (code * 2 ^ 32 + e / 2 ^ 32)))
    ∧ (t % 8 = 0 → t ≤ 0x7FFF → matches_ → Gives (.callt d a b g) s fun u => Linked s u d (BitVec.ofNat 15 e))

/-- R65. -/
def dataStoreLoads : Prop := ∀ (s : State) (d a : SReg) (off : BitVec 10), s.Issues →
  ∀ f ∈ [(Instr.ldzB d a off, 1, false), (.ldzH d a off, 2, false), (.ldzW d a off, 4, false), (.ldzD d a off, 8, false),
      (.ldsB d a off, 1, true), (.ldsH d a off, 2, true), (.ldsW d a off, 4, true)],
    let n := f.2.1
    let ea := scaled (s.reg a) off n
    let x := Memory.readN s.here.dstore.bytes ea.toNat n
    (ea.toNat % n ≠ 0 → Raises s f.1 0x03 ea)
      ∧ (ea.toNat % n = 0 → 0x7FFF < ea.toNat → Raises s f.1 0x04 ea)
      ∧ (ea.toNat % n = 0 → ea.toNat ≤ 0x7FFF → s.here.dstore.uncorrectable ea.toNat n = false →
        Gives f.1 s fun t => ∃ u, Corrected s u (.dataStore s.focus.tile) ea.toNat n ∧ Wrote u t d (extended x n f.2.2) 2)

/-- R65. -/
def dataStoreStores : Prop := ∀ (s : State) (v a : SReg) (off : BitVec 10) (g : BitVec 4), s.Issues → s.cur.guardHolds g = true →
  ∀ f ∈ [(Instr.stB v a off g, 1), (.stH v a off g, 2), (.stW v a off g, 4), (.stD v a off g, 8)],
    let n := f.2
    let ea := scaled (s.reg a) off n
    (ea.toNat % n ≠ 0 → Raises s f.1 0x03 ea)
      ∧ (ea.toNat % n = 0 → 0x7FFF < ea.toNat → Raises s f.1 0x04 ea)
      ∧ (ea.toNat % n = 0 → ea.toNat ≤ 0x7FFF → Gives f.1 s fun t => StoredData s t ea.toNat n (s.reg v).toNat)

/-- R66, R67. -/
def deviceLoads : Prop := ∀ (s : State) (d a : SReg) (off : BitVec 10), s.Issues →
  ∀ f ∈ [(Instr.ldgB d a off, 1), (.ldgH d a off, 2), (.ldgW d a off, 4), (.ldgD d a off, 8)],
    let n := f.2
    let ea := scaled (s.reg a) off n
    (ea.toNat % n ≠ 0 → Raises s f.1 0x03 ea)
      ∧ (ea.toNat % n = 0 → ∀ c u, Refused s ea n { read := true } c u → OnlyWalked s u
        ∧ Gives f.1 s fun t => Raised u t c ea)
      ∧ (ea.toNat % n = 0 → ∀ sp pa u, Allowed s ea n { read := true } sp pa u →
        let h := u.homed sp pa n
        Calm s h
          ∧ ((h.store sp).poisoned pa n = true → Gives f.1 s fun t => Raised h t 0x14 ea)
          ∧ ((h.store sp).readCause pa n = none →
            Gives f.1 s fun t => ∃ w, Corrected h w sp pa n ∧ Wrote w t d (word (h.bytesAt sp pa n)) 240))

/-- R66, R67. -/
def deviceStores : Prop := ∀ (s : State) (v a : SReg) (off : BitVec 10) (g : BitVec 4), s.Issues → s.cur.guardHolds g = true →
  ∀ f ∈ [(Instr.stgB v a off g, 1), (.stgH v a off g, 2), (.stgW v a off g, 4), (.stgD v a off g, 8)],
    let n := f.2
    let ea := scaled (s.reg a) off n
    (ea.toNat % n ≠ 0 → Raises s f.1 0x03 ea)
      ∧ (ea.toNat % n = 0 → ∀ c u, Refused s ea n { write := true } c u → OnlyWalked s u
        ∧ Gives f.1 s fun t => Raised u t c ea)
      ∧ (ea.toNat % n = 0 → ∀ sp pa u, Allowed s ea n { write := true } sp pa u →
        Calm s u ∧ Gives f.1 s fun t =>
          Passed { u with inflight := u.inflight ++ [⟨s.curAgent, sp, pa, n, (s.reg v).toNat % 256 ^ n, false⟩] } t)

/-- R68, R69. -/
def atomics : Prop := ∀ (s : State) (d a b : SReg) (g : BitVec 4), s.Issues → s.cur.guardHolds g = true →
  let y := s.reg b
  ∀ f ∈ [(Instr.aadd d a b g, fun m : Word => BitVec.ofNat 64 (m.toNat + y.toNat)), (.aswp d a b g, fun _ => y),
      (.acas d a b g, fun m => if m = s.reg d then y else m),
      (.amin d a b g, fun m => BitVec.ofInt 64 (Min.min m.toInt y.toInt)), (.amax d a b g, fun m => BitVec.ofInt 64 (Max.max m.toInt y.toInt)),
      (.aand d a b g, fun m => m &&& y), (.aor d a b g, fun m => m ||| y), (.axor d a b g, fun m => m ^^^ y)],
    ∀ pa h w, (s.reg a).toNat % 8 = 0 → AtWord s (s.reg a) pa h w → inAperture pa = false →
      let m := word (h.bytesAt .hbm pa 8)
      Calm s w ∧ Corrected h w .hbm pa 8 ∧ Gives f.1 s fun t => ∃ p, WroteBytes w p .hbm pa 8 (f.2 m).toNat ∧ Calm w p ∧ Wrote p t d m 1

/-- R68 -/
def atomicChecks : Prop := ∀ (s : State) (d a b : SReg) (g : BitVec 4), s.Issues → s.cur.guardHolds g = true →
  ∀ i ∈ [Instr.aadd d a b g, .aswp d a b g, .acas d a b g, .amin d a b g, .amax d a b g, .aand d a b g, .aor d a b g, .axor d a b g,
      .waitv d a b g, .wake d a b g],
    ((s.reg a).toNat % 8 ≠ 0 → Raises s i 0x03 (s.reg a))
      ∧ ((s.reg a).toNat % 8 = 0 → ∀ c u, Refused s (s.reg a) 8 atomicNeed c u → OnlyWalked s u
        ∧ Gives i s fun t => Raised u t c (s.reg a))
      ∧ ((s.reg a).toNat % 8 = 0 → ∀ sp pa u, Allowed s (s.reg a) 8 atomicNeed sp pa u →
        (sp ≠ .hbm → Gives i s fun t => SameBytes u t ∧ t.cur = { s.cur with
            taken := some { word := i, a := s.reg a, b := s.reg b, d := s.reg d, sup := s.cur.sup } })
        ∧ (sp = .hbm → ((u.homed sp pa 8).store sp).poisoned pa 8 = true → Gives i s fun t => Raised (u.homed sp pa 8) t 0x14 (s.reg a)))

/-- R70, R71. -/
def waitAndWake : Prop := ∀ (s : State) (d a b : SReg) (g : BitVec 4) (pa : Nat) (h w : State), s.Issues → s.cur.guardHolds g = true →
  (s.reg a).toNat % 8 = 0 → AtWord s (s.reg a) pa h w →
    let m := word (h.bytesAt .hbm pa 8)
    let chosen := let l := w.monitors.filter fun x => x.space = .hbm ∧ x.word = pa
      if s.reg b = 0 then l else l.take (s.reg b).toNat
    (m ≠ s.reg b → Gives (.waitv d a b g) s fun t => Wrote w t d 1 1)
      ∧ (m = s.reg b → Gives (.waitv d a b g) s fun t =>
        t.monitors = w.monitors ++ [⟨.hbm, pa, s.focus.tile, s.focus.task⟩]
          ∧ Waits w { t with monitors := w.monitors } .monitor
              (some { word := .waitv d a b g, a := s.reg a, b := s.reg b, sup := s.cur.sup }))
      ∧ Gives (.wake d a b g) s fun t => ∃ p, SameBytes w p ∧ Calm w p ∧ Wrote p t d (word chosen.length) 1
          ∧ t.monitors = w.monitors.filter (· ∉ chosen)
          ∧ ∀ x ∈ chosen, ((w.tile x.tile).task x.tid).state = .wait → ((w.tile x.tile).task x.tid).waiting = .monitor →
              ((t.tile x.tile).task x.tid).state = .ready

/-- R25–R31. -/
def csrReads : Prop := ∀ (s : State) (d : SReg), s.Issues → s.focus.tile < 640 →
  let k := s.cur.unexempt
  let x := s.curCtx
  let tx := s.focus.tile % 32
  let ty := s.focus.tile / 32
  let ibk (b : Ibk) : Nat := 4 * b.addr.toNat + bit b.en
  let sel := locPos (s.here.task x.spsel.toNat).place
  (∀ f ∈ [(0x000, 256 * k.ctx.toNat + 32 * bit k.bsk + 16 * bit s.here.pstall + 8 * bit k.psup + 4 * bit k.sup + 2 * bit k.pte + bit k.te),
        (0x001, k.cause.toNat), (0x002, 4 * k.epc.toNat), (0x003, k.tval.toNat), (0x004, 4 * x.tvec.toNat), (0x005, k.scratch.toNat),
        (0x010, 1024 * (tx / 16 + 2 * (ty / 10)) + 32 * ty + tx),
        (0x011, match x.launch with
          | none => 0
          | some p => 2 ^ 21 * p.lead.toNat + 2 ^ 16 * p.h.toNat + 2 ^ 10 * p.w.toNat + 32 * p.oy.toNat + p.ox.toNat),
        (0x012, 256 * (match x.launch with
            | none => 0
            | some p => (ty - p.oy.toNat) / 2 ^ x.lh.toNat * (p.w.toNat / 2 ^ x.lw.toNat) + (tx - p.ox.toNat) / 2 ^ x.lw.toNat)
          + 16 * x.lh.toNat + x.lw.toNat),
        (0x013, k.ctx.toNat), (0x014, x.prio.toNat),
        (0x021, (match SMap.get? x.bound x.colsel.toNat with | some (v, n) => 2 ^ 13 * bit v + 256 * n.toNat | none => 0) + x.colsel.toNat),
        (0x030, s.here.cycle.toNat), (0x031, s.here.retired.toNat),
        (0x040, ibk x.ibk[0]), (0x041, ibk x.ibk[1]), (0x042, ibk x.ibk[2]), (0x043, ibk x.ibk[3]),
        (0x060, x.contain.toNat), (0x070, bit x.det)],
      Writes s (.csrr d (BitVec.ofNat 10 f.1)) d (word f.2))
    ∧ (∀ n < 8, k.place = .bank n → Writes s (.csrr d 0x020) d (word (256 * n + s.focus.task)))
    ∧ (sel.2 < 128 → Writes s (.csrr d 0x022) d (word (2 ^ 24 * x.area.toNat + 512 * sel.2 + 128 * sel.1 + x.spsel.toNat)))

/-- R24, R76. -/
def csrChecks : Prop := ∀ (s : State) (d : SReg) (n : BitVec 10), s.Issues →
  (n.toNat ∉ csrNumbers →
      Raises s (.csrr d n) 0x01 ((0x3F#6 ++ d ++ n ++ 2#7 ++ 0#4).setWidth 64)
        ∧ Raises s (.csrw d n) 0x01 ((0x3F#6 ++ d ++ n ++ 3#7 ++ 0#4).setWidth 64)
        ∧ Raises s (.csrs d n) 0x01 ((0x3F#6 ++ d ++ n ++ 4#7 ++ 0#4).setWidth 64)
        ∧ Raises s (.csrc d n) 0x01 ((0x3F#6 ++ d ++ n ++ 5#7 ++ 0#4).setWidth 64))
    ∧ (n.toNat ∈ csrNumbers → ∃ v, Writes s (.csrr d n) d v ∧ s.issued.csr n.toNat = some v)
    ∧ (n.toNat ∈ csrSupervisor → s.cur.sup = false → ∀ i ∈ [Instr.csrw d n, .csrs d n, .csrc d n], Raises s i 0x06 0)

/-- R7, R24–R31, R76: the fields that a write changes. -/
def csrWrites : Prop := ∀ (s : State) (d : SReg), s.Issues →
  ∀ f ∈ [(0x000, 0x2B), (0x001, 0x3F), (0x002, 0x7FFC), (0x003, 2 ^ 64 - 1), (0x004, 0x7FFC), (0x005, 2 ^ 64 - 1), (0x010, 0), (0x011, 0),
      (0x013, 0), (0x014, 7), (0x020, 0), (0x040, 0x7FFD), (0x041, 0x7FFD), (0x042, 0x7FFD), (0x043, 0x7FFD), (0x060, 0xFF), (0x070, 1)],
    (f.1 ∈ csrSupervisor → s.cur.sup = true) →
    ∀ i ∈ csrWriters d (BitVec.ofNat 10 f.1) (s.reg d), ∀ v, s.issued.csr f.1 = some v →
      Gives i.1 s fun t => WroteCsr s t ∧ t.csr f.1 = some ((v &&& ~~~(word f.2)) ||| (i.2 v &&& word f.2))
        ∧ ∀ n, n ≠ f.1 → n ≠ 0x030 → n ≠ 0x031 → t.csr n = s.issued.csr n

/-- R27–R29. -/
def csrMapWrites : Prop := ∀ (s : State) (d : SReg), s.Issues →
  let x := s.curCtx
  let c := s.cur.ctx.toNat
  (∀ i ∈ csrWriters d 0x012 (s.reg d), ∀ v, s.issued.csr 0x012 = some v →
      let q := (i.2 v).toNat
      let fits := match x.launch with | none => False | some p => p.w.toNat % 2 ^ (q % 16) = 0 ∧ p.h.toNat % 2 ^ (q / 16 % 16) = 0
      Gives i.1 s fun t => WroteCsr s t
        ∧ (fits → t.curCtx = { x with lw := BitVec.ofNat 4 q, lh := BitVec.ofNat 4 (q / 16) }) ∧ (¬ fits → t.curCtx = x))
    ∧ (s.cur.sup = true → ∀ i ∈ csrWriters d 0x022 (s.reg d), ∀ v, s.issued.csr 0x022 = some v →
      let q := (i.2 v).toNat
      Gives i.1 s fun t => WroteCsr s t ∧ t.curCtx = { x with area := BitVec.ofNat 40 (q / 2 ^ 24), spsel := BitVec.ofNat 5 q })
    ∧ (s.cur.sup = true → ∀ i ∈ csrWriters d 0x021 (s.reg d), ∀ v, s.issued.csr 0x021 = some v →
      let q := (i.2 v).toNat
      let col := q % 32
      let n := q / 256 % 32
      let set := q / 2 ^ 15 % 2 = 1
      let on := q / 2 ^ 13 % 2 = 1
      Gives i.1 s fun t => SameBytes s t ∧ t.cur.regs = s.cur.regs ∧ t.cur.guards = s.cur.guards ∧ t.cur.pc = s.cur.pc + 4
        ∧ t.curCtx.colsel = BitVec.ofNat 5 q
        ∧ (∀ b, b ≠ col ∨ ¬ set ∨ (on ∧ (s.here.task n).state = .free) → t.here.binding c b = s.here.binding c b)
        ∧ (set → on → (s.here.task n).state ≠ .free → t.here.binding c col = some n)
        ∧ (set → ¬ on → t.here.binding c col = none)
        ∧ (set → on → (s.here.task n).state = .wait → (s.here.task n).waiting ∉ [.engine, .barrier, .nothing] →
            (s.here.channel c col ≠ [] ∨ ∃ b ∈ s.here.held, b.onColour c col = true) → (t.here.task n).state = .ready))

/-- R21, R77. -/
def trapWords : Prop := ∀ (s : State) (a : SReg), s.Issues →
  Raises s (.trap a) 0x08 (s.reg a) ∧ Raises s .brkpt 0x09 (word s.cur.pc.toNat)

/-- R21, R23, R77. -/
def trapReturn : Prop := ∀ (s : State), s.Issues → s.cur.sup = true →
  Gives .tret s fun t => SameBytes s t ∧ Elsewhere s t ∧ TileAside s t ∧ t.here.retired = s.here.retired + 1
    ∧ t.cur = { s.cur.unexempt with
        pc := s.cur.epc ++ 0#2, te := s.cur.pte, sup := s.cur.psup, exempt := s.cur.unexempt.bsk, handling := false }
    ∧ (s.cur.handling = false → Beyond s t)

/-- R77, R181, R183, R184. -/
def supervisorWords : Prop := ∀ (s : State) (d a b : SReg), s.Issues → s.cur.sup = false →
  ∀ i ∈ [Instr.tret, .halt, .tlbinv a b, .ctxsave d a b, .ctxrest d a b, .shplace d a b, .shfree d a b, .ctxpri a b, .edgedepth d a b,
      .dwmarkPost d a b, .dwmarkRelease d a b],
    Raises s i 0x06 0

/-- R77, R283. -/
def fenceWord : Prop := ∀ (s : State) (scope : BitVec 5), s.Issues →
  let f := scope.toNat
  (2 ≤ f ∧ f ≤ 5 → Gives (.fence scope) s fun t => ∃ u, Calm s u ∧ Passed u t
      ∧ ∀ x ∈ t.inflight, x ∈ s.inflight ∧ (x.agent = s.curAgent → f = 2 ∨ (f < 5 ∧ x.space ≠ .hbm)))
    ∧ (¬ (2 ≤ f ∧ f ≤ 5) → Raises s (.fence scope) 0x01 ((0x3F#6 ++ scope ++ 0#10 ++ 6#7 ++ 0#4).setWidth 64))

/-- R77. -/
def haltAndIdle : Prop := ∀ (s : State), s.Issues →
  (s.cur.sup = true → Gives .halt s fun t => ∃ u, Passed s u ∧ Beyond u t ∧ (∀ n, n ≠ s.focus.tile → t.tile n = u.tile n)
      ∧ t.here = { u.here with halted := true })
    ∧ (Gives .idle s fun t => Leaves s t .wait .idle)
    ∧ (Gives .tyield s fun t => Leaves s t .ready .nothing)

/-- R77, R228. -/
def translationInvalidate : Prop := ∀ (s : State) (a b : SReg), s.Issues → s.cur.sup = true →
  let c := s.cur.ctx.toNat
  let va := (s.reg a).toNat
  Gives (.tlbinv a b) s fun t => ∃ u, Calm s u ∧ Passed u t ∧ ∀ die,
    (t.unit die).ptrs = (s.unit die).ptrs.filter (fun p => p.ctx ≠ c)
      ∧ (s.reg b ≠ 0 → (t.unit die).leaves = (s.unit die).leaves.filter fun l => l.ctx ≠ c)
      ∧ (s.reg b = 0 → (t.unit die).leaves = (s.unit die).leaves.filter fun l => ¬ (l.ctx = c ∧ l.page = if l.big then va / 2 ^ 25 else va / 2 ^ 16))

/-- R77, R78. -/
def contextSaveWords : Prop := ∀ (s : State) (d a b : SReg), s.Issues → s.cur.sup = true →
  let c := (s.reg a).toNat
  let bad := c % 4 = s.cur.ctx.toNat ∨ 4 ≤ c ∨ (s.reg b).toNat % 4096 ≠ 0
  let busy := ∃ j ∈ s.jobs, j.die = tileDie s.focus.tile
  ∀ f ∈ [(Instr.ctxsave d a b, false), (.ctxrest d a b, true)],
    (bad → Writes s f.1 d 2) ∧ (¬ bad → busy → Writes s f.1 d 1)
      ∧ (¬ bad → ¬ busy → Gives f.1 s fun t => ∃ u, Calm s u ∧ SameBytes s u ∧ Wrote u t d 0 1
        ∧ ∃ j, t.jobs = s.jobs ++ [j] ∧ j.die = tileDie s.focus.tile ∧ j.back = f.2 ∧ j.tile = s.focus.tile ∧ j.ctx = c
          ∧ j.area = (s.reg b).toNat ∧ j.rctx = s.cur.ctx.toNat)

/-- R174: TWAIT. -/
def taskWait : Prop := ∀ (s : State) (d : SReg), s.Issues →
  let c := s.cur.ctx.toNat
  let mine := (List.range 32).filter fun col => s.here.binding c col = some s.focus.task
  (mine = [] → Writes s (.twait d) d (word (2 ^ 64 - 1)))
    ∧ (∀ col ∈ mine, s.here.channel c col ≠ [] → (∀ e ∈ mine, e < col → s.here.channel c e = []) → Writes s (.twait d) d (word col))
    ∧ (mine ≠ [] → (∀ col ∈ mine, s.here.channel c col = []) → Gives (.twait d) s fun t => Waits s t .colour s.cur.taken)

/-- R174: TBIND, TSPAWN. -/
def taskCreation : Prop := ∀ (s : State) (d a b : SReg), s.Issues →
  let c := s.cur.ctx.toNat
  let x := (s.reg a).toNat
  let col := (s.reg b).toNat % 32
  let full := ∀ n < 32, (s.here.task n).state ≠ .free
  let lowest (n : Nat) := n < 32 ∧ (s.here.task n).state = .free ∧ ∀ m < n, (s.here.task m).state ≠ .free
  (x % 4 ≠ 0 ∨ 0x7FFF < x → Raises s (.tbind d a b) 0x03 (s.reg a))
    ∧ (x % 4 = 0 → x ≤ 0x7FFF → full → Writes s (.tbind d a b) d (word (2 ^ 64 - 1)))
    ∧ (x % 4 = 0 → x ≤ 0x7FFF → ¬ full → s.here.binding c col ≠ none → Writes s (.tbind d a b) d (word (2 ^ 64 - 2)))
    ∧ (∀ n, x % 4 = 0 → x ≤ 0x7FFF → lowest n → s.here.binding c col = none →
        Gives (.tbind d a b) s fun t => SameBytes s t ∧ ∃ u, Calm s u ∧ Wrote u t d (word n) 1
          ∧ t.here.binding c col = some n
          ∧ ∃ st w q, (st = .wait ∧ w = .colour ↔ s.here.channel c col = [] ∧ ∀ e ∈ s.here.held, e.onColour c col = false)
              ∧ (st = .wait ∨ st = .ready)
              ∧ t.here.task n = { ctx := s.cur.ctx, pc := BitVec.ofNat 15 x, te := true, sup := false, state := st, waiting := w, readySeq := q })
    ∧ (x / 2 % 2 = 1 ∨ 0x7FFF < x → Raises s (.tspawn d a b) 0x03 (s.reg a))
    ∧ (x / 2 % 2 = 0 → x ≤ 0x7FFF → full → Writes s (.tspawn d a b) d (word (2 ^ 64 - 1)))
    ∧ (∀ n, x / 2 % 2 = 0 → x ≤ 0x7FFF → lowest n →
        Gives (.tspawn d a b) s fun t => SameBytes s t ∧ ∃ u, Calm s u ∧ Wrote u t d (word n) 1
          ∧ ∃ q, t.here.task n = {
              ctx := s.cur.ctx, pc := BitVec.ofNat 15 (x / 4 * 4), te := true, sup := false, state := .ready, scratch := s.reg b
              stealable := decide (x % 2 = 1), readySeq := q })

/-- R174: TEXIT. -/
def taskExit : Prop := ∀ (s : State), s.Issues →
  let n := s.focus.task
  let k := s.cur.unexempt
  Gives .texit s fun t => (∃ q, t.here.task n = {
        state := .free, ctx := k.ctx, guards := k.guards, pc := k.pc + 4, te := k.te, pte := k.pte, sup := k.sup, psup := k.psup, bsk := k.bsk
        exempt := k.exempt, cause := k.cause, epc := k.epc, tval := k.tval, scratch := k.scratch, readySeq := k.readySeq, leftSeq := q })
    ∧ (∀ c < 4, ∀ col, t.here.binding c col ≠ some n)
    ∧ (∀ c < 4, ∀ col, s.here.binding c col ≠ some n → t.here.binding c col = s.here.binding c col)
    ∧ t.here.channels = s.here.channels
    ∧ (∀ m ∈ t.monitors, ¬ (m.tile = s.focus.tile ∧ m.tid = n))
    ∧ (s.cur.job = none → SameBytes s t ∧ t.here.retired = s.here.retired + 1 ∧ Elsewhere s t)

/-- R176. -/
def channelRead : Prop := ∀ (s : State) (d a b : SReg), s.Issues →
  let c := s.cur.ctx.toNat
  let col := (s.reg a).toNat % 32
  let i := (s.reg b).toNat % 8
  let bs := s.here.channel c col
  let item := match i, bs with
    | 4, e :: _ => e.tag.toWord
    | 5, _ => word bs.length
    | 6, _ => 0
    | 7, _ => 0
    | _, [] => 0
    | _, e :: _ => BitVec.ofNat 64 (e.data.toNat / 2 ^ (64 * i))
  (s.here.binding c col ≠ some s.focus.task → Raises s (.chrd d a b) 0x06 0)
    ∧ (s.here.binding c col = some s.focus.task → i ≤ 4 → bs = [] → Gives (.chrd d a b) s fun t => Waits s t .colour s.cur.taken)
    ∧ (s.here.binding c col = some s.focus.task → (i ≤ 4 → bs ≠ []) →
        Gives (.chrd d a b) s fun t => ∃ u, Wrote s u d item 1
          ∧ ((s.reg b).toNat / 8 % 2 = 1 → i ≤ 4 → t = u.modHere fun T => T.setChannel c col (bs.drop 1))
          ∧ (¬ ((s.reg b).toNat / 8 % 2 = 1 ∧ i ≤ 4) → t = u))

/-- R177. -/
def channelWrite : Prop := ∀ (s : State) (a b : SReg), s.Issues →
  let k := s.cur
  let x := s.reg b
  let i := x.toNat % 4
  let staged (v : BitVec 256) := ∀ j < 4, v.extractLsb' (64 * j) 64 = if j = i then s.reg a else k.staging.extractLsb' (64 * j) 64
  let lane (u : State) (col : BitVec 5) : List Beat := (SMap.getD u.here.down (colourKey k.ctx.toNat col.toNat) {}).beats
  (x.getLsbD 2 = false → Gives (.chwr a b) s fun t => Retires s t 1
      ∧ ∃ v, staged v ∧ t.cur = { k.unexempt with staging := v, pc := k.pc + 4 })
    ∧ (∀ tag, x.getLsbD 2 = true →
        (∀ m < 32, m ≠ s.focus.task → (s.here.task m).ctx = k.ctx → ∀ o ∈ (s.here.task m).openToks, o.col ≠ tag.col) →
        ((∃ o ∈ k.openToks, k.openToks.find? (fun o => o.col == x.extractLsb' 7 5) = some o ∧
            tag = { o with last := x.getLsbD 3 || o.hdr || o.nul })
          ∨ ((∀ o ∈ k.openToks, o.col ≠ x.extractLsb' 7 5) ∧
            tag = {
              ctx := k.ctx, col := x.extractLsb' 7 5, thr := x.extractLsb' 24 8, itr := x.extractLsb' 12 12, frm := x.extractLsb' 32 16
              last := x.getLsbD 3 || x.getLsbD 4 || x.getLsbD 6, nul := x.getLsbD 6, prd := x.getLsbD 5, hdr := x.getLsbD 4 })) →
        Gives (.chwr a b) s fun t => SameBytes s t ∧ Elsewhere s t
          ∧ (∃ v, staged v ∧ lane t tag.col = lane s tag.col ++ [⟨tag, v⟩])
          ∧ t.cur.staging = 0 ∧ t.cur.pc = k.pc + 4 ∧ t.cur.regs = k.regs ∧ t.cur.guards = k.guards ∧ t.cur.state = .run
          ∧ t.cur.held = some (colourKey k.ctx.toNat tag.col.toNat)
          ∧ ((∃ o ∈ t.cur.openToks, o.col = tag.col) ↔ tag.last = false))

/-- R178: TRIG. -/
def triggerWord : Prop := ∀ (s : State), s.Issues →
  Gives .trig s fun t => t.cur = { s.cur.unexempt with pc := s.cur.pc + 4 }
    ∧ (s.curCtx.launch ≠ none → t.curCtx.trig = true) ∧ (s.curCtx.launch = none → ∃ u, Calm s u ∧ Passed u t)

/-- R178: BARQ. -/
def barrierWord : Prop := ∀ (s : State) (a : SReg), s.Issues →
  let v := (s.reg a).toNat
  let c := s.cur.ctx.toNat
  let whole := decide (v / 16 % 16 = 1)
  let key := State.barrierKey s.curCtx.lw s.curCtx.lh (v % 16) whole
  let round (u : Nat) : Nat := SMap.getD ((s.tile u).ctx c).rounds key 0
  let group := s.barrierGroup s.focus.tile c whole
  let full := ∀ u ∈ group, u ≠ s.focus.tile → ((s.tile u).ctx c).compl = false → round s.focus.tile < round u
  (2 ≤ v / 16 % 16 → Raises s (.barq a) 0x01 ((0x1C#6 ++ 0#5 ++ a ++ 0#5 ++ 8#7 ++ 0#4).setWidth 64))
    ∧ (v / 16 % 16 < 2 → s.focus.tile ∈ group → s.curCtx.compl = false → (∀ e ∈ s.curCtx.arrivals, e.tid ≠ s.focus.task) →
        Gives (.barq a) s fun t => SMap.getD t.curCtx.rounds key 0 = round s.focus.tile + 1 ∧ t.cur.regs = s.cur.regs ∧ t.cur.guards = s.cur.guards
          ∧ (full → t.cur.state = .ready ∧ t.cur.pc = s.cur.pc + 4)
          ∧ (¬ full → t.cur.state = .wait ∧ t.cur.waiting = .barrier ∧ t.cur.pc = s.cur.pc))

end Sys2Proof.Claims

/-- The integer words. For every state that issues a word and every choice of registers, each of the 32 words of major 0x01 completes and writes
its destination with the value of R59 (a write to s0 is discarded); pc moves to the next word, RETIRED and CYCLE count one, and no other register,
guard, task, tile or memory changes. (R59) -/
def Obligations.IntegerWords : Prop :=
  Sys2Proof.Claims.integerWords

/-- The immediate words, LUI and ADDPC. Each of the ten immediate words, LUI and ADDPC completes and writes its destination with the value that
R60 and R61 give, for every immediate; nothing else changes. (R61) -/
def Obligations.ImmediateWords : Prop :=
  Sys2Proof.Claims.immediateWords

/-- Compares, guard logic, SEL, QRD and QWR. Each compare and guard-logic word completes and writes one guard bit (q0 stays 1); SEL whose guard
holds copies a; QRD writes the eight guards as a number and QWR writes q1 to q7 from bits 1 to 7 of a. Nothing else changes. (R62, R63, R64) -/
def Obligations.GuardWords : Prop :=
  Sys2Proof.Claims.guardWords ∧ Sys2Proof.Claims.guardTransfer

/-- A word whose guard does not hold. Every guardable word whose guard evaluates to 0 completes: pc advances by 4, RETIRED counts it, and nothing
else changes. (R20) -/
def Obligations.GuardedOff : Prop :=
  Sys2Proof.Claims.guardedOff

/-- BR, CALL, JR, RET and CALLT. With the guard holding: BR and CALL go to (pc + 4 off) mod 2^15, CALL and CALLT writing pc + 4 to the link
register; JR goes to a marked target; RET to a word that follows a CALL or CALLT; CALLT through a table entry whose code matches. Each check of
R73, R74 and R75 that fails raises its cause with its value, and nothing else changes. (R72, R73, R74) -/
def Obligations.ControlTransfer : Prop :=
  Sys2Proof.Claims.branchWords ∧ Sys2Proof.Claims.jumpRegister ∧ Sys2Proof.Claims.returnWord ∧ Sys2Proof.Claims.callThroughTable

/-- LDZ, LDS and ST. At every address each data-store word raises 0x03 when it is misaligned, then 0x04 beyond 0x7FFF; a load of bytes that can be
read writes d with their value, zero or sign extended; a store whose guard holds writes the low bytes of v at ea, and no other byte of the data
store, register or memory changes. (R65, R377) -/
def Obligations.DataStoreWords : Prop :=
  Sys2Proof.Claims.dataStoreLoads ∧ Sys2Proof.Claims.dataStoreStores

/-- LDG and STG. LDG and STG raise 0x03 when misaligned, and the cause that the translation gives when the access is refused, with the effective
address as value and no change but of the translation caches; LDG raises 0x14 at a poisoned sector and otherwise writes d with the bytes at their
home; STG hands the memory system one store of the low bytes of v at the translated address and retires. (R66, R67) -/
def Obligations.DeviceMemoryWords : Prop :=
  Sys2Proof.Claims.deviceLoads ∧ Sys2Proof.Claims.deviceStores

/-- The atomics and their checks. An atomic raises 0x03 off an 8-byte boundary and the cause of a refused translation; on another memory than the
device's it is held for its emulation; at a poisoned sector it raises 0x14. Else AADD to AXOR complete: the word takes the new value of R69, no
other byte changes, and d takes the old value. (R68, R69) -/
def Obligations.Atomics : Prop :=
  Sys2Proof.Claims.atomics ∧ Sys2Proof.Claims.atomicChecks

/-- WAITV and WAKE. WAITV on a word that differs from b writes d := 1; on an equal one it arms a monitor after those armed before and the task
waits with pc on its word. WAKE releases the monitors on the word, all with b = 0 and else the b armed longest, writes d with their number and no
byte, and their tasks are READY. (R70, R71) -/
def Obligations.WaitAndWake : Prop :=
  Sys2Proof.Claims.waitAndWake

/-- Reads and writes of the CSRs. CSRR of each CSR of R24 writes d with the fields of its map; a number that R24 does not list raises 0x01 and a
write that needs SUP = 1 raises 0x06; CSRW, CSRS and CSRC change exactly the writable fields, COLCFG and MAPSH under their own conditions, and no
other CSR, general register or guard. (R24, R25, R26, R27, R28, R29, R31, R76) -/
def Obligations.CsrWords : Prop :=
  Sys2Proof.Claims.csrReads ∧ Sys2Proof.Claims.csrChecks ∧ Sys2Proof.Claims.csrWrites ∧ Sys2Proof.Claims.csrMapWrites

/-- TRAP, BRKPT, TRET and words of supervisor state. TRAP raises 0x08 with a, BRKPT raises 0x09 with pc; with STATUS.TE = 1 the trap saves pc,
cause, value, TE and SUP, sets TE := 0 and SUP := 1 and goes to TVEC, and with TE = 0 the task freezes and the region controller is told. TRET
restores pc, TE and SUP. The supervisor words raise 0x06 with SUP = 0. (R21, R23, R77) -/
def Obligations.Traps : Prop :=
  Sys2Proof.Claims.trapWords ∧ Sys2Proof.Claims.trapReturn ∧ Sys2Proof.Claims.supervisorWords

/-- FENCE, HALT, IDLE, TYIELD and TLBINV. FENCE of scopes 2 to 5 leaves no store of its agent in flight that the scope covers and retires; another
scope raises 0x01. HALT retires and stops the Surveyor; IDLE and TYIELD retire and leave RUN for WAIT and READY; TLBINV drops the context's cached
entries of the page, or all of them, on every die. (R77, R228, R283) -/
def Obligations.SystemWords : Prop :=
  Sys2Proof.Claims.fenceWord ∧ Sys2Proof.Claims.haltAndIdle ∧ Sys2Proof.Claims.translationInvalidate

/-- TWAIT, TBIND, TSPAWN and TEXIT. TWAIT answers the lowest bound colour that holds a beat, or 2^64 - 1 with none bound, or waits; TBIND and
TSPAWN raise 0x03 at a bad address, answer their codes when they cannot, and else make the lowest FREE descriptor a task as stated; TEXIT frees
the task, its bindings and its monitor. (R174) -/
def Obligations.TaskWords : Prop :=
  Sys2Proof.Claims.taskWait ∧ Sys2Proof.Claims.taskCreation ∧ Sys2Proof.Claims.taskExit

/-- CHRD, CHWR, TRIG and BARQ. CHRD of a colour bound to another task raises 0x06, waits on an empty channel, and else writes its item and may
take the beat; CHWR fills the staging register or sends a beat, with its checks; TRIG marks the tile's trigger and BARQ completes or waits as
stated. (R175, R176, R177, R178) -/
def Obligations.ChannelWords : Prop :=
  Sys2Proof.Claims.channelRead ∧ Sys2Proof.Claims.channelWrite ∧ Sys2Proof.Claims.triggerWord ∧ Sys2Proof.Claims.barrierWord

/-- CTXSAVE and CTXREST. CTXSAVE and CTXREST answer 2 for a context or an area that they may not name, 1 while their die has a job, and else 0
with one job accepted after those before; nothing else changes. (R77, R78) -/
def Obligations.ContextSaveWords : Prop :=
  Sys2Proof.Claims.contextSaveWords

/-! # Control words of the fabric and of engines -/

namespace Sys2Proof.Claims

/-- OPLD, R179: `k` slot records of 8 bytes from the data store, the refusals of R50 with cause 0x1E. -/
def slotLoads : Prop := ∀ (s : State) (d a b : SReg), s.Issues →
  let at0 := (s.reg a).toNat
  let v := (s.reg b).toNat
  let g := 64 * s.focus.tile + v % 64
  let c := v / 64 % 4
  let n := v / 256 % 16
  let k := Min.min 15 (n + v / 4096 % 16) - n + 1
  let record (j : Nat) : BitVec 64 := word (Memory.readN s.here.dstore.bytes (at0 + 8 * (j - n)) 8)
  let reason (j : Nat) : Option Nat := slotReason ((record j).extractLsb' 0 32) j
  let upTo (t : State) (e : Nat) := SameBytes s t ∧ ∀ h x j, x < 4 → (t.ectx h x).slot j
    = if h = g ∧ x = c ∧ n ≤ j ∧ j < e then
        ⟨(record j).extractLsb' 0 32, (record j).extractLsb' 32 5, (record j).extractLsb' 37 5, (record j).getLsbD 42⟩
      else (s.ectx h x).slot j
  (at0 % 8 ≠ 0 → Raises s (.opld d a b) 0x03 (s.reg a))
    ∧ (at0 % 8 = 0 → 0x8000 < at0 + 8 * k → Raises s (.opld d a b) 0x04 (s.reg a))
    ∧ (at0 % 8 = 0 → at0 + 8 * k ≤ 0x8000 → s.cur.sup = false → Raises s (.opld d a b) 0x06 0)
    ∧ (at0 % 8 = 0 → at0 + 8 * k ≤ 0x8000 → s.cur.sup = true → (∀ j, n ≤ j → j < n + k → reason j = none) →
        Gives (.opld d a b) s fun t => ∃ u, Calm s u ∧ Wrote u t d (word k) 1 ∧ upTo t (n + k))
    ∧ (∀ e r, at0 % 8 = 0 → at0 + 8 * k ≤ 0x8000 → s.cur.sup = true → n ≤ e → e < n + k → reason e = some r →
        (∀ j, n ≤ j → j < e → reason j = none) →
        Gives (.opld d a b) s fun t => ∃ u, Calm s u ∧ upTo u e
          ∧ Raised u t 0x1E (word (v % 64 * 2 ^ 48 + r * 2 ^ 40 + (16 * c + e) * 2 ^ 32 + (record e).toNat % 2 ^ 32)))

/-- SWLD, R180: `k` switch words of 16 bits from the data store. -/
def switchLoads : Prop := ∀ (s : State) (d a b : SReg), s.Issues →
  let at0 := (s.reg a).toNat
  let v := (s.reg b).toNat
  let g := 64 * s.focus.tile + v % 64
  let n := v / 64 % 64
  let k := Min.min 63 (n + v / 4096 % 64) - n + 1
  let record (j : Nat) : BitVec 16 := BitVec.ofNat 16 (Memory.readN s.here.dstore.bytes (at0 + 2 * (j - n)) 2)
  (at0 % 2 ≠ 0 → Raises s (.swld d a b) 0x03 (s.reg a))
    ∧ (at0 % 2 = 0 → 0x8000 < at0 + 2 * k → Raises s (.swld d a b) 0x04 (s.reg a))
    ∧ (at0 % 2 = 0 → at0 + 2 * k ≤ 0x8000 → s.cur.sup = false → Raises s (.swld d a b) 0x06 0)
    ∧ (∀ u, at0 % 2 = 0 → at0 + 2 * k ≤ 0x8000 → s.cur.sup = true → s.loadFrom (fun s j => s.loadSwitch g j (record j) 4) n k = (none, u) →
        Calm s u ∧ SameBytes s u ∧ (∀ h, h ≠ g → u.elem h = s.elem h)
          ∧ (∀ j, SMap.get? (u.elem g).switch j = if n ≤ j ∧ j < n + k then some (record j) else SMap.get? (s.elem g).switch j)
          ∧ Gives (.swld d a b) s fun t => Wrote u t d (word k) 1)
    ∧ (∀ e r u, at0 % 2 = 0 → at0 + 2 * k ≤ 0x8000 → s.cur.sup = true →
        s.loadFrom (fun s j => s.loadSwitch g j (record j) 4) n k = (some (e, r), u) →
        Gives (.swld d a b) s fun t => Raised u t 0x1E (word (v % 64 * 2 ^ 48 + r * 2 ^ 40 + e * 2 ^ 32 + (record e).toNat)))

/-- SHPLACE and SHFREE, R181, and CTXPRI, R183. -/
def sheets : Prop := ∀ (s : State) (d a b : SReg), s.Issues → s.cur.sup = true →
  let sheet := (s.reg a).toNat % 4
  let c := (s.reg b).toNat % 4
  let key := 4 * sheet + c
  let idle := ∀ e < 64, elemSheet e = sheet → s.elemIdle (64 * s.focus.tile + e) c = true
  (key ∈ s.here.inForce → Writes s (.shplace d a b) d 1)
    ∧ (key ∉ s.here.inForce → Gives (.shplace d a b) s fun t => ∃ u, Calm s u ∧ SameBytes s u ∧ Wrote u t d 0 1
        ∧ ∀ j, j ∈ t.here.inForce ↔ j = key ∨ j ∈ s.here.inForce)
    ∧ ((s.here.ctx c).launch ≠ none → Writes s (.shfree d a b) d 2)
    ∧ ((s.here.ctx c).launch = none → idle → Gives (.shfree d a b) s fun t => ∃ u, Calm s u ∧ SameBytes s u ∧ Wrote u t d 0 1
        ∧ ∀ j, j ∈ t.here.inForce ↔ j ≠ key ∧ j ∈ s.here.inForce)
    ∧ ((s.here.ctx c).launch = none → ¬ idle → Gives (.shfree d a b) s fun t => t.cur = s.cur ∧ SameBytes s t)
    ∧ (Gives (.ctxpri a b) s fun t => ∃ u, Passed s u
        ∧ t = u.modHere fun T => T.modCtx ((s.reg a).toNat % 4) fun x => { x with prio := BitVec.ofNat 3 (s.reg b).toNat })

/-- EDGEDEPTH, R108 and R184. -/
def edgeDepths : Prop := ∀ (s : State) (d a b : SReg), s.Issues → s.cur.sup = true →
  let v := (s.reg a).toNat
  let g := 64 * s.focus.tile + v % 64
  let c := v / 64 % 4
  let col := v / 256 % 32
  let p := v / 8192 % 4
  let n := (s.reg b).toNat % 4096
  let routed := ∃ x ∈ (s.elem g).switch, swEn x.2 = true ∧ swCtx x.2 = c ∧ swCol x.2 = col ∧ p ∈ maskPorts (swTo x.2)
  let fits := s.poolUsed s.focus.tile - (s.edge g c col p).depth + n ≤ 2048
  (n = 0 ∨ 2048 < n → Writes s (.edgedepth d a b) d 3)
    ∧ (n ≠ 0 → n ≤ 2048 → ¬ routed → Writes s (.edgedepth d a b) d 2)
    ∧ (n ≠ 0 → n ≤ 2048 → routed → (s.edge g c col p).beats = [] → ¬ fits → Writes s (.edgedepth d a b) d 1)
    ∧ (n ≠ 0 → n ≤ 2048 → routed → (s.edge g c col p).beats = [] → fits →
        Gives (.edgedepth d a b) s fun t => ∃ u, Calm s u ∧ SameBytes s u ∧ Wrote u t d 0 1
          ∧ (t.edge g c col p).depth = n ∧ (t.edge g c col p).beats = [] ∧ ∀ h, h ≠ g → t.elem h = s.elem h)
    ∧ (n ≠ 0 → n ≤ 2048 → routed → (s.edge g c col p).beats ≠ [] →
        Gives (.edgedepth d a b) s fun t => SameBytes s t ∧ t.cur = { s.cur with
          taken := some { word := .edgedepth d a b, dest := d, a := s.reg a, b := s.reg b } })

/-- CFGLOAD, R182. -/
def imageLoads : Prop := ∀ (s : State) (d a b : SReg), s.Issues →
  let c := (s.reg b).toNat % 4
  let l := s.loadImage s.focus.tile c s.cur.ctx.toNat (s.reg a).toNat
  let page := (s.translate s.curDie s.cur.ctx.toNat (s.reg a).toNat).1
  (page = none → Raises s (.cfgload d a b) 0x05 (s.reg a))
    ∧ (page ≠ none → s.cur.sup = false → Raises s (.cfgload d a b) 0x06 0)
    ∧ (page ≠ none → s.cur.sup = true → l.2.1 = none → l.2.2.absent = none →
        Calm s l.2.2 ∧ (∀ g x, x < 4 → gidTile g ≠ s.focus.tile ∨ x ≠ c → l.2.2.ectx g x = s.ectx g x)
          ∧ Gives (.cfgload d a b) s fun t => Wrote l.2.2 t d (word l.1) 240)
    ∧ (∀ cause v, page ≠ none → s.cur.sup = true → l.2.1 = some (cause, v) → l.2.2.absent = none → cause ≠ 0x15 → cause ≠ 0x18 →
        Gives (.cfgload d a b) s fun t => Raised l.2.2 t cause v)


/-- R37: a word whose sync condition fails does not issue, and its task waits. -/
def syncConditions : Prop := ∀ (s : State) (d a b : SReg) (y : Sync), s.Issues →
  ∀ f ∈ [(0x1E, [Instr.tvset d a b y, .tvclr a y, .sbind d a b y, .sbar y, .swait d a y, .scan a y]),
      (0x1F, [.cpy d a y, .cpyv d a b y, .cpyf d a y, .cpyst d a b y, .cpysync d a y]),
      (0x20, [.ddvar d a y, .ddapply d a b y, .ddite d a b y, .ddrest d a b y, .ddex d a b y, .ddref d a y, .ddderef d a y, .ddswap d a b y,
        .ddstat d a b y]),
      (0x21, [.egpost d a y, .egrel d a b y, .egrej d a b y, .egstat d a b y]),
      (0x22, [.fdeclDescriptor d a b y, .fdeclRegion d a b y, .fgrow d a y, .fcheck d a y, .fdrop d a y, .fstat d a b y]),
      (0x23, [.coll d a y, .colst d a b y, .colab d a b y])],
    let p := s.here.pair s.cur.ctx.toNat f.1 y.fifo.toNat
    (y.pop = true ∧ p.toTask = 0) ∨ (y.push = true ∧ 63 ≤ p.toEngine) →
    ∀ i ∈ f.2, Gives i s fun t => Withheld s t (.sync f.1 y.fifo.toNat y.push y.pop)

/-- `i` is taken by an engine with what `k` says of it and of its pair. -/
def isTaken (s : State) (i : Instr) (maj : Nat) (y : Sync) (w : Waiting) (k : Taken) : Prop :=
  Gives i s fun t => ∃ k', SyncKept k maj y k' ∧ TakenAs s t w k'

/-- R266, R268: the words of the fold controller. -/
def foldWordsTaken : Prop := ∀ (s : State) (d a b : SReg) (y : Sync), s.Issues → SyncReady s 0x22 y →
  let p := (s.reg a).toNat
  let x := s.reg a
  let z := s.reg b
  -- each word with the bytes of its record and whether it needs supervisor state
  ∀ f ∈ [(Instr.fdeclDescriptor d a b y, if z.getLsbD 0 then 16 else 32, true, z), (.fdeclRegion d a b y, if z.getLsbD 0 then 16 else 32, true, z),
      (.fgrow d a y, 32, true, 0), (.fcheck d a y, 16, false, 0), (.fdrop d a y, 0, true, 0), (.fstat d a b y, 0, false, z)],
    let n := f.2.1
    (n ≠ 0 → p % 8 ≠ 0 → Raises s f.1 0x03 x)
      ∧ (n ≠ 0 → p % 8 = 0 → 0x8000 < p + n → Raises s f.1 0x04 x)
      ∧ ((n ≠ 0 → p % 8 = 0 ∧ p + n ≤ 0x8000) → f.2.2.1 = true → s.cur.sup = false → Raises s f.1 0x06 0)
      ∧ ((n ≠ 0 → p % 8 = 0 ∧ p + n ≤ 0x8000) → (f.2.2.1 = true → s.cur.sup = true) →
          isTaken s f.1 0x22 y .engine (s.keeps f.1 d x f.2.2.2 (Memory.readN s.here.dstore.bytes p n)))

/-- R346: the words of the decision-diagram engine. -/
def diagramWordsTaken : Prop := ∀ (s : State) (d a b : SReg) (y : Sync), s.Issues →
  let x := s.reg a
  let z := s.reg b
  let form := x.toNat % 4
  -- each word with whether b must be a multiple of 8 and whether it needs supervisor state
  ∀ f ∈ [(Instr.ddvar d a y, false, false, 0), (.ddapply d a b y, false, false, z), (.ddite d a b y, false, false, z), (.ddrest d a b y, false, false, z),
      (.ddex d a b y, false, false, z), (.ddwcnt d a b y, !z.getLsbD 0, false, z), (.ddeval d a b y, true, false, z), (.ddref d a y, false, false, 0),
      (.ddderef d a y, false, false, 0), (.ddcollCollect d a b y, false, decide (form = 1 ∨ form = 2), z),
      (.ddcollReset d a b y, false, decide (form = 1 ∨ form = 2), z), (.ddcollThreshold d a b y, false, decide (form = 1 ∨ form = 2), z),
      (.ddord d a b y, true, true, z), (.ddswap d a b y, false, false, z), (.ddexp d a b y, true, false, z), (.ddimp d a b y, true, false, z),
      (.ddstat d a b y, false, false, z)],
    (f.2.1 = true → z.toNat % 8 ≠ 0 → Raises s f.1 0x03 z)
      ∧ ((f.2.1 = true → z.toNat % 8 = 0) → f.2.2.1 = true → s.cur.sup = false → Raises s f.1 0x06 0)
      ∧ ((f.2.1 = true → z.toNat % 8 = 0) → (f.2.2.1 = true → s.cur.sup = true) → SyncReady s 0x20 y →
          isTaken s f.1 0x20 y .engine (s.keeps f.1 d x f.2.2.2 0))

/-- R307–R309: DSETUP and DWMARK. -/
def datumWordsTaken : Prop := ∀ (s : State) (d a b : SReg), s.Issues →
  let p := (s.reg a).toNat
  (∀ i ∈ [Instr.dsetupNew d a b, .dsetupAdd d a b],
      (p % 8 ≠ 0 → Raises s i 0x03 (s.reg a))
        ∧ (p % 8 = 0 → 0x8000 < p + 16 → Raises s i 0x04 (s.reg a))
        ∧ (p % 8 = 0 → p + 16 ≤ 0x8000 → s.cur.sup = false → Raises s i 0x06 0)
        ∧ (p % 8 = 0 → p + 16 ≤ 0x8000 → s.cur.sup = true →
            Gives i s fun t => TakenAs s t .engine (s.keeps i d (s.reg a) (s.reg b) (Memory.readN s.here.dstore.bytes p 16))))
    ∧ (∀ i ∈ [Instr.dwmarkPost d a b, .dwmarkRelease d a b], s.cur.sup = true →
        Gives i s fun t => TakenAs s t .engine (s.keeps i d (s.reg a) (s.reg b) 0))

/-- R387–R390: QTAIL, SPAWNAT and CANCEL. -/
def remoteWordsTaken : Prop := ∀ (s : State) (d a b : SReg), s.Issues →
  let x := (s.reg a).toNat
  let p := (s.reg b).toNat
  let r := Memory.readN s.here.dstore.bytes p 64
  let far := x / 256 % 2 = 1
  let form := x / 2 ^ 32 % 4
  (far → 191 < x % 256 → Writes s (.qtail d a b) d 3)
    ∧ (far → x % 256 ≤ 191 → x % 256 ≠ Config.thisModule → 36 ≤ s.planesDown.length → Raises s (.qtail d a b) 0x1D (word (x % 2 ^ 16)))
    ∧ (¬ far ∨ (x % 256 ≤ 191 ∧ (x % 256 = Config.thisModule ∨ s.planesDown.length < 36)) →
        Gives (.qtail d a b) s fun t => ∃ u, Calm s u ∧ TakenAs u t .engine (s.keeps (.qtail d a b) d (s.reg a) (s.reg b) 0)
          ∧ ∀ e ∈ t.inflight, e.agent ≠ s.curAgent)
    ∧ (p % 8 ≠ 0 → Raises s (.spawnat d a b) 0x03 (s.reg b))
    ∧ (p % 8 = 0 → 0x8000 < p + 64 → Raises s (.spawnat d a b) 0x04 (s.reg b))
    ∧ (∀ o u, p % 8 = 0 → p + 64 ≤ 0x8000 → s.spawnOwner s.curDie s.cur.ctx.toNat s.cur.sup x = (.ok o, u) →
        let misaligned := r / 2 ^ 48 % 256 = 1 ∧ x % 8 ≠ 0
        let bad := 2 ≤ r / 2 ^ 48 % 256 ∨ r / 2 ^ 32 % 4 ≠ 0 ∨ 0x8000 ≤ r / 2 ^ 32 % 2 ^ 16 ∨ (r / 2 ^ 48 % 256 = 1 ∧ 8 ≤ r / 2 ^ 56 % 256)
        (misaligned → Gives (.spawnat d a b) s fun t => Raised u t 0x03 (s.reg a))
          ∧ (¬ misaligned → bad → Gives (.spawnat d a b) s fun t => Wrote u t d (word (2 ^ 64 - 2)) 1)
          ∧ (¬ misaligned → ¬ bad → Gives (.spawnat d a b) s fun t => TakenAs u t .engine (s.keeps (.spawnat d a b) d (s.reg a) (s.reg b) r)))
    ∧ (∀ i ∈ [Instr.cancelJob d a, .cancelLaunch d a, .cancelClear d a],
        (form = 3 → Writes s i d (word (2 ^ 64 - 2)))
          ∧ (form = 1 → s.cur.sup = false → Raises s i 0x06 0)
          ∧ (form ≠ 3 → (form = 1 → s.cur.sup = true) → Gives i s fun t => TakenAs s t .engine (s.keeps i d (s.reg a) 0 0)))

/-- R320: TVSET and TVCLR. -/
def traverseWords : Prop := ∀ (s : State) (d a b : SReg) (y : Sync), s.Issues → SyncReady s 0x1E y →
  let p := (s.reg a).toNat
  let n := (s.reg b).toNat % 16
  let w := Memory.readN s.here.dstore.bytes p 32
  let bad := 2 ≤ w / 2 ^ 62 % 4 ∨ w / 2 ^ 59 % 8 = 7 ∨ w / 2 ^ 56 % 4 ≠ 0
  let tv (u : State) (j : Nat) : BitVec 256 := SMap.getD u.curCtx.tv j 0
  (p % 8 ≠ 0 → Raises s (.tvset d a b y) 0x03 (s.reg a))
    ∧ (p % 8 = 0 → 0x8000 < p + 32 → Raises s (.tvset d a b y) 0x04 (s.reg a))
    ∧ (p % 8 = 0 → p + 32 ≤ 0x8000 → bad → Gives (.tvset d a b y) s fun t => SyncRetired s t 0x1E y d 1 ∧ ∀ j, tv t j = tv s j)
    ∧ (p % 8 = 0 → p + 32 ≤ 0x8000 → ¬ bad → Gives (.tvset d a b y) s fun t => SyncRetired s t 0x1E y d 0
        ∧ ∀ j, tv t j = if j = n then BitVec.ofNat 256 w ||| BitVec.ofNat 256 (2 ^ 58) else tv s j)
    ∧ (Gives (.tvclr a y) s fun t => SyncRetired s t 0x1E y 0 0
        ∧ ∀ j < 16, tv t j = if (s.reg a).getLsbD j then tv s j &&& ~~~(BitVec.ofNat 256 (2 ^ 58)) else tv s j)

/-- R321, R323: SBIND, SBAR, SCAN and SWAIT. -/
def streamWords : Prop := ∀ (s : State) (d a b : SReg) (y : Sync), s.Issues → SyncReady s 0x1E y →
  let x := s.curCtx
  let v := (s.reg b).toNat
  let w := SMap.getD x.tv ((s.reg a).toNat % 16) 0
  let bad := tvV w = false ∨ 2 ^ 32 ≤ tvBytes w ∨ v / 2 ^ 14 % 4 ≠ 0
    ∨ ((s.ectx (64 * s.focus.tile + v % 64) s.cur.ctx.toNat).entry (v / 2 ^ 9 % 32)).g = false
  let free (n : Nat) := n < 16 ∧ SMap.get? x.streams n = none ∧ ∀ m < n, SMap.get? x.streams m ≠ none
  let n := (s.reg a).toNat % 16
  let all := (s.reg a).toNat / 16 % 2 = 1
  let words (l : List (Nat × Stream)) := lowestFlagged (l.map (·.2.st))
  ((∀ m < 16, SMap.get? x.streams m ≠ none) → Gives (.sbind d a b y) s fun t => SyncRetired s t 0x1E y d (word (2 ^ 64 - 1)))
    ∧ (∀ m, free m → bad → Gives (.sbind d a b y) s fun t => SyncRetired s t 0x1E y d (word (2 ^ 64 - 2)))
    ∧ (∀ m, free m → ¬ bad → Gives (.sbind d a b y) s fun t => SameBytes s t ∧ ∃ u, Calm s u ∧ Wrote u t d (word m) 1
        ∧ ∃ z, SMap.get? t.curCtx.streams m = some z ∧ z.elem = v % 64 ∧ z.out = decide (v / 64 % 2 = 1) ∧ z.col.toNat = v / 2 ^ 9 % 32
          ∧ (z.out = true → z.port = v / 2 ^ 7 % 4) ∧ z.itr0.toNat = v / 2 ^ 16 % 4096 ∧ z.trav = w ∧ z.phase = x.phase ∧ z.count = 0 ∧ z.st = {})
    ∧ (Gives (.sbar y) s fun t => SyncRetired s t 0x1E y 0 0 ∧ t.curCtx.phase = x.phase + 1 ∧ t.curCtx.streams = x.streams)
    ∧ (Gives (.scan a y) s fun t => SyncRetired s t 0x1E y 0 0
        ∧ ∀ m, SMap.get? t.curCtx.streams m = (SMap.get? x.streams m).map fun z =>
            if m = n ∧ z.st.fin = false then { z with st := { z.st with canc := true } } else z)
    ∧ (¬ all → SMap.get? x.streams n = none → Gives (.swait d a y) s fun t => SyncRetired s t 0x1E y d 0)
    ∧ (∀ z, ¬ all → SMap.get? x.streams n = some z → z.st.fin = true →
        Gives (.swait d a y) s fun t => SyncRetired s t 0x1E y d z.st.word ∧ SMap.get? t.curCtx.streams n = none)
    ∧ (all → (∀ z ∈ x.streams, z.2.st.fin = true) → Gives (.swait d a y) s fun t => SyncRetired s t 0x1E y d (words x.streams) ∧ t.curCtx.streams = [])
    ∧ ((¬ all ∧ ∃ z, SMap.get? x.streams n = some z ∧ z.st.fin = false) ∨ (all ∧ ∃ z ∈ x.streams, z.2.st.fin = false) →
        isTaken s (.swait d a y) 0x1E y .ticket (s.keeps (.swait d a y) d (s.reg a) 0 0))

/-- R325, R327: the copy words. -/
def copyWords : Prop := ∀ (s : State) (d a b : SReg) (y : Sync), s.Issues → SyncReady s 0x1F y →
  let x := s.curCtx
  let tv (j : Nat) : BitVec 256 := SMap.getD x.tv j 0
  let src := tv ((s.reg a).toNat % 16)
  let dst := tv ((s.reg a).toNat / 16 % 16)
  let free (n : Nat) := n < 64 ∧ SMap.get? x.copies n = none ∧ ∀ m < n, SMap.get? x.copies m ≠ none
  let n := (s.reg a).toNat % 64
  let all := (s.reg a).toNat / 64 % 2 = 1
  (∀ f ∈ [(Instr.cpy d a y, 0, 0), (.cpyv d a b y, 1, (s.reg b).toNat % 256), (.cpyf d a y, 2, 0)],
      ((∀ m < 64, SMap.get? x.copies m ≠ none) → Gives f.1 s fun t => SyncRetired s t 0x1F y d (word (2 ^ 64 - 1)))
        ∧ (∀ m e, free m → State.copyRefused f.2.1 src dst = some e → Gives f.1 s fun t => SyncRetired s t 0x1F y d (word e))
        ∧ (∀ m, free m → State.copyRefused f.2.1 src dst = none → Gives f.1 s fun t => SameBytes s t ∧ ∃ u, Calm s u ∧ Wrote u t d (word m) 1
            ∧ ∃ z, SMap.get? t.curCtx.copies m = some z ∧ z.form = f.2.1 ∧ z.src = src ∧ z.dst = dst ∧ z.ver = f.2.2 ∧ z.sup = s.cur.sup ∧ z.st = {}))
    ∧ (SMap.get? x.copies n = none → Gives (.cpyst d a b y) s fun t => SyncRetired s t 0x1F y d 0)
    ∧ (∀ z, SMap.get? x.copies n = some z → Gives (.cpyst d a b y) s fun t => SyncRetired s t 0x1F y d z.st.word
        ∧ SMap.get? t.curCtx.copies n = if z.st.fin = true ∧ (s.reg b).getLsbD 0 = true then none else some z)
    ∧ (¬ all → SMap.get? x.copies n = none → Gives (.cpysync d a y) s fun t => SyncRetired s t 0x1F y d 0)
    ∧ (∀ z, ¬ all → SMap.get? x.copies n = some z → z.st.fin = true →
        Gives (.cpysync d a y) s fun t => SyncRetired s t 0x1F y d z.st.word ∧ SMap.get? t.curCtx.copies n = none)
    ∧ (all → (∀ z ∈ x.copies, z.2.st.fin = true) →
        Gives (.cpysync d a y) s fun t => SyncRetired s t 0x1F y d (lowestFlagged (x.copies.map (·.2.st))) ∧ t.curCtx.copies = [])
    ∧ ((¬ all ∧ ∃ z, SMap.get? x.copies n = some z ∧ z.st.fin = false) ∨ (all ∧ ∃ z ∈ x.copies, z.2.st.fin = false) →
        isTaken s (.cpysync d a y) 0x1F y .ticket (s.keeps (.cpysync d a y) d (s.reg a) 0 0))

/-- R310, R333, R334, R391, R394: each of these words completes: with its sync conditions met it retires, with its result in d. EGPOST asks for an
image in the data store whose stamp is new and for room in its session, EGSTAT for a record where it waits for one, COLL for a record that keeps
its limits and a free ticket, DSTAT for an item of no cell. -/
def wordsComplete : Prop := ∀ (s : State) (d a b : SReg) (y : Sync), s.Issues →
  let p := (s.reg a).toNat
  let image := Memory.readN s.here.dstore.bytes p 64
  let sess := image / 2 ^ 64 % 2 ^ 20
  let n := (s.reg a).toNat % 2 ^ 20
  let done (t : State) : Prop := t.cur.pc = s.cur.pc + 4 ∧ t.cur.state = .run ∧ ∀ r, r ≠ d → t.reg r = s.reg r
  (SyncReady s 0x21 y →
    (p % 8 = 0 → p + 64 ≤ 0x8000 → SMap.getD s.posted sess 0 ≤ image % 2 ^ 64 → (s.egress.filter fun r => r.sess = sess ∧ r.hold = .held).length < 64 →
        (s.egress.filter fun r => r.sess % 4 = sess % 4).length < 8192 →
        ∃ t, exec (.egpost d a y) s = .next t ∧ done t ∧ t.reg d = 0 ∧ t.egress.length = s.egress.length + 1)
      ∧ (∃ t v, exec (.egrel d a b y) s = .next t ∧ SyncRetired s t 0x21 y d v)
      ∧ (∃ t v, exec (.egrej d a b y) s = .next t ∧ SyncRetired s t 0x21 y d v ∧ (v = 0 ∨ v = 1 ∨ v = 2))
      ∧ (((s.reg b).getLsbD 4 = true → ∃ r ∈ s.egress, r.sess = n ∧ r.hold = .held) →
          ∃ t v, exec (.egstat d a b y) s = .next t ∧ SyncRetired s t 0x21 y d v))
    ∧ (SyncReady s 0x23 y →
      (p % 8 = 0 → p + 64 ≤ 0x8000 → collOk image = true → (∃ m < 16, SMap.get? s.curCtx.colls m = none) →
          ∃ t m, exec (.coll d a y) s = .next t ∧ done t ∧ m < 16 ∧ t.reg d = if d = 0 then 0 else word m)
        ∧ (∃ t v, exec (.colst d a b y) s = .next t ∧ SyncRetired s t 0x23 y d v)
        ∧ (∃ t, exec (.colab d a b y) s = .next t ∧ done t ∧ (t.reg d = 0 ∨ t.reg d = 1)))
    ∧ ((s.reg b).toNat % 16 < 4 ∨ 8 < (s.reg b).toNat % 16 → ∃ t v, exec (.dstat d a b) s = .next t ∧ Wrote s t d v 240)

/-- R331–R334: the egress words. -/
def egressWords : Prop := ∀ (s : State) (d a b : SReg) (y : Sync), s.Issues → SyncReady s 0x21 y →
  let p := (s.reg a).toNat
  let image := Memory.readN s.here.dstore.bytes p 64
  let stamp := image % 2 ^ 64
  let sess := image / 2 ^ 64 % 2 ^ 20
  let late := stamp < SMap.getD s.posted sess 0
  let room := (s.egress.filter fun r => r.sess = sess ∧ r.hold = .held).length < 64 ∧ (s.egress.filter fun r => r.sess % 4 = sess % 4).length < 8192
  let n := (s.reg a).toNat % 2 ^ 20
  let open' := s.egress.filter fun r => r.sess = n ∧ r.hold = .held
  (p % 8 ≠ 0 → Raises s (.egpost d a y) 0x03 (s.reg a))
    ∧ (p % 8 = 0 → 0x8000 < p + 64 → Raises s (.egpost d a y) 0x04 (s.reg a))
    ∧ (p % 8 = 0 → p + 64 ≤ 0x8000 → late → Raises s (.egpost d a y) 0x19 (word stamp))
    ∧ (p % 8 = 0 → p + 64 ≤ 0x8000 → ¬ late → ¬ room →
        isTaken s (.egpost d a y) 0x21 y .ticket (s.keeps (.egpost d a y) d (s.reg a) 0 image))
    ∧ (p % 8 = 0 → p + 64 ≤ 0x8000 → ¬ late → room → Gives (.egpost d a y) s fun t =>
        t.egress = s.egress ++ [{ sess := sess, stamp := stamp, payload := BitVec.ofNat 384 (image / 2 ^ 128), hold := .held }]
          ∧ SMap.getD t.posted sess 0 = stamp + 1 ∧ t.reg d = 0 ∧ (∀ r, r ≠ d → t.reg r = s.reg r) ∧ t.cur.pc = s.cur.pc + 4 ∧ t.cur.state = .run)
    ∧ (let hit (r : EgRecord) := r.sess = n ∧ r.hold = .held ∧ r.stamp ≤ (s.reg b).toNat
       Gives (.egrel d a b y) s fun t => SyncRetired s t 0x21 y d (word (s.egress.filter fun r => hit r).length)
        ∧ t.egress = s.egress.map fun r => if hit r then { r with hold := .released } else r)
    ∧ (let hit (r : EgRecord) := r.sess = n ∧ r.stamp = (s.reg b).toNat
       ((∀ r ∈ s.egress, ¬ hit r) → Gives (.egrej d a b y) s fun t => SyncRetired s t 0x21 y d 0 ∧ t.egress = s.egress)
        ∧ (∀ r, s.egress.find? (fun r => hit r) = some r → r.hold = .released →
            Gives (.egrej d a b y) s fun t => SyncRetired s t 0x21 y d 2 ∧ t.egress = s.egress)
        ∧ (∀ r, s.egress.find? (fun r => hit r) = some r → r.hold ≠ .released →
            Gives (.egrej d a b y) s fun t => SyncRetired s t 0x21 y d 1
              ∧ t.egress = s.egress.map fun r => if hit r then { r with hold := .rejected } else r))
    ∧ ((s.reg b).getLsbD 4 = true → open' = [] → isTaken s (.egstat d a b y) 0x21 y .ticket (s.keeps (.egstat d a b y) d (s.reg a) (s.reg b) 0))
    ∧ (((s.reg b).getLsbD 4 = true → open' ≠ []) → ∀ f ∈ [(0, word open'.length),
        (1, match open' with | r :: _ => word r.stamp | [] => word (2 ^ 64 - 1)),
        (3, word (8192 - (s.egress.filter fun r => r.sess % 4 = n % 4).length))],
        (s.reg b).toNat % 16 = f.1 → Gives (.egstat d a b y) s fun t => SyncRetired s t 0x21 y d f.2 ∧ t.egress = s.egress)

/-- R391, R394: the collective words. -/
def collectiveWords : Prop := ∀ (s : State) (d a b : SReg) (y : Sync), s.Issues → SyncReady s 0x23 y →
  let p := (s.reg a).toNat
  let r := Memory.readN s.here.dstore.bytes p 64
  let x := s.curCtx
  let free (n : Nat) := n < 16 ∧ SMap.get? x.colls n = none ∧ ∀ m < n, SMap.get? x.colls m ≠ none
  let n := (s.reg a).toNat % 16
  (p % 8 ≠ 0 → Raises s (.coll d a y) 0x03 (s.reg a))
    ∧ (p % 8 = 0 → 0x8000 < p + 64 → Raises s (.coll d a y) 0x04 (s.reg a))
    ∧ (p % 8 = 0 → p + 64 ≤ 0x8000 → collOk r = false → Gives (.coll d a y) s fun t => SyncRetired s t 0x23 y d (word (2 ^ 64 - 2)))
    ∧ (p % 8 = 0 → p + 64 ≤ 0x8000 → collOk r = true → (∀ m < 16, SMap.get? x.colls m ≠ none) →
        Gives (.coll d a y) s fun t => SyncRetired s t 0x23 y d (word (2 ^ 64 - 1)))
    ∧ (∀ m, p % 8 = 0 → p + 64 ≤ 0x8000 → collOk r = true → free m → Gives (.coll d a y) s fun t =>
        t.reg d = (if d = 0 then 0 else word m) ∧ (∀ q, q ≠ d → t.reg q = s.reg q) ∧ t.cur.pc = s.cur.pc + 4 ∧ t.cur.state = .run
          ∧ ∃ z, SMap.get? t.curCtx.colls m = some z)
    ∧ (SMap.get? x.colls n = none → Gives (.colst d a b y) s fun t => SyncRetired s t 0x23 y d 0)
    ∧ (∀ z, SMap.get? x.colls n = some z → Gives (.colst d a b y) s fun t => SyncRetired s t 0x23 y d z.st.collWord
        ∧ SMap.get? t.curCtx.colls n = if z.st.fin = true ∧ (s.reg b).getLsbD 0 = true then none else some z)
    ∧ (let mine := (s.ranksOf ((s.reg a).toNat % 2 ^ 32) ((s.reg b).toNat % 2 ^ 32)).filter fun q => tileDie q.1 = s.curDie ∧ q.2.1 = s.cur.ctx.toNat
       (mine = [] → Gives (.colab d a b y) s fun t => t.reg d = (if d = 0 then 0 else 1) ∧ t.cur.pc = s.cur.pc + 4 ∧ SameBytes s t)
        ∧ (∀ q r, mine = q :: r → Gives (.colab d a b y) s fun t => t.reg d = 0 ∧ t.cur.pc = s.cur.pc + 4 ∧ t.cur.state = .run
          ∧ (q.2.2.2.st.fin = true → SameBytes s t)))

/-- R310: DSTAT. -/
def datumStatus : Prop := ∀ (s : State) (d a b : SReg), s.Issues →
  let i := (s.reg b).toNat % 16
  let dom := SMap.get? s.domains ((s.reg a).toNat % 64)
  let p := (s.reg b).toNat / 256 % 256
  let retires (v : Word) := Gives (.dstat d a b) s fun t => Wrote s t d v 240
  (i = 0 → retires (match dom with
      | none => 0
      | some D => word (1 + 2 * bit D.wv + 256 * D.p + 2 ^ 16 * ((List.range D.p).filter fun p => SMap.getD D.f p 0 = 2 ^ 64 - 1).length)))
    ∧ (i = 1 → retires (match dom with | none => 0 | some D => if D.wv then word D.wm else 0))
    ∧ (i = 2 → retires (match dom with | none => 0 | some D => if p < D.p then word (SMap.getD D.f p 0) else 0))
    ∧ (8 < i → retires 0)
    ∧ (∀ line k u u', 4 ≤ i → i ≤ 8 → s.cellPlace s.curDie s.cur.ctx.toNat (s.reg a).toNat false s.cur.sup = (.ok line, u) →
        u.activate line = (.cell k, u') → u'.absent = none → Gives (.dstat d a b) s fun t => Wrote u' t d (word (u'.cellItem k i (p % 16))) 240)

end Sys2Proof.Claims

/-- OPLD, SWLD, SHPLACE, SHFREE, CTXPRI, EDGEDEPTH and CFGLOAD. OPLD and SWLD raise 0x03, 0x04 and 0x06 in that order, load their records in
ascending order up to the first that R50 refuses, which raises 0x1E with its value, and write d with their number; SHPLACE, SHFREE, CTXPRI,
EDGEDEPTH and CFGLOAD complete with the results and effects of their rules, or are held until they can. (R50, R108, R179, R180, R181, R182, R183,
R184) -/
def Obligations.FabricWords : Prop :=
  Sys2Proof.Claims.slotLoads ∧ Sys2Proof.Claims.switchLoads ∧ Sys2Proof.Claims.sheets ∧ Sys2Proof.Claims.edgeDepths ∧ Sys2Proof.Claims.imageLoads

/-- The sync conditions of the engine words. A word of majors 0x1E to 0x23 that would POP with no token to take, or PUSH with 63 tokens unread,
does not issue: its task waits with pc on the word, an exemption from a breakpoint stays, and nothing else changes. (R37) -/
def Obligations.SyncConditions : Prop :=
  Sys2Proof.Claims.syncConditions

/-- Words that a controller or an engine takes. The words of majors 0x20, 0x22, 0x24 and 0x25 raise the causes of their rules on misaligned,
out-of-range or user-state operands; else their task waits in the hands of the engine, which keeps the word with the operands, the record and the
sync pair that it had, and no register, guard or byte changes. (R266, R268, R307, R308, R346, R387, R388, R390) -/
def Obligations.EngineWordsTaken : Prop :=
  Sys2Proof.Claims.foldWordsTaken ∧ Sys2Proof.Claims.diagramWordsTaken ∧ Sys2Proof.Claims.datumWordsTaken ∧ Sys2Proof.Claims.remoteWordsTaken

/-- TVSET, TVCLR, SBIND, SBAR, SCAN, SWAIT, CPY, CPYV, CPYF, CPYST and CPYSYNC. Each word whose sync condition holds completes with the status of
its rule: a traversal register written or cleared, the lowest free stream or ticket taken, a phase closed, a cancellation marked, a status read,
and a SWAIT or CPYSYNC of unfinished work waits. (R320, R321, R323, R325, R327) -/
def Obligations.StreamAndCopyWords : Prop :=
  Sys2Proof.Claims.traverseWords ∧ Sys2Proof.Claims.streamWords ∧ Sys2Proof.Claims.copyWords

/-- EGPOST, EGREL, EGREJ, EGSTAT, COLL, COLST, COLAB and DSTAT. Each of the eight words completes when its sync conditions and the conditions on
its operands are met: exec answers a next state in which the word has retired with its result in d. EGPOST refuses a late stamp with 0x19, enters
a record that has room, or waits; EGREL and EGREJ mark the records they name and answer their numbers; EGSTAT, COLST and DSTAT read their items;
COLL takes the lowest free ticket; COLAB aborts the collectives it may name. (R310, R331, R332, R333, R334, R391, R392, R394) -/
def Obligations.EgressAndCollectiveWords : Prop :=
  Sys2Proof.Claims.wordsComplete ∧ Sys2Proof.Claims.egressWords ∧ Sys2Proof.Claims.collectiveWords ∧ Sys2Proof.Claims.datumStatus

/-! # Operation words -/

namespace Sys2Proof.Claims

/-- R105, R111, R118, R151: what consuming the operands of a firing changes. -/
def consumption : Prop := ∀ (s u : State) (w : OpWord) (op : Nat) (F : Firing), s.Fires w op F u →
  let x := s.ectx F.g F.c
  let y := u.ectx F.g F.c
  F.g = s.focus.gid ∧ F.c = s.focus.ctx ∧ F.n = s.focus.slot ∧ F.w = w
    ∧ (∀ p ∈ F.picks, ∃ r ∈ wordRoles w op F.n, p ∈ x.avail F.n r)
    ∧ y.operands = x.operands.filter (fun o => F.picks.all fun p => match p with | .held q => o.seq != q.seq | .latch _ _ => true)
    ∧ (∀ i l, SMap.get? x.latches i = some l → (∀ p ∈ F.picks, ∀ j m, p = .latch j m → j ≠ i) → SMap.get? y.latches i = some l)
    ∧ y.slots = x.slots ∧ y.legend = x.legend ∧ y.headers = x.headers ∧ y.consts = x.consts ∧ y.groups = x.groups ∧ y.pastBkpt = none
    ∧ u.tiles = s.tiles ∧ u.nodes = s.nodes ∧ ((∀ g, (s.elem g).owner = []) → u.elems = s.elems) ∧ (∀ b ∈ s.insts, b ∈ u.insts)
    ∧ (F.records = [] → s.blockEntered F.g F.c F.n = none → ∃ xs, u = { s with ectxs := xs })

/-- R50, R113, R170: a firing that a breakpoint or a failed ring page stops records its fault and consumes nothing. -/
def firingStops : Prop := ∀ (s : State) (i : Instr) (w : OpWord) (op : Nat) (F : Firing),
  (i, op) ∈ [(Instr.elemAdd w, 0), (.fadd w, 16), (.cvt w, 32), (.steer w, 42), (.sink w, 101), (.nld w, 79), (.rsum w, 65), (.mxctl w, 95)] →
  (∃ k l, s.candidates s.focus.gid s.focus.ctx s.focus.slot w op = (k, F) :: l) → s.absent = none →
  let brk := ((s.ectx F.g F.c).slot F.n).bkpt = true ∧ (s.ectx F.g F.c).pastBkpt ≠ some F.n
  (brk → Gives i s fun z => z = s.elemFault F.g F.c F.n 0x09 0 none true)
    ∧ (∀ va r, ¬ brk → s.ringTest F = (some va, r) → r.absent = none → Gives i s fun z => z = r.elemFault F.g F.c F.n 0x11 (word va) none false)

/-- R156, R171: operations on integers. Lane `j` of the result is the low bits, as many as the result format has, of a number that the lanes
`a`, `b`, `c` of the operands give. -/
def integerOps : Prop := ∀ (s u : State) (w : OpWord) (F : Firing), F.Plain →
  let x := u.ectx F.g F.c
  let fr := x.outFmt F.w.col
  let n := fmtBits fr
  let na := fmtBits (F.la x).fmt
  let a (j : Nat) : Int := (F.la x).int j
  let b (j : Nat) : Int := (F.lb x).int j
  let c (j : Nat) : Int := F.lc.int j
  let p (j : Nat) : Nat := (F.la x).at j
  let up (v : Int) : Nat := (v % 2 ^ n).toNat
  let k := (x.const (F.n % 4)).toNat
  let lo := k % 64
  let len := if k / 256 % 64 = 0 then 64 else k / 256 % 64
  let top : Int := if fmtSigned fr then 2 ^ (n - 1) - 1 else 2 ^ n - 1
  let low : Int := if fmtSigned fr then -2 ^ (n - 1) else 0
  let sat (v : Int) : Int := Max.max low (Min.min top v)
  let table (e : Nat) : Nat := (x.const (e / 4)).toNat / 2 ^ (16 * (e % 4)) % 2 ^ 16
  ∀ e ∈ [(Instr.elemAdd w, 0, fun j => a j + b j), (.elemSub w, 1, fun j => a j - b j), (.elemMul w, 2, fun j => a j * b j),
      (.mac w, 3, fun j => a j * b j + c j), (.elemMin w, 4, fun j => Min.min (a j) (b j)), (.elemMax w, 5, fun j => Max.max (a j) (b j)),
      (.abs w, 6, fun j => ((a j).natAbs : Int)), (.neg w, 7, fun j => - a j),
      (.elemAnd w, 8, fun j => ((up (a j) &&& up (b j) : Nat) : Int)), (.elemOr w, 9, fun j => ((up (a j) ||| up (b j) : Nat) : Int)),
      (.elemXor w, 10, fun j => ((up (a j) ^^^ up (b j) : Nat) : Int)), (.not w, 11, fun j => 2 ^ n - 1 - (up (a j) : Int)),
      (.elemShl w, 12, fun j => a j * 2 ^ (b j % n).toNat), (.elemShr w, 13, fun j => (up (a j) : Int) / 2 ^ (b j % n).toNat),
      (.elemSha w, 14, fun j => (BitVec.ofInt n (a j)).toInt / 2 ^ (b j % n).toNat),
      (.clamp w, 15, fun j => if fmtSigned fr then
          (let m : Int := Min.min ((b j).natAbs : Int) (2 ^ (n - 1) - 1); Min.min (Max.max (a j) (-m)) m) else Min.min (a j) (b j).natAbs),
      (.adds w, 105, fun j => sat (a j + b j)), (.subs w, 106, fun j => sat (a j - b j)), (.muls w, 107, fun j => sat (a j * b j)),
      (.elemPopc w, 108, fun j => (((List.range na).countP fun i => (p j).testBit i : Nat) : Int)),
      (.elemClz w, 109, fun j => (((List.range na).takeWhile fun i => !(p j).testBit (na - 1 - i)).length : Int)),
      (.lut w, 116, fun j => (table (a j % 16).toNat : Int)), (.bits w, 117, fun j => a j / 2 ^ lo % 2 ^ len),
      (.biti w, 118, fun j => insertField lo len (a j) (b j))],
    s.Fires w e.2.1 F u → FiresTo e.1 s u F F.w.dst (F.marked (F.integers x e.2.2))

/-- R103, R153(4): reading the lanes of an integer result. -/
def integerLanes : Prop := ∀ (F : Firing) (x : ElemCtx) (f : Nat → Int),
  let n := fmtBits (x.outFmt F.w.col)
  (F.integers x f).tag = F.tag
    ∧ ∀ j < x.width F.w.col.toNat, ((F.integers x f).lane n j : Int) = f j % 2 ^ n

/-- Every destination of a firing can take a token of any number of beats, R106: the latch of its slot is empty, or no edge of its element holds
a beat and none of its ports carries a token. -/
def Free (u : State) (F : Firing) : Prop :=
  (F.w.dst = 0 → SMap.get? (u.ectx F.g F.c).latches (F.n % 4) = none)
    ∧ (F.w.dst ≠ 0 → (u.elem F.g).busy = [] ∧ ∀ k ∈ (u.elem F.g).edges, k.2.beats = [])

/-- R105, R106: each operation on numbers, conversion and comparison completes: with plain operands and free destinations it emits a token under
the tag of its operands. -/
def floatsComplete : Prop := ∀ (s u : State) (w : OpWord) (F : Firing), F.Plain → Free u F →
    ∀ e ∈ [(Instr.fadd w, 16), (.fsub w, 17), (.fmul w, 18), (.fma w, 19), (.fmin w, 20), (.fmax w, 21), (.fabs w, 22), (.fneg w, 23),
        (.fdiv w, 24), (.fsqrt w, 25), (.frcp w, 26), (.frsq w, 27), (.fexp w, 28), (.flog w, 29), (.ftanh w, 30), (.fsig w, 31), (.frnd w, 110),
        (.fcls w, 111), (.fcps w, 112), (.cvt w, 32), (.cvtr w, 33), (.pack w, 34), (.unpack w, 35), (.scale w, 36), (.qnt w, 37),
        (.cmpeq w, 38), (.cmpne w, 39), (.cmplt w, 40), (.cmple w, 41)],
      s.Fires w e.2 F u → ∃ z tok, exec e.1 s = .next z ∧ Emits u z F F.w.dst tok
        ∧ tok.tag.col = F.tag.col ∧ tok.tag.itr = F.tag.itr ∧ tok.tag.frm = F.tag.frm ∧ tok.tag.thr = F.tag.thr

/-- R140, R157, R171: operations on numbers of any format: one rounding of the exact value, in the mode of the suffix. -/
def floatOps : Prop := ∀ (s u : State) (w : OpWord) (F : Firing), F.Plain →
  let x := u.ectx F.g F.c
  let fr := x.outFmt F.w.col
  let mode := match F.w.sub.toNat with | 1 => Rnd.rz | 2 => .rup | 3 => .rdn | _ => .rne
  let a (j : Nat) : Val := (F.la x).val j
  let b (j : Nat) : Val := (F.lb x).val j
  let c (j : Nat) : Val := F.lc.val j
  let rounded (f : Nat → Val) : Token := F.each x fun j => encodeVal fr mode (f j)
  let function (n : Nat) : Token := F.each x fun j => boundedFn n fr (F.la x).fmt ((F.la x).at j)
  ∀ e ∈ [(Instr.fadd w, 16, rounded fun j => Val.add (a j) (b j)), (.fsub w, 17, rounded fun j => Val.add (a j) (b j).neg),
      (.fmul w, 18, rounded fun j => Val.mul (a j) (b j)), (.fma w, 19, rounded fun j => Val.add (Val.mul (a j) (b j)) (c j)),
      (.fmin w, 20, rounded fun j => minVal (a j) (b j)), (.fmax w, 21, rounded fun j => maxVal (a j) (b j)),
      (.fabs w, 22, rounded fun j => (a j).abs), (.fneg w, 23, rounded fun j => (a j).neg),
      (.fdiv w, 24, rounded fun j => Val.div (a j) (b j)), (.fsqrt w, 25, rounded fun j => (a j).sqrt),
      (.frcp w, 26, function 0), (.frsq w, 27, function 1), (.fexp w, 28, function 2), (.flog w, 29, function 3), (.ftanh w, 30, function 4),
      (.fsig w, 31, function 5), (.frnd w, 110, rounded fun j => integral mode (a j)),
      (.fcls w, 111, F.each x fun j => encodeVal fr .rne (Val.ofInt (classOf (F.la x).fmt ((F.la x).at j)))),
      (.fcps w, 112, rounded fun j => copySign (a j) (b j))],
    s.Fires w e.2.1 F u → FiresTo e.1 s u F F.w.dst (F.marked e.2.2)

/-- R158, R159: conversions and comparisons. -/
def conversions : Prop := ∀ (s u : State) (w : OpWord) (F : Firing), F.Plain →
  let x := u.ectx F.g F.c
  let a := F.la x
  let b := F.lb x
  let fr := x.outFmt F.w.col
  let n := x.width F.w.col.toNat
  let mode := match F.w.sub.toNat with | 1 => Rnd.rz | 2 => .rup | 3 => .rdn | _ => .rne
  let copy (mode : Rnd) (p : Option Nat) := convLane a.fmt fr mode p
  let scale := if F.w.sb = 15 then
      (match F.a with | some t => decodeScale (x.entry t.token.tag.col.toNat).sfmt.toNat t.scale.toNat | none => .nan) else b.val 0
  let code := (x.entry F.w.col.toNat).scl.toNat % 256
  let compare (f : Val → Val → Bool) : Token :=
    F.pack x { F.tag with prd := (List.range n).all fun j => f (a.val j) (b.val j) }
      ((List.range n).map fun j => encodeVal fr .rne (Val.ofInt (if f (a.val j) (b.val j) then 1 else 0)))
  ∀ e ∈ [(Instr.cvt w, 32, F.each x fun j => copy mode (a.conv j)),
      (.cvtr w, 33, F.each x fun j => encodeVal fr mode ((a.val j).scale2 (sextNat (wrapBits 16 (b.int j)) 16))),
      (.pack w, 34, F.each x fun j => if j < a.pats.length then copy .rne (a.own j) else convLane b.fmt fr .rne (b.own (j - a.pats.length))),
      (.unpack w, 35, F.each x fun j => copy .rne (a.own (F.b0 x + j))),
      (.scale w, 36, F.each x fun j => scaleLane fr .rne scale (a.val j)),
      (.qnt w, 37, F.each x fun j => if code = 255 then .error 5 else scaleLane fr mode (.fin false 1 (127 - (code : Int))) (a.val j)),
      (.cmpeq w, 38, compare Val.eq), (.cmpne w, 39, compare fun v z => !Val.eq v z), (.cmplt w, 40, compare Val.lt),
      (.cmple w, 41, compare fun v z => Val.lt v z || Val.eq v z)],
    s.Fires w e.2.1 F u → FiresTo e.1 s u F F.w.dst (F.marked e.2.2)

/-- R160, R170: operations that pass a token on, on plain operands. -/
def passingOps : Prop := ∀ (s u : State) (w : OpWord) (F : Firing),
  let x := u.ectx F.g F.c
  let same : Token := F.same x F.tag
  let prdB := match F.b with | some b => b.token.tag.prd | none => false
  (∀ a, F.a = some a → same = ⟨{ F.tag with prd := a.token.tag.prd }, a.token.beats⟩)
    ∧ (∀ b, F.b = some b → F.sameB x = ⟨{ F.tag with prd := b.token.tag.prd }, b.token.beats⟩)
    ∧ (F.Plain →
    (s.Fires w 42 F u → FiresTo (.steer w) s u F (if prdB then F.w.dst &&& 12 else F.w.dst &&& 3)
        (F.marked { same with tag := { same.tag with prd := prdB } }))
      ∧ ∀ e ∈ [(Instr.gate w, 45, same), (.selp w, 46, if F.prdA then same else F.sameB x), (.nop w, 98, same), (.const w, 99, F.lanesOfB x F.tag),
          (.pfetch w, 90, same)],
        s.Fires w e.2.1 F u → FiresTo e.1 s u F F.w.dst (F.marked e.2.2))
    ∧ (∀ a, F.a = some a → ∀ e ∈ [(Instr.merge w, 43, u), (.mergeo w, 44, u.modEctx F.g F.c fun y => { y with
          turnB := if y.turnB.contains F.n then NSet.erase y.turnB F.n else NSet.insert y.turnB F.n })],
        s.Fires w e.2.1 F u →
          let gated := F.erring = none ∧ F.anyNull = false
          (¬ gated ∨ verdict F.w.pm F.prdA = .compute →
              FiresTo e.1 s e.2.2 F F.w.dst ⟨{ a.token.tag with col := F.w.col, itr := F.tag.itr }, a.token.beats⟩)
            ∧ (gated → verdict F.w.pm F.prdA = .null → FiresTo e.1 s e.2.2 F F.w.dst (nullToken F.tag))
            ∧ (gated → verdict F.w.pm F.prdA = .nothing → FiresQuietly e.1 s u F))
    ∧ (s.Fires w 47 F u →
        (∀ t, F.erring = some t → FiresTo (.nullgen w) s u F F.w.dst (forwardError F.tag t))
          ∧ (F.erring = none → verdict F.w.pm F.prdA ≠ .nothing → FiresTo (.nullgen w) s u F F.w.dst (F.marked (nullToken F.tag)))
          ∧ (F.erring = none → verdict F.w.pm F.prdA = .nothing → FiresQuietly (.nullgen w) s u F))
    ∧ (s.Fires w 101 F u → FiresQuietly (.sink w) s u F)


/-- R105, R143, R155: errors, null tokens and predicates, for every operation that follows the case table. -/
def verdicts : Prop := ∀ (s u : State) (w : OpWord) (F : Firing),
  ∀ e ∈ [(Instr.elemAdd w, 0), (.elemSub w, 1), (.elemMul w, 2), (.mac w, 3), (.elemMin w, 4), (.elemMax w, 5), (.abs w, 6), (.neg w, 7),
      (.elemAnd w, 8), (.elemOr w, 9), (.elemXor w, 10), (.not w, 11), (.elemShl w, 12), (.elemShr w, 13), (.elemSha w, 14), (.clamp w, 15),
      (.fadd w, 16), (.fsub w, 17), (.fmul w, 18), (.fma w, 19), (.fmin w, 20), (.fmax w, 21), (.fabs w, 22), (.fneg w, 23), (.fdiv w, 24),
      (.fsqrt w, 25), (.frcp w, 26), (.frsq w, 27), (.fexp w, 28), (.flog w, 29), (.ftanh w, 30), (.fsig w, 31), (.cvt w, 32), (.cvtr w, 33),
      (.pack w, 34), (.unpack w, 35), (.scale w, 36), (.qnt w, 37), (.cmpeq w, 38), (.cmpne w, 39), (.cmplt w, 40), (.cmple w, 41),
      (.steer w, 42), (.gate w, 45), (.selp w, 46), (.taginc w, 48), (.tagset w, 49), (.tagget w, 50), (.tagclr w, 51), (.ctxalloc w, 53),
      (.colpack w, 54), (.colunpk w, 55), (.framealloc w, 56), (.framefree w, 57), (.spawn w, 58), (.stamp w, 59), (.loopb w, 60),
      (.loopt w, 62), (.loopi w, 64), (.shuf w, 73), (.bcast w, 74), (.rotl w, 75), (.lsel w, 76), (.scanadd w, 77), (.topk w, 78),
      (.pfetch w, 90), (.nop w, 98), (.const w, 99), (.adds w, 105), (.subs w, 106), (.muls w, 107), (.elemPopc w, 108), (.elemClz w, 109),
      (.frnd w, 110), (.fcls w, 111), (.fcps w, 112), (.avg w, 113), (.sad w, 114), (.hist w, 115), (.lut w, 116), (.bits w, 117),
      (.biti w, 118), (.idx w, 119)],
    s.Fires w e.2 F u →
      (∀ t, F.erring = some t → FiresTo e.1 s u F F.w.dst (forwardError F.tag t))
        ∧ (F.erring = none → F.anyNull = true → FiresTo e.1 s u F F.w.dst (nullToken F.tag))
        ∧ (F.erring = none → F.anyNull = false → verdict F.w.pm F.prdA = .nothing → FiresQuietly e.1 s u F)
        ∧ (F.erring = none → F.anyNull = false → verdict F.w.pm F.prdA = .null → FiresTo e.1 s u F F.w.dst (nullToken F.tag))

/-- R155, R170: COPYT, ERRCHK, TRAPE and BRK. -/
def checkingOps : Prop := ∀ (s u : State) (w : OpWord) (F : Firing),
  let x := u.ectx F.g F.c
  let tile := gidTile F.g
  let same : Token := F.same x F.tag
  -- the token that R105 makes of the operands where the operation itself makes `t`
  let made (t r : Token) : Prop := (∃ e, F.erring = some e ∧ r = forwardError F.tag e)
    ∨ (F.erring = none ∧ (F.anyNull = true ∨ verdict F.w.pm F.prdA = .null) ∧ r = nullToken F.tag) ∨ (F.Plain ∧ r = F.marked t)
  let wrong := ∃ a, F.a = some a ∧ a.token.tag.err = true
  (∀ r, made same r → s.Fires w 100 F u → u.upRoom tile r.tag = true →
      let v := u.sendUp tile r
      (v.tile tile).held = (u.tile tile).held ++ r.toBeats ∧ (∀ t, t ≠ tile → v.tile t = u.tile t)
        ∧ (F.w.dst ≠ 0 → FiresTo (.copyt w) s v F F.w.dst r) ∧ (F.w.dst = 0 → FiresQuietly (.copyt w) s v F))
    ∧ (F.erring = none → F.anyNull = false → verdict F.w.pm F.prdA = .nothing → s.Fires w 100 F u → FiresQuietly (.copyt w) s u F)
    ∧ (∀ a, F.a = some a → a.token.tag.err = true → s.Fires w 102 F u →
        let t := F.naturals x [a.token.orig, a.token.errLane]
        (verdict F.w.pm F.prdA = .compute → FiresTo (.errchk w) s u F F.w.dst (F.marked { t with tag := { t.tag with prd := !t.tag.err } }))
          ∧ (verdict F.w.pm F.prdA = .null → FiresTo (.errchk w) s u F F.w.dst (nullToken F.tag))
          ∧ (verdict F.w.pm F.prdA = .nothing → FiresQuietly (.errchk w) s u F))
    ∧ (∀ r, ¬ wrong → ¬ F.Plain → made same r → s.Fires w 102 F u → FiresTo (.errchk w) s u F F.w.dst r)
    ∧ (F.Plain → s.Fires w 102 F u → FiresTo (.errchk w) s u F F.w.dst (F.marked { same with tag := { same.tag with prd := false } }))
    ∧ (F.Plain → s.Fires w 103 F u → FaultsWith (.trape w) s u F 0x08 (word (F.la x).first))
    ∧ (F.Plain → s.Fires w 104 F u → FaultsWith (.brk w) s u F 0x09 0)
    ∧ (¬ F.Plain → s.Fires w 103 F u → FiresQuietly (.trape w) s u F)
    ∧ (¬ F.Plain → s.Fires w 104 F u → FiresQuietly (.brk w) s u F)

/-- R165: operations on tags. -/
def tagOps : Prop := ∀ (s u : State) (w : OpWord) (F : Firing), F.Plain →
  let x := u.ectx F.g F.c
  let under (t : Tag) : Token := F.same x (F.tagFrom t)
  let lane (i : Nat) : Nat := match (F.la x).own i with | some p => (decodeInt (F.la x).fmt p % 2 ^ 13).toNat | none => 0
  (∀ e ∈ [(Instr.taginc w, 48, under { F.src with itr := BitVec.ofNat 12 (F.src.itr.toNat + F.b0 x) }),
        (.tagset w, 49, under { F.src with itr := BitVec.ofNat 12 (F.b0 x) }),
        (.tagget w, 50, F.naturals x [F.src.itr.toNat, F.src.frm.toNat, F.src.thr.toNat]),
        (.tagclr w, 51, under { F.src with itr := 0, thr := 0 }),
        (.stamp w, 59, F.integers x fun j => if j = 0 then stampOf (F.b0 x % 2 ^ 12) (lane 0) (lane 1) (lane 2) (lane 3) else 0),
        (.loopi w, 64, F.naturals x ((List.range (x.width F.w.col.toNat)).map fun j => F.src.itr.toNat * x.width F.w.col.toNat + j))],
      s.Fires w e.2.1 F u → FiresTo e.1 s u F F.w.dst (F.marked e.2.2))
    ∧ (F.a = none → s.Fires w 52 F u → FiresTo (.reord w) s u F F.w.dst (F.marked (F.same x F.tag)))
    ∧ (∀ a, F.a = some a → s.Fires w 52 F u →
        let thr := a.token.tag.thr.toNat
        let bound := F.b0 x
        let key (r : Reorder) : Bool := r.slot == F.n && r.frm == a.token.tag.frm && r.itr == a.token.tag.itr
        let turn := match x.reorders.find? key with | some r => r.next | none => 0
        let rest := x.reorders.filter fun r => !key r
        (bound ≤ thr → FiresTo (.reord w) s u F F.w.dst (F.marked (F.same x F.tag)))
          ∧ (thr < bound → thr ≠ turn → s.attempt F reorder = none)
          ∧ (thr < bound → thr = turn → FiresTo (.reord w) s (u.modEctx F.g F.c fun y => { y with
                reorders := if thr + 1 < bound then rest ++ [⟨F.n, a.token.tag.frm, a.token.tag.itr, thr + 1⟩] else rest })
              F F.w.dst (F.marked (F.same x F.tag))))

/-- R103, R166: colours. -/
def colourOps : Prop := ∀ (s u : State) (w : OpWord) (F : Firing), F.Plain →
  let x := u.ectx F.g F.c
  let col := F.w.col.toNat
  let p := F.b0 x % 32
  let q := Max.max 1 (Min.min 32 (F.b0 x))
  let used := ((List.range 32).filter fun c => c ≠ col ∧ (x.entry c).g = true).foldl (fun n c => n + (x.entry c).gw.toNat + 1) 0
  let got := Max.max 1 (Min.min q (Min.min 32 (128 - used)))
  let with' (f : Nat → Legend) (high : NSet) : State := u.modEctx F.g F.c fun y =>
    { y with legend := Vector.ofFn fun i => f i.val, high := high }
  let granted := with' (fun c => if c = col then { x.entry c with g := true, gw := BitVec.ofNat 5 (got - 1), qw := BitVec.ofNat 5 (q - 1) } else x.entry c) x.high
  let joined := with' (fun c => if c = col then { x.entry c with pk := true, pcol := BitVec.ofNat 5 p }
    else if c = p then { x.entry c with pk := true, pcol := F.w.col } else x.entry c) (NSet.insert x.high p)
  let part := (x.entry col).pcol.toNat
  let parted := with' (fun c => if c = col ∨ c = part then { x.entry c with pk := false, pcol := 0 } else x.entry c)
    (NSet.erase (NSet.erase x.high part) col)
  let refused := col = p ∨ (x.entry col).pk = true ∨ (x.entry p).pk = true ∨ 32 < (x.entry col).width + (x.entry p).width
  (s.Fires w 53 F u → FiresTo (.ctxalloc w) s granted F F.w.dst
        (F.marked (F.naturals (granted.ectx F.g F.c) [got])))
    ∧ (s.Fires w 54 F u → refused → FiresTo (.colpack w) s u F F.w.dst (F.marked (F.naturals x [0])))
    ∧ (s.Fires w 54 F u → ¬ refused → FiresTo (.colpack w) s joined F F.w.dst (F.marked (F.naturals (joined.ectx F.g F.c) [1])))
    ∧ (s.Fires w 55 F u →
        let v := { (if (x.entry col).pk then parted else u) with fresh := u.fresh + 1 }
        FiresTo (.colunpk w) s v F F.w.dst
          (F.marked (F.integers (v.ectx F.g F.c) fun j => if j = 0 then (Config.freeValue u.fresh).toNat else 0)))

/-- R116, R117, R167: frames. -/
def frameOps : Prop := ∀ (s u : State) (w : OpWord) (F : Firing), F.Plain →
  let x := u.ectx F.g F.c
  let p := F.src.frm.toNat
  let used := SMap.getD x.ordinals p 0
  (∀ f ∈ [(Instr.framealloc w, 56, true), (.spawn w, 58, false)], s.Fires w f.2.1 F u →
      (f.2.2 = true → 32 ≤ (u.elem F.g).frames.length → u.child F.g F.c F.src.frm f.2.2 = none)
        ∧ (1 ≤ p → p < 4096 → used < 16 → State.frameKey F.c (BitVec.ofNat 16 (16 * p + used)) ∉ (u.elem F.g).frames →
            (f.2.2 = true → (u.elem F.g).frames.length < 32) →
            ∃ v, u.child F.g F.c F.src.frm f.2.2 = some (BitVec.ofNat 16 (16 * p + used), v)
              ∧ SMap.getD (v.ectx F.g F.c).ordinals p 0 = used + 1)
        ∧ ∀ c v, u.child F.g F.c F.src.frm f.2.2 = some (c, v) →
            State.frameKey F.c c ∉ (u.elem F.g).frames ∧ (f.2.2 = true → State.frameKey F.c c ∈ (v.elem F.g).frames)
              ∧ FiresTo f.1 s v F F.w.dst (F.marked (F.same (v.ectx F.g F.c) (F.tagFrom { F.src with frm := c }))))
    ∧ (s.Fires w 57 F u → ((∃ o ∈ x.operands, o.token.tag.frm = F.src.frm ∧ (o.entries ≠ 0 ∨ o.spilled ≠ [])) ∨ ∃ k ∈ x.groups, k.frm = F.src.frm) →
        s.attempt F freeFrame = none)
    ∧ (s.Fires w 57 F u → (∀ o ∈ x.operands, o.token.tag.frm = F.src.frm → o.entries = 0 ∧ o.spilled = []) → (∀ k ∈ x.groups, k.frm ≠ F.src.frm) →
        let v := (u.modElem F.g fun e => { e with frames := NSet.erase e.frames (State.frameKey F.c F.src.frm) }).markChains (gidTile F.g) F.c F.src.frm
        State.frameKey F.c F.src.frm ∉ (v.elem F.g).frames
          ∧ FiresTo (.framefree w) s v F F.w.dst (F.marked (F.same x (F.tagFrom { F.src with frm := BitVec.ofNat 16 (p / 16) }))))

/-- R50, R168: loops. -/
def loopOps : Prop := ∀ (s u : State) (w : OpWord) (F : Firing),
  let x := u.ectx F.g F.c
  let t := F.src
  let put (l : Loop) : State := u.modEctx F.g F.c fun y => y.setLoop l
  let follows := F.n < 15 ∧ (x.slot (F.n + 1)).op = 61
  let moved : Token := F.same x { t with
    col := F.w.col, itr := if F.prdA then t.itr + 1 else t.itr, last := true, err := false, nul := false, hdr := false, prd := false }
  let counts (l : Loop) (k : Nat) : Prop :=
    l.running = true ∧ l.start.tag.ctx = t.ctx ∧ l.start.tag.frm = t.frm ∧ l.start.tag.thr = t.thr ∧ l.liveOf t.itr = some k
  (F.Plain → s.Fires w 60 F u → ¬ follows → FaultsWith (.loopb w) s u F 0x01 0)
    ∧ (F.Plain → s.Fires w 60 F u → follows →
        FiresQuietly (.loopb w) s
          ((put { slot := F.n, running := true, w := F.w, start := (F.a.map (·.token)).getD (F.same x t), bound := F.b0 x }).loopEnd F.g F.c F.n) F)
    ∧ (∀ l k, s.Fires w 61 F u → F.n ≠ 0 → x.loop (F.n - 1) = some l → counts l k →
        FiresQuietly (.loope w) s ((put { l with live := l.live.filter (· != k) }).loopEnd F.g F.c (F.n - 1)) F)
    ∧ (s.Fires w 61 F u → (F.n = 0 ∨ ∀ l k, x.loop (F.n - 1) = some l → ¬ counts l k) → FaultsWith (.loope w) s u F 0x01 t.toWord)
    ∧ (F.Plain → s.Fires w 62 F u → FiresTo (.loopt w) s u F (if F.prdA then F.w.dst &&& 12 else F.w.dst &&& 3) (F.marked moved))
    ∧ (s.Fires w 63 F u → ¬ (F.Plain ∧ F.prdA = true) → FiresQuietly (.loopx w) s u F)
    ∧ (F.Plain → F.prdA = true → s.Fires w 63 F u →
        let cut (l : Loop) : Loop :=
          if l.running then
            -- the iteration that A's ITR names: the last one issued under it, or the first that will be
            let k := if l.next ≤ t.itr.toNat then t.itr.toNat else l.next - 1 - (l.next - 1 - t.itr.toNat) % 4096
            { l with stop := some (match l.stop with | some j => Min.min j k | none => k) }
          else l
        let v := u.modEctx F.g F.c fun y => { y with loops := y.loops.map cut }
        FiresQuietly (.loopx w) s ((v.ectx F.g F.c).loops.foldl (fun s l => s.loopEnd F.g F.c l.slot) v) F)

/-- R142, R144, R161, R162: a reduction keeps a member until its tag group is whole, and then emits what the group comes to. -/
def reductionOps : Prop := ∀ (s u : State) (w : OpWord) (F : Firing),
  let x := u.ectx F.g F.c
  let size := 2 ^ Min.min 12 ((x.const (F.n % 4)).toNat % 16)
  let index := F.src.itr.toNat / size
  let m : Member := ⟨F.src.itr.toNat, F.keep 0 F.a, F.keep 1 F.b, !F.anyNull && decide (verdict F.w.pm F.prdA = .compute)⟩
  let mine (g : Group) : Bool := g.slot == F.n && g.frm == F.src.frm && g.thr == F.src.thr && g.index == index
  let ms := (match x.groups.find? mine with | some g => g.members | none => []) ++ [m]
  let rest := x.groups.filter fun g => !mine g
  let v := u.modEctx F.g F.c fun y => { y with groups := rest }
  let tag : Tag := { ctx := F.src.ctx, col := F.w.col, thr := F.src.thr, itr := BitVec.ofNat 12 (index * size), frm := F.src.frm }
  let sorted := sortMembers ms
  let fr := x.outFmt F.w.col
  let plus0 := match encodeVal fr .rne Val.zero with | .ok z => z | .error _ => 0
  let lanes (p : Nat) (prd : Bool) : Token := laneToken { tag with prd := prd } (fmtBits fr) (p :: List.replicate (x.width F.w.col.toNat - 1) plus0)
  let errs := memberErrors x F (index * size) sorted
  let prdOf (k : Member) : Bool := match k.a with | some o => o.token.tag.prd | none => false
  ∀ e ∈ [(Instr.rsum w, 65, reduceSum), (.rmax w, 66, reducePick maxVal), (.rmin w, 67, reducePick minVal),
      (.rand w, 68, reduceBits Nat.land true), (.elemRor w, 69, reduceBits Nat.lor false), (.rxor w, 70, reduceBits Nat.xor false),
      (.elemRdot w, 71, reduceDot), (.rcnt w, 72, reduceCount)],
    s.Fires w e.2.1 F u →
      let group := e.2.2 (groupTerms x F (index * size) sorted) fr
      (ms.length < size → FiresQuietly e.1 s (u.modEctx F.g F.c fun y => { y with groups := rest ++ [⟨F.n, F.src.frm, F.src.thr, index, ms⟩] }) F)
        ∧ (size ≤ ms.length → (∀ k ∈ ms, k.real = false ∧ (k.firing x F).erring = none) → FiresTo e.1 s v F F.w.dst (nullToken tag))
        ∧ (∀ p prd, size ≤ ms.length → (F.w.pm ≠ 5 ∧ prd = false ∨ F.w.pm = 5 ∧ ∀ k ∈ ms, prdOf k = prd) → (∃ k ∈ ms, k.real = true) →
            errs = [] → group = .ok (.ok p) → FiresTo e.1 s v F F.w.dst (lanes p prd))
        ∧ (∀ p, size ≤ ms.length → F.w.pm = 5 → (∃ k ∈ ms, prdOf k = true) → (∃ k ∈ ms, prdOf k = false) → (∃ k ∈ ms, k.real = true) → errs = [] →
            group = .ok (.ok p) → FiresTo e.1 s { v with fresh := v.fresh + 1 } F F.w.dst (lanes p (Config.freeChoice v.fresh)))
        ∧ (∀ o, size ≤ ms.length → (∃ k ∈ ms, k.real = true) → errs = [] → group = .ok (.error o) → FiresTo e.1 s v F F.w.dst (errorToken tag 0 o))
        ∧ (∀ o os, size ≤ ms.length → (errs ≠ [] ∨ ∃ k ∈ ms, k.real = true) →
            errs ++ (match group with | .error q => [q] | .ok _ => []) = o :: os →
            let q := os.foldl Offence.first o
            let at' : Tag := { tag with itr := BitVec.ofNat 12 (index * size + q.who) }
            FiresTo e.1 s v F F.w.dst (match (sorted.filter fun k => k.itr == index * size + q.who).findSome? fun k => (k.firing x F).erring with
              | some t => forwardError at' t
              | none => errorToken at' q.lane q.orig))

/-- R148, R162: what a group of integers comes to. -/
def integerReductions : Prop := ∀ (ts : List GroupTerm) (fr : Nat), (∀ t ∈ ts, fmtIsInt t.f = true ∧ fmtIsInt t.h = true) →
  let n := fmtBits fr
  let low (i : Int) : Nat := (i % 2 ^ n).toNat
  reduceSum ts fr = .ok (.ok (low (ts.map fun t => decodeInt t.f t.p).sum))
    ∧ reduceBits Nat.land true ts fr = .ok (.ok (ts.foldl (fun v t => v &&& low (decodeInt t.f t.p)) (2 ^ n - 1)))
    ∧ reduceBits Nat.lor false ts fr = .ok (.ok (ts.foldl (fun v t => v ||| low (decodeInt t.f t.p)) 0))
    ∧ reduceBits Nat.xor false ts fr = .ok (.ok (ts.foldl (fun v t => v ^^^ low (decodeInt t.f t.p)) 0))
    ∧ reduceCount ts fr = .ok (.ok ((ts.countP fun t => decodeInt t.f t.p != 0) % 2 ^ n))
    ∧ reduceDot ts fr = .ok (encodeVal fr .rne (Val.ofInt (BitVec.ofInt 32 (ts.map fun t => decodeInt t.f t.p * decodeInt t.h t.q).sum).toInt))

/-- R105, R106, R161: each reduction completes: with plain operands and free destinations its operands leave the slot, and either they stand in
their group or the group's token is emitted. -/
def reductionsComplete : Prop := ∀ (s u : State) (w : OpWord) (F : Firing), F.Plain → Free u F →
    ∀ e ∈ [(Instr.rsum w, 65), (.rmax w, 66), (.rmin w, 67), (.rand w, 68), (.elemRor w, 69), (.rxor w, 70), (.elemRdot w, 71), (.rcnt w, 72)],
      s.Fires w e.2 F u → ∃ z, exec e.1 s = .next z ∧ z.absent = none ∧ (z.ectx F.g F.c).operands = (u.ectx F.g F.c).operands
        ∧ ∀ h, h ≠ F.g → z.elem h = u.elem h

/-- R105, R106: each operation across lanes completes, as the operations on numbers do. -/
def lanesComplete : Prop := ∀ (s u : State) (w : OpWord) (F : Firing), F.Plain → Free u F →
    ∀ e ∈ [(Instr.shuf w, 73), (.bcast w, 74), (.rotl w, 75), (.lsel w, 76), (.scanadd w, 77), (.topk w, 78), (.avg w, 113), (.sad w, 114),
        (.hist w, 115), (.idx w, 119)],
      s.Fires w e.2 F u → ∃ z tok, exec e.1 s = .next z ∧ Emits u z F F.w.dst tok
        ∧ tok.tag.col = F.tag.col ∧ tok.tag.itr = F.tag.itr ∧ tok.tag.frm = F.tag.frm ∧ tok.tag.thr = F.tag.thr

/-- R163, R164, R171: operations across lanes. -/
def laneOps : Prop := ∀ (s u : State) (w : OpWord) (F : Firing), F.Plain →
  let x := u.ectx F.g F.c
  let a := F.la x
  let b := F.lb x
  let fr := x.outFmt F.w.col
  let wa := a.pats.length
  let choose (f : Nat → Option Nat) : Token := F.each x fun j => convLane a.fmt fr .rne ((f j).bind a.own)
  let floating := fmtIsInt a.fmt = false ∨ fmtIsInt b.fmt = false
  let js := List.range (Max.max wa b.pats.length)
  let origin := match ((u.tile (gidTile F.g)).ctx F.c).launch with | some p => (p.ox.toNat, p.oy.toNat) | none => (0, 0)
  ∀ e ∈ [(Instr.shuf w, 73, choose fun j => some ((b.int j % 2 ^ 64).toNat % wa)),
      (.bcast w, 74, choose fun _ => some (F.b0 x % wa)),
      (.rotl w, 75, choose fun j => some ((j + F.b0 x) % wa)),
      (.lsel w, 76, choose fun j => if (F.b0 x).testBit j then some j else none),
      (.scanadd w, 77, if fmtIsInt a.fmt then F.integers x fun j => ((a.pats.take (j + 1)).map (decodeInt a.fmt)).sum
        else F.each x fun j => let vs := runningSums none (a.pats.map (decodeVal a.fmt)); encodeVal fr .rne (vs.getD j (vs.getLastD Val.zero))),
      (.topk w, 78, topLanes x F),
      (.avg w, 113, if floating then F.each x fun j => encodeVal fr .rne ((Val.add (a.val j) (b.val j)).scale2 (-1))
        else F.integers x fun j => (a.int j + b.int j) / 2),
      (.sad w, 114, if floating then
          F.values x F.tag .rne [js.foldl (fun v j => Val.add v (Val.add (a.val j) (b.val j).neg).abs) Val.zero]
        else F.integers x fun j => if j = 0 then (js.map fun i => ((a.int i - b.int i).natAbs : Int)).sum else 0),
      (.hist w, 115, F.integers x fun j => b.int j + (a.pats.countP fun p => decodeInt a.fmt p == (j : Int) : Nat)),
      (.idx w, 119, F.integers x fun j => match j with
        | 0 => (gidX F.g : Int) - 8 * (origin.1 : Int) | 1 => (gidY F.g : Int) - 8 * (origin.2 : Int) | 2 => F.n | 3 => F.c | _ => 0)],
    s.Fires w e.2.1 F u → FiresTo e.1 s u F F.w.dst (F.marked e.2.2)

/-- R105, R247, R251: each memory and datum node completes: with plain operands, outside blocks, and with fewer than 32 requests in progress at its
element, it fires and its request stands there. -/
def requestsComplete : Prop := ∀ (s u : State) (w : OpWord) (F : Firing), F.Plain → (u.elem F.g).inProgress < 32 →
  u.instanceOf F.g F.c F.n F.src = none →
    ∀ e ∈ [(Instr.nld w, 79), (.nst w, 80), (.nldt w, 81), (.ald w, 82), (.ast w, 83), (.aldr w, 84), (.sld w, 85), (.sldc w, 86), (.vst w, 87),
        (.oupd w, 88), (.fencee w, 89), (.dupd w, 91), (.dldt w, 92), (.dlds w, 93), (.dfront w, 94)],
      s.Fires w e.2 F u → ((u.addRequest F.g (u.newRequest F e.2)).checkAll F.g (u.newRequest F e.2)).2.absent = none →
        ∃ z, exec e.1 s = .next z ∧ ∃ r ∈ (z.elem F.g).reqs, r.op = e.2 ∧ r.slot = F.n ∧ r.ctx = F.c

/-- R119, R247–R251, R253, R301–R306: memory and datum nodes. -/
def memoryOps : Prop := ∀ (s u : State) (w : OpWord) (F : Firing),
  ∀ e ∈ [(Instr.nld w, 79), (.nst w, 80), (.nldt w, 81), (.ald w, 82), (.ast w, 83), (.aldr w, 84), (.sld w, 85), (.sldc w, 86), (.vst w, 87),
      (.oupd w, 88), (.fencee w, 89), (.dupd w, 91), (.dldt w, 92), (.dlds w, 93), (.dfront w, 94)],
    s.Fires w e.2 F u →
      let block := u.instanceOf F.g F.c F.n F.src
      let q := u.newRequest F e.2
      let v := u.addRequest F.g q
      let skipped := u.skipChain F e.2
      let out (t : Token) : Prop := (e.2 ≠ 84 → (u.elem F.g).earlier F.c F.n F.src = false → FiresTo e.1 s skipped F F.w.dst t)
        ∧ (e.2 = 84 → FiresQuietly e.1 s skipped F)
      -- a 33rd request in progress
      let full := e.2 ≠ 89 ∧ 32 ≤ (u.elem F.g).inProgress ∧ ¬ (block ≠ none ∧ (e.2 = 80 ∨ e.2 = 83))
      -- a plain node outside blocks, and a load inside one: the request is sent
      (F.Plain → full → s.attempt F (memNode e.2) = none)
      ∧ (F.Plain → ¬ full → block = none ∨ (isStoreNode e.2 = false ∧ e.2 ≠ 94) →
          (e.2 < 82 ∨ 88 < e.2 → FiresQuietly e.1 s v F)
            ∧ (∀ p r, 82 ≤ e.2 → e.2 ≤ 88 → v.checkAll F.g q = (.ok p, r) → r.absent = none →
                FiresQuietly e.1 s (if isChained e.2 then r.enterChain F.g q else r) F)
            ∧ (∀ c r, 82 ≤ e.2 → e.2 ≤ 88 → v.checkAll F.g q = (.error c, r) → r.absent = none →
                FiresQuietly e.1 s (if block = none then r.failRequest F.g q c.1 c.2 else (r.failRequest F.g q c.1 c.2).skipChain F e.2) F))
        -- a store inside an admitted instance is held in its buffer
        ∧ (∀ i, F.Plain → ¬ full → block = some i →
            let hold (x : State) : State := x.tick.modInst i.id fun j => { j with buffer := j.buffer ++ [⟨F.g, q⟩] }
            (e.2 = 80 → FiresTo e.1 s (hold u) F F.w.dst q.ack)
              ∧ (∀ p r, e.2 = 83 → u.checkRequest F.g q = (.ok p, r) → r.absent = none → FiresTo e.1 s (hold r) F F.w.dst q.ack)
              ∧ (∀ c r, e.2 = 83 → u.checkRequest F.g q = (.error c, r) → r.absent = none →
                  FiresTo e.1 s ((r.condemn i.id c.1 (word c.2)).skipChain F e.2) F F.w.dst q.null)
              ∧ (e.2 = 87 ∨ e.2 = 88 ∨ e.2 = 91 →
                  FiresQuietly e.1 s ((hold u).modElem F.g fun x => { x with reqs := x.reqs ++ [{ q with inst := some i.id }] }) F)
              ∧ (e.2 = 94 → FiresQuietly e.1 s (u.addRequest F.g { q with inst := some i.id }) F))
        -- errors, null tokens and predicates: no access
        ∧ (∀ t, F.erring = some t → out (forwardError F.tag t))
        ∧ (F.erring = none → F.anyNull = true → out (nullToken F.tag))
        ∧ (F.erring = none → F.anyNull = false → verdict F.w.pm F.prdA = .null → out (nullToken F.tag))
        ∧ (F.erring = none → F.anyNull = false → verdict F.w.pm F.prdA = .nothing → FiresQuietly e.1 s skipped F)

/-- R169, R188, R189, R198: the matrix interface. -/
def matrixOps : Prop := ∀ (s u : State) (w : OpWord) (F : Firing),
  let x := u.ectx F.g F.c
  let tile := gidTile F.g
  let e := gidElem F.g
  let b := F.b0 x
  let send (word : BitVec 64) : State := u.modNode tile fun n => { n with queue := n.queue ++ [⟨e, word, F.src⟩] }
  let read := packMx 13 ⟨0, 0, BitVec.ofNat 6 b, BitVec.ofNat 7 (b / 2 ^ 12), F.w.col.setWidth 12, BitVec.ofNat 7 (b / 2 ^ 19), BitVec.ofNat 6 (b / 2 ^ 6), false⟩
  let fed (a : Arg) (t : Token) : Fed := ⟨t, a.width, a.fmt, a.blen, a.scale, (x.entry a.token.tag.col.toNat).sfmt.toNat⟩
  let given (f : Fed) : State := u.modNode tile fun n => { n with fifos := SMap.set n.fifos e (n.fifo e ++ [f]) }
  let a : Arg := F.a.getD (x.arg (F.same x F.tag) none)
  let control := match F.a with | some a => BitVec.ofNat 64 (bitString a.token.beats) | none => BitVec.ofNat 64 ((F.la x).at 0)
  (∀ t, F.a = some t → t.token.tag.err = true →
      (s.Fires w 95 F u → FaultsWith (.mxctl w) s u F 0x01 (BitVec.ofNat 64 (bitString t.token.beats)))
        ∧ (s.Fires w 97 F u → FaultsWith (.mxrda w) s u F 0x01 (BitVec.ofNat 64 (bitString t.token.beats))))
    ∧ (F.Plain → (u.node tile).queue.length < 64 →
        (s.Fires w 95 F u → FiresQuietly (.mxctl w) s (send control) F) ∧ (s.Fires w 97 F u → FiresQuietly (.mxrda w) s (send read) F))
    ∧ (s.Fires w 96 F u → (a.token.tag.err = true ∨ a.token.tag.nul = true ∨ verdict F.w.pm F.prdA = .compute) →
        (u.node tile).feedRoom e (fed a a.token) = true → FiresQuietly (.mxfeed w) s (given (fed a a.token)) F)
    ∧ (s.Fires w 96 F u → a.token.tag.err = false → a.token.tag.nul = false → verdict F.w.pm F.prdA = .null →
        (u.node tile).feedRoom e (fed a (nullToken a.token.tag)) = true → FiresQuietly (.mxfeed w) s (given (fed a (nullToken a.token.tag))) F)
    ∧ (s.Fires w 96 F u → a.token.tag.err = false → a.token.tag.nul = false → verdict F.w.pm F.prdA = .nothing → FiresQuietly (.mxfeed w) s u F)

end Sys2Proof.Claims

/-- What a firing consumes, and what stops it. A firing takes exactly its own operands from the slot's matching store, empties a latch only when
every slot that names it has taken it, and leaves slots, legend, headers, constants and groups alone; one that meets a breakpoint or a failed ring
page records its fault and consumes nothing. (R50, R105, R111, R113, R151) -/
def Obligations.FiringConsumes : Prop :=
  Sys2Proof.Claims.consumption ∧ Sys2Proof.Claims.firingStops

/-- Operation words on integers. On plain operands each integer operation emits a token each of whose lanes is the low bits of the number that its
rule gives for the lanes of the operands, saturated for ADDS, SUBS and MULS, with the PRD of R105. (R153, R156, R171) -/
def Obligations.IntegerOperations : Prop :=
  Sys2Proof.Claims.integerOps ∧ Sys2Proof.Claims.integerLanes

/-- Operation words on numbers of any format, conversions and compares. Each of the 29 operations completes: with plain operands and free
destinations exec answers a next state in which it has emitted a token under the tag of its operands. Each floating operation emits the exact
value rounded once in its mode, each function a value within its bound, each conversion the value in the new format, and each compare the mask and
PRD of its rule. (R140, R157, R158, R159, R171) -/
def Obligations.FloatOperations : Prop :=
  Sys2Proof.Claims.floatsComplete ∧ Sys2Proof.Claims.floatOps ∧ Sys2Proof.Claims.conversions

/-- STEER, MERGE, MERGEO, GATE, SELP, NULLGEN, NOP, CONST, SINK and PFETCH. On plain operands each of these words emits the token that its rule
passes on, on the ports that its predicate selects, or consumes and emits nothing. (R160, R170) -/
def Obligations.PassingOperations : Prop :=
  Sys2Proof.Claims.passingOps

/-- Error and null operands, pm, and COPYT, ERRCHK, TRAPE and BRK. For each of 83 operations an error operand is forwarded, else a null one makes
a null token, else pm emits a null token, nothing, or lets it compute; COPYT passes anything on, ERRCHK and TRAPE act on errors, and BRK raises
0x09. (R105, R143, R155, R170) -/
def Obligations.ErrorsNullsAndPredicates : Prop :=
  Sys2Proof.Claims.verdicts ∧ Sys2Proof.Claims.checkingOps

/-- TAGINC to REORD, STAMP, LOOPI, CTXALLOC, COLPACK and COLUNPK. The tag operations write or read the fields that their rules name, REORD keeps
tokens until the next in order arrives, and the colour operations grant, join and part lanes as stated. (R103, R165, R166) -/
def Obligations.TagOperations : Prop :=
  Sys2Proof.Claims.tagOps ∧ Sys2Proof.Claims.colourOps

/-- FRAMEALLOC, FRAMEFREE, SPAWN and LOOPB, LOOPE, LOOPT, LOOPX. A frame operation takes a free frame number, gives one back, or waits; LOOPB
starts its loop and emits the first token, LOOPE ends an iteration, LOOPT tests the condition, and LOOPX stops the loops. (R50, R116, R117, R167,
R168) -/
def Obligations.FramesAndLoops : Prop :=
  Sys2Proof.Claims.frameOps ∧ Sys2Proof.Claims.loopOps

/-- RSUM, RMAX, RMIN, RAND, ROR, RXOR, RDOT and RCNT. Each of the eight reductions completes: with plain operands and free destinations exec
answers a next state in which its operands have left the slot. A reduction keeps each member until its tag group is whole and then emits one token
that the group comes to, independent of the order of arrival; sums of integers are exact modulo the result width. (R142, R144, R148, R161, R162)
-/
def Obligations.Reductions : Prop :=
  Sys2Proof.Claims.reductionsComplete ∧ Sys2Proof.Claims.reductionOps ∧ Sys2Proof.Claims.integerReductions

/-- SHUF, BCAST, ROTL, LSEL, SCANADD, TOPK, SAD, HIST, AVG and IDX. Each of the ten lane operations completes: with plain operands and free
destinations exec answers a next state in which it has emitted a token under the tag of its operands. Each emits a token whose lanes are those
that its rule selects or computes from the lanes of the operands. (R163, R164, R171) -/
def Obligations.LaneOperations : Prop :=
  Sys2Proof.Claims.lanesComplete ∧ Sys2Proof.Claims.laneOps

/-- Memory and datum nodes. Each of the 15 nodes completes: with plain operands, outside blocks and with fewer than 32 requests in progress, exec
answers a next state in which its request stands at the element. A node that fires records one request with its thread, address, data and order;
its element keeps at most 32, and nothing is emitted before the reply. (R119, R247, R248, R249, R250, R251, R253, R301) -/
def Obligations.MemoryOperations : Prop :=
  Sys2Proof.Claims.requestsComplete ∧ Sys2Proof.Claims.memoryOps

/-- MXCTL, MXFEED and MXRDA. MXCTL enters a control token in the node's queue while it has room, MXFEED a vector element in the element's FIFO,
and MXRDA passes a reply on. (R169, R188, R189, R198) -/
def Obligations.MatrixInterface : Prop :=
  Sys2Proof.Claims.matrixOps

/-! # Control tokens of matrix nodes -/

namespace Sys2Proof.Claims

/-- R56, R201: a malformed token stops the node with cause 0x01 and changes no cell; a node that has stopped, or whose queue is empty, does
nothing. -/
def malformedTokens : Prop := ∀ (s : State) (t : MxWord), s.absent = none →
  ∀ f ∈ [(Instr.mma t, 0), (.mmao t, 1), (.mmat t, 2), (.mmas t, 3), (.mmax t, 4), (.mmad t, 5), (.mmai t, 6), (.mmaq t, 7), (.mmab t, 8),
      (.mmaf t, 9), (.mxRdot t, 10), (.rdotx t, 11), (.aclr t, 12), (.aread t, 13), (.awrite t, 14), (.ascale t, 15), (.acvt t, 16),
      (.abias t, 17), (.aact t, 18), (.atrn t, 19), (.bload t, 20), (.bsel t, 21), (.bflip t, 22), (.bstat t, 23), (.calloc t, 24),
      (.cfree t, 25), (.cpark t, 26), (.cfetch t, 27), (.aerrq t, 28), (.aflush t, 29), (.async t, 30), (.anop t, 31)],
    (∀ e r, s.hereNode.fault = none → s.hereNode.queue = e :: r → t.checkOpc f.2 ≠ none → NodeStops f.1 s e 0x01 0 0)
      ∧ (s.hereNode.fault ≠ none ∨ s.hereNode.queue = [] → Gives f.1 s fun z => z = s)

/-- R187: a token of a region with a column that its context does not own stops the node with cause 0x06 and that column, the first of them. -/
def foreignColumns : Prop := ∀ (s : State) (t : MxWord) (e : Entry) (k : Nat),
  t.col0.toNat ≤ k → k < t.col0.toNat + t.n → s.hereNode.column k ≠ .owned e.tag.ctx →
  (∀ j, t.col0.toNat ≤ j → j < k → s.hereNode.column j = .owned e.tag.ctx) →
  ∀ f ∈ [(Instr.mxRdot t, 10), (.rdotx t, 11), (.aclr t, 12), (.aread t, 13), (.awrite t, 14), (.acvt t, 16), (.abias t, 17), (.aact t, 18),
      (.atrn t, 19), (.cfree t, 25), (.aerrq t, 28)],
    s.AtHead f.2 t e → NodeStops f.1 s e 0x06 k 0

/-- R189–R194: the multiply family but for the block-scaled opcodes. Each opcode with the format of B, the order of its sum, whether B comes
from the other bank and whether products are negated. -/
def multiplyTokens : Prop := ∀ (s : State) (t : MxWord) (e : Entry),
  let c := e.tag.ctx
  let n := s.hereNode
  let tile := s.focus.tile
  let fa := t.fmt.toNat
  let q := n.fifo e.elem
  let used (vs : List (List Fed)) : Nat := (vs.map List.length).foldl (· + ·) 0
  let vec (vs : List (List Fed)) (i : Nat) : List Fed := match vs[i]? with | some v => v | none => []
  ∀ f ∈ [(Instr.mma t, 0, fa, false, false), (.mmao t, 1, fa, false, false), (.mmat t, 2, fa, false, false), (.mmas t, 3, fa, false, true),
      (.mmad t, 5, 7, false, false), (.mmai t, 6, fa, false, false), (.mmaq t, 7, 6, false, false), (.mmab t, 8, fa, true, false),
      (.mmaf t, 9, fa, false, false)],
    s.AtHead f.2.1 t e →
      let fb := f.2.2.1
      let x := n.ctxRegs c
      let w0 := (if xor x.cb f.2.2.2.1 then x.base1 else x.base0) + t.boff.toNat
      let words := (t.k * fmtBits fb + 31) / 32
      let b (j k : Nat) : Val := decodeVal fb (s.bElement tile (t.col0.toNat + j) w0 (fmtBits fb) k)
      let ord := if f.2.1 = 1 then (if fb = 8 ∨ fb = 6 then SumOrder.integers else if fb = 2 then .steps else .groups) else mxOrder fa fb
      (3072 < w0 + words → NodeStops f.1 s e 0x01 0 0)
        ∧ (w0 + words ≤ 3072 → Owns n t c → s.bCause tile t.cols w0 words = none →
          (f.2.1 = 1 → ∃ n', RegionIs n n' t (fun _ j old =>
                sumCell old t.acc ord ((List.range t.k).map fun k => productTerm (.fin false 1 0) (b j k) 0 0) fun _ => e.tag.itr.toNat)
              ∧ NodeCompletes f.1 s e n' 0 [])
          ∧ (∀ vs, f.2.1 = 2 → takeVectors q t.k t.m = some vs → ∃ n', RegionIs n n' t (fun i j old =>
                let elt (k : Nat) : Elt × Nat × Nat := (vectorElts fa t.m (vec vs k)).getD i (.absent, 0, 0)
                sumCell old t.acc ord ((List.range t.k).map fun k => eltTerm (elt k).1 (b j k) false k (elt k).2.2) fun k => fedItr (vec vs k) (elt k).2.1)
              ∧ NodeCompletes f.1 s e n' (used vs) [])
          ∧ (∀ vs, f.2.1 ≠ 1 → f.2.1 ≠ 2 → takeVectors q t.m t.k = some vs → ∃ n', RegionIs n n' t (fun i j old =>
                sumCell old t.acc ord ((vectorElts fa t.k (vec vs i)).zipIdx.map fun z => eltTerm z.1.1 (b j z.2) f.2.2.2.2 z.1.2.1 z.1.2.2) (fedItr (vec vs i)))
              ∧ NodeCompletes f.1 s e n' (used vs) [])
          ∧ (f.2.1 = 2 → takeVectors q t.k t.m = none → Gives f.1 s fun z => z = s)
          ∧ (f.2.1 ≠ 1 → f.2.1 ≠ 2 → takeVectors q t.m t.k = none → Gives f.1 s fun z => z = s))

/-- R148, R193: the cell of a sum of products of integers, and a cell in error under ACC = 1. -/
def integerCells : Prop := ∀ (old : Cell) (acc : Bool) (l : List (Int × Int)) (itr : Nat → Nat),
  (acc = false ∨ old.err = false →
    sumCell old acc .integers (l.map fun p => productTerm (Val.ofInt p.1) (Val.ofInt p.2) 0 0) itr
      = { value := BitVec.ofInt 32 ((if acc then old.value.toInt else 0) + (l.map fun p => p.1 * p.2).sum) })
    ∧ (acc = true → old.err = true → ∀ o ts, sumCell old acc o ts itr = old)

/-- Block `i` of a row of RDOTX: the products of x token `i` with the elements of y at the same K, each charged to the token of lower rank
that raises an error; the scales are those of the x token and of the y token that carries the block's first element, R195 (the model's choice where
y's BLEN is not x's). -/
def pairBlock (f k : Nat) (xs ys : List Fed) (i : Nat) : BlockSum :=
  let mine := ((vectorElts f k xs).zip (vectorElts f k ys)).filter fun z => z.1.2.1 = i
  let j := match mine with | z :: _ => z.2.2.1 | [] => i
  let terms := mine.map fun z => pairTerm z.1.1 z.2.1 (2 * startsAt xs z.1.2.1) (2 * startsAt ys z.2.2.1 + 1) z.1.2.2 z.2.2.2
  let scale (t : Option Fed) : Val := match t with
    | some t => if t.token.tag.err ∨ t.token.tag.nul then .fin false 1 0 else decodeScale t.sfmt t.scale.toNat
    | none => .fin false 1 0
  { terms := terms, sa := scale xs[i]?, sb := scale ys[j]?, wa := 2 * startsAt xs i, wb := 2 * startsAt ys j + 1
    null := decide ((∃ t ∈ [xs[i]?, ys[j]?], (t.map (·.token.tag.nul)) = some true) ∧ ∀ t ∈ terms, t.bad = none) }

/-- R149, R191, R193, R195: RDOT, RDOTX and MMAX. -/
def dotTokens : Prop := ∀ (s : State) (t : MxWord) (e : Entry),
  let c := e.tag.ctx
  let n := s.hereNode
  let tile := s.focus.tile
  let f := t.fmt.toNat
  let x := n.ctxRegs c
  let q := n.fifo e.elem
  let used (vs : List (List Fed)) : Nat := (vs.map List.length).foldl (· + ·) 0
  let vec (vs : List (List Fed)) (i : Nat) : List Fed := match vs[i]? with | some v => v | none => []
  let w0 := (if x.cb then x.base1 else x.base0) + t.boff.toNat
  let words := (t.k * fmtBits f + 31) / 32
  let z := if x.bsf = 2 then 2 else 1
  -- the ITR of the token of a rank: x tokens have the even ranks, y tokens the odd ones, by the K of their first element
  let ranked (xs ys : List Fed) (w : Nat) : Nat :=
    let l := if w % 2 = 0 then xs else ys
    match l.zipIdx.find? fun z => startsAt l z.2 == w / 2 with | some z => z.1.token.tag.itr.toNat | none => 0
  let sums (bs : List BlockSum) (old : Cell) (itr : Nat → Nat) : Cell :=
    if t.acc ∧ old.err then old else cellOf (sumBlocks bs (decodeVal 0 x.ts.toNat) (if t.acc then some old.fp else none)) itr
  (s.AtHead 10 t e → Owns n t c →
      (takeVectors q (2 * t.m) t.k = none → Gives (.mxRdot t) s fun z => z = s)
        ∧ ∀ vs, takeVectors q (2 * t.m) t.k = some vs → ∃ n', RegionIs n n' t (fun i _ old =>
              let xs := vec vs (2 * i)
              let ys := vec vs (2 * i + 1)
              sumCell old t.acc (mxOrder f f)
                (((vectorElts f t.k xs).zip (vectorElts f t.k ys)).map fun z =>
                  pairTerm z.1.1 z.2.1 (2 * startsAt xs z.1.2.1) (2 * startsAt ys z.2.2.1 + 1) z.1.2.2 z.2.2.2) (ranked xs ys))
            ∧ NodeCompletes (.mxRdot t) s e n' (used vs) [])
    ∧ (∀ a l, s.AtHead 11 t e → Owns n t c → q = a :: l →
        let ill := a.width ≠ a.blen ∨ t.k % a.blen ≠ 0
        (ill → NodeStops (.rdotx t) s e 0x01 0 1)
          ∧ (¬ ill → takeVectors q (2 * t.m) t.k = none →
              (∀ i, badBlock q = some i → NodeStops (.rdotx t) s e 0x01 0 (i + 1)) ∧ (badBlock q = none → Gives (.rdotx t) s fun z => z = s))
          ∧ (¬ ill → ∀ vs, takeVectors q (2 * t.m) t.k = some vs →
              (∀ i, badBlock (q.take (used vs)) = some i → NodeStops (.rdotx t) s e 0x01 0 (i + 1))
                ∧ (badBlock (q.take (used vs)) = none → ∃ n', RegionIs n n' t (fun i _ old =>
                      let xs := vec vs (2 * i)
                      let ys := vec vs (2 * i + 1)
                      sums ((List.range xs.length).map (pairBlock f t.k xs ys)) old (ranked xs ys))
                    ∧ NodeCompletes (.rdotx t) s e n' (used vs) [])))
    ∧ (∀ a l, s.AtHead 4 t e → w0 + words ≤ 3072 → Owns n t c → q = a :: l →
        let scales := (t.k / a.blen * z + 3) / 4
        let ill := a.width ≠ a.blen ∨ t.k % a.blen ≠ 0 ∨ 3072 < w0 + words + scales
        (ill → NodeStops (.mmax t) s e 0x01 0 1)
          ∧ (¬ ill → s.bCause tile t.cols w0 (words + scales) = none → takeVectors q t.m t.k = none →
              (∀ i, badBlock q = some i → NodeStops (.mmax t) s e 0x01 0 (i + 1)) ∧ (badBlock q = none → Gives (.mmax t) s fun z => z = s))
          ∧ (¬ ill → s.bCause tile t.cols w0 (words + scales) = none → ∀ vs, takeVectors q t.m t.k = some vs →
              (∀ i, badBlock (q.take (used vs)) = some i → NodeStops (.mmax t) s e 0x01 0 (i + 1))
                ∧ (badBlock (q.take (used vs)) = none → ∃ n', RegionIs n n' t (fun i j old =>
                      let v := match vs[i]? with | some v => v | none => []
                      let col := t.col0.toNat + j
                      sums (v.zipIdx.map fun b => blockOf f t.k b.1 b.2 (fun k => decodeVal f (s.bElement tile col w0 (fmtBits f) k)) (startsAt v b.2)
                        (decodeScale x.bsf.toNat (s.bytesAt (.overlay tile) (12288 * col + 4 * (w0 + words) + b.2 * z) z))) old (fedItr v))
                    ∧ NodeCompletes (.mmax t) s e n' (used vs) [])))

/-- R197, R198: operations on the accumulator. -/
def accumulatorTokens : Prop := ∀ (s : State) (t : MxWord) (e : Entry),
  let c := e.tag.ctx
  let n := s.hereNode
  let q := n.fifo e.elem
  let f := t.fmt.toNat
  let col : BitVec 5 := BitVec.ofNat 5 t.km1.toNat
  let used (vs : List (List Fed)) : Nat := (vs.map List.length).foldl (· + ·) 0
  let lanes (v : List Fed) : List (Fed × Nat) := (v.map fun x => (List.range (Max.max x.width 1)).map fun j => (x, j)).flatten
  let pattern (x : Fed × Nat) : Nat := x.1.token.lane (fmtBits f) x.2
  let marked (x : Fed) : Cell := errorCell x.token.orig x.token.tag.itr.toNat
  let added (old : Cell) (p : Nat) : Cell :=
    if fmtIsInt f then { value := BitVec.ofInt 32 (old.value.toInt + decodeInt f p) } else fpCell (Val.add old.fp (decodeVal f p))
  let loaded (p : Nat) : Cell := if fmtIsInt f then { value := BitVec.ofInt 32 (decodeInt f p) } else fpCell (decodeVal f p)
  (s.AtHead 12 t e → Owns n t c → ∃ n', RegionIs n n' t (fun _ _ _ => {}) ∧ NodeCompletes (.aclr t) s e n' 0 [])
    ∧ (s.AtHead 13 t e → Owns n t c → NodeCompletes (.aread t) s e n 0 (rowReplies n t e col 32 fun x => .ok x.value.toNat))
    ∧ (s.AtHead 16 t e → Owns n t c → NodeCompletes (.acvt t) s e n 0 (rowReplies n t e col (fmtBits f) fun x =>
        encodeVal f .rne (if t.km1.getLsbD 5 then Val.ofInt x.value.toInt else decodeVal 0 x.value.toNat)))
    ∧ (∀ vs, s.AtHead 14 t e → Owns n t c → takeVectors q t.m t.n = some vs → ∃ n', RegionIs n n' t (fun i j old =>
          match (lanes (match vs[i]? with | some v => v | none => []))[j]? with
          | none => if t.acc then old else {}
          | some x =>
            if x.1.token.tag.err then (if t.acc ∧ old.err then old else marked x.1)
            else if x.1.token.tag.nul then old
            else if t.acc then (if old.err then old else added old (pattern x))
            else loaded (pattern x))
        ∧ NodeCompletes (.awrite t) s e n' (used vs) [])
    ∧ (s.AtHead 14 t e → Owns n t c → takeVectors q t.m t.n = none → Gives (.awrite t) s fun z => z = s)
    ∧ (∀ v, s.AtHead 17 t e → Owns n t c → takeVector q t.n = some v → ∃ n', RegionIs n n' t (fun _ j old =>
          match (lanes v)[j]? with
          | none => old
          | some x =>
            if old.err then old else if x.1.token.tag.err then marked x.1 else if x.1.token.tag.nul then old else added old (pattern x))
        ∧ NodeCompletes (.abias t) s e n' v.length [])
    ∧ (s.AtHead 17 t e → Owns n t c → takeVector q t.n = none → Gives (.abias t) s fun z => z = s)
    ∧ (s.AtHead 18 t e → Owns n t c → ∃ n', RegionIs n n' t (fun _ _ x =>
          if x.err then x
          else match t.km1.toNat % 8 with
            | 0 => { x with value := if x.fp.isNan then 0x7FC00000 else if x.fp.isNeg ∨ x.fp.isZero then 0 else x.value }
            | 4 => { x with value := if x.value.toInt < 0 then 0 else x.value }
            | k => { x with value := BitVec.ofNat 32 (match boundedFn (k + 5) 0 0 x.value.toNat with | .ok p => p | .error _ => 0x7FC00000) })
        ∧ NodeCompletes (.aact t) s e n' 0 [])
    ∧ (s.AtHead 19 t e → Owns n t c → ∃ n', RegionIs n n' t (fun i j _ => n.cell (t.row0.toNat + j) (t.col0.toNat + i)) ∧ NodeCompletes (.atrn t) s e n' 0 [])
    ∧ (s.AtHead 28 t e → Owns n t c →
        let all := (t.rows.map fun r => t.cols.map fun k => (128 * r + k, n.cell r k)).flatten
        let bad := all.filter fun x => x.2.err
        let reply := match bad with
          | [] => [0, 0xFFFFFFFF, 0, 0]
          | x :: _ => [bad.length, x.1, x.2.oitr.toNat, x.2.orig.toNat]
        ∃ n', RegionIs n n' t (fun _ _ x => if t.acc then { value := x.value } else x)
          ∧ NodeCompletes (.aerrq t) s e n' 0 [wordsReply e col reply])

/-- R197: TS, the banks, the status and the synchronising tokens. -/
def bankTokens : Prop := ∀ (s : State) (t : MxWord) (e : Entry),
  let c := e.tag.ctx
  let n := s.hereNode
  let q := n.fifo e.elem
  let x := n.ctxRegs c
  let f := t.fmt.toNat
  let col : BitVec 5 := BitVec.ofNat 5 t.km1.toNat
  let owned := ((List.range 128).filter fun k => n.column k = .owned c).length
  let parked := ((List.range 128).filter fun k => match n.column k with | .parked _ => true | _ => false).length
  (s.AtHead 15 t e → q = [] → Gives (.ascale t) s fun z => z = s)
    ∧ (∀ a l, s.AtHead 15 t e → q = a :: l → NodeCompletes (.ascale t) s e (n.setCtx c { x with ts :=
          if a.token.tag.err then 0x7FC00000 else if a.token.tag.nul then x.ts else (fpCell (decodeVal f (a.token.lane (fmtBits f) 0))).value }) 1 [])
    ∧ (s.AtHead 21 t e → NodeCompletes (.bsel t) s e (n.setCtx c
          (if t.km1.getLsbD 2 then { x with base1 := t.boff.toNat, bsf := BitVec.ofNat 2 t.km1.toNat }
           else { x with base0 := t.boff.toNat, bsf := BitVec.ofNat 2 t.km1.toNat })) 0 [])
    ∧ (s.AtHead 22 t e → NodeCompletes (.bflip t) s e (n.setCtx c { x with cb := !x.cb }) 0 [])
    ∧ (s.AtHead 23 t e → NodeCompletes (.bstat t) s e n 0
          [wordsReply e col [x.base0, x.base1, bit x.cb, x.bsf.toNat, owned, parked, n.queue.length - 1, 0]])
    ∧ (s.AtHead 29 t e → NodeCompletes (.aflush t) s e n 0 [wordsReply e col [0]])
    ∧ (s.AtHead 30 t e → NodeCompletes (.async t) s e n 0 [wordsReply e col [0]])
    ∧ (s.AtHead 31 t e → NodeCompletes (.anop t) s e n 0 [])

/-- R19, R191, R197, R199, R200: BLOAD and the columns. -/
def columnTokens : Prop := ∀ (s : State) (t : MxWord) (e : Entry),
  let c := e.tag.ctx
  let n := s.hereNode
  let tile := s.focus.tile
  let q := n.fifo e.elem
  let f := t.fmt.toNat
  let x := n.ctxRegs c
  let w0 := (if xor x.cb t.acc then x.base1 else x.base0) + t.boff.toNat
  let words := (t.k * fmtBits f + 31) / 32
  let within (k : Nat) := t.col0.toNat ≤ k ∧ k < t.col0.toNat + t.n
  let clean := ∀ k, within k → n.column k = .free ∨ n.column k = .owned c
  -- the columns given to the context, those that were free cleared
  let given (m : Node) := (∀ k, m.column k = if within k then .owned c else n.column k)
    ∧ (∀ r k, k < 128 → m.cell r k = if within k ∧ n.column k = .free then {} else n.cell r k)
    ∧ ({ m with cells := n.cells, cols := n.cols } : Node) = n
  (s.AtHead 20 t e → 3072 < w0 + words → NodeStops (.bload t) s e 0x01 0 0)
    ∧ (s.AtHead 20 t e → w0 + words ≤ 3072 → Owns n t c → takeVectors q t.k t.n = none → Gives (.bload t) s fun z => z = s)
    ∧ (∀ vs i, s.AtHead 20 t e → w0 + words ≤ 3072 → Owns n t c → takeVectors q t.k t.n = some vs → State.loadLanes f vs t.n = .error i →
        NodeStops (.bload t) s e 0x01 0 i)
    ∧ (∀ vs rows, s.AtHead 20 t e → w0 + words ≤ 3072 → Owns n t c → takeVectors q t.k t.n = some vs → State.loadLanes f vs t.n = .ok rows →
        let u := rows.zipIdx.foldl (fun s r => r.1.zipIdx.foldl (fun s l =>
          match l.1 with | some p => s.bWrite c.toNat tile (t.col0.toNat + l.2) w0 (fmtBits f) r.2 p | none => s) s) s
        Gives (.bload t) s fun z => NodeCompleted u z e n ((vs.map List.length).foldl (· + ·) 0) []
          ∧ ∀ sp, sp ≠ .overlay tile → (z.store sp).bytes = (s.store sp).bytes)
    ∧ (∀ k d, s.AtHead 24 t e → within k → n.column k = .owned d → d ≠ c → (∀ j, t.col0.toNat ≤ j → j < k → ∀ d, n.column j = .owned d → d = c) →
        NodeStops (.calloc t) s e 0x06 k 0)
    ∧ (s.AtHead 24 t e → clean → ∃ m, given m ∧ NodeCompletes (.calloc t) s e m 0 [])
    ∧ (s.AtHead 25 t e → Owns n t c → ∃ m, (∀ k, m.column k = if within k then .free else n.column k) ∧ ({ m with cols := n.cols } : Node) = n
        ∧ NodeCompletes (.cfree t) s e m 0 [])
    ∧ (∀ i ∈ [(Instr.cpark t, 26), (.cfetch t, 27)], s.AtHead i.2 t e → q = [] → Gives i.1 s fun z => z = s)
    ∧ (∀ i ∈ [(Instr.cpark t, 26), (.cfetch t, 27)], ∀ a l, s.AtHead i.2 t e → q = a :: l → a.token.lane 64 0 % 128 ≠ 0 →
        NodeStops i.1 s e 0x03 (a.token.lane 64 0) 1)
    ∧ (∀ a l, q = a :: l → a.token.lane 64 0 % 128 = 0 →
        (s.AtHead 26 t e → Owns n t c →
            (∀ u, s.moveColumns tile e true t.cols (a.token.lane 64 0) = .ok u → u.absent = none → Gives (.cpark t) s fun z => ∃ m,
                (∀ k, m.column k = if within k then .free else u.hereNode.column k) ∧ ({ m with cols := u.hereNode.cols } : Node) = u.hereNode
                  ∧ NodeCompleted u z e m 1 [])
              ∧ (∀ cause va u, s.moveColumns tile e true t.cols (a.token.lane 64 0) = .error (cause, va, u) → u.absent = none →
                  Gives (.cpark t) s fun z => NodeStopped u z e cause va 1))
          ∧ (s.AtHead 27 t e → clean → ∃ v : State, given v.hereNode ∧ ({ v with nodes := s.nodes } : State) = s ∧ (∀ k, k ≠ tile → v.node k = s.node k) ∧
              (∀ u, v.moveColumns tile e false t.cols (a.token.lane 64 0) = .ok u → u.absent = none →
                  Gives (.cfetch t) s fun z => NodeCompleted u z e u.hereNode 1 [])))

/-- R200: the 384 bytes of a column, as they are written and read. -/
def columnBytes : Prop := ∀ (n : Node) (k : Nat), k < 128 →
  let x := State.columnNat n k
  (∀ r < 64, x / 2 ^ (32 * r) % 2 ^ 32 = (n.cell r k).value.toNat
      ∧ x / 2 ^ (2048 + 16 * r) % 2 ^ 16 = 2 ^ 15 * bit (n.cell r k).err + 2 ^ 12 * (n.cell r k).orig.toNat + (n.cell r k).oitr.toNat)
    ∧ ∀ m : Node, ∀ r < 64, (State.columnOfNat m k x).cell r k = n.cell r k

end Sys2Proof.Claims

/-- Malformed control tokens and columns of another context. A malformed token stops the node with cause 0x01 and a token of a region with a
column that its context does not own with 0x06 and the first such column; no cell changes. A node that has stopped or has an empty queue does
nothing. (R56, R187, R201) -/
def Obligations.MatrixChecks : Prop :=
  Sys2Proof.Claims.malformedTokens ∧ Sys2Proof.Claims.foreignColumns

/-- MMA to MMAF, MMAX, RDOT and RDOTX. A well-formed multiply token whose columns its context owns and whose vectors have arrived completes: each
cell of its region takes the sum of the products of its row and column, added to the old cell with ACC = 1, and the other cells are unchanged; one
whose vectors have not arrived waits. (R148, R149, R189, R190, R191, R193, R194, R195) -/
def Obligations.Multiplication : Prop :=
  Sys2Proof.Claims.multiplyTokens ∧ Sys2Proof.Claims.integerCells ∧ Sys2Proof.Claims.dotTokens

/-- ACLR, AREAD, AWRITE, ASCALE, ACVT, ABIAS, AACT, ATRN and AERRQ. Each operation on the accumulator completes with the cells and the replies
that its row of R197 gives, or waits for its vectors. (R197, R198) -/
def Obligations.AccumulatorTokens : Prop :=
  Sys2Proof.Claims.accumulatorTokens

/-- BSEL, BFLIP, BSTAT, AFLUSH, ASYNC, ANOP, BLOAD, CALLOC, CFREE, CPARK and CFETCH. The bank, status and synchronising tokens complete with their
registers and replies; BLOAD fills the bank; the column tokens take, free, park and fetch columns, whose 384 bytes are written and read as R200
lays them out. (R19, R197, R199, R200) -/
def Obligations.BanksAndColumns : Prop :=
  Sys2Proof.Claims.bankTokens ∧ Sys2Proof.Claims.columnTokens ∧ Sys2Proof.Claims.columnBytes

/-! # Events of the module and the host -/

namespace Sys2Proof.Claims

/-- What start-up leaves, R399: every memory and register of the module as reset leaves it; of a die, the tiles that have not failed are
exposed in ascending order, up to 160, the rest are spares, and RR is set when some die exposes fewer than 160. What the host and other
modules hold is kept. -/
def FromReset (s t : State) : Prop :=
  ({ t with tiles := [], mgmt := [], fresh := 0 } : State)
      = { host := s.host, peers := s.peers, turns := s.turns, module := { devkey := s.module.devkey } }
    ∧ ∀ d < 4, let m := t.mgmtOf d
      let good := ((List.range 168).filter fun p => !m.retired.contains p).length
      (∀ p ∈ (s.mgmtOf d).retired, p ∈ m.retired)
        ∧ m.exposed = min 160 good ∧ m.spare = good - 160 ∧ m.ready = false
        ∧ (m.rr = true ↔ ∃ e < 4, (t.mgmtOf e).exposed < 160)
        ∧ (∀ i < m.exposed, t.tile (State.dieTile d i) = {})
        ∧ ∀ i, m.exposed ≤ i → i < 160 → (t.tile (State.dieTile d i)).exposed = false ∧ ∀ n, ((t.tile (State.dieTile d i)).task n).state = .free

/-- R399: power-on, and a host write of MRESET.GO, start the start-up path; READY is set at its end, once, and announced. -/
def startingUp : Prop := ∀ s : State,
  Gives .powerOn s (FromReset s)
    ∧ (s.hostDown = false → s.powered = true → Gives .mreset s (FromReset s))
    ∧ (s.hostDown = true ∨ s.powered = false → Gives .mreset s fun t => t = s)
    ∧ (s.powered = true → (s.mgmtOf 0).ready = false → Gives .startUpComplete s fun t => ∃ u : State,
        t = u.message 0 0 s.module.devkey.toNat ∧ ({ u with mgmt := s.mgmt } : State) = s
          ∧ ∀ d < 4, u.mgmtOf d = { s.mgmtOf d with ready := true })
    ∧ (s.powered = false ∨ (s.mgmtOf 0).ready = true → Gives .startUpComplete s fun t => t = s)

/-- R405: power above the limit sets PCAP on every die, and 100 °C sets THR on its die; both end with the condition. At 110 °C every
Surveyor halts; then power is removed, and memory contents are lost. Each but the last is announced (R404). -/
def powerAndHeat : Prop := ∀ (s : State) (d p : Nat), d < 4 → p < 65536 →
  let limit := max 0x2580 (min 0x4B00 s.module.plim.toNat)
  (limit < p → Gives (.thermalThrottle d p) s fun t => ∃ u : State, t = u.message 2 d (s.mgmtOf d).temp.toNat
      ∧ ({ u with mgmt := s.mgmt } : State) = { s with module := { s.module with power := BitVec.ofNat 16 p } }
      ∧ ∀ e < 4, u.mgmtOf e = { s.mgmtOf e with pcap := true })
    ∧ (p ≤ limit → Gives (.thermalThrottle d p) s fun t => ∃ u : State, t = u.message 2 d (u.mgmtOf d).temp.toNat
      ∧ ({ u with mgmt := s.mgmt, fresh := s.fresh } : State) = s ∧ 100 ≤ (u.mgmtOf d).temp.toNat % 256
      ∧ u.mgmtOf d = { s.mgmtOf d with thr := true, temp := (u.mgmtOf d).temp } ∧ ∀ e, e ≠ d → u.mgmtOf e = s.mgmtOf e)
    ∧ ((s.mgmtOf d).thr = true ∨ (s.mgmtOf d).pcap = true → Gives (.thermalThrottleLeft d) s fun t => ∃ u : State,
        t = u.message 2 d (u.mgmtOf d).temp.toNat ∧ (u.mgmtOf d).thr = false ∧ (∀ e < 4, (u.mgmtOf e).pcap = false)
          ∧ (∀ e, e ≠ d → (u.mgmtOf e).thr = (s.mgmtOf e).thr) ∧ u.module.power.toNat ≤ limit ∧ (u.mgmtOf d).temp.toNat % 256 < 100
          ∧ ({ u with mgmt := s.mgmt, module := s.module, fresh := s.fresh } : State) = s)
    ∧ Gives (.thermalShutdown d) s (fun t => ∃ u : State, t = u.message 3 d (u.mgmtOf d).temp.toNat ∧ u.shutdown = true
        ∧ (∀ i < 640, u.tile i = { s.tile i with halted := true }) ∧ 110 ≤ (u.mgmtOf d).temp.toNat % 256
        ∧ ({ u with tiles := s.tiles, mgmt := s.mgmt, fresh := s.fresh, shutdown := s.shutdown } : State) = s)
    ∧ (s.shutdown = true → Gives .powerRemoval s fun t =>
        ({ t with tiles := [], mgmt := [], fresh := s.fresh } : State)
            = { host := s.host, peers := s.peers, fresh := s.fresh, turns := s.turns, powered := false, module := { devkey := s.module.devkey } }
          ∧ ∀ i < 640, (t.tile i).halted = true ∧ ∀ n, ((t.tile i).task n).state = .free)
    ∧ (s.shutdown = false → Gives .powerRemoval s fun t => t = s)

/-- R404: a message is written to the ring that MSGRING describes, at TAIL, and TAIL goes up; while the ring is closed (EN = 0, or it is
full) it is not written and DROP goes up, and the same where its page cannot be reached (the model's choice). SEQ counts both. -/
def messages : Prop := ∀ (s : State) (kind d val : Nat),
  let r := s.module.msgring
  let img := val % 2 ^ 64 + kind * 2 ^ 64 + d * 2 ^ 72 + s.module.msgseq.toNat * 2 ^ 96
  (ringOn r = false ∨ ringOpen r = false ∨ s.ringWrite 0 r 16 img = none → s.message kind d val
      = { s with module := { s.module with msgring := ringDrop r, msgseq := s.module.msgseq + 1 } })
    ∧ ∀ u, ringOn r = true → ringOpen r = true → s.ringWrite 0 r 16 img = some u → s.message kind d val
      = { u with module := { u.module with msgring := ringNext r, msgseq := u.module.msgseq + 1 } }

/-- The fields of a ring register that a host write of `v` leaves, R332, R369 and R404: HEAD, BASE, EN and LN are written, TAIL and
DROP are kept. -/
def RingWritten (r r' : BitVec 128) (v : Nat) : Prop :=
  ringHead r' = v / 2 ^ 96 % 2 ^ 32 ∧ ringTail r' = ringTail r ∧ r'.extractLsb' 56 8 = r.extractLsb' 56 8
    ∧ ringBase r' = v / 4096 % 2 ^ 44 * 4096 ∧ (r'.extractLsb' 0 6).toNat = v % 64

/-- What a host write of each register of the management window does while the link is up, R401, R402, R224, R332, R339, R369 and R404;
while it is down, or without power, nothing. -/
def managementWrites : Prop := ∀ (s : State) (d c e v : Nat), d < 4 → e < 2 →
  (s.hostDown = true ∨ s.powered = false →
      ∀ i ∈ [Instr.trootWrite c v, .qdescWrite d e v, .egringWrite d v, .fltringWrite d v, .msgringWrite v, .ddctlWrite d e v, .haltrel d v,
        .devstatRrClear d, .managementRegisterWrite d c v], Gives i s fun t => t = s)
    ∧ (s.hostDown = false → s.powered = true →
      (∀ h : c < 4, Gives (.trootWrite c v) s fun t => t = { s with troot := s.troot.set c ⟨BitVec.ofNat 42 (v / 2 ^ 14), v.testBit 0⟩ })
        ∧ Gives (.egringWrite d v) s (fun t => ({ t with mgmt := s.mgmt } : State) = s ∧ (∀ x, x ≠ d → t.mgmtOf x = s.mgmtOf x)
            ∧ t.mgmtOf d = { s.mgmtOf d with egring := (t.mgmtOf d).egring } ∧ RingWritten (s.mgmtOf d).egring (t.mgmtOf d).egring v)
        ∧ Gives (.fltringWrite d v) s (fun t => ({ t with mgmt := s.mgmt } : State) = s ∧ (∀ x, x ≠ d → t.mgmtOf x = s.mgmtOf x)
            ∧ t.mgmtOf d = { s.mgmtOf d with fltring := (t.mgmtOf d).fltring } ∧ RingWritten (s.mgmtOf d).fltring (t.mgmtOf d).fltring v)
        ∧ Gives (.msgringWrite v) s (fun t => t = { s with module := { s.module with msgring := t.module.msgring } }
            ∧ RingWritten s.module.msgring t.module.msgring v)
        ∧ Gives (.ddctlWrite d e v) s (fun t => ({ t with dd := s.dd } : State) = s
            ∧ (∀ k, k ≠ 2 * d + e → SMap.getD t.dd k {} = SMap.getD s.dd k {})
            ∧ SMap.getD t.dd (2 * d + e) {}
              = { SMap.getD s.dd (2 * d + e) {} with gzth := BitVec.ofNat 24 (v / 2 ^ 32), ctxm := BitVec.ofNat 4 v })
        ∧ Gives (.haltrel d v) s (fun t =>
            let u := State.dieTile d (v % 256)
            if v % 256 < 160 ∧ (s.tile u).halted = true then
              t.tile u = { s.tile u with halted := false } ∧ (∀ w, w ≠ u → t.tile w = s.tile w)
                ∧ t.mgmtOf d = { s.mgmtOf d with haltrel := BitVec.ofNat 8 v } ∧ ({ t with tiles := s.tiles, mgmt := s.mgmt } : State) = s
            else t = s)
        ∧ Gives (.devstatRrClear d) s (fun t => ({ t with mgmt := s.mgmt } : State) = s ∧ (∀ x, x ≠ d → t.mgmtOf x = s.mgmtOf x)
            ∧ t.mgmtOf d = { s.mgmtOf d with rr := false })
        ∧ Gives (.managementRegisterWrite d c v) s fun t => t = { s with module :=
            if d = 0 ∧ c = 0x10 then { s.module with plim := BitVec.ofNat 16 v }
            else if d = 0 ∧ c = 0x38 then { s.module with lockbase := BitVec.ofNat 41 (v / 2 ^ 15) } else s.module })

/-- R385: the fields of a queue descriptor after a write of its TAIL: a tail that more records than the ring holds would precede is
ignored and counted in BAD. -/
def TailWritten (q q' : BitVec 128) (v : Nat) : Prop :=
  let late := qdRecords q < (v + 2 ^ 32 - qdPull q) % 2 ^ 32
  qdPull q' = qdPull q ∧ qdBase q' = qdBase q ∧ q'.extractLsb' 0 9 = q.extractLsb' 0 9
    ∧ qdTail q' = (if late then qdTail q else v % 2 ^ 32) ∧ qdBad q' = (if late then min 255 (qdBad q + 1) else qdBad q)

/-- R384–R387: the write of a queue's tail, by the host over its link, or by another module over a plane to a queue with RQ = 1 and EN = 1; and
that of the whole of its descriptor by the host. -/
def queueWrites : Prop := ∀ (s : State) (d q v : Nat),
  (∀ remote : Bool,
      let comes := s.powered = true ∧ if remote then s.planesDown.length < 36 ∧ qdRemote (s.queue d q) = true ∧ qdOn (s.queue d q) = true
        else s.hostDown = false
      let w : TailWrite := if remote then .module v else .host v
      (comes → Gives (.queueTailWrite d q w) s fun t =>
          ({ t with mgmt := s.mgmt } : State) = s ∧ (∀ e p, (e, p) ≠ (d, q) → t.queue e p = s.queue e p)
            ∧ TailWritten (s.queue d q) (t.queue d q) v)
        ∧ (¬ comes → Gives (.queueTailWrite d q w) s fun t => t = s))
    ∧ (s.hostDown = false → s.powered = true → Gives (.qdescWrite d q v) s fun t =>
      ({ t with mgmt := s.mgmt } : State) = s ∧ (∀ e p, (e, p) ≠ (d, q) → t.queue e p = s.queue e p)
        ∧ ∃ r, qdPull r = qdPull (s.queue d q) ∧ qdBad r = qdBad (s.queue d q) ∧ qdTail r = qdTail (s.queue d q)
          ∧ qdBase r = v / 4096 % 2 ^ 44 * 4096 ∧ (r.extractLsb' 0 9).toNat = v % 512
          ∧ TailWritten r (t.queue d q) (v / 2 ^ 96 % 2 ^ 32))

/-- R290, R400: over the link the host writes device memory, lowest byte first; bytes beyond it are discarded. A read brings the lines that
elements own back to memory and corrects what the codes can correct. -/
def hostAccesses : Prop := ∀ (s : State) (a : Nat) (bs : List Byte), s.hostDown = false → s.powered = true →
  let n := min bs.length (2 ^ 39 - 2 ^ 31 - a)
  let h := s.callBack none .hbm a n
  Gives (.hostMemoryWrite a bs) s (fun t => t.focus = s.focus ∧ ∀ sp b, Memory.read (t.store sp).bytes b
      = if sp = .hbm ∧ a ≤ b ∧ b < a + n then bs.getD (b - a) 0 else Memory.read (h.store sp).bytes b)
    ∧ ∀ k, let m := min k (2 ^ 39 - 2 ^ 31 - a)
      Gives (.hostMemoryRead a k) s (fun t => Corrected (s.callBack none .hbm a m) t .hbm a m)

/-- R384, R386: a flit sent again changes nothing; a link or a plane that goes down is recorded and announced. -/
def linksAndPlanes : Prop := ∀ (s : State) (k : Nat),
  Gives (.linkFlitResend k) s (fun t => t = s)
    ∧ Gives (.linkDown k) s (fun t => ∃ (u : State) (d v : Nat), d < 4 ∧ t = u.message 4 d v
        ∧ u = { s with hostDown := true, fresh := u.fresh })
    ∧ (k ∉ s.planesDown → Gives (.planeDown k) s fun t => ∃ (u : State) (d : Nat), d < 4 ∧ t = u.message 4 d k
        ∧ (∀ p, p ∈ u.planesDown ↔ p = k ∨ p ∈ s.planesDown) ∧ ({ u with planesDown := s.planesDown, fresh := s.fresh } : State) = s)
    ∧ (k ∈ s.planesDown → Gives (.planeDown k) s fun t => t = s)

/-- R377, R378: the scrubber writes correctable words of a sector back corrected, changes no byte, and marks a sector of device memory, a local
memory or an overlay that holds an uncorrectable error. -/
def scrubbing : Prop := ∀ (s : State) (sp : Space) (a : Nat),
  Gives (.patrolScrub sp a) s fun t =>
    let u := a / 32
    SameBytes s t ∧ (∀ sp', sp' ≠ sp → t.store sp' = s.store sp')
      ∧ (∀ w, w ∈ (t.store sp).weakEcc ↔ w ∈ (s.store sp).weakEcc ∧ w / 4 ≠ u)
      ∧ let bad := (∀ k, sp ≠ .dataStore k ∧ sp ≠ .instrStore k) ∧ ∃ w ∈ (s.store sp).badEcc, w / 4 = u
        (∀ p, p ∈ (t.store sp).poison ↔ p ∈ (s.store sp).poison ∨ bad ∧ p = u)
          ∧ ∀ w, w ∈ (t.store sp).badEcc ↔ w ∈ (s.store sp).badEcc ∧ (bad → w / 4 ≠ u)

end Sys2Proof.Claims

/-- POWER_ON, MRESET, START_UP_COMPLETE, throttling, shutdown and power removal. POWER_ON and MRESET leave every memory and register as reset
leaves it and expose the sound tiles; the end of start-up sets READY once and announces it; throttling sets and clears PCAP and THR; a shutdown
halts every Surveyor and power removal loses the memories. (R399, R403, R404, R405) -/
def Obligations.StartUpAndPower : Prop :=
  Sys2Proof.Claims.startingUp ∧ Sys2Proof.Claims.powerAndHeat

/-- What the host writes and reads. Each host write of a management register or a queue changes the fields of its rule and nothing else, a host
write of device memory writes its bytes, and while the link is down or the module is without power none does anything; messages enter their ring
while it is open. (R224, R290, R332, R339, R369, R385, R400, R401, R402, R404) -/
def Obligations.HostAccesses : Prop :=
  Sys2Proof.Claims.messages ∧ Sys2Proof.Claims.managementWrites ∧ Sys2Proof.Claims.queueWrites ∧ Sys2Proof.Claims.hostAccesses

/-- Links, planes and the scrubber. A flit sent again changes nothing; a link or plane that goes down is recorded and announced; the scrubber
corrects the words of a sector, changes no byte and marks a sector with an uncorrectable error. (R377, R378, R384, R386, R404) -/
def Obligations.LinksAndScrubbing : Prop :=
  Sys2Proof.Claims.linksAndPlanes ∧ Sys2Proof.Claims.scrubbing

/-! # Events of the core, the fabric and memory -/

namespace Sys2Proof.Claims

/-! ## The core and its tasks -/

/-- `n` is the READY task of `T` that R17 selects: no other is of a context of higher PRIO, or of equal PRIO and READY as long. -/
def Selected (T : Tile) (n : Nat) : Prop :=
  n < 32 ∧ (T.task n).state = .ready ∧ ∀ m < 32, m ≠ n → (T.task m).state = .ready →
    let p := (T.ctx (T.task m).ctx.toNat).prio.toNat
    let q := (T.ctx (T.task n).ctx.toNat).prio.toNat
    p < q ∨ (p = q ∧ (T.task n).readySeq < (T.task m).readySeq)

/-- Task `v` occupies bank `b`, is not in RUN, and left RUN longer ago than every other such task, R18 step 2. -/
def Oldest (T : Tile) (v b : Nat) : Prop :=
  let idle (m : Nat) : Prop := m < 32 ∧ (T.task m).state ≠ .run ∧ (T.task m).state ≠ .free
  idle v ∧ (T.task v).place = .bank b ∧ ∀ m, m ≠ v → idle m → (∃ k, (T.task m).place = .bank k) → (T.task v).leftSeq < (T.task m).leftSeq

/-- Task `n` of tile `t` runs in bank `b`, and the tasks that `other` does not name are as before. -/
def Runs (s z : State) (t n b : Nat) (other : Nat → Prop) : Prop :=
  (z.tile t).task n = { (s.tile t).task n with state := .run, waiting := .nothing, place := .bank b }
    ∧ (∀ m, m ≠ n → ¬ other m → (z.tile t).task m = (s.tile t).task m) ∧ (∀ u, u ≠ t → z.tile u = s.tile u) ∧ z.absent = none

/-- R17, R18: the free core runs the READY task that R17 selects, in its bank, in a free one, or in that of the task that left RUN longest ago,
whose registers go to a free column of the node. Where no bank comes free PSTALL is set, and it stays until a bank can be had. Else the core
stays as it is. -/
def selection : Prop := ∀ (s : State) (t n : Nat), s.absent = none →
  let T := s.tile t
  ((T.halted = true ∨ (∃ m < 32, (T.task m).state = .run) ∨ ∀ m < 32, (T.task m).state ≠ .ready) → Gives (.taskSelect t) s fun z => z = s)
    ∧ (T.pstall = false ∨ s.bankReady t = false → Gives (.bankFreed t) s fun z => z = s)
    ∧ (∀ v b, T.halted = false → (∀ m < 32, (T.task m).state ≠ .run) → Selected T n → (T.task n).place = .none → T.freeBank = none → Oldest T v b →
        (s.node t).freeColumn [] = none → (T.ctx (T.task v).ctx.toNat).area = 0 → Gives (.taskSelect t) s fun z =>
          z.tile t = { T with pstall := true } ∧ ∀ u, u ≠ t → z.tile u = s.tile u)
    ∧ (T.halted = false → (∀ m < 32, (T.task m).state ≠ .run) → Selected T n →
        ∀ i, i = Instr.taskSelect t ∨ (i = .bankFreed t ∧ T.pstall = true ∧ s.bankReady t = true) →
          (∀ b, (T.task n).place = .bank b → Gives i s fun z =>
              Runs s z t n b (fun _ => False) ∧ (i = .taskSelect t → (z.tile t).pstall = T.pstall))
            ∧ (∀ b, (T.task n).place = .none → T.freeBank = some b → Gives i s fun z =>
                Runs s z t n b (fun _ => False) ∧ (z.tile t).pstall = false)
            ∧ ∀ b v c, (T.task n).place = .none → T.freeBank = none → Oldest T v b → (s.node t).freeColumn [] = some c →
                Gives i s fun z => Runs s z t n b (· = v) ∧ (z.tile t).pstall = false
                  ∧ (z.tile t).task v = { T.task v with place := .column c } ∧ (z.node t).column c = .parked v)

/-- R15, R16: the beats of the oldest colour at the tile input that is bound to a task enter its channel in their order, after those in it, and
the task becomes READY if it is in WAIT, unless its word has begun in an engine or at a barrier (that reading is the model's own: R266, R178
and R367). -/
def arrivals : Prop := ∀ (s : State) (t c col n : Nat), let T := s.tile t
  (∀ b ∈ T.held, T.binding b.tag.ctx.toNat b.tag.col.toNat = none) → Gives (.colourBeatArrival t) s (fun z => ∀ u, z.tile u = s.tile u)
    ∧ ∀ b rest pre, T.held = pre ++ b :: rest → (∀ x ∈ pre, T.binding x.tag.ctx.toNat x.tag.col.toNat = none) →
        b.tag.ctx.toNat = c → b.tag.col.toNat = col → T.binding c col = some n → Gives (.colourBeatArrival t) s fun z =>
          let U := z.tile t
          U.channel c col = T.channel c col ++ T.held.filter (·.onColour c col)
            ∧ U.held = T.held.filter (fun x => !x.onColour c col)
            ∧ ((T.task n).state = .wait → (T.task n).waiting ∉ [.engine, .barrier, .nothing] → (U.task n).state = .ready)
            ∧ (∀ m, (T.task m).state ≠ .wait → U.task m = T.task m) ∧ ∀ u, u ≠ t → z.tile u = s.tile u

/-- R125: a Surveyor with no READY task and a free bank takes the task that has been READY longest, stealable and with no colour, from the
first tile of its quad in R125's order that has one. The task moves with all that it holds, and its stores in flight with it (R275). -/
def stealing : Prop := ∀ (s : State) (t b m u n c : Nat), s.absent = none →
  let T := s.tile t
  let k := (s.tile u).task n
  T.halted = false → (∀ i < 32, (T.task i).state ≠ .ready) → T.freeBank = some b → T.freeTask = some m →
  c < 4 → s.stealFrom t c = some (u, n) → (∀ d < c, s.stealFrom t d = none) → (k.place = .none ∨ ∃ a, k.place = .bank a) →
  u ∈ s.victims t c ∧ k.state = .ready ∧ k.stealable = true ∧ k.ctx.toNat = c ∧ (∀ d < 4, (s.tile u).coloursOf d n = [])
    ∧ (∀ j < 32, State.mayMove (s.tile u) j = true → ((s.tile u).task j).ctx.toNat = c → k.readySeq ≤ ((s.tile u).task j).readySeq)
    ∧ Gives (.workSteal t) s fun z =>
        (z.tile t).task m = { k with place := .bank b, state := .ready, waiting := .nothing, readySeq := T.seq }
          ∧ ((z.tile u).task n).state = .free ∧ (∀ j, j ≠ m → (z.tile t).task j = T.task j)
          ∧ (∀ j, j ≠ n → (z.tile u).task j = (s.tile u).task j) ∧ (∀ w, w ≠ t → w ≠ u → z.tile w = s.tile w)
          ∧ z.inflight = s.inflight.map fun f => if f.agent = taskAgent u n then { f with agent := taskAgent t m } else f

/-- R126: a tile with no work left for its launch completes for it, and triggers if it has not; once every tile has, the launch completes and its
tiles are free for the context. -/
def tileCompletions : Prop := ∀ (s : State) (t c n : Nat) (l : Launch), s.lidOf t c = some n → s.launch n = some l →
  let ts := State.rectangle l.ox l.oy l.info.w l.info.h
  (s.tileQuiet t c = false ∨ t ∈ l.ended ∨ l.saving = true → Gives (.tileCompletion t c) s fun z => z = s)
    ∧ (s.tileQuiet t c = true → t ∉ l.ended → l.saving = false → l.info.ctx = c → Gives (.tileCompletion t c) s fun z =>
        if ∀ u ∈ ts, u = t ∨ u ∈ l.ended then
          (∃ l', z.launch n = some l' ∧ l'.phase = .done ∧ l'.trig = true) ∧ ∀ u ∈ ts, s.lidOf u c = some n → z.lidOf u c = none
        else ((z.tile t).ctx c).compl = true ∧ ((z.tile t).ctx c).trig = true ∧ ∃ l', z.launch n = some l' ∧ t ∈ l'.ended)

/-! ## Beats -/

/-- The token of the one beat `b` in operand slot `r` of slot `n`, under the header latched for its colour, R52. -/
def State.arriving (s : State) (g c n r : Nat) (b : Beat) : Operand :=
  { slot := n, which := r, token := ⟨{ b.tag with last := true }, [b.data]⟩, whole := true, seq := (s.elem g).seq,
    hdr := SMap.get? (s.ectx g c).headers b.tag.col.toNat }

/-- The head beat `b` of a source has left it, for a slot operand that it fills; a CHWR that it held goes on, R175 and R177. -/
def Entered (s z : State) (g src c col n r : Nat) (b : Beat) (rest : List Beat) : Prop :=
  let x := s.ectx g c
  let o := State.arriving s g c n r b
  z.ectx g c = { x with operands := x.operands ++ [{ o with entries := if State.completes x c n r o then 0 else 1 }] }
    ∧ (∀ h d, d < 4 → (h, d) ≠ (g, c) → z.ectx h d = s.ectx h d)
    ∧ z.source g src c col = { s.source g src c col with beats := rest, taken := [], inside := false }
    ∧ (src = 5 → ∀ m < 32, ((s.tile (gidTile g)).task m).held = some (colourKey c col) → ((z.tile (gidTile g)).task m).held = none)

/-- R110, R151, R175: a token of one beat, offered by its source to one operand slot that accepts its colour and has room, enters that slot
and leaves the source. A header word of R52 is latched for its colour instead. A beat that nothing accepts stays. -/
def offers : Prop := ∀ (s : State) (g src c col n r : Nat) (b : Beat) (rest : List Beat), s.absent = none → c < 4 → src < 8 →
  let x := s.ectx g c
  let l := s.source g src c col
  ∀ i, i = Instr.tokenArrival g src c col ∨ (i = .tileBusDownwardAccept (gidTile g) c col ∧ src = 5 ∧ rest = []) →
  l.beats = b :: rest → l.taken = [] → s.inForce g c = true → s.drained g src c col = false →
    (s.takers g src c col = [] → Gives i s fun z => z = s)
      ∧ (State.acceptors x src col = [(n, r)] → s.takers g src c col = [State.takerKey g src (2 * n + r)] →
          (b.tag.isHeader = false → b.tag.last = true → (∀ o ∈ x.operands, o.slot = n → o.which = r → o.whole = true) →
            SMap.get? s.spawned (s.spawnKey (gidTile g) c b.tag.frm) = none →
            (State.completes x c n r (State.arriving s g c n r b) = true ∨ State.entriesUsed x + 1 ≤ x.allot) → Gives i s fun z => Entered s z g src c col n r b rest)
          ∧ (b.tag.isHeader = true → Gives i s fun z =>
              SMap.get? (z.ectx g c).headers col = some (headerOf b.data (x.entry col).sfmt)
                ∧ z.ectx g c = { x with headers := (z.ectx g c).headers } ∧ (z.source g src c col).beats = rest))

/-- R111, R112: the oldest spilled record of an element's context comes back into the matching store once an entry has room for it, and its
position of the ring is free. -/
def takeBacks : Prop := ∀ (s : State) (g c n : Nat) (o : Operand) (l : Launch) (u : State),
  let x := s.ectx g c
  State.oldestSpilled x = some o → s.lidOf (gidTile g) c = some n → s.launch n = some l → s.inForce g c = true →
  s.absent = none →
  (x.allot < State.entriesUsed x + 1 → Gives (.spilledRecordTakeBack g c) s fun z => z = s)
    ∧ (State.entriesUsed x + 1 ≤ x.allot → s.ringBad g c l (o.spilled.take 1) = (none, u) → u.absent = none →
        Gives (.spilledRecordTakeBack g c) s fun z =>
          (z.ectx g c).operands
              = x.operands.map (fun p => if p.seq = o.seq then { p with spilled := o.spilled.drop 1, entries := o.entries + 1 } else p)
            ∧ ∃ l', z.launch n = some l' ∧ ∀ q, q ∈ l'.held ↔ q ∈ l.held ∧ ∀ k ∈ o.spilled.take 1, q ≠ k % State.ringSize l)

/-- R113 step 2: after 1,024 cycles of its tile in which its context has held no spilled record, a source of a loop doubles its effective
depth, up to its depth. -/
def recoveries : Prop := ∀ (s : State) (g c n : Nat) (l : Launch),
  s.launchAt (gidTile g) c = some l → let cyc := (s.tile (gidTile g)).cycle
  let x := s.ectx g c
  let calm := ∃ t, SMap.get? x.throttles n = some t ∧ 1024 ≤ (cyc - t.calm).toNat
  s.absent = none →
  (l.held ≠ [] ∨ ¬ calm → Gives (.throttleRecovery g c n) s fun z => ∀ h d, z.ectx h d = s.ectx h d)
    ∧ (l.held = [] → calm → c < 4 → Gives (.throttleRecovery g c n) s fun z =>
        let y := z.ectx g c
        ({ z with ectxs := s.ectxs } : State) = s ∧ ({ y with throttles := x.throttles } : ElemCtx) = x
          ∧ y.eff n = min (x.depth n) (2 * x.eff n) ∧ (∀ k, k ≠ n → y.eff k = x.eff k)
          ∧ ∀ t, SMap.get? y.throttles n = some t → t.calm = cyc)

/-- Token `t` has left slot `n` by `dst`: its beats have joined the edges of its ports, or it has filled the latch of the slot, R44 and R173. -/
def Left (u z : State) (g c n : Nat) (dst : BitVec 4) (t : Token) : Prop :=
  (dst ≠ 0 → ∀ d col p, d < 4 → col < 32 → p < 4 → z.edge g d col p
      = if d = c ∧ col = t.tag.col.toNat ∧ p ∈ (u.elem g).resultPorts c t.tag.col.toNat dst then
          { u.edge g d col p with beats := (u.edge g d col p).beats ++ t.toBeats } else u.edge g d col p)
    ∧ (dst = 0 → ∃ q, SMap.get? (z.ectx g c).latches (n % 4) = some ⟨t, q, [], SMap.get? (u.ectx g c).headers t.tag.col.toNat⟩)

/-- R114, R115, R168: a running loop emits its next iteration token, the start token's data with the iteration in ITR, while the iteration lies
within the effective depth above the lowest live one; when no more start and none is live, the LOOPE in the next slot emits the start token. -/
def iterations : Prop := ∀ (s : State) (g c n : Nat) (l : Loop),
  let x := s.ectx g c
  x.loop n = some l → l.running = true → s.inForce g c = true → x.stopped = false → x.bad = false →
    (l.next < l.bound → (∀ k, l.stop = some k → l.next ≤ k) →
      (∀ k, s.launchAt (gidTile g) c = some k → State.ringRoom k 1 = true ∧ k.saving = false ∧ k.moving = false) →
      l.next < l.lowest + x.eff n →
      let t : Token := ⟨{ l.start.tag with col := l.w.col, itr := BitVec.ofNat 12 l.next, last := true }, l.start.beats⟩
      s.room g c n l.w.dst l.w.dst t = true → Gives (.loopIterationIssue g c n) s fun z =>
        (z.ectx g c).loop n = some { l with next := l.next + 1, live := l.live ++ [l.next] } ∧ Left s z g c n l.w.dst t)
    ∧ (l.next ≥ l.bound ∨ (∃ k, l.stop = some k ∧ k < l.next) → l.live = [] →
      let r := x.slot (n + 1)
      let t : Token := ⟨{ l.start.tag with col := r.col, last := true }, l.start.beats⟩
      s.room g c (n + 1) r.dst r.dst t = true → Gives (.loopIterationIssue g c n) s fun z =>
        (z.ectx g c).loop n = some { l with running := false } ∧ Left s z g c (n + 1) r.dst t)

/-- Entry `e`, holding `v`, comes before entry `k`, holding `w`, at a port that both want, R172 and R183: its context has the higher PRIO, or the
same, and it has waited longer, or as long, and its number is lower. -/
def Precedes (s : State) (g e : Nat) (v : BitVec 16) (k : Nat) (w : BitVec 16) : Prop :=
  let prio (z : BitVec 16) : Nat := ((s.tile (gidTile g)).ctx (swCtx z)).prio.toNat
  let longer := ∃ pre post, (s.elem g).asked = pre ++ e :: post ∧ e ∉ pre ∧ k ∉ pre
  let shorter := ∃ pre post, (s.elem g).asked = pre ++ k :: post ∧ e ∉ pre ∧ k ∉ pre
  prio w < prio v ∨ (prio v = prio w ∧ (longer ∨ (¬ shorter ∧ e < k)))

/-- Entry `e` has a beat that it could pass now, and comes before entry `k` at a port of both. -/
def Outranks (s : State) (g k : Nat) (w : BitVec 16) : Prop := ∃ e v b, (e, v) ∈ (s.elem g).switch ∧ e ≠ k
  ∧ (∃ p, p ∈ maskPorts (swTo v) ∧ p ∈ maskPorts (swTo w)) ∧ s.offered g e v = some b ∧ s.portsFree g e v = true ∧ Precedes s g e v k w

/-- R109, R172, R183: an enabled switch entry passes the head beat of its source on all its ports at once, when each has room, carries no token
of another entry or result, and no entry that could pass its own beat comes before it; a port belongs to the entry until the LAST beat. The beat
leaves the source when everything that accepts it has taken it. An entry that must wait keeps its place among those that wait. -/
def forwards : Prop := ∀ (s : State) (g k : Nat) (w : BitVec 16) (b : Beat) (rest : List Beat),
  let c := swCtx w
  let col := swCol w
  let src := swFrom w
  let l := s.source g src c col
  let key := State.takerKey g src (32 + k)
  let ports := maskPorts (swTo w)
  SMap.get? (s.elem g).switch k = some w → swEn w = true → src ≠ 4 → s.inForce g c = true → s.drained g src c col = false →
  l.beats = b :: rest → key ∉ l.taken →
  let free := ∀ p ∈ ports, (∀ e, SMap.get? (s.elem g).busy p = some e → e = k)
    ∧ (SMap.get? (s.elem g).busy p = none → State.portHeld (s.elem g) p = false) ∧ (s.edge g c col p).beats.length < (s.edge g c col p).depth
  s.absent = none →
  (free → ¬ Outranks s g k w → Gives (.edgeBeatForward g k) s fun z =>
    (∀ p ∈ ports, z.edge g c col p = { s.edge g c col p with beats := (s.edge g c col p).beats ++ [b] }
        ∧ SMap.get? (z.elem g).busy p = if b.tag.last then none else some k)
      ∧ (z.elem g).asked = (s.elem g).asked.filter (· != k)
      ∧ z.source g src c col
        = if ∀ a ∈ s.takers g src c col, a = key ∨ a ∈ l.taken then { l with beats := rest, taken := [], inside := !b.tag.last }
          else { l with taken := NSet.insert l.taken key })
    ∧ (¬ free ∨ Outranks s g k w → Gives (.edgeBeatForward g k) s fun z =>
        z.elem g = { s.elem g with asked := if k ∈ (s.elem g).asked then (s.elem g).asked else (s.elem g).asked ++ [k] }
          ∧ ∀ h, h ≠ g → z.elem h = s.elem h)

/-- R184: an EDGEDEPTH that its tile holds ends once its edge is empty: the edge takes the new depth where the pool allows it. -/
def depthChanges : Prop := ∀ (s : State) (t n : Nat) (d ra rb : SReg) (k : Taken),
  let x := (s.tile t).task n
  let g := 64 * t + k.a.toNat % 64
  let c := k.a.toNat / 64 % 4
  let col := k.a.toNat / 256 % 32
  let p := k.a.toNat / 8192 % 4
  let m := k.b.toNat % 4096
  n < 32 → x.state = .run → (∀ j < n, ((s.tile t).task j).state ≠ .run) → x.taken = some k → k.word = .edgedepth d ra rb →
    ((s.edge g c col p).beats ≠ [] → Gives (.edgeDepthChange t) s fun z => z = s)
      ∧ ((s.edge g c col p).beats = [] → Gives (.edgeDepthChange t) s fun z =>
          let fits := s.poolUsed t - (s.edge g c col p).depth + m ≤ 2048
          let y := (z.tile t).task n
          y.reg d = (if d = 0 ∨ fits then 0 else 1) ∧ y.pc = x.pc + 4 ∧ y.taken = none ∧ y.state = .run
            ∧ (∀ r, r ≠ d → y.reg r = x.reg r) ∧ (z.edge g c col p).depth = (if fits then m else (s.edge g c col p).depth)
            ∧ z.focus = s.focus ∧ (z.tile t).retired = (s.tile t).retired + 1)

/-- R118: a token at a block's entry is admitted, and its slot fires, when the tile's commit buffer of 512 entries can hold the block's stores; the
instance takes the tag of the token. -/
def admissions : Prop := ∀ (s : State) (g c n : Nat) (b : Block) (F : Firing) (u z : State),
  let w := s.slotWord g c n
  s.blockEntered g c n = some b → (s.focusSlot g c n).Fires (opFields w) (opNum w) F u →
  s.fireSlot g c n = some z → z.absent = none → Gives (.blockAdmission g c n) s (fun y => y = z)
    ∧ ∃ id, u.insts = s.insts ++ [{ id := id, block := b, tile := gidTile g, frm := F.src.frm, thr := F.src.thr, itr := F.src.itr }]
      ∧ s.reserved (gidTile g) + b.stores.length ≤ 512

/-- R119, R287: an instance whose exit token has arrived commits all that it holds as one step, and its requests go on; one with its exception bit
set is discarded, with nothing performed and cause 0x17 at its exit slot. -/
def commits : Prop := ∀ (s : State) (i : Instance), s.absent = none → s.insts.find? (·.id == i.id) = some i →
  (i.atExit = false → Gives (.blockCommit i.id) s fun z => z = s)
    ∧ (∀ u x, i.atExit = true → i.cause = none → s.commitAll (i.buffer.length + 1) i.buffer = (.done u, x) → u.absent = none →
        Gives (.blockCommit i.id) s fun z => (∀ j, j ∈ z.insts ↔ j ∈ u.insts ∧ j.id ≠ i.id) ∧ SameBytes u z ∧ z.tiles = u.tiles)
    ∧ (∀ cause v, i.atExit = true → i.cause = some (cause, v) → Gives (.blockCommit i.id) s fun z =>
        let g := i.block.exit.1
        (∀ n, n ∈ z.insts.map (·.id) ↔ n ∈ s.insts.map (·.id) ∧ n ≠ i.id)
          ∧ (∀ j ∈ z.insts, ∃ k ∈ s.insts, ({ j with stall := k.stall } : Instance) = k)
          ∧ SameBytes s z ∧ (z.ectx g i.block.ctx).stopped = true
          ∧ ∃ f : ElemFault, f.ctx = i.block.ctx ∧ f.slot = i.block.exit.2 ∧ f.cause = 0x17 ∧ f.val = word (cause % 64) ∧ f.req = none
            ∧ (z.elem g).fault = some ((s.elem g).fault.getD f))

/-! ## Requests at their homes -/

/-- A request of an element has been performed with reply `t`; nothing else of its element has changed but what `own` names. -/
def Answered (z : State) (g id : Nat) (q : Request) (t : Token) : Prop := z.request? g id = some { q with state := .performed t }

/-- R67, R256, R276: a store in flight that no earlier one to its home precedes is performed; another one waits. An SLD whose words are all full
is answered with them (R259, R260); while one is empty, and while its region is frozen, it stays. -/
def performances : Prop := ∀ (s : State), s.absent = none →
  (∀ n (f : InFlight), s.inflight[n]? = some f →
    ((∃ e ∈ s.inflight.take n, State.homeOf e.space e.addr = State.homeOf f.space f.addr) →
        Gives (.memoryRequestPerform (.store n)) s fun z => z = s)
      ∧ ((∀ e ∈ s.inflight.take n, State.homeOf e.space e.addr ≠ State.homeOf f.space f.addr) → (f.space = .hbm → inAperture f.addr = false) →
          Gives (.memoryRequestPerform (.store n)) s fun z =>
            WroteBytes (s.callBack none f.space f.addr f.n) z f.space f.addr f.n f.value ∧ z.inflight = s.inflight.eraseIdx n))
  ∧ ∀ g id (q : Request) ps u, s.request? g id = some q → q.state = .pending → q.inst = none → q.op = 85 →
      (s.regionFrozen g q.ctx = true → Gives (.memoryRequestPerform (.element g id)) s fun z => z = s) ∧ (s.regionFrozen g q.ctx = false →
      s.checkAll g q = (.ok ps, u) → u.absent = none →
      let h := u.piecesHome (elemAgent g) ps
      (h.allFull ps = false → Gives (.memoryRequestPerform (.element g id)) s fun z => z = u)
        ∧ (h.allFull ps = true → h.piecesCause ps = none → s.instanceOf g q.ctx q.slot q.src = none →
            Gives (.memoryRequestPerform (.element g id)) s fun z => Answered z g id q (q.reply false (h.readPieces ps))))

/-- R251, R257: the reply of a request, when no earlier one of its thread is still out, leaves the node as a result does; that of an ALDR enters
the switch of its consumer at source 7. -/
def replies : Prop := ∀ (s : State) (g id : Nat) (q : Request) (t : Token),
  s.request? g id = some q → q.state = .performed t → (s.elem g).earlier q.ctx q.slot q.src = false →
    (q.op ≠ 84 → s.room g q.ctx q.slot q.w.dst q.w.dst t = true → Gives (.memoryReply g id) s fun z =>
        Left s z g q.ctx q.slot q.w.dst t ∧ ∀ r, r ∈ (z.elem g).reqs ↔ r ∈ (s.elem g).reqs ∧ r.id ≠ id)
      ∧ (∀ h, q.op = 84 → s.consumer g q = some h → Gives (.memoryReply g id) s fun z =>
          (z.source h 7 t.tag.ctx.toNat t.tag.col.toNat).beats = (s.source h 7 t.tag.ctx.toNat t.tag.col.toNat).beats ++ t.toBeats
            ∧ ∀ r, r ∈ (z.elem g).reqs ↔ r ∈ (s.elem g).reqs ∧ r.id ≠ id)

/-- R238 at an element-scope slot: a named write fills an empty slot, or one vacated under a lower stamp, and sets its count; a named read of the
stamp that a full slot holds answers its data and, of a counted one, takes one from the count; NLDT leaves it. One that may not yet be
performed waits. -/
def namedAccesses : Prop := ∀ (s : State) (g id : Nat) (q : Request) (f : Descriptor), s.absent = none →
  s.request? g id = some q → q.state = .pending → q.inst = none → s.instanceOf g q.ctx q.slot q.src = none → s.inflight = [] →
  s.fold? q.ctx (stampS q.a0) = some f → f.growing = false → f.check ≠ 2 → f.lay.scope = 0 →
  let sn := f.lay.normal q.a0
  let line := f.lay.line (f.lay.slotOf sn)
  let h := SMap.getD (s.elem g).names line {}
  let free := h.st = 0 ∨ (h.st = 2 ∧ h.stamp.toNat < sn)
  (q.op = 80 → free → Gives (.namedAccess g id) s fun z => Answered z g id q q.ack
      ∧ SMap.getD (z.elem g).names line {} = ⟨1, if f.lay.c = 255 then 0 else f.lay.c, BitVec.ofNat 64 sn⟩
      ∧ ∀ b, Memory.read (z.elem g).store.bytes b
        = if 32 * line ≤ b ∧ b < 32 * line + f.lay.z then BitVec.ofNat 8 (q.data / 256 ^ (b - 32 * line)) else Memory.read (s.elem g).store.bytes b)
    ∧ (q.op = 79 ∨ q.op = 81 → h.st ≠ 0 → h.stamp.toNat = sn → (s.elem g).store.readCause (32 * line) f.lay.z = none →
        Gives (.namedAccess g id) s fun z =>
          Answered z g id q (q.reply false (Memory.readN (s.elem g).store.bytes (32 * line) f.lay.z))
            ∧ (z.elem g).store.bytes = (s.elem g).store.bytes
            ∧ SMap.getD (z.elem g).names line {}
              = if q.op = 79 ∧ h.st = 1 ∧ f.lay.c ≠ 255 then ⟨if h.cnt - 1 = 0 then 2 else 1, h.cnt - 1, h.stamp⟩ else h)
    ∧ ((q.op = 80 ∧ h.st = 1 ∧ h.stamp.toNat < sn) ∨ ((q.op = 79 ∨ q.op = 81) ∧ (h.st = 0 ∨ h.stamp.toNat < sn)) →
        s.regionFrozen g q.ctx = false → Gives (.namedAccess g id) s fun z =>
          z.request? g id = some { q with state := .waiting (s.tile (gidTile g)).cycle } ∧ SameBytes s z)

/-- R239: a named access that has waited more cycles than the statement's bound raises cause 0x0B with its stamp. -/
def stalls : Prop := ∀ (s : State) (g id : Nat) (q : Request) (f : Descriptor) (since : BitVec 64),
  s.request? g id = some q → q.state = .waiting since → 79 ≤ q.op → q.op ≤ 81 → s.fold? q.ctx (stampS q.a0) = some f →
  (∀ i ∈ s.insts, i.stall = none) →
  let n := ((s.tile (gidTile g)).cycle - since).toNat
  (n ≤ f.lay.bound → Gives (.foldStallTimeout g id) s fun z => z = s)
    ∧ (f.lay.bound < n → s.instanceOf g q.ctx q.slot q.src = none → Gives (.foldStallTimeout g id) s fun z =>
        (z.ectx g q.ctx).stopped = true ∧ z.request? g id = some { q with state := .faulted }
          ∧ ∃ x : ElemFault, x.ctx = q.ctx ∧ x.slot = q.slot ∧ x.cause = 0x0B ∧ x.val = word (f.lay.normal q.a0) ∧ x.req = some id
            ∧ (z.elem g).fault = some ((s.elem g).fault.getD x))

/-- The position of chain state `k` after the request `q`, R258. -/
def chainAfter (k : Chain) (q : Request) : Chain := if q.lst then { k with ei := (k.ei + 1) % 4096, es := 0 } else { k with es := q.seqNo + 1 }

/-- R249, R258: the interface of a tile acts on a chained request when its position is expected: a skip request only advances the chain, and a
store to a local memory is performed, one line of 32 bytes after another, and acknowledged with the last of them, when the chain advances; a
position that is not expected yet waits. -/
def chainRequests : Prop := ∀ (s : State) (g id : Nat) (q : Request) (k : Chain) (pre post : List Chain), s.absent = none →
  s.request? g id = some q → q.op = 83 → q.state = .pending → q.inst = none →
  (s.tile (gidTile g)).chains = pre ++ k :: post → q.chainOf k = true → (∀ x ∈ pre ++ post, q.chainOf x = false) →
    (k.ei ≠ q.src.itr.toNat ∨ k.es < q.seqNo → Gives (.aliasChainRequest g id) s fun z => z = s)
      ∧ (k.ei = q.src.itr.toNat → q.seqNo < k.es → s.instanceOf g q.ctx q.slot q.src = none → Gives (.aliasChainRequest g id) s fun z =>
          (z.tile (gidTile g)).chains = pre ++ k :: post ∧ z.request? g id = some { q with state := .faulted } ∧ (z.ectx g q.ctx).stopped = true
            ∧ ∃ x : ElemFault, x.ctx = q.ctx ∧ x.slot = q.slot ∧ x.cause = 0x01 ∧ x.req = some id ∧ (z.elem g).fault = some ((s.elem g).fault.getD x))
      ∧ (k.ei = q.src.itr.toNat → k.es = q.seqNo → q.skip = true → Gives (.aliasChainRequest g id) s fun z =>
          (z.tile (gidTile g)).chains = pre ++ chainAfter k q :: post ∧ z.request? g id = none ∧ SameBytes s z)
      ∧ (∀ a n, k.ei = q.src.itr.toNat → k.es = q.seqNo → q.skip = false → q.parts = none → q.off = 0 → 0 < n →
          s.checkAll g q = (.ok [(.localMem g, a, n)], s) →
          let m := min n (32 - a % 32)
          Gives (.aliasChainRequest g id) s fun z => WroteBytes s z (.localMem g) a m q.data
            ∧ (if m = n then (z.tile (gidTile g)).chains = pre ++ chainAfter k q :: post ∧ Answered z g id { q with parts := some [], off := n } q.ack
              else (z.tile (gidTile g)).chains = pre ++ k :: post
                ∧ z.request? g id = some { q with parts := some ((lineParts (.localMem g, a, n)).drop 1), off := m }))

/-- R258: a marked chain state goes when no request of its key waits. -/
def chainReleases : Prop := ∀ (s : State) (t n : Nat) (k : Chain), (s.tile t).chains[n]? = some k →
  let busy := ∃ e < 64, ∃ q ∈ (s.elem (64 * t + e)).reqs, isChained q.op = true ∧ q.state.live = true ∧ q.chainOf k = true
  (k.marked = true → ¬ busy → Gives (.chainStateRelease t n) s fun z =>
      z.tile t = { s.tile t with chains := (s.tile t).chains.eraseIdx n } ∧ ∀ u, u ≠ t → z.tile u = s.tile u)
    ∧ (k.marked = false ∨ busy → Gives (.chainStateRelease t n) s fun z => z = s)

/-- R224, R225, R228: a walk of four levels, from TROOT, with the entries in memory and none of them in an owner buffer: it reads the entries of
the address's four indices, and the leaf of 64 KiB that it finds is kept in the die's cache; no byte changes. With TROOT.EN = 0 nothing is
found. -/
def walks : Prop := (∀ (s : State) (die ctx va : Nat), s.absent = none → (∀ h : ctx < 4, s.troot[ctx].en = false) →
    Gives (.translationWalk die ctx va) s fun z => z = s) ∧
  ∀ (s : State) (die ctx va a0 a1 a2 a3 : Nat), s.absent = none → (s.unit die).ptrs = [] → (∀ g, (s.elem g).owner = []) →
  let e (a : Nat) : BitVec 64 := BitVec.ofNat 64 (s.bytesAt .hbm a 8)
  let there (a : Nat) : Prop := a + 8 ≤ hbmReach ∧ pteV (e a) = true
  (∀ h : ctx < 4, s.troot[ctx].en = true ∧ a0 = s.troot[ctx].root.toNat * 2 ^ 14 + 8 * (va / 2 ^ 45 % 2048)) → ctx < 4 →
  a1 = pteAddr (e a0) + 8 * (va / 2 ^ 35 % 1024) → a2 = pteAddr (e a1) + 8 * (va / 2 ^ 25 % 1024) → a3 = pteAddr (e a2) + 8 * (va / 2 ^ 16 % 512) →
  there a0 → there a1 → there a2 → there a3 → pteLeaf (e a0) = false → pteLeaf (e a1) = false → pteLeaf (e a2) = false → pteLeaf (e a3) = true →
  Gives (.translationWalk die ctx va) s fun z =>
    (z.unit die).leaves = (⟨ctx, false, va / 65536, e a3, a3⟩ :: (s.unit die).leaves).take 8192 ∧ SameBytes s z ∧ z.tiles = s.tiles

/-- R263: the owner of a line writes it back and releases it. -/
def referrals : Prop := ∀ (s : State) (g line : Nat) (o : OwnerLine), (s.elem g).owner.find? (·.line == line) = some o →
  (∀ h, h ≠ g → ∀ x ∈ (s.elem h).owner, x.line ≠ line) → inAperture (32 * line) = false → Gives (.ownerBufferReferral g line) s fun z =>
    WroteBytes s z .hbm (32 * line) 32 o.data.toNat ∧ (z.elem g).owner = (s.elem g).owner.filter (·.line != line)

/-! ## Datum units -/

/-- R293: a line that a pending datum request names becomes an active cell when its unit has a place for it. -/
def activations : Prop := ∀ (s : State) (line g : Nat) (e : Elem) (q : Request) (u : State), s.absent = none → (g, e) ∈ s.elems → q ∈ e.reqs →
  91 ≤ q.op → q.op ≤ 93 → q.state = .pending → s.cellPlace (tileDie (gidTile g)) q.ctx q.a0 false false = (.ok line, u) →
  s.cell? line = none → s.hbm.readCause line 64 = none → (s.cells.filter fun k => unitOf k.line == unitOf line).length < 512 →
  Gives (.cellActivation line) s fun z =>
    z.cells = s.cells ++ [{ DatumCell.ofLine line (s.bytesAt .hbm line 64) with used := s.serial }] ∧ SameBytes s z

/-- R296, R299: a DUPD on an active cell that accepts it takes its place in the history and is acknowledged. -/
def insertions : Prop := ∀ (s : State) (g id line : Nat) (q : Request) (k : DatumCell) (u : State),
  s.request? g id = some q → q.op = 91 → q.state = .pending → q.inst = none →
  s.cellPlace (tileDie (gidTile g)) q.ctx q.a0 true false = (.ok line, u) → u.absent = none → u.cell? line = some k →
  let x := State.updateOf q
  k.v = true → k.cls ≠ 3 → (SMap.get? u.domains k.dom).isSome = true → classAccepts k.cls x.op = true →
  (k.bv = true → k.bstamp < x.stamp) → (∀ w, u.unitMark line k.dom = some w → w < x.stamp) → k.hist.length < k.hm1 + 1 →
  Gives (.datumInsertion g id) s fun z => Answered z g id q q.ack
    ∧ ∃ k', z.cell? line = some k' ∧ k'.hist = x.insert k.hist ∧ k'.base = k.base ∧ ∀ y ∈ u.cells, y.line ≠ line → y ∈ z.cells

/-- R297, R305: a DFRONT whose element has no earlier update on the way raises its producer's frontier, which never falls. -/
def frontiers : Prop := ∀ (s : State) (g id : Nat) (q : Request) (d : Domain),
  s.request? g id = some q → q.op = 94 → q.state = .pending → q.inst = none →
  SMap.get? s.domains (q.b0 % 64) = some d → q.b0 / 256 % 256 < d.p →
  (∀ r ∈ (s.elem g).reqs, r.op = 91 → r.ctx = q.ctx → r.id < q.id → r.state.live = false) →
  Gives (.keeperFrontierApply g id) s fun z => ∃ d', SMap.get? z.domains (q.b0 % 64) = some d'
    ∧ SMap.getD d'.f (q.b0 / 256 % 256) 0 = max (SMap.getD d.f (q.b0 / 256 % 256) 0) q.a0
    ∧ (∀ p, p ≠ q.b0 / 256 % 256 → SMap.getD d'.f p 0 = SMap.getD d.f p 0) ∧ d'.p = d.p ∧ SameBytes s z

/-- R298: a unit takes the next watermark that its domain's keeper has formed. -/
def watermarks : Prop := ∀ (s : State) (unit dom w : Nat) (d : Domain) (pre post : List Nat), SMap.get? s.domains dom = some d →
  d.formed = pre ++ w :: post →
  (∀ v ∈ pre, ∃ x, SMap.get? s.unitWm (256 * dom + unit) = some x ∧ x ≥ v) → (∀ x, SMap.get? s.unitWm (256 * dom + unit) = some x → x < w) →
  (∀ k ∈ s.cells, k.dom = dom → unitOf k.line ≠ unit) →
  Gives (.watermarkRise unit dom) s fun z => SMap.get? z.unitWm (256 * dom + unit) = some w ∧ z.cells = s.cells ∧ SameBytes s z

/-- R379: an emulated WAITV reads its word again: the task goes on with d := 0 once the word differs, and waits on while it does not. -/
def emulatedPolls : Prop := ∀ (s u : State) (t n : Nat) (d ra rb : SReg) (g : BitVec 4) (k : Taken) (p : Space × Nat),
  let x := (s.tile t).task n
  n < 32 → x.state = .run → x.taken = some k → k.word = .waitv d ra rb g → k.begun = 1 →
  s.probe (tileDie t) x.ctx.toNat k.a.toNat 8 { read := true, write := true, sup := k.sup, farOk := true } = (.ok p, u) →
  let h := u.atHome (taskAgent t n) none p.1 p.2 8
  h.absent = none → (h.store p.1).readCause p.2 8 = none →
  (word (h.bytesAt p.1 p.2 8) = k.b → Gives (.emulatedWaitvPoll t n) s fun z => z = h)
    ∧ (word (h.bytesAt p.1 p.2 8) ≠ k.b → Gives (.emulatedWaitvPoll t n) s fun z =>
        let y := (z.tile t).task n
        y.reg d = 0 ∧ y.pc = x.pc + 4 ∧ y.taken = none ∧ y.state = .run ∧ ∀ r, r ≠ d → y.reg r = x.reg r)

end Sys2Proof.Claims

/-- Task selection, work stealing and tile completion. A free core runs the READY task of highest PRIO that has been READY longest, in its bank, a
free one, or that of the task that left RUN longest ago, and PSTALL is set where no bank comes free; a Surveyor without a READY task takes a
stealable task of its quad with its stores; a tile with no work left for its launch completes for it. (R16, R17, R18, R125, R126) -/
def Obligations.CoreScheduling : Prop :=
  Sys2Proof.Claims.selection ∧ Sys2Proof.Claims.stealing ∧ Sys2Proof.Claims.tileCompletions

/-- Beats, tokens, switches, loops and edges. Beats enter the channels of bound colours in order; a token enters the one operand slot that accepts
it and has room; the oldest spilled record comes back; a throttled loop recovers; a loop emits its next iteration; a switch entry passes a beat on
all its ports at once, the one of highest PRIO that has waited longest first; a waiting EDGEDEPTH ends on an empty edge. (R16, R109, R110, R111,
R112, R113, R114, R151, R172, R175, R177, R184) -/
def Obligations.TokensOnTheFabric : Prop :=
  Sys2Proof.Claims.arrivals ∧ Sys2Proof.Claims.offers ∧ Sys2Proof.Claims.takeBacks ∧ Sys2Proof.Claims.recoveries ∧ Sys2Proof.Claims.iterations ∧ Sys2Proof.Claims.forwards ∧ Sys2Proof.Claims.depthChanges

/-- Admission and commit of blocks. A block is admitted when the commit buffer of 512 entries can hold its stores; an instance whose exit has
fired commits all that it holds as one step, and one with an exception commits nothing. (R118, R119, R287) -/
def Obligations.Blocks : Prop :=
  Sys2Proof.Claims.admissions ∧ Sys2Proof.Claims.commits

/-- Requests of elements. A store in flight that none precedes at its home is performed, and another waits; the reply of a request leaves in the
order of its thread; named reads and writes act on their slot as the fold rules say, and a stalled one raises 0x0B with its stamp after the
statement's bound. (R67, R238, R239, R251, R256, R257, R276) -/
def Obligations.MemoryRequests : Prop :=
  Sys2Proof.Claims.performances ∧ Sys2Proof.Claims.replies ∧ Sys2Proof.Claims.namedAccesses ∧ Sys2Proof.Claims.stalls

/-- Chained requests. The interface of a tile acts on a chained request at its expected position, performing a store line by line, waits before
it, and faults behind it; a marked chain goes when no request of its key waits. (R258) -/
def Obligations.Chains : Prop :=
  Sys2Proof.Claims.chainRequests ∧ Sys2Proof.Claims.chainReleases

/-- Walks and owner buffers. A walk reads the entries of the address's four indices from TROOT on and fills the caches with what it finds, and
nothing is found with TROOT.EN = 0; the owner of a line writes it back and releases it. (R225, R228, R263) -/
def Obligations.TranslationAndOwners : Prop :=
  Sys2Proof.Claims.walks ∧ Sys2Proof.Claims.referrals

/-- Cells, updates, frontiers and watermarks. A cell is activated when its unit has a place, an update that its cell accepts takes its place in
the history, a frontier never falls, and a unit takes the watermark that the keeper has formed. (R293, R296, R297, R298, R299, R305) -/
def Obligations.DatumUnits : Prop :=
  Sys2Proof.Claims.activations ∧ Sys2Proof.Claims.insertions ∧ Sys2Proof.Claims.frontiers ∧ Sys2Proof.Claims.watermarks

/-! # Events of engines, launches and containment -/

namespace Sys2Proof.Claims

/-- Word `k` of task `n` of tile `t` is in the hands of a controller, a unit, an engine or the link. -/
def Holds (s : State) (t n : Nat) (k : Taken) : Prop :=
  n < 32 ∧ k.cause = none ∧ let x := (s.tile t).task n
    x.state = .wait ∧ x.waiting = .engine ∧ x.taken = some k

/-- No task of a tile waits for an event of an engine. -/
def NoTickets (s : State) (t : Nat) : Prop := ∀ n < 32, ((s.tile t).task n).state = .wait → ((s.tile t).task n).waiting ≠ .ticket

/-! ## Words that end -/

/-- R266, R268, R270–R272: FDECL, FDROP, FSTAT and FCHECK end with what their rules give; an FDECL or FDROP of a busy statement waits. An FCHECK
ends with the state that its statement has kept since it began: not decided where its engine stops, and else with the witness of R241. -/
def foldEnds : Prop := ∀ (s : State) (t n : Nat) (k : Taken) (d a b : SReg) (y : Sync), s.absent = none → Holds s t n k →
  let ends (v : Nat) (P : State → Prop) : Prop := Gives (.foldWordComplete t n) s fun z => Ended s z t n k.dest (word v) ∧ P z
  let st := k.a.toNat % 4096
  (k.word = .fdeclDescriptor d a b y ∨ k.word = .fdeclRegion d a b y →
    (k.b.getLsbD 0 = false → let n := recordS k.record
      (∀ f, s.fold? k.ctx n = some f → f.growing = true ∨ s.foldBusy k.ctx n = true → Gives (.foldWordComplete t n) s fun z => z = s)
        ∧ ((∀ f, s.fold? k.ctx n = some f → f.growing = false ∧ s.foldBusy k.ctx n = false) →
          (∀ e, s.declareStatus k.ctx k.record = some e → ends e fun z => z.folds = s.folds)
            ∧ (s.declareStatus k.ctx k.record = none → (recordLayout k.record).scope ≠ 2 → ends 0 fun z =>
              ∃ f, z.fold? k.ctx n = some f ∧ f.lay = recordLayout k.record ∧ f.gen = 0 ∧ f.check = 0 ∧ f.growing = false)))
      ∧ (k.b.getLsbD 0 = true → k.ctx < 4 → let r := k.record
        (bitsOf r 95 56 ≠ 0 ∨ bitsOf r 15 0 ≠ 0 → ends 1 fun z => z.regions = s.regions)
          ∧ (bitsOf r 95 56 = 0 → bitsOf r 15 0 = 0 → (∃ f ∈ s.folds, f.ctx = k.ctx ∧ f.lay.scope = 2) → ends 6 fun z => z.regions = s.regions)
          ∧ (bitsOf r 95 56 = 0 → bitsOf r 15 0 = 0 → (∀ f ∈ s.folds, f.ctx = k.ctx → f.lay.scope ≠ 2) → ends 0 fun z =>
              z.region k.ctx = ⟨BitVec.ofNat 32 (bitsOf r 127 96), BitVec.ofNat 40 (bitsOf r 55 16)⟩)))
  ∧ (k.word = .fdrop d a y →
    (s.fold? k.ctx st = none → ends 4 fun z => z.folds = s.folds)
      ∧ ∀ f, s.fold? k.ctx st = some f →
        (f.growing = false → s.foldBusy k.ctx st = false →
            ends 0 fun z => ∀ g, g ∈ z.folds ↔ g ∈ s.folds ∧ ¬ (g.ctx = k.ctx ∧ g.s = st))
          ∧ (f.growing = true ∨ s.foldBusy k.ctx st = true → Gives (.foldWordComplete t n) s fun z => z = s))
  ∧ (k.word = .fstat d a b y →
    (s.fold? k.ctx st = none → ends 0 fun z => z.folds = s.folds)
      ∧ ∀ f, s.fold? k.ctx st = some f →
        (k.b.toNat % 16 = 0 → ends (f.gen * 256 + f.check * 4 + (if f.growing then 2 else 1)) fun z => z.folds = s.folds)
          ∧ (k.b.toNat % 16 = 1 → ends f.wit.1.toNat fun z => z.folds = s.folds)
          ∧ (k.b.toNat % 16 = 2 → ends f.wit.2.toNat fun z => z.folds = s.folds)
          ∧ (k.b.toNat % 16 = 5 → ends f.lay.b fun z => z.folds = s.folds)
          ∧ (k.b.toNat % 16 = 6 → ends f.lay.lines fun z => z.folds = s.folds)
          ∧ (7 < k.b.toNat % 16 → ends 0 fun z => z.folds = s.folds))
  ∧ (k.word = .fcheck d a y →
    (k.begun = 0 → checkRecordOk k.record = false → ends 1 fun z => z.folds = s.folds)
      ∧ (k.begun = 0 → checkRecordOk k.record = true → s.fold? k.ctx (recordS k.record) = none → ends 4 fun z => z.folds = s.folds)
      ∧ (∀ f, k.begun ≠ 0 → s.fold? k.ctx (recordS k.record) = some f → k.begun / 2 ≠ f.serial + 1 ∨ f.growing = true →
          ends 10 fun z => z.folds = s.folds)
      ∧ ∀ f, let en := 2 * tileDie t + k.begun % 2
          s.fold? k.ctx (recordS k.record) = some f → k.begun / 2 = f.serial + 1 → f.growing = false →
          ((s.ddEngine en).fail = true → ends 9 fun z => z.folds = s.folds)
          ∧ ((s.ddEngine en).fail = false → match (s.ddCompute en (DdEngine.checkFold en (s.ddHeld en) f.lay k.record)).1 with
            | .error _ => ends 9 fun z => z.folds = s.folds
            | .ok () =>
              (conflict f.lay k.record = none → ends 0 fun z => ∃ f', z.fold? k.ctx (recordS k.record) = some f' ∧ f'.check = 1)
                ∧ ∀ i j, conflict f.lay k.record = some (i, j) → ends 8 fun z =>
                  ∃ f', z.fold? k.ctx (recordS k.record) = some f' ∧ f'.check = 2
                    ∧ f'.wit = (BitVec.ofNat 64 (boxStamp k.record i), BitVec.ofNat 64 (boxStamp k.record j))))

/-- R307–R309: DSETUP of a record with no cells and DWMARK end with the statuses of their rules; a release waits while a read waits or a watermark
is on its way. -/
def datumEnds : Prop := ∀ (s : State) (t n : Nat) (k : Taken) (d a b : SReg), s.absent = none → Holds s t n k →
  let ends (v : Nat) (P : State → Prop) : Prop := Gives (.datumWordComplete t n) s fun z => Ended s z t n k.dest (word v) ∧ P z
  let same (z : State) : Prop := z.domains = s.domains ∧ z.cells = s.cells
  (k.word = .dsetupNew d a b ∨ k.word = .dsetupAdd d a b →
    let r := k.record
    let m := SMap.get? s.domains (datumDom r)
    let add := k.b.getLsbD 0
    (datumOk r = false → ends 1 same)
      ∧ (datumOk r = true → add = false → m ≠ none → ends 2 same)
      ∧ (datumOk r = true → add = true → m = none → ends 3 same)
      ∧ (∀ x, datumOk r = true → add = true → m = some x → x.p ≠ datumP r → ends 3 same)
      ∧ (datumOk r = true → datumCount r = 0 → add = false → m = none → ends 0 fun z =>
          SMap.get? z.domains (datumDom r) = some { p := datumP r } ∧ z.cells = s.cells))
  ∧ (k.word = .dwmarkPost d a b ∨ k.word = .dwmarkRelease d a b → k.begun = 0 →
    let dom := k.a.toNat % 64
    let p := k.a.toNat / 256 % 256
    let form := k.a.toNat / 65536 % 4
    (2 ≤ form → ends 1 same)
      ∧ (form < 2 → SMap.get? s.domains dom = none → ends 3 same)
      ∧ ∀ x, SMap.get? s.domains dom = some x →
        (form = 0 → x.p ≤ p → ends 1 same)
          ∧ (form = 0 → p < x.p → (∃ q < x.p, q ≠ p ∧ SMap.getD x.f q 0 = 0) → x.wv = false → ends 0 fun z =>
              ∃ x', SMap.get? z.domains dom = some x' ∧ SMap.getD x'.f p 0 = max (SMap.getD x.f p 0) k.b.toNat)
          ∧ (form = 1 → (∃ q < x.p, SMap.getD x.f q 0 ≠ 2 ^ 64 - 1) → ends 6 same)
          ∧ (form = 1 → (∀ q < x.p, SMap.getD x.f q 0 = 2 ^ 64 - 1) → s.waitsOn dom = [] → s.marksReached dom x.wm = true → ends 0 fun z =>
              SMap.get? z.domains dom = none ∧ ∀ e, e ≠ dom → SMap.get? z.domains e = SMap.get? s.domains e))

/-- R339, R341, R353: an engine that serves the context and has not failed performs the word when its turn has come; DDCOLL with form 1 frees every
node, with form 2 sets the collection threshold, with form 3 is refused. Where the context is not served, cause 0x06 is kept for the task. One that
collects or clears waits for every word that came before it, and so do the later words for it. -/
def ddEnds : Prop := ∀ (s : State) (t n f : Nat) (k : Taken) (d a b : SReg) (y : Sync), s.absent = none → Holds s t n k →
  k.pair = some (0x20, f) → k.word = .ddcollReset d a b y → k.run = none → let en := ddEngineOf k.a
  let e := s.ddEngine en
  ((∃ j ∈ s.ddWords en, j.order < k.order ∧ (k.a.toNat % 4 < 2 ∨ State.ddAlone j = true)) → Gives (.ddWordComplete t n) s fun z => z = s)
  ∧ ((∀ j ∈ s.ddWords en, k.order ≤ j.order) →
  (e.ctxm.getLsbD k.ctx = false → Gives (.ddWordComplete t n) s fun z =>
      ((z.tile t).task n).state = .ready ∧ ((z.tile t).task n).pc = ((s.tile t).task n).pc
        ∧ ∃ k', ((z.tile t).task n).taken = some k' ∧ k'.cause = some (0x06, 0))
    ∧ (e.ctxm.getLsbD k.ctx = true →
      (k.a.toNat % 4 = 1 → Gives (.ddWordComplete t n) s fun z => Ended s z t n k.dest 0
          ∧ z.ddEngine en = { e with nodes := [], cache := [], fail := false, bad := [], weak := [] } ∧ ∀ j, j ≠ en → z.ddEngine j = s.ddEngine j)
        ∧ (k.a.toNat % 4 = 2 → e.fail = false → Gives (.ddWordComplete t n) s fun z => Ended s z t n k.dest 0
          ∧ z.ddEngine en = { e with gzth := BitVec.ofNat 24 (min (k.b.toNat % 2 ^ 24) (nodeLimit - 2)) })
        ∧ (k.a.toNat % 4 = 3 → e.fail = false → Gives (.ddWordComplete t n) s fun z => Ended s z t n k.dest ddShape
          ∧ z.ddEngine en = e)))

/-! ## Copies and streams -/

/-- R326, R328, R329: a segment of a copy whose turn it is is performed once; its status counts the units it rejected, the lowest poisoned offset
and the lowest fault. A copy is done when its segments are, up to a fault. -/
def copies : Prop := ∀ (s : State) (t c n : Nat) (z : Copy), c < 4 → SMap.get? ((s.tile t).ctx c).copies n = some z → z.st.fin = false →
  (∀ seg rej bad fault u, z.st.canc = false → z.st.flt = false → seg ∉ z.segs → seg < State.copySegs z →
    State.copyTurn ((s.tile t).ctx c) z = true → s.stoppedForSave t c = false → s.runSegment t c z seg = (rej, bad, fault, u) → u.absent = none →
    Gives (.copySegment t c n seg) s fun x => SameBytes u x ∧ ∃ y, SMap.get? ((x.tile t).ctx c).copies n = some y
      ∧ (∀ k, k ∈ y.segs ↔ k = seg ∨ k ∈ z.segs) ∧ y.st.rej = z.st.rej + rej ∧ y.st.fin = false
      ∧ (y.st.pois = true ↔ z.st.pois = true ∨ bad ≠ none) ∧ (y.st.flt = true ↔ fault ≠ none)
      ∧ ∀ e, fault = some e → y.st.cause = e.1 ∧ y.st.faultOff = e.2)
  ∧ (let last := if z.st.flt then min (State.copySegs z) (z.st.faultOff / 4096 + 1) else State.copySegs z
    let landed := z.st.canc = true ∨ ∀ k < last, k ∈ z.segs
    (¬ landed → Gives (.copyCommandComplete t c n) s fun x => x = s)
      ∧ (landed → NoTickets s t → Gives (.copyCommandComplete t c n) s fun x =>
          SMap.get? ((x.tile t).ctx c).copies n = some { z with st := { z.st with fin := true } } ∧ SameBytes s x))

/-- R321–R323: a stream starts when nothing bound before it blocks it. An out-stream takes the beats of its colour, in their order, from its port,
its first at the beginning of a token; a null token writes nothing and an error token only sets ERRT. A stream is done after ⌈T / B⌉ tokens, or when it is cancelled between two. -/
def streams : Prop := ∀ (s : State) (t c n : Nat) (z : Stream), s.absent = none → c < 4 → SMap.get? ((s.tile t).ctx c).streams n = some z →
  let now (x : State) (z' : Stream) : Prop := SMap.get? ((x.tile t).ctx c).streams n = some z'
  let g := 64 * t + z.elem
  let ports := s.source g z.port c z.col.toNat
  z.st.fin = false →
  (z.going = false → State.streamBlocked ((s.tile t).ctx c) z = false → Gives (.streamStart t c n) s fun x => now x { z with going := true } ∧ SameBytes s x)
    ∧ (z.going = true ∨ State.streamBlocked ((s.tile t).ctx c) z = true → Gives (.streamStart t c n) s fun x => x = s)
    ∧ (z.going = true → z.out = true → z.count < State.streamTokens z → z.held = false → s.stoppedForSave t c = false → z.st.canc = false →
      (∀ b rest, z.whole = false → ports.beats = b :: rest → b.tag.isHeader = false → (z.hand = [] → s.atBoundary g z.port c z.col.toNat = true) → Gives (.streamTokenTransfer t c n) s fun x =>
          now x { z with tag := if z.hand = [] then b.tag else z.tag, hand := z.hand ++ [b.data], whole := b.tag.last }
            ∧ (x.source g z.port c z.col.toNat).beats = rest)
        ∧ (z.whole = false → z.hand = [] → s.atBoundary g z.port c z.col.toNat = false → Gives (.streamTokenTransfer t c n) s fun x =>
            now x z ∧ (x.source g z.port c z.col.toNat).beats = ports.beats ∧ SameBytes s x)
        ∧ (z.whole = true → z.tag.err = true ∨ z.tag.nul = true → Gives (.streamTokenTransfer t c n) s fun x =>
            now x { z with count := z.count + 1, tag := {}, hand := [], whole := false, part := 0, st := { z.st with errt := z.st.errt || z.tag.err } }
              ∧ SameBytes s x))
    ∧ (State.streamTokens z ≤ z.count ∨ (z.st.canc = true ∧ (z.hand = [] ∨ z.whole = true)) → NoTickets s t →
        Gives (.streamComplete t c n) s fun x => now x { z with hand := [], st := { z.st with fin := true } } ∧ SameBytes s x)

/-! ## Egress and collectives -/

/-- R332, R333: the record of a waiting EGPOST enters its session once there is room; the lowest record of a session, once released or rejected, is
written to the host ring of its die while that is open, and leaves the queue. -/
def egress : Prop := ∀ (s : State),
  (∀ (t n : Nat) (k : Taken) (d a : SReg) (y : Sync), n < 32 → k.cause = none → ((s.tile t).task n).state = .wait →
    ((s.tile t).task n).waiting = .ticket → ((s.tile t).task n).taken = some k → k.word = .egpost d a y → s.egLate k.record = false →
    (s.egRoom (State.imageSession k.record) = true → Gives (.egressRecordEnter t n) s fun z => Ended s z t n k.dest 0
        ∧ z.egress = s.egress ++
          [{ sess := State.imageSession k.record, stamp := State.imageStamp k.record, payload := BitVec.ofNat 384 (k.record / 2 ^ 128) }])
      ∧ (s.egRoom (State.imageSession k.record) = false → Gives (.egressRecordEnter t n) s fun z => z = s))
  ∧ ∀ (die n : Nat) (r : EgRecord) (l : List EgRecord) (u : State), s.session n = r :: l →
    let q := (s.mgmtOf die).egring
    (n % 4 = die → r.hold ≠ .held → ringOn q = true → ringOpen q = true →
        s.ringWrite die q 64 (State.egImage r (s.mgmtOf die).egseq.toNat) = some u → Gives (.egressDelivery die n) s fun z =>
          z.egress = s.egress.erase r ∧ ringTail (z.mgmtOf die).egring = (ringTail q + 1) % 2 ^ 32
            ∧ (z.mgmtOf die).egseq = (s.mgmtOf die).egseq + 1 ∧ SameBytes u z)
      ∧ (n % 4 ≠ die ∨ r.hold = .held ∨ ringOn q = false ∨ ringOpen q = false → Gives (.egressDelivery die n) s fun z => z = s)

/-- R392, R395: a rank whose result is known writes it to DST and is DONE; an abort that reaches the module is kept by its engines, and a rank of
its key that is not DONE completes aborted. -/
def collectiveEvents : Prop := ∀ (s : State) (t c n : Nat) (x : Coll), s.absent = none → c < 4 →
  (SMap.get? ((s.tile t).ctx c).colls n = some x → x.st.fin = false →
    (∀ v sp a m u, x.out = some v → s.enginePlace (tileDie t) c x.sup x.dst x.dstBytes = (some [(sp, a, m)], u) →
        (sp = .hbm → inAperture a = false) → Gives (.collectiveComplete t c n) s fun z =>
          WroteBytes (u.piecesHome engineAgent [(sp, a, m)]) z sp a m v
            ∧ SMap.get? ((z.tile t).ctx c).colls n = some { x with st := { x.st with fin := true } })
      ∧ ∀ gkey seq rank cause, s.ranksOf gkey seq = [(t, c, n, x)] → Gives (.collectiveAbort gkey seq rank cause) s fun z =>
          SMap.get? ((z.tile t).ctx c).colls n = some { x with st := { x.st with fin := true, abrt := true, cause := cause, who := rank } })
  ∧ ∀ gkey seq rank cause, s.ranksOf gkey seq = [] → Gives (.collectiveAbort gkey seq rank cause) s fun z =>
      (∀ d < 4, (z.mgmtOf d).aborted.head? = some (gkey, seq, rank, cause)) ∧ ({ z with mgmt := s.mgmt } : State) = s

/-! ## Launches -/

/-- R209, R385: the scheduler reads the record at PULL of an enabled queue and counts it; a record that breaks its limits completes at once, one that
depends on no launch is eligible. -/
def pulls : Prop := ∀ (s : State) (die q : Nat), let v := s.queue die q
  (qdOn v = false ∨ qdPull v = qdTail v → Gives (.schedulerPull die q) s fun z => z = s)
    ∧ ∀ r u, qdOn v = true → qdPull v ≠ qdTail v →
      s.ownRead die (qdCtx v) (qdBase v + 64 * (qdPull v % qdRecords v)) 64 = (some r, u) → r < 2 ^ 512 →
      Gives (.schedulerPull die q) s fun z => qdPull (z.queue die q) = (qdPull v + 1) % 2 ^ 32
        ∧ ((∀ x, x ∈ s.launches → x.1 < s.serial) → (∀ x, x ∈ s.module.refused → x ≠ r % 2 ^ 32) →
          ∃ l, z.launch u.serial = some l ∧ l.info = recordOf r ∧ l.die = die
            ∧ ((recordOf r).ok = false ∨ r / 2 ^ 472 ≠ 0 → l.phase = .done)
            ∧ ((recordOf r).ok = true → r / 2 ^ 472 = 0 → (recordOf r).ndeps = 0 → l.phase = .eligible))

/-- R121: each 262,144 cycles of eligibility raise a record's priority by one. -/
def aging : Prop := ∀ (s : State) (die n : Nat) (l : Launch), s.launch n = some l →
  let due := l.phase = .eligible ∧ l.die = die ∧ 262144 * (l.rises + 1) ≤ ((s.tile (State.schedulerTile die)).cycle - l.since).toNat
  (due → Gives (.priorityAging die n) s fun z => z.launch n = some { l with rises := l.rises + 1 } ∧ ({ z with launches := s.launches } : State) = s)
    ∧ (¬ due → Gives (.priorityAging die n) s fun z => z = s)

/-- R122, R209, R210: the record that the order of its die's scheduler lets through is placed where it fits beside the dies that a waiting record of
effective priority 7 keeps free, on all tiles at once: each holds the
launch with its origin and a lead task, READY, in supervisor state with traps off, at address 0. -/
def placements : Prop := ∀ (s : State) (die n : Nat) (l : Launch) (o : Nat × Nat),
  s.mayPass (s.heldDies die) n (s.considered die) = some (l, o) → l.info.text = 0 → l.info.data = 0 → l.info.ctx < 4 →
  let det := l.info.det || (l.info.mok && ((s.tile (tileAt o.1 o.2)).ctx l.info.ctx).det)
  let l' : Launch := { l with phase := .running, ox := o.1, oy := o.2, det := det }
  let ts := State.rectangle o.1 o.2 l.info.w l.info.h
  (∃ u, ({ s with fresh := s.fresh + 1, launches := SMap.set s.launches n l' } : State).placeTiles n l' none none
      (((Config.jumpMarks s.fresh).map (· % 32768)).foldl NSet.insert []) ts = some u) → ts.Nodup →
  Gives (.allocatorPlace die n) s fun z => z.launch n = some l'
    ∧ ∀ t ∈ ts, ∃ p k, ((z.tile t).ctx l.info.ctx).launch = some p ∧ p.lid = n ∧ p.ox = BitVec.ofNat 5 o.1 ∧ p.oy = BitVec.ofNat 5 o.2
      ∧ k = (z.tile t).task p.lead.toNat ∧ k.state = .ready ∧ k.sup = true ∧ k.te = false ∧ k.pc = 0 ∧ k.ctx.toNat = l.info.ctx

/-- R123: a launch that a record which does not fit asks to move stops its sources first, and moves once it has drained; one that has frozen, or
cannot move there, goes on where it is. -/
def moves : Prop := ∀ (s : State) (n ox oy : Nat) (l : Launch), s.absent = none → s.launch n = some l → l.phase = .running → l.saving = false →
  let ts := State.rectangle l.ox l.oy l.info.w l.info.h
  let us := State.rectangle ox oy l.info.w l.info.h
  let can := s.launchFrozen l = false ∧ s.moveAsked l = true ∧ ox + l.info.w ≤ 32 ∧ oy + l.info.h ≤ 20 ∧ (∀ u ∈ us, u ∉ ts)
    ∧ ∀ p ∈ ts.zip us, s.roomToMove l.info.ctx p.1 p.2 = true
  (¬ can → Gives (.compaction n ox oy) s fun z => z.launch n = some { l with moving := false })
    ∧ (can → l.moving = false ∨ s.launchDrained l = false → Gives (.compaction n ox oy) s fun z => z.launch n = some { l with moving := true })
    ∧ (can → l.moving = true → s.launchDrained l = true → Gives (.compaction n ox oy) s fun z =>
        ∃ l', z.launch n = some l' ∧ l'.ox = ox ∧ l'.oy = oy ∧ l'.moving = false ∧ l'.info = l.info)

/-! ## Containment -/

/-- R362, R363: with no search of the context open, the controller takes the fault recorded first. The level that CONTAIN gives it retries it (where
a handler exists), or kills for it; a retry without a handler is read as a kill. -/
def takes : Prop := ∀ (s : State) (t c : Nat), let x := (s.tile t).ctx c
  (∀ y ∈ s.searches, y.tile = t → y.ctx = c → y.cause = 0x1C) → s.stoppedForSave t c = false →
  (s.recorded t c = [] → Gives (.regionFaultTake t c) s fun z => z = s)
    ∧ ∀ f lvl pol, State.oldestFault (s.recorded t c) = some f → absorbs x.contain false (startLevel f.src) 4 = (lvl, pol) → pol ≠ .ignore →
      Gives (.regionFaultTake t c) s fun z => ∃ y : Search, z.searches = s.searches ++ [y] ∧ y.tile = t ∧ y.ctx = c ∧ y.src = f.src
        ∧ y.cause = f.cause ∧ y.val = f.val ∧ y.level = levelOf lvl
        ∧ y.phase = (if pol = .retry ∧ (s.tile t).hasHandler c = true then .waiting else .killing) ∧ SameBytes s z ∧ z.tiles = s.tiles

/-- R365: a kill of a tile, a quad or a launch ends every task of the context there, and closes the search. -/
def kills : Prop := ∀ (s : State) (x : Search) (pre post : List Search) (sh : Nat), s.absent = none → s.searches = pre ++ x :: post →
  x.phase = .killing → x.level ≠ .sheet → (∀ y ∈ pre, ¬ (y.tile = x.tile ∧ y.ctx = x.ctx ∧ y.level = x.level ∧ y.phase = .killing)) →
  (∀ u ∈ s.regionTiles x, s.stoppedForSave u x.ctx = false) → Gives (.regionKill x.level x.tile sh x.ctx) s fun z =>
    x ∉ z.searches ∧ ∀ u ∈ s.regionTiles x, ∀ n < 32, ((s.tile u).task n).ctx.toNat = x.ctx → ((z.tile u).task n).state = .free

/-- R366, R367: the cause of a waiting search is delivered to the lead task when its traps are on: it enters its handler with the cause and value of
the fault, as a trap does. -/
def deliveries : Prop := ∀ (s : State) (t c n : Nat) (x : Search) (pre post : List Search), s.searches = pre ++ x :: post → x.tile = t → x.ctx = c →
  x.phase = .waiting → (∀ y ∈ pre, ¬ (y.tile = t ∧ y.ctx = c ∧ y.phase = .waiting)) → (s.tile t).lead c = some n →
  let k := (s.tile t).task n
  n < 32 → (k.state = .run ∨ k.state = .ready) → k.taken = none → k.held = none → k.te = true → k.handling = false → s.stoppedForSave t c = false →
  Gives (.handlerDelivery t c) s fun z => (z.tile t).task n = { k with
      exempt := false, epc := k.pc.extractLsb' 2 13, cause := BitVec.ofNat 6 x.cause, tval := x.val, pte := k.te, psup := k.sup, te := false, sup := true
      pc := ((s.tile t).ctx k.ctx.toNat).tvec ++ 0#2, handling := true }
    ∧ (∀ m, m ≠ n → (z.tile t).task m = (s.tile t).task m) ∧ SameBytes s z ∧ { x with phase := .handled } ∈ z.searches

/-- R368: after a delivery that ended by TRET the faulting operation starts again and the search ends; after one that ended otherwise the retry is
read as a kill. -/
def restarts : Prop := ∀ (s : State) (t c n : Nat) (x : Search) (pre post : List Search), s.searches = pre ++ x :: post → x.tile = t → x.ctx = c →
  x.killed = false → x ∉ pre → (∀ y ∈ pre, ¬ (y.tile = t ∧ y.ctx = c ∧ (y.phase = .returned ∨ y.phase = .abandoned))) → n < 32 →
  (x.phase = .returned → x.src = .task n → ((s.tile t).task n).taken.filter State.engaged = none → Gives (.retryRestart t c) s fun z =>
      ((z.tile t).task n).state = .ready ∧ ((z.tile t).task n).pc = ((s.tile t).task n).pc ∧ x ∉ z.searches)
    ∧ (∀ g f id q, x.phase = .returned → x.src = .element g → (s.elem g).fault = some f → f.req = some id → s.request? g id = some q →
        (s.elem g).faults = [] → Gives (.retryRestart t c) s fun z =>
          z.request? g id = some { q with state := .pending, parts := none, off := 0, got := 0 }
          ∧ (z.elem g).fault = none ∧ (z.ectx g f.ctx).stopped = false ∧ x ∉ z.searches)
    ∧ (x.phase = .abandoned → Gives (.retryRestart t c) s fun z =>
        z.searches = s.searches.map (fun y => if y = x then { x with phase := .killing, late := true } else y)
          ∧ ({ z with searches := s.searches } : State) = s)

/-- R379: an atomic on host, peer or far-tier memory is emulated under its lock: d := the old value, the word takes the new one, the lock is free
again, and the task goes on; while the lock is held it waits. -/
def emulations : Prop := ∀ (s u : State) (t n fn : Nat) (k : Taken) (lock p : Space × Nat),
  let x := (s.tile t).task n
  n < 32 → x.state = .run → x.taken = some k → k.cause = none → k.begun = 0 → atomicFn k.word = some fn →
  s.emulated (tileDie t) x.ctx.toNat (taskAgent t n) k.sup k.a.toNat 8 = (.ok (lock, p), u) → u.absent = none →
  (u.lockFree lock = false → Gives (.atomicEmulation (.task t n)) s fun z => z = u)
    ∧ (u.lockFree lock = true → lock.1 ≠ p.1 → p.1 ≠ .hbm → u.inflight = [] → Gives (.atomicEmulation (.task t n)) s fun z =>
        let m := word (u.bytesAt p.1 p.2 8)
        let y := (z.tile t).task n
        y.reg (atomicDest k.word) = (if atomicDest k.word = 0 then 0 else m) ∧ y.pc = x.pc + 4 ∧ y.taken = none ∧ y.state = .run
          ∧ (∀ r, r ≠ atomicDest k.word → y.reg r = x.reg r)
          ∧ Memory.readN (z.store p.1).bytes p.2 8 = ((atomicNew fn m k.b k.d).getD m).toNat
          ∧ (inAperture lock.2 = false → Memory.readN (z.store lock.1).bytes lock.2 8 = 0))

/-! ## Save and restore -/

/-- The search by which cause 0x1C goes to the lead task of the requester of `j`, R375. -/
def ToldOf (z : State) (j : SaveJob) (a : Nat) : Prop :=
  j ∉ z.jobs ∧ ∃ x ∈ z.searches, x.tile = j.tile ∧ x.ctx = j.rctx ∧ x.cause = 0x1C ∧ x.val = word a ∧ x.phase = .waiting

/-- R373, R374: a save of a context that holds no launch only writes STATUS 3; a launch is saved once it has drained: the last write gives STATUS the
value 1, and its tiles hold neither the launch nor a task of it. -/
def saves : Prop := ∀ (s : State) (die n : Nat) (j : SaveJob), s.absent = none →
  (s.jobs.filter fun j => j.die == die && !j.back)[n]? = some j →
  (∀ u, j.n = none → s.areaWrite j (j.area + 4) 4 3 = .ok u → u.absent = none → Gives (.contextSaveComplete die n) s fun z =>
      j ∉ z.jobs ∧ SameBytes u z)
    ∧ ∀ m l, j.n = some m → s.launch m = some l →
      (s.saveDrained l = false → Gives (.contextSaveComplete die n) s fun z => z = s)
        ∧ ∀ u, s.saveDrained l = true → s.saveNow j m l = .ok u → u.absent = none → Gives (.contextSaveComplete die n) s fun z =>
          j ∉ z.jobs ∧ (∃ l', z.launch m = some l' ∧ l'.phase = .saved ∧ l'.saving = false)
            ∧ (∃ v w : State, v.areaWrite j (j.area + 4) 4 1 = .ok w ∧ SameBytes w z)
            ∧ (l.info.ctx < 4 → ∀ t ∈ State.rectangle l.ox l.oy l.info.w l.info.h, ((z.tile t).ctx l.info.ctx).launch = none
              ∧ ∀ k < 32, ((z.tile t).task k).isIn l.info.ctx = false)

/-- R374: the header of a save area, field by field. -/
def saveHeaders : Prop := ∀ (r : LaunchRec) (size status faddr : Nat), size < 2 ^ 64 → status < 2 ^ 32 → faddr < 2 ^ 64 → r.id < 2 ^ 32 → r.w < 256 →
  r.h < 256 → r.ring < 256 → r.rbase < 2 ^ 64 → r.text < 2 ^ 64 → r.data < 2 ^ 64 → r.tsize < 2 ^ 32 → r.dsize < 2 ^ 32 →
  let h := State.saveHeader r size status faddr
  h < 2 ^ 512 ∧ bitsOf h 31 0 = 0x41565343 ∧ bitsOf h 63 32 = status ∧ bitsOf h 95 64 = r.id ∧ bitsOf h 103 96 = r.w ∧ bitsOf h 111 104 = r.h
    ∧ bitsOf h 119 112 = r.ctl.toNat ∧ bitsOf h 127 120 = r.ring ∧ bitsOf h 191 128 = size ∧ bitsOf h 255 192 = faddr ∧ bitsOf h 319 256 = r.rbase
    ∧ bitsOf h 383 320 = r.text ∧ bitsOf h 447 384 = r.data ∧ bitsOf h 479 448 = r.tsize ∧ bitsOf h 511 480 = r.dsize

/-- R375: the launch of a save area is placed again once tiles are free for every one of its blocks; an area that cannot be read, and a legend entry
with SFMT = 0b11, make the restore fail with cause 0x1C at the lead task of the requester. -/
def restores : Prop := ∀ (s : State) (die n : Nat) (j : SaveJob), (s.jobs.filter fun j => j.die == die && j.back)[n]? = some j →
  (∀ e u, s.areaRead j j.area 64 = (.error e, u) → Gives (.contextRestoreComplete die n) s fun z => ToldOf z j e.2)
    ∧ ∀ h u, s.areaRead j j.area 64 = (.ok h, u) → let size := bitsOf h 191 128
      (∀ e v, u.readWords j j.area (size / 4096 + 1) ((size + 7) / 8) = (.error e, v) →
          Gives (.contextRestoreComplete die n) s fun z => ToldOf z j e.2)
        ∧ ∀ ws v, u.readWords j j.area (size / 4096 + 1) ((size + 7) / 8) = (.ok ws, v) → v.absent = none →
          let vs := State.readBlocks { ctx := j.ctx, base := v.serial } ws (bitsOf h 103 96 * bitsOf h 111 104) 512
          let y := State.firstLaunch vs
          let x := State.savedRecord h j.ctx y
          let fits (o : Nat × Nat) : Prop :=
            ∀ p ∈ (State.rectangle o.1 o.2 x.w x.h).zip (vs.map (·.2)), v.restoreFree x p.2 p.1 = true
          ((∀ o ∈ State.origins x.w x.h, ¬ fits o) → Gives (.contextRestoreComplete die n) s fun z => z = v)
            ∧ ∀ pre o post, State.origins x.w x.h = pre ++ o :: post → (∀ p ∈ pre, ¬ fits p) → fits o →
              (∀ a, State.badLegend j.area vs ws = some a → Gives (.contextRestoreComplete die n) s fun z => ToldOf z j a)
                ∧ ∀ r, State.badLegend j.area vs ws = none → v.restoreNow j x y (vs.map (·.2)) o = .ok r → r.absent = none →
                  Gives (.contextRestoreComplete die n) s fun z => j ∉ z.jobs
                    ∧ ∃ l, z.launch (v.serial + y.serial) = some l ∧ l.phase = .running ∧ l.ox = o.1 ∧ l.oy = o.2 ∧ l.info = x

/-! ## Tiles and modules -/

/-- R381, R403: a retired tile that no launch is on goes on on a spare of its die, the lowest that is free; without a spare it leaves the exposed set,
its tasks end, and the replacement is requested on every die. -/
def retirements : Prop := ∀ (s : State) (t : Nat), s.absent = none → t < 640 → (s.tile t).exposed = true → (∀ c < 4, s.lidOf t c = none) →
  let d := tileDie t
  let m := s.mgmtOf d
  let i := State.dieIndex t
  (0 < m.spare → Gives (.tileRetirement t) s fun z => let w := z.mgmtOf d
      (∀ p, p ∈ w.retired ↔ p = State.physOf m i ∨ p ∈ m.retired) ∧ w.spare = m.spare - 1 ∧ w.exposed = m.exposed
        ∧ ((∃ p < 168, p ∉ w.retired ∧ ∀ j < 160, State.physOf m j ≠ p) →
            State.physOf w i ∉ w.retired ∧ ∀ j < 160, State.physOf m j ≠ State.physOf w i)
        ∧ (z.tile t).exposed = true ∧ (z.tile t).errors = [])
    ∧ (m.spare = 0 → Gives (.tileRetirement t) s fun z =>
        (z.mgmtOf d).exposed = m.exposed - 1 ∧ (∀ e < 4, (z.mgmtOf e).rr = true) ∧ State.physOf m i ∈ (z.mgmtOf d).retired
        ∧ (z.tile t).exposed = false ∧ ∀ n < 32, ((z.tile t).task n).state = .free)

/-- R389: a packet of another module joins those on their way and arrives as they do. A spawn packet for a placed launch creates its task, with its arguments in s1–s6, on the owner tile, in the lowest FREE descriptor; one whose
launch is not placed here is dropped, and its job word loses one. -/
def packetArrivals : Prop := (∀ (s : State) (sender raw va pa job : Nat),
    (State.packetBad raw = true → Gives (.spawnPacketArrival (.sent sender raw va pa job)) s fun z => z = s)
      ∧ (State.packetBad raw = false → Gives (.spawnPacketArrival (.sent sender raw va pa job)) s fun z =>
          Gives (.spawnPacketArrival (.here s.packets.length))
            { s with packets := s.packets ++ [State.packetOf raw va (.hbm, pa) (.peer sender, job)] } fun y => y = z)) ∧
  ∀ (s : State) (n : Nat) (p : Packet), s.packets[n]? = some p → (∀ m, p.home.1 ≠ .peer m) →
  (s.placedLaunch p.lid = none → inAperture p.word.2 = false →
    ((s.callBack none p.word.1 p.word.2 8).store p.word.1).readCause p.word.2 8 = none → Gives (.spawnPacketArrival (.here n)) s fun z =>
      z.packets = s.packets.eraseIdx n
      ∧ let u := s.callBack none p.word.1 p.word.2 8
        WroteBytes u z p.word.1 p.word.2 8 (word (Memory.readN (u.store p.word.1).bytes p.word.2 8) - 1).toNat)
    ∧ ∀ l k, s.placedLaunch p.lid = some l → p.kind = 0 → l.info.ctx < 4 →
      let i := p.a / 2 ^ 21 % (l.info.w * l.info.h)
      let t := tileAt (l.ox + i % l.info.w) (l.oy + i / l.info.w)
      p.job ∉ (s.mgmtOf (tileDie t)).cancel → (s.tile t).freeTask = some k → Gives (.spawnPacketArrival (.here n)) s fun z =>
        let x := (z.tile t).task k
        x.state = .ready ∧ x.ctx.toNat = l.info.ctx ∧ x.pc = p.pc.setWidth 15 ∧ x.scratch = word p.a ∧ x.job = some p.word
          ∧ (∀ j < 6, x.reg (BitVec.ofNat 5 (j + 1)) = p.args.getD j 0) ∧ z.packets = s.packets.eraseIdx n

/-- R387: the tail that a QTAIL carries is written at a queue of this module that is enabled, and, where bit 8 of a is set, accepts it. R390: CANCEL of
a job enters it in the cancel table of every die, or takes it out. -/
def remoteEnds : Prop := ∀ (s : State) (t n resp : Nat) (k : Taken) (d a b : SReg), s.absent = none → Holds s t n k →
  (k.word = .qtail d a b → k.a.getLsbD 8 = false →
    let die := k.a.toNat / 512 % 4
    let q := k.a.toNat / 2048 % 16
    let v := s.queue die q
    let i := k.b.toNat % 2 ^ 32
    (qdOn v = false → Gives (.remoteWordComplete t n resp) s fun z => Ended s z t n k.dest 2 ∧ z.queue die q = v)
      ∧ (qdOn v = true → qdRecords v < (i + 2 ^ 32 - qdPull v) % 2 ^ 32 →
          Gives (.remoteWordComplete t n resp) s fun z => Ended s z t n k.dest 1 ∧ qdTail (z.queue die q) = qdTail v)
      ∧ (qdOn v = true → (i + 2 ^ 32 - qdPull v) % 2 ^ 32 ≤ qdRecords v →
          Gives (.remoteWordComplete t n resp) s fun z => Ended s z t n k.dest 0 ∧ qdTail (z.queue die q) = i))
  ∧ (k.word = .cancelJob d a → k.a.toNat / 2 ^ 32 % 4 = 0 → Gives (.remoteWordComplete t n resp) s fun z =>
      Ended s z t n k.dest (if k.a.getLsbD 34 then word (resp % 192) else 0) ∧ ∀ e < 4, k.a.toNat % 2 ^ 32 ∈ (z.mgmtOf e).cancel)
  ∧ (k.word = .cancelClear d a → k.a.toNat / 2 ^ 32 % 4 = 2 → Gives (.remoteWordComplete t n resp) s fun z =>
      Ended s z t n k.dest (if k.a.getLsbD 34 then word (resp % 192) else 0) ∧ ∀ e < 4, k.a.toNat % 2 ^ 32 ∉ (z.mgmtOf e).cancel)

/-- R390: a CANCEL that arrives is applied by every die: a job enters the tables of 64 (the oldest goes) or leaves them; a launch that has not been
placed is never placed. -/
def cancellations : Prop := ∀ (s : State) (id : Nat), s.absent = none →
  Gives (.cancelMessageArrival 0 id) s (fun z => ∀ d < 4, (z.mgmtOf d).cancel
      = if id ∈ (s.mgmtOf d).cancel then (s.mgmtOf d).cancel
        else (if 64 ≤ (s.mgmtOf d).cancel.length then (s.mgmtOf d).cancel.drop 1 else (s.mgmtOf d).cancel) ++ [id])
    ∧ Gives (.cancelMessageArrival 2 id) s (fun z => ∀ d < 4, (z.mgmtOf d).cancel = (s.mgmtOf d).cancel.filter (· != id))
    ∧ ((∀ x ∈ s.launches, x.2.info.id ≠ id) → Gives (.cancelMessageArrival 1 id) s fun z =>
        (∀ k, k ∈ z.module.refused ↔ k = id ∨ k ∈ s.module.refused) ∧ ({ z with module := s.module } : State) = s)

end Sys2Proof.Claims

/-- How the words of controllers and engines end. A word that an engine holds ends with the result that its rule gives in d, pc past the word and
its task READY; one whose condition is not met yet goes on waiting. (R266, R268, R270, R271, R272, R307, R308, R309, R339, R353, R387, R390) -/
def Obligations.EngineWordsEnd : Prop :=
  Sys2Proof.Claims.foldEnds ∧ Sys2Proof.Claims.datumEnds ∧ Sys2Proof.Claims.ddEnds ∧ Sys2Proof.Claims.remoteEnds

/-- Copies and streams. A copy segment whose turn it is is performed once, with its status; a command completes after its segments; a stream
starts when nothing before it blocks it, moves its beats in order from the beginning of a token on, and finishes with the status of its rule.
(R321, R322, R323, R326, R328, R329) -/
def Obligations.CopiesAndStreams : Prop :=
  Sys2Proof.Claims.copies ∧ Sys2Proof.Claims.streams

/-- Egress delivery and collectives. A waiting record enters its session once there is room, the lowest record once released is delivered to the
ring and a rejected one is dropped; a collective rank whose result is known writes it and is DONE, and an abort ends the ranks it concerns. (R332,
R333, R392, R395) -/
def Obligations.EgressAndCollectiveEvents : Prop :=
  Sys2Proof.Claims.egress ∧ Sys2Proof.Claims.collectiveEvents

/-- Launch records: pulled, aged, placed, moved and cancelled. The scheduler pulls the record at PULL of an enabled queue and counts it, aging
raises a priority by one, a record that fits beside the dies that a waiting record of priority 7 keeps free is placed on all its tiles at once,
compaction moves a drained launch, and a CANCEL applies to jobs and launches as stated. (R121, R122, R123, R209, R210, R385, R390) -/
def Obligations.Launches : Prop :=
  Sys2Proof.Claims.pulls ∧ Sys2Proof.Claims.aging ∧ Sys2Proof.Claims.placements ∧ Sys2Proof.Claims.moves ∧ Sys2Proof.Claims.cancellations

/-- Containment: faults taken, killed, delivered and retried. The region controller takes the fault recorded first and treats it at the level that
CONTAIN gives; a kill ends every task of the context in its region; a delivery enters the lead task's handler with cause and value; a retry
restarts the faulting operation after a TRET. (R362, R363, R365, R366, R367, R368) -/
def Obligations.FaultContainment : Prop :=
  Sys2Proof.Claims.takes ∧ Sys2Proof.Claims.kills ∧ Sys2Proof.Claims.deliveries ∧ Sys2Proof.Claims.restarts

/-- Emulated atomics and WAITV. An atomic on host, peer or far-tier memory is emulated under its lock with the results of R69; an emulated WAITV
ends with d := 0 once its word differs. (R379) -/
def Obligations.Emulation : Prop :=
  Sys2Proof.Claims.emulations ∧ Sys2Proof.Claims.emulatedPolls

/-- Context save and restore. A save of a context with no launch writes STATUS 3; a drained launch is saved, with STATUS written last, and leaves
its tiles; the header of an area has the fields of R374; a restore places the launch that the bytes of a save area give on free tiles, and one
whose area cannot be read, or gives a legend SFMT = 0b11, fails with 0x1C. (R371, R373, R374, R375) -/
def Obligations.SaveAndRestore : Prop :=
  Sys2Proof.Claims.saves ∧ Sys2Proof.Claims.saveHeaders ∧ Sys2Proof.Claims.restores

/-- Tile retirement and spawn packets. A retired tile goes on on the lowest free spare of its die, or leaves the exposed set; a packet of another
module arrives as one of this module does; a spawn packet for a placed launch creates its task with its arguments on the owner tile, and one whose
launch is not placed is dropped and its job word loses one. (R381, R389, R403) -/
def Obligations.TilesAndPackets : Prop :=
  Sys2Proof.Claims.retirements ∧ Sys2Proof.Claims.packetArrivals

/-! # Decoding, the step and reset -/

namespace Sys2Proof.Claims

/-! ## Decoding -/

/-- R34–R58: some words written out bit by bit from their encodings, and the instructions they stand for. -/
def worked : Prop :=
  (∀ e ∈ [((0b000001_00011_00001_00010_0000000_0000#32 : Word32), Instr.add 3 1 2), (0b000010_00101_00100_111111111111_0000#32, .addi 5 4 (-1)),
      (0b001110_00001_00001_00010_0000100_0000#32, .clts 1 1 2), (0b010111_0000000000000000000011_1001#32, .br 3 9),
      (0b010011_00111_00010_1111111101_10_0011#32, .stW 7 2 (-3) 3), (0b010110_00110_00010_00101_0000010_0001#32, .acas 6 2 5 1),
      (0b111111_00100_0000110000_0000010_0000#32, .csrr 4 0x030), (0b011010_11111_01010_01011_0000000_0000#32, .callt 31 10 11 0),
      (0b011100_00010_00110_00111_0000011_0000#32, .tspawn 2 6 7), (0b011110_00010_00011_00100_0000000_1101#32, .tvset 2 3 4 ⟨true, true, 1⟩),
      (0b100010_00010_00011_00000_0000010_0000#32, .fcheck 2 3 ⟨false, false, 0⟩), (0b111111_00100_00000_00000_0000110_0000#32, .fence 4)],
    decodeControl e.1 = .ok e.2)
  ∧ (∀ e ∈ [((0b0010000_001_0000_0011_0100_00011_00_000#32 : Word32), Instr.fadd ⟨1, 0, 3, 4, 3, 0, 0⟩),
      (0b0101010_000_0000_0001_0110_00010_00_000#32, .steer ⟨0, 0, 1, 6, 2, 0, 0⟩),
      (0b1001111_000_0011_1111_0100_00100_00_000#32, .nld ⟨0, 3, 15, 4, 4, 0, 0⟩)],
    decodeOp e.1 = .ok e.2)
  ∧ (∀ e ∈ [((0b00_0011_000000000000_000000_0000000_000000011111_1111111_111111_00_1_00000#64 : BitVec 64),
        Instr.mma ⟨3, 0, 0, 0, 31, 127, 63, true⟩),
      (0b00_1000_000000000001_000010_0000000_000000000100_0000001_000000_00_1_00110#64, .mmai ⟨8, 1, 2, 0, 4, 1, 0, true⟩)],
    decodeMatrix e.1 = .ok e.2)

/-- R34–R58: the encoding of every instruction of the three opcode spaces decodes to it, whatever its operands; the rows that share one word to
the first of them. -/
def encodedDecode : Prop := ∀ (i : Instr) (e : Encoded), i.illFormed = none → encode i = some e → e.decode = .ok i.canon

/-- R34–R58: a word that decodes is the encoding of what it decodes to, so no bit of it is passed over and no two instructions share a word. -/
def decodedEncode : Prop :=
  (∀ w i, decodeControl w = .ok i → encode i = some (.control w))
    ∧ (∀ w i, decodeOp w = .ok i → encode i = some (.op w))
    ∧ ∀ w i, decodeMatrix w = .ok i → encode i = some (.matrix w)

/-! ## The step -/

/-- Task `n` of tile `t` issues the word at its pc in the next step, R12, R13 and R17: the tile's Surveyor has the turn, it is not halted, no
error has struck its tasks, and no agent holds the task or its last word. The word is issued in `u`. -/
structure IssuesNext (s u : State) (t n : Nat) : Prop where
  turn    : (s.turns = [] ∧ t = s.focus.tile ∧ u = { s with turns := [.sweep], focus := { s.focus with tile := t, task := n } })
    ∨ ∃ r, s.turns = .surveyor t :: r ∧ u = { s with turns := r, focus := { s.focus with tile := t, task := n } }
  powered : s.powered = true
  going   : (s.tile t).halted = false
  sound   : s.struck t = none
  running : (s.tile t).running = some n
  taken   : u.cur.taken = none
  held    : u.cur.held = none

/-- The word at the running task's pc: four bytes of the tile's instruction store, the lowest first, R5 and R12. -/
def wordAtPc (u : State) : Word32 :=
  let b (k : Nat) : Byte := Memory.read u.here.istore.bytes (u.cur.pc.toNat + k)
  b 3 ++ b 2 ++ b 1 ++ b 0

/-- The cause of a word that decodes to nothing, R21 and R43: a guard field that must be zero gives 0x02, but for a BARQ whose operand names no group. -/
def rejected (u : State) (r : Reject) : Nat :=
  let w := wordAtPc u
  if r = .guardField ∧ ¬ (fMaj w = 0x1C ∧ fFn w = 8 ∧ 2 ≤ (u.reg (fA w)).toNat / 16 % 16) then 0x02 else 0x01

/-- R12, R13, R23, R43, R377: the step runs the instruction that the word at pc decodes to, in the state in which the correctable errors of that
word, and of the task's own bank and descriptor, have been corrected; a word that decodes to nothing, or a breakpoint that matches pc, traps. -/
def wordsIssue : Prop := ∀ (s v : State) (t n : Nat), IssuesNext s v t n → let u := v.mendTask
  (v.cur.weak = false → u = v) ∧ u.cur = { v.cur with weak := false } ∧
  (∀ i, u.atBreakpoint = false → u.here.istore.uncorrectable u.cur.pc.toNat 4 = false → decodeControl (wordAtPc u) = .ok i →
      ∃ v, Corrected u v (.instrStore t) u.cur.pc.toNat 4 ∧ step s = exec i v)
    ∧ (∀ r, u.Issues → u.atBreakpoint = false → u.here.istore.uncorrectable u.cur.pc.toNat 4 = false → decodeControl (wordAtPc u) = .error r →
      ∃ v, step s = .next v ∧ Raised u v (rejected u r) (word (wordAtPc u).toNat))
    ∧ (u.Issues → u.atBreakpoint = true → ∃ v, step s = .next v ∧ Raised u v 0x09 (word u.cur.pc.toNat))

/-- R47, R124, R405: a slot's turn runs the operation that its word decodes to; a slot that is not ready, or whose die withholds issue cycles,
leaves the device as it is. -/
def slotsFire : Prop := ∀ (s : State) (r : List Turn) (g c n : Nat) (i : Instr), s.turns = .slot g c n :: r → s.absent = none →
  let v : State := { s with turns := r }
  let u := v.focusSlot g c n
  decodeOp ((s.ectx g c).slot n).opw = .ok i →
    (s.withheld (tileDie (gidTile g)) = true → step s = .next v)
      ∧ (s.withheld (tileDie (gidTile g)) = false → step s = exec i u ∨ step s = .next v ∧ exec i u = .next u)

/-- R124: the arbiter's turn is the turn of a slot that can fire, of a context whose priority none that can fire exceeds; at one priority the slot
whose tokens arrived first, or under DET come first in the order of frames, fires, and at one rank that of the lower number, but for one that the
bound of 64 opportunities puts first: that which has been passed over longest (the model's choice, the bound's means). -/
def arbiters : Prop := ∀ (s : State) (r : List Turn) (g : Nat), s.turns = .arbiter g :: r → s.withheld (tileDie (gidTile g)) = false →
  (∀ c < 4, (s.ectx g c).bad = false ∧ (s.ectx g c).weak = false) →
  let v : State := { s with turns := r }
  let prio (c : Nat) : Nat := ((s.tile (gidTile g)).ctx c).prio.toNat
  let due := State.boundDue (s.elem g).waited (v.topRanked g)
  (∃ c n u w, c < 4 ∧ n < 16 ∧ v.fireSlot g c n = some u ∧ step s = settle (u.modElem g fun e => { e with waited := w })
      ∧ (∀ c' n', c' < 4 → n' < 16 → prio c < prio c' → v.fireSlot g c' n' = none)
      ∧ (due = false → ∀ c' n' k k', c' < 4 → n' < 16 → prio c' = prio c → v.slotKey g c n = some k → v.slotKey g c' n' = some k' →
          k' < k ∨ (k' = k ∧ n' < n) → v.fireSlot g c' n' = none)
      ∧ (due = true → ∀ q, State.longest (s.elem g).waited (v.topRanked g) = some q → (v.fireSlot g q.2.1 q.2.2).isSome = true → q.2 = (c, n)))
    ∨ (step s = settle v ∧ ∀ c n, c < 4 → n < 16 → v.fireSlot g c n = none)

/-- R55, R56, R189: a node's turn runs the instruction that the entry at the head of its queue decodes to. -/
def nodesStep : Prop := ∀ (s : State) (r : List Turn) (t : Nat) (e : Entry) (q : List Entry), s.turns = .node t :: r →
  (s.node t).fault = none → (s.node t).queue = e :: q → s.withheld (tileDie t) = false →
  let u : State := { s with turns := r, focus := { s.focus with tile := t } }
  (∀ i, decodeMatrix e.word = .ok i → step s = exec i u)
    ∧ ∀ x, decodeMatrix e.word = .error x → ∃ z, step s = .next z ∧ NodeStopped u z e 0x01 0 0

/-- An input from outside, and a step of an engine or controller, is the event of its row; an element or engine whose die withholds issue cycles
takes none, R405. -/
def eventsStep : Prop := ∀ (s : State) (r : List Turn), let v : State := { s with turns := r }
  (∀ i, s.turns = .input i :: r → step s = exec i v)
    ∧ ∀ w, s.turns = .work w :: r → step s = if w.issuer.any s.withheld then .next v else runWork w v

/-! ## Reset -/

/-- R32, R87, R224, R332, R385, R399, R402: what reset leaves. -/
def resetValues : Prop :=
  let s := State.reset
  (∀ t < 640, (s.tile t).halted = false ∧ (s.tile t).exposed = true ∧ ((s.tile t).task 0).state = .run ∧ ((s.tile t).task 0).pc = 0
      ∧ ((s.tile t).task 0).sup = true ∧ (∀ n, 0 < n → n < 32 → ((s.tile t).task n).state = .free)
      ∧ (∀ n < 32, ((s.tile t).task n).te = false ∧ ((s.tile t).task n).sup = true) ∧ ∀ n r, ((s.tile t).task n).reg r = 0)
    ∧ (∀ sp, s.store sp = {}) ∧ (∀ c : Fin 4, (s.troot.get c).en = false)
    ∧ (∀ d < 4, (s.mgmtOf d).egring = 0 ∧ (s.mgmtOf d).fltring = 0 ∧ (s.mgmtOf d).thr = false ∧ (s.mgmtOf d).pcap = false)
    ∧ s.module.plim = 0x4B00 ∧ s.launches = [] ∧ s.powered = true

/-! ## Memory -/

def resetCanonical : Prop := Canonical State.reset

/-- Every step keeps the canonical form. -/
def stepCanonical : Prop := ∀ s t : State, Canonical s → step s = .next t → Canonical t

end Sys2Proof.Claims

/-- The step runs the decoded word. When a tile's Surveyor has the turn and its running task is held by nothing, the step is exec of the
instruction that the four bytes at pc decode to, in the state with the correctable errors of the word and of the task corrected; bytes that decode
to nothing trap with 0x01 or 0x02 and the word as value, and a matching breakpoint traps with 0x09. (R12, R13, R17, R23, R43, R377) -/
def Obligations.StepRunsTheWord : Prop :=
  Sys2Proof.Claims.wordsIssue

/-- A slot's turn and the arbiter's. A slot that has the turn runs the operation that its word decodes to, or leaves the device as it is where it
is not ready; the arbiter picks a slot that can fire, of a context whose PRIO no slot that can fire exceeds, the earliest at one PRIO but for one
that the bound of 64 opportunities puts first; a die that withholds issue cycles fires none. (R47, R124, R405) -/
def Obligations.StepRunsTheSlot : Prop :=
  Sys2Proof.Claims.slotsFire ∧ Sys2Proof.Claims.arbiters

/-- The turns of nodes, engines and inputs. A node's turn runs the instruction that the entry at the head of its queue decodes to, and one with a
reserved bit set stops the node; an input or an engine's step is the event of its row. (R55, R56, R189, R405) -/
def Obligations.StepRunsTheToken : Prop :=
  Sys2Proof.Claims.nodesStep ∧ Sys2Proof.Claims.eventsStep

/-- Words written out bit by bit. Words of the three opcode spaces, written out from the fields of their encodings, decode to the instructions
that they stand for. (R34, R35, R36, R44, R47, R54, R55) -/
def Obligations.WorkedWords : Prop :=
  Sys2Proof.Claims.worked

/-- Decode and encode agree. Every well-formed instruction of the three opcode spaces, with every operand at every value, decodes from its
encoding (the rows that share one word to the first of them), and every word that decodes is the encoding of what it decodes to. (R33, R34, R35,
R36, R38, R39, R44, R47, R54, R55, R58) -/
def Obligations.RoundTrip : Prop :=
  Sys2Proof.Claims.encodedDecode ∧ Sys2Proof.Claims.decodedEncode

/-- What reset leaves. At reset task 0 of every tile is in RUN at pc 0 with its registers 0 and in supervisor state, the other tasks are FREE with
TE = 0 and SUP = 1, every memory is empty and in its canonical form, translation is off and nothing is placed. An empty firmware image, and the
exposure of all 640 tiles, are the model's choices. (R32, R224, R332, R399, R402) -/
def Obligations.ResetState : Prop :=
  Sys2Proof.Claims.resetValues ∧ Sys2Proof.Claims.resetCanonical

/-- Every step keeps the canonical form of the memories. From every state in which every memory and store lists its bytes at strictly rising
addresses with no byte that reads as unlisted, every step that gives a next state gives one in which they do. The form is the model's own. (R5,
R222, R276) -/
def Obligations.StepKeepsCanonicalMemory : Prop :=
  Sys2Proof.Claims.stepCanonical
end

