-- ==== Sys2Proof/Laws/Maps.lean ====
section
/-! SUPPORT. Laws of the maps and sets by number and of byte memories: reading after writing, what a write leaves alone, and
the canonical form that every memory operation keeps. -/

namespace Sys2Proof.Machine

/-! ## Maps -/

theorem SMap.get?_set_self {α : Type} (m : SMap α) (k : Nat) (v : α) : SMap.get? (SMap.set m k v) k = some v := by
  induction m with
  | nil => simp [SMap.set, SMap.get?]
  | cons e r ih =>
    obtain ⟨j, w⟩ := e
    unfold SMap.set
    split
    · simp [SMap.get?]
    · split
      · simp [SMap.get?]
      · next h => simp [SMap.get?, h, ih]

theorem SMap.get?_set_of_ne {α : Type} (m : SMap α) {k i : Nat} (v : α) (h : i ≠ k) :
    SMap.get? (SMap.set m k v) i = SMap.get? m i := by
  induction m with
  | nil => simp [SMap.set, SMap.get?, Ne.symm h]
  | cons e r ih =>
    obtain ⟨j, w⟩ := e
    unfold SMap.set
    split
    · simp [SMap.get?, Ne.symm h]
    · split
      · next hj => subst hj; simp [SMap.get?, Ne.symm h]
      · simp only [SMap.get?, ih]

@[simp] theorem SMap.getD_set_self {α : Type} (m : SMap α) (k : Nat) (v d : α) : SMap.getD (SMap.set m k v) k d = v := by
  simp [SMap.getD, SMap.get?_set_self]

theorem SMap.getD_set_of_ne {α : Type} (m : SMap α) {k i : Nat} (v d : α) (h : i ≠ k) :
    SMap.getD (SMap.set m k v) i d = SMap.getD m i d := by
  simp [SMap.getD, SMap.get?_set_of_ne m v h]

theorem SMap.get?_erase {α : Type} (m : SMap α) (k i : Nat) :
    SMap.get? (SMap.erase m k) i = if i = k then none else SMap.get? m i := by
  induction m with
  | nil => simp [SMap.erase, SMap.get?]
  | cons e r ih =>
    obtain ⟨j, w⟩ := e
    simp only [SMap.erase] at ih
    by_cases hj : j = k
    · subst hj
      by_cases hi : i = j
      · simpa [SMap.erase, SMap.get?, hi] using ih
      · simp [SMap.erase, SMap.get?, hi, Ne.symm hi, ih]
    · by_cases hi : i = k
      · subst hi; simp [SMap.erase, SMap.get?, hj, ih]
      · simp [SMap.erase, SMap.get?, hj, hi, ih]

/-- A map changed entry by entry. -/
theorem SMap.get?_map {α β : Type} (m : SMap α) (f : Nat → α → β) (k : Nat) :
    SMap.get? (m.map fun e => (e.1, f e.1 e.2)) k = (SMap.get? m k).map (f k) := by
  induction m with
  | nil => rfl
  | cons e r ih =>
    obtain ⟨j, w⟩ := e
    simp only [List.map_cons, SMap.get?]
    split
    · next h => rw [h]; rfl
    · exact ih

theorem SMap.set_ne_nil {α : Type} (m : SMap α) (k : Nat) (v : α) : SMap.set m k v ≠ [] := by
  cases m with
  | nil => simp [SMap.set]
  | cons e r => obtain ⟨j, w⟩ := e; unfold SMap.set; split <;> [simp; (split <;> simp)]

/-! ## Sets -/

@[simp] theorem NSet.mem_insert (m : NSet) (k i : Nat) : i ∈ NSet.insert m k ↔ i = k ∨ i ∈ m := by
  induction m with
  | nil => simp [NSet.insert]
  | cons j r ih =>
    unfold NSet.insert
    split
    · simp
    · split
      · next h => subst h; simp
      · simp [ih]; tauto

@[simp] theorem NSet.mem_erase (m : NSet) (k i : Nat) : i ∈ NSet.erase m k ↔ i ∈ m ∧ i ≠ k := by
  simp [NSet.erase]

/-! ## Memories: reading after writing -/

theorem Memory.read_drop (m : Memory) (a i : Nat) :
    Memory.read (Memory.drop m a) i = if i = a then Memory.unlisted else Memory.read m i := by
  induction m with
  | nil => simp [Memory.drop, Memory.read]
  | cons e r ih =>
    obtain ⟨j, b⟩ := e
    simp only [Memory.drop] at ih
    by_cases hj : j = a
    · subst hj
      by_cases hi : i = j
      · simpa [Memory.drop, Memory.read, hi] using ih
      · simp [Memory.drop, Memory.read, hi, Ne.symm hi, ih]
    · by_cases hi : i = a
      · subst hi; simp [Memory.drop, Memory.read, hj, ih]
      · simp [Memory.drop, Memory.read, hj, hi, ih]

theorem Memory.read_put (m : Memory) (a i : Nat) (b : Byte) :
    Memory.read (Memory.put m a b) i = if i = a then b else Memory.read m i := by
  induction m with
  | nil =>
    by_cases h : i = a
    · simp [Memory.put, Memory.read, h]
    · simp [Memory.put, Memory.read, h, Ne.symm h]
  | cons e r ih =>
    obtain ⟨j, c⟩ := e
    unfold Memory.put
    split
    · by_cases h : i = a
      · simp [Memory.read, h]
      · simp [Memory.read, h, Ne.symm h]
    · split
      · next hj =>
        subst hj
        by_cases h : i = j
        · simp [Memory.read, h]
        · simp [Memory.read, h, Ne.symm h]
      · next hj =>
        simp only [Memory.read, ih]
        by_cases h : i = a
        · subst h; simp [hj]
        · simp [h]

/-- A byte read after one byte is written. -/
theorem Memory.read_write (m : Memory) (a i : Nat) (b : Byte) :
    Memory.read (Memory.write m a b) i = if i = a then b else Memory.read m i := by
  unfold Memory.write
  split
  · next h => rw [Memory.read_drop, h]
  · exact Memory.read_put m a i b

/-- A byte read after `n` bytes of a number are written: byte `i − a` of the number inside them, and outside what was there. -/
theorem Memory.read_writeN (m : Memory) (a n x i : Nat) :
    Memory.read (Memory.writeN m a n x) i = if a ≤ i ∧ i < a + n then BitVec.ofNat 8 (x / 256 ^ (i - a)) else Memory.read m i := by
  induction n generalizing m a x with
  | zero => rw [Memory.writeN, if_neg (by omega)]
  | succ n ih =>
    rw [Memory.writeN, ih, Memory.read_write]
    by_cases h1 : i = a
    · subst h1; simp
    · by_cases h2 : a + 1 ≤ i ∧ i < a + 1 + n
      · have h3 : a ≤ i ∧ i < a + (n + 1) := by omega
        rw [if_pos h2, if_pos h3]
        have h4 : i - a = (i - (a + 1)) + 1 := by omega
        rw [h4, pow_succ', ← Nat.div_div_eq_div_mul]
      · have h3 : ¬ (a ≤ i ∧ i < a + (n + 1)) := by omega
        rw [if_neg h2, if_neg h3, if_neg h1]

/-- `n` bytes read where the same `n` bytes were written. -/
theorem Memory.readN_writeN (m : Memory) (a n x : Nat) : Memory.readN (Memory.writeN m a n x) a n = x % 256 ^ n := by
  have h : ∀ k b y, (∀ j, j < k → Memory.read (Memory.writeN m a n x) (b + j) = BitVec.ofNat 8 (y / 256 ^ j)) →
      Memory.readN (Memory.writeN m a n x) b k = y % 256 ^ k := by
    intro k
    induction k with
    | zero => intro b y _; simp [Memory.readN, Nat.mod_one]
    | succ k ih =>
      intro b y hb
      rw [Memory.readN, ih (b + 1) (y / 256)]
      · have h0 := hb 0 (Nat.succ_pos k)
        simp only [Nat.add_zero, pow_zero, Nat.div_one] at h0
        rw [h0, BitVec.toNat_ofNat, pow_succ' 256 k, Nat.mod_mul]
      · intro j hj
        have := hb (j + 1) (by omega)
        rw [pow_succ', ← Nat.div_div_eq_div_mul] at this
        rw [← this]; congr 1; omega
  refine h n a x fun j hj => ?_
  rw [Memory.read_writeN]
  have h2 : a ≤ a + j ∧ a + j < a + n := by omega
  rw [if_pos h2]; congr 2; simp

/-- Bytes that a write does not touch read as before. -/
theorem Memory.readN_writeN_of_disjoint (m : Memory) (a n x b k : Nat) (h : b + k ≤ a ∨ a + n ≤ b) :
    Memory.readN (Memory.writeN m a n x) b k = Memory.readN m b k := by
  induction k generalizing b with
  | zero => rfl
  | succ k ih =>
    rw [Memory.readN, Memory.readN, ih (b + 1) (by omega), Memory.read_writeN, if_neg (by omega)]

/-! ## Memories: the canonical form -/

theorem Memory.risesFrom_weaken {m : Memory} {l k : Nat} (h : Memory.risesFrom (some l) m = true) (hk : k ≤ l) :
    Memory.risesFrom (some k) m = true := by
  cases m with
  | nil => rfl
  | cons e r =>
    obtain ⟨j, b⟩ := e
    simp only [Memory.risesFrom, Bool.and_eq_true, decide_eq_true_eq] at h ⊢
    exact ⟨⟨by omega, h.1.2⟩, h.2⟩

theorem Memory.risesFrom_drop {m : Memory} {o : Option Nat} (a : Nat) (h : Memory.risesFrom o m = true) :
    Memory.risesFrom o (Memory.drop m a) = true := by
  induction m generalizing o with
  | nil => simpa [Memory.drop] using h
  | cons e r ih =>
    obtain ⟨j, b⟩ := e
    simp only [Memory.risesFrom, Bool.and_eq_true] at h
    by_cases hj : j = a
    · subst hj
      have hr := ih h.2
      have : Memory.drop ((j, b) :: r) j = Memory.drop r j := by simp [Memory.drop]
      rw [this]
      cases o with
      | none =>
        cases hd : Memory.drop r j with
        | nil => rfl
        | cons e q =>
          obtain ⟨i, c⟩ := e
          rw [hd] at hr
          simp only [Memory.risesFrom, Bool.and_eq_true] at hr ⊢
          exact ⟨⟨trivial, hr.1.2⟩, hr.2⟩
      | some l => exact Memory.risesFrom_weaken hr (by simpa using Nat.le_of_lt (by simpa using h.1.1))
    · have : Memory.drop ((j, b) :: r) a = (j, b) :: Memory.drop r a := by simp [Memory.drop, hj]
      rw [this]
      simp only [Memory.risesFrom, Bool.and_eq_true]
      exact ⟨h.1, ih h.2⟩

theorem Memory.risesFrom_put {m : Memory} {o : Option Nat} {a : Nat} {b : Byte} (hb : b ≠ Memory.unlisted)
    (ho : ∀ l, o = some l → l < a) (h : Memory.risesFrom o m = true) : Memory.risesFrom o (Memory.put m a b) = true := by
  induction m generalizing o with
  | nil => cases o <;> simp_all [Memory.put, Memory.risesFrom]
  | cons e r ih =>
    obtain ⟨j, c⟩ := e
    simp only [Memory.risesFrom, Bool.and_eq_true] at h
    have hlt : (match (generalizing := false) o with | none => true | some l => decide (l < a)) = true := by
      cases o with
      | none => rfl
      | some l => simpa using ho l rfl
    unfold Memory.put
    split
    · next hja =>
      simp only [Memory.risesFrom, Bool.and_eq_true, bne_iff_ne, ne_eq, decide_eq_true_eq]
      exact ⟨⟨hlt, hb⟩, ⟨hja, by simpa using h.1.2⟩, h.2⟩
    · split
      · next hj =>
        subst hj
        simp only [Memory.risesFrom, Bool.and_eq_true, bne_iff_ne, ne_eq]
        exact ⟨⟨hlt, hb⟩, h.2⟩
      · next h1 h2 =>
        simp only [Memory.risesFrom, Bool.and_eq_true]
        refine ⟨h.1, ih ?_ h.2⟩
        intro l hl
        simp only [Option.some.injEq] at hl
        omega

/-- Writing a byte keeps the canonical form. -/
theorem Memory.wf_write {m : Memory} (a : Nat) (b : Byte) (h : m.wf = true) : (Memory.write m a b).wf = true := by
  unfold Memory.write Memory.wf at *
  split
  · exact Memory.risesFrom_drop a h
  · next hb => exact Memory.risesFrom_put hb (by simp) h

/-- Writing the bytes of a number keeps the canonical form. -/
theorem Memory.wf_writeN {m : Memory} (a n x : Nat) (h : m.wf = true) : (Memory.writeN m a n x).wf = true := by
  induction n generalizing m a x with
  | zero => exact h
  | succ n ih => exact ih _ _ (Memory.wf_write a _ h)

/-- Writing a list of bytes keeps the canonical form. -/
theorem Memory.wf_writeBytes {m : Memory} (a : Nat) (bs : List Byte) (h : m.wf = true) : (Memory.writeBytes m a bs).wf = true := by
  induction bs generalizing m a with
  | nil => exact h
  | cons b r ih => exact ih _ (Memory.wf_write a b h)

theorem Memory.wf_nil : Memory.wf [] = true := rfl

/-- Two memories in canonical form that read alike are equal. -/
theorem Memory.risesFrom_read {m : Memory} {l i : Nat} (h : Memory.risesFrom (some l) m = true) (hi : i ≤ l) :
    Memory.read m i = Memory.unlisted := by
  induction m generalizing l with
  | nil => rfl
  | cons e r ih =>
    obtain ⟨j, b⟩ := e
    simp only [Memory.risesFrom, Bool.and_eq_true, decide_eq_true_eq] at h
    have hne : j ≠ i := by omega
    rw [Memory.read, if_neg hne]
    exact ih h.2 (by omega)

end Sys2Proof.Machine
end

