-- ==== Sys2Proof/Laws/State.lean ====
section
/-! SUPPORT. One law per field for each update of the state, of a tile and of a task: the fields that the update does not own. -/

namespace Sys2Proof.Machine

@[simp] theorem State.setTile_focus (s : State) (t : Nat) (T : Tile) : (s.setTile t T).focus = s.focus := rfl
@[simp] theorem State.setTile_turns (s : State) (t : Nat) (T : Tile) : (s.setTile t T).turns = s.turns := rfl
@[simp] theorem State.setTile_elems (s : State) (t : Nat) (T : Tile) : (s.setTile t T).elems = s.elems := rfl
@[simp] theorem State.setTile_ectxs (s : State) (t : Nat) (T : Tile) : (s.setTile t T).ectxs = s.ectxs := rfl
@[simp] theorem State.setTile_nodes (s : State) (t : Nat) (T : Tile) : (s.setTile t T).nodes = s.nodes := rfl
@[simp] theorem State.setTile_hbm (s : State) (t : Nat) (T : Tile) : (s.setTile t T).hbm = s.hbm := rfl
@[simp] theorem State.setTile_far (s : State) (t : Nat) (T : Tile) : (s.setTile t T).far = s.far := rfl
@[simp] theorem State.setTile_host (s : State) (t : Nat) (T : Tile) : (s.setTile t T).host = s.host := rfl
@[simp] theorem State.setTile_peers (s : State) (t : Nat) (T : Tile) : (s.setTile t T).peers = s.peers := rfl
@[simp] theorem State.setTile_inflight (s : State) (t : Nat) (T : Tile) : (s.setTile t T).inflight = s.inflight := rfl
@[simp] theorem State.setTile_monitors (s : State) (t : Nat) (T : Tile) : (s.setTile t T).monitors = s.monitors := rfl
@[simp] theorem State.setTile_troot (s : State) (t : Nat) (T : Tile) : (s.setTile t T).troot = s.troot := rfl
@[simp] theorem State.setTile_units (s : State) (t : Nat) (T : Tile) : (s.setTile t T).units = s.units := rfl
@[simp] theorem State.setTile_folds (s : State) (t : Nat) (T : Tile) : (s.setTile t T).folds = s.folds := rfl
@[simp] theorem State.setTile_regions (s : State) (t : Nat) (T : Tile) : (s.setTile t T).regions = s.regions := rfl
@[simp] theorem State.setTile_blocks (s : State) (t : Nat) (T : Tile) : (s.setTile t T).blocks = s.blocks := rfl
@[simp] theorem State.setTile_insts (s : State) (t : Nat) (T : Tile) : (s.setTile t T).insts = s.insts := rfl
@[simp] theorem State.setTile_launches (s : State) (t : Nat) (T : Tile) : (s.setTile t T).launches = s.launches := rfl
@[simp] theorem State.setTile_spawned (s : State) (t : Nat) (T : Tile) : (s.setTile t T).spawned = s.spawned := rfl
@[simp] theorem State.setTile_serial (s : State) (t : Nat) (T : Tile) : (s.setTile t T).serial = s.serial := rfl
@[simp] theorem State.setTile_fresh (s : State) (t : Nat) (T : Tile) : (s.setTile t T).fresh = s.fresh := rfl
@[simp] theorem State.setTile_absent (s : State) (t : Nat) (T : Tile) : (s.setTile t T).absent = s.absent := rfl
@[simp] theorem State.setTile_cells (s : State) (t : Nat) (T : Tile) : (s.setTile t T).cells = s.cells := rfl
@[simp] theorem State.setTile_domains (s : State) (t : Nat) (T : Tile) : (s.setTile t T).domains = s.domains := rfl
@[simp] theorem State.setTile_unitWm (s : State) (t : Nat) (T : Tile) : (s.setTile t T).unitWm = s.unitWm := rfl
@[simp] theorem State.setTile_dd (s : State) (t : Nat) (T : Tile) : (s.setTile t T).dd = s.dd := rfl
@[simp] theorem State.setTile_egress (s : State) (t : Nat) (T : Tile) : (s.setTile t T).egress = s.egress := rfl
@[simp] theorem State.setTile_posted (s : State) (t : Nat) (T : Tile) : (s.setTile t T).posted = s.posted := rfl
@[simp] theorem State.setTile_packets (s : State) (t : Nat) (T : Tile) : (s.setTile t T).packets = s.packets := rfl
@[simp] theorem State.setTile_orphans (s : State) (t : Nat) (T : Tile) : (s.setTile t T).orphans = s.orphans := rfl
@[simp] theorem State.setTile_searches (s : State) (t : Nat) (T : Tile) : (s.setTile t T).searches = s.searches := rfl
@[simp] theorem State.setTile_notices (s : State) (t : Nat) (T : Tile) : (s.setTile t T).notices = s.notices := rfl
@[simp] theorem State.setTile_hostDown (s : State) (t : Nat) (T : Tile) : (s.setTile t T).hostDown = s.hostDown := rfl
@[simp] theorem State.setTile_planesDown (s : State) (t : Nat) (T : Tile) : (s.setTile t T).planesDown = s.planesDown := rfl
@[simp] theorem State.setTile_powered (s : State) (t : Nat) (T : Tile) : (s.setTile t T).powered = s.powered := rfl
@[simp] theorem State.setTile_shutdown (s : State) (t : Nat) (T : Tile) : (s.setTile t T).shutdown = s.shutdown := rfl
@[simp] theorem State.setTile_jobs (s : State) (t : Nat) (T : Tile) : (s.setTile t T).jobs = s.jobs := rfl
@[simp] theorem State.setTile_mgmt (s : State) (t : Nat) (T : Tile) : (s.setTile t T).mgmt = s.mgmt := rfl
@[simp] theorem State.setTile_module (s : State) (t : Nat) (T : Tile) : (s.setTile t T).module = s.module := rfl

@[simp] theorem State.modTile_focus (s : State) (t : Nat) (f : Tile → Tile) : (s.modTile t f).focus = s.focus := rfl
@[simp] theorem State.modTile_turns (s : State) (t : Nat) (f : Tile → Tile) : (s.modTile t f).turns = s.turns := rfl
@[simp] theorem State.modTile_elems (s : State) (t : Nat) (f : Tile → Tile) : (s.modTile t f).elems = s.elems := rfl
@[simp] theorem State.modTile_ectxs (s : State) (t : Nat) (f : Tile → Tile) : (s.modTile t f).ectxs = s.ectxs := rfl
@[simp] theorem State.modTile_nodes (s : State) (t : Nat) (f : Tile → Tile) : (s.modTile t f).nodes = s.nodes := rfl
@[simp] theorem State.modTile_hbm (s : State) (t : Nat) (f : Tile → Tile) : (s.modTile t f).hbm = s.hbm := rfl
@[simp] theorem State.modTile_far (s : State) (t : Nat) (f : Tile → Tile) : (s.modTile t f).far = s.far := rfl
@[simp] theorem State.modTile_host (s : State) (t : Nat) (f : Tile → Tile) : (s.modTile t f).host = s.host := rfl
@[simp] theorem State.modTile_peers (s : State) (t : Nat) (f : Tile → Tile) : (s.modTile t f).peers = s.peers := rfl
@[simp] theorem State.modTile_inflight (s : State) (t : Nat) (f : Tile → Tile) : (s.modTile t f).inflight = s.inflight := rfl
@[simp] theorem State.modTile_monitors (s : State) (t : Nat) (f : Tile → Tile) : (s.modTile t f).monitors = s.monitors := rfl
@[simp] theorem State.modTile_troot (s : State) (t : Nat) (f : Tile → Tile) : (s.modTile t f).troot = s.troot := rfl
@[simp] theorem State.modTile_units (s : State) (t : Nat) (f : Tile → Tile) : (s.modTile t f).units = s.units := rfl
@[simp] theorem State.modTile_folds (s : State) (t : Nat) (f : Tile → Tile) : (s.modTile t f).folds = s.folds := rfl
@[simp] theorem State.modTile_regions (s : State) (t : Nat) (f : Tile → Tile) : (s.modTile t f).regions = s.regions := rfl
@[simp] theorem State.modTile_blocks (s : State) (t : Nat) (f : Tile → Tile) : (s.modTile t f).blocks = s.blocks := rfl
@[simp] theorem State.modTile_insts (s : State) (t : Nat) (f : Tile → Tile) : (s.modTile t f).insts = s.insts := rfl
@[simp] theorem State.modTile_launches (s : State) (t : Nat) (f : Tile → Tile) : (s.modTile t f).launches = s.launches := rfl
@[simp] theorem State.modTile_spawned (s : State) (t : Nat) (f : Tile → Tile) : (s.modTile t f).spawned = s.spawned := rfl
@[simp] theorem State.modTile_serial (s : State) (t : Nat) (f : Tile → Tile) : (s.modTile t f).serial = s.serial := rfl
@[simp] theorem State.modTile_fresh (s : State) (t : Nat) (f : Tile → Tile) : (s.modTile t f).fresh = s.fresh := rfl
@[simp] theorem State.modTile_absent (s : State) (t : Nat) (f : Tile → Tile) : (s.modTile t f).absent = s.absent := rfl
@[simp] theorem State.modTile_cells (s : State) (t : Nat) (f : Tile → Tile) : (s.modTile t f).cells = s.cells := rfl
@[simp] theorem State.modTile_domains (s : State) (t : Nat) (f : Tile → Tile) : (s.modTile t f).domains = s.domains := rfl
@[simp] theorem State.modTile_unitWm (s : State) (t : Nat) (f : Tile → Tile) : (s.modTile t f).unitWm = s.unitWm := rfl
@[simp] theorem State.modTile_dd (s : State) (t : Nat) (f : Tile → Tile) : (s.modTile t f).dd = s.dd := rfl
@[simp] theorem State.modTile_egress (s : State) (t : Nat) (f : Tile → Tile) : (s.modTile t f).egress = s.egress := rfl
@[simp] theorem State.modTile_posted (s : State) (t : Nat) (f : Tile → Tile) : (s.modTile t f).posted = s.posted := rfl
@[simp] theorem State.modTile_packets (s : State) (t : Nat) (f : Tile → Tile) : (s.modTile t f).packets = s.packets := rfl
@[simp] theorem State.modTile_orphans (s : State) (t : Nat) (f : Tile → Tile) : (s.modTile t f).orphans = s.orphans := rfl
@[simp] theorem State.modTile_searches (s : State) (t : Nat) (f : Tile → Tile) : (s.modTile t f).searches = s.searches := rfl
@[simp] theorem State.modTile_notices (s : State) (t : Nat) (f : Tile → Tile) : (s.modTile t f).notices = s.notices := rfl
@[simp] theorem State.modTile_hostDown (s : State) (t : Nat) (f : Tile → Tile) : (s.modTile t f).hostDown = s.hostDown := rfl
@[simp] theorem State.modTile_planesDown (s : State) (t : Nat) (f : Tile → Tile) : (s.modTile t f).planesDown = s.planesDown := rfl
@[simp] theorem State.modTile_powered (s : State) (t : Nat) (f : Tile → Tile) : (s.modTile t f).powered = s.powered := rfl
@[simp] theorem State.modTile_shutdown (s : State) (t : Nat) (f : Tile → Tile) : (s.modTile t f).shutdown = s.shutdown := rfl
@[simp] theorem State.modTile_jobs (s : State) (t : Nat) (f : Tile → Tile) : (s.modTile t f).jobs = s.jobs := rfl
@[simp] theorem State.modTile_mgmt (s : State) (t : Nat) (f : Tile → Tile) : (s.modTile t f).mgmt = s.mgmt := rfl
@[simp] theorem State.modTile_module (s : State) (t : Nat) (f : Tile → Tile) : (s.modTile t f).module = s.module := rfl

@[simp] theorem State.modElem_focus (s : State) (g : Nat) (f : Elem → Elem) : (s.modElem g f).focus = s.focus := rfl
@[simp] theorem State.modElem_turns (s : State) (g : Nat) (f : Elem → Elem) : (s.modElem g f).turns = s.turns := rfl
@[simp] theorem State.modElem_tiles (s : State) (g : Nat) (f : Elem → Elem) : (s.modElem g f).tiles = s.tiles := rfl
@[simp] theorem State.modElem_ectxs (s : State) (g : Nat) (f : Elem → Elem) : (s.modElem g f).ectxs = s.ectxs := rfl
@[simp] theorem State.modElem_nodes (s : State) (g : Nat) (f : Elem → Elem) : (s.modElem g f).nodes = s.nodes := rfl
@[simp] theorem State.modElem_hbm (s : State) (g : Nat) (f : Elem → Elem) : (s.modElem g f).hbm = s.hbm := rfl
@[simp] theorem State.modElem_far (s : State) (g : Nat) (f : Elem → Elem) : (s.modElem g f).far = s.far := rfl
@[simp] theorem State.modElem_host (s : State) (g : Nat) (f : Elem → Elem) : (s.modElem g f).host = s.host := rfl
@[simp] theorem State.modElem_peers (s : State) (g : Nat) (f : Elem → Elem) : (s.modElem g f).peers = s.peers := rfl
@[simp] theorem State.modElem_inflight (s : State) (g : Nat) (f : Elem → Elem) : (s.modElem g f).inflight = s.inflight := rfl
@[simp] theorem State.modElem_monitors (s : State) (g : Nat) (f : Elem → Elem) : (s.modElem g f).monitors = s.monitors := rfl
@[simp] theorem State.modElem_troot (s : State) (g : Nat) (f : Elem → Elem) : (s.modElem g f).troot = s.troot := rfl
@[simp] theorem State.modElem_units (s : State) (g : Nat) (f : Elem → Elem) : (s.modElem g f).units = s.units := rfl
@[simp] theorem State.modElem_folds (s : State) (g : Nat) (f : Elem → Elem) : (s.modElem g f).folds = s.folds := rfl
@[simp] theorem State.modElem_regions (s : State) (g : Nat) (f : Elem → Elem) : (s.modElem g f).regions = s.regions := rfl
@[simp] theorem State.modElem_blocks (s : State) (g : Nat) (f : Elem → Elem) : (s.modElem g f).blocks = s.blocks := rfl
@[simp] theorem State.modElem_insts (s : State) (g : Nat) (f : Elem → Elem) : (s.modElem g f).insts = s.insts := rfl
@[simp] theorem State.modElem_launches (s : State) (g : Nat) (f : Elem → Elem) : (s.modElem g f).launches = s.launches := rfl
@[simp] theorem State.modElem_spawned (s : State) (g : Nat) (f : Elem → Elem) : (s.modElem g f).spawned = s.spawned := rfl
@[simp] theorem State.modElem_serial (s : State) (g : Nat) (f : Elem → Elem) : (s.modElem g f).serial = s.serial := rfl
@[simp] theorem State.modElem_fresh (s : State) (g : Nat) (f : Elem → Elem) : (s.modElem g f).fresh = s.fresh := rfl
@[simp] theorem State.modElem_absent (s : State) (g : Nat) (f : Elem → Elem) : (s.modElem g f).absent = s.absent := rfl
@[simp] theorem State.modElem_cells (s : State) (g : Nat) (f : Elem → Elem) : (s.modElem g f).cells = s.cells := rfl
@[simp] theorem State.modElem_domains (s : State) (g : Nat) (f : Elem → Elem) : (s.modElem g f).domains = s.domains := rfl
@[simp] theorem State.modElem_unitWm (s : State) (g : Nat) (f : Elem → Elem) : (s.modElem g f).unitWm = s.unitWm := rfl
@[simp] theorem State.modElem_dd (s : State) (g : Nat) (f : Elem → Elem) : (s.modElem g f).dd = s.dd := rfl
@[simp] theorem State.modElem_egress (s : State) (g : Nat) (f : Elem → Elem) : (s.modElem g f).egress = s.egress := rfl
@[simp] theorem State.modElem_posted (s : State) (g : Nat) (f : Elem → Elem) : (s.modElem g f).posted = s.posted := rfl
@[simp] theorem State.modElem_packets (s : State) (g : Nat) (f : Elem → Elem) : (s.modElem g f).packets = s.packets := rfl
@[simp] theorem State.modElem_orphans (s : State) (g : Nat) (f : Elem → Elem) : (s.modElem g f).orphans = s.orphans := rfl
@[simp] theorem State.modElem_searches (s : State) (g : Nat) (f : Elem → Elem) : (s.modElem g f).searches = s.searches := rfl
@[simp] theorem State.modElem_notices (s : State) (g : Nat) (f : Elem → Elem) : (s.modElem g f).notices = s.notices := rfl
@[simp] theorem State.modElem_hostDown (s : State) (g : Nat) (f : Elem → Elem) : (s.modElem g f).hostDown = s.hostDown := rfl
@[simp] theorem State.modElem_planesDown (s : State) (g : Nat) (f : Elem → Elem) : (s.modElem g f).planesDown = s.planesDown := rfl
@[simp] theorem State.modElem_powered (s : State) (g : Nat) (f : Elem → Elem) : (s.modElem g f).powered = s.powered := rfl
@[simp] theorem State.modElem_shutdown (s : State) (g : Nat) (f : Elem → Elem) : (s.modElem g f).shutdown = s.shutdown := rfl
@[simp] theorem State.modElem_jobs (s : State) (g : Nat) (f : Elem → Elem) : (s.modElem g f).jobs = s.jobs := rfl
@[simp] theorem State.modElem_mgmt (s : State) (g : Nat) (f : Elem → Elem) : (s.modElem g f).mgmt = s.mgmt := rfl
@[simp] theorem State.modElem_module (s : State) (g : Nat) (f : Elem → Elem) : (s.modElem g f).module = s.module := rfl

@[simp] theorem State.modEctx_focus (s : State) (g c : Nat) (f : ElemCtx → ElemCtx) : (s.modEctx g c f).focus = s.focus := rfl
@[simp] theorem State.modEctx_turns (s : State) (g c : Nat) (f : ElemCtx → ElemCtx) : (s.modEctx g c f).turns = s.turns := rfl
@[simp] theorem State.modEctx_tiles (s : State) (g c : Nat) (f : ElemCtx → ElemCtx) : (s.modEctx g c f).tiles = s.tiles := rfl
@[simp] theorem State.modEctx_elems (s : State) (g c : Nat) (f : ElemCtx → ElemCtx) : (s.modEctx g c f).elems = s.elems := rfl
@[simp] theorem State.modEctx_nodes (s : State) (g c : Nat) (f : ElemCtx → ElemCtx) : (s.modEctx g c f).nodes = s.nodes := rfl
@[simp] theorem State.modEctx_hbm (s : State) (g c : Nat) (f : ElemCtx → ElemCtx) : (s.modEctx g c f).hbm = s.hbm := rfl
@[simp] theorem State.modEctx_far (s : State) (g c : Nat) (f : ElemCtx → ElemCtx) : (s.modEctx g c f).far = s.far := rfl
@[simp] theorem State.modEctx_host (s : State) (g c : Nat) (f : ElemCtx → ElemCtx) : (s.modEctx g c f).host = s.host := rfl
@[simp] theorem State.modEctx_peers (s : State) (g c : Nat) (f : ElemCtx → ElemCtx) : (s.modEctx g c f).peers = s.peers := rfl
@[simp] theorem State.modEctx_inflight (s : State) (g c : Nat) (f : ElemCtx → ElemCtx) : (s.modEctx g c f).inflight = s.inflight := rfl
@[simp] theorem State.modEctx_monitors (s : State) (g c : Nat) (f : ElemCtx → ElemCtx) : (s.modEctx g c f).monitors = s.monitors := rfl
@[simp] theorem State.modEctx_troot (s : State) (g c : Nat) (f : ElemCtx → ElemCtx) : (s.modEctx g c f).troot = s.troot := rfl
@[simp] theorem State.modEctx_units (s : State) (g c : Nat) (f : ElemCtx → ElemCtx) : (s.modEctx g c f).units = s.units := rfl
@[simp] theorem State.modEctx_folds (s : State) (g c : Nat) (f : ElemCtx → ElemCtx) : (s.modEctx g c f).folds = s.folds := rfl
@[simp] theorem State.modEctx_regions (s : State) (g c : Nat) (f : ElemCtx → ElemCtx) : (s.modEctx g c f).regions = s.regions := rfl
@[simp] theorem State.modEctx_blocks (s : State) (g c : Nat) (f : ElemCtx → ElemCtx) : (s.modEctx g c f).blocks = s.blocks := rfl
@[simp] theorem State.modEctx_insts (s : State) (g c : Nat) (f : ElemCtx → ElemCtx) : (s.modEctx g c f).insts = s.insts := rfl
@[simp] theorem State.modEctx_launches (s : State) (g c : Nat) (f : ElemCtx → ElemCtx) : (s.modEctx g c f).launches = s.launches := rfl
@[simp] theorem State.modEctx_spawned (s : State) (g c : Nat) (f : ElemCtx → ElemCtx) : (s.modEctx g c f).spawned = s.spawned := rfl
@[simp] theorem State.modEctx_serial (s : State) (g c : Nat) (f : ElemCtx → ElemCtx) : (s.modEctx g c f).serial = s.serial := rfl
@[simp] theorem State.modEctx_fresh (s : State) (g c : Nat) (f : ElemCtx → ElemCtx) : (s.modEctx g c f).fresh = s.fresh := rfl
@[simp] theorem State.modEctx_absent (s : State) (g c : Nat) (f : ElemCtx → ElemCtx) : (s.modEctx g c f).absent = s.absent := rfl
@[simp] theorem State.modEctx_cells (s : State) (g c : Nat) (f : ElemCtx → ElemCtx) : (s.modEctx g c f).cells = s.cells := rfl
@[simp] theorem State.modEctx_domains (s : State) (g c : Nat) (f : ElemCtx → ElemCtx) : (s.modEctx g c f).domains = s.domains := rfl
@[simp] theorem State.modEctx_unitWm (s : State) (g c : Nat) (f : ElemCtx → ElemCtx) : (s.modEctx g c f).unitWm = s.unitWm := rfl
@[simp] theorem State.modEctx_dd (s : State) (g c : Nat) (f : ElemCtx → ElemCtx) : (s.modEctx g c f).dd = s.dd := rfl
@[simp] theorem State.modEctx_egress (s : State) (g c : Nat) (f : ElemCtx → ElemCtx) : (s.modEctx g c f).egress = s.egress := rfl
@[simp] theorem State.modEctx_posted (s : State) (g c : Nat) (f : ElemCtx → ElemCtx) : (s.modEctx g c f).posted = s.posted := rfl
@[simp] theorem State.modEctx_packets (s : State) (g c : Nat) (f : ElemCtx → ElemCtx) : (s.modEctx g c f).packets = s.packets := rfl
@[simp] theorem State.modEctx_orphans (s : State) (g c : Nat) (f : ElemCtx → ElemCtx) : (s.modEctx g c f).orphans = s.orphans := rfl
@[simp] theorem State.modEctx_searches (s : State) (g c : Nat) (f : ElemCtx → ElemCtx) : (s.modEctx g c f).searches = s.searches := rfl
@[simp] theorem State.modEctx_notices (s : State) (g c : Nat) (f : ElemCtx → ElemCtx) : (s.modEctx g c f).notices = s.notices := rfl
@[simp] theorem State.modEctx_hostDown (s : State) (g c : Nat) (f : ElemCtx → ElemCtx) : (s.modEctx g c f).hostDown = s.hostDown := rfl
@[simp] theorem State.modEctx_planesDown (s : State) (g c : Nat) (f : ElemCtx → ElemCtx) : (s.modEctx g c f).planesDown = s.planesDown := rfl
@[simp] theorem State.modEctx_powered (s : State) (g c : Nat) (f : ElemCtx → ElemCtx) : (s.modEctx g c f).powered = s.powered := rfl
@[simp] theorem State.modEctx_shutdown (s : State) (g c : Nat) (f : ElemCtx → ElemCtx) : (s.modEctx g c f).shutdown = s.shutdown := rfl
@[simp] theorem State.modEctx_jobs (s : State) (g c : Nat) (f : ElemCtx → ElemCtx) : (s.modEctx g c f).jobs = s.jobs := rfl
@[simp] theorem State.modEctx_mgmt (s : State) (g c : Nat) (f : ElemCtx → ElemCtx) : (s.modEctx g c f).mgmt = s.mgmt := rfl
@[simp] theorem State.modEctx_module (s : State) (g c : Nat) (f : ElemCtx → ElemCtx) : (s.modEctx g c f).module = s.module := rfl

@[simp] theorem State.modNode_focus (s : State) (t : Nat) (f : Node → Node) : (s.modNode t f).focus = s.focus := rfl
@[simp] theorem State.modNode_turns (s : State) (t : Nat) (f : Node → Node) : (s.modNode t f).turns = s.turns := rfl
@[simp] theorem State.modNode_tiles (s : State) (t : Nat) (f : Node → Node) : (s.modNode t f).tiles = s.tiles := rfl
@[simp] theorem State.modNode_elems (s : State) (t : Nat) (f : Node → Node) : (s.modNode t f).elems = s.elems := rfl
@[simp] theorem State.modNode_ectxs (s : State) (t : Nat) (f : Node → Node) : (s.modNode t f).ectxs = s.ectxs := rfl
@[simp] theorem State.modNode_hbm (s : State) (t : Nat) (f : Node → Node) : (s.modNode t f).hbm = s.hbm := rfl
@[simp] theorem State.modNode_far (s : State) (t : Nat) (f : Node → Node) : (s.modNode t f).far = s.far := rfl
@[simp] theorem State.modNode_host (s : State) (t : Nat) (f : Node → Node) : (s.modNode t f).host = s.host := rfl
@[simp] theorem State.modNode_peers (s : State) (t : Nat) (f : Node → Node) : (s.modNode t f).peers = s.peers := rfl
@[simp] theorem State.modNode_inflight (s : State) (t : Nat) (f : Node → Node) : (s.modNode t f).inflight = s.inflight := rfl
@[simp] theorem State.modNode_monitors (s : State) (t : Nat) (f : Node → Node) : (s.modNode t f).monitors = s.monitors := rfl
@[simp] theorem State.modNode_troot (s : State) (t : Nat) (f : Node → Node) : (s.modNode t f).troot = s.troot := rfl
@[simp] theorem State.modNode_units (s : State) (t : Nat) (f : Node → Node) : (s.modNode t f).units = s.units := rfl
@[simp] theorem State.modNode_folds (s : State) (t : Nat) (f : Node → Node) : (s.modNode t f).folds = s.folds := rfl
@[simp] theorem State.modNode_regions (s : State) (t : Nat) (f : Node → Node) : (s.modNode t f).regions = s.regions := rfl
@[simp] theorem State.modNode_blocks (s : State) (t : Nat) (f : Node → Node) : (s.modNode t f).blocks = s.blocks := rfl
@[simp] theorem State.modNode_insts (s : State) (t : Nat) (f : Node → Node) : (s.modNode t f).insts = s.insts := rfl
@[simp] theorem State.modNode_launches (s : State) (t : Nat) (f : Node → Node) : (s.modNode t f).launches = s.launches := rfl
@[simp] theorem State.modNode_spawned (s : State) (t : Nat) (f : Node → Node) : (s.modNode t f).spawned = s.spawned := rfl
@[simp] theorem State.modNode_serial (s : State) (t : Nat) (f : Node → Node) : (s.modNode t f).serial = s.serial := rfl
@[simp] theorem State.modNode_fresh (s : State) (t : Nat) (f : Node → Node) : (s.modNode t f).fresh = s.fresh := rfl
@[simp] theorem State.modNode_absent (s : State) (t : Nat) (f : Node → Node) : (s.modNode t f).absent = s.absent := rfl
@[simp] theorem State.modNode_cells (s : State) (t : Nat) (f : Node → Node) : (s.modNode t f).cells = s.cells := rfl
@[simp] theorem State.modNode_domains (s : State) (t : Nat) (f : Node → Node) : (s.modNode t f).domains = s.domains := rfl
@[simp] theorem State.modNode_unitWm (s : State) (t : Nat) (f : Node → Node) : (s.modNode t f).unitWm = s.unitWm := rfl
@[simp] theorem State.modNode_dd (s : State) (t : Nat) (f : Node → Node) : (s.modNode t f).dd = s.dd := rfl
@[simp] theorem State.modNode_egress (s : State) (t : Nat) (f : Node → Node) : (s.modNode t f).egress = s.egress := rfl
@[simp] theorem State.modNode_posted (s : State) (t : Nat) (f : Node → Node) : (s.modNode t f).posted = s.posted := rfl
@[simp] theorem State.modNode_packets (s : State) (t : Nat) (f : Node → Node) : (s.modNode t f).packets = s.packets := rfl
@[simp] theorem State.modNode_orphans (s : State) (t : Nat) (f : Node → Node) : (s.modNode t f).orphans = s.orphans := rfl
@[simp] theorem State.modNode_searches (s : State) (t : Nat) (f : Node → Node) : (s.modNode t f).searches = s.searches := rfl
@[simp] theorem State.modNode_notices (s : State) (t : Nat) (f : Node → Node) : (s.modNode t f).notices = s.notices := rfl
@[simp] theorem State.modNode_hostDown (s : State) (t : Nat) (f : Node → Node) : (s.modNode t f).hostDown = s.hostDown := rfl
@[simp] theorem State.modNode_planesDown (s : State) (t : Nat) (f : Node → Node) : (s.modNode t f).planesDown = s.planesDown := rfl
@[simp] theorem State.modNode_powered (s : State) (t : Nat) (f : Node → Node) : (s.modNode t f).powered = s.powered := rfl
@[simp] theorem State.modNode_shutdown (s : State) (t : Nat) (f : Node → Node) : (s.modNode t f).shutdown = s.shutdown := rfl
@[simp] theorem State.modNode_jobs (s : State) (t : Nat) (f : Node → Node) : (s.modNode t f).jobs = s.jobs := rfl
@[simp] theorem State.modNode_mgmt (s : State) (t : Nat) (f : Node → Node) : (s.modNode t f).mgmt = s.mgmt := rfl
@[simp] theorem State.modNode_module (s : State) (t : Nat) (f : Node → Node) : (s.modNode t f).module = s.module := rfl

@[simp] theorem State.modUnit_focus (s : State) (d : Nat) (f : TransUnit → TransUnit) : (s.modUnit d f).focus = s.focus := rfl
@[simp] theorem State.modUnit_turns (s : State) (d : Nat) (f : TransUnit → TransUnit) : (s.modUnit d f).turns = s.turns := rfl
@[simp] theorem State.modUnit_tiles (s : State) (d : Nat) (f : TransUnit → TransUnit) : (s.modUnit d f).tiles = s.tiles := rfl
@[simp] theorem State.modUnit_elems (s : State) (d : Nat) (f : TransUnit → TransUnit) : (s.modUnit d f).elems = s.elems := rfl
@[simp] theorem State.modUnit_ectxs (s : State) (d : Nat) (f : TransUnit → TransUnit) : (s.modUnit d f).ectxs = s.ectxs := rfl
@[simp] theorem State.modUnit_nodes (s : State) (d : Nat) (f : TransUnit → TransUnit) : (s.modUnit d f).nodes = s.nodes := rfl
@[simp] theorem State.modUnit_hbm (s : State) (d : Nat) (f : TransUnit → TransUnit) : (s.modUnit d f).hbm = s.hbm := rfl
@[simp] theorem State.modUnit_far (s : State) (d : Nat) (f : TransUnit → TransUnit) : (s.modUnit d f).far = s.far := rfl
@[simp] theorem State.modUnit_host (s : State) (d : Nat) (f : TransUnit → TransUnit) : (s.modUnit d f).host = s.host := rfl
@[simp] theorem State.modUnit_peers (s : State) (d : Nat) (f : TransUnit → TransUnit) : (s.modUnit d f).peers = s.peers := rfl
@[simp] theorem State.modUnit_inflight (s : State) (d : Nat) (f : TransUnit → TransUnit) : (s.modUnit d f).inflight = s.inflight := rfl
@[simp] theorem State.modUnit_monitors (s : State) (d : Nat) (f : TransUnit → TransUnit) : (s.modUnit d f).monitors = s.monitors := rfl
@[simp] theorem State.modUnit_troot (s : State) (d : Nat) (f : TransUnit → TransUnit) : (s.modUnit d f).troot = s.troot := rfl
@[simp] theorem State.modUnit_folds (s : State) (d : Nat) (f : TransUnit → TransUnit) : (s.modUnit d f).folds = s.folds := rfl
@[simp] theorem State.modUnit_regions (s : State) (d : Nat) (f : TransUnit → TransUnit) : (s.modUnit d f).regions = s.regions := rfl
@[simp] theorem State.modUnit_blocks (s : State) (d : Nat) (f : TransUnit → TransUnit) : (s.modUnit d f).blocks = s.blocks := rfl
@[simp] theorem State.modUnit_insts (s : State) (d : Nat) (f : TransUnit → TransUnit) : (s.modUnit d f).insts = s.insts := rfl
@[simp] theorem State.modUnit_launches (s : State) (d : Nat) (f : TransUnit → TransUnit) : (s.modUnit d f).launches = s.launches := rfl
@[simp] theorem State.modUnit_spawned (s : State) (d : Nat) (f : TransUnit → TransUnit) : (s.modUnit d f).spawned = s.spawned := rfl
@[simp] theorem State.modUnit_serial (s : State) (d : Nat) (f : TransUnit → TransUnit) : (s.modUnit d f).serial = s.serial := rfl
@[simp] theorem State.modUnit_fresh (s : State) (d : Nat) (f : TransUnit → TransUnit) : (s.modUnit d f).fresh = s.fresh := rfl
@[simp] theorem State.modUnit_absent (s : State) (d : Nat) (f : TransUnit → TransUnit) : (s.modUnit d f).absent = s.absent := rfl
@[simp] theorem State.modUnit_cells (s : State) (d : Nat) (f : TransUnit → TransUnit) : (s.modUnit d f).cells = s.cells := rfl
@[simp] theorem State.modUnit_domains (s : State) (d : Nat) (f : TransUnit → TransUnit) : (s.modUnit d f).domains = s.domains := rfl
@[simp] theorem State.modUnit_unitWm (s : State) (d : Nat) (f : TransUnit → TransUnit) : (s.modUnit d f).unitWm = s.unitWm := rfl
@[simp] theorem State.modUnit_dd (s : State) (d : Nat) (f : TransUnit → TransUnit) : (s.modUnit d f).dd = s.dd := rfl
@[simp] theorem State.modUnit_egress (s : State) (d : Nat) (f : TransUnit → TransUnit) : (s.modUnit d f).egress = s.egress := rfl
@[simp] theorem State.modUnit_posted (s : State) (d : Nat) (f : TransUnit → TransUnit) : (s.modUnit d f).posted = s.posted := rfl
@[simp] theorem State.modUnit_packets (s : State) (d : Nat) (f : TransUnit → TransUnit) : (s.modUnit d f).packets = s.packets := rfl
@[simp] theorem State.modUnit_orphans (s : State) (d : Nat) (f : TransUnit → TransUnit) : (s.modUnit d f).orphans = s.orphans := rfl
@[simp] theorem State.modUnit_searches (s : State) (d : Nat) (f : TransUnit → TransUnit) : (s.modUnit d f).searches = s.searches := rfl
@[simp] theorem State.modUnit_notices (s : State) (d : Nat) (f : TransUnit → TransUnit) : (s.modUnit d f).notices = s.notices := rfl
@[simp] theorem State.modUnit_hostDown (s : State) (d : Nat) (f : TransUnit → TransUnit) : (s.modUnit d f).hostDown = s.hostDown := rfl
@[simp] theorem State.modUnit_planesDown (s : State) (d : Nat) (f : TransUnit → TransUnit) : (s.modUnit d f).planesDown = s.planesDown := rfl
@[simp] theorem State.modUnit_powered (s : State) (d : Nat) (f : TransUnit → TransUnit) : (s.modUnit d f).powered = s.powered := rfl
@[simp] theorem State.modUnit_shutdown (s : State) (d : Nat) (f : TransUnit → TransUnit) : (s.modUnit d f).shutdown = s.shutdown := rfl
@[simp] theorem State.modUnit_jobs (s : State) (d : Nat) (f : TransUnit → TransUnit) : (s.modUnit d f).jobs = s.jobs := rfl
@[simp] theorem State.modUnit_mgmt (s : State) (d : Nat) (f : TransUnit → TransUnit) : (s.modUnit d f).mgmt = s.mgmt := rfl
@[simp] theorem State.modUnit_module (s : State) (d : Nat) (f : TransUnit → TransUnit) : (s.modUnit d f).module = s.module := rfl

@[simp] theorem State.modHere_focus (s : State) (f : Tile → Tile) : (s.modHere f).focus = s.focus := rfl
@[simp] theorem State.modHere_turns (s : State) (f : Tile → Tile) : (s.modHere f).turns = s.turns := rfl
@[simp] theorem State.modHere_elems (s : State) (f : Tile → Tile) : (s.modHere f).elems = s.elems := rfl
@[simp] theorem State.modHere_ectxs (s : State) (f : Tile → Tile) : (s.modHere f).ectxs = s.ectxs := rfl
@[simp] theorem State.modHere_nodes (s : State) (f : Tile → Tile) : (s.modHere f).nodes = s.nodes := rfl
@[simp] theorem State.modHere_hbm (s : State) (f : Tile → Tile) : (s.modHere f).hbm = s.hbm := rfl
@[simp] theorem State.modHere_far (s : State) (f : Tile → Tile) : (s.modHere f).far = s.far := rfl
@[simp] theorem State.modHere_host (s : State) (f : Tile → Tile) : (s.modHere f).host = s.host := rfl
@[simp] theorem State.modHere_peers (s : State) (f : Tile → Tile) : (s.modHere f).peers = s.peers := rfl
@[simp] theorem State.modHere_inflight (s : State) (f : Tile → Tile) : (s.modHere f).inflight = s.inflight := rfl
@[simp] theorem State.modHere_monitors (s : State) (f : Tile → Tile) : (s.modHere f).monitors = s.monitors := rfl
@[simp] theorem State.modHere_troot (s : State) (f : Tile → Tile) : (s.modHere f).troot = s.troot := rfl
@[simp] theorem State.modHere_units (s : State) (f : Tile → Tile) : (s.modHere f).units = s.units := rfl
@[simp] theorem State.modHere_folds (s : State) (f : Tile → Tile) : (s.modHere f).folds = s.folds := rfl
@[simp] theorem State.modHere_regions (s : State) (f : Tile → Tile) : (s.modHere f).regions = s.regions := rfl
@[simp] theorem State.modHere_blocks (s : State) (f : Tile → Tile) : (s.modHere f).blocks = s.blocks := rfl
@[simp] theorem State.modHere_insts (s : State) (f : Tile → Tile) : (s.modHere f).insts = s.insts := rfl
@[simp] theorem State.modHere_launches (s : State) (f : Tile → Tile) : (s.modHere f).launches = s.launches := rfl
@[simp] theorem State.modHere_spawned (s : State) (f : Tile → Tile) : (s.modHere f).spawned = s.spawned := rfl
@[simp] theorem State.modHere_serial (s : State) (f : Tile → Tile) : (s.modHere f).serial = s.serial := rfl
@[simp] theorem State.modHere_fresh (s : State) (f : Tile → Tile) : (s.modHere f).fresh = s.fresh := rfl
@[simp] theorem State.modHere_absent (s : State) (f : Tile → Tile) : (s.modHere f).absent = s.absent := rfl
@[simp] theorem State.modHere_cells (s : State) (f : Tile → Tile) : (s.modHere f).cells = s.cells := rfl
@[simp] theorem State.modHere_domains (s : State) (f : Tile → Tile) : (s.modHere f).domains = s.domains := rfl
@[simp] theorem State.modHere_unitWm (s : State) (f : Tile → Tile) : (s.modHere f).unitWm = s.unitWm := rfl
@[simp] theorem State.modHere_dd (s : State) (f : Tile → Tile) : (s.modHere f).dd = s.dd := rfl
@[simp] theorem State.modHere_egress (s : State) (f : Tile → Tile) : (s.modHere f).egress = s.egress := rfl
@[simp] theorem State.modHere_posted (s : State) (f : Tile → Tile) : (s.modHere f).posted = s.posted := rfl
@[simp] theorem State.modHere_packets (s : State) (f : Tile → Tile) : (s.modHere f).packets = s.packets := rfl
@[simp] theorem State.modHere_orphans (s : State) (f : Tile → Tile) : (s.modHere f).orphans = s.orphans := rfl
@[simp] theorem State.modHere_searches (s : State) (f : Tile → Tile) : (s.modHere f).searches = s.searches := rfl
@[simp] theorem State.modHere_notices (s : State) (f : Tile → Tile) : (s.modHere f).notices = s.notices := rfl
@[simp] theorem State.modHere_hostDown (s : State) (f : Tile → Tile) : (s.modHere f).hostDown = s.hostDown := rfl
@[simp] theorem State.modHere_planesDown (s : State) (f : Tile → Tile) : (s.modHere f).planesDown = s.planesDown := rfl
@[simp] theorem State.modHere_powered (s : State) (f : Tile → Tile) : (s.modHere f).powered = s.powered := rfl
@[simp] theorem State.modHere_shutdown (s : State) (f : Tile → Tile) : (s.modHere f).shutdown = s.shutdown := rfl
@[simp] theorem State.modHere_jobs (s : State) (f : Tile → Tile) : (s.modHere f).jobs = s.jobs := rfl
@[simp] theorem State.modHere_mgmt (s : State) (f : Tile → Tile) : (s.modHere f).mgmt = s.mgmt := rfl
@[simp] theorem State.modHere_module (s : State) (f : Tile → Tile) : (s.modHere f).module = s.module := rfl

@[simp] theorem State.modCur_focus (s : State) (f : Task → Task) : (s.modCur f).focus = s.focus := rfl
@[simp] theorem State.modCur_turns (s : State) (f : Task → Task) : (s.modCur f).turns = s.turns := rfl
@[simp] theorem State.modCur_elems (s : State) (f : Task → Task) : (s.modCur f).elems = s.elems := rfl
@[simp] theorem State.modCur_ectxs (s : State) (f : Task → Task) : (s.modCur f).ectxs = s.ectxs := rfl
@[simp] theorem State.modCur_nodes (s : State) (f : Task → Task) : (s.modCur f).nodes = s.nodes := rfl
@[simp] theorem State.modCur_hbm (s : State) (f : Task → Task) : (s.modCur f).hbm = s.hbm := rfl
@[simp] theorem State.modCur_far (s : State) (f : Task → Task) : (s.modCur f).far = s.far := rfl
@[simp] theorem State.modCur_host (s : State) (f : Task → Task) : (s.modCur f).host = s.host := rfl
@[simp] theorem State.modCur_peers (s : State) (f : Task → Task) : (s.modCur f).peers = s.peers := rfl
@[simp] theorem State.modCur_inflight (s : State) (f : Task → Task) : (s.modCur f).inflight = s.inflight := rfl
@[simp] theorem State.modCur_monitors (s : State) (f : Task → Task) : (s.modCur f).monitors = s.monitors := rfl
@[simp] theorem State.modCur_troot (s : State) (f : Task → Task) : (s.modCur f).troot = s.troot := rfl
@[simp] theorem State.modCur_units (s : State) (f : Task → Task) : (s.modCur f).units = s.units := rfl
@[simp] theorem State.modCur_folds (s : State) (f : Task → Task) : (s.modCur f).folds = s.folds := rfl
@[simp] theorem State.modCur_regions (s : State) (f : Task → Task) : (s.modCur f).regions = s.regions := rfl
@[simp] theorem State.modCur_blocks (s : State) (f : Task → Task) : (s.modCur f).blocks = s.blocks := rfl
@[simp] theorem State.modCur_insts (s : State) (f : Task → Task) : (s.modCur f).insts = s.insts := rfl
@[simp] theorem State.modCur_launches (s : State) (f : Task → Task) : (s.modCur f).launches = s.launches := rfl
@[simp] theorem State.modCur_spawned (s : State) (f : Task → Task) : (s.modCur f).spawned = s.spawned := rfl
@[simp] theorem State.modCur_serial (s : State) (f : Task → Task) : (s.modCur f).serial = s.serial := rfl
@[simp] theorem State.modCur_fresh (s : State) (f : Task → Task) : (s.modCur f).fresh = s.fresh := rfl
@[simp] theorem State.modCur_absent (s : State) (f : Task → Task) : (s.modCur f).absent = s.absent := rfl
@[simp] theorem State.modCur_cells (s : State) (f : Task → Task) : (s.modCur f).cells = s.cells := rfl
@[simp] theorem State.modCur_domains (s : State) (f : Task → Task) : (s.modCur f).domains = s.domains := rfl
@[simp] theorem State.modCur_unitWm (s : State) (f : Task → Task) : (s.modCur f).unitWm = s.unitWm := rfl
@[simp] theorem State.modCur_dd (s : State) (f : Task → Task) : (s.modCur f).dd = s.dd := rfl
@[simp] theorem State.modCur_egress (s : State) (f : Task → Task) : (s.modCur f).egress = s.egress := rfl
@[simp] theorem State.modCur_posted (s : State) (f : Task → Task) : (s.modCur f).posted = s.posted := rfl
@[simp] theorem State.modCur_packets (s : State) (f : Task → Task) : (s.modCur f).packets = s.packets := rfl
@[simp] theorem State.modCur_orphans (s : State) (f : Task → Task) : (s.modCur f).orphans = s.orphans := rfl
@[simp] theorem State.modCur_searches (s : State) (f : Task → Task) : (s.modCur f).searches = s.searches := rfl
@[simp] theorem State.modCur_notices (s : State) (f : Task → Task) : (s.modCur f).notices = s.notices := rfl
@[simp] theorem State.modCur_hostDown (s : State) (f : Task → Task) : (s.modCur f).hostDown = s.hostDown := rfl
@[simp] theorem State.modCur_planesDown (s : State) (f : Task → Task) : (s.modCur f).planesDown = s.planesDown := rfl
@[simp] theorem State.modCur_powered (s : State) (f : Task → Task) : (s.modCur f).powered = s.powered := rfl
@[simp] theorem State.modCur_shutdown (s : State) (f : Task → Task) : (s.modCur f).shutdown = s.shutdown := rfl
@[simp] theorem State.modCur_jobs (s : State) (f : Task → Task) : (s.modCur f).jobs = s.jobs := rfl
@[simp] theorem State.modCur_mgmt (s : State) (f : Task → Task) : (s.modCur f).mgmt = s.mgmt := rfl
@[simp] theorem State.modCur_module (s : State) (f : Task → Task) : (s.modCur f).module = s.module := rfl

@[simp] theorem State.tick_focus (s : State) : (s.tick).focus = s.focus := rfl
@[simp] theorem State.tick_turns (s : State) : (s.tick).turns = s.turns := rfl
@[simp] theorem State.tick_tiles (s : State) : (s.tick).tiles = s.tiles := rfl
@[simp] theorem State.tick_elems (s : State) : (s.tick).elems = s.elems := rfl
@[simp] theorem State.tick_ectxs (s : State) : (s.tick).ectxs = s.ectxs := rfl
@[simp] theorem State.tick_nodes (s : State) : (s.tick).nodes = s.nodes := rfl
@[simp] theorem State.tick_hbm (s : State) : (s.tick).hbm = s.hbm := rfl
@[simp] theorem State.tick_far (s : State) : (s.tick).far = s.far := rfl
@[simp] theorem State.tick_host (s : State) : (s.tick).host = s.host := rfl
@[simp] theorem State.tick_peers (s : State) : (s.tick).peers = s.peers := rfl
@[simp] theorem State.tick_inflight (s : State) : (s.tick).inflight = s.inflight := rfl
@[simp] theorem State.tick_monitors (s : State) : (s.tick).monitors = s.monitors := rfl
@[simp] theorem State.tick_troot (s : State) : (s.tick).troot = s.troot := rfl
@[simp] theorem State.tick_units (s : State) : (s.tick).units = s.units := rfl
@[simp] theorem State.tick_folds (s : State) : (s.tick).folds = s.folds := rfl
@[simp] theorem State.tick_regions (s : State) : (s.tick).regions = s.regions := rfl
@[simp] theorem State.tick_blocks (s : State) : (s.tick).blocks = s.blocks := rfl
@[simp] theorem State.tick_insts (s : State) : (s.tick).insts = s.insts := rfl
@[simp] theorem State.tick_launches (s : State) : (s.tick).launches = s.launches := rfl
@[simp] theorem State.tick_spawned (s : State) : (s.tick).spawned = s.spawned := rfl
@[simp] theorem State.tick_fresh (s : State) : (s.tick).fresh = s.fresh := rfl
@[simp] theorem State.tick_absent (s : State) : (s.tick).absent = s.absent := rfl
@[simp] theorem State.tick_cells (s : State) : (s.tick).cells = s.cells := rfl
@[simp] theorem State.tick_domains (s : State) : (s.tick).domains = s.domains := rfl
@[simp] theorem State.tick_unitWm (s : State) : (s.tick).unitWm = s.unitWm := rfl
@[simp] theorem State.tick_dd (s : State) : (s.tick).dd = s.dd := rfl
@[simp] theorem State.tick_egress (s : State) : (s.tick).egress = s.egress := rfl
@[simp] theorem State.tick_posted (s : State) : (s.tick).posted = s.posted := rfl
@[simp] theorem State.tick_packets (s : State) : (s.tick).packets = s.packets := rfl
@[simp] theorem State.tick_orphans (s : State) : (s.tick).orphans = s.orphans := rfl
@[simp] theorem State.tick_searches (s : State) : (s.tick).searches = s.searches := rfl
@[simp] theorem State.tick_notices (s : State) : (s.tick).notices = s.notices := rfl
@[simp] theorem State.tick_hostDown (s : State) : (s.tick).hostDown = s.hostDown := rfl
@[simp] theorem State.tick_planesDown (s : State) : (s.tick).planesDown = s.planesDown := rfl
@[simp] theorem State.tick_powered (s : State) : (s.tick).powered = s.powered := rfl
@[simp] theorem State.tick_shutdown (s : State) : (s.tick).shutdown = s.shutdown := rfl
@[simp] theorem State.tick_jobs (s : State) : (s.tick).jobs = s.jobs := rfl
@[simp] theorem State.tick_mgmt (s : State) : (s.tick).mgmt = s.mgmt := rfl
@[simp] theorem State.tick_module (s : State) : (s.tick).module = s.module := rfl

@[simp] theorem Tile.setTask_istore (T : Tile) (n : Nat) (k : Task) : (T.setTask n k).istore = T.istore := by
  unfold Tile.setTask; split <;> rfl
@[simp] theorem Tile.setTask_dstore (T : Tile) (n : Nat) (k : Task) : (T.setTask n k).dstore = T.dstore := by
  unfold Tile.setTask; split <;> rfl
@[simp] theorem Tile.setTask_jrMarks (T : Tile) (n : Nat) (k : Task) : (T.setTask n k).jrMarks = T.jrMarks := by
  unfold Tile.setTask; split <;> rfl
@[simp] theorem Tile.setTask_ctxs (T : Tile) (n : Nat) (k : Task) : (T.setTask n k).ctxs = T.ctxs := by
  unfold Tile.setTask; split <;> rfl
@[simp] theorem Tile.setTask_cycle (T : Tile) (n : Nat) (k : Task) : (T.setTask n k).cycle = T.cycle := by
  unfold Tile.setTask; split <;> rfl
@[simp] theorem Tile.setTask_retired (T : Tile) (n : Nat) (k : Task) : (T.setTask n k).retired = T.retired := by
  unfold Tile.setTask; split <;> rfl
@[simp] theorem Tile.setTask_halted (T : Tile) (n : Nat) (k : Task) : (T.setTask n k).halted = T.halted := by
  unfold Tile.setTask; split <;> rfl
@[simp] theorem Tile.setTask_pstall (T : Tile) (n : Nat) (k : Task) : (T.setTask n k).pstall = T.pstall := by
  unfold Tile.setTask; split <;> rfl
@[simp] theorem Tile.setTask_seq (T : Tile) (n : Nat) (k : Task) : (T.setTask n k).seq = T.seq := by
  unfold Tile.setTask; split <;> rfl
@[simp] theorem Tile.setTask_channels (T : Tile) (n : Nat) (k : Task) : (T.setTask n k).channels = T.channels := by
  unfold Tile.setTask; split <;> rfl
@[simp] theorem Tile.setTask_held (T : Tile) (n : Nat) (k : Task) : (T.setTask n k).held = T.held := by
  unfold Tile.setTask; split <;> rfl
@[simp] theorem Tile.setTask_down (T : Tile) (n : Nat) (k : Task) : (T.setTask n k).down = T.down := by
  unfold Tile.setTask; split <;> rfl
@[simp] theorem Tile.setTask_inForce (T : Tile) (n : Nat) (k : Task) : (T.setTask n k).inForce = T.inForce := by
  unfold Tile.setTask; split <;> rfl
@[simp] theorem Tile.setTask_exposed (T : Tile) (n : Nat) (k : Task) : (T.setTask n k).exposed = T.exposed := by
  unfold Tile.setTask; split <;> rfl
@[simp] theorem Tile.setTask_errors (T : Tile) (n : Nat) (k : Task) : (T.setTask n k).errors = T.errors := by
  unfold Tile.setTask; split <;> rfl
@[simp] theorem Tile.setTask_overlay (T : Tile) (n : Nat) (k : Task) : (T.setTask n k).overlay = T.overlay := by
  unfold Tile.setTask; split <;> rfl
@[simp] theorem Tile.setTask_names (T : Tile) (n : Nat) (k : Task) : (T.setTask n k).names = T.names := by
  unfold Tile.setTask; split <;> rfl
@[simp] theorem Tile.setTask_chains (T : Tile) (n : Nat) (k : Task) : (T.setTask n k).chains = T.chains := by
  unfold Tile.setTask; split <;> rfl
@[simp] theorem Tile.setTask_pairs (T : Tile) (n : Nat) (k : Task) : (T.setTask n k).pairs = T.pairs := by
  unfold Tile.setTask; split <;> rfl
@[simp] theorem Tile.modCtx_istore (T : Tile) (c : Nat) (f : CtxRegs → CtxRegs) : (T.modCtx c f).istore = T.istore := by
  unfold Tile.modCtx; split <;> rfl
@[simp] theorem Tile.modCtx_dstore (T : Tile) (c : Nat) (f : CtxRegs → CtxRegs) : (T.modCtx c f).dstore = T.dstore := by
  unfold Tile.modCtx; split <;> rfl
@[simp] theorem Tile.modCtx_jrMarks (T : Tile) (c : Nat) (f : CtxRegs → CtxRegs) : (T.modCtx c f).jrMarks = T.jrMarks := by
  unfold Tile.modCtx; split <;> rfl
@[simp] theorem Tile.modCtx_tasks (T : Tile) (c : Nat) (f : CtxRegs → CtxRegs) : (T.modCtx c f).tasks = T.tasks := by
  unfold Tile.modCtx; split <;> rfl
@[simp] theorem Tile.modCtx_cycle (T : Tile) (c : Nat) (f : CtxRegs → CtxRegs) : (T.modCtx c f).cycle = T.cycle := by
  unfold Tile.modCtx; split <;> rfl
@[simp] theorem Tile.modCtx_retired (T : Tile) (c : Nat) (f : CtxRegs → CtxRegs) : (T.modCtx c f).retired = T.retired := by
  unfold Tile.modCtx; split <;> rfl
@[simp] theorem Tile.modCtx_halted (T : Tile) (c : Nat) (f : CtxRegs → CtxRegs) : (T.modCtx c f).halted = T.halted := by
  unfold Tile.modCtx; split <;> rfl
@[simp] theorem Tile.modCtx_pstall (T : Tile) (c : Nat) (f : CtxRegs → CtxRegs) : (T.modCtx c f).pstall = T.pstall := by
  unfold Tile.modCtx; split <;> rfl
@[simp] theorem Tile.modCtx_seq (T : Tile) (c : Nat) (f : CtxRegs → CtxRegs) : (T.modCtx c f).seq = T.seq := by
  unfold Tile.modCtx; split <;> rfl
@[simp] theorem Tile.modCtx_channels (T : Tile) (c : Nat) (f : CtxRegs → CtxRegs) : (T.modCtx c f).channels = T.channels := by
  unfold Tile.modCtx; split <;> rfl
@[simp] theorem Tile.modCtx_held (T : Tile) (c : Nat) (f : CtxRegs → CtxRegs) : (T.modCtx c f).held = T.held := by
  unfold Tile.modCtx; split <;> rfl
@[simp] theorem Tile.modCtx_down (T : Tile) (c : Nat) (f : CtxRegs → CtxRegs) : (T.modCtx c f).down = T.down := by
  unfold Tile.modCtx; split <;> rfl
@[simp] theorem Tile.modCtx_inForce (T : Tile) (c : Nat) (f : CtxRegs → CtxRegs) : (T.modCtx c f).inForce = T.inForce := by
  unfold Tile.modCtx; split <;> rfl
@[simp] theorem Tile.modCtx_exposed (T : Tile) (c : Nat) (f : CtxRegs → CtxRegs) : (T.modCtx c f).exposed = T.exposed := by
  unfold Tile.modCtx; split <;> rfl
@[simp] theorem Tile.modCtx_errors (T : Tile) (c : Nat) (f : CtxRegs → CtxRegs) : (T.modCtx c f).errors = T.errors := by
  unfold Tile.modCtx; split <;> rfl
@[simp] theorem Tile.modCtx_overlay (T : Tile) (c : Nat) (f : CtxRegs → CtxRegs) : (T.modCtx c f).overlay = T.overlay := by
  unfold Tile.modCtx; split <;> rfl
@[simp] theorem Tile.modCtx_names (T : Tile) (c : Nat) (f : CtxRegs → CtxRegs) : (T.modCtx c f).names = T.names := by
  unfold Tile.modCtx; split <;> rfl
@[simp] theorem Tile.modCtx_chains (T : Tile) (c : Nat) (f : CtxRegs → CtxRegs) : (T.modCtx c f).chains = T.chains := by
  unfold Tile.modCtx; split <;> rfl
@[simp] theorem Tile.modCtx_pairs (T : Tile) (c : Nat) (f : CtxRegs → CtxRegs) : (T.modCtx c f).pairs = T.pairs := by
  unfold Tile.modCtx; split <;> rfl

@[simp] theorem Task.setReg_state (k : Task) (r : SReg) (v : Word) : (k.setReg r v).state = k.state := by
  unfold Task.setReg; split <;> rfl
@[simp] theorem Task.setReg_ctx (k : Task) (r : SReg) (v : Word) : (k.setReg r v).ctx = k.ctx := by
  unfold Task.setReg; split <;> rfl
@[simp] theorem Task.setReg_guards (k : Task) (r : SReg) (v : Word) : (k.setReg r v).guards = k.guards := by
  unfold Task.setReg; split <;> rfl
@[simp] theorem Task.setReg_pc (k : Task) (r : SReg) (v : Word) : (k.setReg r v).pc = k.pc := by
  unfold Task.setReg; split <;> rfl
@[simp] theorem Task.setReg_te (k : Task) (r : SReg) (v : Word) : (k.setReg r v).te = k.te := by
  unfold Task.setReg; split <;> rfl
@[simp] theorem Task.setReg_pte (k : Task) (r : SReg) (v : Word) : (k.setReg r v).pte = k.pte := by
  unfold Task.setReg; split <;> rfl
@[simp] theorem Task.setReg_sup (k : Task) (r : SReg) (v : Word) : (k.setReg r v).sup = k.sup := by
  unfold Task.setReg; split <;> rfl
@[simp] theorem Task.setReg_psup (k : Task) (r : SReg) (v : Word) : (k.setReg r v).psup = k.psup := by
  unfold Task.setReg; split <;> rfl
@[simp] theorem Task.setReg_bsk (k : Task) (r : SReg) (v : Word) : (k.setReg r v).bsk = k.bsk := by
  unfold Task.setReg; split <;> rfl
@[simp] theorem Task.setReg_exempt (k : Task) (r : SReg) (v : Word) : (k.setReg r v).exempt = k.exempt := by
  unfold Task.setReg; split <;> rfl
@[simp] theorem Task.setReg_cause (k : Task) (r : SReg) (v : Word) : (k.setReg r v).cause = k.cause := by
  unfold Task.setReg; split <;> rfl
@[simp] theorem Task.setReg_epc (k : Task) (r : SReg) (v : Word) : (k.setReg r v).epc = k.epc := by
  unfold Task.setReg; split <;> rfl
@[simp] theorem Task.setReg_tval (k : Task) (r : SReg) (v : Word) : (k.setReg r v).tval = k.tval := by
  unfold Task.setReg; split <;> rfl
@[simp] theorem Task.setReg_scratch (k : Task) (r : SReg) (v : Word) : (k.setReg r v).scratch = k.scratch := by
  unfold Task.setReg; split <;> rfl
@[simp] theorem Task.setReg_place (k : Task) (r : SReg) (v : Word) : (k.setReg r v).place = k.place := by
  unfold Task.setReg; split <;> rfl
@[simp] theorem Task.setReg_bad (k : Task) (r : SReg) (v : Word) : (k.setReg r v).bad = k.bad := by
  unfold Task.setReg; split <;> rfl
@[simp] theorem Task.setReg_weak (k : Task) (r : SReg) (v : Word) : (k.setReg r v).weak = k.weak := by
  unfold Task.setReg; split <;> rfl
@[simp] theorem Task.setReg_readySeq (k : Task) (r : SReg) (v : Word) : (k.setReg r v).readySeq = k.readySeq := by
  unfold Task.setReg; split <;> rfl
@[simp] theorem Task.setReg_leftSeq (k : Task) (r : SReg) (v : Word) : (k.setReg r v).leftSeq = k.leftSeq := by
  unfold Task.setReg; split <;> rfl
@[simp] theorem Task.setReg_stealable (k : Task) (r : SReg) (v : Word) : (k.setReg r v).stealable = k.stealable := by
  unfold Task.setReg; split <;> rfl
@[simp] theorem Task.setReg_waiting (k : Task) (r : SReg) (v : Word) : (k.setReg r v).waiting = k.waiting := by
  unfold Task.setReg; split <;> rfl
@[simp] theorem Task.setReg_late (k : Task) (r : SReg) (v : Word) : (k.setReg r v).late = k.late := by
  unfold Task.setReg; split <;> rfl
@[simp] theorem Task.setReg_taken (k : Task) (r : SReg) (v : Word) : (k.setReg r v).taken = k.taken := by
  unfold Task.setReg; split <;> rfl
@[simp] theorem Task.setReg_staging (k : Task) (r : SReg) (v : Word) : (k.setReg r v).staging = k.staging := by
  unfold Task.setReg; split <;> rfl
@[simp] theorem Task.setReg_openToks (k : Task) (r : SReg) (v : Word) : (k.setReg r v).openToks = k.openToks := by
  unfold Task.setReg; split <;> rfl
@[simp] theorem Task.setReg_held (k : Task) (r : SReg) (v : Word) : (k.setReg r v).held = k.held := by
  unfold Task.setReg; split <;> rfl
@[simp] theorem Task.setReg_job (k : Task) (r : SReg) (v : Word) : (k.setReg r v).job = k.job := by
  unfold Task.setReg; split <;> rfl
@[simp] theorem Task.setReg_handling (k : Task) (r : SReg) (v : Word) : (k.setReg r v).handling = k.handling := by
  unfold Task.setReg; split <;> rfl
@[simp] theorem Task.result_state (k : Task) (r : SReg) (v : Word) : (k.result r v).state = k.state := by
  unfold Task.result; split <;> simp
@[simp] theorem Task.result_ctx (k : Task) (r : SReg) (v : Word) : (k.result r v).ctx = k.ctx := by
  unfold Task.result; split <;> simp
@[simp] theorem Task.result_guards (k : Task) (r : SReg) (v : Word) : (k.result r v).guards = k.guards := by
  unfold Task.result; split <;> simp
@[simp] theorem Task.result_pc (k : Task) (r : SReg) (v : Word) : (k.result r v).pc = k.pc := by
  unfold Task.result; split <;> simp
@[simp] theorem Task.result_te (k : Task) (r : SReg) (v : Word) : (k.result r v).te = k.te := by
  unfold Task.result; split <;> simp
@[simp] theorem Task.result_pte (k : Task) (r : SReg) (v : Word) : (k.result r v).pte = k.pte := by
  unfold Task.result; split <;> simp
@[simp] theorem Task.result_sup (k : Task) (r : SReg) (v : Word) : (k.result r v).sup = k.sup := by
  unfold Task.result; split <;> simp
@[simp] theorem Task.result_psup (k : Task) (r : SReg) (v : Word) : (k.result r v).psup = k.psup := by
  unfold Task.result; split <;> simp
@[simp] theorem Task.result_bsk (k : Task) (r : SReg) (v : Word) : (k.result r v).bsk = k.bsk := by
  unfold Task.result; split <;> simp
@[simp] theorem Task.result_exempt (k : Task) (r : SReg) (v : Word) : (k.result r v).exempt = k.exempt := by
  unfold Task.result; split <;> simp
@[simp] theorem Task.result_cause (k : Task) (r : SReg) (v : Word) : (k.result r v).cause = k.cause := by
  unfold Task.result; split <;> simp
@[simp] theorem Task.result_epc (k : Task) (r : SReg) (v : Word) : (k.result r v).epc = k.epc := by
  unfold Task.result; split <;> simp
@[simp] theorem Task.result_tval (k : Task) (r : SReg) (v : Word) : (k.result r v).tval = k.tval := by
  unfold Task.result; split <;> simp
@[simp] theorem Task.result_scratch (k : Task) (r : SReg) (v : Word) : (k.result r v).scratch = k.scratch := by
  unfold Task.result; split <;> simp
@[simp] theorem Task.result_place (k : Task) (r : SReg) (v : Word) : (k.result r v).place = k.place := by
  unfold Task.result; split <;> simp
@[simp] theorem Task.result_bad (k : Task) (r : SReg) (v : Word) : (k.result r v).bad = k.bad := by
  unfold Task.result; split <;> simp
@[simp] theorem Task.result_weak (k : Task) (r : SReg) (v : Word) : (k.result r v).weak = k.weak := by
  unfold Task.result; split <;> simp
@[simp] theorem Task.result_readySeq (k : Task) (r : SReg) (v : Word) : (k.result r v).readySeq = k.readySeq := by
  unfold Task.result; split <;> simp
@[simp] theorem Task.result_leftSeq (k : Task) (r : SReg) (v : Word) : (k.result r v).leftSeq = k.leftSeq := by
  unfold Task.result; split <;> simp
@[simp] theorem Task.result_stealable (k : Task) (r : SReg) (v : Word) : (k.result r v).stealable = k.stealable := by
  unfold Task.result; split <;> simp
@[simp] theorem Task.result_waiting (k : Task) (r : SReg) (v : Word) : (k.result r v).waiting = k.waiting := by
  unfold Task.result; split <;> simp
@[simp] theorem Task.result_taken (k : Task) (r : SReg) (v : Word) : (k.result r v).taken = k.taken := by
  unfold Task.result; split <;> simp
@[simp] theorem Task.result_staging (k : Task) (r : SReg) (v : Word) : (k.result r v).staging = k.staging := by
  unfold Task.result; split <;> simp
@[simp] theorem Task.result_openToks (k : Task) (r : SReg) (v : Word) : (k.result r v).openToks = k.openToks := by
  unfold Task.result; split <;> simp
@[simp] theorem Task.result_held (k : Task) (r : SReg) (v : Word) : (k.result r v).held = k.held := by
  unfold Task.result; split <;> simp
@[simp] theorem Task.result_job (k : Task) (r : SReg) (v : Word) : (k.result r v).job = k.job := by
  unfold Task.result; split <;> simp
@[simp] theorem Task.result_handling (k : Task) (r : SReg) (v : Word) : (k.result r v).handling = k.handling := by
  unfold Task.result; split <;> simp
@[simp] theorem Task.result_regs (k : Task) (r : SReg) (v : Word) : (k.result r v).regs = (k.setReg r v).regs := by
  unfold Task.result; split <;> simp

@[simp] theorem Task.setGuard_state (k : Task) (q : QReg) (v : Bool) : (k.setGuard q v).state = k.state := by
  unfold Task.setGuard; split <;> rfl
@[simp] theorem Task.setGuard_ctx (k : Task) (q : QReg) (v : Bool) : (k.setGuard q v).ctx = k.ctx := by
  unfold Task.setGuard; split <;> rfl
@[simp] theorem Task.setGuard_regs (k : Task) (q : QReg) (v : Bool) : (k.setGuard q v).regs = k.regs := by
  unfold Task.setGuard; split <;> rfl
@[simp] theorem Task.setGuard_pc (k : Task) (q : QReg) (v : Bool) : (k.setGuard q v).pc = k.pc := by
  unfold Task.setGuard; split <;> rfl
@[simp] theorem Task.setGuard_te (k : Task) (q : QReg) (v : Bool) : (k.setGuard q v).te = k.te := by
  unfold Task.setGuard; split <;> rfl
@[simp] theorem Task.setGuard_pte (k : Task) (q : QReg) (v : Bool) : (k.setGuard q v).pte = k.pte := by
  unfold Task.setGuard; split <;> rfl
@[simp] theorem Task.setGuard_sup (k : Task) (q : QReg) (v : Bool) : (k.setGuard q v).sup = k.sup := by
  unfold Task.setGuard; split <;> rfl
@[simp] theorem Task.setGuard_psup (k : Task) (q : QReg) (v : Bool) : (k.setGuard q v).psup = k.psup := by
  unfold Task.setGuard; split <;> rfl
@[simp] theorem Task.setGuard_bsk (k : Task) (q : QReg) (v : Bool) : (k.setGuard q v).bsk = k.bsk := by
  unfold Task.setGuard; split <;> rfl
@[simp] theorem Task.setGuard_exempt (k : Task) (q : QReg) (v : Bool) : (k.setGuard q v).exempt = k.exempt := by
  unfold Task.setGuard; split <;> rfl
@[simp] theorem Task.setGuard_cause (k : Task) (q : QReg) (v : Bool) : (k.setGuard q v).cause = k.cause := by
  unfold Task.setGuard; split <;> rfl
@[simp] theorem Task.setGuard_epc (k : Task) (q : QReg) (v : Bool) : (k.setGuard q v).epc = k.epc := by
  unfold Task.setGuard; split <;> rfl
@[simp] theorem Task.setGuard_tval (k : Task) (q : QReg) (v : Bool) : (k.setGuard q v).tval = k.tval := by
  unfold Task.setGuard; split <;> rfl
@[simp] theorem Task.setGuard_scratch (k : Task) (q : QReg) (v : Bool) : (k.setGuard q v).scratch = k.scratch := by
  unfold Task.setGuard; split <;> rfl
@[simp] theorem Task.setGuard_place (k : Task) (q : QReg) (v : Bool) : (k.setGuard q v).place = k.place := by
  unfold Task.setGuard; split <;> rfl
@[simp] theorem Task.setGuard_bad (k : Task) (q : QReg) (v : Bool) : (k.setGuard q v).bad = k.bad := by
  unfold Task.setGuard; split <;> rfl
@[simp] theorem Task.setGuard_weak (k : Task) (q : QReg) (v : Bool) : (k.setGuard q v).weak = k.weak := by
  unfold Task.setGuard; split <;> rfl
@[simp] theorem Task.setGuard_readySeq (k : Task) (q : QReg) (v : Bool) : (k.setGuard q v).readySeq = k.readySeq := by
  unfold Task.setGuard; split <;> rfl
@[simp] theorem Task.setGuard_leftSeq (k : Task) (q : QReg) (v : Bool) : (k.setGuard q v).leftSeq = k.leftSeq := by
  unfold Task.setGuard; split <;> rfl
@[simp] theorem Task.setGuard_stealable (k : Task) (q : QReg) (v : Bool) : (k.setGuard q v).stealable = k.stealable := by
  unfold Task.setGuard; split <;> rfl
@[simp] theorem Task.setGuard_waiting (k : Task) (q : QReg) (v : Bool) : (k.setGuard q v).waiting = k.waiting := by
  unfold Task.setGuard; split <;> rfl
@[simp] theorem Task.setGuard_late (k : Task) (q : QReg) (v : Bool) : (k.setGuard q v).late = k.late := by
  unfold Task.setGuard; split <;> rfl
@[simp] theorem Task.setGuard_taken (k : Task) (q : QReg) (v : Bool) : (k.setGuard q v).taken = k.taken := by
  unfold Task.setGuard; split <;> rfl
@[simp] theorem Task.setGuard_staging (k : Task) (q : QReg) (v : Bool) : (k.setGuard q v).staging = k.staging := by
  unfold Task.setGuard; split <;> rfl
@[simp] theorem Task.setGuard_openToks (k : Task) (q : QReg) (v : Bool) : (k.setGuard q v).openToks = k.openToks := by
  unfold Task.setGuard; split <;> rfl
@[simp] theorem Task.setGuard_held (k : Task) (q : QReg) (v : Bool) : (k.setGuard q v).held = k.held := by
  unfold Task.setGuard; split <;> rfl
@[simp] theorem Task.setGuard_job (k : Task) (q : QReg) (v : Bool) : (k.setGuard q v).job = k.job := by
  unfold Task.setGuard; split <;> rfl
@[simp] theorem Task.setGuard_handling (k : Task) (q : QReg) (v : Bool) : (k.setGuard q v).handling = k.handling := by
  unfold Task.setGuard; split <;> rfl
@[simp] theorem Task.next_state (k : Task) : k.next.state = k.state := rfl
@[simp] theorem Task.next_ctx (k : Task) : k.next.ctx = k.ctx := rfl
@[simp] theorem Task.next_regs (k : Task) : k.next.regs = k.regs := rfl
@[simp] theorem Task.next_guards (k : Task) : k.next.guards = k.guards := rfl
@[simp] theorem Task.next_te (k : Task) : k.next.te = k.te := rfl
@[simp] theorem Task.next_pte (k : Task) : k.next.pte = k.pte := rfl
@[simp] theorem Task.next_sup (k : Task) : k.next.sup = k.sup := rfl
@[simp] theorem Task.next_psup (k : Task) : k.next.psup = k.psup := rfl
@[simp] theorem Task.next_bsk (k : Task) : k.next.bsk = k.bsk := rfl
@[simp] theorem Task.next_exempt (k : Task) : k.next.exempt = k.exempt := rfl
@[simp] theorem Task.next_cause (k : Task) : k.next.cause = k.cause := rfl
@[simp] theorem Task.next_epc (k : Task) : k.next.epc = k.epc := rfl
@[simp] theorem Task.next_tval (k : Task) : k.next.tval = k.tval := rfl
@[simp] theorem Task.next_scratch (k : Task) : k.next.scratch = k.scratch := rfl
@[simp] theorem Task.next_place (k : Task) : k.next.place = k.place := rfl
@[simp] theorem Task.next_bad (k : Task) : k.next.bad = k.bad := rfl
@[simp] theorem Task.next_weak (k : Task) : k.next.weak = k.weak := rfl
@[simp] theorem Task.next_readySeq (k : Task) : k.next.readySeq = k.readySeq := rfl
@[simp] theorem Task.next_leftSeq (k : Task) : k.next.leftSeq = k.leftSeq := rfl
@[simp] theorem Task.next_stealable (k : Task) : k.next.stealable = k.stealable := rfl
@[simp] theorem Task.next_waiting (k : Task) : k.next.waiting = k.waiting := rfl
@[simp] theorem Task.next_late (k : Task) : k.next.late = k.late := rfl
@[simp] theorem Task.next_taken (k : Task) : k.next.taken = k.taken := rfl
@[simp] theorem Task.next_staging (k : Task) : k.next.staging = k.staging := rfl
@[simp] theorem Task.next_openToks (k : Task) : k.next.openToks = k.openToks := rfl
@[simp] theorem Task.next_held (k : Task) : k.next.held = k.held := rfl
@[simp] theorem Task.next_job (k : Task) : k.next.job = k.job := rfl
@[simp] theorem Task.next_handling (k : Task) : k.next.handling = k.handling := rfl
@[simp] theorem Task.unexempt_state (k : Task) : k.unexempt.state = k.state := by
  unfold Task.unexempt; split <;> rfl
@[simp] theorem Task.unexempt_ctx (k : Task) : k.unexempt.ctx = k.ctx := by
  unfold Task.unexempt; split <;> rfl
@[simp] theorem Task.unexempt_regs (k : Task) : k.unexempt.regs = k.regs := by
  unfold Task.unexempt; split <;> rfl
@[simp] theorem Task.unexempt_guards (k : Task) : k.unexempt.guards = k.guards := by
  unfold Task.unexempt; split <;> rfl
@[simp] theorem Task.unexempt_pc (k : Task) : k.unexempt.pc = k.pc := by
  unfold Task.unexempt; split <;> rfl
@[simp] theorem Task.unexempt_te (k : Task) : k.unexempt.te = k.te := by
  unfold Task.unexempt; split <;> rfl
@[simp] theorem Task.unexempt_pte (k : Task) : k.unexempt.pte = k.pte := by
  unfold Task.unexempt; split <;> rfl
@[simp] theorem Task.unexempt_sup (k : Task) : k.unexempt.sup = k.sup := by
  unfold Task.unexempt; split <;> rfl
@[simp] theorem Task.unexempt_psup (k : Task) : k.unexempt.psup = k.psup := by
  unfold Task.unexempt; split <;> rfl
@[simp] theorem Task.unexempt_cause (k : Task) : k.unexempt.cause = k.cause := by
  unfold Task.unexempt; split <;> rfl
@[simp] theorem Task.unexempt_epc (k : Task) : k.unexempt.epc = k.epc := by
  unfold Task.unexempt; split <;> rfl
@[simp] theorem Task.unexempt_tval (k : Task) : k.unexempt.tval = k.tval := by
  unfold Task.unexempt; split <;> rfl
@[simp] theorem Task.unexempt_scratch (k : Task) : k.unexempt.scratch = k.scratch := by
  unfold Task.unexempt; split <;> rfl
@[simp] theorem Task.unexempt_place (k : Task) : k.unexempt.place = k.place := by
  unfold Task.unexempt; split <;> rfl
@[simp] theorem Task.unexempt_bad (k : Task) : k.unexempt.bad = k.bad := by
  unfold Task.unexempt; split <;> rfl
@[simp] theorem Task.unexempt_weak (k : Task) : k.unexempt.weak = k.weak := by
  unfold Task.unexempt; split <;> rfl
@[simp] theorem Task.unexempt_readySeq (k : Task) : k.unexempt.readySeq = k.readySeq := by
  unfold Task.unexempt; split <;> rfl
@[simp] theorem Task.unexempt_leftSeq (k : Task) : k.unexempt.leftSeq = k.leftSeq := by
  unfold Task.unexempt; split <;> rfl
@[simp] theorem Task.unexempt_stealable (k : Task) : k.unexempt.stealable = k.stealable := by
  unfold Task.unexempt; split <;> rfl
@[simp] theorem Task.unexempt_waiting (k : Task) : k.unexempt.waiting = k.waiting := by
  unfold Task.unexempt; split <;> rfl
@[simp] theorem Task.unexempt_late (k : Task) : k.unexempt.late = k.late := by
  unfold Task.unexempt; split <;> rfl
@[simp] theorem Task.unexempt_taken (k : Task) : k.unexempt.taken = k.taken := by
  unfold Task.unexempt; split <;> rfl
@[simp] theorem Task.unexempt_staging (k : Task) : k.unexempt.staging = k.staging := by
  unfold Task.unexempt; split <;> rfl
@[simp] theorem Task.unexempt_openToks (k : Task) : k.unexempt.openToks = k.openToks := by
  unfold Task.unexempt; split <;> rfl
@[simp] theorem Task.unexempt_held (k : Task) : k.unexempt.held = k.held := by
  unfold Task.unexempt; split <;> rfl
@[simp] theorem Task.unexempt_job (k : Task) : k.unexempt.job = k.job := by
  unfold Task.unexempt; split <;> rfl
@[simp] theorem Task.unexempt_handling (k : Task) : k.unexempt.handling = k.handling := by
  unfold Task.unexempt; split <;> rfl

end Sys2Proof.Machine
end

