-- ==== Sys2Proof/Laws/Ops.lean ====
section
/-! SUPPORT. What each shared operation of a control word does, said once: reading what was written, and the effect of retiring a
word, writing a register or a guard, transferring control, trapping, freezing and waiting. -/

namespace Sys2Proof.Machine

/-! ## Reading what was written -/

@[simp] theorem State.tile_setTile_self (s : State) (t : Nat) (T : Tile) : (s.setTile t T).tile t = T := by
  simp [State.tile, State.setTile]
theorem State.tile_setTile_of_ne (s : State) {t u : Nat} (T : Tile) (h : u ≠ t) : (s.setTile t T).tile u = s.tile u := by
  simp [State.tile, State.setTile, SMap.getD_set_of_ne _ _ _ h]
@[simp] theorem State.tile_modTile_self (s : State) (t : Nat) (f : Tile → Tile) : (s.modTile t f).tile t = f (s.tile t) := by
  simp [State.modTile]
theorem State.tile_modTile_of_ne (s : State) {t u : Nat} (f : Tile → Tile) (h : u ≠ t) : (s.modTile t f).tile u = s.tile u := by
  simp [State.modTile, State.tile_setTile_of_ne _ _ h]
@[simp] theorem State.here_modHere (s : State) (f : Tile → Tile) : (s.modHere f).here = f s.here := by
  simp [State.here, State.modHere]
theorem State.tile_modHere_of_ne (s : State) {u : Nat} (f : Tile → Tile) (h : u ≠ s.focus.tile) : (s.modHere f).tile u = s.tile u := by
  simp [State.modHere, State.tile_modTile_of_ne _ _ h]
@[simp] theorem State.elem_modElem_self (s : State) (g : Nat) (f : Elem → Elem) : (s.modElem g f).elem g = f (s.elem g) := by
  simp [State.elem, State.modElem]
theorem State.elem_modElem_of_ne (s : State) {g h : Nat} (f : Elem → Elem) (n : h ≠ g) : (s.modElem g f).elem h = s.elem h := by
  simp [State.elem, State.modElem, SMap.getD_set_of_ne _ _ _ n]
@[simp] theorem State.ectx_modEctx_self (s : State) (g c : Nat) (f : ElemCtx → ElemCtx) : (s.modEctx g c f).ectx g c = f (s.ectx g c) := by
  simp [State.ectx, State.modEctx]
theorem State.ectx_modEctx_of_ne (s : State) {g c h d : Nat} (f : ElemCtx → ElemCtx) (n : 4 * h + d ≠ 4 * g + c) :
    (s.modEctx g c f).ectx h d = s.ectx h d := by
  simp [State.ectx, State.modEctx, SMap.getD_set_of_ne _ _ _ n]
@[simp] theorem State.node_modNode_self (s : State) (t : Nat) (f : Node → Node) : (s.modNode t f).node t = f (s.node t) := by
  simp [State.node, State.modNode]
theorem State.node_modNode_of_ne (s : State) {t u : Nat} (f : Node → Node) (n : u ≠ t) : (s.modNode t f).node u = s.node u := by
  simp [State.node, State.modNode, SMap.getD_set_of_ne _ _ _ n]

theorem Tile.task_setTask_self (T : Tile) {n : Nat} (k : Task) (h : n < 32) : (T.setTask n k).task n = k := by
  simp [Tile.task, Tile.setTask, h]
theorem Tile.task_setTask_of_ne (T : Tile) {n m : Nat} (k : Task) (h : m ≠ n) : (T.setTask n k).task m = T.task m := by
  unfold Tile.task Tile.setTask
  split
  · split
    · simp [Vector.getElem_set, Ne.symm h]
    · rfl
  · rfl
theorem Tile.task_modTask_self (T : Tile) {n : Nat} (f : Task → Task) (h : n < 32) : (T.modTask n f).task n = f (T.task n) :=
  Tile.task_setTask_self T _ h
theorem Tile.task_modTask_of_ne (T : Tile) {n m : Nat} (f : Task → Task) (h : m ≠ n) : (T.modTask n f).task m = T.task m :=
  Tile.task_setTask_of_ne T _ h
theorem Tile.ctx_modCtx_self (T : Tile) {c : Nat} (f : CtxRegs → CtxRegs) (h : c < 4) : (T.modCtx c f).ctx c = f (T.ctx c) := by
  simp [Tile.ctx, Tile.modCtx, h]
theorem Tile.ctx_modCtx_of_ne (T : Tile) {c d : Nat} (f : CtxRegs → CtxRegs) (h : d ≠ c) : (T.modCtx c f).ctx d = T.ctx d := by
  unfold Tile.ctx Tile.modCtx
  split
  · split
    · simp [Vector.getElem_set, Ne.symm h]
    · rfl
  · rfl
@[simp] theorem Tile.ctx_setTask (T : Tile) (n : Nat) (k : Task) (c : Nat) : (T.setTask n k).ctx c = T.ctx c := by simp [Tile.ctx]

theorem State.cur_modCur (s : State) (f : Task → Task) (h : s.focus.task < 32) : (s.modCur f).cur = f s.cur := by
  unfold State.modCur State.cur
  rw [State.here_modHere, State.modHere_focus, Tile.task_modTask_self _ _ h]

/-- A register reads as what was written to it; s0 reads as zero, R11. -/
theorem Task.reg_setReg_self (k : Task) (r : SReg) (v : Word) : (k.setReg r v).reg r = if r = 0 then 0 else v := by
  unfold Task.reg Task.setReg
  split
  · rfl
  · simp
theorem Task.reg_setReg_of_ne (k : Task) {r q : SReg} (v : Word) (h : q ≠ r) : (k.setReg r v).reg q = k.reg q := by
  unfold Task.reg Task.setReg
  split
  · rfl
  · split
    · rfl
    · have : r.toNat ≠ q.toNat := fun e => h (BitVec.eq_of_toNat_eq e.symm)
      simp [Vector.getElem_set, this]
/-- A result reads as what was written, wherever the task's registers are parked, R18. -/
theorem Task.reg_result (k : Task) (r : SReg) (v : Word) (q : SReg) : (k.result r v).reg q = (k.setReg r v).reg q := by
  unfold Task.reg; rw [Task.result_regs]
theorem Task.reg_result_self (k : Task) (r : SReg) (v : Word) : (k.result r v).reg r = if r = 0 then 0 else v := by
  rw [Task.reg_result, Task.reg_setReg_self]
theorem Task.reg_result_of_ne (k : Task) {r q : SReg} (v : Word) (h : q ≠ r) : (k.result r v).reg q = k.reg q := by
  rw [Task.reg_result, Task.reg_setReg_of_ne _ _ h]
@[simp] theorem Task.reg_zero (k : Task) : k.reg 0 = 0 := by simp [Task.reg]
@[simp] theorem Task.reg_next (k : Task) (r : SReg) : k.next.reg r = k.reg r := rfl
@[simp] theorem Task.reg_unexempt (k : Task) (r : SReg) : k.unexempt.reg r = k.reg r := by simp [Task.reg]

/-- A guard bit reads as what was written to it; q0 reads as 1, R11. -/
theorem Task.guard_setGuard_self (k : Task) (q : QReg) (v : Bool) : (k.setGuard q v).guard q = if q = 0 then true else v := by
  unfold Task.guard Task.setGuard
  by_cases h : q = 0
  · simp [h]
  · have hb : ∀ (g : BitVec 8) (q : QReg) (v : Bool), q ≠ 0 →
        (if v then g ||| 1#8 <<< q.toNat else g &&& ~~~(1#8 <<< q.toNat)).getLsbD q.toNat = v := by
      intro g q v _
      have hq : q.toNat < 8 := q.isLt
      cases v <;> simp [BitVec.getLsbD_or, BitVec.getLsbD_and, BitVec.getLsbD_not, BitVec.getLsbD_shiftLeft, hq]
    simp only [h, if_false]
    exact hb k.guards q v h
theorem Task.guard_setGuard_of_ne (k : Task) {q p : QReg} (v : Bool) (h : p ≠ q) : (k.setGuard q v).guard p = k.guard p := by
  unfold Task.guard Task.setGuard
  by_cases hp : p = 0
  · simp [hp]
  · by_cases hq : q = 0
    · simp [hq]
    · have hne : p.toNat ≠ q.toNat := fun e => h (BitVec.eq_of_toNat_eq e)
      have hp8 : p.toNat < 8 := p.isLt
      have hb : ∀ (g : BitVec 8),
          (if v then g ||| 1#8 <<< q.toNat else g &&& ~~~(1#8 <<< q.toNat)).getLsbD p.toNat = g.getLsbD p.toNat := by
        intro g
        have h1 : p.toNat < q.toNat ∨ ¬ p.toNat - q.toNat = 0 := by omega
        cases v
        · simp [hp8]; intro _; exact h1
        · simp [hp8]; exact fun a b => absurd b (by omega)
      simp only [hp, hq, if_false]
      exact hb k.guards
@[simp] theorem Task.guard_next (k : Task) (q : QReg) : k.next.guard q = k.guard q := rfl
@[simp] theorem Task.guard_unexempt (k : Task) (q : QReg) : k.unexempt.guard q = k.guard q := by simp [Task.guard]

/-! ## Retiring a word -/

theorem Tile.task_finish_self (T : Tile) {m : Nat} (n : Nat) (f : Task → Task) (h : m < 32) :
    (T.finish m n f).task m = f (T.task m).unexempt := Tile.task_setTask_self T _ h
theorem Tile.task_finish_of_ne (T : Tile) {m k : Nat} (n : Nat) (f : Task → Task) (h : k ≠ m) :
    (T.finish m n f).task k = T.task k := Tile.task_setTask_of_ne T _ h

/-- What finishing a word does: its task changes by `f`, RETIRED and CYCLE count it, and nothing else changes. -/
theorem State.retires_finish (s : State) (n : Nat) (f : Task → Task) : Retires s (s.finish n f) n := by
  refine ⟨rfl, ⟨fun u hu => State.tile_modHere_of_ne s _ hu, fun m hm => ?_⟩, ?_, ?_, ?_⟩
  · simp only [State.finish, State.here_modHere]
    exact Tile.task_finish_of_ne _ _ _ hm
  all_goals simp only [State.finish, State.here_modHere, Tile.finish]
  · unfold TileAside
    simp only [State.finish, State.here_modHere, Tile.finish]
    unfold Tile.setTask
    split <;> rfl
theorem State.cur_finish (s : State) (n : Nat) (f : Task → Task) (h : s.focus.task < 32) : (s.finish n f).cur = f s.cur.unexempt := by
  unfold State.finish State.cur
  rw [State.here_modHere, State.modHere_focus]
  exact Tile.task_finish_self _ _ _ h

/-- A word that writes one register in `n` cycles. -/
theorem State.wrote_retireIn (s : State) (d : SReg) (v : Word) (n : Nat) (h : s.focus.task < 32) :
    Wrote s (s.retireIn n fun k => k.setReg d v) d v n := by
  have hc : (s.retireIn n fun k => k.setReg d v).cur = (s.cur.unexempt.setReg d v).next := State.cur_finish s _ _ h
  refine ⟨State.retires_finish s _ _, ?_, ?_, ?_, ?_⟩
  · rw [State.reg, hc, Task.reg_next, Task.reg_setReg_self]
  · intro r hr
    rw [State.reg, hc, Task.reg_next, Task.reg_setReg_of_ne _ _ hr, Task.reg_unexempt, State.reg]
  · rw [hc]; simp [Task.next]
  · rw [hc]
    simp only [Task.next]
    unfold Task.setReg Task.unexempt
    split <;> split <;> rfl

/-- WRITING A REGISTER: a word of one cycle that writes `v` to register `d`. -/
theorem State.wrote_writeReg (s : State) (d : SReg) (v : Word) (h : s.focus.task < 32) : Wrote s (s.writeReg d v) d v 1 :=
  State.wrote_retireIn s d v 1 h

/-- WRITING A GUARD BIT. -/
theorem State.wroteGuard_writeGuard (s : State) (q : QReg) (v : Bool) (h : s.focus.task < 32) : WroteGuard s (s.writeGuard q v) q v := by
  have hc : (s.writeGuard q v).cur = (s.cur.unexempt.setGuard q v).next := State.cur_finish s _ _ h
  refine ⟨State.retires_finish s _ _, ?_, ?_, ?_, ?_⟩
  · rw [hc, Task.guard_next, Task.guard_setGuard_self]
  · intro p hp
    rw [hc, Task.guard_next, Task.guard_setGuard_of_ne _ _ hp, Task.guard_unexempt]
  · rw [hc]; simp [Task.next]
  · rw [hc]
    simp only [Task.next]
    unfold Task.setGuard Task.unexempt
    split <;> split <;> rfl

/-- A WORD THAT ONLY RETIRES. -/
theorem State.passed_retire (s : State) (h : s.focus.task < 32) : Passed s (s.retire id) := by
  refine ⟨State.retires_finish s _ _, ?_⟩
  have hc : (s.retire id).cur = s.cur.unexempt.next := State.cur_finish s _ _ h
  rw [hc, Task.next, Task.unexempt_pc]

/-- A guarded word whose guard does not hold only retires, R20. -/
theorem State.passed_guarded (s : State) (g : BitVec 4) (s' : State) (h : s.focus.task < 32) (hg : s.cur.guardHolds g = false) :
    Passed s (s.guarded g s') := by
  simpa [State.guarded, hg] using State.passed_retire s h
theorem State.guarded_of_holds (s : State) (g : BitVec 4) (s' : State) (hg : s.cur.guardHolds g = true) : s.guarded g s' = s' := by
  simp [State.guarded, hg]

/-- TRANSFERRING CONTROL. -/
theorem State.jumped_jump (s : State) (a : BitVec 15) (h : s.focus.task < 32) : Jumped s (s.jump a) a :=
  ⟨State.retires_finish s _ _, State.cur_finish s _ _ h⟩

/-! ## Frozen regions -/

/-- Stopping the counts of a frozen region changes no element but for the states of its requests, R239. -/
theorem State.elem_pauseFrozen (s : State) (c g : Nat) :
    (s.pauseFrozen c).elem g
      = { s.elem g with reqs := (s.elem g).reqs.map fun q =>
          if q.ctx = c then { q with state := if s.regionFrozen g c then q.state.hold (s.tile (gidTile g)).cycle else q.state } else q } := by
  refine (congrArg (fun o : Option Elem => Option.getD o {}) (SMap.get?_map s.elems (fun g (e : Elem) => { e with reqs := e.reqs.map fun q =>
    if q.ctx = c then { q with state := if s.regionFrozen g c then q.state.hold (s.tile (gidTile g)).cycle else q.state } else q }) g)).trans ?_
  unfold State.elem SMap.getD
  cases SMap.get? s.elems g <;> rfl
theorem State.store_pauseFrozen (s : State) (c : Nat) (sp : Space) : (s.pauseFrozen c).store sp = s.store sp := by
  cases sp with
  | localMem g => show ((s.pauseFrozen c).elem g).store = (s.elem g).store; rw [State.elem_pauseFrozen]
  | _ => rfl

@[simp] theorem State.node_pauseFrozen (s : State) (c t : Nat) : (s.pauseFrozen c).node t = s.node t := rfl

/-! ## Exceptions -/

theorem State.noteError_of_ne (s : State) {c : Nat} (h15 : c ≠ 0x15) (h18 : c ≠ 0x18) : s.noteError s.focus.tile c = s := by
  unfold State.noteError; rw [if_pos ⟨h15, h18⟩]

/-- TAKING AN EXCEPTION with STATUS.TE = 1, R21. -/
theorem State.trapped_raise (s : State) (c : Nat) (v : Word) (h : s.focus.task < 32) (h15 : c ≠ 0x15) (h18 : c ≠ 0x18)
    (hte : s.cur.te = true) : Trapped s (s.raise c v) c v := by
  have hr : s.raise c v = s.modHere fun T => { T.setTask s.focus.task (s.cur.trapEntry (T.ctx s.cur.ctx.toNat).tvec c v) with cycle := T.cycle + 1 } := by
    unfold State.raise
    rw [State.noteError_of_ne _ h15 h18, if_pos hte]
  rw [hr]
  refine ⟨rfl, ⟨fun u hu => State.tile_modHere_of_ne s _ hu, fun m hm => ?_⟩, ?_, ?_, ?_, ?_⟩
  · rw [State.here_modHere]; exact Tile.task_setTask_of_ne _ _ hm
  · unfold TileAside
    rw [State.here_modHere]
    unfold Tile.setTask
    split <;> rfl
  · rw [State.here_modHere]; simp
  · rw [State.here_modHere]
  · unfold State.cur
    rw [State.here_modHere, State.modHere_focus]
    exact Eq.trans (b := (s.here.setTask s.focus.task (s.cur.trapEntry (s.here.ctx s.cur.ctx.toNat).tvec c v)).task s.focus.task) rfl
      ((Tile.task_setTask_self _ _ h).trans rfl)

/-- What entering a state leaves of the task itself, R15. -/
def Task.entered (k : Task) (q : Nat) (st : TaskState) (w : Waiting) : Task :=
  { k with
    state := st
    waiting := w
    readySeq := if st = .ready then q else k.readySeq
    leftSeq := if k.state = .run ∧ st ≠ .run then q else k.leftSeq }
theorem Tile.task_enter_self (T : Tile) {n : Nat} (st : TaskState) (w : Waiting) (h : n < 32) :
    (T.enter n st w).task n = (T.task n).entered T.seq st w :=
  Eq.trans (b := (T.setTask n ((T.task n).entered T.seq st w)).task n) rfl (Tile.task_setTask_self _ _ h)
theorem Tile.task_enter_of_ne (T : Tile) {n m : Nat} (st : TaskState) (w : Waiting) (h : m ≠ n) : (T.enter n st w).task m = T.task m :=
  Eq.trans (b := (T.setTask n ((T.task n).entered T.seq st w)).task m) rfl (Tile.task_setTask_of_ne _ _ h)
theorem Tile.aside_setTask (T : Tile) (n : Nat) (k : Task) : ({ T.setTask n k with tasks := T.tasks } : Tile) = T := by
  unfold Tile.setTask; split <;> rfl
theorem Tile.seq_setTask (T : Tile) (n : Nat) (k : Task) : (T.setTask n k).seq = T.seq := by
  unfold Tile.setTask; split <;> rfl

/-- FREEZING with STATUS.TE = 0, R21. -/
theorem State.froze_freeze (s : State) (c : Nat) (v : Word) (h : s.focus.task < 32) (hr : s.cur.state = .run) : Froze s (s.freeze c v) c v := by
  let f : Tile → Tile := fun T => { (T.setTask s.focus.task s.cur.unexempt).enter s.focus.task .frozen .nothing with cycle := T.cycle + 1 }
  have ht : (s.freeze c v).here = ({ (s.here.setTask s.focus.task s.cur.unexempt).enter s.focus.task .frozen .nothing with cycle := s.here.cycle + 1 } : Tile) :=
    Eq.trans (b := (s.modHere f).here) rfl (State.here_modHere s f)
  have hk : (s.freeze c v).cur = s.cur.unexempt.entered s.here.seq .frozen .nothing := by
    refine Eq.trans (b := (s.freeze c v).here.task s.focus.task) rfl ?_
    rw [ht]
    refine Eq.trans (b := ((s.here.setTask s.focus.task s.cur.unexempt).enter s.focus.task .frozen .nothing).task s.focus.task) rfl ?_
    rw [Tile.task_enter_self _ _ _ h, Tile.task_setTask_self _ _ h, Tile.seq_setTask]
  refine ⟨rfl, rfl, ⟨fun u hu => Eq.trans (b := (s.modHere f).tile u) rfl (State.tile_modHere_of_ne s f hu), fun m hm => ?_⟩, rfl, ?_, ?_, ?_, ?_, ?_⟩
  · rw [ht]
    refine Eq.trans (b := ((s.here.setTask s.focus.task s.cur.unexempt).enter s.focus.task .frozen .nothing).task m) rfl ?_
    rw [Tile.task_enter_of_ne _ _ _ hm, Tile.task_setTask_of_ne _ _ hm]
  · rw [ht]
    unfold Tile.enter Tile.setTask
    split <;> (try split) <;> rfl
  · rw [hk]; rfl
  · rw [hk]; exact Task.unexempt_pc _
  · rw [hk]; exact Task.unexempt_regs _
  · rw [hk]; exact Task.unexempt_guards _

/-- TAKING AN EXCEPTION, in both settings of STATUS.TE, R21. -/
theorem State.raised_raise (s : State) (c : Nat) (v : Word) (h : s.focus.task < 32) (hr : s.cur.state = .run) (h15 : c ≠ 0x15) (h18 : c ≠ 0x18) :
    Raised s (s.raise c v) c v := by
  refine ⟨State.trapped_raise s c v h h15 h18, fun hte => ?_⟩
  have : s.raise c v = s.freeze c v := by
    unfold State.raise
    rw [State.noteError_of_ne _ h15 h18]
    exact if_neg (by rw [hte]; decide)
  rw [this]
  exact State.froze_freeze s c v h hr

/-- LEAVING RUN FOR WAIT, R15. -/
theorem State.waits_block (s : State) (w : Waiting) (h : s.focus.task < 32) (hr : s.cur.state = .run) :
    Waits s (s.block w) w s.cur.taken := by
  have ht : (s.block w).here = ({ (s.here.modTask s.focus.task Task.unexempt).enter s.focus.task .wait w with cycle := s.here.cycle + 1 } : Tile) :=
    State.here_modHere s _
  refine ⟨rfl, ⟨fun u hu => State.tile_modHere_of_ne s _ hu, fun m hm => ?_⟩, ?_, ?_⟩
  · rw [ht]
    refine Eq.trans (b := ((s.here.modTask s.focus.task Task.unexempt).enter s.focus.task .wait w).task m) rfl ?_
    rw [Tile.task_enter_of_ne _ _ _ hm, Tile.task_modTask_of_ne _ _ hm]
  · rw [ht]
    unfold Tile.enter Tile.modTask Tile.setTask
    split <;> (try split) <;> rfl
  · refine Eq.trans (b := (s.block w).here.task s.focus.task) rfl ?_
    rw [ht]
    refine Eq.trans (b := ((s.here.modTask s.focus.task Task.unexempt).enter s.focus.task .wait w).task s.focus.task) rfl ?_
    rw [Tile.task_enter_self _ _ _ h, Tile.task_modTask_self _ _ h]
    have e1 : (s.here.modTask s.focus.task Task.unexempt).seq = s.here.seq := Tile.seq_setTask _ _ _
    have e2 : (s.here.task s.focus.task).unexempt.state = .run := by rw [Task.unexempt_state]; exact hr
    unfold Task.entered
    simp only [e1, e2]
    simp [State.cur]

end Sys2Proof.Machine
end

