-- ==== Sys2Proof/Laws/Memory.lean ====
section
/-! SUPPORT. What the operations of the memory system leave alone: a task in RUN, the focus, and the note of an address that no memory
has; and that each keeps the canonical form of every store. -/

namespace Sys2Proof.Machine

theorem Calm.refl (s : State) : Calm s s := ⟨rfl, rfl, fun _ _ _ => rfl⟩
theorem Calm.trans {s u v : State} (h : Calm s u) (k : Calm u v) : Calm s v :=
  ⟨k.1.trans h.1, k.2.1.trans h.2.1, fun t n hr => by
    have e := h.2.2 t n hr
    rw [k.2.2 t n (by rw [e]; exact hr), e]⟩
theorem Calm.foldl {α : Type} (f : State → α → State) (hf : ∀ s x, Calm s (f s x)) (l : List α) (s : State) : Calm s (l.foldl f s) := by
  induction l generalizing s with
  | nil => exact Calm.refl s
  | cons x r ih => exact (hf s x).trans (ih _)
/-- An update that touches no task, no focus and no note. -/
theorem Calm.of_tiles {s u : State} (hf : u.focus = s.focus) (ha : u.absent = s.absent) (ht : u.tiles = s.tiles) : Calm s u :=
  ⟨hf, ha, fun t n _ => by simp only [State.tile, ht]⟩
theorem Calm.cur {s u : State} (h : Calm s u) (hr : s.cur.state = .run) : u.cur = s.cur := by
  have := h.2.2 s.focus.tile s.focus.task hr
  unfold State.cur State.here
  rw [h.1]; exact this

theorem Calm.modTile (s : State) (t : Nat) (f : Tile → Tile) (hf : ∀ T n, (T.task n).state = .run → (f T).task n = T.task n) :
    Calm s (s.modTile t f) := by
  refine ⟨rfl, rfl, fun u n hr => ?_⟩
  by_cases h : u = t
  · subst h; rw [State.tile_modTile_self]; exact hf _ _ hr
  · rw [State.tile_modTile_of_ne _ _ h]
theorem Calm.modElem (s : State) (g : Nat) (f : Elem → Elem) : Calm s (s.modElem g f) := Calm.of_tiles rfl rfl rfl
theorem Calm.modEctx (s : State) (g c : Nat) (f : ElemCtx → ElemCtx) : Calm s (s.modEctx g c f) := Calm.of_tiles rfl rfl rfl
theorem Calm.modNode (s : State) (t : Nat) (f : Node → Node) : Calm s (s.modNode t f) := Calm.of_tiles rfl rfl rfl
theorem Calm.modUnit (s : State) (d : Nat) (f : TransUnit → TransUnit) : Calm s (s.modUnit d f) := Calm.of_tiles rfl rfl rfl
theorem Calm.modMgmt (s : State) (d : Nat) (f : Mgmt → Mgmt) : Calm s (s.modMgmt d f) := Calm.of_tiles rfl rfl rfl

theorem Tile.task_of_tasks {T U : Tile} (h : U.tasks = T.tasks) (n : Nat) : U.task n = T.task n := by simp [Tile.task, h]

theorem Calm.setStore (s : State) (sp : Space) (x : Store) : Calm s (s.setStore sp x) := by
  cases sp
  case localMem g => exact Calm.modElem s g _
  case overlay t => exact Calm.modTile s t _ fun T n _ => Tile.task_of_tasks rfl n
  case dataStore t => exact Calm.modTile s t _ fun T n _ => Tile.task_of_tasks rfl n
  case instrStore t => exact Calm.modTile s t _ fun T n _ => Tile.task_of_tasks rfl n
  all_goals exact Calm.of_tiles rfl rfl rfl
theorem Calm.modStore (s : State) (sp : Space) (f : Store → Store) : Calm s (s.modStore sp f) := Calm.setStore s sp _

/-- Waking a task changes no task that is not in WAIT. -/
theorem Tile.task_wake_awake (T : Tile) (n m : Nat) (hr : (T.task m).state ≠ .wait) : (T.wake n).task m = T.task m := by
  unfold Tile.wake
  split
  next h =>
    have hne : m ≠ n := fun e => hr (by rw [e]; exact h)
    exact Tile.task_enter_of_ne _ _ _ hne
  next => rfl
theorem Tile.task_foldl_awake {α : Type} (f : Tile → α → Tile) (hf : ∀ T x m, (T.task m).state ≠ .wait → (f T x).task m = T.task m)
    (l : List α) (T : Tile) (m : Nat) (hr : (T.task m).state ≠ .wait) : (l.foldl f T).task m = T.task m := by
  induction l generalizing T with
  | nil => rfl
  | cons x r ih =>
    have e := hf T x m hr
    exact (ih (f T x) (by rw [e]; exact hr)).trans e
theorem Tile.task_idleEvent_awake (T : Tile) (m : Nat) (hr : (T.task m).state ≠ .wait) : T.idleEvent.task m = T.task m := by
  unfold Tile.idleEvent
  refine Tile.task_foldl_awake _ (fun T x m hm => ?_) _ T m hr
  split
  · exact Tile.task_wake_awake _ _ _ hm
  · rfl
theorem TaskState.awake {st : TaskState} (h : st = .run) : st ≠ .wait := by rw [h]; decide

theorem Calm.release (s : State) (m : Monitor) : Calm s (s.release m) := by
  refine Calm.modTile s m.tile _ fun T n hr => ?_
  simp only
  split
  next h =>
    have hne : n ≠ m.tid := fun e => by rw [e] at hr; rw [h.1] at hr; cases hr
    have key : ∀ k : Task, (({ T.setTask m.tid k with retired := T.retired + 1 } : Tile).wake m.tid).idleEvent.task n = T.task n := by
      intro k
      have e0 : ({ T.setTask m.tid k with retired := T.retired + 1 } : Tile).task n = T.task n :=
        Eq.trans (b := (T.setTask m.tid k).task n) rfl (Tile.task_setTask_of_ne T k hne)
      have r0 : (({ T.setTask m.tid k with retired := T.retired + 1 } : Tile).task n).state ≠ .wait := by rw [e0]; exact TaskState.awake hr
      have e1 := Tile.task_wake_awake _ m.tid n r0
      rw [Tile.task_idleEvent_awake _ _ (by rw [e1]; exact r0), e1, e0]
    exact key _
  next => rfl
theorem Calm.releaseWritten (s : State) (a n : Nat) : Calm s (s.releaseWritten a n) :=
  Calm.trans (u := { s with monitors := s.monitors.filter fun m => !(m.space == .hbm && (unitsOf 8 a n).contains (m.word / 8)) })
    (Calm.of_tiles rfl rfl rfl) (Calm.foldl _ (fun s m => Calm.release s m) _ _)
theorem Calm.unstage (s : State) (t a n : Nat) : Calm s (s.unstage t a n) :=
  Calm.modTile s t _ fun _ n _ => Tile.task_of_tasks rfl n
theorem Calm.perform (s : State) (sp : Space) (a n v : Nat) : Calm s (s.perform sp a n v) := by
  unfold State.perform
  split
  · exact Calm.refl s
  · simp only
    refine (Calm.modStore s sp fun x => x.write a n v).trans ?_
    split
    · exact Calm.releaseWritten _ _ _
    · exact Calm.unstage _ _ _ _
    · exact Calm.refl _
theorem Calm.performFor (s : State) (c : Nat) (sp : Space) (a n v : Nat) : Calm s (s.performFor c sp a n v) := by
  unfold State.performFor
  refine (Calm.perform s sp a n v).trans ?_
  split
  · exact Calm.modStore _ _ _
  · exact Calm.modStore _ _ _
  · exact Calm.refl _
theorem Calm.recallLine (s : State) (line : Nat) : Calm s (s.recallLine line) := by
  unfold State.recallLine
  refine Calm.foldl _ (fun s e => ?_) _ _
  split
  · exact Calm.refl s
  · exact (Calm.perform _ _ _ _ _).trans (Calm.modElem _ _ _)
theorem Calm.callBack (s : State) (own : Option Nat) (sp : Space) (a n : Nat) : Calm s (s.callBack own sp a n) := by
  unfold State.callBack
  split
  · refine Calm.foldl _ (fun s l => ?_) _ _
    have key : ∀ b : Bool, Calm s (if b then s else s.recallLine l) := fun b => by
      cases b
      · exact Calm.recallLine s l
      · exact Calm.refl s
    exact key _
  · exact Calm.refl s
theorem Calm.land (s : State) (f : InFlight) : Calm s (s.land f) := (Calm.callBack s none _ _ _).trans (Calm.perform _ _ _ _ _)
theorem Calm.landWhere (s : State) (want : InFlight → Bool) : Calm s (s.landWhere want) := by
  unfold State.landWhere
  simp only
  generalize State.landWhere.split _ _ = p
  exact Calm.trans (u := { s with inflight := p.2 }) (Calm.of_tiles rfl rfl rfl) (Calm.foldl _ (fun s f => Calm.land s f) _ _)
theorem Calm.settleHome (s : State) (g : Nat) (sp : Space) (a n : Nat) : Calm s (s.settleHome g sp a n) := Calm.landWhere s _
theorem Calm.atHome (s : State) (g : Nat) (own : Option Nat) (sp : Space) (a n : Nat) : Calm s (s.atHome g own sp a n) :=
  (Calm.settleHome s g sp a n).trans (Calm.callBack _ _ _ _ _)
theorem Calm.fence (s : State) (g f : Nat) : Calm s (s.fence g f) := by
  unfold State.fence
  split
  · exact Calm.refl s
  · have key : ∀ u : State, Calm s u → Calm s (if f = 3 then u
        else u.elems.foldl (fun s e => (s.elem e.1).owner.foldl (fun s o => s.recallLine o.line) s) u) := fun u hu => by
      split
      · exact hu
      · exact hu.trans (Calm.foldl _ (fun s e => Calm.foldl _ (fun s o => Calm.recallLine s _) _ _) _ _)
    exact key _ (Calm.landWhere s _)
theorem Calm.publish (s : State) (g : Nat) : Calm s (s.publish g) := Calm.of_tiles rfl rfl rfl
theorem Calm.accept (s : State) (g : Nat) (sp : Space) (a n v : Nat) (p : Bool) : Calm s (s.accept g sp a n v p) := Calm.of_tiles rfl rfl rfl
theorem Calm.countFixed (s : State) (d n : Nat) : Calm s (s.countFixed d n) := by
  unfold State.countFixed
  split
  · exact Calm.refl s
  · exact Calm.modMgmt s d _
theorem Calm.correct (s : State) (d : Nat) (sp : Space) (a n : Nat) : Calm s (s.correct d sp a n) := by
  unfold State.correct
  simp only
  split
  · exact Calm.refl s
  · exact (Calm.modStore s sp _).trans (Calm.countFixed _ _ _)
theorem Calm.markDirty (s : State) (d : Nat) (l : Leaf) : Calm s (s.markDirty d l) := by
  unfold State.markDirty
  split
  · exact Calm.refl s
  · exact (Calm.callBack s none .hbm l.src 8).trans ((Calm.perform _ _ _ _ _).trans (Calm.modUnit _ _ _))

/-! ## Translation: an access that is allowed has met no address that no memory has -/

theorem Calm.keepPointer (s : State) (d c a : Nat) (e : BitVec 64) : Calm s (s.keepPointer d c a e) := Calm.modUnit s d _
theorem pteV_zero : pteV 0 = false := BitVec.getLsbD_zero
theorem State.calm_entryAt (s : State) (d c a : Nat) (hv : pteV (s.entryAt d c a).1 = true) : Calm s (s.entryAt d c a).2 := by
  unfold State.entryAt at *
  split
  · exact Calm.refl s
  · rename_i h1
    simp only [h1] at hv
    split
    · exact (Calm.callBack s none .hbm a 8).trans (Calm.correct _ _ _ _ _)
    · rename_i h2
      rw [if_neg h2] at hv
      rw [pteV_zero] at hv
      exact absurd hv (by decide)
theorem State.calm_walkFrom (s : State) (d c va fuel level table : Nat) (l : Leaf) (u : State)
    (h : s.walkFrom d c va fuel level table = (some l, u)) : Calm s u := by
  induction fuel generalizing s level table with
  | zero =>
    unfold State.walkFrom at h
    exact absurd (congrArg Prod.fst h) (by simp)
  | succ n ih =>
    have key : ∀ (a : Nat) (p : BitVec 64 × State), p = s.entryAt d c a →
        (if !pteV p.1 then (none, p.2)
          else if pteLeaf p.1 then
            if level < 2 then (none, p.2)
            else if level = 2 then (if pteAddr p.1 % 2 ^ 25 ≠ 0 then (none, p.2) else (some ⟨p.1, true, a⟩, p.2))
            else (some ⟨p.1, false, a⟩, p.2)
          else if level = 3 then (none, p.2)
          else (p.2.keepPointer d c a p.1).walkFrom d c va n (level + 1) (pteAddr p.1)) = (some l, u) → Calm s u := by
      intro a p hp h
      by_cases hv : pteV p.1 = true
      · have hs : Calm s p.2 := by rw [hp]; exact State.calm_entryAt _ _ _ _ (by rw [← hp]; exact hv)
        simp only [hv] at h
        split at h
        · simp at h
        · split at h
          · split at h
            · simp at h
            · split at h
              · split at h
                · simp at h
                · simp at h; rw [← h.2]; exact hs
              · simp at h; rw [← h.2]; exact hs
          · split at h
            · simp at h
            · exact hs.trans ((Calm.keepPointer _ _ _ _ _).trans (ih _ _ _ h))
      · simp [hv] at h
    unfold State.walkFrom at h
    exact key _ _ rfl h
theorem State.calm_translate (s : State) (d c va : Nat) (l : Leaf) (u : State) (h : s.translate d c va = (some l, u)) : Calm s u := by
  unfold State.translate at h
  split at h
  · simp at h
  · split at h
    · simp at h; rw [← h.2]; exact Calm.refl _
    · unfold State.walk at h
      dsimp only at h
      split at h
      · simp at h
      · generalize he : s.walkFrom d c va 4 0 ((s.rootOf c).root.toNat * 2 ^ 14) = w at h
        obtain ⟨o, w⟩ := w
        cases o with
        | none => simp at h
        | some l' =>
          simp at h
          rw [← h.2]
          exact (State.calm_walkFrom _ _ _ _ _ _ _ _ _ he).trans (Calm.modUnit _ _ _)
/-- An access that translates and is allowed leaves every task in RUN, the focus and the note alone. -/
theorem State.calm_probe (s : State) (d c va n : Nat) (need : Need) (p : Space × Nat) (u : State)
    (h : s.probe d c va n need = (.ok p, u)) : Calm s u := by
  unfold State.probe at h
  split at h
  · simp at h
  · rename_i l s' he
    have hs := State.calm_translate _ _ _ _ _ _ he
    split at h
    · simp at h
    · simp only at h
      split at h
      · simp at h
      · split at h
        · simp at h
        · simp at h
          rw [← h.2]
          split
          · exact hs.trans (Calm.markDirty _ _ _)
          · exact hs
theorem State.calm_curProbe (s : State) (va n : Nat) (need : Need) (p : Space × Nat) (u : State)
    (h : s.curProbe va n need = (.ok p, u)) : Calm s u := State.calm_probe _ _ _ _ _ _ _ _ h

end Sys2Proof.Machine
end

