-- ==== Sys2Proof/Laws/Engines.lean ====
section
/-! SUPPORT. Sync pairs, and what it is for a word to be taken by an engine and to end. -/

namespace Sys2Proof.Machine

/-! ## Sync pairs -/

theorem Tile.task_wakeSync_awake (T : Tile) (c maj f n : Nat) (hr : (T.task n).state ≠ .wait) : (T.wakeSync c maj f).task n = T.task n := by
  unfold Tile.wakeSync
  refine Tile.task_foldl_awake _ (fun T x m hm => ?_) _ T n hr
  split
  · split
    · exact Tile.task_wake_awake _ _ _ hm
    · rfl
  · rfl
theorem Tile.task_modPair_awake (T : Tile) (c maj fifo : Nat) (f : Pair → Pair) (n : Nat) (hr : (T.task n).state ≠ .wait) :
    (T.modPair c maj fifo f).task n = T.task n := by
  have hp : ∀ p, (T.setPair c maj fifo p).task n = T.task n := fun p => Tile.task_of_tasks rfl n
  have h0 : ∀ p, ((T.setPair c maj fifo p).wakeSync c maj fifo).task n = T.task n := fun p => by
    rw [Tile.task_wakeSync_awake _ _ _ _ _ (by rw [hp]; exact hr), hp]
  unfold Tile.modPair
  simp only
  split
  · rw [Tile.task_idleEvent_awake _ _ (by rw [h0]; exact hr), h0]
  · exact h0 _
theorem Calm.modPair (s : State) (t c maj fifo : Nat) (f : Pair → Pair) : Calm s (s.modTile t fun T => T.modPair c maj fifo f) :=
  Calm.modTile s t _ fun T n hr => Tile.task_modPair_awake T c maj fifo f n (TaskState.awake hr)

/-- An update of tasks alone. -/
theorem Tile.pair_of_pairs {T U : Tile} (h : U.pairs = T.pairs) (c maj f : Nat) : U.pair c maj f = T.pair c maj f := by simp [Tile.pair, h]
theorem Tile.pairs_setTask (T : Tile) (n : Nat) (k : Task) : (T.setTask n k).pairs = T.pairs := by unfold Tile.setTask; split <;> rfl
theorem Tile.pairs_wake (T : Tile) (n : Nat) : (T.wake n).pairs = T.pairs := by
  unfold Tile.wake
  split
  · exact Tile.pairs_setTask _ _ _
  · rfl
theorem Tile.foldl_keeps {α β : Type} (g : Tile → β) (f : Tile → α → Tile) (hf : ∀ T x, g (f T x) = g T) (l : List α) (T : Tile) :
    g (l.foldl f T) = g T := by
  induction l generalizing T with
  | nil => rfl
  | cons x r ih => exact (ih _).trans (hf T x)
theorem Tile.pairs_idleEvent (T : Tile) : T.idleEvent.pairs = T.pairs := by
  unfold Tile.idleEvent
  exact Tile.foldl_keeps Tile.pairs _ (fun T x => by split <;> [exact Tile.pairs_wake _ _; rfl]) _ T
theorem Tile.pairs_wakeSync (T : Tile) (c maj f : Nat) : (T.wakeSync c maj f).pairs = T.pairs := by
  unfold Tile.wakeSync
  exact Tile.foldl_keeps Tile.pairs _ (fun T x => by
    split
    · split
      · exact Tile.pairs_wake _ _
      · rfl
    · rfl) _ T
/-- The pair after a change: tokens owed to the Surveyor, then completion tokens that are due, have been added while there is room. -/
theorem Tile.pair_modPair (T : Tile) (c maj fifo : Nat) (f : Pair → Pair) :
    (T.modPair c maj fifo f).pair c maj fifo
      = let q := f (T.pair c maj fifo)
        let back := Min.min q.owed (pairDepth - q.toTask)
        { q with order := (flushTokens q.order (q.toTask + back)).1, toTask := (flushTokens q.order (q.toTask + back)).2, owed := q.owed - back } := by
  unfold Tile.modPair
  simp only
  have h0 : ∀ p, ((T.setPair c maj fifo p).wakeSync c maj fifo).pair c maj fifo = p := fun p => by
    rw [Tile.pair_of_pairs (Tile.pairs_wakeSync _ _ _ _)]; simp [Tile.pair, Tile.setPair]
  split
  · rw [Tile.pair_of_pairs (Tile.pairs_idleEvent _), h0]
  · exact h0 _

/-- Where no token is owed, a change of the pair only adds the completion tokens that are due. -/
theorem Tile.pair_modPair_paid (T : Tile) (c maj fifo : Nat) (f : Pair → Pair) (h : (f (T.pair c maj fifo)).owed = 0) :
    (T.modPair c maj fifo f).pair c maj fifo
      = let q := f (T.pair c maj fifo)
        { q with order := (flushTokens q.order q.toTask).1, toTask := (flushTokens q.order q.toTask).2 } := by
  rw [Tile.pair_modPair]
  simp [h]

/-! ## What the updates of a tile leave alone -/

/-- The stores of a tile are as before, and its RETIRED. -/
def Tile.Still (T U : Tile) : Prop := U.istore = T.istore ∧ U.dstore = T.dstore ∧ U.overlay = T.overlay ∧ U.retired = T.retired
theorem Tile.Still.refl (T : Tile) : T.Still T := ⟨rfl, rfl, rfl, rfl⟩
theorem Tile.Still.trans {T U V : Tile} (h : T.Still U) (k : U.Still V) : T.Still V :=
  ⟨k.1.trans h.1, k.2.1.trans h.2.1, k.2.2.1.trans h.2.2.1, k.2.2.2.trans h.2.2.2⟩
theorem Tile.Still.foldl {α : Type} (f : Tile → α → Tile) (hf : ∀ (T : Tile) (x : α), T.Still (f T x)) (l : List α) (T : Tile) : T.Still (l.foldl f T) := by
  induction l generalizing T with
  | nil => exact Tile.Still.refl T
  | cons x r ih => exact (hf T x).trans (ih _)
theorem Tile.Still.setTask (T : Tile) (n : Nat) (k : Task) : T.Still (T.setTask n k) := by
  unfold Tile.setTask; split <;> exact ⟨rfl, rfl, rfl, rfl⟩
theorem Tile.Still.enter (T : Tile) (n : Nat) (st : TaskState) (w : Waiting) : T.Still (T.enter n st w) :=
  (Tile.Still.setTask T n ((T.task n).entered T.seq st w)).trans ⟨rfl, rfl, rfl, rfl⟩
theorem Tile.Still.wake (T : Tile) (n : Nat) : T.Still (T.wake n) := by
  unfold Tile.wake; split
  · exact Tile.Still.enter _ _ _ _
  · exact Tile.Still.refl T
theorem Tile.Still.idleEvent (T : Tile) : T.Still T.idleEvent := by
  unfold Tile.idleEvent
  exact Tile.Still.foldl _ (fun T n => by split <;> [exact Tile.Still.wake T n; exact Tile.Still.refl T]) _ T
theorem Tile.Still.modCtx (T : Tile) (c : Nat) (f : CtxRegs → CtxRegs) : T.Still (T.modCtx c f) := by
  unfold Tile.modCtx; split <;> exact ⟨rfl, rfl, rfl, rfl⟩
theorem Tile.Still.modPair (T : Tile) (c maj fifo : Nat) (f : Pair → Pair) : T.Still (T.modPair c maj fifo f) := by
  have h0 : ∀ p, T.Still ((T.setPair c maj fifo p).wakeSync c maj fifo) := fun p =>
    Tile.Still.trans (U := T.setPair c maj fifo p) ⟨rfl, rfl, rfl, rfl⟩ (Tile.Still.foldl _ (fun T n => by
      split
      · split
        · exact Tile.Still.wake _ _
        · exact Tile.Still.refl _
      · exact Tile.Still.refl _) _ _)
  unfold Tile.modPair
  simp only
  split
  · exact (h0 _).trans (Tile.Still.idleEvent _)
  · exact h0 _

/-- Only tile `t` has changed, and its stores and RETIRED have not; a task in RUN, the focus and the note are as before. -/
def Within (t : Nat) (s u : State) : Prop := Calm s u ∧ SameBytes s u ∧ (∀ v, v ≠ t → u.tile v = s.tile v) ∧ (u.tile t).retired = (s.tile t).retired
theorem Within.refl (t : Nat) (s : State) : Within t s s := ⟨Calm.refl s, fun _ => rfl, fun _ _ => rfl, rfl⟩
theorem Within.trans {t : Nat} {s u v : State} (h : Within t s u) (k : Within t u v) : Within t s v :=
  ⟨h.1.trans k.1, fun sp => (k.2.1 sp).trans (h.2.1 sp), fun x hx => (k.2.2.1 x hx).trans (h.2.2.1 x hx), k.2.2.2.trans h.2.2.2⟩
theorem State.sameBytes_modTile (s : State) (t : Nat) (f : Tile → Tile) (h : (s.tile t).Still (f (s.tile t))) : SameBytes s (s.modTile t f) := by
  have key : ∀ u, (s.tile u).Still ((s.modTile t f).tile u) := fun u => by
    by_cases e : u = t
    · subst e; rw [State.tile_modTile_self]; exact h
    · rw [State.tile_modTile_of_ne _ _ e]; exact Tile.Still.refl _
  intro sp
  cases sp
  case overlay u => exact congrArg Store.bytes (key u).2.2.1
  case dataStore u => exact congrArg Store.bytes (key u).2.1
  case instrStore u => exact congrArg Store.bytes (key u).1
  all_goals rfl
theorem Within.modTile (s : State) (t : Nat) (f : Tile → Tile) (hf : ∀ T n, (T.task n).state = .run → (f T).task n = T.task n)
    (h : (s.tile t).Still (f (s.tile t))) : Within t s (s.modTile t f) :=
  ⟨Calm.modTile s t f hf, State.sameBytes_modTile s t f h, fun _ hv => State.tile_modTile_of_ne s f hv, by rw [State.tile_modTile_self]; exact h.2.2.2⟩
theorem Within.modPair (s : State) (t c maj fifo : Nat) (f : Pair → Pair) : Within t s (s.modTile t fun T => T.modPair c maj fifo f) :=
  Within.modTile s t _ (fun T n hr => Tile.task_modPair_awake T c maj fifo f n (TaskState.awake hr)) (Tile.Still.modPair _ _ _ _ _)
theorem Within.modCtx (s : State) (t c : Nat) (f : CtxRegs → CtxRegs) : Within t s (s.modTile t fun T => T.modCtx c f) :=
  Within.modTile s t _ (fun T n _ => Tile.task_of_tasks (by unfold Tile.modCtx; split <;> rfl) n) (Tile.Still.modCtx _ _ _)
/-- An update of the state outside the tiles and the stores. -/
theorem Within.of_rest {t : Nat} {s u : State} (hf : u.focus = s.focus) (ha : u.absent = s.absent) (ht : u.tiles = s.tiles)
    (hb : SameBytes s u) : Within t s u :=
  ⟨Calm.of_tiles hf ha ht, hb, fun v _ => by simp [State.tile, ht], by simp [State.tile, ht]⟩
theorem Within.tick (t : Nat) (s : State) : Within t s s.tick := Within.of_rest rfl rfl rfl fun sp => by cases sp <;> rfl
theorem Within.publish (t : Nat) (s : State) (g : Nat) : Within t s (s.publish g) := Within.of_rest rfl rfl rfl fun sp => by cases sp <;> rfl

theorem State.within_issueSync (s : State) (maj : Nat) (y : Sync) : Within s.focus.tile s (s.issueSync maj y).2 := by
  unfold State.issueSync
  simp only
  have h1 : Within s.focus.tile s (if y.pop = true then s.modHere fun T => T.modPair s.cur.ctx.toNat maj y.fifo.toNat fun p => { p with toTask := p.toTask - 1 } else s) := by
    split
    · exact Within.modPair s _ _ _ _ _
    · exact Within.refl _ s
  generalize (if y.pop = true then s.modHere fun T => T.modPair s.cur.ctx.toNat maj y.fifo.toNat fun p => { p with toTask := p.toTask - 1 } else s) = u at *
  split
  · refine h1.trans ?_
    have hf : u.focus.tile = s.focus.tile := by rw [h1.1.1]
    rw [← hf]
    exact (Within.modPair u u.focus.tile _ _ _ _).trans (Within.tick _ _)
  · exact h1

theorem State.sameBytes_retireIn (s : State) (n : Nat) (f : Task → Task) : SameBytes s (s.retireIn n f) := by
  have h : s.here.istore = s.here.istore := rfl
  have key : ∀ u, ((s.retireIn n f).tile u).istore = (s.tile u).istore ∧ ((s.retireIn n f).tile u).dstore = (s.tile u).dstore
      ∧ ((s.retireIn n f).tile u).overlay = (s.tile u).overlay := fun u => by
    by_cases e : u = s.focus.tile
    · subst e
      have h3 := (State.retires_finish s n fun k => (f k).next).2.2.1
      unfold TileAside at h3
      have a := congrArg Tile.istore h3
      have b := congrArg Tile.dstore h3
      have c := congrArg Tile.overlay h3
      exact ⟨a, b, c⟩
    · have := (State.retires_finish s n fun k => (f k).next).2.1.1 u e
      exact ⟨congrArg Tile.istore this, congrArg Tile.dstore this, congrArg Tile.overlay this⟩
  intro sp
  cases sp
  case overlay u => exact congrArg Store.bytes (key u).2.2
  case dataStore u => exact congrArg Store.bytes (key u).2.1
  case instrStore u => exact congrArg Store.bytes (key u).1
  all_goals rfl

/-- The tokens of a pair after a word of it has issued. -/
theorem State.pair_issueSync (s : State) (maj : Nat) (y : Sync) :
    let p := s.here.pair s.cur.ctx.toNat maj y.fifo.toNat
    p.order = [] → p.owed = 0 → (s.issueSync maj y).2.here.pair s.cur.ctx.toNat maj y.fifo.toNat
      = { p with toTask := p.toTask - bit y.pop, order := if y.push then [(s.serial, false)] else [] } := by
  intro p hp hw
  unfold State.issueSync
  simp only
  have h1 : ∀ u : State, u = (if y.pop = true then s.modHere fun T => T.modPair s.cur.ctx.toNat maj y.fifo.toNat fun p => { p with toTask := p.toTask - 1 } else s) →
      u.here.pair s.cur.ctx.toNat maj y.fifo.toNat = { p with toTask := p.toTask - bit y.pop } ∧ u.serial = s.serial := by
    rintro u rfl
    split
    · rename_i h
      refine ⟨?_, rfl⟩
      rw [State.here_modHere, Tile.pair_modPair_paid _ _ _ _ _ hw]
      simp only [bit, h]
      have : (s.here.pair s.cur.ctx.toNat maj y.fifo.toNat).order = [] := hp
      rw [this]; rfl
    · rename_i h
      refine ⟨?_, rfl⟩
      simp [bit, h, p]
  generalize (if y.pop = true then s.modHere fun T => T.modPair s.cur.ctx.toNat maj y.fifo.toNat fun p => { p with toTask := p.toTask - 1 } else s) = u at *
  obtain ⟨h2, h3⟩ := h1 u rfl
  by_cases hq : y.push = true
  · rw [if_pos hq, if_pos hq]
    refine Eq.trans (b := (u.modHere fun T => T.modPair s.cur.ctx.toNat maj y.fifo.toNat fun p => { p with order := p.order ++ [(u.serial, false)] }).here.pair s.cur.ctx.toNat maj y.fifo.toNat) rfl ?_
    rw [State.here_modHere, Tile.pair_modPair_paid _ _ _ _ _ (by rw [h2]; exact hw)]
    simp [h2, h3, hp, flushTokens]
  · rw [if_neg hq, if_neg hq, h2]
    simp [hp]

/-- A SYNCED WORD THAT RETIRES WITH A RESULT, R37 and R316. -/
theorem State.syncRetired_retireNow (s : State) (maj : Nat) (y : Sync) (d : SReg) (v : Word) (h : s.Issues) :
    SyncRetired s (s.retireNow maj y fun k => k.setReg d v) maj y d v := by
  obtain ⟨hc, hb, ho, hn⟩ := State.within_issueSync s maj y
  have hp := State.pair_issueSync s maj y
  have hq : (s.issueSync maj y).1 = if y.push then some s.serial else none := by
    unfold State.issueSync
    simp only
    split
    · simp only [Option.some.injEq]; split <;> rfl
    · rfl
  unfold State.retireNow State.retirePosted
  simp only
  generalize s.issueSync maj y = w at *
  obtain ⟨o, u⟩ := w
  simp only at hc hb ho hn hp hq
  have hcur : u.cur = s.cur := hc.cur h.run
  have hft : u.focus.task < 32 := by rw [hc.1]; exact h.task
  have hfoc : u.focus = s.focus := hc.1
  have hw := State.wrote_retireIn u d v 1 hft
  have hsb := State.sameBytes_retireIn u 1 fun k => k.setReg d v
  obtain ⟨⟨w1, w2, w3, w4, w5⟩, w6, w7, w8, w9⟩ := hw
  have hreg : ∀ r, u.reg r = s.reg r := fun r => by unfold State.reg; rw [hcur]
  have htile : ∀ x, x ≠ s.focus.tile → (u.retire fun k => k.setReg d v).tile x = s.tile x := fun x hx =>
    (w2.1 x (by rw [hfoc]; exact hx)).trans (ho x hx)
  have hrun : (u.retire fun k => k.setReg d v).cur.state = .run := by
    have := congrArg Task.state w9
    refine Eq.trans this ?_
    rw [Task.unexempt_state, hcur]; exact h.run
  have hg : (u.retire fun k => k.setReg d v).cur.guards = s.cur.guards := by
    have := congrArg Task.guards w9
    refine Eq.trans this ?_
    rw [Task.unexempt_guards, hcur]
  have hret : (u.retire fun k => k.setReg d v).here.retired = s.here.retired + 1 := by
    refine Eq.trans w4 ?_
    have : u.here.retired = s.here.retired := by unfold State.here; rw [hfoc]; exact hn
    rw [this]
  have hpairs : (u.retire fun k => k.setReg d v).here.pairs = u.here.pairs := by
    unfold TileAside at w3
    have := congrArg Tile.pairs w3
    exact this
  have hfoc2 : (u.retire fun k => k.setReg d v).focus = s.focus := by rw [← hfoc]; rfl
  -- the state before its completion token is due
  by_cases hy : y.push = true
  · rw [if_pos hy] at hq
    rw [hq]
    simp only
    have k := Within.modPair (u.retire fun k => k.setReg d v) s.focus.tile s.cur.ctx.toNat maj y.fifo.toNat
      fun p => { p with order := p.order.map fun e => if e.1 = s.serial then (s.serial, true) else e }
    have hk : ((u.retire fun k => k.setReg d v).tokenDue s.focus.tile s.cur.ctx.toNat maj y.fifo.toNat s.serial).cur = (u.retire fun k => k.setReg d v).cur :=
      k.1.cur hrun
    refine ⟨fun sp => (k.2.1 sp).trans ((hsb sp).trans (hb sp)), fun x hx => (k.2.2.1 x hx).trans (htile x hx), ?_, ?_, ?_, ?_, ?_, ?_, ?_⟩
    · unfold State.reg; rw [hk]; exact w6
    · intro r hr; unfold State.reg; rw [hk]; exact (w7 r hr).trans (hreg r)
    · rw [hk]; exact hg
    · rw [hk]; exact w8.trans (by rw [hcur])
    · rw [hk]; exact hrun
    · have e : ((u.retire fun k => k.setReg d v).tokenDue s.focus.tile s.cur.ctx.toNat maj y.fifo.toNat s.serial).focus.tile = s.focus.tile := by
        exact (congrArg Focus.tile k.1.1).trans (congrArg Focus.tile hfoc2)
      unfold State.here; rw [e]
      refine k.2.2.2.trans ?_
      have := hret
      unfold State.here at this; rw [hfoc2] at this; exact this
    · intro p hp1 hp0 hp2
      have hp3 := hp hp1 hp0
      have e : ((u.retire fun k => k.setReg d v).tokenDue s.focus.tile s.cur.ctx.toNat maj y.fifo.toNat s.serial).here
          = (u.retire fun k => k.setReg d v).here.modPair s.cur.ctx.toNat maj y.fifo.toNat
            fun p => { p with order := p.order.map fun e => if e.1 = s.serial then (s.serial, true) else e } := by
        unfold State.tokenDue
        unfold State.here
        rw [State.modTile_focus, hfoc2, State.tile_modTile_self]
      rw [e, Tile.pair_modPair_paid _ _ _ _ _ (by rw [Tile.pair_of_pairs hpairs, hp3]; exact hp0), Tile.pair_of_pairs hpairs, hp3]
      have hlt : (s.here.pair s.cur.ctx.toNat maj y.fifo.toNat).toTask - bit y.pop < pairDepth := hp2
      simp only [hy, if_true, List.map_cons, List.map_nil, flushTokens, hlt]
      rfl
  · rw [if_neg hy] at hq
    rw [hq]
    simp only
    refine ⟨fun sp => (hsb sp).trans (hb sp), htile, w6, fun r hr => (w7 r hr).trans (hreg r), hg, w8.trans (by rw [hcur]), hrun, hret, ?_⟩
    intro p hp1 hp0 hp2
    rw [Tile.pair_of_pairs hpairs, hp hp1 hp0]
    simp only [bit, hy]
    rfl

/-- A WORD THAT IS TAKEN leaves RUN for WAIT, R266. -/
theorem State.taken_waitWith (s u : State) (k : Taken) (w : Waiting) (h : s.Issues) (hu : Within s.focus.tile s u) :
    TakenAs s (u.waitWith k w) w k := by
  obtain ⟨hc, hb, ho, hn⟩ := hu
  have hcur : u.cur = s.cur := hc.cur h.run
  have hfoc : u.focus = s.focus := hc.1
  have hft : u.focus.task < 32 := by rw [hfoc]; exact h.task
  let v := u.modCur fun t => { t with taken := some k }
  have hv : v.cur = { u.cur with taken := some k } := State.cur_modCur u _ hft
  have hvr : v.cur.state = .run := by rw [hv]; exact (congrArg Task.state hcur).trans h.run
  have hw := State.waits_block v w hft hvr
  obtain ⟨w1, w2, w3, w4⟩ := hw
  have hvt : ∀ x, x ≠ s.focus.tile → v.tile x = s.tile x := fun x hx =>
    (State.tile_modHere_of_ne u _ (by rw [hfoc]; exact hx)).trans (ho x hx)
  have hvs : SameBytes u v := State.sameBytes_modTile u _ _ (Tile.Still.setTask _ _ _)
  have hvh : u.here.Still v.here := by
    have : v.here = u.here.modTask u.focus.task fun t => { t with taken := some k } := State.here_modHere u _
    rw [this]; exact Tile.Still.setTask _ _ _
  have hbl : SameBytes v (v.block w) := by
    refine State.sameBytes_modTile v _ _ ?_
    exact (Tile.Still.setTask _ _ _).trans ((Tile.Still.enter _ _ _ _).trans ⟨rfl, rfl, rfl, rfl⟩)
  have ht : (u.waitWith k w).cur = { v.cur.unexempt with state := .wait, waiting := w, taken := v.cur.taken, leftSeq := v.here.seq } := w4
  refine ⟨fun sp => (hbl sp).trans ((hvs sp).trans (hb sp)), fun x hx => (w2.1 x (by show x ≠ u.focus.tile; rw [hfoc]; exact hx)).trans (hvt x hx), ?_, ?_, ?_, ?_, ?_, ?_, ?_⟩
  · rw [ht]
  · rw [ht]
  · rw [ht, hv]
  · rw [ht]; refine Eq.trans (b := v.cur.unexempt.pc) rfl ?_; rw [Task.unexempt_pc, hv, hcur]
  · rw [ht]; refine Eq.trans (b := v.cur.unexempt.regs) rfl ?_; rw [Task.unexempt_regs, hv, hcur]
  · rw [ht]; refine Eq.trans (b := v.cur.unexempt.guards) rfl ?_; rw [Task.unexempt_guards, hv, hcur]
  · have a := congrArg Tile.retired w3
    have b : u.here.retired = s.here.retired := by unfold State.here; rw [hfoc]; exact hn
    exact Eq.trans a (hvh.2.2.2.trans b)

/-- A SYNCED WORD THAT IS TAKEN, R266 and R346. -/
theorem State.taken_takeSynced (s : State) (maj : Nat) (y : Sync) (k : Taken) (w : Waiting) (h : s.Issues) :
    ∃ k', SyncKept k maj y k' ∧ TakenAs s (s.takeSynced maj y k w) w k' := by
  have hi : s.cur.state = .run := h.run
  have hp : Within s.focus.tile s (s.publish s.curAgent) := Within.publish _ _ _
  have hs := State.within_issueSync (s.publish s.curAgent) maj y
  have hq : ((s.publish s.curAgent).issueSync maj y).1.isSome = y.push := by
    unfold State.issueSync
    simp only
    split <;> simp_all
  refine ⟨_, ⟨_, ((s.publish s.curAgent).issueSync maj y).2.serial, rfl, hq⟩, ?_⟩
  exact State.taken_waitWith s _ _ w h ((hp.trans hs).trans (Within.tick _ _))
theorem State.taken_takePlain (s : State) (k : Taken) (h : s.Issues) : TakenAs s (s.takePlain k) .engine k :=
  State.taken_waitWith s _ k .engine h (Within.publish _ _ _)

/-- A WORD ENDS: register `d` holds its result, pc is past it and its task is READY. -/
theorem State.ended_endWord (s : State) (t n : Nat) (v : Word) (k : Taken) (hn : n < 32) (hk : s.takenBy t n = some k)
    (hw : ((s.tile t).task n).state = .wait) : Ended s (s.endWord t n v) t n k.dest v := by
  have hdue : ∀ (u : State), (Ended s u t n k.dest v ∧ ((u.tile t).task n).state = .ready) →
      Ended s (match k.pair, k.seq with
        | some p, some q => u.tokenDue t k.ctx p.1 p.2 q
        | _, _ => u) t n k.dest v := fun u h => by
    have hd : ∀ (p : Nat × Nat) (q : Nat), (((u.tokenDue t k.ctx p.1 p.2 q).tile t).task n) = (u.tile t).task n := fun p q => by
      unfold State.tokenDue
      rw [State.tile_modTile_self]
      exact Tile.task_modPair_awake _ _ _ _ _ _ (by rw [h.2]; decide)
    split
    · rename_i p q _ _
      unfold Ended at *
      rw [hd p q]
      exact h.1
    · exact h.1
  let x : Task := (({ (s.tile t).task n with taken := none } : Task).result k.dest v).next
  let T0 : Tile := (s.tile t).modTask n fun x => (({ x with taken := none } : Task).result k.dest v).next
  let T : Tile := { T0 with retired := T0.retired + 1 }
  have hT : T.task n = x := Eq.trans (b := ((s.tile t).setTask n x).task n) rfl (Tile.task_setTask_self _ _ hn)
  have hxs : x.state = .wait := (Task.result_state _ _ _).trans hw
  unfold State.endWord
  rw [hk]
  simp only [if_pos hn]
  refine hdue _ ?_
  rw [State.modTile]
  have he : ((s.setTile t (T.wake n)).tile t).task n = x.entered T.seq .ready .nothing := by
    rw [State.tile_setTile_self]
    unfold Tile.wake
    rw [if_pos (by rw [hT]; exact hxs), Tile.task_enter_self _ _ _ hn, hT]
  have key : Ended s (s.setTile t (T.wake n)) t n k.dest v ∧ (((s.setTile t (T.wake n)).tile t).task n).state = .ready := by
    refine ⟨⟨?_, ?_, ?_, ?_, ?_, ?_⟩, by rw [he]; rfl⟩
    · rw [he]
      refine Eq.trans (b := (({ (s.tile t).task n with taken := none } : Task).result k.dest v).reg k.dest) rfl ?_
      rw [Task.reg_result_self]
    · intro r hr
      rw [he]
      refine Eq.trans (b := (({ (s.tile t).task n with taken := none } : Task).result k.dest v).reg r) rfl ?_
      rw [Task.reg_result_of_ne _ _ hr]; rfl
    · rw [he]; exact Task.result_guards _ _ _
    · rw [he]
      refine Eq.trans (b := (({ (s.tile t).task n with taken := none } : Task).result k.dest v).pc + 4) rfl ?_
      rw [Task.result_pc]
    · rw [he]; exact Task.result_taken _ _ _
    · rw [he]; rfl
  exact key

end Sys2Proof.Machine
end

