-- ==== Sys2Proof/Laws/Firing.lean ====
section
/-! SUPPORT. What a firing of the focused slot can do: where its firings come from, what the delivery of a token changes, and the
one lemma each for a firing that emits and one that does not. -/

namespace Sys2Proof.Machine

theorem mem_insertKey {α : Type} (k : Nat) (v : α) (l : List (Nat × α)) (p : Nat × α) :
    p ∈ insertKey k v l ↔ p = (k, v) ∨ p ∈ l := by
  induction l with
  | nil => simp [insertKey]
  | cons q r ih =>
    obtain ⟨j, u⟩ := q
    by_cases h : k < j
    · simp [insertKey, h]
    · simp [insertKey, h, ih, or_left_comm]

theorem mem_foldl_insertKey {α : Type} (fs l : List (Nat × α)) (p : Nat × α) :
    p ∈ fs.foldl (fun l f => insertKey f.1 f.2 l) l ↔ p ∈ fs ∨ p ∈ l := by
  induction fs generalizing l with
  | nil => simp
  | cons f r ih => simp [ih, mem_insertKey, or_assoc, or_left_comm]

/-- A firing of a slot is a firing of that slot, with its word. -/
theorem candidates_of {s : State} {g c n : Nat} {w : OpWord} {op : Nat} {f : Nat × Firing} (h : f ∈ s.candidates g c n w op) :
    f.2.g = g ∧ f.2.c = c ∧ f.2.n = n ∧ f.2.w = w := by
  unfold State.candidates at h
  simp only at h
  split at h
  · simp at h
  · have : f ∈ ((s.ectx g c).sets n op (wordRoles w op n)).map
        fun ps => (orderKey (s.detAt (gidTile g) c) (s.ectx g c) ps, (s.ectx g c).firing g c n w ps) := by
      split at h
      · exact h
      · simpa [mem_foldl_insertKey] using h
    obtain ⟨ps, -, rfl⟩ := List.mem_map.1 this
    simp [ElemCtx.firing]

namespace State.Fires

variable {s u : State} {w : OpWord} {op : Nat} {F : Firing}

theorem isOf (h : s.Fires w op F u) : F.g = s.focus.gid ∧ F.c = s.focus.ctx ∧ F.n = s.focus.slot ∧ F.w = w := by
  obtain ⟨k, l, h⟩ := h.first
  exact candidates_of (f := (k, F)) (by rw [h]; simp)

/-- The slot attempts `F` first, and the operation decides. -/
theorem attempt (h : s.Fires w op F u) (k : State → Firing → Option Deed) :
    s.attempt F k = match k u F with
      | none => none
      | some ⟨v, none⟩ => some (v.reachExit F)
      | some ⟨v, some (t, m)⟩ => if v.room F.g F.c F.n F.w.dst m t then some ((v.deliver F.g F.c F.n F.w.dst m t).reachExit F) else none := by
  obtain ⟨r, v, hr, hv, rfl⟩ := h.open'
  have hb : ¬ (((s.ectx F.g F.c).slot F.n).bkpt = true ∧ (s.ectx F.g F.c).pastBkpt ≠ some F.n) := fun hb => hb.2 (h.bkpt hb.1)
  rw [State.attempt]
  simp only [if_neg hb]
  cases hl : s.launchAt (gidTile F.g) F.c with
  | none =>
    simp only [State.ringTest, hl, Prod.mk.injEq, true_and] at hr
    subst hr
    simp only [hv] <;> rfl
  | some l =>
    simp only [State.ringTest, hl] at hr
    simp only [hr, hv] <;> rfl

theorem fireBy (h : s.Fires w op F u) {k : State → Firing → Option Deed} {z : State} (hz : s.attempt F k = some z) :
    s.fireBy w op k = some z := by
  obtain ⟨i, l, hc⟩ := h.first
  simp [State.fireBy, hc, hz]

end State.Fires

/-! ## Delivery -/

@[simp] theorem ectx_modElem (s : State) (g h c : Nat) (f : Elem → Elem) : (s.modElem g f).ectx h c = s.ectx h c := rfl
@[simp] theorem elem_modEctx (s : State) (g h c : Nat) (f : ElemCtx → ElemCtx) : (s.modEctx g c f).elem h = s.elem h := rfl

/-- One edge of an element changes, and nothing else. -/
theorem edge_modEdge (s : State) (g c col p d col' q : Nat) (f : Lane → Lane) (hc : col < 32) (hp : p < 4) (hc' : col' < 32) (hq : q < 4) :
    (s.modEdge g c col p f).edge g d col' q = if d = c ∧ col' = col ∧ q = p then f (s.edge g d col' q) else s.edge g d col' q := by
  by_cases h : State.edgeKey d col' q = State.edgeKey c col p
  · have : d = c ∧ col' = col ∧ q = p := by simp only [State.edgeKey] at h; omega
    obtain ⟨rfl, rfl, rfl⟩ := this
    simp [State.edge, State.modEdge]
  · rw [if_neg (fun ⟨a, b, e⟩ => h (by rw [a, b, e]))]
    simp only [State.edge, State.modEdge, State.elem_modElem_self]
    rw [SMap.getD_set_of_ne _ _ _ h]

/-- Only the element's edges differ. -/
def OnlyEdges (g : Nat) (s t : State) : Prop :=
  ({ t with elems := s.elems } : State) = s ∧ (∀ h, h ≠ g → t.elem h = s.elem h) ∧ ({ t.elem g with edges := (s.elem g).edges } : Elem) = s.elem g

theorem OnlyEdges.refl (g : Nat) (s : State) : OnlyEdges g s s := ⟨rfl, fun _ _ => rfl, rfl⟩

theorem OnlyEdges.trans {g : Nat} {a b c : State} (h : OnlyEdges g a b) (k : OnlyEdges g b c) : OnlyEdges g a c := by
  refine ⟨?_, fun x hx => (k.2.1 x hx).trans (h.2.1 x hx), ?_⟩
  · have := k.1; rw [← h.1, ← this]
  · have := k.2.2; rw [← h.2.2, ← this]

theorem OnlyEdges.modEdge (s : State) (g c col p : Nat) (f : Lane → Lane) : OnlyEdges g s (s.modEdge g c col p f) :=
  ⟨rfl, fun _ hx => State.elem_modElem_of_ne _ _ hx, by simp only [State.modEdge, State.elem_modElem_self]⟩

theorem edges_foldl (g c col : Nat) (bs : List Beat) (hc : col < 32) (ps : List Nat) (hn : ps.Nodup) (hp : ∀ p ∈ ps, p < 4) (s : State) :
    let t := ps.foldl (fun s p => s.modEdge g c col p fun l => { l with beats := l.beats ++ bs }) s
    OnlyEdges g s t ∧ ∀ d col' q, col' < 32 → q < 4 → t.edge g d col' q
      = if d = c ∧ col' = col ∧ q ∈ ps then { s.edge g d col' q with beats := (s.edge g d col' q).beats ++ bs } else s.edge g d col' q := by
  induction ps generalizing s with
  | nil => exact ⟨OnlyEdges.refl g s, by simp⟩
  | cons p r ih =>
    have hp0 : p < 4 := hp p (by simp)
    obtain ⟨hr1, hr2⟩ := List.nodup_cons.1 hn
    obtain ⟨h1, h2⟩ := ih hr2 (fun q hq => hp q (by simp [hq])) (s.modEdge g c col p fun l => { l with beats := l.beats ++ bs })
    refine ⟨(OnlyEdges.modEdge ..).trans h1, fun d col' q hcol hq => ?_⟩
    rw [List.foldl_cons, h2 d col' q hcol hq, edge_modEdge s g c col p d col' q _ hc hp0 hcol hq]
    by_cases hd : d = c ∧ col' = col
    · obtain ⟨rfl, rfl⟩ := hd
      by_cases hqp : q = p
      · subst hqp; simp [hr1]
      · simp [hqp]
    · simp only [← and_assoc, hd, false_and, if_false]

theorem maskPorts_spec (m : BitVec 4) : (maskPorts m).Nodup ∧ ∀ p ∈ maskPorts m, p < 4 := by
  refine ⟨List.Nodup.filter _ List.nodup_range, fun p hp => ?_⟩
  exact List.mem_range.1 (List.mem_filter.1 hp).1

theorem reachExit_frame (s : State) (F : Firing) : ({ s.reachExit F with insts := s.insts } : State) = s := rfl

/-- What `deliver` does, R44 and R173. -/
theorem emits_deliver {u z : State} {F : Firing} {m : BitVec 4} {t : Token} (hc : F.c < 4)
    (hz : z = (u.deliver F.g F.c F.n F.w.dst m t).reachExit F) : Emits u z F m t := by
  subst hz
  by_cases hd : F.w.dst = 0
  · refine ⟨⟨by simp [State.reachExit, State.deliver, hd, State.modElem, State.modEctx], by simp [State.reachExit, State.deliver, hd, State.modElem, State.modEctx],
      fun h hh => ?_, fun h c hc' hne => ?_⟩, fun h => absurd hd h, fun _ => ⟨?_, ?_⟩⟩
    · show (State.deliver ..).elem h = _
      rw [State.deliver, if_pos hd, State.elem_modElem_of_ne _ _ hh]; rfl
    · show (State.deliver ..).ectx h c = _
      rw [State.deliver, if_pos hd, ectx_modElem, State.ectx_modEctx_of_ne]
      intro he; exact hne (by simp only [Prod.mk.injEq]; omega)
    · show (State.deliver ..).ectx F.g F.c = _
      rw [State.deliver, if_pos hd, ectx_modElem, State.ectx_modEctx_self]
    · show ({ (State.deliver ..).elem F.g with seq := _ } : Elem) = _
      rw [State.deliver, if_pos hd, State.elem_modElem_self]; rfl
  · obtain ⟨ho, he⟩ := edges_foldl F.g F.c t.tag.col.toNat t.toBeats t.tag.col.isLt ((u.elem F.g).resultPorts F.c t.tag.col.toNat m)
      (maskPorts_spec _).1 (maskPorts_spec _).2 u
    have hdel : u.deliver F.g F.c F.n F.w.dst m t = ((u.elem F.g).resultPorts F.c t.tag.col.toNat m).foldl
        (fun s p => s.modEdge F.g F.c t.tag.col.toNat p fun l => { l with beats := l.beats ++ t.toBeats }) u := by
      rw [State.deliver, if_neg hd]
    rw [hdel]
    generalize ((u.elem F.g).resultPorts F.c t.tag.col.toNat m).foldl
        (fun s p => s.modEdge F.g F.c t.tag.col.toNat p fun l => { l with beats := l.beats ++ t.toBeats }) u = v at ho he
    have hx : v.ectxs = u.ectxs := by have := congrArg State.ectxs ho.1; simpa using this
    have hi : v.insts = u.insts := by have := congrArg State.insts ho.1; simpa using this
    have hex : ∀ h c, v.ectx h c = u.ectx h c := fun h c => by simp [State.ectx, hx]
    refine ⟨⟨?_, ?_, ho.2.1, fun h c _ _ => hex h c⟩, fun _ => ⟨fun d col q _ h1 h2 => he d col q h1 h2, ho.2.2, hex _ _⟩, fun h => absurd h hd⟩
    · conv_rhs => rw [← ho.1]
      simp only [State.reachExit, hx, hi]
    · simp only [State.reachExit, hi]

/-- A firing that emits: the one lemma for every operation word with a result. -/
theorem State.Fires.emits {s u v : State} {w : OpWord} {op : Nat} {F : Firing} {k : State → Firing → Option Deed} {t : Token} {m : BitVec 4}
    (h : s.Fires w op F u) (hk : k u F = some ⟨v, some (t, m)⟩) (hr : v.room F.g F.c F.n F.w.dst m t = true) (hv : v.absent = none) :
    ∃ z, s.after (s.fireBy w op k) = .next z ∧ Emits v z F m t := by
  refine ⟨(v.deliver F.g F.c F.n F.w.dst m t).reachExit F, ?_, emits_deliver (by rw [h.isOf.2.1]; exact h.ctx) rfl⟩
  have ha : s.attempt F k = some ((v.deliver F.g F.c F.n F.w.dst m t).reachExit F) := by simp [h.attempt, hk, hr]
  have hz := (emits_deliver (u := v) (F := F) (m := m) (t := t) (by rw [h.isOf.2.1]; exact h.ctx) rfl).1.1
  have : ((v.deliver F.g F.c F.n F.w.dst m t).reachExit F).absent = none := by
    have := congrArg State.absent hz; simpa [hv] using this
  simp [State.after, h.fireBy ha, settle, this]

/-- A firing that emits nothing. -/
theorem State.Fires.quiet {s u v : State} {w : OpWord} {op : Nat} {F : Firing} {k : State → Firing → Option Deed}
    (h : s.Fires w op F u) (hk : k u F = some ⟨v, none⟩) (hv : v.absent = none) :
    s.after (s.fireBy w op k) = .next (v.reachExit F) := by
  have ha : s.attempt F k = some (v.reachExit F) := by simp [h.attempt, hk]
  have : (v.reachExit F).absent = none := by simp [State.reachExit, hv]
  simp [State.after, h.fireBy ha, settle, this]

/-- An operation that follows R105, on plain operands. -/
theorem regular_plain {k : State → Firing → Option Deed} {u v : State} {F : Firing} {t : Token} {m : BitVec 4} (hF : F.Plain)
    (hk : k u F = some ⟨v, some (t, m)⟩) : regular k u F = some ⟨v, some (F.marked t, m)⟩ := by
  simp [regular, hF.error, hF.null, hF.pm, hk, Firing.marked, resultPrd]

theorem regular_plain_none {k : State → Firing → Option Deed} {u v : State} {F : Firing} (hF : F.Plain) (hk : k u F = some ⟨v, none⟩) :
    regular k u F = some ⟨v, none⟩ := by
  simp [regular, hF.error, hF.null, hF.pm, hk]

end Sys2Proof.Machine
end

