-- ==== Sys2Proof/Laws/Frames.lean ====
section
/-! SUPPORT. What the memory system leaves alone: an operation on memories changes bytes, their marks and codes, the stores in flight, the
owners of lines, translations, counts of corrected errors and whoever waits on a word of memory, and nothing else; and it keeps every memory
in its canonical form. -/

namespace Sys2Proof.Machine

/-- Of a tile nothing has changed but its stores, its staging entries and the tasks that wait on memory or in IDLE. -/
structure Tile.Kept (T U : Tile) : Prop where
  rest : ({ U with tasks := T.tasks, ctxs := T.ctxs, istore := T.istore, dstore := T.dstore, overlay := T.overlay, retired := T.retired, seq := T.seq } : Tile) = T
  task : ∀ n, ¬ ((T.task n).state = .wait ∧ ((T.task n).waiting = .monitor ∨ (T.task n).waiting = .idle)) → U.task n = T.task n
  ctx  : ∀ c, ({ U.ctx c with staging := (T.ctx c).staging } : CtxRegs) = T.ctx c

/-- Nothing has changed but what the memory system holds and whoever waits on it. -/
structure MemoryOnly (s u : State) : Prop where
  rest : ({ u with tiles := s.tiles, elems := s.elems, hbm := s.hbm, far := s.far, host := s.host, peers := s.peers, inflight := s.inflight,
                   monitors := s.monitors, units := s.units, mgmt := s.mgmt } : State) = s
  tile : ∀ t, (s.tile t).Kept (u.tile t)
  elem : ∀ g, ({ u.elem g with store := (s.elem g).store, owner := (s.elem g).owner } : Elem) = s.elem g
  mgmt : ∀ d, ({ u.mgmtOf d with ce := (s.mgmtOf d).ce } : Mgmt) = s.mgmtOf d
  wf   : ∀ sp, (s.store sp).bytes.wf = true → (u.store sp).bytes.wf = true

theorem Tile.Kept.refl (T : Tile) : T.Kept T := ⟨rfl, fun _ _ => rfl, fun _ => rfl⟩
theorem Tile.Kept.trans {T U V : Tile} (h : T.Kept U) (k : U.Kept V) : T.Kept V := by
  refine ⟨?_, fun n hn => ?_, fun c => ?_⟩
  · have := h.rest
    rw [← k.rest] at this
    exact this
  · have e := h.task n hn
    rw [k.task n (by rw [e]; exact hn), e]
  · have := h.ctx c
    rw [← k.ctx c] at this
    exact this
theorem Tile.Kept.foldl {α : Type} (f : Tile → α → Tile) (hf : ∀ (T : Tile) (x : α), T.Kept (f T x)) (l : List α) (T : Tile) : T.Kept (l.foldl f T) := by
  induction l generalizing T with
  | nil => exact Tile.Kept.refl T
  | cons x r ih => exact (hf T x).trans (ih _)

theorem MemoryOnly.refl (s : State) : MemoryOnly s s := ⟨rfl, fun _ => Tile.Kept.refl _, fun _ => rfl, fun _ => rfl, fun _ h => h⟩
theorem MemoryOnly.trans {s u v : State} (h : MemoryOnly s u) (k : MemoryOnly u v) : MemoryOnly s v := by
  refine ⟨?_, fun t => (h.tile t).trans (k.tile t), fun g => ?_, fun d => ?_, fun sp w => k.wf sp (h.wf sp w)⟩
  · have := h.rest
    rw [← k.rest] at this
    exact this
  · have := h.elem g
    rw [← k.elem g] at this
    exact this
  · have := h.mgmt d
    rw [← k.mgmt d] at this
    exact this
theorem MemoryOnly.foldl {α : Type} (f : State → α → State) (hf : ∀ s x, MemoryOnly s (f s x)) (l : List α) (s : State) :
    MemoryOnly s (l.foldl f s) := by
  induction l generalizing s with
  | nil => exact MemoryOnly.refl s
  | cons x r ih => exact (hf s x).trans (ih _)
/-- A part of the state that the memory system does not hold is as before. -/
theorem MemoryOnly.same {s u : State} (h : MemoryOnly s u) {α : Type} (f : State → α)
    (hf : ∀ (v : State) a b c d e g i j k l, f { v with tiles := a, elems := b, hbm := c, far := d, host := e, peers := g, inflight := i, monitors := j, units := k, mgmt := l } = f v) :
    f u = f s := by
  have e := congrArg f h.rest
  rw [hf] at e
  exact e

/-- An operation of the memory system keeps the canonical form. -/
theorem MemoryOnly.canonical {s u : State} (h : MemoryOnly s u) (c : Canonical s) : Canonical u := by
  exact fun sp => h.wf sp (c sp)

/-! ## Which store an update changes -/

@[simp] theorem State.store_setStore_self (s : State) (sp : Space) (x : Store) : (s.setStore sp x).store sp = x := by
  cases sp <;> simp [State.store, State.setStore]
theorem State.store_setStore_of_ne (s : State) {sp q : Space} (x : Store) (h : q ≠ sp) : (s.setStore sp x).store q = s.store q := by
  cases sp <;> cases q <;> first | exact absurd rfl h | rfl | skip
  case peer.peer m n =>
    have : n ≠ m := fun e => h (by rw [e])
    simp [State.store, State.setStore, SMap.getD_set_of_ne _ _ _ this]
  case localMem.localMem m n =>
    have : n ≠ m := fun e => h (by rw [e])
    simp [State.store, State.setStore, State.elem_modElem_of_ne _ _ this]
  all_goals
    rename_i m n
    by_cases e : n = m
    · subst e
      first | exact absurd rfl h | simp [State.store, State.setStore]
    · simp [State.store, State.setStore, State.tile_modTile_of_ne _ _ e]
theorem State.store_modStore_self (s : State) (sp : Space) (f : Store → Store) : (s.modStore sp f).store sp = f (s.store sp) := State.store_setStore_self _ _ _
theorem State.store_modStore_of_ne (s : State) {sp q : Space} (f : Store → Store) (h : q ≠ sp) : (s.modStore sp f).store q = s.store q :=
  State.store_setStore_of_ne _ _ h
/-- An update of a tile that leaves its stores alone. -/
theorem State.store_modTile (s : State) (t : Nat) (f : Tile → Tile) (h : (f (s.tile t)).istore = (s.tile t).istore ∧ (f (s.tile t)).dstore = (s.tile t).dstore
    ∧ (f (s.tile t)).overlay = (s.tile t).overlay) (sp : Space) : (s.modTile t f).store sp = s.store sp := by
  have key : ∀ u, ((s.modTile t f).tile u).istore = (s.tile u).istore ∧ ((s.modTile t f).tile u).dstore = (s.tile u).dstore
      ∧ ((s.modTile t f).tile u).overlay = (s.tile u).overlay := fun u => by
    by_cases e : u = t
    · subst e; rw [State.tile_modTile_self]; exact h
    · rw [State.tile_modTile_of_ne _ _ e]; exact ⟨rfl, rfl, rfl⟩
  cases sp with
  | overlay u => exact (key u).2.2
  | dataStore u => exact (key u).2.1
  | instrStore u => exact (key u).1
  | _ => rfl
/-- An update of an element that leaves its store alone. -/
theorem State.store_modElem (s : State) (g : Nat) (f : Elem → Elem) (h : (f (s.elem g)).store = (s.elem g).store) (sp : Space) :
    (s.modElem g f).store sp = s.store sp := by
  cases sp with
  | localMem k =>
    show ((s.modElem g f).elem k).store = (s.elem k).store
    by_cases e : k = g
    · subst e; rw [State.elem_modElem_self]; exact h
    · rw [State.elem_modElem_of_ne _ _ e]
  | _ => rfl

/-! ## The updates that memory operations are made of -/

theorem MemoryOnly.modTile (s : State) (t : Nat) (f : Tile → Tile) (hf : (s.tile t).Kept (f (s.tile t)))
    (hs : (f (s.tile t)).istore = (s.tile t).istore ∧ (f (s.tile t)).dstore = (s.tile t).dstore ∧ (f (s.tile t)).overlay = (s.tile t).overlay) :
    MemoryOnly s (s.modTile t f) := by
  refine ⟨rfl, fun u => ?_, fun _ => rfl, fun _ => rfl, fun sp w => ?_⟩
  · by_cases e : u = t
    · subst e; rw [State.tile_modTile_self]; exact hf
    · rw [State.tile_modTile_of_ne _ _ e]; exact Tile.Kept.refl _
  · rw [State.store_modTile s t f hs sp]; exact w
theorem MemoryOnly.setStore (s : State) (sp : Space) (x : Store) (h : (s.store sp).bytes.wf = true → x.bytes.wf = true) : MemoryOnly s (s.setStore sp x) := by
  have hw : ∀ q, (s.store q).bytes.wf = true → ((s.setStore sp x).store q).bytes.wf = true := fun q w => by
    by_cases e : q = sp
    · subst e; rw [State.store_setStore_self]; exact h w
    · rw [State.store_setStore_of_ne s x e]; exact w
  have ht : ∀ (t : Nat) (f : Tile → Tile), (s.tile t).Kept (f (s.tile t)) → ∀ u, (s.tile u).Kept ((s.modTile t f).tile u) := fun t f hf u => by
    by_cases e : u = t
    · subst e; rw [State.tile_modTile_self]; exact hf
    · rw [State.tile_modTile_of_ne _ _ e]; exact Tile.Kept.refl _
  cases sp
  case localMem g =>
    refine ⟨rfl, fun _ => Tile.Kept.refl _, fun k => ?_, fun _ => rfl, hw⟩
    by_cases e : k = g
    · subst e
      simp [State.setStore]
    · simp [State.setStore, State.elem_modElem_of_ne _ _ e]
  case overlay t => exact ⟨rfl, ht t _ ⟨rfl, fun _ _ => rfl, fun _ => rfl⟩, fun _ => rfl, fun _ => rfl, hw⟩
  case dataStore t => exact ⟨rfl, ht t _ ⟨rfl, fun _ _ => rfl, fun _ => rfl⟩, fun _ => rfl, fun _ => rfl, hw⟩
  case instrStore t => exact ⟨rfl, ht t _ ⟨rfl, fun _ _ => rfl, fun _ => rfl⟩, fun _ => rfl, fun _ => rfl, hw⟩
  all_goals exact ⟨rfl, fun _ => Tile.Kept.refl _, fun _ => rfl, fun _ => rfl, hw⟩
theorem MemoryOnly.modStore (s : State) (sp : Space) (f : Store → Store) (h : ∀ x : Store, x.bytes.wf = true → (f x).bytes.wf = true) :
    MemoryOnly s (s.modStore sp f) := MemoryOnly.setStore s sp _ (h _)
/-- Marks and codes change without a byte. -/
theorem MemoryOnly.marks (s : State) (sp : Space) (f : Store → Store) (h : ∀ x : Store, (f x).bytes = x.bytes) : MemoryOnly s (s.modStore sp f) :=
  MemoryOnly.modStore s sp f fun x w => by rw [h]; exact w
theorem MemoryOnly.calm {s u : State} (h : MemoryOnly s u) : Calm s u :=
  ⟨h.same State.focus fun _ _ _ _ _ _ _ _ _ _ _ => rfl, h.same State.absent fun _ _ _ _ _ _ _ _ _ _ _ => rfl,
    fun t n hr => (h.tile t).task n fun w => by rw [hr] at w; exact absurd w.1 (by decide)⟩
theorem Store.wf_write (x : Store) (a n v : Nat) (h : x.bytes.wf = true) : (x.write a n v).bytes.wf = true := Memory.wf_writeN a n v h
theorem MemoryOnly.owner (s : State) (g : Nat) (f : List OwnerLine → List OwnerLine) :
    MemoryOnly s (s.modElem g fun e => { e with owner := f e.owner }) := by
  refine ⟨rfl, fun _ => Tile.Kept.refl _, fun k => ?_, fun _ => rfl, fun sp w => ?_⟩
  · by_cases e : k = g
    · subst e; simp
    · rw [State.elem_modElem_of_ne _ _ e]
  · rw [State.store_modElem s g _ rfl sp]; exact w
theorem MemoryOnly.modUnit (s : State) (d : Nat) (f : TransUnit → TransUnit) : MemoryOnly s (s.modUnit d f) :=
  ⟨rfl, fun _ => Tile.Kept.refl _, fun _ => rfl, fun _ => rfl, fun sp w => by cases sp <;> exact w⟩
theorem MemoryOnly.inflight (s : State) (l : List InFlight) : MemoryOnly s { s with inflight := l } :=
  ⟨rfl, fun _ => Tile.Kept.refl _, fun _ => rfl, fun _ => rfl, fun sp w => by cases sp <;> exact w⟩
theorem MemoryOnly.monitors (s : State) (l : List Monitor) : MemoryOnly s { s with monitors := l } :=
  ⟨rfl, fun _ => Tile.Kept.refl _, fun _ => rfl, fun _ => rfl, fun sp w => by cases sp <;> exact w⟩
@[simp] theorem State.mgmtOf_modMgmt_self (s : State) (d : Nat) (f : Mgmt → Mgmt) : (s.modMgmt d f).mgmtOf d = f (s.mgmtOf d) := by
  simp [State.mgmtOf, State.modMgmt]
theorem State.mgmtOf_modMgmt_of_ne (s : State) {d e : Nat} (f : Mgmt → Mgmt) (h : e ≠ d) : (s.modMgmt d f).mgmtOf e = s.mgmtOf e := by
  simp [State.mgmtOf, State.modMgmt, SMap.getD_set_of_ne _ _ _ h]
theorem MemoryOnly.corrected (s : State) (d : Nat) (f : BitVec 32 → BitVec 32) : MemoryOnly s (s.modMgmt d fun m => { m with ce := f m.ce }) := by
  refine ⟨rfl, fun _ => Tile.Kept.refl _, fun _ => rfl, fun e => ?_, fun sp w => by cases sp <;> exact w⟩
  by_cases h : e = d
  · subst h; simp
  · rw [State.mgmtOf_modMgmt_of_ne _ _ h]

/-! ## Tasks that memory wakes -/

theorem Tile.rest_wake (T : Tile) (n : Nat) : ({ T.wake n with tasks := T.tasks, seq := T.seq } : Tile) = T := by
  unfold Tile.wake
  split
  · unfold Tile.enter Tile.setTask
    simp only
    split <;> rfl
  · rfl
theorem Tile.kept_of_tasks {T U : Tile} (h : ({ U with tasks := T.tasks, retired := T.retired, seq := T.seq } : Tile) = T)
    (ht : ∀ n, ¬ ((T.task n).state = .wait ∧ ((T.task n).waiting = .monitor ∨ (T.task n).waiting = .idle)) → U.task n = T.task n) : T.Kept U := by
  refine ⟨?_, ht, fun c => ?_⟩
  · have e := h
    have a := congrArg Tile.ctxs h
    have b := congrArg Tile.istore h
    have c := congrArg Tile.dstore h
    have d := congrArg Tile.overlay h
    simp only at a b c d
    rw [← a, ← b, ← c, ← d]
    exact h
  · have a : U.ctxs = T.ctxs := by have := congrArg Tile.ctxs h; exact this
    simp only [Tile.ctx, a]
theorem Tile.Kept.wakeIdle (T : Tile) (n : Nat) (h : (T.task n).waiting = .monitor ∨ (T.task n).waiting = .idle) : T.Kept (T.wake n) := by
  refine Tile.kept_of_tasks ?_ fun m hm => ?_
  · have e := Tile.rest_wake T n
    have r : (T.wake n).retired = T.retired := by have := congrArg Tile.retired e; exact this
    rw [← r]
    exact e
  · by_cases e : m = n
    · subst e
      unfold Tile.wake
      rw [if_neg fun hw => hm ⟨hw, h⟩]
    · unfold Tile.wake
      split
      · exact Tile.task_enter_of_ne _ _ _ e
      · rfl
theorem Tile.Kept.idleEvent (T : Tile) : T.Kept T.idleEvent := by
  unfold Tile.idleEvent
  refine Tile.Kept.foldl _ (fun T n => ?_) _ T
  split
  · rename_i h
    exact Tile.Kept.wakeIdle T n (.inr h.2)
  · exact Tile.Kept.refl T
theorem MemoryOnly.release (s : State) (m : Monitor) : MemoryOnly s (s.release m) := by
  have key : ∀ T : Tile, (T.task m.tid).state = .wait ∧ (T.task m.tid).waiting = .monitor → ∀ k : Task, k.waiting = .monitor →
      T.Kept (({ T.setTask m.tid k with retired := T.retired + 1 } : Tile).wake m.tid).idleEvent := fun T h k hk => by
    refine Tile.Kept.trans (U := ({ T.setTask m.tid k with retired := T.retired + 1 } : Tile)) (Tile.kept_of_tasks ?_ fun n hn => ?_)
      (Tile.Kept.trans (Tile.Kept.wakeIdle _ m.tid ?_) (Tile.Kept.idleEvent _))
    · unfold Tile.setTask; split <;> rfl
    · have e : n ≠ m.tid := fun e => hn (by rw [e]; exact ⟨h.1, .inl h.2⟩)
      exact Eq.trans (b := (T.setTask m.tid k).task n) rfl (Tile.task_setTask_of_ne T k e)
    · refine .inl ?_
      by_cases hb : m.tid < 32
      · exact (congrArg Task.waiting (Eq.trans (b := (T.setTask m.tid k).task m.tid) rfl (Tile.task_setTask_self T k hb))).trans hk
      · exact absurd h.1 (by simp [Tile.task, hb])
  have still : ∀ (T : Tile) (k : Task), (({ T.setTask m.tid k with retired := T.retired + 1 } : Tile).wake m.tid).idleEvent.istore = T.istore
      ∧ (({ T.setTask m.tid k with retired := T.retired + 1 } : Tile).wake m.tid).idleEvent.dstore = T.dstore
      ∧ (({ T.setTask m.tid k with retired := T.retired + 1 } : Tile).wake m.tid).idleEvent.overlay = T.overlay := fun T k => by
    have a := (Tile.Still.wake { T.setTask m.tid k with retired := T.retired + 1 } m.tid).trans (Tile.Still.idleEvent _)
    have b := Tile.Still.setTask T m.tid k
    exact ⟨a.1.trans b.1, a.2.1.trans b.2.1, a.2.2.1.trans b.2.2.1⟩
  unfold State.release
  refine ⟨rfl, fun u => ?_, fun _ => rfl, fun _ => rfl, fun sp w => ?_⟩
  · by_cases e : u = m.tile
    · subst e
      rw [State.tile_modTile_self]
      simp only
      split
      · rename_i h
        refine key _ h _ ?_
        split
        · exact (Task.result_waiting _ _ _).trans h.2
        · exact h.2
      · exact Tile.Kept.refl _
    · rw [State.tile_modTile_of_ne _ _ e]; exact Tile.Kept.refl _
  · refine Eq.mp (congrArg (fun x : Store => x.bytes.wf = true) (State.store_modTile s _ _ ?_ sp).symm) w
    simp only
    split
    · exact still _ _
    · exact ⟨rfl, rfl, rfl⟩
theorem MemoryOnly.releaseWritten (s : State) (a n : Nat) : MemoryOnly s (s.releaseWritten a n) :=
  (MemoryOnly.monitors s _).trans (MemoryOnly.foldl _ (fun s m => MemoryOnly.release s m) _ _)
theorem mapEach_get {α : Type} {n : Nat} (f : α → α) (v : Vector α n) (i : Nat) (h : i < n) : (mapEach f v)[i] = f v[i] := by
  simp [mapEach, Vector.get]
theorem MemoryOnly.unstage (s : State) (t a n : Nat) : MemoryOnly s (s.unstage t a n) := by
  refine MemoryOnly.modTile s t _ ⟨rfl, fun _ _ => rfl, fun c => ?_⟩ ⟨rfl, rfl, rfl⟩
  unfold Tile.ctx
  split
  · simp only [mapEach_get]
  · rfl

/-! ## The operations -/

theorem MemoryOnly.perform (s : State) (sp : Space) (a n v : Nat) : MemoryOnly s (s.perform sp a n v) := by
  unfold State.perform
  split
  · exact MemoryOnly.refl s
  · simp only
    refine (MemoryOnly.modStore s sp _ fun x => Store.wf_write x a n v).trans ?_
    split
    · exact MemoryOnly.releaseWritten _ _ _
    · exact MemoryOnly.unstage _ _ _ _
    · exact MemoryOnly.refl _
theorem MemoryOnly.performFor (s : State) (c : Nat) (sp : Space) (a n v : Nat) : MemoryOnly s (s.performFor c sp a n v) := by
  unfold State.performFor
  refine (MemoryOnly.perform s sp a n v).trans ?_
  split
  · exact MemoryOnly.marks _ _ _ fun _ => rfl
  · exact MemoryOnly.marks _ _ _ fun _ => rfl
  · exact MemoryOnly.refl _
theorem MemoryOnly.recallLine (s : State) (line : Nat) : MemoryOnly s (s.recallLine line) := by
  unfold State.recallLine
  refine MemoryOnly.foldl _ (fun s e => ?_) _ _
  split
  · exact MemoryOnly.refl s
  · exact (MemoryOnly.perform _ _ _ _ _).trans (MemoryOnly.owner _ _ _)
theorem MemoryOnly.callBack (s : State) (own : Option Nat) (sp : Space) (a n : Nat) : MemoryOnly s (s.callBack own sp a n) := by
  unfold State.callBack
  split
  · refine MemoryOnly.foldl _ (fun s l => ?_) _ _
    have key : ∀ b : Bool, MemoryOnly s (if b then s else s.recallLine l) := fun b => by
      cases b
      · exact MemoryOnly.recallLine s l
      · exact MemoryOnly.refl s
    exact key _
  · exact MemoryOnly.refl s
theorem MemoryOnly.land (s : State) (f : InFlight) : MemoryOnly s (s.land f) := (MemoryOnly.callBack s none _ _ _).trans (MemoryOnly.perform _ _ _ _ _)
theorem MemoryOnly.landWhere (s : State) (want : InFlight → Bool) : MemoryOnly s (s.landWhere want) := by
  unfold State.landWhere
  simp only
  generalize State.landWhere.split _ _ = p
  exact (MemoryOnly.inflight s p.2).trans (MemoryOnly.foldl _ (fun s f => MemoryOnly.land s f) _ _)
theorem MemoryOnly.settleHome (s : State) (g : Nat) (sp : Space) (a n : Nat) : MemoryOnly s (s.settleHome g sp a n) := MemoryOnly.landWhere s _
theorem MemoryOnly.atHome (s : State) (g : Nat) (own : Option Nat) (sp : Space) (a n : Nat) : MemoryOnly s (s.atHome g own sp a n) :=
  (MemoryOnly.settleHome s g sp a n).trans (MemoryOnly.callBack _ _ _ _ _)
theorem MemoryOnly.fence (s : State) (g f : Nat) : MemoryOnly s (s.fence g f) := by
  unfold State.fence
  split
  · exact MemoryOnly.refl s
  · have key : ∀ u : State, MemoryOnly s u → MemoryOnly s (if f = 3 then u
        else u.elems.foldl (fun s e => (s.elem e.1).owner.foldl (fun s o => s.recallLine o.line) s) u) := fun u hu => by
      split
      · exact hu
      · exact hu.trans (MemoryOnly.foldl _ (fun s e => MemoryOnly.foldl _ (fun s o => MemoryOnly.recallLine s _) _ _) _ _)
    exact key _ (MemoryOnly.landWhere s _)
theorem MemoryOnly.publish (s : State) (g : Nat) : MemoryOnly s (s.publish g) := MemoryOnly.inflight s _
theorem MemoryOnly.accept (s : State) (g : Nat) (sp : Space) (a n v : Nat) (p : Bool) : MemoryOnly s (s.accept g sp a n v p) := MemoryOnly.inflight s _
theorem MemoryOnly.countFixed (s : State) (d n : Nat) : MemoryOnly s (s.countFixed d n) := by
  unfold State.countFixed
  split
  · exact MemoryOnly.refl s
  · exact MemoryOnly.corrected s d fun c => BitVec.ofNat 32 (Min.min (c.toNat + n) (2 ^ 32 - 1))
theorem MemoryOnly.correct (s : State) (d : Nat) (sp : Space) (a n : Nat) : MemoryOnly s (s.correct d sp a n) := by
  unfold State.correct
  simp only
  split
  · exact MemoryOnly.refl s
  · exact (MemoryOnly.marks s sp (fun x => { x with weakEcc := x.weakEcc.filter fun u => !((unitsOf 8 a n).filter fun u => (s.store sp).weakEcc.contains u).contains u }) fun _ => rfl).trans
      (MemoryOnly.countFixed _ _ _)
theorem MemoryOnly.markDirty (s : State) (d : Nat) (l : Leaf) : MemoryOnly s (s.markDirty d l) := by
  unfold State.markDirty
  split
  · exact MemoryOnly.refl s
  · exact (MemoryOnly.callBack s none .hbm l.src 8).trans ((MemoryOnly.perform _ _ _ _ _).trans (MemoryOnly.modUnit _ _ _))
theorem MemoryOnly.writePieces (s : State) (c v : Nat) (l : List (Space × Nat × Nat)) : MemoryOnly s (s.writePieces c v l) := by
  induction l generalizing s v with
  | nil => exact MemoryOnly.refl s
  | cons p r ih =>
    unfold State.writePieces
    exact (MemoryOnly.performFor _ _ _ _ _ _).trans (ih _ _)

/-! ## Translation: besides what the memory system holds, the note of an address that no memory has -/

theorem MemoryOnly.entryAt (s : State) (d c a : Nat) (hv : pteV (s.entryAt d c a).1 = true) : MemoryOnly s (s.entryAt d c a).2 := by
  unfold State.entryAt at *
  split
  · exact MemoryOnly.refl s
  · rename_i h1
    simp only [h1] at hv
    split
    · exact (MemoryOnly.callBack s none .hbm a 8).trans (MemoryOnly.correct _ _ _ _ _)
    · rename_i h2
      rw [if_neg h2, pteV_zero] at hv
      exact absurd hv (by decide)
theorem MemoryOnly.walkFrom (s : State) (d c va fuel level table : Nat) (l : Leaf) (u : State)
    (h : s.walkFrom d c va fuel level table = (some l, u)) : MemoryOnly s u := by
  induction fuel generalizing s level table with
  | zero =>
    unfold State.walkFrom at h
    exact absurd (congrArg Prod.fst h) (by simp)
  | succ n ih =>
    have key : ∀ (a : Nat) (p : BitVec 64 × State), p = s.entryAt d c a →
        (if !pteV p.1 then (none, p.2)
          else if pteLeaf p.1 then
            if level < 2 then (none, p.2)
            else if level = 2 then (if pteAddr p.1 % 2 ^ 25 ≠ 0 then (none, p.2) else (some ⟨p.1, true, a⟩, p.2))
            else (some ⟨p.1, false, a⟩, p.2)
          else if level = 3 then (none, p.2)
          else (p.2.keepPointer d c a p.1).walkFrom d c va n (level + 1) (pteAddr p.1)) = (some l, u) → MemoryOnly s u := by
      intro a p hp h
      by_cases hv : pteV p.1 = true
      · have hs : MemoryOnly s p.2 := by rw [hp]; exact MemoryOnly.entryAt _ _ _ _ (by rw [← hp]; exact hv)
        simp only [hv] at h
        split at h
        · simp at h
        · split at h
          · split at h
            · simp at h
            · split at h
              · split at h
                · simp at h
                · simp at h; rw [← h.2]; exact hs
              · simp at h; rw [← h.2]; exact hs
          · split at h
            · simp at h
            · exact hs.trans ((MemoryOnly.modUnit _ _ _).trans (ih _ _ _ h))
      · simp [hv] at h
    unfold State.walkFrom at h
    exact key _ _ rfl h
theorem MemoryOnly.translate (s : State) (d c va : Nat) (l : Leaf) (u : State) (h : s.translate d c va = (some l, u)) : MemoryOnly s u := by
  unfold State.translate at h
  split at h
  · simp at h
  · split at h
    · simp at h; rw [← h.2]; exact MemoryOnly.refl _
    · unfold State.walk at h
      dsimp only at h
      split at h
      · simp at h
      · generalize he : s.walkFrom d c va 4 0 ((s.rootOf c).root.toNat * 2 ^ 14) = w at h
        obtain ⟨o, w⟩ := w
        cases o with
        | none => simp at h
        | some l' =>
          simp at h
          rw [← h.2]
          exact (MemoryOnly.walkFrom _ _ _ _ _ _ _ _ _ he).trans (MemoryOnly.modUnit _ _ _)
/-- An access that translates and is allowed. -/
theorem MemoryOnly.probe (s : State) (d c va n : Nat) (need : Need) (p : Space × Nat) (u : State)
    (h : s.probe d c va n need = (.ok p, u)) : MemoryOnly s u := by
  unfold State.probe at h
  split at h
  · simp at h
  · rename_i l s' he
    have hs := MemoryOnly.translate _ _ _ _ _ _ he
    split at h
    · simp at h
    · simp only at h
      split at h
      · simp at h
      · split at h
        · simp at h
        · simp at h
          rw [← h.2]
          split
          · exact hs.trans (MemoryOnly.markDirty _ _ _)
          · exact hs
theorem MemoryOnly.probeAll (s : State) (d c : Nat) (need : Need) (l : List (Nat × Nat)) (ps : List (Space × Nat × Nat)) (u : State)
    (h : s.probeAll d c need l = (.ok ps, u)) : MemoryOnly s u := by
  induction l generalizing s ps with
  | nil => unfold State.probeAll at h; rw [← (Prod.mk.inj h).2]; exact MemoryOnly.refl s
  | cons x r ih =>
    unfold State.probeAll at h
    split at h
    · cases h
    · rename_i p v hp
      split at h
      · cases h
      · rename_i qs w hq
        cases h
        exact (MemoryOnly.probe _ _ _ _ _ _ _ _ hp).trans (ih _ _ hq)
theorem MemoryOnly.piecesHome (s : State) (g : Nat) (ps : List (Space × Nat × Nat)) : MemoryOnly s (s.piecesHome g ps) :=
  MemoryOnly.foldl _ (fun s _ => MemoryOnly.atHome s _ _ _ _ _) ps s

/-! ## The bytes that a write leaves -/

theorem State.store_release (s : State) (m : Monitor) (sp : Space) : (s.release m).store sp = s.store sp := by
  refine State.store_modTile s m.tile _ ?_ sp
  simp only
  split
  · have key : ∀ k : Task, (({ (s.tile m.tile).setTask m.tid k with retired := (s.tile m.tile).retired + 1 } : Tile).wake m.tid).idleEvent.istore = (s.tile m.tile).istore
        ∧ (({ (s.tile m.tile).setTask m.tid k with retired := (s.tile m.tile).retired + 1 } : Tile).wake m.tid).idleEvent.dstore = (s.tile m.tile).dstore
        ∧ (({ (s.tile m.tile).setTask m.tid k with retired := (s.tile m.tile).retired + 1 } : Tile).wake m.tid).idleEvent.overlay = (s.tile m.tile).overlay := fun k => by
      have a := (Tile.Still.wake { (s.tile m.tile).setTask m.tid k with retired := (s.tile m.tile).retired + 1 } m.tid).trans (Tile.Still.idleEvent _)
      have b := Tile.Still.setTask (s.tile m.tile) m.tid k
      exact ⟨a.1.trans b.1, a.2.1.trans b.2.1, a.2.2.1.trans b.2.2.1⟩
    exact key _
  · exact ⟨rfl, rfl, rfl⟩
theorem State.store_foldl {α : Type} (f : State → α → State) (sp : Space) (hf : ∀ s x, (f s x).store sp = s.store sp) (l : List α) (s : State) :
    (l.foldl f s).store sp = s.store sp := by
  induction l generalizing s with
  | nil => rfl
  | cons x r ih => exact (ih _).trans (hf s x)
theorem State.store_releaseWritten (s : State) (a n : Nat) (sp : Space) : (s.releaseWritten a n).store sp = s.store sp :=
  (State.store_foldl _ sp (fun s m => State.store_release s m sp) _ _).trans (by cases sp <;> rfl)
/-- A write at a home changes the bytes that it stores and no other, R222; a device-side write to the management aperture changes none, R401. -/
theorem State.store_perform (s : State) (sp q : Space) (a n v : Nat) :
    (s.perform sp a n v).store q = if q = sp ∧ ¬ (sp = .hbm ∧ inAperture a) then (s.store sp).write a n v else s.store q := by
  unfold State.perform
  split
  · rename_i h
    rw [if_neg fun x => x.2 h]
  · rename_i h
    simp only
    have key : ∀ u : State, u.store q = (s.modStore sp fun x => x.write a n v).store q →
        u.store q = if q = sp ∧ ¬ (sp = .hbm ∧ inAperture a) then (s.store sp).write a n v else s.store q := fun u hu => by
      rw [hu]
      by_cases e : q = sp
      · subst e; rw [State.store_modStore_self, if_pos ⟨rfl, h⟩]
      · rw [State.store_modStore_of_ne _ _ e, if_neg fun x => e x.1]
    split
    · exact key _ (State.store_releaseWritten _ _ _ _)
    · exact key _ (State.store_modTile _ _ _ ⟨rfl, rfl, rfl⟩ _)
    · exact key _ rfl
theorem State.wroteBytes_perform (s : State) (sp : Space) (a n v : Nat) (h : sp = .hbm → inAperture a = false) :
    WroteBytes s (s.perform sp a n v) sp a n v := by
  intro q b
  rw [State.store_perform]
  by_cases e : q = sp
  · subst e
    rw [if_pos ⟨rfl, fun x => by rw [h x.1] at x; exact absurd x.2 (by decide)⟩]
    show Memory.read (Memory.writeN _ a n v) b = _
    rw [Memory.read_writeN]
    simp
  · rw [if_neg fun x => e x.1, if_neg fun x => e x.1]
theorem State.bytes_performFor (s : State) (c : Nat) (sp q : Space) (a n v : Nat) :
    ((s.performFor c sp a n v).store q).bytes = ((s.perform sp a n v).store q).bytes := by
  unfold State.performFor
  have key : ∀ (u : State) (f : Store → Store), (∀ x, (f x).bytes = x.bytes) → ((u.modStore sp f).store q).bytes = (u.store q).bytes := fun u f hf => by
    by_cases e : q = sp
    · subst e; rw [State.store_modStore_self]; exact hf _
    · rw [State.store_modStore_of_ne _ _ e]
  simp only
  split
  · exact key _ _ fun _ => rfl
  · exact key _ _ fun _ => rfl
  · rfl

/-! ## Accesses that may fail, and free values -/

/-- Nothing has changed but what the memory system holds and whoever waits on it, the note of an address that no memory has, and the free values
used. -/
def MemoryAbout (s u : State) : Prop := MemoryOnly s { u with absent := s.absent, fresh := s.fresh }

theorem State.store_note (s : State) (a : Option Nat) (f : Nat) (sp : Space) : ({ s with absent := a, fresh := f } : State).store sp = s.store sp := by
  cases sp <;> rfl
theorem MemoryOnly.note {s u : State} (h : MemoryOnly s u) (a : Option Nat) (f : Nat) :
    MemoryOnly { s with absent := a, fresh := f } { u with absent := a, fresh := f } := by
  refine ⟨?_, h.tile, h.elem, h.mgmt, fun sp w => ?_⟩
  · have e := congrArg (fun v : State => ({ v with absent := a, fresh := f } : State)) h.rest
    exact e
  · rw [State.store_note] at *
    exact h.wf sp w
theorem MemoryOnly.about {s u : State} (h : MemoryOnly s u) : MemoryAbout s u := by
  have a := h.same State.absent fun _ _ _ _ _ _ _ _ _ _ _ => rfl
  have f := h.same State.fresh fun _ _ _ _ _ _ _ _ _ _ _ => rfl
  unfold MemoryAbout
  rw [← a, ← f]
  exact h
theorem MemoryAbout.refl (s : State) : MemoryAbout s s := (MemoryOnly.refl s).about
theorem MemoryAbout.trans {s u v : State} (h : MemoryAbout s u) (k : MemoryAbout u v) : MemoryAbout s v :=
  MemoryOnly.trans h (MemoryOnly.note k s.absent s.fresh)
theorem MemoryAbout.foldl {α : Type} (f : State → α → State) (hf : ∀ s x, MemoryAbout s (f s x)) (l : List α) (s : State) :
    MemoryAbout s (l.foldl f s) := by
  induction l generalizing s with
  | nil => exact MemoryAbout.refl s
  | cons x r ih => exact (hf s x).trans (ih _)
theorem MemoryAbout.same {s u : State} (h : MemoryAbout s u) {α : Type} (f : State → α)
    (hf : ∀ (v : State) a b c d e g i j k l m n, f { v with tiles := a, elems := b, hbm := c, far := d, host := e, peers := g, inflight := i, monitors := j, units := k, mgmt := l, absent := m, fresh := n } = f v) :
    f u = f s := by
  have e := congrArg f h.rest
  exact (hf u s.tiles s.elems s.hbm s.far s.host s.peers s.inflight s.monitors s.units s.mgmt s.absent s.fresh).symm.trans e
theorem MemoryAbout.tile {s u : State} (h : MemoryAbout s u) (t : Nat) : (s.tile t).Kept (u.tile t) := MemoryOnly.tile h t
theorem MemoryAbout.elem {s u : State} (h : MemoryAbout s u) (g : Nat) :
    ({ u.elem g with store := (s.elem g).store, owner := (s.elem g).owner } : Elem) = s.elem g := MemoryOnly.elem h g
theorem MemoryAbout.mgmt {s u : State} (h : MemoryAbout s u) (d : Nat) : ({ u.mgmtOf d with ce := (s.mgmtOf d).ce } : Mgmt) = s.mgmtOf d :=
  MemoryOnly.mgmt h d
theorem MemoryAbout.canonical {s u : State} (h : MemoryAbout s u) (c : Canonical s) : Canonical u := by
  intro sp
  have := MemoryOnly.wf h sp (c sp)
  rw [State.store_note] at this
  exact this
theorem MemoryAbout.noted (s : State) (a : Option Nat) : MemoryAbout s { s with absent := a } := MemoryOnly.refl s
theorem MemoryAbout.free (s : State) : MemoryAbout s s.free.2 := MemoryOnly.refl s
theorem MemoryAbout.freeChoice (s : State) : MemoryAbout s s.freeChoice.2 := MemoryOnly.refl s

theorem MemoryAbout.entryAt (s : State) (d c a : Nat) : MemoryAbout s (s.entryAt d c a).2 := by
  unfold State.entryAt
  split
  · exact MemoryAbout.refl s
  · split
    · exact ((MemoryOnly.callBack s none .hbm a 8).trans (MemoryOnly.correct _ _ _ _ _)).about
    · exact MemoryAbout.noted s _
theorem MemoryAbout.walkFrom (s : State) (d c va fuel level table : Nat) : MemoryAbout s (s.walkFrom d c va fuel level table).2 := by
  induction fuel generalizing s level table with
  | zero => exact MemoryAbout.refl s
  | succ n ih =>
    unfold State.walkFrom
    simp only
    generalize hp : s.entryAt d c _ = p
    have hs : MemoryAbout s p.2 := by rw [← hp]; exact MemoryAbout.entryAt s d c _
    repeat' split
    all_goals first | exact hs | exact (hs.trans (MemoryOnly.modUnit _ _ _).about).trans (ih _ _ _)
theorem MemoryAbout.translate (s : State) (d c va : Nat) : MemoryAbout s (s.translate d c va).2 := by
  unfold State.translate
  split
  · exact MemoryAbout.refl s
  · split
    · exact MemoryAbout.refl s
    · unfold State.walk
      simp only
      split
      · exact MemoryAbout.refl s
      · generalize hw : s.walkFrom d c va 4 0 _ = w
        have hs : MemoryAbout s w.2 := by rw [← hw]; exact MemoryAbout.walkFrom s d c va 4 0 _
        obtain ⟨o, w⟩ := w
        cases o with
        | none => exact hs
        | some l => exact hs.trans (MemoryOnly.modUnit _ _ _).about
theorem MemoryAbout.probe (s : State) (d c va n : Nat) (need : Need) : MemoryAbout s (s.probe d c va n need).2 := by
  unfold State.probe
  have h := MemoryAbout.translate s d c va
  split
  · rename_i v he
    rw [he] at h; exact h
  · rename_i l v he
    rw [he] at h
    simp only
    split
    · exact h
    · split
      · exact h
      · split
        · exact h.trans (MemoryAbout.noted _ _)
        · simp only
          split
          · exact h.trans (MemoryOnly.markDirty _ _ _).about
          · exact h
theorem MemoryAbout.probeAll (s : State) (d c : Nat) (need : Need) (l : List (Nat × Nat)) : MemoryAbout s (s.probeAll d c need l).2 := by
  induction l generalizing s with
  | nil => exact MemoryAbout.refl s
  | cons x r ih =>
    unfold State.probeAll
    have h := MemoryAbout.probe s d c x.1 x.2 need
    split
    · rename_i e v he
      rw [he] at h; exact h
    · rename_i p v he
      rw [he] at h
      have k := ih v
      split
      · rename_i e w hw
        rw [hw] at k; exact h.trans k
      · rename_i ps w hw
        rw [hw] at k; exact h.trans k

end Sys2Proof.Machine
end

