-- ==== Sys2Proof/Laws/Nodes.lean ====
section
/-! SUPPORT. What a matrix node's head entry can do: it completes with replies, or it stops the node; the cells of a region. -/

namespace Sys2Proof.Machine

/-- Noting an error changes the tile's count of errors and the die's management registers, R363 and R377. -/
theorem noteError_frame (s : State) (t c : Nat) :
    (s.noteError t c).focus = s.focus ∧ (s.noteError t c).absent = s.absent ∧ (s.noteError t c).elems = s.elems ∧ (s.noteError t c).ectxs = s.ectxs
      ∧ (s.noteError t c).nodes = s.nodes ∧ (s.noteError t c).insts = s.insts ∧ SameBytes s (s.noteError t c) := by
  unfold State.noteError
  dsimp only
  split
  · exact ⟨rfl, rfl, rfl, rfl, rfl, rfl, fun _ => rfl⟩
  · generalize (if c = 0x18 then 3 else 1) = k
    have h := State.sameBytes_modTile s t (fun T => { T with errors := T.errors ++ List.replicate k T.cycle }) ⟨rfl, rfl, rfl, rfl⟩
    split
    · exact ⟨rfl, rfl, rfl, rfl, rfl, rfl, fun sp => by have := h sp; cases sp <;> exact this⟩
    · exact ⟨rfl, rfl, rfl, rfl, rfl, rfl, h⟩

/-- The head entry runs when the node has not stopped and its token is well formed. -/
theorem nodeRun_head {s : State} {opc : Nat} {t : MxWord} {e : Entry} (h : s.AtHead opc t e) (k : State → Nat → Node → Entry → State) :
    s.nodeRun opc t k = k s s.focus.tile s.hereNode e := by
  obtain ⟨r, hr⟩ := h.head
  have hf := h.fault
  simp only [State.hereNode] at hr hf ⊢
  simp only [State.nodeRun, hf, hr, h.formed]

theorem nodePure_head {s : State} {opc : Nat} {t : MxWord} {e : Entry} (h : s.AtHead opc t e) (k : Node → Entry → EntryOut) :
    s.nodePure opc t k = s.nodeOut s.focus.tile e (k s.hereNode e) := by
  rw [State.nodePure, nodeRun_head h]

/-- What `nodeFault` does, R201. -/
theorem nodeStopped_nodeFault (u : State) (e : Entry) (cause val ate : Nat) :
    NodeStopped u (u.nodeFault u.focus.tile e cause val ate) e cause val ate ∧ (u.nodeFault u.focus.tile e cause val ate).absent = u.absent := by
  obtain ⟨h1, h2, h3, -, h5, h6, h7⟩ := noteError_frame u u.focus.tile cause
  refine ⟨⟨u.serial, ?_, fun t ht => ?_, ?_, fun sp => ?_⟩, h2⟩
  · have hf : (u.nodeFault u.focus.tile e cause val ate).focus = u.focus := h1
    rw [State.hereNode, hf, State.nodeFault]
    rw [State.node_pauseFrozen, State.node_modNode_self]
    simp only [State.hereNode, State.node, State.tick, h5, Node.eat]
  · rw [State.nodeFault]
    rw [State.node_pauseFrozen, State.node_modNode_of_ne _ _ ht]
    simp only [State.node, State.tick, h5]
  · let X := (u.noteError u.focus.tile cause).tick.modNode u.focus.tile fun n =>
      { n.eat e.elem ate with fault := some ⟨e.tag.ctx.toNat, e.elem, cause, BitVec.ofNat 56 val, e.word, (n.fifo e.elem).take ate, u.serial⟩ }
    have hx : ({ X.pauseFrozen e.tag.ctx.toNat with elems := u.elems, insts := u.insts } : State) = X := by rw [← h3, ← h6]; rfl
    exact (congrArg (State.pauseFrozen · e.tag.ctx.toNat) hx).symm
  · rw [State.nodeFault, State.store_pauseFrozen]
    have := h7 sp; cases sp <;> exact this

/-- One lane of source 6 of an element gains beats, and nothing else changes. -/
theorem source_inject (s : State) (g c col : Nat) (t : Token) (hc : c < 4) (hcol : col < 32) :
    ((s.inject g 6 t).source g 6 c col).beats
      = (s.source g 6 c col).beats ++ if t.tag.ctx.toNat = c ∧ t.tag.col.toNat = col then t.toBeats else [] := by
  have h1 := t.tag.ctx.isLt
  have h2 := t.tag.col.isLt
  by_cases h : t.tag.ctx.toNat = c ∧ t.tag.col.toNat = col
  · obtain ⟨rfl, rfl⟩ := h
    simp [State.inject, State.source, State.modSource]
  · rw [if_neg h]
    simp only [State.inject, State.source, State.modSource, State.elem_modElem_self, List.append_nil]
    rw [SMap.getD_set_of_ne]
    simp only [colourKey]
    omega

theorem inject_frame (s : State) (g : Nat) (t : Token) :
    ({ s.inject g 6 t with elems := s.elems } : State) = s ∧ (∀ h, h ≠ g → (s.inject g 6 t).elem h = s.elem h)
      ∧ ({ (s.inject g 6 t).elem g with ports := (s.elem g).ports } : Elem) = s.elem g :=
  ⟨rfl, fun _ hh => State.elem_modElem_of_ne _ _ hh, by simp [State.inject, State.modSource]⟩

theorem injects (g : Nat) (rs : List Token) (s : State) :
    let z := rs.foldl (fun s r => s.inject g 6 r) s
    ({ z with elems := s.elems } : State) = s ∧ (∀ h, h ≠ g → z.elem h = s.elem h)
      ∧ ({ z.elem g with ports := (s.elem g).ports } : Elem) = s.elem g
      ∧ ∀ c col, c < 4 → col < 32 → (z.source g 6 c col).beats = (s.source g 6 c col).beats ++ beatsOn c col rs := by
  induction rs generalizing s with
  | nil => exact ⟨rfl, fun _ _ => rfl, rfl, by simp [beatsOn]⟩
  | cons r l ih =>
    obtain ⟨h1, h2, h3, h4⟩ := ih (s.inject g 6 r)
    obtain ⟨k1, k2, k3⟩ := inject_frame s g r
    refine ⟨?_, fun h hh => (h2 h hh).trans (k2 h hh), ?_, fun c col hc hcol => ?_⟩
    · have := k1; rw [← h1] at this; exact this
    · have := k3; rw [← h3] at this; exact this
    · rw [List.foldl_cons, h4 c col hc hcol, source_inject s g c col r hc hcol]
      by_cases h : r.tag.ctx.toNat = c ∧ r.tag.col.toNat = col <;> simp [beatsOn, h]

/-- What `nodeDone` does, R190 and R198. -/
theorem nodeCompleted_nodeDone (u : State) (e : Entry) (n : Node) (ate : Nat) (rs : List Token) :
    NodeCompleted u (u.nodeDone u.focus.tile e n ate rs) e n ate rs ∧ (u.nodeDone u.focus.tile e n ate rs).absent = u.absent := by
  obtain ⟨h1, h2, h3, h4⟩ := injects (64 * u.focus.tile + e.elem) rs
    { u with nodes := SMap.set u.nodes u.focus.tile { n.eat e.elem ate with queue := n.queue.drop 1 } }
  have hz : ∃ z, z = u.nodeDone u.focus.tile e n ate rs := ⟨_, rfl⟩
  obtain ⟨z, hz⟩ := hz
  rw [← hz]
  change z = List.foldl _ _ _ at hz
  simp only [← hz] at h1 h2 h3 h4
  have hn : z.nodes = SMap.set u.nodes u.focus.tile { n.eat e.elem ate with queue := n.queue.drop 1 } := by
    have := congrArg State.nodes h1; simpa using this
  have hf : z.focus = u.focus := by have := congrArg State.focus h1; simpa using this
  refine ⟨⟨?_, fun t ht => ?_, ?_, h2, h3, h4⟩, by have := congrArg State.absent h1; simpa using this⟩
  · simp only [State.hereNode, hf, State.node, hn, SMap.getD_set_self]; rfl
  · simp only [State.node, hn]; rw [SMap.getD_set_of_ne _ _ _ ht]
  · exact congrArg (fun s : State => ({ s with nodes := u.nodes } : State)) h1

/-- A foreign column of the region, R187. -/
theorem foreignColumn_eq_none {n : Node} {t : MxWord} {c : BitVec 2} : n.foreignColumn c t.cols = none ↔ Owns n t c := by
  simp only [Node.foreignColumn, List.find?_eq_none, MxWord.cols, List.mem_map, List.mem_range, Owns]
  constructor
  · intro h k h1 h2
    have := h k ⟨k - t.col0.toNat, by omega, by omega⟩
    simpa using this
  · rintro h _ ⟨j, hj, rfl⟩
    simp [h (t.col0.toNat + j) (by omega) (by omega)]

/-! ## Regions -/

theorem cell_setCell (n : Node) (r c : Nat) (x : Cell) (r' c' : Nat) (hc : c < 128) (hc' : c' < 128) :
    (n.setCell r c x).cell r' c' = if r' = r ∧ c' = c then x else n.cell r' c' := by
  by_cases h : r' = r ∧ c' = c
  · obtain ⟨rfl, rfl⟩ := h; simp [Node.cell, Node.setCell]
  · rw [if_neg h]
    simp only [Node.cell, Node.setCell]
    rw [SMap.getD_set_of_ne]
    simp only [cellIndex]; omega

/-- Only what a function says of the region counts. -/
theorem RegionIs.congr {n n' : Node} {t : MxWord} {f g : Nat → Nat → Cell → Cell} (h : RegionIs n n' t f)
    (hfg : ∀ i j c, i < t.m → j < t.n → f i j c = g i j c) : RegionIs n n' t g := by
  refine ⟨h.1, fun r c hc => (h.2 r c hc).trans ?_⟩
  split
  · rw [hfg _ _ _ (by omega) (by omega)]
  · rfl

/-- One row of a region. -/
theorem row_foldl (f : Nat → Cell → Cell) (r c0 : Nat) (k : Nat) (hk : c0 + k ≤ 128) (n : Node) :
    let n' := (List.range k).foldl (fun n j => n.setCell r (c0 + j) (f j (n.cell r (c0 + j)))) n
    ({ n' with cells := n.cells } : Node) = n ∧ ∀ r' c, c < 128 → n'.cell r' c
      = if r' = r ∧ c0 ≤ c ∧ c < c0 + k then f (c - c0) (n.cell r' c) else n.cell r' c := by
  induction k with
  | zero => exact ⟨rfl, fun r' c _ => by rw [if_neg (by omega)]; rfl⟩
  | succ k ih =>
    obtain ⟨h1, h2⟩ := ih (by omega)
    rw [List.range_succ, List.foldl_append]
    refine ⟨?_, fun r' c hc => ?_⟩
    · exact h1
    · simp only [List.foldl_cons, List.foldl_nil]
      rw [cell_setCell _ _ _ _ _ _ (by omega) hc, h2 r (c0 + k) (by omega), h2 r' c hc]
      by_cases h : r' = r ∧ c = c0 + k
      · obtain ⟨rfl, rfl⟩ := h
        rw [if_pos ⟨rfl, rfl⟩, if_neg (by omega), if_pos (by omega), Nat.add_sub_cancel_left]
      · rw [if_neg h]
        by_cases h' : r' = r ∧ c0 ≤ c ∧ c < c0 + k
        · rw [if_pos h', if_pos (by omega)]
        · rw [if_neg h', if_neg (by omega)]

/-- `mapRegion` changes the cells of the region and nothing else. -/
theorem regionIs_mapRegion (n : Node) (t : MxWord) (f : Nat → Nat → Cell → Cell) (hc : t.col0.toNat + t.n ≤ 128) :
    RegionIs n (n.mapRegion t f) t f := by
  have key : ∀ k, let n' := (List.range k).foldl (fun n i => (List.range t.n).foldl (fun n j =>
        n.setCell (t.row0.toNat + i) (t.col0.toNat + j) (f i j (n.cell (t.row0.toNat + i) (t.col0.toNat + j)))) n) n
      ({ n' with cells := n.cells } : Node) = n ∧ ∀ r c, c < 128 → n'.cell r c
        = if t.row0.toNat ≤ r ∧ r < t.row0.toNat + k ∧ t.col0.toNat ≤ c ∧ c < t.col0.toNat + t.n
          then f (r - t.row0.toNat) (c - t.col0.toNat) (n.cell r c) else n.cell r c := by
    intro k
    induction k with
    | zero => exact ⟨rfl, fun r c _ => by rw [if_neg (by omega)]; rfl⟩
    | succ k ih =>
      obtain ⟨h1, h2⟩ := ih
      rw [List.range_succ, List.foldl_append]
      generalize (List.range k).foldl (fun n i => (List.range t.n).foldl (fun n j =>
        n.setCell (t.row0.toNat + i) (t.col0.toNat + j) (f i j (n.cell (t.row0.toNat + i) (t.col0.toNat + j)))) n) n = m at h1 h2 ⊢
      obtain ⟨k1, k2⟩ := row_foldl (f k) (t.row0.toNat + k) t.col0.toNat t.n hc m
      refine ⟨?_, fun r c hcc => ?_⟩
      · simp only [List.foldl_cons, List.foldl_nil]
        exact (congrArg (fun x : Node => ({ x with cells := n.cells } : Node)) k1).trans h1
      · simp only [List.foldl_cons, List.foldl_nil]
        rw [k2 r c hcc, h2 r c hcc]
        by_cases h : r = t.row0.toNat + k ∧ t.col0.toNat ≤ c ∧ c < t.col0.toNat + t.n
        · rw [if_pos h, if_neg (by omega), if_pos (by omega)]
          congr 1; omega
        · rw [if_neg h]
          by_cases h' : t.row0.toNat ≤ r ∧ r < t.row0.toNat + k ∧ t.col0.toNat ≤ c ∧ c < t.col0.toNat + t.n
          · rw [if_pos h', if_pos (by omega)]
          · rw [if_neg h', if_neg (by omega)]
  exact key t.m

end Sys2Proof.Machine
end

