-- ==== Sys2Proof/Tests/Slice0.lean ====
section
/-! SUPPORT. Tests: ill-formed terms that the checks refuse, words of the spec that decode to the instructions they stand for, single
steps whose results the spec gives, and states that meet the hypotheses of the statements. -/

open Sys2Proof Sys2Proof.Machine

set_option maxRecDepth 4000
set_option exponentiation.threshold 600

/-! ## Checks: one ill-formed term for each -/

theorem test_ill_fence : (Instr.fence 1).illFormed = some .fenceScope := by decide
theorem test_ill_pm : (Instr.elemAdd ⟨6, 0, 1, 4, 0, 0, 0⟩).illFormed = some .pmReserved := by decide
theorem test_ill_sub : (Instr.fadd ⟨0, 0, 1, 4, 0, 0, 4⟩).illFormed = some .subUndefined := by decide
theorem test_ill_sb : (Instr.nld ⟨0, 0, 1, 4, 0, 0, 0⟩).illFormed = some .sbNotZero := by decide
theorem test_ill_compare : (Instr.cmpeq ⟨5, 0, 1, 4, 0, 0, 0⟩).illFormed = some .comparePm := by decide
theorem test_ill_rows : (Instr.mma ⟨3, 0, 1, 0, 31, 127, 63, true⟩).illFormed = some .mxRows := by decide
theorem test_ill_cols : (Instr.mma ⟨3, 0, 0, 1, 31, 127, 63, true⟩).illFormed = some .mxCols := by decide
theorem test_ill_format : (Instr.mma ⟨9, 0, 0, 0, 31, 127, 63, true⟩).illFormed = some .mxFormat := by decide
theorem test_ill_unused : (Instr.bflip ⟨0, 1, 0, 0, 0, 0, 0, false⟩).illFormed = some .mxUnused := by decide
theorem test_ill_range : (Instr.tileRetirement 640).illFormed = some .range := by decide

/-! ## Words that the spec writes out -/

/-- R20: the CLTS and the BR of its worked encodings, R65's kin in R35, and the worked words of R174–R179, R75, R76, R349. -/
theorem test_words_control : ∀ e ∈ [((0x38211040#32 : Word32), Instr.clts 1 1 2), (0x5C000039#32, .br 3 9), (0x4CE2FF63#32, .stW 7 2 (-3) 3),
    (0x70463830#32, .tspawn 2 6 7), (0x70042860#32, .chwr 4 5), (0x74484800#32, .opld 2 8 9), (0x6BEA5800#32, .callt 31 10 11 0),
    (0x6C1F0000#32, .ret 31 0), (0xFC818020#32, .csrr 4 0x030), (0x58484880#32, .waitv 2 8 9 0)], decodeControl e.1 = .ok e.2 := by decide
/-- R266, R332, R320, R387, R391, R308, R373, R349: the worked words of the engines. -/
theorem test_words_engines : ∀ e ∈ [((0x88430020#32 : Word32), Instr.fcheck 2 3 ⟨false, false, 0⟩), (0x80432010#32, .ddapply 2 3 4 ⟨false, false, 0⟩),
    (0x84430000#32, .egpost 2 3 ⟨false, false, 0⟩), (0x78432000#32, .tvset 2 3 4 ⟨false, false, 0⟩), (0x90432000#32, .qtail 2 3 4),
    (0x8C430000#32, .coll 2 3 ⟨false, false, 0⟩), (0x94432000#32, .dsetupNew 2 3 4), (0xFC4320A0#32, .ctxsave 2 3 4),
    (0x80430000#32, .ddvar 2 3 ⟨false, false, 0⟩)], decodeControl e.1 = .ok e.2 := by decide
/-- R44, R47: worked operation words, with their fields written out. -/
theorem test_words_ops : ∀ e ∈ [((0x2040D060#32 : Word32), Instr.fadd ⟨1, 0, 3, 4, 3, 0, 0⟩), (0x540C5840#32, .steer ⟨0, 3, 1, 6, 2, 0, 0⟩),
    (0x9E0FD080#32, .nld ⟨0, 3, 15, 4, 4, 0, 0⟩), (0xA00C08E0#32, .nst ⟨0, 3, 0, 2, 7, 0, 0⟩), (0xB00C1047#32, .oupd ⟨0, 3, 0, 4, 2, 0, 7⟩),
    (0xB60C10A0#32, .dupd ⟨0, 3, 0, 4, 5, 0, 0⟩), (0x060240C8#32, .mac ⟨0, 0, 9, 0, 6, 1, 0⟩), (0xC60E40C0#32, .const ⟨0, 3, 9, 0, 6, 0, 0⟩)],
    decodeOp e.1 = .ok e.2 := by decide
/-- R54, R55 and R191: worked matrix tokens. -/
theorem test_words_matrix : ∀ e ∈ [((0x0C0000001FFFFF20#64 : BitVec 64), Instr.mma ⟨3, 0, 0, 0, 255, 127, 63, true⟩),
    (0x2004000800204026#64, .mmai ⟨8, 16, 0, 4, 1, 1, 0, true⟩)], decodeMatrix e.1 = .ok e.2 := by decide
/-- R43: an unguardable word with a guard is refused after its other checks, and a reserved major before them. -/
theorem test_refused_words : decodeControl 0x04611001#32 = .error .guardField ∧ decodeControl 0x00000000#32 = .error .reservedMajor
    ∧ decodeControl 0x98000000#32 = .error .reservedMajor := by decide

/-! ## States that meet the hypotheses of the statements

The hypotheses of a statement are met together by a small state; each clause has operands of its own, at the edge of its range. -/

namespace Sys2Proof.Tests

/-- After reset, task 0 of tile 0 holds these registers. -/
def withRegs (l : List (SReg × Word)) : State := State.reset.modCur fun k => l.foldl (fun k e => k.setReg e.1 e.2) k
/-- A word may issue. -/
def canIssue (s : State) : Bool := decide (s.focus.task < 32 ∧ s.cur.state = .run ∧ s.absent = none)
theorem issues {s : State} (h : canIssue s = true) : s.Issues := by
  obtain ⟨a, b, c⟩ := of_decide_eq_true h
  exact ⟨a, b, c⟩
/-- The leaf of a 64 KiB page at device address 0, readable and writable, that lies at address 0 of device memory. -/
def leaf : LeafEntry := ⟨0, false, 0, BitVec.ofNat 64 (2 ^ 63 + 2 ^ 58 + 2 ^ 57 + 2 ^ 56 + 128), 0⟩
/-- Translation is enabled in context 0, and the unit of die 0 holds these leaves. -/
def withLeaves (s : State) (l : List LeafEntry) : State := { s with troot := s.troot.set 0 ⟨0, true⟩, units := [(0, { leaves := l })] }
/-- A state whose translation unit holds that leaf. -/
def mapped (s : State) : State := withLeaves s [leaf]
/-- The same page in the far tier. -/
def mappedFar (s : State) : State := withLeaves s [{ leaf with entry := leaf.entry + BitVec.ofNat 64 (3 * 2 ^ 61) }]
/-- A user task. -/
def user (s : State) : State := s.modCur fun k => { k with sup := false }

/-- IntegerWords, ImmediateWords, GuardWords, GuardTransfer, TrapWords, HaltAndIdle, FenceWord, TaskExit. -/
theorem witness_issues : State.reset.Issues := issues (by decide)
/-- GuardedOff, and the guarded words whose guard holds. -/
theorem witness_guards : State.reset.Issues ∧ State.reset.cur.guardHolds 1 = false ∧ State.reset.cur.guardHolds 0 = true :=
  ⟨issues (by decide), by decide, by decide⟩
/-- JumpRegister: a target off its word, one past the store, one without a mark, one with a mark. -/
theorem witness_jumpRegister :
    (withRegs [(1, 2)]).Issues ∧ ((withRegs [(1, 2)]).reg 1).toNat % 4 ≠ 0 ∧ 0x7FFC < ((withRegs [(1, 0x8000)]).reg 1).toNat
      ∧ (let s := withRegs [(1, 0x7FFC)]
         s.Issues ∧ (s.reg 1).toNat % 4 = 0 ∧ (s.reg 1).toNat ≤ 0x7FFC ∧ (s.reg 1).toNat ∉ s.here.jrMarks)
      ∧ (let s := (withRegs [(1, 0x7FFC)]).modHere fun T => { T with jrMarks := [0x7FFC] }
         s.Issues ∧ (s.reg 1).toNat % 4 = 0 ∧ (s.reg 1).toNat ≤ 0x7FFC ∧ (s.reg 1).toNat ∈ s.here.jrMarks) :=
  ⟨issues (by decide), by decide, by decide, ⟨issues (by decide), by decide⟩, issues (by decide), by decide⟩
/-- ReturnWord: a return behind no CALL, and behind a CALL. -/
theorem witness_return :
    let s := withRegs [(1, 4)]
    let u := s.modHere fun T => { T with istore := { bytes := [(3, 0x60)] } }
    let maj (s : State) := Memory.readN s.here.istore.bytes (((s.reg 1).toNat + 0x7FFC) % 0x8000) 4 / 2 ^ 26
    s.Issues ∧ (s.reg 1).toNat % 4 = 0 ∧ maj s ≠ 0x18 ∧ maj s ≠ 0x1A ∧ u.Issues ∧ (u.reg 1).toNat % 4 = 0 ∧ maj u = 0x18 :=
  ⟨issues (by decide), by decide, by decide, by decide, issues (by decide), by decide, by decide⟩
/-- CallThroughTable: an entry off its word, one past the store, one of another type, one of the type. -/
theorem witness_callThroughTable :
    let s (a b : Word) := withRegs [(1, a), (2, b)]
    let e (s : State) := Memory.readN s.here.dstore.bytes (s.reg 1).toNat 8
    (s 4 0).Issues ∧ ((s 4 0).reg 1).toNat % 8 ≠ 0 ∧ ((s 0x8000 0).reg 1).toNat % 8 = 0 ∧ 0x7FFF < ((s 0x8000 0).reg 1).toNat
      ∧ ((s 0x7FF8 1).reg 1).toNat ≤ 0x7FFF ∧ e (s 0x7FF8 1) / 2 ^ 32 ≠ ((s 0x7FF8 1).reg 2).toNat % 2 ^ 32
      ∧ e (s 0x7FF8 0) / 2 ^ 32 = ((s 0x7FF8 0).reg 2).toNat % 2 ^ 32 ∧ e (s 0x7FF8 0) / 2 ^ 15 % 2 ^ 17 = 0 ∧ e (s 0x7FF8 0) % 4 = 0 :=
  ⟨issues (by decide), by decide⟩
/-- DataStoreLoads and DataStoreStores: an address off its size, one past the store, the last word. -/
theorem witness_dataStore :
    let s := withRegs [(1, 1), (2, 0x8000), (3, 0x7FF8)]
    s.Issues ∧ s.cur.guardHolds 0 = true ∧ (scaled (s.reg 1) 0 8).toNat % 8 ≠ 0 ∧ (scaled (s.reg 2) 0 8).toNat % 8 = 0 ∧ 0x7FFF < (scaled (s.reg 2) 0 8).toNat
      ∧ (scaled (s.reg 3) 0 8).toNat % 8 = 0 ∧ (scaled (s.reg 3) 0 8).toNat ≤ 0x7FFF ∧ s.here.dstore.uncorrectable (scaled (s.reg 3) 0 8).toNat 8 = false :=
  ⟨issues (by decide), by decide⟩
/-- DeviceLoads and DeviceStores: no translation, a page, and a poisoned word in it. -/
theorem witness_device :
    let s := withRegs [(1, 8)]
    let u := mapped s
    let p : State := { u with hbm := { poison := [0] } }
    s.Issues ∧ (scaled (s.reg 1) 0 8).toNat % 8 = 0 ∧ Refused s (scaled (s.reg 1) 0 8) 8 { read := true } 0x05 s
      ∧ Refused s (scaled (s.reg 1) 0 8) 8 { write := true } 0x05 s
      ∧ u.Issues ∧ Allowed u (scaled (u.reg 1) 0 8) 8 { read := true } .hbm 8 u ∧ Allowed u (scaled (u.reg 1) 0 8) 8 { write := true } .hbm 8 u
      ∧ ((u.homed .hbm 8 8).store .hbm).readCause 8 8 = none
      ∧ p.Issues ∧ Allowed p (scaled (p.reg 1) 0 8) 8 { read := true } .hbm 8 p ∧ ((p.homed .hbm 8 8).store .hbm).poisoned 8 8 = true :=
  ⟨issues (by decide), by decide, ⟨by rfl, by rfl⟩, ⟨by rfl, by rfl⟩, issues (by decide), by rfl, by rfl, by rfl, issues (by decide), by rfl, by rfl⟩
/-- Atomics, AtomicChecks and WaitAndWake: a word at its home, one off its size, one without a page, one in the far tier, a poisoned one; a word
equal to the operand and one that is not. -/
theorem witness_atomics :
    let s := withRegs [(1, 8), (2, 4)]
    let u := mapped s
    let f := mappedFar s
    let p : State := { u with hbm := { poison := [0] } }
    u.Issues ∧ u.cur.guardHolds 0 = true ∧ (u.reg 1).toNat % 8 = 0 ∧ AtWord u (u.reg 1) 8 (u.homed .hbm 8 8) (u.homed .hbm 8 8) ∧ inAperture 8 = false
      ∧ (u.reg 2).toNat % 8 ≠ 0 ∧ Refused s (s.reg 1) 8 atomicNeed 0x05 s
      ∧ f.Issues ∧ Allowed f (f.reg 1) 8 atomicNeed .far 8 f
      ∧ p.Issues ∧ Allowed p (p.reg 1) 8 atomicNeed .hbm 8 p ∧ ((p.homed .hbm 8 8).store .hbm).poisoned 8 8 = true
      ∧ word ((u.homed .hbm 8 8).bytesAt .hbm 8 8) = u.reg 0 ∧ word ((u.homed .hbm 8 8).bytesAt .hbm 8 8) ≠ u.reg 2 :=
  ⟨issues (by decide), by decide, by decide, ⟨⟨_, by rfl, rfl⟩, by rfl, by rfl⟩, by decide, by decide, ⟨by rfl, by rfl⟩,
    issues (by decide), by rfl, issues (by decide), by rfl, by rfl, by decide, by decide⟩
/-- CsrReads, CsrWrites and CsrMapWrites, and CsrChecks: every number of R24 is read at reset by a supervisor task; a user task and a number
that is none. -/
theorem witness_csr :
    let s := State.reset
    s.Issues ∧ s.focus.tile < 640 ∧ s.cur.unexempt.place = .bank 0 ∧ (locPos (s.here.task s.curCtx.spsel.toNat).place).2 < 128
      ∧ s.cur.sup = true ∧ (∀ n ∈ csrNumbers, ∃ v, s.issued.csr n = some v) ∧ (0x006#10).toNat ∉ csrNumbers
      ∧ (user s).Issues ∧ 0x000 ∈ csrSupervisor ∧ (user s).cur.sup = false :=
  ⟨issues (by decide), by decide, by decide, by decide, by decide,
    fun n h => Option.isSome_iff_exists.1 ((by decide : ∀ n ∈ csrNumbers, (State.reset.issued.csr n).isSome = true) n h), by decide,
    issues (by decide), by decide, by decide⟩
/-- CsrMapWrites: a binding set to a task that is not FREE, one to a FREE task, one taken away; a level that fits its launch and one that does not. -/
theorem witness_csrMap :
    let s := State.reset
    let q (v : Nat) := ((BitVec.ofNat 64 v : Word)).toNat
    let p : Placed := ⟨0, 0, 2, 2, 0, 0⟩
    let l := s.modHere fun T => T.modCtx 0 fun x => { x with launch := some p }
    (s.here.task (q 0xA000 / 256 % 32)).state ≠ .free ∧ (s.here.task (q 0xA100 / 256 % 32)).state = .free ∧ q 0x8000 / 2 ^ 15 % 2 = 1
      ∧ q 0x8000 / 2 ^ 13 % 2 = 0 ∧ l.Issues ∧ l.curCtx.launch = some p ∧ p.w.toNat % 2 ^ (q 0x11 % 16) = 0 ∧ p.h.toNat % 2 ^ (q 0x11 / 16 % 16) = 0
      ∧ p.w.toNat % 2 ^ (q 0x02 % 16) ≠ 0 :=
  ⟨by decide, by decide, by decide, by decide, issues (by decide), by decide⟩
/-- TrapReturn, TranslationInvalidate and the supervisor words in both states; TrapReturn outside a delivery. -/
theorem witness_supervisor : State.reset.Issues ∧ State.reset.cur.sup = true ∧ State.reset.cur.handling = false
    ∧ (user State.reset).Issues ∧ (user State.reset).cur.sup = false :=
  ⟨issues (by decide), by decide, by decide, issues (by decide), by decide⟩
/-- FenceWord: the scopes of R77 at their ends, and the first on each side of them. -/
theorem witness_fence : (∀ f ∈ [(2 : BitVec 5).toNat, (5 : BitVec 5).toNat], 2 ≤ f ∧ f ≤ 5) ∧ ∀ f ∈ [(1 : BitVec 5).toNat, (6 : BitVec 5).toNat], ¬ (2 ≤ f ∧ f ≤ 5) := by
  decide
/-- ContextSaveWords: an own context, a context that does not exist, an area off its page, a busy engine, and a save that is accepted. -/
theorem witness_contextSave :
    let s := withRegs [(1, 3), (2, 4), (3, 0x1000), (4, 1)]
    let b : State := { s with jobs := [⟨0, false, 0, 0, 3, 0, none⟩] }
    s.Issues ∧ s.cur.sup = true ∧ (s.reg 0).toNat % 4 = s.cur.ctx.toNat ∧ 4 ≤ (s.reg 2).toNat ∧ (s.reg 4).toNat % 4096 ≠ 0
      ∧ ¬ ((s.reg 1).toNat % 4 = s.cur.ctx.toNat ∨ 4 ≤ (s.reg 1).toNat ∨ (s.reg 3).toNat % 4096 ≠ 0) ∧ (∀ j ∈ s.jobs, j.die ≠ tileDie s.focus.tile)
      ∧ b.Issues ∧ ∃ j ∈ b.jobs, j.die = tileDie b.focus.tile :=
  ⟨issues (by decide), by decide, by decide, by decide, by decide, by decide, by decide, issues (by decide), by decide⟩
/-- After reset, colours of context 0 of tile 0 are bound to task 0, and beats stand in channels. -/
def bound (cols : List Nat) (beats : List (Nat × Beat)) : State :=
  State.reset.modHere fun T => { T.modCtx 0 fun x => { x with bound := cols.map fun c => (c, true, 0) } with channels := beats.map fun b => (b.1, [b.2]) }
/-- TaskWait and ChannelRead: no colour bound, the highest bound with a beat, and bound with none. -/
theorem witness_channels :
    let mine (s : State) := (List.range 32).filter fun col => s.here.binding s.cur.ctx.toNat col = some s.focus.task
    mine State.reset = [] ∧ (bound [0, 31] [(31, {})]).Issues ∧ 31 ∈ mine (bound [0, 31] [(31, {})])
      ∧ (bound [0, 31] [(31, {})]).here.channel 0 31 ≠ [] ∧ (∀ e ∈ mine (bound [0, 31] [(31, {})]), e < 31 → (bound [0, 31] [(31, {})]).here.channel 0 e = [])
      ∧ (bound [31] []).Issues ∧ mine (bound [31] []) ≠ [] ∧ ∀ col ∈ mine (bound [31] []), (bound [31] []).here.channel 0 col = [] :=
  ⟨by decide, issues (by decide), by decide, by decide, by decide, issues (by decide), by decide, by decide⟩
/-- ChannelRead: the items of an operand at its ends. -/
theorem witness_channelItems : (withRegs [(1, 4)]).Issues ∧ ((withRegs [(1, 4)]).reg 1).toNat % 8 ≤ 4 ∧ ¬ ((withRegs [(1, 5)]).reg 1).toNat % 8 ≤ 4
    ∧ ((withRegs [(1, 12)]).reg 1).toNat / 8 % 2 = 1 ∧ ((withRegs [(1, 12)]).reg 1).toNat % 8 ≤ 4 :=
  ⟨issues (by decide), by decide⟩
/-- A tile whose 32 descriptors are all in use. -/
def full : State := (withRegs [(1, 0x7FFC)]).modHere fun T =>
  { T with tasks := Vector.ofFn fun i => if i.val = 0 then T.task 0 else { state := .ready } }
/-- TaskCreation: an address off its word, one past the store, no free descriptor, a bound colour, and a task that is created. -/
theorem witness_taskCreation :
    let s := withRegs [(1, 2), (2, 0x8000), (3, 0x7FFC), (4, 0x7FFD)]
    let b := (bound [0] []).modCur fun k => k.setReg 1 0x7FFC
    s.Issues ∧ (s.reg 1).toNat % 4 ≠ 0 ∧ (s.reg 1).toNat / 2 % 2 = 1 ∧ 0x7FFF < (s.reg 2).toNat ∧ (s.reg 3).toNat % 4 = 0 ∧ (s.reg 4).toNat / 2 % 2 = 0
      ∧ (s.reg 4).toNat ≤ 0x7FFF ∧ (1 < 32 ∧ (s.here.task 1).state = .free ∧ ∀ m < 1, (s.here.task m).state ≠ .free) ∧ s.here.binding 0 0 = none
      ∧ b.Issues ∧ (b.reg 1).toNat % 4 = 0 ∧ b.here.binding 0 0 ≠ none ∧ full.Issues ∧ (∀ n < 32, (full.here.task n).state ≠ .free) :=
  ⟨issues (by decide), by decide, by decide, by decide, by decide, by decide, by decide, by decide, by decide, issues (by decide), by decide, by decide,
    issues (by decide), by decide⟩
/-- TaskExit, in a task with no job word. -/
theorem witness_taskExit : State.reset.Issues ∧ State.reset.cur.job = none := ⟨issues (by decide), by decide⟩
/-- ChannelWrite: staging alone, the first beat of a token, and a beat of one that is open. -/
theorem witness_channelWrite :
    let s := withRegs [(1, 3), (2, 4)]
    let o : State := s.modCur fun k => { k with openToks := [{ last := false }] }
    s.Issues ∧ (s.reg 1).getLsbD 2 = false ∧ (s.reg 2).getLsbD 2 = true ∧ (∀ m < 32, m ≠ s.focus.task → (s.here.task m).openToks = [])
      ∧ (∀ p ∈ s.cur.openToks, p.col ≠ (s.reg 2).extractLsb' 7 5)
      ∧ o.Issues ∧ (o.reg 2).getLsbD 2 = true ∧ o.cur.openToks.find? (fun p => p.col == (o.reg 2).extractLsb' 7 5) = some { last := false } :=
  ⟨issues (by decide), by decide, by decide, by decide, by decide, issues (by decide), by decide, by decide⟩
/-- TriggerWord: with a launch and without. -/
theorem witness_trigger : State.reset.Issues ∧ State.reset.curCtx.launch = none
    ∧ (let s := State.reset.modHere fun T => T.modCtx 0 fun x => { x with launch := some ⟨0, 0, 1, 1, 0, 0⟩ }
       s.Issues ∧ s.curCtx.launch ≠ none) :=
  ⟨issues (by decide), by decide, issues (by decide), by decide⟩
/-- BarrierWord: a form that there is not, the last arrival of a group, and one that others are awaited at. -/
theorem witness_barrier :
    let s := (withRegs [(1, 0x20), (2, 0x1F)]).modHere fun T => T.modCtx 0 fun x => { x with launch := some ⟨0, 0, 1, 1, 0, 0⟩ }
    let one (w : BitVec 6) : State := { s.modHere fun T => T.modCtx 0 fun x => { x with launch := some ⟨0, 0, 1, w, 0, 0⟩ } with
      launches := [(0, ⟨⟨0, w.toNat, 1, 0, 0, 0, 0, 0, 0, 0, 0, 0, 0, 0⟩, [], 0, .running, 0, 0, 0, 0, 0, false, false, false, false, [], 0, []⟩)] }
    s.Issues ∧ 2 ≤ (s.reg 1).toNat / 16 % 16 ∧ (s.reg 2).toNat / 16 % 16 < 2
      ∧ (one 1).Issues ∧ (one 1).focus.tile ∈ (one 1).barrierGroup (one 1).focus.tile 0 true ∧ (one 1).curCtx.compl = false ∧ (one 1).curCtx.arrivals = []
      ∧ (one 1).barrierGroup 0 0 true = [0] ∧ (one 2).Issues ∧ 1 ∈ (one 2).barrierGroup 0 0 true :=
  ⟨issues (by decide), by decide, by decide, issues (by decide), by decide, by decide, by decide, by decide, issues (by decide), by decide⟩
/-- After reset, task 0 has these registers and the data store these bytes. -/
def withData (l : List (SReg × Word)) (bytes : Memory) : State :=
  (withRegs l).modHere fun T => { T with dstore := { bytes := bytes } }
/-- slotLoads: an address off its word, records past the store, a user task, sixteen good records up to the store's end, and a record that is refused. -/
theorem witness_slotLoads :
    let s := withRegs [(1, 4), (2, 0x7F88), (3, 0x7F80), (4, 0xF000)]
    let bad := withData [(1, 0), (2, 0x1000)] [(0, 0x20), (8, 0xFF), (11, 0xFE)]
    let reason (u : State) (at0 j : Nat) : Option Nat := slotReason ((word (Memory.readN u.here.dstore.bytes (at0 + 8 * j) 8)).extractLsb' 0 32) j
    s.Issues ∧ (s.reg 1).toNat % 8 ≠ 0 ∧ (s.reg 2).toNat % 8 = 0 ∧ 0x8000 < (s.reg 2).toNat + 8 * 16 ∧ (s.reg 3).toNat % 8 = 0
      ∧ (s.reg 3).toNat + 8 * 16 ≤ 0x8000 ∧ s.cur.sup = true ∧ (user s).Issues ∧ (user s).cur.sup = false
      ∧ Min.min 15 ((s.reg 4).toNat / 256 % 16 + (s.reg 4).toNat / 4096 % 16) - (s.reg 4).toNat / 256 % 16 + 1 = 16
      ∧ (∀ j < 16, reason s 0x7F80 j = none)
      ∧ bad.Issues ∧ bad.cur.sup = true ∧ reason bad 0 0 = none ∧ reason bad 0 1 = some 1 :=
  ⟨issues (by decide), by decide, by decide, by decide, by decide, by decide, by decide, issues (by decide), by decide, by decide, by decide,
    issues (by decide), by decide⟩
/-- switchLoads: the same for switch words; an enabled word with no port is refused. -/
theorem witness_switchLoads :
    let s := withRegs [(1, 1), (2, 0x7FFF), (3, 0x7FFE)]
    let bad := withData [] [(0, 1)]
    s.Issues ∧ (s.reg 1).toNat % 2 ≠ 0 ∧ (s.reg 3).toNat % 2 = 0 ∧ 0x8000 < (s.reg 3).toNat + 2 * 2 ∧ (s.reg 3).toNat + 2 * 1 ≤ 0x8000 ∧ s.cur.sup = true
      ∧ (user s).cur.sup = false
      ∧ (s.loadFrom (fun s j => s.loadSwitch 0 j (BitVec.ofNat 16 (Memory.readN s.here.dstore.bytes (0x7FFE + 2 * (j - 0)) 2)) 4) 0 1).1 = none
      ∧ bad.Issues ∧ (bad.loadFrom (fun s j => s.loadSwitch 0 j (BitVec.ofNat 16 (Memory.readN bad.here.dstore.bytes (0 + 2 * (j - 0)) 2)) 4) 0 1).1 = some (0, 5) :=
  ⟨issues (by decide), by decide, by decide, by decide, by decide, by decide, by decide, by decide, issues (by decide), by decide⟩
/-- sheets: a sheet in force and one that is not, a context with a launch, one that is idle, one whose element holds a token. -/
theorem witness_sheets :
    let s := State.reset
    let f := s.modHere fun T => { T with inForce := [0] }
    let l := s.modHere fun T => T.modCtx 0 fun x => { x with launch := some ⟨0, 0, 1, 1, 0, 0⟩ }
    let b := s.modEctx 0 0 fun x => { x with operands := [{ slot := 0, which := 0, token := {}, seq := 0 }] }
    s.Issues ∧ s.cur.sup = true ∧ 0 ∉ s.here.inForce ∧ f.Issues ∧ 0 ∈ f.here.inForce ∧ l.Issues ∧ (l.here.ctx 0).launch ≠ none ∧ (s.here.ctx 0).launch = none
      ∧ (∀ e < 64, elemSheet e = 0 → s.elemIdle e 0 = true) ∧ b.Issues ∧ (b.here.ctx 0).launch = none ∧ ¬ ∀ e < 64, elemSheet e = 0 → b.elemIdle e 0 = true :=
  ⟨issues (by decide), by decide, by decide, issues (by decide), by decide, issues (by decide), by decide, by decide, by decide, issues (by decide), by decide,
    fun h => absurd (h 0 (by decide) (by decide)) (by decide)⟩
/-- Element 0 of `s` has an enabled switch entry of context 0 and colour 0 from the node (source 6) to its port N. -/
def routed (s : State) : State := s.modElem 0 fun e => { e with switch := [(0, 0x0681#16)] }
/-- A beat stands on that edge. -/
def crowded (s : State) : State := (routed s).modElem 0 fun e => { e with edges := [(0, { beats := [{}] })] }
/-- edgeDepths: a depth of 0 and one over the pool, an edge that no entry makes, the depths at their ends on an empty edge, and an edge with a beat. -/
theorem witness_edgeDepths :
    let s := withRegs [(1, 2049), (2, 2048), (3, 1)]
    let r := routed s
    let c := crowded s
    let made (u : State) := ∃ x ∈ (u.elem 0).switch, swEn x.2 = true ∧ swCtx x.2 = 0 ∧ swCol x.2 = 0 ∧ 0 ∈ maskPorts (swTo x.2)
    s.Issues ∧ s.cur.sup = true ∧ (s.reg 0).toNat % 4096 = 0 ∧ 2048 < (s.reg 1).toNat % 4096 ∧ ¬ made s ∧ r.Issues ∧ made r
      ∧ (r.edge 0 0 0 0).beats = [] ∧ r.poolUsed 0 - (r.edge 0 0 0 0).depth + (r.reg 2).toNat % 4096 ≤ 2048
      ∧ (let r2 := r.modElem 1 fun e => { e with switch := [(0, 0x0681#16)] }
         r2.Issues ∧ made r2 ∧ (r2.edge 0 0 0 0).beats = [] ∧ ¬ r2.poolUsed 0 - (r2.edge 0 0 0 0).depth + (r2.reg 2).toNat % 4096 ≤ 2048)
      ∧ c.Issues ∧ made c ∧ (c.edge 0 0 0 0).beats ≠ [] :=
  ⟨issues (by decide), by decide, by decide, by decide, by decide, issues (by decide), by decide, by decide, by decide,
    ⟨issues (by decide), by decide⟩, issues (by decide), by decide, by decide⟩
/-- imageLoads: no page, a user task, an image with no blocks, and one whose page a second read misses. -/
theorem witness_imageLoads :
    let s := withRegs [(1, 0xFFF8)]
    let u := mapped s
    (s.translate s.curDie 0 0).1 = none ∧ u.Issues ∧ (u.translate u.curDie 0 0).1 ≠ none ∧ u.cur.sup = true ∧ (user u).Issues ∧ (user u).cur.sup = false
      ∧ (u.loadImage 0 0 0 0).2.1 = none ∧ (u.loadImage 0 0 0 0).2.2.absent = none
      ∧ (u.translate u.curDie 0 0xFFF8).1 ≠ none ∧ (u.loadImage 0 0 0 0xFFF8).2.1 = some (0x05, 0x10000) ∧ (u.loadImage 0 0 0 0xFFF8).2.2.absent = none :=
  ⟨by decide, issues (by decide), by decide, by decide, issues (by decide), by decide⟩
/-- syncConditions: a pair with no token for the task, and one with 63 for its engine. -/
theorem witness_sync :
    let s := State.reset
    let f := s.modHere fun T => { T with pairs := [(0, { toEngine := 63, toTask := 1 })] }
    s.Issues ∧ (s.here.pair s.cur.ctx.toNat 0x1E 0).toTask = 0 ∧ f.Issues ∧ 63 ≤ (f.here.pair f.cur.ctx.toNat 0x1E 0).toEngine :=
  ⟨issues (by decide), by decide, issues (by decide), by decide⟩
/-- The words of engines: their sync conditions hold, with and without a POP, in supervisor and user state. -/
theorem witness_syncReady :
    let s := State.reset
    let t (m : Nat) := s.modHere fun T => { T with pairs := [(4 * m, { toTask := 1 })] }
    (∀ maj ∈ [0x1E, 0x1F, 0x20, 0x21, 0x22, 0x23], SyncReady s maj ⟨false, false, 0⟩ ∧ SyncReady s maj ⟨true, false, 0⟩ ∧ SyncReady (user s) maj ⟨false, false, 0⟩)
      ∧ SyncReady (t 0) 0x1E ⟨false, true, 0⟩ ∧ s.Issues ∧ (user s).Issues ∧ s.cur.sup = true ∧ (user s).cur.sup = false := by
  refine ⟨?_, by unfold SyncReady; decide, issues (by decide), issues (by decide), by decide, by decide⟩
  unfold SyncReady
  decide
/-- foldWordsTaken, datumWordsTaken, diagramWordsTaken, traverseWords, egressWords and collectiveWords: records off their word, past the store, and
the last in the store. -/
theorem witness_records :
    let s := withRegs [(1, 4), (2, 0x7FF8), (3, 0x7FE0), (4, 0x7FF0), (5, 0x7FC0), (6, 1)]
    s.Issues ∧ (s.reg 1).toNat % 8 ≠ 0 ∧ (s.reg 2).toNat % 8 = 0 ∧ 0x8000 < (s.reg 2).toNat + 16 ∧ 0x8000 < (s.reg 2).toNat + 32
      ∧ 0x8000 < (s.reg 2).toNat + 64 ∧ (s.reg 3).toNat % 8 = 0 ∧ (s.reg 3).toNat + 32 ≤ 0x8000 ∧ (s.reg 4).toNat % 8 = 0 ∧ (s.reg 4).toNat + 16 ≤ 0x8000
      ∧ (s.reg 5).toNat % 8 = 0 ∧ (s.reg 5).toNat + 64 ≤ 0x8000 ∧ (s.reg 6).toNat % 8 ≠ 0 ∧ (s.reg 6).toNat % 4 = 1 :=
  ⟨issues (by decide), by decide⟩
/-- remoteWordsTaken: QTAIL to a module past the last, to one that no plane leads to, to this one; SPAWNAT without a page and at a page, with a
misaligned address of kind 1, a record that is refused, and one that is taken; CANCEL of every form. -/
theorem witness_remoteWords :
    let s := withRegs [(1, BitVec.ofNat 64 (256 + 192)), (3, BitVec.ofNat 64 (3 * 2 ^ 32)), (4, BitVec.ofNat 64 (2 ^ 32)), (5, 1)]
    let d : State := { s with planesDown := List.range 36 }
    let m := mapped s
    let k1 := mapped (withData [(5, 1)] [(6, 1)])
    let bad := mapped (withData [(5, 1)] [(6, 2)])
    s.Issues ∧ (s.reg 1).toNat / 256 % 2 = 1 ∧ 191 < (s.reg 1).toNat % 256 ∧ d.Issues ∧ 36 ≤ d.planesDown.length
      ∧ ¬ (s.reg 0).toNat / 256 % 2 = 1 ∧ m.Issues ∧ (m.spawnOwner m.curDie 0 true 1).1 = .ok (.hbm, 1)
      ∧ Memory.readN m.here.dstore.bytes 0 64 = 0 ∧ Memory.readN k1.here.dstore.bytes 0 64 / 2 ^ 48 % 256 = 1 ∧ (k1.reg 5).toNat % 8 ≠ 0
      ∧ (k1.spawnOwner k1.curDie 0 true 1).1 = .ok (.hbm, 1) ∧ 2 ≤ Memory.readN bad.here.dstore.bytes 0 64 / 2 ^ 48 % 256
      ∧ (s.reg 3).toNat / 2 ^ 32 % 4 = 3 ∧ (s.reg 4).toNat / 2 ^ 32 % 4 = 1 ∧ (user s).cur.sup = false :=
  ⟨issues (by decide), by decide, by decide, issues (by decide), by decide, by decide, issues (by decide), by decide⟩
/-- remoteWordsTaken: a module number other than this one's, whatever the device's own is. -/
theorem witness_otherModule : ∃ m : Nat, m ≤ 191 ∧ m ≠ Config.thisModule := by
  by_cases h : (0 : Nat) = Config.thisModule
  · exact ⟨1, by decide, by omega⟩
  · exact ⟨0, by decide, h⟩
/-- traverseWords: a traverse word with a reserved space, and one that is well formed. -/
theorem witness_traverse :
    let bad (w : Nat) : Prop := 2 ≤ w / 2 ^ 62 % 4 ∨ w / 2 ^ 59 % 8 = 7 ∨ w / 2 ^ 56 % 4 ≠ 0
    (withData [] [(7, 0x80)]).Issues ∧ bad (Memory.readN (withData [] [(7, 0x80)]).here.dstore.bytes 0 32)
      ∧ (withData [] [(7, 0x70)]).Issues ∧ ¬ bad (Memory.readN (withData [] [(7, 0x70)]).here.dstore.bytes 0 32) :=
  ⟨issues (by decide), by decide, issues (by decide), by decide⟩
/-- A valid traverse word: one element of 8 bytes at device address 0. -/
def oneWord : BitVec 256 := BitVec.ofNat 256 (2 ^ 58 + 3 * 2 ^ 59)
/-- Context 0 of tile 0 has traverse registers 0 and 1 valid, and colour 0 of element 0 is granted. -/
def streaming (f : CtxRegs → CtxRegs) : State :=
  (State.reset.modHere fun T => T.modCtx 0 fun x => f { x with tv := [(0, oneWord), (1, oneWord)] }).modEctx 0 0 fun x =>
    x.setEntry 0 { x.entry 0 with g := true }
/-- A stream and a copy, done and not. -/
def aStream (fin : Bool) : Stream := ⟨0, false, 0, 0, 0, oneWord, false, 8, 0, 0, 0, {}, [], false, 0, false, false, none, { fin := fin }⟩
def aCopy (fin : Bool) : Copy := ⟨0, oneWord, oneWord, 0, false, none, 0, [], { fin := fin }⟩
def aColl (fin : Bool) : Coll := ⟨1, 0, 0, 0, 0, 0, 0, 1, 1, 0, 0, 0, 0, false, none, none, { fin := fin }⟩
/-- streamWords: sixteen streams, none free; a free one with a bad and with a good binding; none held, one done, one that is not. -/
theorem witness_streams :
    let s := streaming id
    let all := streaming fun x => { x with streams := (List.range 16).map fun n => (n, aStream false) }
    let one (f : Bool) := streaming fun x => { x with streams := [(0, aStream f)] }
    all.Issues ∧ (∀ m < 16, SMap.get? all.curCtx.streams m ≠ none) ∧ s.Issues ∧ SMap.get? s.curCtx.streams 0 = none
      ∧ tvV (SMap.getD s.curCtx.tv 2 0) = false ∧ tvV (SMap.getD s.curCtx.tv 0 0) = true ∧ tvBytes (SMap.getD s.curCtx.tv 0 0) < 2 ^ 32
      ∧ ((s.ectx 0 0).entry 0).g = true ∧ (one true).Issues ∧ SMap.get? (one true).curCtx.streams 0 = some (aStream true)
      ∧ (∀ z ∈ (one true).curCtx.streams, z.2.st.fin = true) ∧ (one false).Issues ∧ SMap.get? (one false).curCtx.streams 0 = some (aStream false)
      ∧ (∀ maj ∈ [0x1E, 0x1F, 0x23], SyncReady s maj ⟨false, false, 0⟩ ∧ SyncReady (one true) maj ⟨true, false, 0⟩ ∧ SyncReady (one false) maj ⟨false, false, 3⟩) := by
  refine ⟨issues (by decide), by decide, issues (by decide), by decide, by decide, by decide, by decide, by decide, issues (by decide), by decide, by decide,
    issues (by decide), by decide, ?_⟩
  unfold SyncReady
  decide
/-- copyWords: sixty-four tickets held; a free one with an invalid pair and with a good one; none held, one done, one that is not. -/
theorem witness_copies :
    let s := streaming id
    let all := streaming fun x => { x with copies := (List.range 64).map fun n => (n, aCopy false) }
    let one (f : Bool) := streaming fun x => { x with copies := [(0, aCopy f)] }
    all.Issues ∧ (∀ m < 64, SMap.get? all.curCtx.copies m ≠ none) ∧ s.Issues ∧ SMap.get? s.curCtx.copies 0 = none
      ∧ State.copyRefused 0 (SMap.getD s.curCtx.tv 2 0) (SMap.getD s.curCtx.tv 1 0) = some (2 ^ 64 - 2)
      ∧ State.copyRefused 0 (SMap.getD s.curCtx.tv 0 0) (SMap.getD s.curCtx.tv 1 0) = none
      ∧ State.copyRefused 2 (SMap.getD s.curCtx.tv 0 0) (SMap.getD s.curCtx.tv 1 0) = none
      ∧ (one true).Issues ∧ SMap.get? (one true).curCtx.copies 0 = some (aCopy true) ∧ (∀ z ∈ (one true).curCtx.copies, z.2.st.fin = true)
      ∧ (one false).Issues ∧ SMap.get? (one false).curCtx.copies 0 = some (aCopy false) :=
  ⟨issues (by decide), by decide, issues (by decide), by decide, by decide, by decide, by decide, issues (by decide), by decide, by decide, issues (by decide), by decide⟩
/-- egressWords: a record below its session's last stamp, one that finds no room, one that is let in; records held and released. -/
theorem witness_egress :
    let s := State.reset
    let late : State := { s with posted := [(0, 1)] }
    let fill : State := { s with egress := List.replicate 64 ⟨0, 0, 0, .held⟩ }
    let mixed : State := { s with egress := [⟨0, 0, 0, .released⟩, ⟨0, 1, 0, .held⟩] }
    (∀ u ∈ [s, late, fill, mixed], SyncReady u 0x21 ⟨false, false, 0⟩) ∧ late.Issues ∧ 0 < SMap.getD late.posted 0 0 ∧ fill.Issues
      ∧ ¬ (fill.egress.filter fun r => r.sess = 0 ∧ r.hold = .held).length < 64 ∧ s.Issues ∧ ¬ 0 < SMap.getD s.posted 0 0
      ∧ (s.egress.filter fun r => r.sess = 0 ∧ r.hold = .held).length < 64 ∧ mixed.Issues
      ∧ mixed.egress.find? (fun r => r.sess = 0 ∧ r.stamp = 0) = some ⟨0, 0, 0, .released⟩
      ∧ mixed.egress.find? (fun r => r.sess = 0 ∧ r.stamp = 1) = some ⟨0, 1, 0, .held⟩
      ∧ (∀ r ∈ mixed.egress, ¬ (r.sess = 0 ∧ r.stamp = 2)) ∧ (s.egress.filter fun r => r.sess = 0 ∧ r.hold = .held) = []
      ∧ (mixed.egress.filter fun r => r.sess = 0 ∧ r.hold = .held) ≠ [] := by
  refine ⟨?_, issues (by decide), by decide, issues (by decide), by decide, issues (by decide), by decide, by decide, issues (by decide), by decide⟩
  unfold SyncReady
  decide
/-- A record of COLL that is well formed: GID 1, one rank, one value of format 0. -/
def collRecord : Memory := [(0, 1), (14, 1), (16, 1)]
/-- collectiveWords: a record that is not well formed and one that is; sixteen ranks held; a rank done and one that is not; a rank of the key. -/
theorem witness_collectives :
    let s := withData [] []
    let g := withData [] collRecord
    let all := g.modHere fun T => T.modCtx 0 fun x => { x with colls := (List.range 16).map fun n => (n, aColl false) }
    let one (f : Bool) := g.modHere fun T => T.modCtx 0 fun x => { x with colls := [(0, aColl f)] }
    let mine (u : State) := (u.ranksOf 1 0).filter fun q => tileDie q.1 = u.curDie ∧ q.2.1 = u.cur.ctx.toNat
    s.Issues ∧ collOk (Memory.readN s.here.dstore.bytes 0 64) = false ∧ SMap.get? s.curCtx.colls 0 = none ∧ mine s = [] ∧ g.Issues ∧ collOk (Memory.readN g.here.dstore.bytes 0 64) = true ∧ all.Issues
      ∧ (∀ m < 16, SMap.get? all.curCtx.colls m ≠ none) ∧ (one true).Issues ∧ SMap.get? (one true).curCtx.colls 0 = some (aColl true)
      ∧ (one false).Issues ∧ mine (one false) ≠ [] :=
  ⟨issues (by decide), by decide, by decide, by decide, issues (by decide), by decide, issues (by decide), by decide, issues (by decide), by decide, issues (by decide), by decide⟩
/-- The page of that leaf as a header page, on which cells lie. -/
def cellPage (s : State) : State :=
  withLeaves s [{ leaf with entry := leaf.entry + BitVec.ofNat 64 (2 ^ 59) }]
/-- datumStatus: each item, and a cell that its unit activates. -/
theorem witness_datumStatus :
    let s := cellPage (withRegs [(2, 4), (3, 8), (4, 9), (5, 1)])
    s.Issues ∧ (s.reg 0).toNat % 16 = 0 ∧ (s.reg 5).toNat % 16 = 1 ∧ (s.reg 2).toNat % 16 = 4 ∧ (s.reg 3).toNat % 16 = 8 ∧ 8 < (s.reg 4).toNat % 16
      ∧ s.cellPlace s.curDie s.cur.ctx.toNat (s.reg 1).toNat false s.cur.sup = (.ok 0, s)
      ∧ (match (s.activate 0).1 with | .cell _ => true | _ => false) = true ∧ (s.activate 0).2.absent = none :=
  ⟨issues (by decide), by decide, by decide, by decide, by decide, by decide, by rfl, by rfl, by rfl⟩
/-- A whole token of one beat, for operand `w` of slot `n`. -/
def held (n w : Nat) (t : Tag) (seq : Nat) : Operand := { slot := n, which := w, token := ⟨t, [0]⟩, seq := seq, entries := 1 }
/-- Slot 0 of element 0 in context 0 holds tokens for its operands A and B, and latch 0 one for C where the operation has one. -/
def armed (a b : Tag) (op : Nat) (f : ElemCtx → ElemCtx) : State :=
  ((State.reset.modHere fun T => { T with inForce := [0] }).modEctx 0 0 fun x =>
    f { x with operands := [held 0 0 a 0, held 0 1 b 1], latches := if hasC op then [(0, { token := ⟨{}, [0]⟩, seq := 2 })] else [] })
/-- The word of the slot: its operands from ports, its result to its latch. -/
def wordAt (pm : BitVec 3) : OpWord := ⟨pm, 0, 0, 0, 0, 0, 0⟩
/-- What the focused slot fires on first, and the state after its operands have been consumed. -/
def fired (s : State) (w : OpWord) (op : Nat) : Option (Firing × State) :=
  match s.candidates s.focus.gid s.focus.ctx s.focus.slot w op with
  | (_, F) :: _ =>
    match s.ringTest F with
    | (none, r) => (r.reserve F).map fun v => (F, (v.consume F).modEctx F.g F.c fun x => { x with pastBkpt := none })
    | _ => none
  | [] => none
/-- The slot fires and its result has room. -/
def canFire (s : State) (w : OpWord) (op : Nat) (p : Firing → State → Bool) : Bool :=
  match fired s w op with
  | some (F, u) => decide (s.focus.ctx < 4) && !((s.ectx F.g F.c).slot F.n).bkpt && u.absent.isNone && p F u
  | none => false
theorem fires {s : State} {w : OpWord} {op : Nat} {p : Firing → State → Bool} (h : canFire s w op p = true) :
    ∃ F u, s.Fires w op F u ∧ p F u = true := by
  unfold canFire at h
  split at h
  · rename_i F u hf
    unfold fired at hf
    simp only [Bool.and_eq_true, decide_eq_true_eq, Bool.not_eq_true', Option.isNone_iff_eq_none] at h
    split at hf
    · rename_i k F' l hc
      split at hf
      · rename_i r hr
        simp only [Option.map_eq_some_iff, Prod.mk.injEq] at hf
        obtain ⟨v, hv, rfl, rfl⟩ := hf
        exact ⟨_, _, ⟨⟨_, _, hc⟩, h.1.1.1, (fun hb => by rw [h.1.1.2] at hb; cases hb), ⟨_, _, hr, hv, rfl⟩, h.1.2⟩, h.2⟩
      · cases hf
    · cases hf
  · cases h
/-- The operands are plain, and the result's latch is empty. -/
def plainRoom (F : Firing) (u : State) : Bool :=
  F.erring.isNone && !F.anyNull && decide (verdict F.w.pm F.prdA = .compute) && u.room F.g F.c F.n F.w.dst F.w.dst (F.same (u.ectx F.g F.c) F.tag)
/-- The statements about operation words: every operation fires on plain operands, and its result has room. -/
theorem witness_firings : ∀ op < 120, ∃ F u, (armed {} {} op id).Fires (wordAt 0) op F u ∧ plainRoom F u = true := by
  intro op h
  have : ∀ op < 120, canFire (armed {} {} op id) (wordAt 0) op plainRoom = true := by decide
  exact fires (this op h)
/-- verdicts, memoryOps and matrixOps: an error, a null token, and both answers of a predicate that is not met. -/
theorem witness_verdicts : ∀ op < 120, op ≠ 43 → op ≠ 44 →
    (∃ F u, (armed { err := true } {} op id).Fires (wordAt 0) op F u ∧ F.erring.isSome = true)
      ∧ (∃ F u, (armed {} { nul := true } op id).Fires (wordAt 0) op F u ∧ (F.erring.isNone && F.anyNull) = true)
      ∧ (∃ F u, (armed {} {} op id).Fires (wordAt 1) op F u ∧ (F.erring.isNone && !F.anyNull && decide (verdict F.w.pm F.prdA = .nothing)) = true)
      ∧ ∃ F u, (armed {} {} op id).Fires (wordAt 3) op F u ∧ (F.erring.isNone && !F.anyNull && decide (verdict F.w.pm F.prdA = .null)) = true := by
  intro op h h1 h2
  have : ∀ op < 120, op ≠ 43 → op ≠ 44 →
      canFire (armed { err := true } {} op id) (wordAt 0) op (fun F _ => F.erring.isSome) = true
        ∧ canFire (armed {} { nul := true } op id) (wordAt 0) op (fun F _ => F.erring.isNone && F.anyNull) = true
        ∧ canFire (armed {} {} op id) (wordAt 1) op (fun F _ => F.erring.isNone && !F.anyNull && decide (verdict F.w.pm F.prdA = .nothing)) = true
        ∧ canFire (armed {} {} op id) (wordAt 3) op (fun F _ => F.erring.isNone && !F.anyNull && decide (verdict F.w.pm F.prdA = .null)) = true := by decide
  obtain ⟨a, b, c, d⟩ := this op h h1 h2
  exact ⟨fires a, fires b, fires c, fires d⟩
/-- The focused slot's context after its operands have been consumed. -/
def after (F : Firing) (u : State) : ElemCtx := u.ectx F.g F.c
/-- firingStops: a breakpoint, and a record of the overflow ring whose page has gone. -/
theorem witness_firingStops :
    let b := armed {} {} 0 fun x => x.setSlot 0 { bkpt := true }
    let l : Launch := ⟨⟨0, 1, 1, 0, 0, 0, 0, 0, 0, 0, 0, 0, 0, 0⟩, [], 0, .running, 0, 0, 0, 0, 0, false, false, false, false, [], 0, []⟩
    let r : State := { (armed {} {} 0 fun x => { x with operands := x.operands.map fun o => { o with spilled := [0] } }).modHere
        (fun T => T.modCtx 0 fun x => { x with launch := some ⟨0, 0, 1, 1, 0, 0⟩ }) with launches := [(0, l)] }
    let first (s : State) := (s.candidates s.focus.gid s.focus.ctx s.focus.slot (wordAt 0) 0).head?
    (first b).isSome = true ∧ ((b.ectx 0 0).slot 0).bkpt = true ∧ (b.ectx 0 0).pastBkpt = none ∧ b.absent = none
      ∧ ((r.ectx 0 0).slot 0).bkpt = false ∧ ((first r).map fun f => ((r.ringTest f.2).1.isSome, (r.ringTest f.2).2.absent)) = some (true, none) := by
  decide
/-- checkingOps: room at the tile input, an error that ERRCHK reads, and operands that are not plain. -/
theorem witness_checking :
    (∃ F u, (armed {} {} 100 id).Fires (wordAt 0) 100 F u ∧ decide (u.upRoom 0 (F.marked (F.same (after F u) F.tag)).tag = true ∧ F.erring = none) = true)
      ∧ (∃ F u, (armed { err := true } {} 102 id).Fires (wordAt 0) 102 F u ∧ decide (F.a.any (·.token.tag.err) = true) = true)
      ∧ (∃ F u, (armed { err := true } {} 103 id).Fires (wordAt 0) 103 F u ∧ decide (F.erring ≠ none) = true)
      ∧ ∃ F u, (armed { err := true } {} 104 id).Fires (wordAt 0) 104 F u ∧ decide (F.erring ≠ none) = true :=
  ⟨fires (by decide), fires (by decide), fires (by decide), fires (by decide)⟩
/-- tagOps: REORD without a token, of a thread past the bound, of one whose turn it is, and of one that waits. -/
theorem witness_reorder :
    let w : OpWord := ⟨0, 15, 0, 0, 0, 0, 0⟩
    let two (x : ElemCtx) : ElemCtx := { x with operands := x.operands.map fun o => if o.which = 1 then { o with token := { o.token with beats := [2] } } else o }
    (∃ F u, (armed {} {} 52 id).Fires w 52 F u ∧ decide (F.a = none ∧ F.erring = none) = true)
      ∧ (∃ F u, (armed {} {} 52 id).Fires (wordAt 0) 52 F u ∧ decide (F.a ≠ none ∧ F.b0 (after F u) ≤ F.src.thr.toNat) = true)
      ∧ (∃ F u, (armed {} {} 52 two).Fires (wordAt 0) 52 F u ∧ decide (F.src.thr.toNat = 0 ∧ 0 < F.b0 (after F u) ∧ (after F u).reorders = []) = true)
      ∧ ∃ F u, (armed { thr := 1 } { thr := 1 } 52 two).Fires (wordAt 0) 52 F u
          ∧ decide (F.src.thr.toNat = 1 ∧ 1 < F.b0 (after F u) ∧ (after F u).reorders = []) = true :=
  ⟨fires (by decide), fires (by decide), fires (by decide), fires (by decide)⟩
/-- colourOps: COLPACK that is refused, and one that is not. -/
theorem witness_colours :
    let one (x : ElemCtx) : ElemCtx := { x with operands := x.operands.map fun o => if o.which = 1 then { o with token := { o.token with beats := [1] } } else o }
    (∃ F u, (armed {} {} 54 id).Fires (wordAt 0) 54 F u ∧ decide (F.w.col.toNat = F.b0 (after F u) % 32) = true)
      ∧ ∃ F u, (armed {} {} 54 one).Fires (wordAt 0) 54 F u ∧ decide (F.w.col.toNat ≠ F.b0 (after F u) % 32
          ∧ ((after F u).entry 0).pk = false ∧ ((after F u).entry 1).pk = false ∧ ((after F u).entry 0).width + ((after F u).entry 1).width ≤ 32) = true :=
  ⟨fires (by decide), fires (by decide)⟩
/-- frameOps: a parent at each end of its range with a child to take, an element with 32 frames, and a frame that no operand holds. -/
theorem witness_frames :
    (∀ op ∈ [56, 58], (∃ F u, (armed { frm := 1 } { frm := 1 } op id).Fires (wordAt 0) op F u ∧ (u.child F.g F.c F.src.frm (op == 56)).isSome = true)
        ∧ ∃ F u, (armed { frm := 4095 } { frm := 4095 } op id).Fires (wordAt 0) op F u ∧ (u.child F.g F.c F.src.frm (op == 56)).isSome = true)
      ∧ (∃ F u, ((armed { frm := 1 } { frm := 1 } 56 id).modElem 0 fun e => { e with frames := List.range 32 }).Fires (wordAt 0) 56 F u
          ∧ decide (32 ≤ (u.elem F.g).frames.length) = true)
      ∧ ∃ F u, (armed { frm := 1 } { frm := 1 } 57 id).Fires (wordAt 0) 57 F u ∧ decide (∀ o ∈ (after F u).operands, o.token.tag.frm ≠ F.src.frm) = true := by
  refine ⟨fun op h => ?_, fires (by decide), fires (by decide)⟩
  simp only [List.mem_cons, List.not_mem_nil, or_false] at h
  rcases h with rfl | rfl <;> exact ⟨fires (by decide), fires (by decide)⟩
/-- A loop of slot 0 of the context, running with iteration 0 live. -/
def aLoop : Loop := { slot := 0, running := true, w := wordAt 0, start := ⟨{}, [0]⟩, bound := 4, next := 1, live := [0] }
/-- loopOps: LOOPB with and without a LOOPE in the next slot; LOOPE of a running loop and of none; LOOPX on a true and a false predicate. -/
theorem witness_loops :
    let e (x : ElemCtx) : ElemCtx := x.setSlot 1 { opw := BitVec.ofNat 32 (61 * 2 ^ 25) }
    let l (x : ElemCtx) : ElemCtx := { x with loops := [aLoop], operands := x.operands.map fun o => { o with slot := 1 } }
    let at1 (s : State) : State := { s with focus := { s.focus with slot := 1 } }
    (∃ F u, (armed {} {} 60 id).Fires (wordAt 0) 60 F u ∧ decide (((after F u).slot 1).op ≠ 61) = true)
      ∧ (∃ F u, (armed {} {} 60 e).Fires (wordAt 0) 60 F u ∧ decide (F.n < 15 ∧ ((after F u).slot 1).op = 61) = true)
      ∧ (∃ F u, (at1 (armed {} {} 61 l)).Fires (wordAt 0) 61 F u ∧ decide (F.n ≠ 0 ∧ (after F u).loop 0 = some aLoop ∧ aLoop.liveOf F.src.itr = some 0) = true)
      ∧ (∃ F u, (armed {} {} 61 id).Fires (wordAt 0) 61 F u ∧ decide (F.n = 0) = true)
      ∧ (∃ F u, (armed { prd := true } {} 63 id).Fires (wordAt 0) 63 F u ∧ decide (F.erring = none ∧ F.anyNull = false ∧ F.prdA = true) = true)
      ∧ ∃ F u, (armed {} {} 63 id).Fires (wordAt 0) 63 F u ∧ decide (F.prdA = false) = true :=
  ⟨fires (by decide), fires (by decide), fires (by decide), fires (by decide), fires (by decide), fires (by decide)⟩
/-- The constant of slot 0 makes groups of two, and the first member of one has come. -/
def half (x : ElemCtx) : ElemCtx :=
  { x with consts := x.consts.set 0 1, groups := [⟨0, 0, 0, 0, [⟨0, some (held 0 0 {} 0), some (held 0 1 {} 0), true⟩]⟩] }
/-- reductionOps: a member of a group that is not whole, a whole group, one whose member is null, one with an error, and predicates under pm = 101
that agree and that do not. -/
theorem witness_reductions : ∀ op ∈ [65, 66, 67, 68, 69, 70, 71, 72],
    (∃ F u, (armed {} {} op fun x => { x with consts := x.consts.set 0 1 }).Fires (wordAt 0) op F u
        ∧ decide (1 < 2 ^ Min.min 12 (((after F u).const (F.n % 4)).toNat % 16) ∧ (after F u).groups = []) = true)
      ∧ (∃ F u, (armed {} {} op id).Fires (wordAt 0) op F u ∧ decide (2 ^ Min.min 12 (((after F u).const (F.n % 4)).toNat % 16) = 1 ∧ F.anyNull = false
          ∧ memberErrors (after F u) F 0 [⟨0, F.keep 0 F.a, F.keep 1 F.b, true⟩] = []) = true)
      ∧ (∃ F u, (armed { nul := true } {} op id).Fires (wordAt 0) op F u ∧ decide (F.anyNull = true ∧ F.erring = none) = true)
      ∧ (∃ F u, (armed { err := true } {} op id).Fires (wordAt 0) op F u ∧ decide (F.erring ≠ none) = true)
      ∧ ∃ F u, (armed { prd := true, itr := 1 } { itr := 1 } op half).Fires (wordAt 5) op F u
          ∧ decide (F.w.pm = 5 ∧ F.prdA = true ∧ (after F u).groups.length = 1) = true := by
  have key : ∀ op ∈ [65, 66, 67, 68, 69, 70, 71, 72],
      canFire (armed {} {} op fun x => { x with consts := x.consts.set 0 1 }) (wordAt 0) op
          (fun F u => decide (1 < 2 ^ Min.min 12 (((after F u).const (F.n % 4)).toNat % 16) ∧ (after F u).groups = [])) = true
        ∧ canFire (armed {} {} op id) (wordAt 0) op (fun F u => decide (2 ^ Min.min 12 (((after F u).const (F.n % 4)).toNat % 16) = 1 ∧ F.anyNull = false
            ∧ memberErrors (after F u) F 0 [⟨0, F.keep 0 F.a, F.keep 1 F.b, true⟩] = [])) = true
        ∧ canFire (armed { nul := true } {} op id) (wordAt 0) op (fun F _ => decide (F.anyNull = true ∧ F.erring = none)) = true
        ∧ canFire (armed { err := true } {} op id) (wordAt 0) op (fun F _ => decide (F.erring ≠ none)) = true
        ∧ canFire (armed { prd := true, itr := 1 } { itr := 1 } op half) (wordAt 5) op
            (fun F u => decide (F.w.pm = 5 ∧ F.prdA = true ∧ (after F u).groups.length = 1)) = true := by decide
  intro op h
  obtain ⟨a, b, c, d, e⟩ := key op h
  exact ⟨fires a, fires b, fires c, fires d, fires e⟩
/-- Slot 0 addresses device memory, and its context has a launch of one tile. -/
def onDevice (op : Nat) : State :=
  { (armed {} {} op fun x => { x with consts := x.consts.set 0 (BitVec.ofNat 64 (2 ^ 63)) }).modHere
      (fun T => T.modCtx 0 fun x => { x with launch := some ⟨0, 0, 1, 1, 0, 0⟩ }) with
    launches := [(0, ⟨⟨0, 1, 1, 0, 0, 0, 0, 0, 0, 0, 0, 0, 0, 0⟩, [], 0, .running, 0, 0, 0, 0, 0, false, false, false, false, [], 0, []⟩)] }
/-- The checks of the request that a firing makes answer `ok`, and have met no address that no memory has. -/
def checks (op : Nat) (ok : Bool) (F : Firing) (u : State) : Bool :=
  match (u.addRequest F.g (u.newRequest F op)).checkAll F.g (u.newRequest F op) with
  | (.ok _, r) => ok && r.absent.isNone
  | (.error _, r) => !ok && r.absent.isNone
/-- An admitted instance of a block whose one node is slot 0 of element 0. -/
def anInstance : Instance := ⟨0, ⟨0, (0, 0), (0, 1), [(0, 0)], [(0, 0)]⟩, 0, 0, 0, 0, [], none, false, none⟩
def inBlock (s : State) : State := { s with blocks := [anInstance.block], insts := [anInstance] }
/-- memoryOps: outside blocks, a request whose checks pass and one whose page is missing; inside an admitted instance; with nothing of its thread
before it. -/
theorem witness_memoryOps :
    (∀ op ∈ [82, 83, 84, 85, 86, 87, 88], (∃ F u, (mapped (onDevice op)).Fires (wordAt 0) op F u ∧ checks op true F u = true)
        ∧ ∃ F u, (onDevice op).Fires (wordAt 0) op F u ∧ checks op false F u = true)
      ∧ (∀ op ∈ [80, 83, 87, 88, 91, 94], ∃ F u, (inBlock (armed {} {} op id)).Fires (wordAt 0) op F u ∧ (u.instanceOf F.g F.c F.n F.src).isSome = true)
      ∧ (∃ F u, (inBlock (armed {} {} 83 id)).Fires (wordAt 0) 83 F u ∧ (match u.checkRequest F.g (u.newRequest F 83) with
          | (.ok _, r) => r.absent.isNone | _ => false) = true)
      ∧ ∃ F u, (armed { err := true } {} 79 id).Fires (wordAt 0) 79 F u ∧ (F.erring.isSome && !(u.elem F.g).earlier F.c F.n F.src) = true := by
  have k1 : ∀ op ∈ [82, 83, 84, 85, 86, 87, 88], canFire (mapped (onDevice op)) (wordAt 0) op (checks op true) = true
      ∧ canFire (onDevice op) (wordAt 0) op (checks op false) = true := by decide
  have k2 : ∀ op ∈ [80, 83, 87, 88, 91, 94],
      canFire (inBlock (armed {} {} op id)) (wordAt 0) op (fun F u => (u.instanceOf F.g F.c F.n F.src).isSome) = true := by decide
  exact ⟨fun op h => ⟨fires (k1 op h).1, fires (k1 op h).2⟩, fun op h => fires (k2 op h), fires (by decide), fires (by decide)⟩
/-- matrixOps: room in the queue and in the FIFO of the element, and operands that are an error and null tokens. -/
theorem witness_matrixOps :
    (∀ op ∈ [95, 97], (∃ F u, (armed {} {} op id).Fires (wordAt 0) op F u ∧ decide ((u.node 0).queue.length < 64 ∧ F.erring = none ∧ F.anyNull = false) = true)
        ∧ ∃ F u, (armed { err := true } {} op id).Fires (wordAt 0) op F u ∧ F.a.any (·.token.tag.err) = true)
      ∧ (∃ F u, (armed {} {} 96 id).Fires (wordAt 0) 96 F u ∧ (F.a.any fun a => (u.node 0).feedRoom 0 ⟨a.token, a.width, a.fmt, a.blen, a.scale, 0⟩) = true)
      ∧ ∃ F u, (armed {} {} 96 id).Fires (wordAt 3) 96 F u ∧ decide (verdict F.w.pm F.prdA = .null) = true := by
  have k : ∀ op ∈ [95, 97], canFire (armed {} {} op id) (wordAt 0) op (fun F u => decide ((u.node 0).queue.length < 64 ∧ F.erring = none ∧ F.anyNull = false)) = true
      ∧ canFire (armed { err := true } {} op id) (wordAt 0) op (fun F _ => F.a.any (·.token.tag.err)) = true := by decide
  exact ⟨fun op h => ⟨fires (k op h).1, fires (k op h).2⟩, fires (by decide), fires (by decide)⟩
/-- integerReductions: two integers of format 13. -/
theorem witness_integerTerms : ∀ t ∈ [(⟨0, 0, 0, 1, 13, 1, 13⟩ : GroupTerm), ⟨1, 0, 1, 255, 13, 2, 13⟩], fmtIsInt t.f = true ∧ fmtIsInt t.h = true := by decide
/-- A token of a region of one cell, in a format that its opcode allows. -/
def mxAt (opc : Nat) (boff : BitVec 12) : MxWord :=
  ⟨if opc = 6 then 8 else if opc = 9 then 1 else if opc < 12 then 3 else 0, boff, 0, 0, 0, 0, 0, false⟩
def mxEntry : Entry := ⟨0, 0, {}⟩
/-- The node of tile 0 has one entry at its head, these owners of its first columns and these tokens in the FIFO of element 0. -/
def noded (cols : List (Nat × Column)) (fs : List Fed) : State :=
  State.reset.modNode 0 fun n => { n with queue := [mxEntry], cols := cols, fifos := [(0, fs)] }
theorem atHead {s : State} {opc : Nat} {t : MxWord} (h : decide (s.hereNode.fault = none ∧ s.hereNode.queue.head? = some mxEntry ∧ t.checkOpc opc = none
    ∧ s.absent = none) = true) : s.AtHead opc t mxEntry := by
  obtain ⟨a, b, c, d⟩ := of_decide_eq_true h
  refine ⟨a, ?_, c, d⟩
  revert b
  cases s.hereNode.queue with
  | nil => intro b; cases b
  | cons x r => intro b; cases b; exact ⟨r, rfl⟩
/-- A token of one element, of one block. -/
def fed (e : Bool) (v : BitVec 256) (blen : Nat) : Fed := ⟨⟨{ err := e }, [v]⟩, 1, 3, blen, 0, 0⟩
/-- malformedTokens: a format that is not among an opcode's, a node that has stopped, and an empty queue. -/
theorem witness_malformed : State.reset.absent = none ∧ (∀ opc < 32, (⟨9, 0, 63, 127, 63, 127, 63, true⟩ : MxWord).checkOpc opc ≠ none)
    ∧ (noded [] []).hereNode.fault = none ∧ (noded [] []).hereNode.queue = [mxEntry] ∧ State.reset.hereNode.queue = []
    ∧ ((noded [] []).modNode 0 fun n => { n with fault := some ⟨0, 0, 1, 0, 0, [], 0⟩ }).hereNode.fault ≠ none := by decide
/-- foreignColumns: the first column of the region is free. -/
theorem witness_foreign : (∀ opc ∈ [10, 11, 12, 13, 14, 16, 17, 18, 19, 25, 28], (noded [] []).AtHead opc (mxAt opc 0) mxEntry)
    ∧ (noded [] []).hereNode.column 0 ≠ .owned 0 ∧ (mxAt 12 0).n = 1 := by
  have k : ∀ opc ∈ [10, 11, 12, 13, 14, 16, 17, 18, 19, 25, 28], decide ((noded [] []).hereNode.fault = none ∧ (noded [] []).hereNode.queue.head? = some mxEntry
      ∧ (mxAt opc 0).checkOpc opc = none ∧ (noded [] []).absent = none) = true := by decide
  exact ⟨fun opc h => atHead (k opc h), by decide, by decide⟩
theorem owns {n : Node} {t : MxWord} (h : n.column 0 = .owned 0) (h0 : t.col0 = 0) (h1 : t.nm1 = 0) : Owns n t 0 := by
  intro k _ h2
  have : k = 0 := by simp only [h0, MxWord.n, h1] at h2; simpa using h2
  rw [this]; exact h
/-- multiplyTokens, dotTokens and accumulatorTokens: the column is owned, operands that fit their bank, and past it, and vectors that have come and
that have not; blocks of one width, blocks of two, and a token in error. -/
theorem witness_matrix :
    let s := noded [(0, .owned 0)] [fed false 0 1, fed false 0 1]
    let w := noded [(0, .owned 0)] []
    (∀ opc < 32, s.AtHead opc (mxAt opc 0) mxEntry ∧ w.AtHead opc (mxAt opc 0) mxEntry ∧ Owns s.hereNode (mxAt opc 0) mxEntry.tag.ctx)
      ∧ (∀ opc < 10, s.AtHead opc (mxAt opc 3072) mxEntry ∧ 3072 < (mxAt opc 3072).boff.toNat + 1)
      ∧ (mxAt 0 0).boff.toNat + ((mxAt 0 0).k * fmtBits 3 + 31) / 32 ≤ 3072 ∧ s.bCause 0 (mxAt 0 0).cols 0 1 = none
      ∧ takeVectors (s.hereNode.fifo 0) 1 1 = some [[fed false 0 1]] ∧ takeVectors (w.hereNode.fifo 0) 1 1 = none
      ∧ takeVectors (s.hereNode.fifo 0) 2 1 = some [[fed false 0 1], [fed false 0 1]] ∧ takeVectors (w.hereNode.fifo 0) 2 1 = none
      ∧ takeVector (s.hereNode.fifo 0) 1 = some [fed false 0 1] ∧ takeVector (w.hereNode.fifo 0) 1 = none
      ∧ (fed false 0 2).width ≠ (fed false 0 2).blen ∧ (fed false 0 1).width = (fed false 0 1).blen ∧ badBlock [fed false 0 1, fed false 0 2] = some 1
      ∧ badBlock [fed false 0 1, fed false 0 1] = none := by
  have k : ∀ opc < 32, decide ((noded [(0, .owned 0)] []).hereNode.fault = none ∧ (noded [(0, .owned 0)] []).hereNode.queue.head? = some mxEntry
      ∧ (mxAt opc 0).checkOpc opc = none ∧ (noded [(0, .owned 0)] []).absent = none) = true := by decide
  have k2 : ∀ opc < 32, (mxAt opc 0).col0 = 0 ∧ (mxAt opc 0).nm1 = 0 := by decide
  have k3 : ∀ opc < 10, (mxAt opc 3072).checkOpc opc = none ∧ 3072 < (mxAt opc 3072).boff.toNat + 1 := by decide
  refine ⟨fun opc h => ⟨⟨by rfl, ⟨_, by rfl⟩, (of_decide_eq_true (k opc h)).2.2.1, by rfl⟩, atHead (k opc h), owns (by decide) (k2 opc h).1 (k2 opc h).2⟩,
    fun opc h => ⟨⟨by rfl, ⟨_, by rfl⟩, (k3 opc h).1, by rfl⟩, (k3 opc h).2⟩, by decide⟩
/-- integerCells: a cell in error and one that is not. -/
theorem witness_integerCells : (({ } : Cell).err = false) ∧ ({ err := true } : Cell).err = true := by decide
/-- columnTokens: a foreign column of CALLOC, lanes that BLOAD loads and one in error, and addresses of CPARK and CFETCH off their line and on it, with
a page and without. -/
theorem witness_columns :
    let f := noded [(0, .owned 1)] []
    let p (s : State) : State := mapped s
    f.AtHead 24 (mxAt 24 0) mxEntry ∧ f.hereNode.column 0 = .owned 1 ∧ (noded [] []).hereNode.column 0 = .free
      ∧ (State.loadLanes 0 [[fed false 0 1]] 1).toOption = some [[some 0]] ∧ (State.loadLanes 0 [[fed true 0 1]] 1).toOption = none
      ∧ (fed false 64 1).token.lane 64 0 % 128 ≠ 0 ∧ (fed false 128 1).token.lane 64 0 % 128 = 0
      ∧ (match (p f).moveColumns 0 mxEntry true [0] 128 with | .ok u => u.absent.isNone | .error _ => false) = true
      ∧ (match f.moveColumns 0 mxEntry true [0] 128 with | .error e => e.2.2.absent.isNone | .ok _ => false) = true
      ∧ (match (p f).moveColumns 0 mxEntry false [0] 128 with | .ok u => u.absent.isNone | .error _ => false) = true :=
  ⟨atHead (by decide), by decide⟩
/-! ### Events of the module and the host -/

/-- startingUp, managementWrites, queueWrites, hostAccesses: a module with power and a link, before and after the end of start-up, and with neither. -/
theorem witness_module :
    let s := State.reset
    let up : State := { s with mgmt := (List.range 4).map fun d => (d, { ready := true }) }
    s.hostDown = false ∧ s.powered = true ∧ (s.mgmtOf 0).ready = false ∧ (up.mgmtOf 0).ready = true
      ∧ ({ s with hostDown := true } : State).hostDown = true ∧ ({ s with powered := false } : State).powered = false := by decide
/-- powerAndHeat: power at the limit and above it, each condition, and a shutdown. -/
theorem witness_power :
    let s := State.reset
    let limit := max 0x2580 (min 0x4B00 s.module.plim.toNat)
    ¬ limit < 0x4B00 ∧ limit < 0x4B01 ∧ (({ s with mgmt := [(3, { thr := true })] } : State).mgmtOf 3).thr = true
      ∧ (({ s with mgmt := [(3, { pcap := true })] } : State).mgmtOf 3).pcap = true ∧ ({ s with shutdown := true } : State).shutdown = true
      ∧ s.shutdown = false := by decide
/-- Every context maps the page of `leaf`. -/
def mappedAll (s : State) : State := { s with troot := Vector.replicate 4 ⟨0, true⟩, units := (List.range 4).map fun d => (d, { leaves := (List.range 4).map fun c => { leaf with ctx := c } }) }
/-- A ring of one record at address 0: enabled and empty, enabled and full, and off. -/
def ring : BitVec 128 := BitVec.ofNat 128 32
def ringFull : BitVec 128 := BitVec.ofNat 128 (32 + 2 ^ 64)
/-- A write of a record into the ring that is open reaches memory. -/
theorem ringWritten (die n v : Nat) (h : die < 4) (hn : n = 16 ∨ n = 64) : ((mappedAll State.reset).ringWrite die ring n v).isSome = true := by
  unfold State.ringWrite State.recordWrite
  generalize hc : Config.ringContext % 4 = c
  have hc4 : c < 4 := by rw [← hc]; exact Nat.mod_lt _ (by decide)
  have key : (mappedAll State.reset).ownPlace die c (ringBase ring + n * (ringTail ring % ringRecords ring)) n = (some [(.hbm, 0, n)], mappedAll State.reset)
      ∧ (mappedAll State.reset).ownPlace die c (ringBase ring + n * ringRecords ring) 8 = (some [(.hbm, n, 8)], mappedAll State.reset) := by
    rcases hn with rfl | rfl <;> interval_cases die <;> interval_cases c <;> decide
  simp only [key.1, key.2, Option.map_some, Option.isSome_some]
/-- messages and egress: a ring that is open, one that is full, one that is off, and a write that memory takes. -/
theorem witness_rings : ringOn ring = true ∧ ringOpen ring = true ∧ ringOpen ringFull = false ∧ ringOn (0 : BitVec 128) = false
    ∧ (∃ u, (mappedAll State.reset).ringWrite 0 ring 16 0 = some u) ∧ ∃ u, (mappedAll State.reset).ringWrite 0 ring 64 0 = some u :=
  ⟨by decide, by decide, by decide, by decide, Option.isSome_iff_exists.1 (ringWritten 0 16 0 (by decide) (.inl rfl)),
    Option.isSome_iff_exists.1 (ringWritten 0 64 0 (by decide) (.inr rfl))⟩
/-- managementWrites: a tile that is halted and one that is not, at the ends of their range; queueWrites: a tail that the ring holds and one it does not. -/
theorem witness_managementWrites :
    (State.reset.modTile 0 fun T => { T with halted := true }).powered = true
      ∧ ((State.reset.modTile 0 fun T => { T with halted := true }).tile (State.dieTile 0 (256 % 256))).halted = true ∧ 160 ≤ 160 % 256
      ∧ ¬ qdRecords 0 < (1 + 2 ^ 32 - qdPull 0) % 2 ^ 32 ∧ qdRecords 0 < (2 + 2 ^ 32 - qdPull 0) % 2 ^ 32 := by decide
/-- linksAndPlanes: a plane that is up and one that is down; scrubbing: a sector with an uncorrectable word, of device memory and of a data store. -/
theorem witness_links :
    let s : State := { State.reset with planesDown := [3], hbm := { badEcc := [1] } }
    2 ∉ s.planesDown ∧ 3 ∈ s.planesDown ∧ (∃ w ∈ (s.store .hbm).badEcc, w / 4 = 31 / 32) ∧ (s.store (.dataStore 0)).badEcc = [] := by decide
/-! ### Events of the core, the fabric and memory -/

/-- The tasks of tile 0. -/
def tasks (l : List (Nat × Task)) : State := State.reset.modHere fun T => { T with tasks := Vector.ofFn fun i => (SMap.get? l i.val).getD {} }
/-- Tile `t` of a running launch of `w` by one tiles from tile 0, in context 0. -/
def launched (w : Nat) (phase : LaunchPhase) : Launch := ⟨⟨0, w, 1, 0, 0, 0, 0, 0, 0, 0, 0, 0, 0, 0⟩, [], 0, phase, 0, 0, 0, 0, 0, false, false, false, false, [], 0, []⟩
def onTiles (s : State) (w : Nat) : State :=
  let s := (List.range w).foldl (fun s t => s.modTile t fun T => T.modCtx 0 fun x => { x with launch := some ⟨0, 0, 1, BitVec.ofNat 6 w, 0, 0⟩ }) s
  { s with launches := [(0, launched w .running)] }
/-- selection: a busy core, no READY task, no stalled one; a READY task in its bank, one with a free bank, and one for which the oldest makes room. -/
theorem witness_selection :
    let a := tasks [(0, { state := .ready, place := .bank 0 })]
    let b := tasks [(1, { state := .ready })]
    let c := (tasks ((List.range 8).map (fun n => (n, { state := .wait, place := .bank n, leftSeq := n })) ++ [(8, { state := .ready })])).modHere
      fun T => { T with pstall := true }
    let d := c.modNode 0 fun n => { n with cols := (List.range 128).map fun k => (k, .owned 0) }
    (∃ m < 32, (State.reset.here.task m).state = .run) ∧ State.reset.here.pstall = false
      ∧ d.here.freeBank = none ∧ (d.node 0).freeColumn [] = none ∧ (d.here.ctx 0).area = 0 ∧ d.here.pstall = true ∧ d.bankReady 0 = false ∧ c.bankReady 0 = true
      ∧ (a.here.halted = false ∧ (∀ m < 32, (a.here.task m).state ≠ .run) ∧ Claims.Selected a.here 0 ∧ (a.here.task 0).place = .bank 0)
      ∧ (Claims.Selected b.here 1 ∧ (b.here.task 1).place = .none ∧ b.here.freeBank = some 0)
      ∧ (∀ m < 32, (c.here.task m).state ≠ .run) ∧ Claims.Selected c.here 8 ∧ (c.here.task 8).place = .none ∧ c.here.freeBank = none
      ∧ Claims.Oldest c.here 0 0 ∧ ((c.node 0).freeColumn []).isSome = true ∧ c.here.pstall = true := by
  refine ⟨by decide, by decide, by decide, by decide, by decide, by decide, by decide, by decide, ⟨by decide, by decide, ?_, by decide⟩, ⟨?_, by decide, by decide⟩, by decide, ?_, by decide, by decide, ?_, by decide, by decide⟩
  · unfold Claims.Selected; decide
  · unfold Claims.Selected; decide
  · unfold Claims.Selected; decide
  · unfold Claims.Oldest
    refine ⟨by decide, by decide, fun m hm hi _ => ?_⟩
    have key : ∀ m < 32, m ≠ 0 → (((tasks ((List.range 8).map (fun n => (n, { state := .wait, place := .bank n, leftSeq := n })) ++ [(8, { state := .ready })])).modHere
        fun T => { T with pstall := true }).here.task m).place = .none ∨ 0 < (((tasks ((List.range 8).map (fun n => (n, { state := .wait, place := .bank n, leftSeq := n }))
        ++ [(8, { state := .ready })])).modHere fun T => { T with pstall := true }).here.task m).leftSeq := by decide
    rcases key m hi.1 hm with h | h
    · obtain ⟨k, hk⟩ := ‹∃ k, _›
      rw [h] at hk; cases hk
    · exact h
/-- arrivals: an empty input, and a beat of a bound colour behind one of a colour that is not. -/
theorem witness_arrivals :
    let b : Beat := {}
    let e : Beat := { tag := { col := 1 } }
    let s := ((bound [1] []).modHere fun T => { T with held := [b, e] }).modCur fun k => { k with state := .wait, waiting := .monitor }
    State.reset.here.held = [] ∧ s.here.held = [b] ++ e :: [] ∧ s.here.binding 0 0 = none ∧ s.here.binding 0 1 = some 0
      ∧ (s.here.task 0).state = .wait ∧ (s.here.task 0).waiting ∉ [.engine, .barrier, .nothing] := by decide
/-- stealing: an idle Surveyor beside a tile of its launch with a stealable task. -/
theorem witness_stealing :
    let s := (onTiles (tasks []) 2).modTile 1 fun T => T.setTask 3 { state := .ready, stealable := true }
    let s := (s.modTile 0 fun T => T.modCtx 0 fun x => { x with lw := 1 }).modTile 1 fun T => T.modCtx 0 fun x => { x with lw := 1 }
    s.here.halted = false ∧ (∀ i < 32, (s.here.task i).state ≠ .run ∧ (s.here.task i).state ≠ .ready) ∧ s.here.freeBank = some 0 ∧ s.here.freeTask = some 0
      ∧ s.stealFrom 0 0 = some (1, 3) ∧ ((s.tile 1).task 3).place = .none ∧ s.absent = none := by decide
/-- tileCompletions: a tile that is not quiet, one that completes for its launch while another has not, and the last. -/
theorem witness_tileCompletions :
    let busy := onTiles State.reset 1
    let two := onTiles (tasks []) 2
    let one := onTiles (tasks []) 1
    busy.tileQuiet 0 0 = false ∧ busy.lidOf 0 0 = some 0 ∧ busy.launch 0 = some (launched 1 .running) ∧ two.tileQuiet 0 0 = true ∧ two.lidOf 0 0 = some 0
      ∧ two.launch 0 = some (launched 2 .running) ∧ State.rectangle 0 0 2 1 = [0, 1] ∧ one.tileQuiet 0 0 = true ∧ State.rectangle 0 0 1 1 = [0] := by decide
/-- offers: a source that nothing accepts; one operand slot that accepts, for a token, and for a header of R52. -/
theorem witness_offers :
    let b : Beat := {}
    let h : Beat := { tag := { hdr := true } }
    let s (b : Beat) := (State.reset.modHere fun T => { T with inForce := [0], down := [(0, { beats := [b] })] })
    let a (b : Beat) := (s b).modEctx 0 0 fun x => x.setSlot 0 { opw := BitVec.ofNat 32 (13 * 2 ^ 18 + 15 * 2 ^ 14) }
    ((s b).source 0 5 0 0).beats = [b] ∧ ((s b).source 0 5 0 0).taken = [] ∧ (s b).inForce 0 0 = true ∧ (s b).drained 0 5 0 0 = false
      ∧ (s b).takers 0 5 0 0 = [] ∧ State.acceptors ((a b).ectx 0 0) 5 0 = [(0, 0)] ∧ (a b).takers 0 5 0 0 = [State.takerKey 0 5 0]
      ∧ b.tag.isHeader = false ∧ b.tag.last = true ∧ ((a b).ectx 0 0).operands = [] ∧ (a b).spawned = []
      ∧ State.completes ((a b).ectx 0 0) 0 0 0 (Claims.State.arriving (a b) 0 0 0 0 b) = true ∧ h.tag.isHeader = true ∧ (a h).takers 0 5 0 0 = [State.takerKey 0 5 0] := by decide
/-- takeBacks: the oldest of two spilled tokens, whose record can be read. -/
theorem witness_takeBacks :
    let o (n : Nat) : Operand := { held 0 0 {} n with entries := 0, ring := true, spilled := [n] }
    let s := mapped (onTiles ((State.reset.modHere fun T => { T with inForce := [0] }).modEctx 0 0 fun x => { x with operands := [o 1, o 0] }) 1)
    (State.oldestSpilled (s.ectx 0 0)) = some (o 0) ∧ s.lidOf 0 0 = some 0 ∧ s.launch 0 = some (launched 1 .running) ∧ s.inForce 0 0 = true
      ∧ State.entriesUsed (s.ectx 0 0) + 1 ≤ (s.ectx 0 0).allot ∧ (s.ringBad 0 0 (launched 1 .running) [0]).1 = none
      ∧ (s.ringBad 0 0 (launched 1 .running) [0]).2.absent = none := by decide
/-- recoveries: a launch that holds a record, and one that holds none; a lowered source that has been calm for 1,024 cycles, and one for 1,023. -/
theorem witness_recoveries :
    let s (c : Nat) := ((onTiles State.reset 1).modHere fun T => { T with cycle := BitVec.ofNat 64 c }).modEctx 0 0 fun x => { x with throttles := [(0, ⟨1, 0, 0⟩)] }
    (s 1024).launchAt 0 0 = some (launched 1 .running) ∧ (launched 1 .running).held = [] ∧ SMap.get? ((s 1024).ectx 0 0).throttles 0 = some ⟨1, 0, 0⟩
      ∧ 1024 ≤ ((s 1024).here.cycle - 0).toNat ∧ ((s 1023).here.cycle - 0).toNat < 1024
      ∧ (let t : State := { onTiles State.reset 1 with launches := [(0, { launched 1 .running with held := [0] })] }
         (t.launchAt 0 0).map (·.held) = some [0]) := by decide
/-- iterations: a running loop whose next iteration is its last one, and one that has none left. -/
theorem witness_iterations :
    let s (l : Loop) := (State.reset.modHere fun T => { T with inForce := [0] }).modEctx 0 0 fun x => { x with loops := [l] }
    let next : Loop := { aLoop with next := 3, live := [0] }
    let done : Loop := { aLoop with next := 4, live := [] }
    ((s next).ectx 0 0).loop 0 = some next ∧ (s next).inForce 0 0 = true ∧ ((s next).ectx 0 0).stopped = false ∧ ((s next).ectx 0 0).bad = false
      ∧ next.running = true ∧ next.next < next.bound ∧ next.stop = none ∧ (s next).launchAt 0 0 = none ∧ next.next < next.lowest + ((s next).ectx 0 0).eff 0
      ∧ (s next).room 0 0 0 0 0 ⟨{}, [0]⟩ = true ∧ ((s done).ectx 0 0).loop 0 = some done ∧ done.next ≥ done.bound ∧ done.live = []
      ∧ (s done).room 0 0 1 0 0 ⟨{}, [0]⟩ = true := by decide
/-- forwards: an enabled entry whose source has a beat and whose port has room and is free, alone, and behind one of a lower number. -/
theorem witness_forwards :
    let b : Beat := {}
    let s := (routed (State.reset.modHere fun T => { T with inForce := [0] })).modElem 0 fun e => { e with ports := [(128 * 6, { beats := [b] })] }
    SMap.get? (s.elem 0).switch 0 = some 0x0681#16 ∧ swEn 0x0681#16 = true ∧ swFrom 0x0681#16 ≠ 4 ∧ s.inForce 0 0 = true ∧ s.drained 0 6 0 0 = false
      ∧ (s.source 0 6 0 0).beats = [b] ∧ (s.source 0 6 0 0).taken = [] ∧ maskPorts (swTo 0x0681#16) = [0] ∧ SMap.get? (s.elem 0).busy 0 = none
      ∧ (s.edge 0 0 0 0).beats.length < (s.edge 0 0 0 0).depth ∧ State.portHeld (s.elem 0) 0 = false ∧ ¬ Claims.Outranks s 0 0 0x0681#16
      ∧ (let t := s.modElem 0 fun e => { e with switch := [(0, 0x0681#16), (1, 0x0681#16)] }
         SMap.get? (t.elem 0).switch 1 = some 0x0681#16 ∧ Claims.Outranks t 0 1 0x0681#16) := by
  refine ⟨by decide, by decide, by decide, by decide, by decide, by decide, by decide, by decide, by decide, by decide, by decide, ?_, by decide,
    0, 0x0681#16, {}, by decide, by decide, ⟨0, by decide, by decide⟩, by decide, by decide, .inr ⟨by decide, .inr ⟨?_, by decide⟩⟩⟩
  · rintro ⟨e, v, _, h, h0, _⟩
    exact h0 (by simpa using (Prod.ext_iff.1 (List.mem_singleton.1 h)).1)
  · rintro ⟨pre, post, h, -⟩
    have h' : ([] : List Nat) = pre ++ 1 :: post := h
    simp at h'
/-- depthChanges: a held EDGEDEPTH whose edge has a beat, and one whose edge is empty. -/
theorem witness_depthChanges :
    let k : Taken := { word := .edgedepth 1 2 3, a := 0, b := 1 }
    let s := State.reset.modCur fun x => { x with taken := some k }
    (s.here.task 0).state = .run ∧ (s.here.task 0).taken = some k ∧ (s.edge 0 0 0 0).beats = [] ∧ ((crowded s).here.task 0).taken = some k
      ∧ ((crowded s).edge 0 0 0 0).beats ≠ [] := by decide
/-- admissions: a token at the entry of a block. -/
theorem witness_admissions :
    let s : State := { armed {} {} 0 id with blocks := [anInstance.block] }
    s.blockEntered 0 0 0 = some anInstance.block ∧ (∃ F u, (s.focusSlot 0 0 0).Fires (opFields (s.slotWord 0 0 0)) (opNum (s.slotWord 0 0 0)) F u ∧ true = true)
      ∧ ((s.fireSlot 0 0 0).map fun z => z.absent) = some none :=
  ⟨by decide, fires (by decide), by decide⟩
/-- commits: an instance before its exit, one that can commit, and one with an exception. -/
theorem witness_commits :
    let s (i : Instance) : State := { State.reset with insts := [i] }
    let x : Instance := { anInstance with atExit := true }
    let f : Instance := { x with cause := some (3, 0) }
    (s anInstance).insts.find? (·.id == 0) = some anInstance ∧ (s x).insts.find? (·.id == 0) = some x ∧ x.cause = none
      ∧ (match ((s x).commitAll (x.buffer.length + 1) x.buffer).1 with | .done u => u.absent.isNone | _ => false) = true ∧ (s f).insts.find? (·.id == 0) = some f := by decide
/-- A request of operation `op` at element 0, context 0, slot 0. -/
def aReq (op : Nat) (st : ReqState) : Request :=
  { id := 0, ctx := 0, slot := 0, op := op, w := wordAt 0, ctl := 0, tag := {}, src := {}, prdA := false, a0 := 0, a1 := 0, b0 := 0, data := 0
    bytes := 4, bfmt := 0, rfmt := 0, rwid := 1, pass := ⟨{}, [0]⟩, state := st }
def requesting (q : Request) : State := State.reset.modElem 0 fun e => { e with reqs := [q] }
/-- performances: the first store to its home, and one behind it; an SLD whose word is empty, one whose word is full, and one whose region is frozen. -/
theorem witness_performances :
    let f (n : Nat) : InFlight := ⟨n, .hbm, 0, 8, 1, false⟩
    let s : State := { State.reset with inflight := [f 1, f 2] }
    let e := requesting (aReq 85 .pending)
    let full := e.modElem 0 fun x => { x with store := { full := [0] } }
    s.absent = none ∧ s.inflight[0]? = some (f 1) ∧ s.inflight[1]? = some (f 2) ∧ State.homeOf (f 1).space (f 1).addr = State.homeOf (f 2).space (f 2).addr
      ∧ inAperture 0 = false ∧ e.regionFrozen 0 0 = false ∧ (e.modEctx 0 0 fun x => { x with stopped := true }).regionFrozen 0 0 = true
      ∧ e.request? 0 0 = some (aReq 85 .pending) ∧ (e.checkAll 0 (aReq 85 .pending)).1.toOption = some [(.localMem 0, 0, 4)]
      ∧ (e.piecesHome (elemAgent 0) [(.localMem 0, 0, 4)]).allFull [(.localMem 0, 0, 4)] = false
      ∧ (full.piecesHome (elemAgent 0) [(.localMem 0, 0, 4)]).allFull [(.localMem 0, 0, 4)] = true
      ∧ (full.piecesHome (elemAgent 0) [(.localMem 0, 0, 4)]).piecesCause [(.localMem 0, 0, 4)] = none ∧ full.instanceOf 0 0 0 {} = none := by decide
/-- replies: of a load, and of an ALDR to its consumer. -/
theorem witness_replies :
    let t : Token := ⟨{}, [0]⟩
    let s := requesting (aReq 79 (.performed t))
    let d := onTiles (requesting (aReq 84 (.performed t))) 1
    s.request? 0 0 = some (aReq 79 (.performed t)) ∧ (s.elem 0).earlier 0 0 {} = false ∧ s.room 0 0 0 0 0 t = true
      ∧ d.request? 0 0 = some (aReq 84 (.performed t)) ∧ d.consumer 0 (aReq 84 (.performed t)) = some 0 := by decide
/-- A statement of scope 0 with one slot of 4 bytes and reference count 1, and its context's stall bound of 5 cycles. -/
def aFold : Descriptor := { ctx := 0, s := 0, lay := ⟨0, 1, 0, 4, [1], [], 1, 5⟩ }
/-- namedAccesses: a write to an empty slot and to a full one of a lower stamp; reads of the stamp that is there, and of one that is to come. -/
theorem witness_named :
    let s (op a : Nat) (h : NameHdr) : State :=
      { (requesting { aReq op .pending with a0 := a }).modElem 0 (fun e => { e with names := [(0, h)] }) with folds := [aFold] }
    (s 80 0 {}).fold? 0 (stampS 0) = some aFold ∧ aFold.lay.line (aFold.lay.slotOf (aFold.lay.normal 0)) = 0 ∧ aFold.lay.normal 0 = 0
      ∧ (s 80 0 {}).request? 0 0 = some { aReq 80 .pending with a0 := 0 } ∧ (s 80 0 {}).inflight = [] ∧ (s 80 0 {}).instanceOf 0 0 0 {} = none
      ∧ SMap.getD ((s 79 0 ⟨1, 1, 0⟩).elem 0).names 0 {} = ⟨1, 1, 0⟩ ∧ ((s 79 0 ⟨1, 1, 0⟩).elem 0).store.readCause 0 4 = none
      ∧ 0 < aFold.lay.normal (2 ^ 39) ∧ aFold.lay.line (aFold.lay.slotOf (aFold.lay.normal (2 ^ 39))) = 0
      ∧ (s 80 (2 ^ 39) ⟨1, 1, 0⟩).fold? 0 (stampS (2 ^ 39)) = some aFold ∧ (s 80 (2 ^ 39) ⟨1, 1, 0⟩).regionFrozen 0 0 = false := by decide
/-- stalls: a wait of as many cycles as the bound, and of one more. -/
theorem witness_stalls :
    let s (n : Nat) : State := { (requesting (aReq 79 (.waiting 0))).modHere (fun T => { T with cycle := BitVec.ofNat 64 n }) with folds := [aFold] }
    (s 5).request? 0 0 = some (aReq 79 (.waiting 0)) ∧ (s 5).fold? 0 (stampS 0) = some aFold ∧ (s 5).insts = [] ∧ ((s 5).here.cycle - 0).toNat ≤ aFold.lay.bound
      ∧ aFold.lay.bound < ((s 6).here.cycle - 0).toNat ∧ (s 6).instanceOf 0 0 0 {} = none := by decide
/-- chainRequests and chainReleases: a position that is not expected yet, a skip request, a store to a local memory; a marked chain, busy and not. -/
theorem witness_chains :
    let k : Chain := ⟨0, 0, 0, 0, 0, 0, true⟩
    let s (q : Request) (k : Chain) : State := (requesting q).modHere fun T => { T with chains := [k] }
    let q := aReq 83 .pending
    (s q k).request? 0 0 = some q ∧ (s q k).here.chains = [] ++ k :: [] ∧ q.chainOf k = true ∧ k.ei = q.src.itr.toNat ∧ k.es = q.seqNo ∧ q.skip = false
      ∧ q.parts = none ∧ q.off = 0 ∧ q.seqNo < ({ k with es := 1 } : Chain).es ∧ (s q { k with es := 1 }).instanceOf 0 0 0 {} = none
      ∧ (s q k).checkAll 0 q = (.ok [(.localMem 0, 0, 4)], s q k) ∧ (s q { k with ei := 1 }).here.chains = [{ k with ei := 1 }]
      ∧ (s { q with skip := true } k).request? 0 0 = some { q with skip := true } ∧ ((State.reset.modHere fun T => { T with chains := [k] }).tile 0).chains[0]? = some k
      ∧ (∀ e < 64, ((State.reset.modHere fun T => { T with chains := [k] }).elem e).reqs = []) ∧ (isChained q.op && q.state.live && q.chainOf k) = true := by
  refine ⟨by decide, by decide, by decide, by decide, by decide, by decide, by decide, by decide, by decide, by decide, by rfl, by decide⟩
/-- walks: a context that is off; tables at 0, 65536, 131072 and 196608, one entry in each. -/
theorem witness_walks :
    let m : Memory := [(2, 1), (7, 0x80), (65538, 2), (65543, 0x80), (131074, 3), (131079, 0x80), (196615, 0x81)]
    let s : State := { State.reset with hbm := { bytes := m }, troot := State.reset.troot.set 0 ⟨0, true⟩ }
    let w (a : Nat) : BitVec 64 := BitVec.ofNat 64 (s.bytesAt .hbm a 8)
    s.absent = none ∧ (s.unit 0).ptrs = [] ∧ s.troot[0].en = true ∧ pteAddr (w 0) = 65536 ∧ pteAddr (w 65536) = 131072 ∧ pteAddr (w 131072) = 196608
      ∧ (∀ a ∈ [0, 65536, 131072, 196608], a + 8 ≤ hbmReach ∧ pteV (w a) = true) ∧ (∀ a ∈ [0, 65536, 131072], pteLeaf (w a) = false) ∧ pteLeaf (w 196608) = true
      ∧ (∀ g, (s.elem g).owner = []) ∧ State.reset.troot[0].en = false := by
  refine ⟨by decide, by decide, by decide, by decide, by decide, by decide, by decide, by decide, by decide, fun _ => rfl, by decide⟩
/-- referrals: the one owner of a line. -/
theorem witness_referrals :
    let s := State.reset.modElem 0 fun e => { e with owner := [⟨0, 1⟩] }
    (s.elem 0).owner.find? (·.line == 0) = some ⟨0, 1⟩ ∧ (∀ h, h ≠ 0 → (s.elem h).owner = []) ∧ inAperture (32 * 0) = false := by
  refine ⟨by decide, fun h hh => ?_, by decide⟩
  rw [State.elem_modElem_of_ne _ _ hh]; rfl
/-- activations, insertions, frontiers and watermarks: a pending datum request at a page of cells; an active cell that accepts an update of its
domain; a frontier of a producer of the domain; a watermark that the keeper has formed. -/
theorem witness_datum :
    let q := { aReq 91 .pending with data := 1, a1 := 7 }
    let s := cellPage (requesting q)
    let k : DatumCell := ⟨0, 0, 0, 0, false, true, 0, 0, [], 0⟩
    let d : Domain := { p := 1, formed := [5] }
    let c : State := { s with cells := [k], domains := [(0, d)] }
    let f : State := { requesting (aReq 94 .pending) with domains := [(0, d)] }
    s.elems = [(0, s.elem 0)] ∧ (s.elem 0).reqs = [q] ∧ s.cellPlace 0 0 0 false false = (.ok 0, s) ∧ s.cell? 0 = none ∧ s.hbm.readCause 0 64 = none ∧ s.cells = []
      ∧ c.request? 0 0 = some q ∧ (c.cellPlace 0 0 0 true false).1.toOption = some 0 ∧ (c.cellPlace 0 0 0 true false).2.absent = none
      ∧ (c.cellPlace 0 0 0 true false).2.cell? 0 = some k ∧ classAccepts k.cls (State.updateOf q).op = true ∧ k.hist.length < k.hm1 + 1
      ∧ f.request? 0 0 = some (aReq 94 .pending) ∧ SMap.get? f.domains 0 = some d ∧ 0 < d.p ∧ (f.elem 0).reqs = [aReq 94 .pending]
      ∧ d.formed = [] ++ 5 :: [] ∧ SMap.get? f.unitWm (256 * 0 + 3) = none := by
  refine ⟨by decide, by decide, by rfl, by decide⟩
/-- emulatedPolls: an emulated WAITV whose word is as it was, and one whose word has changed. -/
theorem witness_polls :
    let k (b : Word) : Taken := { word := .waitv 1 2 3 0, a := 8, b := b, begun := 1 }
    let s (b : Word) := mapped (State.reset.modCur fun x => { x with taken := some (k b) })
    ((s 0).here.task 0).state = .run ∧ ((s 0).here.task 0).taken = some (k 0)
      ∧ (((s 0).probe 0 0 8 8 { read := true, write := true, farOk := true }).1.toOption = some (.hbm, 8))
      ∧ (((s 0).atHome (taskAgent 0 0) none .hbm 8 8).absent = none) ∧ (((s 0).atHome (taskAgent 0 0) none .hbm 8 8).store .hbm).readCause 8 8 = none
      ∧ word (((s 0).atHome (taskAgent 0 0) none .hbm 8 8).bytesAt .hbm 8 8) = 0 ∧ (1 : Word) ≠ 0 := by decide
/-! ### Words that end, streams, launches, containment, save and restore -/

/-- Task 1 of tile 0 waits for the engine that has its word. -/
def holding (k : Taken) : State := State.reset.modHere fun T => T.setTask 1 { state := .wait, waiting := .engine, taken := some k }
theorem holds {k : Taken} (h : k.cause = none) : Claims.Holds (holding k) 0 1 k := ⟨by decide, h, by rfl, by rfl, by rfl⟩
/-- A check record of statement 0 with a box of E_0 positions. -/
def checkRecord (e0 w : Nat) : Nat := e0 * 2 ^ 32 + 2 ^ 48 + 2 ^ 64 + 2 ^ 80 + w * 2 ^ 96
/-- foldEnds: no descriptor, an idle one, a growing one, a busy one; a record that is refused, a box whose two positions lie in different slots, and
one whose positions share a slot. -/
theorem witness_foldEnds :
    let drop : Taken := { word := .fdrop 1 2 ⟨false, false, 0⟩ }
    let stat (b : Word) : Taken := { word := .fstat 1 2 3 ⟨false, false, 0⟩, b := b }
    let chk (b r : Nat) : Taken := { word := .fcheck 1 2 ⟨false, false, 0⟩, begun := b, record := r }
    let one (s : State) : State := { s with folds := [aFold] }
    (holding drop).absent = none ∧ Claims.Holds (holding drop) 0 1 drop ∧ Claims.Holds (holding (stat 0)) 0 1 (stat 0) ∧ (holding drop).fold? 0 0 = none
      ∧ (one (holding drop)).fold? 0 0 = some aFold ∧ aFold.growing = false ∧ (one (holding drop)).foldBusy 0 0 = false
      ∧ ({ one (holding drop) with elems := [(0, { reqs := [aReq 79 (.waiting 0)] })] } : State).foldBusy 0 0 = true
      ∧ (∀ b ∈ [0, 1, 2, 5, 6, 8], Claims.Holds (one (holding (stat b))) 0 1 (stat b))
      ∧ Claims.Holds (holding (chk 0 0)) 0 1 (chk 0 0) ∧ checkRecordOk 0 = false ∧ checkRecordOk (checkRecord 2 1) = true
      ∧ (holding (chk 0 (checkRecord 2 1))).fold? 0 (recordS (checkRecord 2 1)) = none
      ∧ Claims.Holds (one (holding (chk 2 (checkRecord 2 1)))) 0 1 (chk 2 (checkRecord 2 1))
      ∧ (one (holding (chk 2 (checkRecord 2 1)))).fold? 0 (recordS (checkRecord 2 1)) = some aFold ∧ 2 / 2 = aFold.serial + 1
      ∧ ((one (holding (chk 2 (checkRecord 2 1)))).ddEngine 0).fail = false
      ∧ conflict aFold.lay (checkRecord 2 1) = none ∧ conflict aFold.lay (checkRecord 2 2) = some (0, 1)
      ∧ conflict { aFold.lay with m := [2] } (checkRecord 2 2) = none :=
  ⟨by decide, holds rfl, holds rfl, by decide, by decide, by decide, by decide, by decide, fun _ _ => holds rfl, holds rfl, by decide, by decide, by decide, holds rfl,
    by decide⟩
/-- datumEnds: a DATUM record with no cells, with and without its domain; DWMARK of a producer past the last, of one while another is behind, and a
release before and after every producer has ended. -/
theorem witness_datumEnds :
    let r (p : Nat) : Nat := 256 + p * 2 ^ 24
    let new : Taken := { word := .dsetupNew 1 2 3, record := r 2 }
    let add : Taken := { word := .dsetupAdd 1 2 3, record := r 2, b := 1 }
    let mark (a : Word) : Taken := { word := .dwmarkPost 1 2 3, a := a, b := 9 }
    let on (x : Domain) (k : Taken) : State := { holding k with domains := [(0, x)] }
    let x : Domain := { p := 2 }
    let e : Domain := { p := 1, f := [(0, 2 ^ 64 - 1)] }
    (holding new).absent = none ∧ Claims.Holds (holding new) 0 1 new ∧ datumOk (r 2) = true ∧ datumOk 0 = false ∧ datumCount (r 2) = 0
      ∧ new.b.getLsbD 0 = false ∧ add.b.getLsbD 0 = true ∧ SMap.get? (holding new).domains (datumDom (r 2)) = none
      ∧ Claims.Holds (on x add) 0 1 add ∧ SMap.get? (on x add).domains (datumDom (r 2)) = some x ∧ x.p = datumP (r 2) ∧ x.p ≠ datumP (r 3)
      ∧ (∀ a ∈ [0, 512, 65536, 131072], Claims.Holds (on x (mark a)) 0 1 (mark a)) ∧ x.p ≤ (512#64).toNat / 256 % 256
      ∧ (∃ q < x.p, q ≠ 0 ∧ SMap.getD x.f q 0 = 0) ∧ x.wv = false ∧ (∃ q < x.p, SMap.getD x.f q 0 ≠ 2 ^ 64 - 1)
      ∧ (∀ q < e.p, SMap.getD e.f q 0 = 2 ^ 64 - 1) ∧ (on e (mark 65536)).waitsOn 0 = [] ∧ (on { e with p := 0 } (mark 65536)).marksReached 0 0 = true
      ∧ (∀ q < ({ e with p := 0 } : Domain).p, SMap.getD e.f q 0 = 2 ^ 64 - 1) :=
  ⟨by decide, holds rfl, by decide, by decide, by decide, by decide, by decide, by decide, holds rfl, by decide, by decide, by decide, fun _ _ => holds rfl, by decide⟩
/-- ddEnds: forms 1, 2 and 3 at an engine that serves the context, and at one that does not. -/
theorem witness_ddEnds :
    let k (a : Word) : Taken := { word := .ddcollReset 1 2 3 ⟨false, false, 0⟩, a := a, pair := some (0x20, 0) }
    let s := holding (k 1)
    -- a word of task 2 that came before it
    let j : Taken := { k 2 with order := 0 }
    let l : Taken := { k 1 with order := 1 }
    let two := (holding l).modHere fun T => T.setTask 2 { state := .wait, waiting := .engine, taken := some j }
    (∀ a, Claims.Holds (holding (k a)) 0 1 (k a)) ∧ s.absent = none ∧ (s.ddEngine 0).ctxm.getLsbD 0 = true ∧ (s.ddEngine 0).fail = false
      ∧ (k 1).run = none ∧ (∀ x ∈ s.ddWords 0, (k 1).order ≤ x.order) ∧ (∃ x ∈ two.ddWords 0, x.order < l.order ∧ l.a.toNat % 4 < 2)
      ∧ ({ s with dd := [(0, { ctxm := 0 })] } : State).ddEngine 0 = { ctxm := 0 } :=
  ⟨fun _ => holds rfl, by decide⟩
/-- copies: a copy of one byte, its one segment not performed and performed. -/
theorem witness_copyEvents :
    let z (segs : NSet) : Copy := { form := 0, src := 0, dst := 0, ver := 0, sup := true, sync := none, order := 0, segs := segs }
    let s (z : Copy) : State := mapped (State.reset.modHere fun T => T.modCtx 0 fun x => { x with copies := [(3, z)] })
    SMap.get? (((s (z [])).tile 0).ctx 0).copies 3 = some (z []) ∧ (z []).st.fin = false ∧ (z []).st.canc = false ∧ (z []).st.flt = false ∧ 0 ∉ (z []).segs
      ∧ 0 < State.copySegs (z []) ∧ State.copyTurn (((s (z [])).tile 0).ctx 0) (z []) = true ∧ (s (z [])).stoppedForSave 0 0 = false
      ∧ ((s (z [])).runSegment 0 0 (z []) 0).2.2.2.absent = none ∧ State.copySegs (z [0]) = 1 ∧ SMap.get? (((s (z [0])).tile 0).ctx 0).copies 3 = some (z [0])
      ∧ Claims.NoTickets (s (z [0])) 0 := by
  unfold Claims.NoTickets
  decide
/-- streams: one that may start, one that is blocked by an earlier one; an out-stream with a beat at its port, with a whole null token, and one
that has all its tokens. -/
theorem witness_streamEvents :
    let z : Stream := { elem := 0, out := true, port := 5, col := 0, itr0 := 0, trav := 0, sup := true, per := 1, order := 1, phase := 0 }
    let y : Stream := { z with order := 0 }
    let s (l : List (Nat × Stream)) : State := State.reset.modHere fun T => { T.modCtx 0 fun x => { x with streams := l } with down := [(0, { beats := [{}] })] }
    let g : Stream := { z with going := true }
    let w : Stream := { g with whole := true, hand := [0], tag := { nul := true } }
    SMap.get? (((s [(2, z)]).tile 0).ctx 0).streams 2 = some z ∧ z.st.fin = false ∧ z.going = false ∧ State.streamBlocked (((s [(2, z)]).tile 0).ctx 0) z = false
      ∧ State.streamBlocked (((s [(1, y), (2, z)]).tile 0).ctx 0) z = true ∧ g.out = true ∧ g.count < State.streamTokens g ∧ g.held = false
      ∧ (s [(2, g)]).atBoundary 0 5 0 0 = true
      ∧ ((s [(2, g)]).modHere fun T => { T with down := [(0, { beats := [{}], inside := true })] }).atBoundary 0 5 0 0 = false
      ∧ (s [(2, g)]).stoppedForSave 0 0 = false ∧ g.st.canc = false ∧ g.whole = false ∧ ((s [(2, g)]).source 0 5 0 0).beats = [{}]
      ∧ ({} : Beat).tag.isHeader = false ∧ w.whole = true ∧ w.tag.nul = true ∧ State.streamTokens g ≤ ({ g with count := 1 } : Stream).count
      ∧ Claims.NoTickets (s [(2, g)]) 0 := by
  unfold Claims.NoTickets
  decide
/-- egress: a waiting EGPOST with room and with none; the one record of a session, held and released, and an open ring. -/
theorem witness_egressEvents :
    let k : Taken := { word := .egpost 1 2 ⟨false, false, 0⟩ }
    let s : State := State.reset.modHere fun T => T.setTask 1 { state := .wait, waiting := .ticket, taken := some k }
    let full : State := { s with egress := List.replicate 64 ⟨0, 0, 0, .held⟩ }
    let r : EgRecord := ⟨0, 5, 0, .released⟩
    let d : State := { (mapped State.reset).modMgmt 0 fun m => { m with egring := 0x20 } with egress := [r], fresh := 0 }
    k.cause = none ∧ ((s.tile 0).task 1).state = .wait ∧ ((s.tile 0).task 1).waiting = .ticket ∧ ((s.tile 0).task 1).taken = some k ∧ s.egLate 0 = false
      ∧ s.egRoom 0 = true ∧ full.egLate 0 = false ∧ full.egRoom 0 = false ∧ d.session 0 = [r] ∧ r.hold ≠ .held ∧ ringOn (d.mgmtOf 0).egring = true
      ∧ ringOpen (d.mgmtOf 0).egring = true ∧ (State.reset.mgmtOf 0).egring = 0 ∧ ringOn 0 = false := by decide
/-- collectiveEvents: a rank whose result is known, in a page; a key of one rank and a key of none. -/
theorem witness_collectiveEvents :
    let x : Coll := { gid := 7, seq := 1, op := 0, red := 0, fmt := 0, root := 0, rank := 0, n := 1, count := 1, k := 0, src := 0, dst := 0, gtab := 0, sup := true, sync := none,
                      out := some 5 }
    let s : State := mapped (State.reset.modHere fun T => T.modCtx 0 fun y => { y with colls := [(4, x)] })
    s.absent = none ∧ SMap.get? ((s.tile 0).ctx 0).colls 4 = some x ∧ x.st.fin = false ∧ (s.enginePlace (tileDie 0) 0 x.sup x.dst x.dstBytes).1 = some [(.hbm, 0, x.dstBytes)]
      ∧ inAperture 0 = false ∧ s.ranksOf 7 1 = [(0, 0, 4, x)] ∧ s.ranksOf 7 2 = [] := by decide
/-- pulls: a queue that is off, one with a record that breaks its limits, and one whose record may run. -/
theorem witness_pulls :
    let v : BitVec 128 := 0x120#128 <<< 0 ||| (1#128 <<< 96)
    let s (bytes : Memory) : State := { (mapped State.reset).modMgmt 0 fun m => { m with qdesc := [(0, v)] } with hbm := { bytes := bytes } }
    let good : Memory := [(0, 9), (4, 1), (5, 1), (7, 10)]
    qdOn (State.reset.queue 0 0) = false ∧ (s []).queue 0 0 = v ∧ qdOn v = true ∧ qdPull v ≠ qdTail v
      ∧ ((s []).ownRead 0 (qdCtx v) (qdBase v + 64 * (qdPull v % qdRecords v)) 64).1 = some 0 ∧ (recordOf 0).ok = false
      ∧ (∃ r, ((s good).ownRead 0 (qdCtx v) (qdBase v + 64 * (qdPull v % qdRecords v)) 64).1 = some r ∧ r < 2 ^ 512 ∧ (recordOf r).ok = true ∧ r / 2 ^ 472 = 0
        ∧ (recordOf r).ndeps = 0 ∧ r % 2 ^ 32 ∉ (s good).module.refused)
      ∧ (∀ x ∈ (s good).launches, x.1 < (s good).serial) :=
  ⟨by decide, by decide, by decide, by decide, by decide, by decide, ⟨Memory.readN [(0, 9), (4, 1), (5, 1), (7, 10)] 0 64, by decide⟩, by decide⟩
/-- aging: one cycle before the first rise, and at it. -/
theorem witness_aging :
    let l := launched 1 .eligible
    let s (n : Nat) : State := { State.reset.modTile (State.schedulerTile 0) fun T => { T with cycle := BitVec.ofNat 64 n } with launches := [(0, l)] }
    (s 0).launch 0 = some l ∧ l.phase = .eligible ∧ l.die = 0 ∧ 262144 * (l.rises + 1) ≤ (((s 262144).tile (State.schedulerTile 0)).cycle - l.since).toNat
      ∧ ¬ 262144 * (l.rises + 1) ≤ (((s 262143).tile (State.schedulerTile 0)).cycle - l.since).toNat := by decide
/-- placements: a record of one tile whose image has no blocks. -/
theorem witness_placements :
    let l := launched 1 .eligible
    let s : State := mapped { State.reset with launches := [(0, l)] }
    let l' : Launch := { l with phase := .running, det := false }
    s.mayPass (s.heldDies 0) 0 (s.considered 0) = some (l, 0, 0) ∧ l.info.text = 0 ∧ l.info.data = 0 ∧ l.info.ctx = 0 ∧ State.rectangle 0 0 l.info.w l.info.h = [0]
      ∧ (l.info.det || (l.info.mok && ((s.tile 0).ctx 0).det)) = false
      ∧ (({ s with fresh := s.fresh + 1, launches := SMap.set s.launches 0 l' } : State).placeTiles 0 l' none none
          (((Config.jumpMarks s.fresh).map (· % 32768)).foldl NSet.insert []) [0]).isSome = true := by decide
/-- moves: no record asks for it; a record of all tiles does, of another image, before and after the launch has stopped its sources. -/
theorem witness_moves :
    let x : Launch := { launched 1 .eligible with info := ⟨1, 32, 20, 8, 0, 0, 1, 0, 0, 0, 0, 0, 0, 0⟩ }
    let l (m : Bool) : Launch := { launched 1 .running with moving := m }
    let s (m : Bool) : State :=
      { (onTiles State.reset 1).modTile 1 (fun T => { T with tasks := Vector.replicate 32 {} }) with launches := [(0, l m), (1, x)] }
    (onTiles State.reset 1).moveAsked (launched 1 .running) = false
      ∧ (∀ m ∈ [false, true], (s m).launch 0 = some (l m) ∧ (l m).phase = .running ∧ (l m).saving = false ∧ (s m).launchFrozen (l m) = false
        ∧ (s m).moveAsked (l m) = true ∧ (s m).roomToMove 0 0 1 = true ∧ (s m).launchDrained (l m) = true) := by decide
/-- takes: no fault, and a trap with its level at KILL and at RETRY. -/
theorem witness_takes :
    let f : State := { State.reset with notices := [⟨0, 0, 0, 3, 0, 7, 0⟩] }
    let r := f.modHere fun T => T.modCtx 0 fun x => { x with contain := 0xA6 }
    State.reset.recorded 0 0 = [] ∧ State.reset.searches = [] ∧ f.stoppedForSave 0 0 = false
      ∧ State.oldestFault (f.recorded 0 0) = some ⟨.task 0, 0, 3, 7, 0⟩ ∧ absorbs ((f.tile 0).ctx 0).contain false (startLevel (.task 0)) 4 = (1, .kill)
      ∧ absorbs ((r.tile 0).ctx 0).contain false (startLevel (.task 0)) 4 = (1, .retry) ∧ (r.tile 0).hasHandler 0 = true := by decide
/-- A search of tile 0 in a phase. -/
def aSearch (p : SearchPhase) : Search := ⟨0, 0, .task 0, 0, 3, 7, .tile, 0, 0, 0, 0, false, false, p⟩
/-- kills: the first kill of its kind, on a tile alone. -/
theorem witness_kills :
    let s : State := { State.reset with searches := [aSearch .killing] }
    s.absent = none ∧ s.searches = [] ++ aSearch .killing :: [] ∧ (aSearch .killing).level ≠ .sheet ∧ s.regionTiles (aSearch .killing) = [0]
      ∧ s.stoppedForSave 0 0 = false ∧ ((s.tile 0).task 31).ctx.toNat = 0 := by decide
/-- deliveries: the first waiting search of a context whose lead task runs with its traps on. -/
theorem witness_deliveries :
    let s : State := { State.reset.modCur (fun k => { k with te := true }) with searches := [aSearch .waiting] }
    let k := (s.tile 0).task 0
    s.searches = [] ++ aSearch .waiting :: [] ∧ (s.tile 0).lead 0 = some 0 ∧ k.state = .run ∧ k.taken = none ∧ k.held = none ∧ k.te = true
      ∧ k.handling = false ∧ s.stoppedForSave 0 0 = false := by decide
/-- restarts: a delivery to a frozen task that returned, one for a request of an element, and one that was abandoned. -/
theorem witness_restarts :
    let s (p : SearchPhase) : State := { State.reset.modCur (fun k => { k with state := .frozen }) with searches := [aSearch p] }
    let f : ElemFault := { ctx := 0, slot := 0, cause := 5, val := 0, req := some 0 }
    let x : Search := { aSearch .returned with src := .element 0 }
    let e : State := { (requesting (aReq 79 .faulted)).modElem 0 (fun e => { e with fault := some f }) with searches := [x] }
    (s .returned).searches = [] ++ aSearch .returned :: [] ∧ (aSearch .returned).killed = false ∧ (((s .returned).tile 0).task 0).taken = none
      ∧ e.searches = [] ++ x :: [] ∧ (e.elem 0).fault = some f ∧ f.req = some 0 ∧ e.request? 0 0 = some (aReq 79 .faulted) ∧ (e.elem 0).faults = []
      ∧ (s .abandoned).searches = [] ++ aSearch .abandoned :: [] := by decide
/-- emulations: AADD on a word of the far tier, its lock in device memory free and held. -/
theorem witness_emulations :
    let k : Taken := { word := .aadd 1 2 3 0, a := 65536 }
    let s (b : Memory) : State :=
      withLeaves { State.reset.modCur (fun x => { x with taken := some k }) with hbm := { bytes := b } }
        [leaf, { leaf with page := 1, entry := leaf.entry + BitVec.ofNat 64 (3 * 2 ^ 61) }]
    let e (b : Memory) := (s b).emulated (tileDie 0) 0 (taskAgent 0 0) false 65536 8
    (((s []).tile 0).task 0).state = .run ∧ k.cause = none ∧ k.begun = 0 ∧ atomicFn k.word = some 0
      ∧ (e []).1.toOption = some ((.hbm, 16), (.far, 0)) ∧ (e []).2.absent = none ∧ (e []).2.lockFree (.hbm, 16) = true ∧ (e []).2.inflight = []
      ∧ (e [(16, 1)]).1.toOption = some ((.hbm, 16), (.far, 0)) ∧ (e [(16, 1)]).2.lockFree (.hbm, 16) = false ∧ inAperture 16 = false := by decide
/-- saves: a context without a launch; a launch that has not drained, and one that has (of no tiles, whatever the layout of a tile block). -/
theorem witness_saves :
    let j (n : Option Nat) : SaveJob := ⟨0, false, 0, 0, 1, 0, n⟩
    let s (n : Option Nat) (l : Launch) : State := mapped { State.reset with jobs := [j n], launches := [(5, l)] }
    let l := launched 0 .running
    let g : State := { s (some 5) l with folds := [{ aFold with growing := true }] }
    (s none l).absent = none ∧ ((s none l).jobs.filter fun j => j.die == 0 && !j.back)[0]? = some (j none)
      ∧ (match (s none l).areaWrite (j none) 4 4 3 with | .ok u => u.absent == none | _ => false) = true
      ∧ g.launch 5 = some l ∧ g.saveDrained l = false ∧ (s (some 5) l).launch 5 = some l ∧ (s (some 5) l).saveDrained l = true
      ∧ (match (s (some 5) l).saveNow (j (some 5)) 5 l with | .ok u => u.absent == none | _ => false) = true := by decide
/-- A restore is asked of an area at `a` of the page of `leaf`, which holds these bytes. -/
def restoring (a : Nat) (b : Memory) : State := mapped { State.reset with jobs := [⟨0, true, 0, 0, 1, a, none⟩], hbm := { bytes := b } }
/-- The header of that area, its words and the state after they have been read. -/
def areaOf (a : Nat) (b : Memory) : Option (Nat × List Nat × State) :=
  let j : SaveJob := ⟨0, true, 0, 0, 1, a, none⟩
  match (restoring a b).areaRead j a 64 with
  | (.error _, _) => none
  | (.ok h, u) =>
    match u.readWords j a (bitsOf h 191 128 / 4096 + 1) ((bitsOf h 191 128 + 7) / 8) with
    | (.error _, _) => none
    | (.ok ws, v) => some (h, ws, v)
/-- A header of one tile with a SIZE of 4,360 bytes, and a block whose segment 2 holds one legend entry, with SFMT = 0b11. -/
def oneBlock : Memory := [(12, 1), (13, 1), (16, 8), (17, 17), (4120, 128), (4124, 136), (4356, 0xC0)]
/-- restores: an area that cannot be read, one whose words pass its page, one whose launch is wider than the device, one without tiles, and one whose
tile has a bad legend entry. -/
theorem witness_restores :
    let j (a : Nat) : SaveJob := ⟨0, true, 0, 0, 1, a, none⟩
    let off : State := { State.reset with jobs := [j 0] }
    let view (f : List (Nat × SavedTile) → LaunchRec → List Nat → State → Bool) (b : Memory) : Bool :=
      (areaOf 0 b).any fun z =>
        let vs := State.readBlocks { ctx := 1, base := z.2.2.serial } z.2.1 (bitsOf z.1 103 96 * bitsOf z.1 111 104) 512
        z.2.2.absent.isNone && f vs (State.savedRecord z.1 1 (State.firstLaunch vs)) z.2.1 z.2.2
    let fits (vs : List (Nat × SavedTile)) (x : LaunchRec) (v : State) (o : Nat × Nat) : Bool :=
      ((State.rectangle o.1 o.2 x.w x.h).zip (vs.map (·.2))).all fun p => v.restoreFree x p.2 p.1
    (off.jobs.filter fun j => j.die == 0 && j.back)[0]? = some (j 0) ∧ (match (off.areaRead (j 0) 0 64).1 with | .error _ => true | _ => false) = true
      ∧ (match ((restoring 0xF000 [(0xF010, 8), (0xF011, 16)]).areaRead (j 0xF000) 0xF000 64).1 with | .ok _ => true | _ => false) = true
      ∧ (areaOf 0xF000 [(0xF010, 8), (0xF011, 16)]).isNone = true
      ∧ view (fun _ x _ _ => State.origins x.w x.h == []) [(12, 33)] = true
      ∧ view (fun vs x ws v => (State.origins x.w x.h).head?.any (fits vs x v) && (State.badLegend 0 vs ws).isNone
          && match v.restoreNow (j 0) x (State.firstLaunch vs) (vs.map (·.2)) (0, 0) with | .ok r => r.absent.isNone | .error _ => false) [] = true
      ∧ view (fun vs x ws v => fits vs x v (0, 0) && State.badLegend 0 vs ws == some 4352) oneBlock = true := by
  refine ⟨by decide, by decide, by decide, by decide +kernel, by decide, by decide, by decide +kernel⟩
/-- retirements: the last tile, with eight spares and with none. -/
theorem witness_retirements :
    let s := State.reset
    let n := s.modMgmt 3 fun m => { m with spare := 0 }
    s.absent = none ∧ (s.tile 639).exposed = true ∧ (∀ c < 4, s.lidOf 639 c = none) ∧ 0 < (s.mgmtOf (tileDie 639)).spare
      ∧ (∃ p < 168, p ∉ (159 :: (s.mgmtOf 3).retired) ∧ ∀ j < 160, j ≠ 159 → State.physOf (s.mgmtOf 3) j ≠ p)
      ∧ (n.mgmtOf (tileDie 639)).spare = 0 ∧ (n.tile 639).exposed = true ∧ (∀ c < 4, n.lidOf 639 c = none) := by decide
/-- packetArrivals: words of a packet that break its limits and words that do not; a packet of a launch that is not placed, and of one that is. -/
theorem witness_packetArrivals :
    let p : Packet := ⟨0, 0x7FFC, 0, 0, 3, [], 0, (.hbm, 0), (.hbm, 8)⟩
    let s : State := { State.reset with packets := [p] }
    let o : State := { onTiles State.reset 1 with packets := [p] }
    State.packetBad 0 = false ∧ State.packetBad (2 ^ 512 - 1) = true ∧ (s.hbm).readCause 8 8 = none
      ∧ s.packets[0]? = some p ∧ s.placedLaunch 0 = none ∧ inAperture 8 = false ∧ o.packets[0]? = some p ∧ o.placedLaunch 0 = some (launched 1 .running)
      ∧ (launched 1 .running).info.ctx = 0 ∧ p.job ∉ (o.mgmtOf 0).cancel ∧ (o.tile (tileAt (0 + 0 % 1) (0 + 0 / 1))).freeTask = some 1 := by decide
/-- remoteEnds: QTAIL to a queue that is off, to one that has no room for the tail, and to one that has; CANCEL of forms 0 and 2. -/
theorem witness_remoteEnds :
    let q (b : Word) : Taken := { word := .qtail 1 2 3, b := b }
    let on (b : Word) : State := (holding (q b)).modMgmt 0 fun m => { m with qdesc := [(0, 32)] }
    let c : Taken := { word := .cancelJob 1 2 }
    let e : Taken := { word := .cancelClear 1 2, a := BitVec.ofNat 64 (2 ^ 33) }
    (∀ b, Claims.Holds (holding (q b)) 0 1 (q b)) ∧ qdOn ((holding (q 0)).queue 0 0) = false ∧ qdOn ((on 1).queue 0 0) = true
      ∧ qdRecords ((on 2).queue 0 0) < ((2#64).toNat % 2 ^ 32 + 2 ^ 32 - qdPull ((on 2).queue 0 0)) % 2 ^ 32
      ∧ ((1#64).toNat % 2 ^ 32 + 2 ^ 32 - qdPull ((on 1).queue 0 0)) % 2 ^ 32 ≤ qdRecords ((on 1).queue 0 0)
      ∧ Claims.Holds (holding c) 0 1 c ∧ c.a.toNat / 2 ^ 32 % 4 = 0 ∧ Claims.Holds (holding e) 0 1 e ∧ e.a.toNat / 2 ^ 32 % 4 = 2 ∧ (holding c).absent = none :=
  ⟨fun _ => holds rfl, by decide, by decide, by decide, by decide, holds rfl, by decide, holds rfl, by decide, by decide⟩
/-- cancellations: no launch of the identifier. -/
theorem witness_cancellations : State.reset.absent = none ∧ ∀ x ∈ State.reset.launches, x.2.info.id ≠ 7 := by decide
/-! ### The step -/

/-- After reset with a word at address 0 of tile 0's instruction store. -/
def placed (w : Nat) : State := State.reset.modHere fun T => { T with istore := { bytes := Memory.writeN [] 0 4 w } }
/-- The focused Surveyor's turn, at the head of a round. -/
def turned (s : State) : State := { s with turns := [.sweep], focus := { s.focus with tile := s.focus.tile, task := 0 } }
theorem issuesNext {s : State} (h : decide (s.turns = [] ∧ s.powered = true ∧ (s.tile s.focus.tile).halted = false ∧ s.struck s.focus.tile = none
    ∧ (s.tile s.focus.tile).running = some 0 ∧ (turned s).cur.taken = none ∧ (turned s).cur.held = none) = true) :
    Claims.IssuesNext s (turned s) s.focus.tile 0 := by
  obtain ⟨a, b, c, d, e, f, g⟩ := of_decide_eq_true h
  exact ⟨.inl ⟨a, rfl, rfl⟩, b, c, d, e, f, g⟩
/-- wordsIssue: a word that decodes, one that does not, a guard on a word that takes none, and a breakpoint; the turn of another Surveyor. -/
theorem witness_wordsIssue :
    let u (w : Nat) := turned (placed w)
    let b := (placed 0).modHere fun T => T.modCtx 0 fun x => { x with ibk := x.ibk.set 0 ⟨0, true⟩ }
    let o : State := { State.reset with turns := [.surveyor 5] }
    (∀ w ∈ [0xFC000080, 0, 0xFC000081], Claims.IssuesNext (placed w) (u w) 0 0 ∧ (u w).Issues ∧ (u w).atBreakpoint = false
        ∧ (u w).here.istore.uncorrectable 0 4 = false)
      ∧ decodeControl (Claims.wordAtPc (u 0xFC000080)) = .ok .brkpt
      ∧ (∃ r, decodeControl (Claims.wordAtPc (u 0)) = .error r ∧ r ≠ .guardField) ∧ decodeControl (Claims.wordAtPc (u 0xFC000081)) = .error .guardField
      ∧ Claims.IssuesNext b (turned b) 0 0 ∧ (turned b).Issues ∧ (turned b).atBreakpoint = true
      ∧ Claims.IssuesNext o { o with turns := [], focus := { o.focus with tile := 5, task := 0 } } 5 0 := by
  refine ⟨fun w h => ?_, by decide, ⟨.reservedMajor, by decide, by decide⟩, by decide, issuesNext (by decide), issues (by decide), by decide,
    ⟨.inr ⟨_, rfl, rfl⟩, by decide, by decide, by decide, by decide, by decide, by decide⟩⟩
  simp only [List.mem_cons, List.not_mem_nil, or_false] at h
  rcases h with rfl | rfl | rfl <;> exact ⟨issuesNext (by decide), issues (by decide), by decide, by decide⟩
/-- One turn, with a slot that can fire. -/
def withTurn (t : Turn) : State := { armed {} {} 0 id with turns := [t] }
/-- slotsFire and arbiters: turns of a slot and of an arbiter, on a die that withholds and on one that does not; a slot that can fire and none. -/
theorem witness_fabricTurns :
    (∀ t, (withTurn t).absent = none) ∧ (decodeOp (((withTurn (.slot 0 0 0)).ectx 0 0).slot 0).opw).toOption.isSome = true ∧ (withTurn (.arbiter 0)).withheld 0 = false
      ∧ (({ withTurn (.slot 0 0 0) with mgmt := [(0, { thr := true })] } : State).withheld 0 = true) ∧ (∀ c < 4, ((withTurn (.arbiter 0)).ectx 0 c).bad = false ∧ ((withTurn (.arbiter 0)).ectx 0 c).weak = false)
      ∧ ((withTurn (.arbiter 0)).fireSlot 0 0 0).isSome = true ∧ (∀ n < 16, (State.reset.fireSlot 0 0 n).isNone = true) :=
  ⟨fun _ => rfl, by decide⟩
/-- A node's turn, with one entry in its queue. -/
def queued (w : BitVec 64) : State := { State.reset.modNode 0 (fun n => { n with queue := [⟨0, w, {}⟩] }) with turns := [.node 0] }
/-- nodesStep: an entry whose word decodes, and one whose word does not. -/
theorem witness_nodesStep :
    (∀ w, (queued w).turns = [.node 0] ∧ ((queued w).node 0).fault = none ∧ ((queued w).node 0).queue = [⟨0, w, {}⟩] ∧ (queued w).withheld 0 = false)
      ∧ (decodeMatrix 0x0C0000001FFFFF20).toOption.isSome = true ∧ (decodeMatrix (BitVec.allOnes 64)).toOption.isSome = false :=
  ⟨fun _ => ⟨rfl, rfl, rfl, rfl⟩, by decide, by decide⟩
/-- stepCanonical: a state in which the memories are in their canonical form, and its step. -/
theorem witness_stepCanonical : Canonical (placed 0xFC000080) ∧ (match step (placed 0xFC000080) with | .next _ => true | _ => false) = true := by
  refine ⟨fun sp => ?_, by decide⟩
  have k (t : Nat) : ((placed 0xFC000080).tile t).dstore.bytes.wf = true ∧ ((placed 0xFC000080).tile t).istore.bytes.wf = true
      ∧ ((placed 0xFC000080).tile t).overlay.bytes.wf = true := by
    by_cases h : t = 0
    · rw [h]; decide
    · have : (placed 0xFC000080).tile t = State.reset.tile t := State.tile_modTile_of_ne _ _ h
      rw [this]; exact ⟨rfl, rfl, rfl⟩
  cases sp with
  | dataStore t => exact (k t).1
  | instrStore t => exact (k t).2.1
  | overlay t => exact (k t).2.2
  | _ => rfl
/-- encodedDecode: an instruction of each space whose fields are those of no other row. -/
theorem witness_encodedDecode : (Instr.addi 31 31 0x7FF).illFormed = none ∧ (encode (Instr.addi 31 31 0x7FF)).isSome = true := by decide
/-- A firing whose operands are plain and whose destinations can take its result. -/
def canEmit (F : Firing) (u : State) : Bool :=
  F.erring.isNone && !F.anyNull && decide (verdict F.w.pm F.prdA = .compute)
    && (F.w.dst != 0 || (SMap.get? (u.ectx F.g F.c).latches (F.n % 4)).isNone) && (F.w.dst == 0 || ((u.elem F.g).busy == [] && (u.elem F.g).edges == []))
theorem emits {F : Firing} {u : State} (h : canEmit F u = true) : F.Plain ∧ Claims.Free u F := by
  simp only [canEmit, Bool.and_eq_true, Bool.not_eq_true', decide_eq_true_eq, Option.isNone_iff_eq_none, Bool.or_eq_true, bne_iff_ne, beq_iff_eq] at h
  obtain ⟨⟨⟨⟨a, b⟩, c⟩, d⟩, e⟩ := h
  refine ⟨⟨a, b, c⟩, fun z => d.resolve_left fun n => n z, fun z => ?_⟩
  obtain ⟨x, y⟩ := e.resolve_left z
  exact ⟨x, by simp [y]⟩
/-- floatsComplete, reductionsComplete, lanesComplete: every operation fires on plain operands with its result's latch empty, and with its ports free. -/
theorem witness_completions : ∀ op < 120, ∀ w ∈ [wordAt 0, { wordAt 0 with dst := 1 }],
    ∃ F u, (armed {} {} op id).Fires w op F u ∧ F.Plain ∧ Claims.Free u F := by
  intro op h w hw
  have k : ∀ op < 120, ∀ w ∈ [wordAt 0, { wordAt 0 with dst := 1 }], canFire (armed {} {} op id) w op canEmit = true := by decide
  obtain ⟨F, u, a, b⟩ := fires (k op h w hw)
  exact ⟨F, u, a, emits b⟩
/-- requestsComplete: every memory and datum node outside blocks, with no request in progress, whose checks meet no address that no memory has. -/
theorem witness_requestsComplete : ∀ op ∈ [79, 80, 81, 82, 83, 84, 85, 86, 87, 88, 89, 91, 92, 93, 94],
    ∃ F u, (mapped (onDevice op)).Fires (wordAt 0) op F u ∧ decide (F.erring = none ∧ F.anyNull = false ∧ verdict F.w.pm F.prdA = .compute
      ∧ (u.elem F.g).inProgress < 32 ∧ u.instanceOf F.g F.c F.n F.src = none
      ∧ ((u.addRequest F.g (u.newRequest F op)).checkAll F.g (u.newRequest F op)).2.absent = none) = true := by
  intro op h
  have k : ∀ op ∈ [79, 80, 81, 82, 83, 84, 85, 86, 87, 88, 89, 91, 92, 93, 94],
      canFire (mapped (onDevice op)) (wordAt 0) op (fun F u => decide (F.erring = none ∧ F.anyNull = false ∧ verdict F.w.pm F.prdA = .compute
        ∧ (u.elem F.g).inProgress < 32 ∧ u.instanceOf F.g F.c F.n F.src = none
        ∧ ((u.addRequest F.g (u.newRequest F op)).checkAll F.g (u.newRequest F op)).2.absent = none)) = true := by decide
  exact fires (k op h)
/-- memoryOps: a 33rd request; inside an admitted instance a load, and a store whose page is missing. -/
theorem witness_memoryBounds :
    (∃ F u, ((armed {} {} 79 id).modElem 0 fun e => { e with reqs := List.replicate 32 (aReq 79 .pending) }).Fires (wordAt 0) 79 F u
        ∧ decide (F.erring = none ∧ F.anyNull = false ∧ 32 ≤ (u.elem F.g).inProgress) = true)
      ∧ (∃ F u, (inBlock (armed {} {} 79 id)).Fires (wordAt 0) 79 F u ∧ (u.instanceOf F.g F.c F.n F.src).isSome = true)
      ∧ ∃ F u, (inBlock (onDevice 83)).Fires (wordAt 0) 83 F u ∧ (match u.checkRequest F.g (u.newRequest F 83) with
          | (.error _, r) => r.absent.isNone | _ => false) = true :=
  ⟨fires (by decide), fires (by decide), fires (by decide)⟩
/-- frameOps: FRAMEFREE of a frame that an open group of a reduction is of, and of one that a waiting token is of. -/
theorem witness_framesBusy :
    (∃ F u, (armed { frm := 1 } { frm := 1 } 57 fun x => { x with groups := [⟨3, 1, 0, 0, []⟩] }).Fires (wordAt 0) 57 F u
        ∧ decide (F.src.frm = 1 ∧ ((after F u).groups.map (·.frm)) = [1]) = true)
      ∧ ∃ F u, (armed { frm := 1 } { frm := 1 } 57 fun x => { x with operands := x.operands ++ [held 3 0 { frm := 1 } 7] }).Fires (wordAt 0) 57 F u
        ∧ decide (F.src.frm = 1 ∧ (after F u).operands = [held 3 0 { frm := 1 } 7]) = true :=
  ⟨fires (by decide), fires (by decide)⟩
/-- wordsComplete: an image and a record that are as the words ask, room and a ticket; a session that holds a record. -/
theorem witness_wordsComplete :
    let s := withData [(2, 16)] collRecord
    let h : State := { s with egress := [⟨0, 0, 0, .held⟩] }
    let image := Memory.readN s.here.dstore.bytes 0 64
    (SyncReady s 0x21 ⟨false, false, 0⟩ ∧ SyncReady s 0x23 ⟨false, false, 0⟩ ∧ SyncReady h 0x21 ⟨false, false, 0⟩)
      ∧ s.Issues ∧ h.Issues ∧ (s.reg 0).toNat % 8 = 0 ∧ SMap.getD s.posted (image / 2 ^ 64 % 2 ^ 20) 0 ≤ image % 2 ^ 64 ∧ s.egress = []
      ∧ collOk image = true ∧ SMap.get? s.curCtx.colls 0 = none ∧ (h.reg 2).getLsbD 4 = true ∧ (∃ r ∈ h.egress, r.sess = 0 ∧ r.hold = .held)
      ∧ (s.reg 0).toNat % 16 < 4 := by
  refine ⟨?_, issues (by decide), issues (by decide), by decide⟩
  unfold SyncReady
  decide
/-- arbiters: the bound of 64 opportunities is due for a slot that has been passed over 63 times, and it can fire. -/
theorem witness_arbiterBound :
    let s := (withTurn (.arbiter 0)).modElem 0 fun e => { e with waited := [(0, 63)] }
    State.boundDue (s.elem 0).waited (s.topRanked 0) = true ∧ (State.longest (s.elem 0).waited (s.topRanked 0)).map (·.2) = some (0, 0)
      ∧ (s.fireSlot 0 0 0).isSome = true ∧ State.boundDue ((withTurn (.arbiter 0)).elem 0).waited ((withTurn (.arbiter 0)).topRanked 0) = false := by decide
/-- passingOps and checkingOps: MERGE and MERGEO on an error token, and under a predicate that is not met, with each answer; ERRCHK of an error
token under such predicates. -/
theorem witness_gatedMerges : ∀ op ∈ [43, 44, 102],
    (∃ F u, (armed { err := true } {} op id).Fires (wordAt 0) op F u ∧ decide (F.a ≠ none ∧ F.erring ≠ none) = true)
      ∧ (∃ F u, (armed { err := decide (op = 102) } {} op id).Fires (wordAt 1) op F u ∧ decide (F.a ≠ none ∧ verdict F.w.pm F.prdA = .nothing) = true)
      ∧ ∃ F u, (armed { err := decide (op = 102) } {} op id).Fires (wordAt 3) op F u ∧ decide (F.a ≠ none ∧ verdict F.w.pm F.prdA = .null) = true := by
  intro op h
  have k : ∀ op ∈ [43, 44, 102], canFire (armed { err := true } {} op id) (wordAt 0) op (fun F _ => decide (F.a ≠ none ∧ F.erring ≠ none)) = true
      ∧ canFire (armed { err := decide (op = 102) } {} op id) (wordAt 1) op (fun F _ => decide (F.a ≠ none ∧ verdict F.w.pm F.prdA = .nothing)) = true
      ∧ canFire (armed { err := decide (op = 102) } {} op id) (wordAt 3) op (fun F _ => decide (F.a ≠ none ∧ verdict F.w.pm F.prdA = .null)) = true := by decide
  exact ⟨fires (k op h).1, fires (k op h).2.1, fires (k op h).2.2⟩
/-- queueWrites: a queue that is on and takes tails of other modules, and one that is off. -/
theorem witness_remoteTails :
    let s := State.reset.modMgmt 1 fun m => { m with qdesc := [(2, BitVec.ofNat 128 (2 ^ 5 + 2 ^ 8))] }
    s.powered = true ∧ s.planesDown.length < 36 ∧ qdRemote (s.queue 1 2) = true ∧ qdOn (s.queue 1 2) = true ∧ qdOn (s.queue 1 3) = false := by decide

/-! ## Single steps

One word at address 0 of tile 0 after reset, with registers of task 0. -/

/-- The step that issues word `w` on registers `l`, and what it leaves. -/
def stepped (w : Nat) (l : List (SReg × Word)) (p : State → Bool) : Bool :=
  match step ((placed w).modCur fun k => l.foldl (fun k e => k.setReg e.1 e.2) k) with
  | .next t => p t
  | _ => false
/-- R59: ADD s3, s1, s2 wraps; R12: the next word follows. -/
theorem test_step_add : stepped 0b000001_00011_00001_00010_0000000_0000 [(1, BitVec.allOnes 64), (2, 3)]
    (fun t => t.reg 3 == 2 && t.cur.pc == 4 && t.here.retired == 1) = true := by decide
/-- R61: ADDI s5, s4, −1 extends its immediate with the sign. -/
theorem test_step_addi : stepped 0b000010_00101_00100_111111111111_0000 [] (fun t => t.reg 5 == BitVec.allOnes 64) = true := by decide
/-- R20: `?!q1 BR off=3` passes control to its address + 12 when q1 = 0; `?q1 BR off=3` advances. -/
theorem test_step_guard : stepped 0x5C000039 [] (fun t => t.cur.pc == 12) = true ∧ stepped 0x5C000031 [] (fun t => t.cur.pc == 4 && t.here.retired == 1) = true := by decide
/-- R20: `?q1 ADD` raises cause 0x02 with the word as its value, and s3 is as before. -/
theorem test_step_unguardable : stepped 0x04611001 [(1, 1)] (fun t => t.notices.any (fun n => n.cause == 2 && n.val == 0x04611001) && t.reg 3 == 0) = true := by
  decide
/-- R21: TRAP with STATUS.TE = 0 freezes the task. -/
theorem test_step_trap_frozen : stepped 0xFC000000 [] (fun t => (t.here.task 0).state == .frozen && t.notices.length == 1) = true := by decide
/-- R43: a word that decodes to nothing has cause 0x01 and the word as its value. -/
theorem test_step_undecoded : stepped 0x98000000 [] (fun t => t.notices.all fun n => n.cause == 1 && n.val == 0x98000000) = true := by decide

end Sys2Proof.Tests
end

