-- ==== Sys2Proof/Proofs/CanonicalMemory.lean ====
section
/-! PROOFS. O60: every step keeps the canonical form of the memories. The bytes of a memory change only by writes, which keep the form
(`Memory.wf_writeN`), or give way to those of an empty store; every other update copies the stores of the state that it changes
(`Canonical.update`). So each function of the model has one lemma here, which cites those of the functions that it calls, in the order
of the model, up to `step`: from a state in canonical form it answers one in canonical form. -/

namespace Sys2Proof.Machine
set_option autoImplicit false
-- Each lemma is checked before the next begins: hundreds that wait at once need more threads than the memory limit allows.
set_option Elab.async false

/-! ## Stores, tiles and elements in canonical form -/

/-- The three stores of a tile are in canonical form. -/
structure Tile.Canonical (T : Tile) : Prop where
  istore  : T.istore.bytes.wf = true
  dstore  : T.dstore.bytes.wf = true
  overlay : T.overlay.bytes.wf = true

/-- The memory of an element is in canonical form. -/
def Elem.Canonical (e : Elem) : Prop := e.store.bytes.wf = true

/-- A state that an answer may hold is in canonical form. -/
def MaybeCanonical (o : Option State) : Prop := ∀ u, o = some u → Canonical u

/-- A state that a result may hold is in canonical form. -/
def ResultCanonical {ε : Type} (r : Except ε State) : Prop := ∀ u, r = .ok u → Canonical u

/-- The next state, where an outcome gives one, is in canonical form. -/
def OutCanonical (o : Out) : Prop := ∀ u, o = .next u → Canonical u

/-- The state that a firing's operation answers is in canonical form. -/
def DeedCanonical (o : Option Deed) : Prop := ∀ d, o = some d → Canonical d.s

variable {s u : State} {T : Tile} {G : Elem}

theorem Tile.Canonical.default : ({} : Tile).Canonical := ⟨rfl, rfl, rfl⟩

/-- A tile with the stores of another. -/
theorem Tile.Canonical.update {T : Tile}
    {jrMarks tasks ctxs cycle retired halted pstall seq channels held down inForce exposed errors names chains pairs} (k : T.Canonical) :
    Tile.Canonical ⟨T.istore, T.dstore, jrMarks, tasks, ctxs, cycle, retired, halted, pstall, seq, channels, held, down, inForce, exposed,
      errors, T.overlay, names, chains, pairs⟩ := ⟨k.istore, k.dstore, k.overlay⟩

theorem Tile.Canonical.ite {T U : Tile} {p : Prop} [Decidable p] (k : T.Canonical) (l : U.Canonical) : (if p then T else U).Canonical := by
  split <;> assumption

theorem Tile.Canonical.foldl {α : Type} {f : Tile → α → Tile} {T : Tile} (k : T.Canonical)
    (hf : ∀ T x, Tile.Canonical T → (f T x).Canonical) (l : List α) : (l.foldl f T).Canonical := by
  induction l generalizing T with
  | nil => exact k
  | cons x r ih => exact ih (hf _ x k)

theorem Elem.Canonical.update {G : Elem} {switch names frames reqs fault faults edges ports busy asked waited owner seq} (k : G.Canonical) :
    Elem.Canonical ⟨switch, G.store, names, frames, reqs, fault, faults, edges, ports, busy, asked, waited, owner, seq⟩ := k

theorem Elem.Canonical.ite {e f : Elem} {p : Prop} [Decidable p] (k : e.Canonical) (l : f.Canonical) : (if p then e else f).Canonical := by
  split <;> assumption

theorem Store.wf_ite {a b : Store} {p : Prop} [Decidable p] (ha : a.bytes.wf = true) (hb : b.bytes.wf = true) :
    (if p then a else b).bytes.wf = true := by split <;> assumption

/-- What holds of the default and of every listed value holds of every value. -/

theorem SMap.getD_of_forall {α : Type} {P : α → Prop} {d : α} (hd : P d) {m : SMap α} (hm : ∀ e ∈ m, P e.2) (k : Nat) :
    P (SMap.getD m k d) := by
  induction m with
  | nil => exact hd
  | cons e r ih =>
    by_cases hk : e.1 = k
    · simpa [SMap.getD, SMap.get?, hk] using hm e (List.mem_cons_self ..)
    · simpa [SMap.getD, SMap.get?, hk] using ih fun x hx => hm x (List.mem_cons_of_mem _ hx)

theorem SMap.getD_filter_key {α : Type} (m : SMap α) (p : Nat → Bool) (k : Nat) (d : α) :
    SMap.getD (m.filter fun e => p e.1) k d = if p k = true then SMap.getD m k d else d := by
  induction m with
  | nil => simp [SMap.getD, SMap.get?]
  | cons e r ih =>
    obtain ⟨j, v⟩ := e
    by_cases hp : p j = true <;> by_cases hk : j = k
    · subst hk; simp [SMap.getD, SMap.get?, hp]
    · simpa [SMap.getD, SMap.get?, hp, hk] using ih
    · subst hk; simpa [SMap.getD, hp] using ih
    · simpa [SMap.getD, SMap.get?, hp, hk] using ih

/-! ## The state -/

theorem Canonical.tile (h : Canonical s) (t : Nat) : (s.tile t).Canonical := ⟨h (.instrStore t), h (.dataStore t), h (.overlay t)⟩
theorem Canonical.elem (h : Canonical s) (g : Nat) : (s.elem g).Canonical := h (.localMem g)

/-- A state is in canonical form when its memories, its tiles and its elements are. -/
theorem Canonical.intro (hbm : s.hbm.bytes.wf = true) (far : s.far.bytes.wf = true) (host : s.host.bytes.wf = true)
    (peers : ∀ m, (SMap.getD s.peers m {}).bytes.wf = true) (tiles : ∀ t, (s.tile t).Canonical) (elems : ∀ g, (s.elem g).Canonical) :
    Canonical s := by
  intro sp
  cases sp with
  | hbm => exact hbm
  | far => exact far
  | host => exact host
  | peer m => exact peers m
  | localMem g => exact elems g
  | overlay t => exact (tiles t).overlay
  | dataStore t => exact (tiles t).dstore
  | instrStore t => exact (tiles t).istore

/-- A state with the memories, tiles and elements of another. -/
theorem Canonical.update {focus turns ectxs nodes inflight monitors troot units folds regions blocks insts launches spawned serial fresh absent cells
      domains unitWm dd egress posted packets orphans searches notices hostDown planesDown powered shutdown jobs mgmt module} (h : Canonical s) :
    Canonical ⟨focus, turns, s.tiles, s.elems, ectxs, nodes, s.hbm, s.far, s.host, s.peers, inflight, monitors, troot, units, folds, regions, blocks,
      insts, launches, spawned, serial, fresh, absent, cells, domains, unitWm, dd, egress, posted, packets, orphans, searches, notices, hostDown,
      planesDown, powered, shutdown, jobs, mgmt, module⟩ := h

theorem Canonical.ite {p : Prop} [Decidable p] (h : Canonical s) (k : Canonical u) : Canonical (if p then s else u) := by split <;> assumption

theorem Canonical.foldl {α : Type} {f : State → α → State} (h : Canonical s) (hf : ∀ s x, Canonical s → Canonical (f s x)) (l : List α) :
    Canonical (l.foldl f s) := by
  induction l generalizing s with
  | nil => exact h
  | cons x r ih => exact ih (hf _ x h)

theorem Canonical.foldl_snd {α β : Type} {f : β × State → α → β × State} {p : β × State} (h : Canonical p.2)
    (hf : ∀ p x, Canonical p.2 → Canonical (f p x).2) (l : List α) : Canonical (l.foldl f p).2 := by
  induction l generalizing p with
  | nil => exact h
  | cons x r ih => exact ih (hf _ x h)

/-! ## Answers -/

theorem MaybeCanonical.none : MaybeCanonical none := fun _ e => by cases e
theorem MaybeCanonical.some (h : Canonical s) : MaybeCanonical (some s) := fun _ e => by cases e; exact h
theorem MaybeCanonical.of_some {o : Option State} (h : MaybeCanonical o) (e : o = Option.some u) : Canonical u := h u e
theorem MaybeCanonical.ite {p : Prop} [Decidable p] {a b : Option State} (h : MaybeCanonical a) (k : MaybeCanonical b) :
    MaybeCanonical (if p then a else b) := by split <;> assumption

theorem MaybeCanonical.map {f : State → State} {o : Option State} (h : MaybeCanonical o) (hf : ∀ s, Canonical s → Canonical (f s)) :
    MaybeCanonical (o.map f) := by
  intro u e
  obtain ⟨v, hv, rfl⟩ := Option.map_eq_some_iff.mp e
  exact hf v (h v hv)

theorem MaybeCanonical.findSome? {α : Type} {f : α → Option State} (l : List α) (h : ∀ x, MaybeCanonical (f x)) :
    MaybeCanonical (l.findSome? f) := by
  intro u e
  obtain ⟨x, _, hx⟩ := List.exists_of_findSome?_eq_some e
  exact h x u hx

theorem MaybeCanonical.of_fst {α : Type} {p : Option State × α} {a : α} (h : MaybeCanonical p.1) (e : p = (Option.some u, a)) : Canonical u := by
  subst e
  exact h u rfl

theorem MaybeCanonical.bind {f : State → Option State} {o : Option State} (h : MaybeCanonical o)
    (hf : ∀ s, Canonical s → MaybeCanonical (f s)) : MaybeCanonical (o.bind f) := by
  cases o with
  | none => exact .none
  | some s => exact hf s (h s rfl)

theorem ResultCanonical.error {ε : Type} {e : ε} : ResultCanonical (.error e) := fun _ e => by cases e
theorem ResultCanonical.ok {ε : Type} (h : Canonical s) : ResultCanonical (ε := ε) (.ok s) := fun _ e => by cases e; exact h
theorem ResultCanonical.of_ok {ε : Type} {o : Except ε State} (h : ResultCanonical o) (e : o = .ok u) : Canonical u := h u e
theorem ResultCanonical.ite {ε : Type} {p : Prop} [Decidable p] {a b : Except ε State} (h : ResultCanonical a) (k : ResultCanonical b) :
    ResultCanonical (if p then a else b) := by split <;> assumption

theorem ResultCanonical.bind {ε : Type} {f : State → Except ε State} {o : Except ε State} (h : ResultCanonical o)
    (hf : ∀ s, Canonical s → ResultCanonical (f s)) : ResultCanonical (o.bind f) := by
  cases o with
  | error e => exact .error
  | ok s => exact hf s (h s rfl)

theorem ResultCanonical.foldl {ε α : Type} {f : Except ε State → α → Except ε State} {o : Except ε State} (h : ResultCanonical o)
    (hf : ∀ o x, ResultCanonical o → ResultCanonical (f o x)) (l : List α) : ResultCanonical (l.foldl f o) := by
  induction l generalizing o with
  | nil => exact h
  | cons x r ih => exact ih (hf _ x h)

theorem OutCanonical.next (h : Canonical s) : OutCanonical (.next s) := fun _ e => by cases e; exact h
theorem OutCanonical.ite {p : Prop} [Decidable p] {a b : Out} (h : OutCanonical a) (k : OutCanonical b) :
    OutCanonical (if p then a else b) := by split <;> assumption

theorem DeedCanonical.none : DeedCanonical none := fun _ e => by cases e
theorem DeedCanonical.some {o : Option (Token × BitVec 4)} (h : Canonical s) : DeedCanonical (some ⟨s, o⟩) := fun _ e => by cases e; exact h
theorem DeedCanonical.of_some {d : Option Deed} {o : Option (Token × BitVec 4)} (h : DeedCanonical d) (e : d = Option.some ⟨u, o⟩) :
    Canonical u := h _ e
theorem DeedCanonical.ite {p : Prop} [Decidable p] {a b : Option Deed} (h : DeedCanonical a) (k : DeedCanonical b) :
    DeedCanonical (if p then a else b) := by split <;> assumption

/-- The state in a pair that is written out. -/
theorem Canonical.of_snd {α : Type} {p : α × State} {a : α} (h : Canonical p.2) (e : p = (a, u)) : Canonical u := by subst e; exact h
theorem Canonical.of_snd_snd {α β : Type} {p : α × β × State} {a : α} {b : β} (h : Canonical p.2.2) (e : p = (a, b, u)) : Canonical u := by
  subst e; exact h
theorem Canonical.of_fst {α : Type} {p : State × α} {a : α} (h : Canonical p.1) (e : p = (u, a)) : Canonical u := by subst e; exact h

/-! ## Updates of one agent -/

theorem State.store_setTile_of_ne (s : State) {t : Nat} {T : Tile} {sp : Space} (ho : sp ≠ .overlay t) (hd : sp ≠ .dataStore t)
    (hi : sp ≠ .instrStore t) : (s.setTile t T).store sp = s.store sp := by
  cases sp with
  | overlay v | dataStore v | instrStore v =>
    have hv : v ≠ t := fun e => by subst e; contradiction
    simp [State.store, State.tile, State.setTile, SMap.getD_set_of_ne _ _ _ hv]
  | _ => rfl

theorem Canonical.setTile (h : Canonical s) (t : Nat) {T : Tile} (k : T.Canonical) : Canonical (s.setTile t T) := by
  have e : (s.setTile t T).tile t = T := SMap.getD_set_self _ _ _ _
  intro sp
  by_cases ho : sp = .overlay t
  · subst ho
    exact (congrArg (·.overlay.bytes.wf) e).trans k.overlay
  by_cases hd : sp = .dataStore t
  · subst hd
    exact (congrArg (·.dstore.bytes.wf) e).trans k.dstore
  by_cases hi : sp = .instrStore t
  · subst hi
    exact (congrArg (·.istore.bytes.wf) e).trans k.istore
  rw [State.store_setTile_of_ne s ho hd hi]
  exact h sp

theorem Canonical.modTile (h : Canonical s) (t : Nat) {f : Tile → Tile}
    (k : ∀ T : Tile, T.Canonical → (f T).Canonical := by exact fun _ k => k.update) : Canonical (s.modTile t f) := h.setTile t (k _ (h.tile t))

theorem State.store_modElem_of_ne (s : State) {g : Nat} (f : Elem → Elem) {sp : Space} (hg : sp ≠ .localMem g) :
    (s.modElem g f).store sp = s.store sp := by
  cases sp with
  | localMem k =>
    have hk : k ≠ g := fun e => by subst e; contradiction
    simp [State.store, State.elem_modElem_of_ne _ _ hk]
  | _ => rfl

theorem Canonical.modElem (h : Canonical s) (g : Nat) {f : Elem → Elem}
    (k : ∀ e : Elem, e.Canonical → (f e).Canonical := by exact fun _ k => k.update) : Canonical (s.modElem g f) := by
  intro sp
  by_cases e : sp = .localMem g
  · subst e
    have e : (s.modElem g f).elem g = f (s.elem g) := SMap.getD_set_self _ _ _ _
    exact (congrArg (fun x : Elem => x.store.bytes.wf) e).trans (k _ (h.elem g))
  · rw [State.store_modElem_of_ne s f e]
    exact h sp

/-! ## The state, tiles and tasks -/

theorem OutCanonical.settle (h : Canonical s) : OutCanonical (settle s) := by
  unfold Machine.settle
  split
  · exact .next h
  · exact fun _ e => by cases e

theorem Canonical.modEctx (h : Canonical s) (g c : Nat) (f : ElemCtx → ElemCtx) : Canonical (s.modEctx g c f) := h.update
theorem Canonical.modNode (h : Canonical s) (t : Nat) (f : Node → Node) : Canonical (s.modNode t f) := h.update
theorem Canonical.modUnit (h : Canonical s) (die : Nat) (f : TransUnit → TransUnit) : Canonical (s.modUnit die f) := h.update
theorem Canonical.tick (h : Canonical s) : Canonical s.tick := h.update
theorem Canonical.free (h : Canonical s) : Canonical s.free.2 := h.update
theorem Canonical.freeChoice (h : Canonical s) : Canonical s.freeChoice.2 := h.update

theorem Tile.Canonical.setTask (k : T.Canonical) (n : Nat) (k' : Task) : (T.setTask n k').Canonical := by
  unfold Tile.setTask
  split
  · exact k.update
  · exact k

theorem Tile.Canonical.modTask (k : T.Canonical) (n : Nat) (f : Task → Task) : (T.modTask n f).Canonical := k.setTask _ _

theorem Tile.Canonical.modCtx (k : T.Canonical) (c : Nat) (f : CtxRegs → CtxRegs) : (T.modCtx c f).Canonical := by
  unfold Tile.modCtx
  split
  · exact k.update
  · exact k

theorem Tile.Canonical.enter (k : T.Canonical) (n : Nat) (st : TaskState) (w : Waiting) : (T.enter n st w).Canonical :=
  (k.setTask _ _).update
theorem Tile.Canonical.wake (k : T.Canonical) (n : Nat) : (T.wake n).Canonical := .ite (k.enter _ _ _) k
theorem Tile.Canonical.idleEvent (k : T.Canonical) : T.idleEvent.Canonical := k.foldl (fun _ _ h => .ite (h.wake _) h) _
theorem Canonical.modHere (h : Canonical s) {f : Tile → Tile}
    (k : ∀ T : Tile, T.Canonical → (f T).Canonical := by exact fun _ k => k.update) : Canonical (s.modHere f) := h.modTile _ k
theorem Canonical.modCur (h : Canonical s) (f : Task → Task) : Canonical (s.modCur f) := h.modHere fun _ k => k.modTask _ _
theorem Tile.Canonical.finish (k : T.Canonical) (task n : Nat) (f : Task → Task) : (T.finish task n f).Canonical := (k.setTask _ _).update
theorem Canonical.finish (h : Canonical s) (n : Nat) (f : Task → Task) : Canonical (s.finish n f) := h.modHere fun _ k => k.finish _ _ _
theorem Canonical.retireIn (h : Canonical s) (n : Nat) (f : Task → Task) : Canonical (s.retireIn n f) := h.finish _ _
theorem Canonical.retire (h : Canonical s) (f : Task → Task) : Canonical (s.retire f) := h.retireIn _ _
theorem Canonical.writeReg (h : Canonical s) (d : SReg) (v : Word) : Canonical (s.writeReg d v) := h.retire _
theorem Canonical.jump (h : Canonical s) (target : BitVec 15) : Canonical (s.jump target) := h.finish _ _
theorem Canonical.dropMonitor (h : Canonical s) (t n : Nat) : Canonical (s.dropMonitor t n) := h.update
theorem Canonical.dropLost (h : Canonical s) (t : Nat) : Canonical (s.dropLost t) := h.update
theorem Canonical.noteError (h : Canonical s) (t c : Nat) : Canonical (s.noteError t c) :=
  .ite h (.ite ((h.modTile _).update) (h.modTile _))

theorem SMap.store_getD_map {f : Nat × Elem → Elem} (hf : ∀ e, (f e).store = e.2.store) (m : SMap Elem) (g : Nat) :
    (SMap.getD (m.map fun e => (e.1, f e)) g {}).store = (SMap.getD m g {}).store := by
  induction m with
  | nil => rfl
  | cons x r ih =>
    by_cases hx : x.1 = g
    · simp [SMap.getD, SMap.get?, hx, hf]
    · simpa [SMap.getD, SMap.get?, hx] using ih

/-- Every listed element changed to one with the same memory. -/
theorem Canonical.mapElems (h : Canonical s) (f : Nat × Elem → Elem) (hf : ∀ e, (f e).store = e.2.store := by exact fun _ => rfl)
    (elems : u.elems = s.elems.map fun e => (e.1, f e)) (tiles : u.tiles = s.tiles := by rfl) (hbm : u.hbm = s.hbm := by rfl)
    (far : u.far = s.far := by rfl) (host : u.host = s.host := by rfl) (peers : u.peers = s.peers := by rfl) : Canonical u := by
  have e : u.store = s.store := by
    funext sp
    cases sp <;> simp only [State.store, State.tile, State.elem, tiles, elems, hbm, far, host, peers, SMap.store_getD_map hf]
  intro sp
  rw [e]
  exact h sp

theorem Canonical.pauseFrozen (h : Canonical s) (c : Nat) : Canonical (s.pauseFrozen c) := h.mapElems _ (elems := rfl)
theorem Canonical.freeze (h : Canonical s) (c : Nat) (v : Word) : Canonical (s.freeze c v) :=
  (h.modHere fun _ k => ((k.setTask _ _).enter _ _ _).update).update.pauseFrozen _
theorem Canonical.raise (h : Canonical s) (c : Nat) (v : Word) : Canonical (s.raise c v) :=
  .ite ((h.noteError _ _).modHere fun _ k => (k.setTask _ _).update) ((h.noteError _ _).freeze _ _)
theorem Canonical.pass (h : Canonical s) (t : Nat) : Canonical (s.pass t) := h.modTile _
theorem Canonical.stall (h : Canonical s) : Canonical s.stall := h.pass _
theorem Canonical.block (h : Canonical s) (w : Waiting) : Canonical (s.block w) := h.modHere fun _ k => ((k.modTask _ _).enter _ _ _).update
theorem Canonical.withhold (h : Canonical s) (w : Waiting) : Canonical (s.withhold w) := h.modHere fun _ k => (k.enter _ _ _).update
theorem Canonical.supOnly (h : Canonical s) (k : Canonical u) : Canonical (s.supOnly u) := .ite k (h.raise _ _)
theorem Canonical.guarded (h : Canonical s) (g : BitVec 4) (k : Canonical u) : Canonical (s.guarded g u) := .ite k (h.retire _)
theorem Canonical.writeGuard (h : Canonical s) (q : QReg) (v : Bool) : Canonical (s.writeGuard q v) := h.retire _
theorem Tile.Canonical.setChannel (k : T.Canonical) (c col : Nat) (bs : List Beat) : (T.setChannel c col bs).Canonical := k.update
theorem Tile.Canonical.setPair (k : T.Canonical) (c maj fifo : Nat) (p : Pair) : (T.setPair c maj fifo p).Canonical := k.update
theorem Tile.Canonical.wakeSync (k : T.Canonical) (c maj fifo : Nat) : (T.wakeSync c maj fifo).Canonical :=
  k.foldl (fun _ _ k => by split <;> [exact .ite (k.wake _) k; exact k]) _
theorem Tile.Canonical.modPair (k : T.Canonical) (c maj fifo : Nat) (f : Pair → Pair) : (T.modPair c maj fifo f).Canonical :=
  .ite (((k.setPair _ _ _ _).wakeSync _ _ _).idleEvent) ((k.setPair _ _ _ _).wakeSync _ _ _)
theorem Tile.Canonical.voidToken (k : T.Canonical) (c maj fifo q : Nat) : (T.voidToken c maj fifo q).Canonical := k.modPair _ _ _ _
theorem Tile.Canonical.tokenBack (k : T.Canonical) (c maj fifo : Nat) : (T.tokenBack c maj fifo).Canonical := k.modPair _ _ _ _

theorem Tile.Canonical.untake (k : T.Canonical) (k' : Taken) : (T.untake k').Canonical := by
  unfold Tile.untake
  dsimp only
  split
  · exact k
  split
  · split
    · exact (k.voidToken _ _ _ _).tokenBack _ _ _
    · exact k.tokenBack _ _ _
  · split
    · exact k.voidToken _ _ _ _
    · exact k

theorem Tile.Canonical.quitWait (k : T.Canonical) (n : Nat) : (T.quitWait n).Canonical := by
  unfold Tile.quitWait
  dsimp only
  split
  · exact k.modTask _ _
  · split
    · exact (k.modTask _ _).untake _
    · exact k
  · exact k

theorem Tile.Canonical.wakeColour (k : T.Canonical) (c col : Nat) : (T.wakeColour c col).Canonical := by
  unfold Tile.wakeColour
  split
  · exact k
  · exact .ite ((k.quitWait _).wake _) k

theorem Tile.Canonical.admitHeld (k : T.Canonical) (c col : Nat) : (T.admitHeld c col).Canonical :=
  .ite k (((k.setChannel _ _ _).update.wakeColour _ _).idleEvent)
theorem Tile.Canonical.bindColour (k : T.Canonical) (c col : Nat) (v : Bool) (n : BitVec 5) : (T.bindColour c col v n).Canonical :=
  .ite k (.ite (.ite ((k.modCtx _ _).admitHeld _ _) ((((k.modCtx _ _).admitHeld _ _).wakeColour _ _).idleEvent)) (k.modCtx _ _))
theorem Tile.Canonical.unbindTask (k : T.Canonical) (n : Nat) : (T.unbindTask n).Canonical := k.foldl (fun _ _ h => h.modCtx _ _) _
theorem Tile.Canonical.create (k : T.Canonical) (n : Nat) (k' : Task) (st : TaskState) (w : Waiting) : (T.create n k' st w).Canonical :=
  (k.setTask _ _).enter _ _ _

/-! ## Addresses, translation and the memory system -/

theorem Canonical.modMgmt (h : Canonical s) (die : Nat) (f : Mgmt → Mgmt) : Canonical (s.modMgmt die f) := h.update
theorem Canonical.fromHost (h : Canonical s) {f : State → State} (hf : ∀ s, Canonical s → Canonical (f s)) : Canonical (s.fromHost f) :=
  .ite h (hf s h)
theorem Canonical.setStore (h : Canonical s) (sp : Space) {x : Store} (w : x.bytes.wf = true) : Canonical (s.setStore sp x) :=
  (MemoryOnly.setStore s sp x fun _ => w).canonical h

theorem Canonical.modStore (h : Canonical s) (sp : Space) {f : Store → Store}
    (w : ∀ x : Store, x.bytes.wf = true → (f x).bytes.wf = true := by exact fun _ w => w) : Canonical (s.modStore sp f) :=
  h.setStore sp (w _ (h sp))

theorem Canonical.countFixed (h : Canonical s) (die n : Nat) : Canonical (s.countFixed die n) := .ite h (h.modMgmt _ _)
theorem Canonical.correct (h : Canonical s) (die : Nat) (sp : Space) (a n : Nat) : Canonical (s.correct die sp a n) :=
  (MemoryOnly.correct s die sp a n).canonical h
theorem Canonical.release (h : Canonical s) (m : Monitor) : Canonical (s.release m) := (MemoryOnly.release s m).canonical h
theorem Canonical.perform (h : Canonical s) (sp : Space) (a n v : Nat) : Canonical (s.perform sp a n v) :=
  (MemoryOnly.perform s sp a n v).canonical h
theorem Canonical.performFor (h : Canonical s) (c : Nat) (sp : Space) (a n v : Nat) : Canonical (s.performFor c sp a n v) :=
  (MemoryOnly.performFor s c sp a n v).canonical h
theorem Canonical.recallLine (h : Canonical s) (line : Nat) : Canonical (s.recallLine line) := (MemoryOnly.recallLine s line).canonical h
theorem Canonical.callBack (h : Canonical s) (own : Option Nat) (sp : Space) (a n : Nat) : Canonical (s.callBack own sp a n) :=
  (MemoryOnly.callBack s own sp a n).canonical h
theorem Canonical.land (h : Canonical s) (f : InFlight) : Canonical (s.land f) := (MemoryOnly.land s f).canonical h
theorem Canonical.landWhere (h : Canonical s) (want : InFlight → Bool) : Canonical (s.landWhere want) :=
  (MemoryOnly.landWhere s want).canonical h
theorem Canonical.settleHome (h : Canonical s) (agent : Nat) (sp : Space) (a n : Nat) : Canonical (s.settleHome agent sp a n) :=
  h.landWhere _
theorem Canonical.fence (h : Canonical s) (agent f : Nat) : Canonical (s.fence agent f) := (MemoryOnly.fence s agent f).canonical h
theorem Canonical.publish (h : Canonical s) (agent : Nat) : Canonical (s.publish agent) := h.update

theorem Canonical.accept (h : Canonical s) (agent : Nat) (sp : Space) (a n v : Nat) (pub : Bool) :
    Canonical (s.accept agent sp a n v pub) :=
  h.update

theorem Canonical.atHome (h : Canonical s) (agent : Nat) (own : Option Nat) (sp : Space) (a n : Nat) :
    Canonical (s.atHome agent own sp a n) :=
  (h.settleHome _ _ _ _).callBack _ _ _ _

theorem Canonical.piecesHome (h : Canonical s) (agent : Nat) (ps : List (Space × Nat × Nat)) : Canonical (s.piecesHome agent ps) :=
  h.foldl (fun _ _ h => h.atHome _ _ _ _ _) _
theorem Canonical.walkFrom (h : Canonical s) (die ctx va fuel level table : Nat) : Canonical (s.walkFrom die ctx va fuel level table).2 :=
  (MemoryAbout.walkFrom s die ctx va fuel level table).canonical h

theorem Canonical.walk (h : Canonical s) (die ctx va : Nat) : Canonical (s.walk die ctx va).2 := by
  unfold State.walk
  dsimp only
  split
  · exact h
  split
  next e => exact (h.walkFrom _ _ _ _ _ _).of_snd e
  next e => exact ((h.walkFrom _ _ _ _ _ _).of_snd e).modUnit _ _

theorem Canonical.translate (h : Canonical s) (die ctx va : Nat) : Canonical (s.translate die ctx va).2 :=
  (MemoryAbout.translate s die ctx va).canonical h
theorem Canonical.markDirty (h : Canonical s) (die : Nat) (l : Leaf) : Canonical (s.markDirty die l) :=
  (MemoryOnly.markDirty s die l).canonical h
theorem Canonical.probe (h : Canonical s) (die ctx va n : Nat) (need : Need) : Canonical (s.probe die ctx va n need).2 :=
  (MemoryAbout.probe s die ctx va n need).canonical h

theorem Canonical.probeAll (h : Canonical s) (die ctx : Nat) (need : Need) (l : List (Nat × Nat)) :
    Canonical (s.probeAll die ctx need l).2 :=
  (MemoryAbout.probeAll s die ctx need l).canonical h

theorem Canonical.writePieces (h : Canonical s) (c v : Nat) (l : List (Space × Nat × Nat)) : Canonical (s.writePieces c v l) :=
  (MemoryOnly.writePieces s c v l).canonical h

/-! ## The fabric and the spill ring -/

theorem Canonical.modEdge (h : Canonical s) (g c col port : Nat) (f : Lane → Lane) : Canonical (s.modEdge g c col port f) := h.modElem _

theorem Canonical.modSource (h : Canonical s) (g src c col : Nat) (f : Lane → Lane) : Canonical (s.modSource g src c col f) := by
  unfold State.modSource
  split
  · exact h.modTile _
  · exact h.modElem _
  · exact h.modElem _
  split
  · exact h.modEdge _ _ _ _ _
  · exact h

theorem Canonical.inject (h : Canonical s) (g src : Nat) (t : Token) : Canonical (s.inject g src t) := h.modSource _ _ _ _ _

theorem Canonical.modLaunch (h : Canonical s) (n : Nat) (f : Launch → Launch) : Canonical (s.modLaunch n f) := by
  unfold State.modLaunch
  split
  · exact h.update
  · exact h

theorem Canonical.elemFault (h : Canonical s) (g c slot cause : Nat) (val : BitVec 64) (req : Option Nat) (bkpt : Bool)
    (null : Option (OpWord × Token)) : Canonical (s.elemFault g c slot cause val req bkpt null) :=
  (((h.noteError _ _).tick.modElem _ fun _ k => by split <;> exact k.update).modEctx _ _ _).pauseFrozen _

theorem Canonical.modSources (h : Canonical s) (n c : Nat) (f : BitVec 64 → ElemCtx → ElemCtx) : Canonical (s.modSources n c f) :=
  h.foldl (fun _ _ h => h.modEctx _ _ _) _
theorem Canonical.throttleSpill (h : Canonical s) (n c : Nat) : Canonical (s.throttleSpill n c) := h.modSources _ _ _

theorem Canonical.ringPlace (h : Canonical s) (g c : Nat) (l : Launch) (seq : Nat) : Canonical (s.ringPlace g c l seq).2 := by
  unfold State.ringPlace
  split
  next e => exact (h.translate _ _ _).of_snd e
  next e =>
    have hs := (h.translate _ _ _).of_snd e
    split
    · split
      · exact hs
      · exact hs.update
    · exact hs

theorem Canonical.ringBad {s : State} (h : Canonical s) (g c : Nat) (l : Launch) (qs : List Nat) : Canonical (s.ringBad g c l qs).2 := by
  induction qs generalizing s with
  | nil => exact h
  | cons q r ih =>
    unfold State.ringBad
    split
    next e => exact (h.ringPlace _ _ _ _).of_snd e
    next e => exact ih ((h.ringPlace _ _ _ _).of_snd e)

theorem Canonical.spillBeat (h : Canonical s) (g c n : Nat) (l : Launch) (slot which : Nat) (b : Beat) :
    Canonical (s.spillBeat g c n l slot which b).2 := by
  unfold State.spillBeat
  dsimp only
  split
  next e => exact (h.ringPlace _ _ _ _).of_snd e
  next e => exact ((((((h.ringPlace _ _ _ _).of_snd e).markDirty _ _).callBack _ _ _ _).perform _ _ _ _).modLaunch _ _).throttleSpill _ _

theorem Canonical.freeRecords (h : Canonical s) (t c : Nat) (seqs : List Nat) : Canonical (s.freeRecords t c seqs) := by
  unfold State.freeRecords
  dsimp only
  split
  · exact h
  · exact h
  · exact .ite ((h.modLaunch _ _).modSources _ _ _) (h.modLaunch _ _)

theorem Canonical.takeBack (h : Canonical s) (g c : Nat) : Canonical (s.takeBack g c) := by
  unfold State.takeBack
  dsimp only
  split
  · split
    · exact h
    split
    next e =>
      have hs := (h.ringBad _ _ _ _).of_snd e
      exact .ite hs (hs.elemFault _ _ _ _ _ _ _ _)
    next e => exact (((h.ringBad _ _ _ _).of_snd e).freeRecords _ _ _).modEctx _ _ _
  · exact h

theorem Canonical.throttleRecover (h : Canonical s) (g c slot : Nat) : Canonical (s.throttleRecover g c slot) := .ite (h.modEctx _ _ _) h

/-! ## Firings -/

theorem Canonical.consume (h : Canonical s) (F : Firing) : Canonical (s.consume F) := (h.modEctx _ _ _).freeRecords _ _ _
theorem Canonical.deliver (h : Canonical s) (g c n : Nat) (dst mask : BitVec 4) (t : Token) : Canonical (s.deliver g c n dst mask t) :=
  .ite ((h.modEctx _ _ _).modElem _) (h.foldl (fun _ _ h => h.modEdge _ _ _ _ _) _)

theorem Canonical.reserve (h : Canonical s) (F : Firing) : MaybeCanonical (s.reserve F) := by
  unfold State.reserve
  dsimp only
  split
  · exact .some h
  · exact .ite .none (.some h.update)

theorem Canonical.reachExit (h : Canonical s) (F : Firing) : Canonical (s.reachExit F) := h.update
theorem Canonical.modInst (h : Canonical s) (id : Nat) (f : Instance → Instance) : Canonical (s.modInst id f) := h.update
theorem Canonical.condemn (h : Canonical s) (id cause : Nat) (val : BitVec 64) : Canonical (s.condemn id cause val) := h.modInst _ _

theorem Canonical.fireFault (h : Canonical s) (F : Firing) (cause : Nat) (val : BitVec 64) (null : Option Token) :
    Canonical (s.fireFault F cause val null) := by
  unfold State.fireFault
  split
  · exact h.elemFault _ _ _ _ _ _ _ _
  · exact h.condemn _ _ _

theorem DeedCanonical.emit (h : Canonical s) (F : Firing) (t : Token) : DeedCanonical (F.emit s t) := .some h
theorem DeedCanonical.quiet (h : Canonical s) : DeedCanonical (Firing.quiet s) := .some h

/-- What an operation does to a state in canonical form leaves it so. -/
def KeepsCanonical (k : State → Firing → Option Deed) : Prop := ∀ s F, Canonical s → DeedCanonical (k s F)

theorem Canonical.attempt (h : Canonical s) (F : Firing) {k : State → Firing → Option Deed} (hk : KeepsCanonical k) :
    MaybeCanonical (s.attempt F k) := by
  unfold State.attempt
  have hr : Canonical (s.ringTest F).2 := by
    unfold State.ringTest
    split
    · exact h.ringBad _ _ _ _
    · exact h
  dsimp only
  split
  · exact .some (h.elemFault _ _ _ _ _ _ _ _)
  split
  next e => exact .some ((hr.of_snd e).elemFault _ _ _ _ _ _ _ _)
  next e =>
    split
    · exact .none
    next e' =>
      have hv := (((hr.of_snd e).reserve _).of_some e').consume F
      split
      · exact .none
      next e'' => exact .some (((hk _ _ (hv.modEctx _ _ _)).of_some e'').reachExit _)
      next e'' => exact .ite (.some ((((hk _ _ (hv.modEctx _ _ _)).of_some e'').deliver _ _ _ _ _ _).reachExit _)) .none

theorem Canonical.fireBy (h : Canonical s) (w : OpWord) (op : Nat) {k : State → Firing → Option Deed} (hk : KeepsCanonical k) :
    MaybeCanonical (s.fireBy w op k) := .findSome? _ fun _ => h.attempt _ hk

theorem KeepsCanonical.regular {k : State → Firing → Option Deed} (hk : KeepsCanonical k) : KeepsCanonical (regular k) := by
  intro s F h
  unfold Machine.regular
  split
  · exact .emit h _ _
  split
  · exact .emit h _ _
  split
  · exact .quiet h
  · exact .emit h _ _
  split
  next e => exact .some ((hk _ _ h).of_some e)
  · exact hk _ _ h

theorem KeepsCanonical.pureOp (f : ElemCtx → Firing → Token) : KeepsCanonical (pureOp f) := .regular fun _ _ h => .emit h _ _

theorem OutCanonical.after (h : Canonical s) {o : Option State} (ho : MaybeCanonical o) : OutCanonical (s.after o) := by
  cases o with
  | none => exact .settle h
  | some u => exact .settle (ho u rfl)

theorem Canonical.takeFrame (h : Canonical s) (g c : Nat) (f : BitVec 16) : MaybeCanonical (s.takeFrame g c f) := by
  unfold State.takeFrame
  dsimp only
  split
  · exact .some h
  · exact .ite (.some h) (.ite .none (.some ((h.modElem _).modEctx _ _ _)))

theorem Canonical.spill (h : Canonical s) (g c n r k : Nat) (b : Beat) : Canonical (s.spill g c n r k b).2 := by
  unfold State.spill
  dsimp only
  split
  · split
    · exact .ite (h.elemFault _ _ _ _ _ _ _ _) h
    split
    next e =>
      have hs := (h.ringBad _ _ _ _).of_snd e
      exact .ite hs (hs.elemFault _ _ _ _ _ _ _ _)
    next e => exact ((h.ringBad _ _ _ _).of_snd e).spillBeat _ _ _ _ _ _ _
  · exact h

theorem Canonical.takeBeat (h : Canonical s) (g c n r : Nat) (b : Beat) : Canonical (s.takeBeat g c n r b).2 := by
  unfold State.takeBeat
  dsimp only
  split
  · split
    · exact h.modEctx _ _ _
    split
    next e => exact (h.spill _ _ _ _ _ _).of_snd e
    next e => exact ((h.spill _ _ _ _ _ _).of_snd e).modEctx _ _ _
  · split
    · exact h
    next e =>
      have hs := (h.takeFrame _ _ _).of_some e
      split
      · exact (hs.modEctx _ _ _).modElem _
      split
      all_goals
        split
        · exact (hs.modEctx _ _ _).modElem _
        split
        next e => exact (hs.spill _ _ _ _ _ _).of_snd e
        next e => exact (((hs.spill _ _ _ _ _ _).of_snd e).modEctx _ _ _).modElem _

theorem Canonical.clearHead (h : Canonical s) (g src c col : Nat) : Canonical (s.clearHead g src c col) :=
  .ite h (.ite ((h.modSource _ _ _ _ _).modTile _) (h.modSource _ _ _ _ _))

theorem Canonical.offer (h : Canonical s) (g src c col : Nat) : Canonical (s.offer g src c col) := by
  unfold State.offer
  dsimp only
  split
  · exact h
  refine .ite h (Canonical.clearHead (.ite (.ite h ?_) (h.foldl (fun s a hs => .ite hs ?_) _)) _ _ _ _)
  · exact (h.modEctx _ _ _).foldl (fun _ _ h => h.modSource _ _ _ _ _) _
  · split
    next e => exact ((hs.takeBeat _ _ _ _ _).of_snd e).modSource _ _ _ _ _
    next e => exact (hs.takeBeat _ _ _ _ _).of_snd e

theorem Canonical.forward (h : Canonical s) (g entry : Nat) : Canonical (s.forward g entry) := by
  unfold State.forward
  dsimp only
  split
  · exact h
  split
  · exact h.modElem _
  · exact .ite ((((h.foldl (fun _ _ h => h.modEdge _ _ _ _ _) _).modElem _).modSource _ _ _ _ _).clearHead _ _ _ _) (h.modElem _)

/-! ## Named memory, requests, datum units and blocks -/

theorem Canonical.slotAt (h : Canonical s) (g : Nat) (f : Descriptor) (line : Nat) (need : Need) :
    Canonical (s.slotAt g f line need).2 := by
  unfold State.slotAt
  dsimp only
  split
  · exact h
  · exact h
  split
  next e => exact (h.probeAll _ _ _ _).of_snd e
  next e =>
    have hs := (h.probeAll _ _ _ _).of_snd e
    split <;> next e => exact (hs.probe _ _ _ _ _).of_snd e

theorem Canonical.setHeader (h : Canonical s) (g : Nat) (f : Descriptor) (p : State.SlotAt) (h' : NameHdr) :
    Canonical (s.setHeader g f p h') := by
  unfold State.setHeader
  split
  · exact h.perform _ _ _ _
  · exact .ite (h.modElem _) (h.modTile _)

theorem Canonical.correctPieces (h : Canonical s) (g : Nat) (ps : List (Space × Nat × Nat)) : Canonical (s.correctPieces g ps) :=
  h.foldl (fun _ _ h => h.correct _ _ _ _) _

theorem Canonical.namedAccess (h : Canonical s) (g c : Nat) (k : NamedKind) (x v : Nat) : Canonical (s.namedAccess g c k x v).2 := by
  unfold State.namedAccess
  dsimp only
  split
  · exact h
  split
  · exact h
  split
  · exact h
  split
  next e => exact (h.slotAt _ _ _ _).of_snd e
  next p u e =>
    have hu : Canonical (u.piecesHome (elemAgent g) p.data) := ((h.slotAt _ _ _ _).of_snd e).piecesHome _ _
    split
    · exact hu
    split
    · split
      · exact hu.correctPieces _ _
      · exact hu
    · split
      · exact hu.correctPieces _ _
      · exact hu
    split
    · split
      · exact ((hu.correctPieces _ _).writePieces _ _ _).setHeader _ _ _ _
      · exact (hu.writePieces _ _ _).setHeader _ _ _ _
    split
    · split
      all_goals
        split
        · exact hu.correctPieces _ _
        · exact hu
    split
    · exact .ite ((hu.correctPieces _ _).correctPieces _ _) (((hu.correctPieces _ _).correctPieces _ _).setHeader _ _ _ _)
    · exact .ite (hu.correctPieces _ _) ((hu.correctPieces _ _).setHeader _ _ _ _)

theorem Canonical.pauseStatement (h : Canonical s) (c n : Nat) : Canonical (s.pauseStatement c n) := h.mapElems _ (elems := rfl)
theorem Canonical.modRequest (h : Canonical s) (g id : Nat) (f : Request → Request) : Canonical (s.modRequest g id f) := h.modElem _
theorem Canonical.mapRequests (h : Canonical s) (f : Request → Request) : Canonical (s.mapRequests f) :=
  h.foldl (fun _ _ h => h.modElem _) _
theorem Canonical.dropRequest (h : Canonical s) (g id : Nat) : Canonical (s.dropRequest g id) := h.modElem _
theorem Canonical.answer (h : Canonical s) (g : Nat) (q : Request) (t : Token) : Canonical (s.answer g q t) := h.modRequest _ _ _

theorem Canonical.failRequest (h : Canonical s) (g : Nat) (q : Request) (cause val : Nat) : Canonical (s.failRequest g q cause val) := by
  unfold State.failRequest
  split
  · exact (h.condemn _ _ _).modRequest _ _ _
  · exact (h.modRequest _ _ _).elemFault _ _ _ _ _ _ _ _

theorem Canonical.wordPlace (h : Canonical s) (g c a n : Nat) : Canonical (s.wordPlace g c a n).2 := by
  unfold State.wordPlace
  split
  next e => exact (h.probe _ _ _ _ _).of_snd e
  next e =>
    have hs := (h.probe _ _ _ _ _).of_snd e
    split <;> exact hs

theorem Canonical.checkRequest (h : Canonical s) (g : Nat) (q : Request) : Canonical (s.checkRequest g q).2 := by
  unfold State.checkRequest
  dsimp only
  split
  · exact h
  split
  · exact h
  split
  · exact h
  split
  · exact h
  split
  · exact h
  split
  · exact h
  split
  · split <;> exact h
  split
  · exact h.wordPlace _ _ _ _
  · exact h.probeAll _ _ _ _

theorem Canonical.checkAll (h : Canonical s) (g : Nat) (q : Request) : Canonical (s.checkAll g q).2 := by
  unfold State.checkAll
  split
  next e =>
    have hs := (h.checkRequest _ _).of_snd e
    split <;> exact hs
  · exact h.checkRequest _ _

theorem Canonical.setEmpty (h : Canonical s) (ps : List (Space × Nat × Nat)) : Canonical (s.setEmpty ps) :=
  h.foldl (fun _ _ h => h.modStore _) _

theorem Canonical.readHome (h : Canonical s) (g : Nat) (ps : List (Space × Nat × Nat)) : Canonical (s.readHome g ps).2 := by
  unfold State.readHome
  dsimp only
  split
  · exact h.piecesHome _ _
  · exact (h.piecesHome _ _).correctPieces _ _

theorem Canonical.storeAt {s : State} (h : Canonical s) (g c v : Nat) (ps : List (Space × Nat × Nat)) : Canonical (s.storeAt g c v ps) := by
  induction ps generalizing s v with
  | nil => exact h
  | cons p r ih =>
    unfold State.storeAt
    refine ih ?_ _
    split
    · exact h.performFor _ _ _ _ _
    · exact h.performFor _ _ _ _ _
    · exact h.accept _ _ _ _ _ _

theorem Canonical.versioned (h : Canonical s) (sp : Space) (a n data expect : Nat) : Canonical (s.versioned sp a n data expect).2.2 := by
  unfold State.versioned
  dsimp only
  split
  · exact (h.perform _ _ _ _).modStore _
  · exact h

theorem Canonical.ownLine (h : Canonical s) (g line : Nat) : Canonical (s.ownLine g line).2 := by
  unfold State.ownLine
  dsimp only
  split
  · exact h
  split
  · exact h.atHome _ _ _ _ _
  split
  · exact ((h.atHome _ _ _ _ _).recallLine _).correctPieces _ _
  · exact (h.atHome _ _ _ _ _).correctPieces _ _

theorem Canonical.ownerWord (h : Canonical s) (g : Nat) (q : Request) (pa n : Nat) : Canonical (s.ownerWord g q pa n).2 := by
  unfold State.ownerWord
  dsimp only
  split
  next e => exact (h.ownLine _ _).of_snd e
  next e => exact ((h.ownLine _ _).of_snd e).modElem _

theorem Canonical.performOwner (h : Canonical s) (g : Nat) (q : Request) (ps : List (Space × Nat × Nat)) :
    Canonical (s.performOwner g q ps).2 := by
  unfold State.performOwner
  dsimp only
  split
  · exact h.ownerWord _ _ _ _
  split
  next e => exact (h.readHome _ _).of_snd e
  next e =>
    have hs := (h.readHome _ _).of_snd e
    split
    · exact hs.writePieces _ _ _
    · exact hs

theorem Canonical.readAt (h : Canonical s) (g : Nat) (q : Request) (ps : List (Space × Nat × Nat)) : Canonical (s.readAt g q ps).2 := by
  unfold State.readAt
  dsimp only
  split
  · exact h.piecesHome _ _
  · exact (h.piecesHome _ _).correctPieces _ _

theorem Canonical.performLines (h : Canonical s) (g : Nat) (q : Request) (ps : List (Space × Nat × Nat)) :
    Canonical (s.performLines g q ps) := by
  unfold State.performLines
  dsimp only
  split
  · exact .ite ((h.modRequest _ _ _).answer _ _ _) (h.modRequest _ _ _)
  split
  · exact .ite (((h.storeAt _ _ _ _).modRequest _ _ _).answer _ _ _) ((h.storeAt _ _ _ _).modRequest _ _ _)
  split
  next e => exact ((h.readAt _ _ _).of_snd e).failRequest _ _ _ _
  next e =>
    have hs := (h.readAt _ _ _).of_snd e
    exact .ite ((hs.modRequest _ _ _).answer _ _ _) (hs.modRequest _ _ _)

theorem Canonical.performOrdered (h : Canonical s) (g : Nat) (q : Request) : Canonical (s.performOrdered g q) := by
  unfold State.performOrdered
  split
  · exact h.performLines _ _ _
  split
  next e => exact ((h.checkAll _ _).of_snd e).failRequest _ _ _ _
  next e => exact ((h.checkAll _ _).of_snd e).performLines _ _ _

theorem Canonical.performAt (h : Canonical s) (g : Nat) (q : Request) : Canonical (s.performAt g q) := by
  unfold State.performAt
  dsimp only
  split
  next e => exact ((h.checkAll _ _).of_snd e).failRequest _ _ _ _
  next e =>
    have hs := (h.checkAll _ _).of_snd e
    split
    · split
      · exact ((hs.atHome _ _ _ _ _).versioned _ _ _ _ _).answer _ _ _
      · exact hs
    · split
      · split
        next e => exact ((hs.performOwner _ _ _).of_snd e).failRequest _ _ _ _
        next e => exact ((hs.performOwner _ _ _).of_snd e).answer _ _ _
      · split
        · exact hs
        split
        next e => exact ((hs.readAt _ _ _).of_snd e).failRequest _ _ _ _
        next e =>
          have hs := (hs.readAt _ _ _).of_snd e
          split
          · split
            · exact (hs.modInst _ _).answer _ _ _
            · exact (hs.setEmpty _).answer _ _ _
          · exact hs.answer _ _ _

theorem Canonical.performFence (h : Canonical s) (g : Nat) (q : Request) : Canonical (s.performFence g q) :=
  .ite h ((h.fence _ _).answer _ _ _)
theorem Canonical.enterChain (h : Canonical s) (g : Nat) (q : Request) : Canonical (s.enterChain g q) := .ite h (h.modTile _)
theorem Canonical.advanceChain (h : Canonical s) (g : Nat) (q : Request) : Canonical (s.advanceChain g q) := h.modTile _

theorem Canonical.chainRequest (h : Canonical s) (g id : Nat) : Canonical (s.chainRequest g id) := by
  unfold State.chainRequest
  split
  · exact h
  refine .ite h ?_
  extract_lets u
  have hu : Canonical u := h.enterChain _ _
  split
  · exact hu
  refine .ite (hu.failRequest _ _ _ _) (.ite (.ite ((hu.advanceChain _ _).dropRequest _ _) ?_) hu)
  exact .ite (hu.performOrdered _ _) ((hu.performOrdered _ _).advanceChain _ _)

theorem Canonical.releaseChain (h : Canonical s) (t n : Nat) : Canonical (s.releaseChain t n) := by
  unfold State.releaseChain
  dsimp only
  split
  · exact h
  · exact .ite (h.modTile _) h

theorem Canonical.performRequest (h : Canonical s) (g id : Nat) : Canonical (s.performRequest g id) := by
  unfold State.performRequest
  split
  · exact h
  · exact .ite h (.ite (.ite h (h.performAt _ _)) (.ite (h.performAt _ _) (.ite (.ite h (h.performAt _ _)) (.ite (h.performFence _ _) h))))

theorem Canonical.performStore (h : Canonical s) (n : Nat) : Canonical (s.performStore n) := by
  unfold State.performStore
  split
  · exact h
  · exact .ite h (h.update.land _)

theorem Canonical.replyRequest (h : Canonical s) (g id : Nat) : Canonical (s.replyRequest g id) := by
  unfold State.replyRequest
  split
  · exact h
  split
  · exact h.dropRequest _ _
  · split
    · exact h
    split
    · split
      · exact (h.dropRequest _ _).inject _ _ _
      · exact h.dropRequest _ _
    · exact .ite ((h.dropRequest _ _).deliver _ _ _ _ _ _) h
  · exact h

theorem Canonical.tryNamed (h : Canonical s) (g id : Nat) : Canonical (s.tryNamed g id) := by
  unfold State.tryNamed
  split
  · exact h
  refine .ite h ?_
  extract_lets kind attempt
  have ha : Canonical (attempt s) := by
    refine .ite (h.answer _ _ _) ?_
    split
    next e => exact ((h.namedAccess _ _ _ _ _).of_snd e).failRequest _ _ _ _
    next e => exact ((h.namedAccess _ _ _ _ _).of_snd e).answer _ _ _
    next e => exact ((h.namedAccess _ _ _ _ _).of_snd e).modRequest _ _ _
  split
  · exact ha
  · exact ha
  · exact ha
  · exact h

theorem Canonical.stallOut (h : Canonical s) (g id : Nat) : Canonical (s.stallOut g id) := by
  unfold State.stallOut
  split
  · exact h
  split
  · exact .ite (h.failRequest _ _ _ _) h
  · exact h

theorem Canonical.putCell (h : Canonical s) (k : DatumCell) : Canonical (s.putCell k) := .ite h.update h.update
theorem Canonical.writeBack (h : Canonical s) (k : DatumCell) : Canonical (s.writeBack k) := h.perform _ _ _ _

theorem Canonical.cellPlace (h : Canonical s) (die c a : Nat) (write sup : Bool) : Canonical (s.cellPlace die c a write sup).2 := by
  unfold State.cellPlace
  dsimp only
  split
  · exact h
  split
  next e => exact (h.translate _ _ _).of_snd e
  next e =>
    have hs := (h.translate _ _ _).of_snd e
    split
    · exact hs
    split
    · exact hs.update
    · exact .ite (hs.markDirty _ _) hs

theorem Canonical.activate (h : Canonical s) (line : Nat) : Canonical (s.activate line).2 := by
  unfold State.activate
  dsimp only
  split
  · exact h.tick.putCell _
  split
  · exact h
  split
  · exact (h.correct _ _ _ _).tick.putCell _
  split
  · exact h
  · exact ((h.update.writeBack _).correct _ _ _ _).tick.putCell _

theorem Canonical.insertUpdate (h : Canonical s) (g : Nat) (q : Request) : Canonical (s.insertUpdate g q).2 := by
  unfold State.insertUpdate
  dsimp only
  split
  next e => exact (h.cellPlace _ _ _ _ _).of_snd e
  next e =>
    have hs := (h.cellPlace _ _ _ _ _).of_snd e
    split
    next e => exact (hs.activate _).of_snd e
    next e => exact (hs.activate _).of_snd e
    next e =>
      have hs := (hs.activate _).of_snd e
      split
      · exact hs
      · exact hs
      · exact hs.putCell _

theorem Canonical.answerAsOf (h : Canonical s) (g : Nat) (q : Request) (k : DatumCell) : Canonical (s.answerAsOf g q k) :=
  .ite (h.failRequest _ _ _ _) (h.answer _ _ _)

theorem Canonical.readCell (h : Canonical s) (g : Nat) (q : Request) : Canonical (s.readCell g q) := by
  unfold State.readCell
  split
  · exact h
  split
  next e => exact ((h.cellPlace _ _ _ _ _).of_snd e).failRequest _ _ _ _
  next e =>
    have hs := (h.cellPlace _ _ _ _ _).of_snd e
    split
    next e => exact ((hs.activate _).of_snd e).failRequest _ _ _ _
    next e => exact (hs.activate _).of_snd e
    next e =>
      have hs := (hs.activate _).of_snd e
      exact .ite (hs.failRequest _ _ _ _) (.ite (hs.answer _ _ _) (.ite (hs.answerAsOf _ _ _) (hs.modRequest _ _ _)))

theorem Canonical.applyFrontier (h : Canonical s) (dom p f : Nat) : Canonical (s.applyFrontier dom p f) := by
  unfold State.applyFrontier
  dsimp only
  split
  · exact h
  · exact h.update

theorem Canonical.applyDfront (h : Canonical s) (g id : Nat) : Canonical (s.applyDfront g id) := by
  unfold State.applyDfront
  dsimp only
  split
  · exact h
  split
  · exact h
  split
  · exact h.failRequest _ _ _ _
  split
  · exact h.failRequest _ _ _ _
  split
  · exact h
  split
  · exact .ite ((h.applyFrontier _ _ _).answer _ _ _) ((h.applyFrontier _ _ _).modRequest _ _ _)
  · exact h.applyFrontier _ _ _

theorem Canonical.answerWaiting (h : Canonical s) (unit dom wm : Nat) : Canonical (s.answerWaiting unit dom wm) :=
  h.foldl (fun _ _ h => h.foldl (fun _ _ h => h.answerAsOf _ _ _) _) _

theorem Canonical.riseMark (h : Canonical s) (unit dom : Nat) : Canonical (s.riseMark unit dom) := by
  unfold State.riseMark
  dsimp only
  split
  · exact h
  split
  · exact h
  · exact ((h.update.answerWaiting _ _ _).foldl (fun _ _ h => .ite h ((h.putCell _).writeBack _)) _).mapRequests _

theorem Canonical.activateWanted (h : Canonical s) (line : Nat) : Canonical (s.activateWanted line) := .ite (h.activate _) h

theorem Canonical.tryInsert (h : Canonical s) (g id : Nat) : Canonical (s.tryInsert g id) := by
  unfold State.tryInsert
  split
  · exact h
  split
  · exact h
  split
  next e => exact ((h.insertUpdate _ _).of_snd e).failRequest _ _ _ _
  next e => exact ((h.insertUpdate _ _).of_snd e).answer _ _ _
  next e => exact (h.insertUpdate _ _).of_snd e

theorem Canonical.commitOne (h : Canonical s) (b : Buffered) : ∀ u, s.commitOne b = .done u → Canonical u := by
  intro u e
  unfold State.commitOne at e
  dsimp only at e
  split at e
  · split at e <;> cases e
    next e => exact (h.namedAccess _ _ _ _ _).of_snd e
  split at e
  · split at e <;> cases e
    next e => exact ((h.insertUpdate _ _).of_snd e).answer _ _ _
  split at e
  · cases e
  next e' =>
    have hc := (h.checkRequest _ _).of_snd e'
    split at e
    · split at e
      · cases e
      · split at e
        · cases e
        · split at e <;> cases e
          exact (((hc.enterChain _ _).piecesHome _ _).writePieces _ _ _).advanceChain _ _
    split at e
    · cases e
      exact hc.setEmpty _
    split at e
    · split at e <;> cases e
      · exact ((hc.atHome _ _ _ _ _).versioned _ _ _ _ _).answer _ _ _
      · exact hc
    split at e <;> cases e
    next e => exact ((hc.performOwner _ _ _).of_snd e).answer _ _ _

theorem Canonical.commitPass {s : State} (h : Canonical s) (bs : List Buffered) : Canonical (s.commitPass bs).1 := by
  induction bs generalizing s with
  | nil => exact h
  | cons b r ih =>
    unfold State.commitPass
    split
    next e => exact ih (h.commitOne _ _ e)
    · exact h
    split
    · exact ih h
    · exact h

theorem Canonical.commitAll {s : State} (h : Canonical s) (n : Nat) (bs : List Buffered) :
    ∀ u, (s.commitAll n bs).1 = .done u → Canonical u := by
  induction n generalizing s bs with
  | zero => intro u e; cases e
  | succ n ih =>
    intro u e
    unfold State.commitAll at e
    split at e
    · cases e
    · cases e
    next e' => cases e; exact (h.commitPass _).of_fst e'
    next e' =>
      split at e
      · cases e
      · exact ih ((h.commitPass _).of_fst e') _ u e

theorem Canonical.endInstance (h : Canonical s) (id : Nat) : Canonical (s.endInstance id) := h.update
theorem Canonical.freeInstance (h : Canonical s) (id : Nat) : Canonical (s.freeInstance id) := h.mapRequests _
theorem Canonical.dropInstance (h : Canonical s) (id : Nat) : Canonical (s.dropInstance id) := h.foldl (fun _ _ h => h.modElem _) _
theorem Canonical.skipHeld (h : Canonical s) (bs : List Buffered) : Canonical (s.skipHeld bs) :=
  h.foldl (fun _ _ h => (h.modElem _).enterChain _ _) _
theorem Canonical.discard (h : Canonical s) (i : Instance) (cause : Nat) : Canonical (s.discard i cause) :=
  (((h.dropInstance _).skipHeld _).endInstance _).elemFault _ _ _ _ _ _ _ _

theorem Canonical.commitBlock (h : Canonical s) (id : Nat) : Canonical (s.commitBlock id) := by
  unfold State.commitBlock
  dsimp only
  split
  · exact h
  refine .ite h ?_
  split
  · exact h.discard _ _
  split
  next e => exact ((h.commitAll _ _ _ (congrArg Prod.fst e)).freeInstance _).endInstance _
  · exact h.discard _ _
  · exact h.modInst _ _
  · exact h

theorem Canonical.stallCommit (h : Canonical s) (g id : Nat) : Canonical (s.stallCommit g id) := by
  unfold State.stallCommit
  split
  · exact h
  split
  · exact .ite (h.discard _ _) h
  · exact h

/-! ## Operations of an element -/

theorem KeepsCanonical.quietly {k : State → Firing → Option State} (hk : ∀ s F, Canonical s → MaybeCanonical (k s F)) :
    KeepsCanonical (quietly k) := by
  intro s F h
  unfold Machine.quietly
  split
  · exact .quiet h
  split
  · intro d e
    obtain ⟨u, hu, rfl⟩ := Option.map_eq_some_iff.mp e
    exact hk _ _ h u hu
  · exact .quiet h

theorem KeepsCanonical.passOn : KeepsCanonical passOn := by
  intro s F h
  unfold Machine.passOn
  dsimp only
  split
  · exact .quiet h
  split
  · exact .emit h _ _
  split
  · exact .quiet h
  · exact .emit h _ _
  · exact .emit h _ _

theorem KeepsCanonical.passInTurn : KeepsCanonical passInTurn := by
  intro s F h
  unfold Machine.passInTurn
  split
  next e => exact .some (((KeepsCanonical.passOn _ _ h).of_some e).modEctx _ _ _)
  · exact KeepsCanonical.passOn _ _ h

theorem KeepsCanonical.nullgen : KeepsCanonical nullgen := by
  intro s F h
  unfold Machine.nullgen
  dsimp only
  split
  · exact .emit h _ _
  split
  · exact .quiet h
  · exact .emit h _ _

theorem Canonical.sendUp (h : Canonical s) (t : Nat) (k : Token) : Canonical (s.sendUp t k) :=
  h.modTile _ fun _ k => .ite k.update.idleEvent k.update

theorem KeepsCanonical.copyUp : KeepsCanonical copyUp := by
  intro s F h
  unfold Machine.copyUp
  split
  next e => exact .ite (.some (((KeepsCanonical.regular (fun _ _ h => .emit h _ _) _ _ h).of_some e).sendUp _ _)) .none
  · exact KeepsCanonical.regular (fun _ _ h => .emit h _ _) _ _ h

theorem KeepsCanonical.errorCheck : KeepsCanonical errorCheck := by
  intro s F h
  unfold Machine.errorCheck
  dsimp only
  split
  · split
    · split
      · exact .quiet h
      · exact .emit h _ _
      · exact .emit h _ _
    · exact KeepsCanonical.regular (fun _ _ h => .emit h _ _) _ _ h
  · exact KeepsCanonical.regular (fun _ _ h => .emit h _ _) _ _ h

theorem Canonical.addRequest (h : Canonical s) (g : Nat) (q : Request) : Canonical (s.addRequest g q) := h.tick.modElem _
theorem Canonical.skipChain (h : Canonical s) (F : Firing) (op : Nat) : Canonical (s.skipChain F op) :=
  .ite ((h.addRequest _ _).enterChain _ _) h

theorem Canonical.sendRequest (h : Canonical s) (F : Firing) (q : Request) : Canonical (s.sendRequest F q) := by
  unfold State.sendRequest
  dsimp only
  split
  · split
    next e =>
      have hs := ((h.addRequest _ _).checkAll _ _).of_snd e
      exact .ite ((hs.failRequest _ _ _ _).skipChain _ _) (hs.failRequest _ _ _ _)
    next e =>
      have hs := ((h.addRequest _ _).checkAll _ _).of_snd e
      exact .ite (hs.enterChain _ _) hs
  · exact h.addRequest _ _

theorem Canonical.bufferRequest (h : Canonical s) (F : Firing) (q : Request) (i : Instance) : DeedCanonical (s.bufferRequest F q i) := by
  unfold State.bufferRequest
  dsimp only
  split
  · exact .emit (h.tick.modInst _ _) _ _
  split
  · split
    next e => exact .emit ((((h.checkRequest _ _).of_snd e).condemn _ _ _).skipChain _ _) _ _
    next e => exact .emit (((h.checkRequest _ _).of_snd e).tick.modInst _ _) _ _
  · exact .quiet ((h.tick.modInst _ _).modElem _)

theorem Canonical.issue (h : Canonical s) (F : Firing) (op : Nat) : DeedCanonical (s.issue F op) := by
  unfold State.issue
  dsimp only
  split
  · exact .none
  split
  · exact .ite (h.bufferRequest _ _ _) (.ite (.quiet (h.addRequest _ _)) (.quiet (h.sendRequest _ _)))
  · exact .quiet (h.sendRequest _ _)

theorem KeepsCanonical.memNode (op : Nat) : KeepsCanonical (memNode op) := by
  intro s F h
  unfold Machine.memNode
  dsimp only
  split
  · exact .ite (.quiet (h.skipChain _ _)) (.ite .none (.emit (h.skipChain _ _) _ _))
  split
  · exact .ite (.quiet (h.skipChain _ _)) (.ite .none (.emit (h.skipChain _ _) _ _))
  split
  · exact .quiet (h.skipChain _ _)
  · exact .ite (.quiet (h.skipChain _ _)) (.ite .none (.emit (h.skipChain _ _) _ _))
  · exact h.issue _ _

theorem KeepsCanonical.reorder : KeepsCanonical reorder := by
  intro s F h
  unfold Machine.reorder
  dsimp only
  split
  · exact KeepsCanonical.pureOp _ _ _ h
  · exact .ite (KeepsCanonical.pureOp _ _ _ h) (.ite .none (KeepsCanonical.pureOp _ _ _ (h.modEctx _ _ _)))

theorem KeepsCanonical.allocWidth : KeepsCanonical allocWidth := fun _ _ h => .emit (h.modEctx _ _ _) _ _
theorem KeepsCanonical.joinColours : KeepsCanonical joinColours := fun _ _ h => .ite (.emit h _ _) (.emit (h.modEctx _ _ _) _ _)
theorem KeepsCanonical.partColours : KeepsCanonical partColours :=
  fun _ _ h => .emit ((Canonical.ite (h.modEctx _ _ _) h).update) _ _

theorem Canonical.child (h : Canonical s) (g c : Nat) (p : BitVec 16) (take : Bool) (f : BitVec 16) (u : State)
    (e : s.child g c p take = some (f, u)) : Canonical u := by
  unfold State.child at e
  dsimp only at e
  split at e
  · cases e
  · split at e
    · cases e
    · cases e
      exact (Canonical.ite ((h.modEctx _ _ _).modElem _) (h.modEctx _ _ _)).update

theorem KeepsCanonical.newFrame (take : Bool) : KeepsCanonical (newFrame take) := by
  refine .regular fun s F h => ?_
  dsimp only
  split
  · exact .none
  next e => exact .emit (h.child _ _ _ _ _ _ e) _ _

theorem Canonical.markChains (h : Canonical s) (t c : Nat) (frm : BitVec 16) : Canonical (s.markChains t c frm) := h.modTile _
theorem KeepsCanonical.freeFrame : KeepsCanonical freeFrame :=
  .regular fun _ _ h => .ite .none (.emit ((h.modElem _).markChains _ _ _) _ _)

theorem Canonical.loopEnd (h : Canonical s) (g c n : Nat) : Canonical (s.loopEnd g c n) := by
  unfold State.loopEnd
  dsimp only
  split
  · exact h
  · exact .ite h (.ite ((h.modEctx _ _ _).deliver _ _ _ _ _ _) h)

theorem Canonical.loopIssue (h : Canonical s) (g c n : Nat) : Canonical (s.loopIssue g c n) := by
  unfold State.loopIssue
  dsimp only
  split
  · exact h
  · exact .ite h (.ite (h.loopEnd _ _ _) (.ite ((h.modEctx _ _ _).deliver _ _ _ _ _ _) h))

theorem Canonical.startLoop (h : Canonical s) (F : Firing) : MaybeCanonical (startLoop s F) :=
  .ite (.some (h.fireFault _ _ _ _)) (.some ((h.modEctx _ _ _).loopEnd _ _ _))

theorem KeepsCanonical.startLoop : KeepsCanonical fun s F => (startLoop s F).map fun s => ⟨s, none⟩ := by
  intro s F h d e
  obtain ⟨u, hu, rfl⟩ := Option.map_eq_some_iff.mp e
  exact h.startLoop F u hu

theorem KeepsCanonical.exitLoop : KeepsCanonical exitLoop := by
  intro s F h
  unfold Machine.exitLoop
  dsimp only
  split
  · exact .quiet ((h.modEctx _ _ _).loopEnd _ _ _)
  · exact .quiet (h.fireFault _ _ _ _)

theorem KeepsCanonical.loopOn : KeepsCanonical loopOn := fun _ _ h => .some h
theorem Canonical.stopLoops (h : Canonical s) (F : Firing) : MaybeCanonical (stopLoops s F) :=
  .ite (.some h) (.some ((h.modEctx _ _ _).foldl (fun _ _ h => h.loopEnd _ _ _) _))

theorem Canonical.groupPrd (h : Canonical s) (F : Firing) (ms : List Member) : Canonical (groupPrd s F ms).2 := by
  unfold Machine.groupPrd
  dsimp only
  split
  · exact h
  split
  · exact h
  split
  · exact h
  · exact h.freeChoice

theorem Canonical.groupResult (h : Canonical s) (F : Firing) (red : Reducer) (index size : Nat) (ms : List Member) :
    DeedCanonical (groupResult s F red index size ms) := by
  unfold Machine.groupResult
  dsimp only
  split
  · exact .emit h _ _
  split
  · split <;> exact .emit h _ _
  split
  · exact .emit (h.groupPrd _ _) _ _
  · exact .emit h _ _
  · exact .emit h _ _

theorem KeepsCanonical.reduce (red : Reducer) : KeepsCanonical (reduce red) :=
  fun _ _ h => .ite (.quiet (h.modEctx _ _ _)) ((h.modEctx _ _ _).groupResult _ _ _ _ _)

/-! ## Matrix nodes and arbiters -/

theorem Canonical.nodeFault (h : Canonical s) (tile : Nat) (e : Entry) (cause val ate : Nat) :
    Canonical (s.nodeFault tile e cause val ate) :=
  ((h.noteError _ _).tick.modNode _ _).pauseFrozen _

theorem Canonical.nodeDone (h : Canonical s) (tile : Nat) (e : Entry) (n : Node) (ate : Nat) (replies : List Token) :
    Canonical (s.nodeDone tile e n ate replies) :=
  h.update.foldl (fun _ _ h => h.inject _ _ _) _

theorem Canonical.nodeOut (h : Canonical s) (tile : Nat) (e : Entry) (a : EntryOut) : Canonical (s.nodeOut tile e a) := by
  unfold State.nodeOut
  split
  · exact h
  · exact h.nodeFault _ _ _ _ _
  · exact h.nodeDone _ _ _ _ _

theorem Canonical.nodeRun (h : Canonical s) (opc : Nat) (t : MxWord) {k : State → Nat → Node → Entry → State}
    (hk : ∀ tile n e, Canonical (k s tile n e)) : Canonical (s.nodeRun opc t k) := by
  unfold State.nodeRun
  dsimp only
  split
  · split
    · exact h.nodeFault _ _ _ _ _
    · exact hk _ _ _
  · exact h

theorem Canonical.nodePure (h : Canonical s) (opc : Nat) (t : MxWord) (k : Node → Entry → EntryOut) : Canonical (s.nodePure opc t k) :=
  h.nodeRun _ _ fun _ _ _ => h.nodeOut _ _ _
theorem Canonical.bWrite (h : Canonical s) (c tile col w0 b k p : Nat) : Canonical (s.bWrite c tile col w0 b k p) := h.performFor _ _ _ _ _

theorem Canonical.mxLoad (h : Canonical s) (tile : Nat) (t : MxWord) (n : Node) (e : Entry) : Canonical (s.mxLoad tile t n e) := by
  unfold State.mxLoad
  dsimp only
  split
  · exact h.nodeFault _ _ _ _ _
  split
  · exact h.nodeFault _ _ _ _ _
  split
  · exact h
  split
  · exact h.nodeFault _ _ _ _ _
  exact (h.foldl (fun _ _ h => h.foldl (fun _ _ h => by
    split
    · exact h.bWrite _ _ _ _ _ _ _
    · exact h) _) _).nodeDone _ _ _ _ _

theorem Canonical.spillRegs (h : Canonical s) (tile tid : Nat) : Canonical (s.spillRegs tile tid).2 := by
  unfold State.spillRegs
  dsimp only
  split
  · exact h
  · split <;> next e => exact (h.probe _ _ _ _ _).of_snd e

theorem Canonical.spillRegs_fst (h : Canonical s) (tile tid : Nat) : MaybeCanonical (s.spillRegs tile tid).1 := by
  unfold State.spillRegs
  dsimp only
  split
  · exact .none
  split
  · exact .none
  next e => exact .some (((((h.probe _ _ _ _ _).of_snd e).atHome _ _ _ _ _).perform _ _ _ _).modTile _ fun _ k => k.modTask _ _)

theorem Canonical.fetchRegs (h : Canonical s) (tile tid : Nat) : Canonical (s.fetchRegs tile tid).2 := by
  unfold State.fetchRegs
  dsimp only
  split
  next e => exact (h.probe _ _ _ _ _).of_snd e
  next e => exact ((h.probe _ _ _ _ _).of_snd e).atHome _ _ _ _ _

theorem Canonical.fetchRegs_fst (h : Canonical s) (tile tid : Nat) : MaybeCanonical (s.fetchRegs tile tid).1 := by
  unfold State.fetchRegs
  dsimp only
  split
  · exact .none
  next e => exact .some ((((h.probe _ _ _ _ _).of_snd e).atHome _ _ _ _ _).modTile _ fun _ k => k.modTask _ _)

theorem Canonical.moveParked_fst (h : Canonical s) (tile c tid : Nat) (avoid : List Nat) :
    MaybeCanonical (s.moveParked tile c tid avoid).1 := by
  unfold State.moveParked
  split
  · exact .some ((h.modNode _ _).modTile _ fun _ k => k.modTask _ _)
  split
  next e => exact .some (((h.spillRegs_fst _ _).of_fst e).modNode _ _)
  next e =>
    split
    · exact .some ((((h.spillRegs _ _).of_snd e).modNode _ _).modTile _ fun _ k => k.modTask _ _)
    · exact .none

theorem Canonical.allocColumns {s : State} (h : Canonical s) (tile : Nat) (ctx : BitVec 2) (all cs : List Nat) :
    MaybeCanonical (s.allocColumns tile ctx all cs) := by
  induction cs generalizing s with
  | nil => exact .some h
  | cons c r ih =>
    unfold State.allocColumns
    split
    · exact ih h
    · exact ih (h.modNode _ _)
    split
    · exact .none
    next e => exact ih (((h.moveParked_fst _ _ _ _).of_fst e).modNode _ _)

theorem Canonical.mxAlloc (h : Canonical s) (tile : Nat) (t : MxWord) (n : Node) (e : Entry) : Canonical (s.mxAlloc tile t n e) := by
  unfold State.mxAlloc
  split
  · exact h.nodeFault _ _ _ _ _
  split
  · exact h
  next e => exact ((h.allocColumns _ _ _ _).of_some e).nodeDone _ _ _ _ _

theorem Canonical.mxFree (h : Canonical s) (tile : Nat) (t : MxWord) (n : Node) (e : Entry) : Canonical (s.mxFree tile t n e) := by
  unfold State.mxFree
  split
  · exact h.nodeFault _ _ _ _ _
  · exact h.nodeDone _ _ _ _ _

/-- Columns moved, or moved up to a failing access. -/
theorem Canonical.moveColumns {s : State} (h : Canonical s) (tile : Nat) (e : Entry) (write : Bool) (cs : List Nat) (a : Nat) :
    (∀ u, s.moveColumns tile e write cs a = .ok u → Canonical u)
      ∧ ∀ c va u, s.moveColumns tile e write cs a = .error (c, va, u) → Canonical u := by
  induction cs generalizing s a with
  | nil => exact ⟨fun u e => by cases e; exact h, fun c va u e => by cases e⟩
  | cons c r ih =>
    unfold State.moveColumns
    split
    next e => exact ⟨fun u k => by (cases k), fun _ _ u k => by cases k; exact (h.probeAll _ _ _ _).of_snd e⟩
    next e =>
      have hp := (h.probeAll _ _ _ _).of_snd e
      dsimp only
      split
      · exact ih ((hp.foldl (fun _ _ k => k.atHome _ _ _ _ _) _).writePieces _ _ _) _
      split
      · exact ⟨fun u k => by (cases k), fun _ _ u k => by cases k; exact hp.foldl (fun _ _ k => k.atHome _ _ _ _ _) _⟩
      · exact ih (((hp.foldl (fun _ _ k => k.atHome _ _ _ _ _) _).foldl (fun _ _ k => k.correct _ _ _ _) _).modNode _ _) _

theorem Canonical.mxPark (h : Canonical s) (tile : Nat) (t : MxWord) (n : Node) (e : Entry) : Canonical (s.mxPark tile t n e) := by
  unfold State.mxPark
  dsimp only
  split
  · exact h
  refine .ite (h.nodeFault _ _ _ _ _) ?_
  split
  · exact h.nodeFault _ _ _ _ _
  split
  next e' => exact ((h.moveColumns _ _ _ _ _).2 _ _ _ e').nodeFault _ _ _ _ _
  next e' => exact ((h.moveColumns _ _ _ _ _).1 _ e').nodeDone _ _ _ _ _

theorem Canonical.mxFetch (h : Canonical s) (tile : Nat) (t : MxWord) (n : Node) (e : Entry) : Canonical (s.mxFetch tile t n e) := by
  unfold State.mxFetch
  dsimp only
  split
  · exact h
  refine .ite (h.nodeFault _ _ _ _ _) ?_
  split
  · exact h.nodeFault _ _ _ _ _
  split
  · exact h
  next e' =>
    have ha := (h.allocColumns _ _ _ _).of_some e'
    split
    next e'' => exact (((ha.moveColumns _ _ _ _ _).2 _ _ _ e'').modNode _ _).nodeFault _ _ _ _ _
    next e'' => exact ((ha.moveColumns _ _ _ _ _).1 _ e'').nodeDone _ _ _ _ _

theorem Canonical.enqueue (h : Canonical s) (F : Firing) (w : BitVec 64) : MaybeCanonical (s.enqueue F w) :=
  .ite .none (.some (h.modNode _ _))

theorem KeepsCanonical.sendEntry (word : ElemCtx → Firing → BitVec 64) : KeepsCanonical (sendEntry word) := by
  intro s F h
  unfold Machine.sendEntry
  split
  · exact .ite (.quiet (h.fireFault _ _ _ _)) (KeepsCanonical.quietly (fun _ _ h => h.enqueue _ _) _ _ h)
  · exact KeepsCanonical.quietly (fun _ _ h => h.enqueue _ _) _ _ h

theorem KeepsCanonical.feed : KeepsCanonical feed := by
  intro s F h
  unfold Machine.feed
  dsimp only
  split
  all_goals
    split
    · exact .ite (.quiet (h.modNode _ _)) .none
    split
    · exact .quiet h
    · exact .ite (.quiet (h.modNode _ _)) .none
    · exact .ite (.quiet (h.modNode _ _)) .none

/-- The firings of an element by the numbers of their operations, R47. -/
theorem Canonical.fireNum (h : Canonical s) (w : OpWord) : ∀ n, MaybeCanonical (fireNum n w s)
  | 0 | 1 | 2 | 3 | 4 | 5 | 6 | 7 | 8 | 9 | 10 | 11 | 12 | 13 | 14 | 15 | 16 | 17 | 18 | 19 | 20 | 21 | 22 | 23 | 24 | 25 | 26 | 27 | 28 |
    29 | 30 | 31 | 32 | 33 | 34 | 35 | 36 | 37 | 38 | 39 | 40 | 41 | 45 | 46 | 48 | 49 | 50 | 51 | 59 | 64 | 73 | 74 | 75 | 76 | 77 | 78 |
    90 | 98 | 99 | 105 | 106 | 107 | 108 | 109 | 110 | 111 | 112 | 113 | 114 | 115 | 116 | 117 | 118 => h.fireBy _ _ (.pureOp _)
  | 42 => h.fireBy _ _ (.regular fun _ _ h => .some h)
  | 43 => h.fireBy _ _ .passOn
  | 44 => h.fireBy _ _ .passInTurn
  | 47 => h.fireBy _ _ .nullgen
  | 52 => h.fireBy _ _ .reorder
  | 53 => h.fireBy _ _ (.regular .allocWidth)
  | 54 => h.fireBy _ _ (.regular .joinColours)
  | 55 => h.fireBy _ _ (.regular .partColours)
  | 56 | 58 => h.fireBy _ _ (.newFrame _)
  | 57 => h.fireBy _ _ .freeFrame
  | 60 => h.fireBy _ _ (.regular .startLoop)
  | 61 => h.fireBy _ _ .exitLoop
  | 62 => h.fireBy _ _ (.regular .loopOn)
  | 63 => h.fireBy _ _ (.quietly fun _ F h => h.stopLoops F)
  | 65 | 66 | 67 | 68 | 69 | 70 | 71 | 72 => h.fireBy _ _ (.reduce _)
  | 79 | 80 | 81 | 82 | 83 | 84 | 85 | 86 | 87 | 88 | 89 | 91 | 92 | 93 | 94 => h.fireBy _ _ (.memNode _)
  | 95 | 97 => h.fireBy _ _ (.sendEntry _)
  | 96 => h.fireBy _ _ .feed
  | 100 => h.fireBy _ _ .copyUp
  | 101 => h.fireBy _ _ (fun _ _ h => .quiet h)
  | 102 => h.fireBy _ _ .errorCheck
  | 103 | 104 => h.fireBy _ _ (.quietly fun _ F h => .some (h.fireFault F _ _ _))
  | 119 => h.fireBy _ _ (.regular fun _ _ h => .emit h _ _)
  | _ + 120 => .none

theorem Canonical.focusSlot (h : Canonical s) (g c n : Nat) : Canonical (s.focusSlot g c n) := h.update
theorem Canonical.fireSlot (h : Canonical s) (g c n : Nat) : MaybeCanonical (s.fireSlot g c n) := (h.focusSlot _ _ _).fireNum _ _
theorem Canonical.arbitrate (h : Canonical s) (g : Nat) : MaybeCanonical (s.arbitrate g) :=
  .findSome? _ fun _ => (h.fireSlot _ _ _).map fun _ k => k.modElem _

theorem Canonical.admitBlock (h : Canonical s) (g c n : Nat) : MaybeCanonical (s.admitBlock g c n) := by
  unfold State.admitBlock
  split
  · exact .none
  · exact h.fireSlot _ _ _

/-! ## Words on local state -/

theorem Tile.Canonical.dataWrite (k : T.Canonical) (a n x : Nat) : (T.dataWrite a n x).Canonical :=
  ⟨k.istore, Store.wf_write _ _ _ _ k.dstore, k.overlay⟩

theorem Canonical.dataLoad (h : Canonical s) (d a : SReg) (off : BitVec 10) (n : Nat) (ext : Nat → Word) :
    Canonical (s.dataLoad d a off n ext) := by
  unfold State.dataLoad
  dsimp only
  split
  · exact h.raise _ _
  · exact .ite (h.raise _ _) ((h.correct _ _ _ _).retireIn _ _)

theorem Canonical.dataStore (h : Canonical s) (v a : SReg) (off : BitVec 10) (n : Nat) (g : BitVec 4) :
    Canonical (s.dataStore v a off n g) := by
  unfold State.dataStore
  dsimp only
  split
  · exact h.guarded _ (h.raise _ _)
  · exact h.guarded _ ((h.modHere fun _ k => k.dataWrite _ _ _).retire _)

theorem Canonical.branch (h : Canonical s) (off : BitVec 22) : Canonical (s.branch off) := h.jump _
theorem Canonical.call (h : Canonical s) (off : BitVec 22) : Canonical (s.call off) := h.finish _ _
theorem Canonical.jumpReg (h : Canonical s) (t : Word) : Canonical (s.jumpReg t) := .ite (h.raise _ _) (.ite (h.raise _ _) (h.jump _))
theorem Canonical.ret (h : Canonical s) (t : Word) : Canonical (s.ret t) := .ite (h.raise _ _) (.ite (h.raise _ _) (h.jump _))
theorem Canonical.callTable (h : Canonical s) (d : SReg) (a b : Word) : Canonical (s.callTable d a b) :=
  .ite (h.raise _ _) (.ite (h.raise _ _) (.ite (h.raise _ _) (h.finish _ _)))
theorem Tile.Canonical.chmapWrite (k : T.Canonical) (c : Nat) (v : Word) : (chmapWrite T c v).Canonical :=
  .ite ((k.modCtx _ _).bindColour _ _ _ _) (k.modCtx _ _)

theorem Tile.Canonical.csrWrite (k : T.Canonical) (tid n : Nat) (v : Word) : (csrWrite T tid n v).Canonical := by
  unfold Machine.csrWrite
  dsimp only
  split
  · exact k.modTask _ _
  · exact k.modTask _ _
  · exact k.modTask _ _
  · exact k.modTask _ _
  · exact k.modCtx _ _
  · exact k.modTask _ _
  · exact k.modCtx _ _
  · exact k.modCtx _ _
  · exact k.chmapWrite _ _
  · exact k.modCtx _ _
  · exact k.modCtx _ _
  · exact k.modCtx _ _
  · exact k.modCtx _ _
  · exact k.modCtx _ _
  · exact k.modCtx _ _
  · exact k.modCtx _ _
  · exact k

theorem Canonical.csrAccess (h : Canonical s) (d : SReg) (csr : BitVec 10) (fn : BitVec 7) (write : Option (Word → Word)) :
    Canonical (s.csrAccess d csr fn write) := by
  unfold State.csrAccess
  split
  · exact h.raise _ _
  split
  · exact h.writeReg _ _
  · exact .ite (h.raise _ _) (((h.retire _).modHere fun _ k => k.csrWrite _ _ _).dropLost _)

/-! ## Device memory and tasks -/

theorem Canonical.curProbe (h : Canonical s) (va n : Nat) (need : Need) : Canonical (s.curProbe va n need).2 := h.probe _ _ _ _ _

theorem Canonical.deviceLoad (h : Canonical s) (d a : SReg) (off : BitVec 10) (n : Nat) : Canonical (s.deviceLoad d a off n) := by
  unfold State.deviceLoad
  dsimp only
  split
  · exact h.raise _ _
  split
  next e => exact ((h.curProbe _ _ _).of_snd e).raise _ _
  next e =>
    have hs := (h.curProbe _ _ _).of_snd e
    split
    · exact (hs.atHome _ _ _ _ _).raise _ _
    · exact ((hs.atHome _ _ _ _ _).correct _ _ _ _).retireIn _ _

theorem Canonical.deviceStore (h : Canonical s) (v a : SReg) (off : BitVec 10) (n : Nat) (g : BitVec 4) :
    Canonical (s.deviceStore v a off n g) := by
  unfold State.deviceStore
  dsimp only
  split
  · exact h.guarded _ (h.raise _ _)
  split
  next e => exact h.guarded _ (((h.curProbe _ _ _).of_snd e).raise _ _)
  next e => exact h.guarded _ ((((h.curProbe _ _ _).of_snd e).accept _ _ _ _ _ _).retire _)

theorem Canonical.atomicAt (h : Canonical s) (i : Instr) (d a b : Word) {k : State → Nat → State}
    (hk : ∀ u pa, Canonical u → Canonical (k u pa)) : Canonical (s.atomicAt i d a b k) := by
  unfold State.atomicAt
  refine .ite (h.raise _ _) ?_
  split
  next e => exact ((h.curProbe _ _ _).of_snd e).raise _ _
  next e =>
    have hp := (h.curProbe _ _ _).of_snd e
    refine .ite (hp.modCur _) ?_
    dsimp only
    split
    · exact (hp.atHome _ _ _ _ _).raise _ _
    · exact hk _ _ ((hp.atHome _ _ _ _ _).correct _ _ _ _)

theorem Canonical.atomic (h : Canonical s) (i : Instr) (fn : Nat) (d a b : SReg) (g : BitVec 4) : Canonical (s.atomic i fn d a b g) :=
  h.guarded _ (h.atomicAt _ _ _ _ fun _ _ h => by
    dsimp only
    split
    · exact (h.perform _ _ _ _).writeReg _ _
    · exact h.writeReg _ _)

theorem Canonical.waitv (h : Canonical s) (d a b : SReg) (g : BitVec 4) : Canonical (s.waitv d a b g) :=
  h.guarded _ (h.atomicAt _ _ _ _ fun _ _ h => .ite (h.writeReg _ _) (((h.modCur _).block _).update))
theorem Canonical.releaseAll (h : Canonical s) (ms : List Monitor) : Canonical (s.releaseAll ms) :=
  h.update.foldl (fun _ _ h => h.release _) _
theorem Canonical.wake (h : Canonical s) (d a b : SReg) (g : BitVec 4) : Canonical (s.wake d a b g) :=
  h.guarded _ (h.atomicAt _ _ _ _ fun _ _ h => (h.releaseAll _).writeReg _ _)

theorem Canonical.tbind (h : Canonical s) (d a b : SReg) : Canonical (s.tbind d a b) := by
  unfold State.tbind
  dsimp only
  split
  · exact h.raise _ _
  split
  · exact h.writeReg _ _
  · exact .ite (h.writeReg _ _) (((h.publish _).modHere fun _ k => (k.create _ _ _ _).bindColour _ _ _ _).writeReg _ _)

theorem Canonical.tspawn (h : Canonical s) (d a b : SReg) : Canonical (s.tspawn d a b) := by
  unfold State.tspawn
  dsimp only
  split
  · exact h.raise _ _
  split
  · exact h.writeReg _ _
  · exact ((h.publish _).modHere fun _ k => k.create _ _ _ _).writeReg _ _

theorem Canonical.jobDone (h : Canonical s) (j : Option (Space × Nat)) : Canonical (s.jobDone j) := by
  unfold State.jobDone
  dsimp only
  split
  · exact h
  split
  · exact h.callBack _ _ _ _
  · exact (h.callBack _ _ _ _).perform _ _ _ _

theorem Canonical.freeTask (h : Canonical s) (t n : Nat) : Canonical (s.freeTask t n) := by
  unfold State.freeTask
  dsimp only
  split
  · exact (((h.dropMonitor _ _).modNode _ _).update.modTile _ fun _ k => ((k.unbindTask _).enter _ _ _).modTask _ _).jobDone _
  · exact ((h.dropMonitor _ _).update.modTile _ fun _ k => ((k.unbindTask _).enter _ _ _).modTask _ _).jobDone _

theorem Canonical.texit (h : Canonical s) : Canonical s.texit := (h.retire _).freeTask _ _
theorem Canonical.chrd (h : Canonical s) (d a b : SReg) : Canonical (s.chrd d a b) :=
  .ite (h.raise _ _) (.ite (h.block _) (.ite ((h.writeReg _ _).modHere fun _ k => k.setChannel _ _ _) (h.writeReg _ _)))
theorem Canonical.chwr (h : Canonical s) (a b : SReg) : Canonical (s.chwr a b) :=
  .ite (h.retire _) (.ite h.stall (((h.publish _).retire _).modHere))

theorem Canonical.twait (h : Canonical s) (d : SReg) : Canonical (s.twait d) := by
  unfold State.twait
  dsimp only
  split
  · exact h.writeReg _ _
  split
  · exact h.writeReg _ _
  · exact h.block _

theorem Canonical.makeEligible (h : Canonical s) : Canonical s.makeEligible :=
  h.foldl (fun _ _ h => by
    split
    · exact .ite (h.tick.modLaunch _ _) h
    · exact h) _

theorem Canonical.checkTrigger (h : Canonical s) (n : Nat) : Canonical (s.checkTrigger n) := h.modLaunch _ _

theorem Canonical.trigger (h : Canonical s) : Canonical s.trigger := by
  unfold State.trigger
  dsimp only
  split
  · exact ((h.fence _ _).publish _).retire _
  · exact (((((h.fence _ _).publish _).retire _).modHere fun _ k => k.modCtx _ _).checkTrigger _).makeEligible

theorem Canonical.releaseBarrier (h : Canonical s) (t c bar : Nat) (lw lh : BitVec 4) (whole : Bool) :
    Canonical (s.releaseBarrier t c bar lw lh whole) := by
  unfold State.releaseBarrier
  dsimp only
  split
  · exact h
  · exact h.foldl (fun _ _ h => h.modTile _ fun _ k => (k.modCtx _ _).foldl (fun _ _ h => (h.update.modTask _ _).wake _) _) _

theorem Canonical.barq (h : Canonical s) (a : SReg) : Canonical (s.barq a) :=
  .ite (h.raise _ _) (((((h.fence _ _).publish _).block _).modHere fun _ k => k.modCtx _ _).releaseBarrier _ _ _ _ _ _)

theorem Canonical.findBank (h : Canonical s) (t : Nat) : Canonical (s.findBank t).2 := by
  unfold State.findBank
  split
  · exact h
  split
  · exact h
  split
  · exact (h.modNode _ _).modTile _ fun _ k => k.modTask _ _
  split
  next e => exact (h.spillRegs_fst _ _).of_fst e
  next e => exact (h.spillRegs _ _).of_snd e

theorem Canonical.placeRegs (h : Canonical s) (t n b : Nat) : Canonical (s.placeRegs t n b).2 := by
  unfold State.placeRegs
  dsimp only
  split
  · exact h
  · split
    · exact h
    next e => exact (h.fetchRegs _ _).of_snd e
  · exact h

theorem Canonical.placeRegs_fst (h : Canonical s) (t n b : Nat) : MaybeCanonical (s.placeRegs t n b).1 := by
  unfold State.placeRegs
  dsimp only
  split
  · exact .some ((h.modNode _ _).modTile _ fun _ k => k.modTask _ _)
  · split
    next e => exact .some (((h.fetchRegs_fst _ _).of_fst e).modTile _ fun _ k => k.modTask _ _)
    · exact .none
  · exact .some (h.modTile _ fun _ k => k.modTask _ _)

theorem Canonical.selectTask (h : Canonical s) (t : Nat) : Canonical (s.selectTask t) := by
  unfold State.selectTask
  dsimp only
  split
  · exact h
  split
  · exact h
  split
  · exact h.modTile _ fun _ k => k.enter _ _ _
  split
  next e => exact ((h.findBank _).of_snd e).modTile _
  next e =>
    have hs := (h.findBank _).of_snd e
    split
    next e => exact (((hs.placeRegs_fst _ _ _).of_fst e).modTile _).modTile _ fun _ k => k.enter _ _ _
    next e => exact ((hs.placeRegs _ _ _).of_snd e).modTile _

theorem Canonical.bankFreed (h : Canonical s) (t : Nat) : Canonical (s.bankFreed t) := .ite ((h.modTile _).selectTask _) h

theorem Canonical.beatArrival (h : Canonical s) (t : Nat) : Canonical (s.beatArrival t) :=
  (h.modTile _ fun _ k => by
    split
    · exact k.admitHeld _ _
    · exact k).dropLost _

theorem Canonical.busAccept (h : Canonical s) (t c col : Nat) : Canonical (s.busAccept t c col) :=
  (h.foldl (fun _ _ h => h.offer _ _ _ _) _).clearHead _ _ _ _
theorem Canonical.renameAgent (h : Canonical s) (a b : Nat) : Canonical (s.renameAgent a b) := h.update

theorem Canonical.workSteal (h : Canonical s) (t : Nat) : Canonical (s.workSteal t) := by
  unfold State.workSteal
  refine .ite h ?_
  split
  · dsimp only
    split
    · exact h
    next e =>
      refine Canonical.renameAgent (.modTile (.modTile ?_ _ fun _ k => k.modTask _ _) _ fun _ k => k.create _ _ _ _) _ _
      split at e
      · exact (h.fetchRegs_fst _ _).of_some e
      · cases e; exact h.modNode _ _
      · cases e; exact h
  · exact h

/-! ## Engines, streams and copies -/

theorem Canonical.gated (h : Canonical s) (maj : Nat) (y : Sync) (k : Canonical u) : Canonical (s.gated maj y u) := .ite k (h.withhold _)

theorem Canonical.issueSync (h : Canonical s) (maj : Nat) (y : Sync) : Canonical (s.issueSync maj y).2 := by
  unfold State.issueSync
  dsimp only
  split
  · exact ((Canonical.ite (h.modHere fun _ k => k.modPair _ _ _ _) h).modHere fun _ k => k.modPair _ _ _ _).tick
  · exact .ite (h.modHere fun _ k => k.modPair _ _ _ _) h

theorem Canonical.tokenDue (h : Canonical s) (t c maj fifo q : Nat) : Canonical (s.tokenDue t c maj fifo q) :=
  h.modTile _ fun _ k => k.modPair _ _ _ _

theorem Canonical.retirePosted (h : Canonical s) (maj : Nat) (y : Sync) (f : Task → Task) : Canonical (s.retirePosted maj y f).2 := by
  unfold State.retirePosted
  dsimp only
  exact (h.issueSync _ _).retire _

theorem Canonical.retireNow (h : Canonical s) (maj : Nat) (y : Sync) (f : Task → Task) : Canonical (s.retireNow maj y f) := by
  unfold State.retireNow
  dsimp only
  split
  next e => exact ((h.retirePosted _ _ _).of_snd e).tokenDue _ _ _ _ _
  next e => exact (h.retirePosted _ _ _).of_snd e

theorem Canonical.waitWith (h : Canonical s) (k : Taken) (w : Waiting) : Canonical (s.waitWith k w) := (h.modCur _).block _

theorem Canonical.takeSynced (h : Canonical s) (maj : Nat) (y : Sync) (k : Taken) (w : Waiting) : Canonical (s.takeSynced maj y k w) := by
  unfold State.takeSynced
  dsimp only
  exact ((h.publish _).issueSync _ _).tick.waitWith _ _

theorem Canonical.takePlain (h : Canonical s) (k : Taken) : Canonical (s.takePlain k) := (h.publish _).waitWith _ _

theorem Canonical.dropOrphan (h : Canonical s) (t n : Nat) : Canonical (s.dropOrphan t n) := by
  unfold State.dropOrphan
  split
  · exact h
  · exact h.update

theorem Canonical.modTaken (h : Canonical s) (t n : Nat) (f : Taken → Taken) : Canonical (s.modTaken t n f) := by
  unfold State.modTaken
  split
  · exact h.modTile _ fun _ k => k.modTask _ _
  split
  · exact h
  · exact h.update

theorem Canonical.endWord (h : Canonical s) (t n : Nat) (v : Word) : Canonical (s.endWord t n v) := by
  unfold State.endWord
  dsimp only
  split
  · exact h
  split
  · exact (Canonical.ite (h.modTile _ fun _ k => (k.modTask _ _).update.wake _) (h.dropOrphan _ _)).tokenDue _ _ _ _ _
  · exact .ite (h.modTile _ fun _ k => (k.modTask _ _).update.wake _) (h.dropOrphan _ _)

theorem Canonical.failWord (h : Canonical s) (t n cause : Nat) (v : Word) : Canonical (s.failWord t n cause v) := by
  unfold State.failWord
  dsimp only
  split
  · exact h
  · exact (Canonical.ite (h.modTile _ fun _ k => (k.modTask _ _).wake _) (h.dropOrphan _ _)).modTile _ fun _ k => k.untake _

theorem Canonical.raiseTaken (h : Canonical s) : Canonical s.raiseTaken := by
  unfold State.raiseTaken
  split
  · exact (h.modCur _).raise _ _
  · exact h

/-- An answer to a word that waits comes with a state in canonical form. -/
def AnswersCanonical (ready : State → Nat → Taken → Option (Word × State)) : Prop :=
  ∀ s t k v u, Canonical s → ready s t k = some (v, u) → Canonical u

theorem Canonical.waitFor (h : Canonical s) (maj : Nat) (y : Sync) (k : Taken) {ready : State → Nat → Taken → Option (Word × State)}
    (hr : AnswersCanonical ready) : Canonical (s.waitFor maj y k ready) := by
  unfold State.waitFor
  split
  next e => exact (hr _ _ _ _ _ h e).retireNow _ _ _
  · exact h.takeSynced _ _ _ _

theorem Canonical.serveTickets (h : Canonical s) (t : Nat) {ready : State → Nat → Taken → Option (Word × State)}
    (hr : AnswersCanonical ready) : Canonical (s.serveTickets t ready) := by
  refine h.foldl (fun s n h => .ite ?_ h) _
  split
  · exact h
  split
  next e => exact (hr _ _ _ _ _ h e).endWord _ _ _
  · exact h

theorem Canonical.giveUp (h : Canonical s) (t n : Nat) : Canonical (s.giveUp t n) := by
  unfold State.giveUp
  dsimp only
  split
  · split
    · exact h.modTile _ fun _ k => (k.modTask _ _).untake _
    · exact h
  · exact h

theorem Canonical.orphan (h : Canonical s) (t n : Nat) : Canonical (s.orphan t n) := by
  unfold State.orphan
  dsimp only
  split
  · split
    · exact .ite ((h.modTile _ fun _ k => k.modTask _ _).update) h
    · exact h
  · exact h.giveUp _ _

theorem Canonical.resume (h : Canonical s) (t n : Nat) (f : Task → Task) : Canonical (s.resume t n f) :=
  h.modTile _ fun _ k => by
    split
    · exact k.enter _ _ _
    · exact (k.modTask _ _).enter _ _ _

theorem Canonical.streamPlace (h : Canonical s) (t c : Nat) (sup : Bool) (w : BitVec 256) (o n : Nat) (write : Bool) :
    Canonical (s.streamPlace t c sup w o n write).2 := by
  unfold State.streamPlace
  dsimp only
  split
  · split
    · exact h
    · split <;> exact h
  · split
    · exact h
    split
    · exact h
    split <;> next e => exact (h.probeAll _ _ _ _).of_snd e

theorem Canonical.streamReach (h : Canonical s) (t c : Nat) (sup : Bool) (w : BitVec 256) (o n : Nat) (write : Bool) :
    Canonical (s.streamReach t c sup w o n write).2.2 := by
  unfold State.streamReach
  split
  next e => exact (h.streamPlace _ _ _ _ _ _ _).of_snd e
  next e =>
    have hs := (h.streamPlace _ _ _ _ _ _ _).of_snd e
    split
    · exact hs
    split <;> next e => exact (hs.streamPlace _ _ _ _ _ _ _).of_snd e

theorem Canonical.scramble {s : State} (h : Canonical s) (v : Nat) (l : List Nat) : Canonical (s.scramble v l).2 := by
  induction l generalizing s v with
  | nil => exact h
  | cons i r ih => exact ih h.update _

-- The recursions `gather`, `scatter` and `copyPlan` are opened by `show`: their equations take `unfold` ten times as long to make.
theorem Canonical.gather {s : State} (h : Canonical s) (t c : Nat) (sup : Bool) (w : BitVec 256) (m o n : Nat) :
    Canonical (s.gather t c sup w m o n).2 := by
  induction n generalizing s o with
  | zero => exact h
  | succ n ih =>
    have hr := ((h.streamReach t c sup w o m false).piecesHome engineAgent (s.streamReach t c sup w o m false).1).foldl
      (fun _ (p : Space × Nat × Nat) h => h.correct (tileDie t) p.1 p.2.1 p.2.2) (s.streamReach t c sup w o m false).1
    show Canonical (Prod.snd (match (s.streamReach t c sup w o m false).2.1 with | some _ => (_, _) | none => (_, _)))
    split
    · exact hr
    · exact ih hr _

theorem Canonical.tvset (h : Canonical s) (d a b : SReg) (y : Sync) : Canonical (s.tvset d a b y) :=
  h.gated _ _ (.ite (h.raise _ _) (.ite (h.raise _ _) (.ite (h.retireNow _ _ _) ((h.modHere fun _ k => k.modCtx _ _).retireNow _ _ _))))
theorem Canonical.tvclr (h : Canonical s) (a : SReg) (y : Sync) : Canonical (s.tvclr a y) :=
  h.gated _ _ ((h.modHere fun _ k => k.modCtx _ _).retireNow _ _ _)
theorem Canonical.modStream (h : Canonical s) (t c n : Nat) (f : Stream → Stream) : Canonical (s.modStream t c n f) :=
  h.modTile _ fun _ k => k.modCtx _ _

theorem Canonical.startStream (h : Canonical s) (t c n : Nat) : Canonical (s.startStream t c n) := by
  unfold State.startStream
  split
  · exact .ite h (h.modStream _ _ _ _)
  · exact h

theorem Canonical.sbind (h : Canonical s) (d a b : SReg) (y : Sync) : Canonical (s.sbind d a b y) := by
  unfold State.sbind
  dsimp only
  split
  · exact h.gated _ _ (h.retireNow _ _ _)
  · exact h.gated _ _ (.ite (h.retireNow _ _ _) ((((h.publish _).retirePosted _ _ _).modTile _ fun _ k => k.modCtx _ _).tick.startStream _ _ _))

theorem Canonical.sbar (h : Canonical s) (y : Sync) : Canonical (s.sbar y) :=
  h.gated _ _ ((h.modHere fun _ k => k.modCtx _ _).retireNow _ _ _)
theorem Canonical.scan (h : Canonical s) (a : SReg) (y : Sync) : Canonical (s.scan a y) :=
  h.gated _ _ ((h.modStream _ _ _ _).retireNow _ _ _)
theorem Canonical.dropStreams (h : Canonical s) (t c : Nat) (ns : List Nat) : Canonical (s.dropStreams t c ns) :=
  h.modTile _ fun _ k => k.modCtx _ _
theorem Canonical.dropCopies (h : Canonical s) (t c : Nat) (ns : List Nat) : Canonical (s.dropCopies t c ns) :=
  h.modTile _ fun _ k => k.modCtx _ _

theorem AnswersCanonical.copyReady : AnswersCanonical State.copyReady := by
  intro s t k v u h e
  unfold State.copyReady at e
  dsimp only at e
  split at e
  · split at e
    · split at e <;> cases e
      exact h.dropStreams _ _ _
    · split at e
      · cases e; exact h
      · split at e <;> cases e
        exact h.dropStreams _ _ _
  · split at e
    · split at e <;> cases e
      exact h.dropCopies _ _ _
    · split at e
      · cases e; exact h
      · split at e <;> cases e
        exact h.dropCopies _ _ _
  · cases e

theorem Canonical.swait (h : Canonical s) (d a : SReg) (y : Sync) : Canonical (s.swait d a y) := h.gated _ _ (h.waitFor _ _ _ .copyReady)
theorem Canonical.streamFault (h : Canonical s) (t c n : Nat) (z : Stream) (cause o : Nat) : Canonical (s.streamFault t c n z cause o) :=
  (h.modStream _ _ _ _).elemFault _ _ _ _ _ _ _ _

theorem Canonical.emitStream (h : Canonical s) (t c n : Nat) (z : Stream) : Canonical (s.emitStream t c n z) := by
  unfold State.emitStream
  dsimp only
  split
  · exact (h.gather _ _ _ _ _ _ _).streamFault _ _ _ _ _ _
  · exact (h.gather _ _ _ _ _ _ _).streamFault _ _ _ _ _ _
  · exact .ite (((h.gather _ _ _ _ _ _ _).inject _ _ _).modStream _ _ _ _) (h.gather _ _ _ _ _ _ _)

theorem Canonical.scatter {s : State} (h : Canonical s) (t c : Nat) (sup : Bool) (w : BitVec 256) (m o v n : Nat) :
    Canonical (s.scatter t c sup w m o v n).2 := by
  induction n generalizing s o v with
  | zero => exact h
  | succ n ih =>
    have hr := ((h.streamReach t c sup w o m true).piecesHome engineAgent (s.streamReach t c sup w o m true).1).writePieces c v
      (s.streamReach t c sup w o m true).1
    show Canonical (Prod.snd (match (s.streamReach t c sup w o m true).2.1 with | some _ => (_, _) | none => State.scatter _ _ _ _ _ _ _ _ _))
    split
    · exact hr
    · exact ih hr _ _

theorem Canonical.writeStream (h : Canonical s) (t c n : Nat) (z : Stream) : Canonical (s.writeStream t c n z) := by
  unfold State.writeStream
  dsimp only
  split
  · exact h.modStream _ _ _ _
  split
  · exact h.modStream _ _ _ _
  split
  next e => exact ((h.scatter _ _ _ _ _ _ _ _).of_snd e).modStream _ _ _ _
  next e => exact (((h.scatter _ _ _ _ _ _ _ _).of_snd e).modStream _ _ _ _).streamFault _ _ _ _ _ _

theorem Canonical.streamStep (h : Canonical s) (t c n : Nat) : Canonical (s.streamStep t c n) := by
  unfold State.streamStep
  split
  · exact h
  extract_lets g u z
  have hu : Canonical u := h.modStream _ _ _ _
  refine .ite h (.ite (hu.emitStream _ _ _ _) (.ite (hu.writeStream _ _ _ _) ?_))
  split
  · exact hu
  · exact .ite hu (.ite (hu.modSource _ _ _ _ _) ((hu.modSource _ _ _ _ _).modStream _ _ _ _))

theorem Canonical.finishStream (h : Canonical s) (t c n : Nat) (z : Stream) : Canonical (s.finishStream t c n z) := by
  unfold State.finishStream
  dsimp only
  split
  · exact ((h.modStream _ _ _ _).tokenDue _ _ _ _ _).serveTickets _ .copyReady
  · exact (h.modStream _ _ _ _).serveTickets _ .copyReady

theorem Canonical.cancelStreams (h : Canonical s) (t c : Nat) : Canonical (s.cancelStreams t c) :=
  h.foldl (fun _ _ h => (h.modStream _ _ _ _).finishStream _ _ _ _) _

theorem Canonical.streamEnd (h : Canonical s) (t c n : Nat) : Canonical (s.streamEnd t c n) := by
  unfold State.streamEnd
  split
  · exact h
  · exact .ite h (h.finishStream _ _ _ _)

theorem Canonical.copy (h : Canonical s) (form : Nat) (d a : SReg) (ver : Nat) (y : Sync) : Canonical (s.copy form d a ver y) := by
  unfold State.copy
  dsimp only
  split
  · exact h.gated _ _ (h.retireNow _ _ _)
  split
  · exact h.gated _ _ (h.retireNow _ _ _)
  · exact h.gated _ _ ((((h.publish _).retirePosted _ _ _).modHere fun _ k => k.modCtx _ _).tick)

theorem Canonical.modCopy (h : Canonical s) (t c n : Nat) (f : Copy → Copy) : Canonical (s.modCopy t c n f) :=
  h.modTile _ fun _ k => k.modCtx _ _

theorem Canonical.markBytes {s : State} (h : Canonical s) (ps : List (Space × Nat × Nat)) (i : Nat) (bad : List Nat) :
    Canonical (s.markBytes ps i bad) := by
  induction ps generalizing s i with
  | nil => exact h
  | cons p r ih => exact ih (.ite h (h.modStore _)) _

theorem Canonical.setFull (h : Canonical s) (ps : List (Space × Nat × Nat)) : Canonical (s.setFull ps) :=
  h.foldl (fun _ _ h => h.modStore _) _

theorem Canonical.copyElement (h : Canonical s) (t c : Nat) (z : Copy) (o : Nat) : Canonical (s.copyElement t c z o).2.2.2 := by
  unfold State.copyElement
  dsimp only
  split <;> split <;> exact ((h.gather _ _ _ _ _ _ _).scramble _ _).streamReach _ _ _ _ _ _ _

theorem Canonical.copyPlan {s : State} (h : Canonical s) (t c : Nat) (z : Copy) (o n : Nat) (l : List State.Run) (p : Option Nat) :
    Canonical (s.copyPlan t c z o n l p).2.2.2 := by
  induction n generalizing s o l p with
  | zero => exact h
  | succ n ih =>
    have hr := h.copyElement t c z o
    show Canonical (Prod.snd (Prod.snd (Prod.snd (match (s.copyElement t c z o).2.2.1 with
      | some _ => (_, _, _, _) | none => State.copyPlan _ _ _ _ _ _ _ _))))
    split
    · exact hr
    · exact ih hr _ _ _

theorem Canonical.writeRun (h : Canonical s) (c : Nat) (z : Copy) (r : State.Run) : Canonical (s.writeRun c z r).2 := by
  unfold State.writeRun
  dsimp only
  split
  · split
    · exact ((h.piecesHome _ _).versioned _ _ _ _ _).markBytes _ _ _
    · exact (h.piecesHome _ _).versioned _ _ _ _ _
  · have hr := ((h.piecesHome engineAgent [(r.sp, r.a, r.n)]).performFor c r.sp r.a r.n r.v).markBytes [(r.sp, r.a, r.n)] 0 r.bad
    exact .ite (hr.setFull _) hr

theorem Canonical.runSegment (h : Canonical s) (t c : Nat) (z : Copy) (seg : Nat) : Canonical (s.runSegment t c z seg).2.2.2 := by
  unfold State.runSegment
  refine Canonical.foldl_snd (p := (0, _)) (h.copyPlan _ _ _ _ _ _ _) (fun _ _ h => ?_) _
  exact h.writeRun _ _ _

theorem Canonical.copySegment (h : Canonical s) (t c n seg : Nat) : Canonical (s.copySegment t c n seg) := by
  unfold State.copySegment
  dsimp only
  split
  · exact h
  · exact .ite h ((h.runSegment _ _ _ _).modCopy _ _ _ _)

theorem Canonical.stage (h : Canonical s) (t c : Nat) (z : Copy) : Canonical (s.stage t c z) := .ite h (h.modTile _ fun _ k => k.modCtx _ _)

theorem Canonical.finishCopy (h : Canonical s) (t c n : Nat) (z : Copy) : Canonical (s.finishCopy t c n z) := by
  unfold State.finishCopy
  dsimp only
  split
  · exact ((h.modCopy _ _ _ _).tokenDue _ _ _ _ _).serveTickets _ .copyReady
  · exact (h.modCopy _ _ _ _).serveTickets _ .copyReady

theorem Canonical.copyEnd (h : Canonical s) (t c n : Nat) : Canonical (s.copyEnd t c n) := by
  unfold State.copyEnd
  dsimp only
  split
  · exact h
  · exact .ite h ((h.stage _ _ _).finishCopy _ _ _ _)

theorem Canonical.cpyst (h : Canonical s) (d a b : SReg) (y : Sync) : Canonical (s.cpyst d a b y) := by
  unfold State.cpyst
  dsimp only
  split
  · exact h.gated _ _ (h.retireNow _ _ _)
  · exact h.gated _ _ ((Canonical.ite (h.dropCopies _ _ _) h).retireNow _ _ _)

theorem Canonical.cpysync (h : Canonical s) (d a : SReg) (y : Sync) : Canonical (s.cpysync d a y) :=
  h.gated _ _ (h.waitFor _ _ _ .copyReady)

/-! ## Egress, reports and collectives -/

theorem Canonical.ownPlace (h : Canonical s) (die c va n : Nat) : Canonical (s.ownPlace die c va n).2 := by
  unfold State.ownPlace
  split
  next e => exact (h.probeAll _ _ _ _).of_snd e
  next e => exact ((h.probeAll _ _ _ _).of_snd e).update

theorem Canonical.recordWrite (h : Canonical s) (die : Nat) (r : BitVec 128) (n v : Nat) : MaybeCanonical (s.recordWrite die r n v) := by
  unfold State.recordWrite
  dsimp only
  split
  · exact .none
  next e => exact .some ((((h.ownPlace _ _ _ _).of_snd e).piecesHome _ _).writePieces _ _ _)

theorem Canonical.ringWrite (h : Canonical s) (die : Nat) (r : BitVec 128) (n v : Nat) : MaybeCanonical (s.ringWrite die r n v) := by
  unfold State.ringWrite
  dsimp only
  split
  · exact .none
  next e => exact (((h.ownPlace _ _ _ _).of_snd e).recordWrite _ _ _ _).map fun _ h => (h.piecesHome _ _).writePieces _ _ _

theorem AnswersCanonical.egReady : AnswersCanonical State.egReady := by
  intro s t k v u h e
  unfold State.egReady at e
  dsimp only at e
  split at e
  · split at e <;> cases e
    exact h
  · cases e

theorem Canonical.serveEgress (h : Canonical s) : Canonical s.serveEgress := h.foldl (fun _ _ h => h.serveTickets _ .egReady) _
theorem Canonical.egEnter (h : Canonical s) (agent image : Nat) : Canonical (s.egEnter agent image) := (h.fence _ _).update
theorem Canonical.egpost (h : Canonical s) (d a : SReg) (y : Sync) : Canonical (s.egpost d a y) :=
  h.gated _ _ (.ite (h.raise _ _) (.ite (h.raise _ _) (.ite (h.raise _ _)
    (.ite ((h.egEnter _ _).retireNow _ _ _).serveEgress (h.takeSynced _ _ _ _)))))

theorem Canonical.egressEnter (h : Canonical s) (t n : Nat) : Canonical (s.egressEnter t n) := by
  unfold State.egressEnter
  split
  · exact .ite (h.failWord _ _ _ _) (.ite (((h.egEnter _ _).endWord _ _ _).serveEgress) h)
  · exact h

theorem Canonical.egrel (h : Canonical s) (d a b : SReg) (y : Sync) : Canonical (s.egrel d a b y) := h.gated _ _ (h.update.retireNow _ _ _)

theorem Canonical.egrej (h : Canonical s) (d a b : SReg) (y : Sync) : Canonical (s.egrej d a b y) := by
  unfold State.egrej
  dsimp only
  split
  · exact h.gated _ _ (h.retireNow _ _ _)
  · exact h.gated _ _ (.ite (h.retireNow _ _ _) (h.update.retireNow _ _ _))

theorem Canonical.egstat (h : Canonical s) (d a b : SReg) (y : Sync) : Canonical (s.egstat d a b y) :=
  h.gated _ _ (h.waitFor _ _ _ .egReady)

theorem Canonical.egressDeliver (h : Canonical s) (die n : Nat) : Canonical (s.egressDeliver die n) := by
  unfold State.egressDeliver
  dsimp only
  split
  · exact h
  split
  · exact h
  split
  · exact h
  next e => exact ((h.ringWrite _ _ _ _).of_some e).update.modMgmt _ _

theorem Canonical.ringPost (h : Canonical s) (r : BitVec 128) {write : State → Option State}
    (hw : ∀ s, Canonical s → MaybeCanonical (write s)) : Canonical (s.ringPost r write).2 := by
  unfold State.ringPost
  split
  · split
    next e => exact (hw _ h).of_some e
    · exact h
  · exact h

theorem Canonical.report (h : Canonical s) (die : Nat) (r : Report) : Canonical (s.report die r) := by
  unfold State.report
  dsimp only
  exact (h.ringPost _ fun _ h => h.recordWrite _ _ _ _).modMgmt _ _

theorem Canonical.message (h : Canonical s) (kind die val : Nat) : Canonical (s.message kind die val) := by
  unfold State.message
  dsimp only
  exact (h.ringPost _ fun _ h => h.ringWrite _ _ _ _).update

theorem Canonical.engineRead (h : Canonical s) (die c : Nat) (sup : Bool) (va n : Nat) : Canonical (s.engineRead die c sup va n).2 := by
  unfold State.engineRead
  dsimp only
  split
  next e => exact (h.probeAll _ _ _ _).of_snd e
  next e => exact ((((h.probeAll _ _ _ _).of_snd e).piecesHome _ _).scramble _ _).foldl (fun _ _ h => h.correct _ _ _ _) _

theorem Canonical.enginePlace (h : Canonical s) (die c : Nat) (sup : Bool) (va n : Nat) : Canonical (s.enginePlace die c sup va n).2 := by
  unfold State.enginePlace
  split <;> next e => exact (h.probeAll _ _ _ _).of_snd e

theorem Canonical.modColl (h : Canonical s) (t c n : Nat) (f : Coll → Coll) : Canonical (s.modColl t c n f) :=
  h.modTile _ fun _ k => k.modCtx _ _

theorem Canonical.groupTable (h : Canonical s) (t c : Nat) (z : Coll) : Canonical (s.groupTable t c z).2 := by
  unfold State.groupTable
  split
  next e => exact (h.engineRead _ _ _ _ _).of_snd e
  next e => exact ((h.engineRead _ _ _ _ _).of_snd e).update

theorem Canonical.collToken (h : Canonical s) (t c : Nat) (z : Coll) : Canonical (s.collToken t c z) := by
  unfold State.collToken
  split
  · exact h.tokenDue _ _ _ _ _
  · exact h

theorem Canonical.markAll (h : Canonical s) (ps : List (Space × Nat × Nat)) : Canonical (s.markAll ps) :=
  h.foldl (fun _ _ h => h.modStore _) _
theorem Canonical.keepAborted (h : Canonical s) (die gid seq rank cause : Nat) : Canonical (s.keepAborted die gid seq rank cause) :=
  h.modMgmt _ _

theorem Canonical.abortRank (h : Canonical s) (t c n : Nat) (z : Coll) (rank cause : Nat) : Canonical (s.abortRank t c n z rank cause) := by
  unfold State.abortRank
  dsimp only
  split
  · exact h
  split
  next e => exact (((((h.enginePlace _ _ _ _ _).of_snd e).markAll _).modColl _ _ _ _).free.report _ _).collToken _ _ _
  next e => exact ((((h.enginePlace _ _ _ _ _).of_snd e).update.modColl _ _ _ _).free.report _ _).collToken _ _ _

theorem Canonical.abortKey (h : Canonical s) (dies : List Nat) (gid seq rank cause : Nat) :
    Canonical (s.abortKey dies gid seq rank cause) :=
  (h.foldl (fun _ _ h => h.keepAborted _ _ _ _ _) _).foldl (fun _ _ h => h.abortRank _ _ _ _ _ _) _

theorem Canonical.abortFrom (h : Canonical s) (t c : Nat) (z : Coll) (cause : Nat) : Canonical (s.abortFrom t c z cause) := by
  unfold State.abortFrom
  dsimp only
  exact (h.groupTable _ _ _).abortKey _ _ _ _ _

theorem Canonical.abortAll (h : Canonical s) (t c : Nat) : Canonical (s.abortAll t c) := h.foldl (fun _ _ h => h.abortFrom _ _ _ _) _

theorem Canonical.coll (h : Canonical s) (d a : SReg) (y : Sync) : Canonical (s.coll d a y) := by
  unfold State.coll
  dsimp only
  split
  · exact h.gated _ _ (h.raise _ _)
  split
  · exact h.gated _ _ (h.raise _ _)
  split
  · exact h.gated _ _ (h.retireNow _ _ _)
  split
  · exact h.gated _ _ (h.retireNow _ _ _)
  split
  · exact h.gated _ _ ((((h.fence _ _).retirePosted _ _ _).modHere fun _ k => k.modCtx _ _).abortRank _ _ _ _ _ _)
  · exact h.gated _ _ (((h.fence _ _).retirePosted _ _ _).modHere fun _ k => k.modCtx _ _)

theorem Canonical.colst (h : Canonical s) (d a b : SReg) (y : Sync) : Canonical (s.colst d a b y) := by
  unfold State.colst
  dsimp only
  split
  · exact h.gated _ _ (h.retireNow _ _ _)
  · exact h.gated _ _ ((Canonical.ite (h.modHere fun _ k => k.modCtx _ _) h).retireNow _ _ _)

theorem Canonical.colab (h : Canonical s) (d a b : SReg) (y : Sync) : Canonical (s.colab d a b y) := by
  unfold State.colab
  dsimp only
  split
  · exact h.gated _ _ ((h.free.keepAborted _ _ _ _ _).retireNow _ _ _)
  · exact h.gated _ _ ((Canonical.ite h (h.abortFrom _ _ _ _)).retireNow _ _ _)

theorem Canonical.supply (h : Canonical s) (z : Coll) (r e : Nat) : Canonical (s.supply z r e).2 := by
  unfold State.supply
  dsimp only
  split
  · exact h.scramble _ _
  split
  · exact h
  split
  · exact h
  · exact h.engineRead _ _ _ _ _

theorem Canonical.supplies {s : State} (h : Canonical s) (z : Coll) (r : Nat) (es : List Nat) : Canonical (s.supplies z r es).2 := by
  induction es generalizing s r with
  | nil => exact h
  | cons x es ih =>
    unfold State.supplies
    split
    next e => exact (h.supply _ _ _).of_snd e
    next e =>
      have hs := (h.supply _ _ _).of_snd e
      split <;> next e => exact (ih hs _).of_snd e

theorem Canonical.collGather (h : Canonical s) (t c : Nat) (z : Coll) : Canonical (s.collGather t c z) := by
  unfold State.collGather
  split
  next e => exact (h.groupTable _ _ _).of_snd e
  next e =>
    have hs := (h.groupTable _ _ _).of_snd e
    split
    · exact hs.abortFrom _ _ _ _
    split
    next e => exact ((hs.supplies _ _ _).of_snd e).update
    next e => exact ((hs.supplies _ _ _).of_snd e).foldl (fun _ _ h => h.modColl _ _ _ _) _

theorem Canonical.collComplete (h : Canonical s) (t c n : Nat) : Canonical (s.collComplete t c n) := by
  unfold State.collComplete
  split
  · exact h
  refine .ite h ?_
  extract_lets u
  have hu : Canonical u := .ite h (h.collGather _ _ _)
  split
  · exact hu
  split
  · exact hu
  refine .ite hu ?_
  split
  next e => exact ((hu.enginePlace _ _ _ _ _).of_snd e).update
  next e => exact (((((hu.enginePlace _ _ _ _ _).of_snd e).piecesHome _ _).writePieces _ _ _).modColl _ _ _ _).collToken _ _ _

/-! ## Fabric words, completion and system words -/

theorem Canonical.loadSlot (h : Canonical s) (g c n : Nat) (r : BitVec 64) : Canonical (s.loadSlot g c n r).2 := by
  unfold State.loadSlot
  dsimp only
  split
  · exact h
  · exact h.modEctx _ _ _

theorem Canonical.loadSwitch (h : Canonical s) (g entry : Nat) (w : BitVec 16) (depth : Nat) :
    Canonical (s.loadSwitch g entry w depth).2 := by
  unfold State.loadSwitch
  dsimp only
  split
  · exact h
  split
  · exact h
  · exact h.modElem _

theorem Canonical.loadLegend (h : Canonical s) (g c col : Nat) (r : BitVec 64) : Canonical (s.loadLegend g c col r).2 := by
  unfold State.loadLegend
  dsimp only
  split
  · exact h
  · exact h.modEctx _ _ _

theorem Canonical.loadConst (h : Canonical s) (g c n : Nat) (v : BitVec 64) : Canonical (s.loadConst g c n v) := h.modEctx _ _ _

theorem Canonical.loadFrom {s : State} (h : Canonical s) {load : State → Nat → Option Nat × State}
    (hl : ∀ s n, Canonical s → Canonical (load s n).2) (n m : Nat) : Canonical (s.loadFrom load n m).2 := by
  induction m generalizing s n with
  | zero => exact h
  | succ m ih =>
    unfold State.loadFrom
    split
    next e => exact (hl _ _ h).of_snd e
    next e => exact ih ((hl _ _ h).of_snd e) _

theorem Canonical.opld (h : Canonical s) (d a b : SReg) : Canonical (s.opld d a b) := by
  unfold State.opld
  dsimp only
  refine .ite (h.raise _ _) (.ite (h.raise _ _) (h.supOnly ?_))
  split
  next e => exact ((h.loadFrom (fun _ _ h => h.loadSlot _ _ _ _) _ _).of_snd e).writeReg _ _
  next e => exact ((h.loadFrom (fun _ _ h => h.loadSlot _ _ _ _) _ _).of_snd e).raise _ _

theorem Canonical.swld (h : Canonical s) (d a b : SReg) : Canonical (s.swld d a b) := by
  unfold State.swld
  dsimp only
  refine .ite (h.raise _ _) (.ite (h.raise _ _) (h.supOnly ?_))
  split
  next e => exact ((h.loadFrom (fun _ _ h => h.loadSwitch _ _ _ _) _ _).of_snd e).writeReg _ _
  next e => exact ((h.loadFrom (fun _ _ h => h.loadSwitch _ _ _ _) _ _).of_snd e).raise _ _

theorem Canonical.shplace (h : Canonical s) (d a b : SReg) : Canonical (s.shplace d a b) :=
  h.supOnly (.ite (h.writeReg _ _) (h.modHere.writeReg _ _))
theorem Canonical.shfree (h : Canonical s) (d a b : SReg) : Canonical (s.shfree d a b) :=
  h.supOnly (.ite (h.writeReg _ _) (.ite (h.modHere.writeReg _ _) h.stall))

theorem Canonical.imageRead (h : Canonical s) (t tc va n : Nat) : Canonical (s.imageRead t tc va n).2 := by
  unfold State.imageRead
  dsimp only
  split
  next e => exact (h.probeAll _ _ _ _).of_snd e
  next e =>
    have hs := (h.probeAll _ _ _ _).of_snd e
    split
    · exact hs.piecesHome _ _
    · exact (hs.piecesHome _ _).foldl (fun _ _ h => h.correct _ _ _ _) _

theorem Canonical.loadRec (h : Canonical s) (g c : Nat) (r : State.ImageRec) (v : BitVec 64) : Canonical (s.loadRec g c r v).2 := by
  unfold State.loadRec
  dsimp only
  split
  · split <;> next e => exact (h.loadSlot _ _ _ _).of_snd e
  · split <;> next e => exact (h.loadLegend _ _ _ _).of_snd e
  · exact h.loadConst _ _ _ _
  · split <;> next e => exact (h.loadSwitch _ _ _ _).of_snd e

theorem Canonical.loadRecs {s : State} (h : Canonical s) (t g c tc va : Nat) (rs : List State.ImageRec) (n : Nat) :
    Canonical (s.loadRecs t g c tc va rs n).2.2 := by
  induction rs generalizing s va n with
  | nil => exact h
  | cons x r ih =>
    unfold State.loadRecs
    split
    next e => exact (h.imageRead _ _ _ _).of_snd e
    next e =>
      have hs := (h.imageRead _ _ _ _).of_snd e
      split
      next e => exact (hs.loadRec _ _ _ _).of_snd e
      next e => exact ih ((hs.loadRec _ _ _ _).of_snd e) _ _

theorem Canonical.grantLoaded (h : Canonical s) (g c : Nat) (rs : List State.ImageRec) : Canonical (s.grantLoaded g c rs) := h.modEctx _ _ _

theorem Canonical.loadElems {s : State} (h : Canonical s) (t c tc va k n : Nat) : Canonical (s.loadElems t c tc va k n).2.2 := by
  induction k generalizing s va n with
  | zero => exact h
  | succ k ih =>
    unfold State.loadElems
    dsimp only
    split
    next e => exact (h.imageRead _ _ _ _).of_snd e
    next e =>
      have hs := (h.imageRead _ _ _ _).of_snd e
      split
      next e => exact (((hs.modEctx _ _ _).loadRecs _ _ _ _ _ _ _).of_snd_snd e).grantLoaded _ _ _
      next e => exact ih ((((hs.modEctx _ _ _).loadRecs _ _ _ _ _ _ _).of_snd_snd e).grantLoaded _ _ _) _ _

theorem Canonical.loadTiles {s : State} (h : Canonical s) (t c tc tx ty va k n : Nat) :
    Canonical (s.loadTiles t c tc tx ty va k n).2.2 := by
  induction k generalizing s va n with
  | zero => exact h
  | succ k ih =>
    unfold State.loadTiles
    dsimp only
    split
    next e => exact (h.imageRead _ _ _ _).of_snd e
    next e =>
      have hs := (h.imageRead _ _ _ _).of_snd e
      split
      · split
        · exact hs.loadElems _ _ _ _ _ _
        · exact hs
      · split
        · exact ih (hs.loadElems _ _ _ _ _ _) _ _
        · exact ih hs _ _

theorem Canonical.loadImage (h : Canonical s) (t c tc va : Nat) : Canonical (s.loadImage t c tc va).2.2 := by
  unfold State.loadImage
  dsimp only
  split
  next e => exact (h.imageRead _ _ _ _).of_snd e
  next e => exact ((h.imageRead _ _ _ _).of_snd e).loadTiles _ _ _ _ _ _ _ _

theorem Canonical.cfgload (h : Canonical s) (d a b : SReg) : Canonical (s.cfgload d a b) := by
  unfold State.cfgload
  dsimp only
  split
  · exact h.raise _ _
  split
  next e => exact h.supOnly (((h.loadImage _ _ _ _).of_snd_snd e).raise _ _)
  next e => exact h.supOnly (((h.loadImage _ _ _ _).of_snd_snd e).retireIn _ _)

theorem Canonical.ctxpri (h : Canonical s) (a b : SReg) : Canonical (s.ctxpri a b) :=
  h.supOnly ((h.retire _).modHere fun _ k => k.modCtx _ _)

theorem Canonical.sizeEdge (h : Canonical s) (t : Nat) (e : Nat × Nat × Nat × Nat) (n : Nat) : Canonical (s.sizeEdge t e n).2 := by
  unfold State.sizeEdge
  dsimp only
  split
  · exact h
  · exact h.modEdge _ _ _ _ _

theorem Canonical.edgedepth (h : Canonical s) (d a b : SReg) : Canonical (s.edgedepth d a b) := by
  unfold State.edgedepth
  dsimp only
  exact h.supOnly (.ite (h.writeReg _ _) (.ite (h.writeReg _ _) (.ite (h.modCur _) ((h.sizeEdge _ _ _).writeReg _ _))))

theorem Canonical.edgeChange (h : Canonical s) (t : Nat) : Canonical (s.edgeChange t) := by
  unfold State.edgeChange
  dsimp only
  split
  · exact h
  split
  · exact .ite h.update ((((h.update.sizeEdge _ _ _).modCur _).writeReg _ _).update)
  · exact h

theorem Canonical.returnLines (h : Canonical s) (t : Nat) : Canonical (s.returnLines t) :=
  h.foldl (fun _ _ h => .ite (h.foldl (fun _ _ h => h.recallLine _) _) h) _
theorem Canonical.leaveTile (h : Canonical s) (t c : Nat) : Canonical (s.leaveTile t c) :=
  ((h.returnLines _).cancelStreams _ _).modTile _ fun _ k => (k.modCtx _ _).update

theorem Canonical.completeLaunch (h : Canonical s) (n : Nat) : Canonical (s.completeLaunch n) := by
  unfold State.completeLaunch
  dsimp only
  split
  · exact h
  · exact ((h.foldl (fun _ _ h => h.leaveTile _ _) _).modLaunch _ _).makeEligible

theorem Canonical.endTile (h : Canonical s) (t c : Nat) : Canonical (s.endTile t c) := by
  unfold State.endTile
  split
  · exact h
  extract_lets u v w
  have hv : Canonical v := ((h.modTile _ fun _ k => k.modCtx _ _).modLaunch _ _).checkTrigger _
  have hw : Canonical w := hv.foldl (fun _ _ h => h.releaseBarrier _ _ _ _ _ _) _
  split
  · exact hw
  · exact .ite (hw.completeLaunch _) hw.makeEligible

theorem Canonical.settleTile (h : Canonical s) (t : Nat) : Canonical (s.settleTile t) := (h.landWhere _).returnLines _

theorem Canonical.tileComplete (h : Canonical s) (t c : Nat) : Canonical (s.tileComplete t c) := by
  unfold State.tileComplete
  split
  · exact h
  · exact .ite h ((h.settleTile _).endTile _ _)

theorem Canonical.tret (h : Canonical s) : Canonical s.tret := h.supOnly ((Canonical.ite h.update h).finish _ _)
theorem Canonical.halt (h : Canonical s) : Canonical s.halt := h.supOnly ((h.retire _).modHere)
theorem Canonical.idle (h : Canonical s) : Canonical s.idle := (h.retire _).modHere fun _ k => k.enter _ _ _
theorem Canonical.tlbinv (h : Canonical s) (a b : Word) : Canonical (s.tlbinv a b) :=
  h.supOnly (((h.fence _ _).foldl (fun _ _ h => h.modUnit _ _) _).retire _)

/-! ## Containment of faults -/

theorem Canonical.closeSearch (h : Canonical s) (x : Search) (act : Nat) : Canonical (s.closeSearch x act) :=
  .ite h.update (h.update.report _ _)
theorem Canonical.modSearch (h : Canonical s) (x : Search) (f : Search → Search) : Canonical (s.modSearch x f) := h.update
theorem Canonical.clearFault (h : Canonical s) (g c : Nat) : Canonical (s.clearFault g c) :=
  (h.tick.modElem _ fun _ k => by split <;> exact k.update).modEctx _ _ _
theorem Canonical.passBkpt (h : Canonical s) (g : Nat) (f : ElemFault) : Canonical (s.passBkpt g f) := .ite (h.modEctx _ _ _) h
theorem Canonical.abandon (h : Canonical s) (g : Nat) (q : Request) : Canonical (s.abandon g q) :=
  .ite (h.dropRequest _ _) (.ite (((h.modRequest _ _ _).tick.modElem _).enterChain _ _) (h.modRequest _ _ _))
theorem Canonical.emitNull (h : Canonical s) (g c n : Nat) (w : OpWord) (t : Token) : Canonical (s.emitNull g c n w t) := h.tick.modElem _

theorem Canonical.ignoreFault (h : Canonical s) (t : Nat) (f : FaultSrc) : Canonical (s.ignoreFault t f) := by
  unfold State.ignoreFault
  dsimp only
  split
  · split
    · exact h
    split
    · exact (h.abandon _ _).clearFault _ _
    split
    · exact (h.emitNull _ _ _ _ _).clearFault _ _
    · exact (h.passBkpt _ _).clearFault _ _
  · exact h.modNode _ _
  · exact h.resume _ _ _
  · exact h

theorem Canonical.restart (h : Canonical s) (t : Nat) (f : FaultSrc) : Canonical (s.restart t f) := by
  unfold State.restart
  dsimp only
  split
  · split
    · exact h
    split
    · exact (h.modRequest _ _ _).clearFault _ _
    · exact (h.passBkpt _ _).clearFault _ _
  · exact h.modNode _ _
  · exact h.resume _ _ _
  · exact h

theorem Canonical.faultTake (h : Canonical s) (t c : Nat) : Canonical (s.faultTake t c) := by
  unfold State.faultTake
  dsimp only
  split
  · exact h
  split
  · exact h
  split
  · split
    · exact (h.update.ignoreFault _ _).report _ _
    · exact (h.ignoreFault _ _).report _ _
  · split
    · exact h.update.update
    · exact h.update

theorem Canonical.reportDiscard (h : Canonical s) (lvl c t : Nat) (src : FaultSrc) (slot cause : Nat) (val : BitVec 64) :
    Canonical (s.reportDiscard lvl c t src slot cause val) :=
  h.report _ _

theorem Canonical.discardFaults (h : Canonical s) (x : Search) (ts es : List Nat) : Canonical (s.discardFaults x ts es) := by
  unfold State.discardFaults
  extract_lets c lvl others taken u v gone w z
  have hu : Canonical u := h.foldl (fun s g h => by
    refine Canonical.foldl ?_ (fun _ _ h => h.reportDiscard _ _ _ _ _ _ _) _
    split
    · exact .ite (h.reportDiscard _ _ _ _ _ _ _) h
    · exact h) _
  have hv : Canonical v := hu.foldl (fun s t h => by
    dsimp only
    split
    · exact .ite (h.reportDiscard _ _ _ _ _ _ _) h
    · exact h) _
  have hw : Canonical w := hv.foldl (fun _ _ h => h.reportDiscard _ _ _ _ _ _ _) _
  exact .ite hu (hw.update.foldl (fun _ _ h => h.update.report _ _) _)

theorem Canonical.killInstances (h : Canonical s) (c : Nat) (es : List Nat) (skip : Bool) : Canonical (s.killInstances c es skip) :=
  h.foldl (fun _ _ h => (Canonical.ite ((h.dropInstance _).skipHeld _) (h.dropInstance _)).endInstance _) _

theorem Canonical.clearInputs (h : Canonical s) (g c : Nat) : Canonical (s.clearInputs g c) :=
  h.foldl (fun _ _ h => by
    split
    · exact h
    · exact h.modElem _) _

theorem Canonical.killElement (h : Canonical s) (g c : Nat) : Canonical (s.killElement g c) :=
  (((h.freeRecords _ _ _).clearInputs _ _).tick.modElem _).modEctx _ _ _

theorem Canonical.killTile (h : Canonical s) (t c : Nat) : Canonical (s.killTile t c) := by
  unfold State.killTile
  extract_lets mine u v w x y z
  have hv : Canonical v := (h.foldl (fun _ _ h => (h.orphan _ _).freeTask _ _) _).modNode _ _
  have hw : Canonical w := (hv.modTile _ fun _ k => k.modCtx _ _).cancelStreams _ _
  have hx : Canonical x := hw.foldl (fun _ _ h => (h.modCopy _ _ _ _).finishCopy _ _ _ _) _
  have hz : Canonical z := (hx.abortAll _ _).modTile _
  exact hz.serveTickets _ .copyReady

theorem Canonical.killRegion (h : Canonical s) (x : Search) : Canonical (s.killRegion x) := by
  unfold State.killRegion
  extract_lets ts es u v w
  have hw : Canonical w := ((h.discardFaults _ _ _).foldl (fun _ _ h => h.killElement _ _) _).killInstances _ _ _
  exact .ite hw ((hw.foldl (fun _ _ h => h.killTile _ _) _).foldl (fun _ _ h => h.endTile _ _) _)

theorem Canonical.regionKill (h : Canonical s) (lvl : Level) (t sh c : Nat) : Canonical (s.regionKill lvl t sh c) := by
  unfold State.regionKill
  dsimp only
  split
  · exact h
  · exact .ite h (.ite ((h.killRegion _).modSearch _ _) ((h.killRegion _).closeSearch _ _))

theorem Canonical.leaveWait (h : Canonical s) (t n : Nat) : Canonical (s.leaveWait t n) := by
  unfold State.leaveWait
  dsimp only
  split
  · exact h.modTile _ fun _ k => k.modTask _ _
  · exact (h.dropMonitor _ _).modTile _ fun _ k => k.quitWait _
  · exact h

theorem Canonical.deliverTo (h : Canonical s) (t n cause : Nat) (val : BitVec 64) : Canonical (s.deliverTo t n cause val) :=
  (h.leaveWait _ _).modTile _ fun _ k => (k.setTask _ _).wake _

theorem Canonical.handlerDelivery (h : Canonical s) (t c : Nat) : Canonical (s.handlerDelivery t c) := by
  unfold State.handlerDelivery
  dsimp only
  split
  · exact h
  split
  · exact .ite ((h.deliverTo _ _ _ _).modSearch _ _) h
  · exact .ite (h.closeSearch _ _) (h.modSearch _ _)

theorem Canonical.retryRestart (h : Canonical s) (t c : Nat) : Canonical (s.retryRestart t c) := by
  unfold State.retryRestart
  split
  · exact h
  · exact .ite (h.closeSearch _ _) (.ite ((h.restart _ _).closeSearch _ _) (h.modSearch _ _))

/-! ## Decision diagrams, folds and datum words -/

theorem Canonical.setDd (h : Canonical s) (en : Nat) (e : DdEngine) : Canonical (s.setDd en e) := h.update
theorem Canonical.ddCompute (h : Canonical s) {α : Type} (en : Nat) (f : DdEngine → DdOut α) : Canonical (s.ddCompute en f).2 :=
  (h.setDd _ _).countFixed _ _
theorem Canonical.modFold (h : Canonical s) (c n : Nat) (g : Descriptor → Descriptor) : Canonical (s.modFold c n g) := h.update
theorem Canonical.emptyTiles (h : Canonical s) (l : Layout) (ts : List Nat) : Canonical (s.emptyTiles l ts) :=
  h.foldl (fun _ _ h => .ite (h.foldl (fun _ _ h => .ite (h.modElem _) h) _) (h.modTile _)) _

theorem Canonical.zeroHeaders {s : State} (h : Canonical s) (die c : Nat) (sup : Bool) (ps : List (Nat × Nat)) :
    Canonical (s.zeroHeaders die c sup ps).2 := by
  induction ps generalizing s with
  | nil => exact h
  | cons x r ih =>
    unfold State.zeroHeaders
    split
    next e => exact (h.probe _ _ _ _ _).of_snd e
    next e => exact ih ((((h.probe _ _ _ _ _).of_snd e).callBack _ _ _ _).foldl (fun _ _ h => h.perform _ _ _ _) _)

theorem Canonical.emptyHeaders (h : Canonical s) (t c : Nat) (sup : Bool) (l : Layout) : Canonical (s.emptyHeaders t c sup l).2 := by
  unfold State.emptyHeaders
  split
  · exact h.zeroHeaders _ _ _ _
  · exact h.emptyTiles _ _

theorem Canonical.declare_go (h : Canonical s) (t n : Nat) (k : Taken) (st : Nat) : Canonical (State.declare.go t n k s st) := by
  unfold State.declare.go
  dsimp only
  split
  · exact h.endWord _ _ _
  split
  next e => exact ((h.emptyHeaders _ _ _ _).of_snd e).failWord _ _ _ _
  next e => exact (((h.emptyHeaders _ _ _ _).of_snd e).endWord _ _ _).tick.update

theorem Canonical.declare (h : Canonical s) (t n : Nat) (k : Taken) : Canonical (s.declare t n k) := by
  unfold State.declare
  dsimp only
  split
  · exact .ite h (h.declare_go _ _ _ _)
  · exact h.declare_go _ _ _ _

theorem Canonical.declareRegion (h : Canonical s) (t n : Nat) (k : Taken) : Canonical (s.declareRegion t n k) :=
  .ite (h.endWord _ _ _) (.ite (h.endWord _ _ _) ((h.endWord _ _ _).update))

theorem Canonical.heldFrom {s : State} (h : Canonical s) (g : Nat) (sup : Bool) (f : Descriptor) (r n : Nat) :
    Canonical (s.heldFrom g sup f r n).2 := by
  induction n generalizing s r with
  | zero => exact h
  | succ n ih =>
    unfold State.heldFrom
    dsimp only
    split
    next e => exact (h.slotAt _ _ _ _).of_snd e
    next e =>
      have hs := (h.slotAt _ _ _ _).of_snd e
      split
      all_goals
        split
        · exact hs.piecesHome _ _
        split <;> next e => exact (ih ((hs.piecesHome _ _).correctPieces _ _) _).of_snd e

theorem Canonical.heldSlots {s : State} (h : Canonical s) (sup : Bool) (f : Descriptor) (gs : List Nat) :
    Canonical (s.heldSlots sup f gs).2 := by
  induction gs generalizing s with
  | nil => exact h
  | cons g gs ih =>
    unfold State.heldSlots
    split
    next e => exact (h.heldFrom _ _ _ _ _).of_snd e
    next e =>
      have hs := (h.heldFrom _ _ _ _ _).of_snd e
      split <;> next e => exact (ih hs).of_snd e

theorem Canonical.heldData {s : State} (h : Canonical s) (f : Descriptor) (hs : List State.HeldSlot) : Canonical (s.heldData f hs).2 := by
  induction hs generalizing s with
  | nil => exact h
  | cons x r ih =>
    unfold State.heldData
    dsimp only
    split
    · exact h
    split <;> next e => exact (ih (h.correctPieces _ _)).of_snd e

theorem Canonical.putHeld {s : State} (h : Canonical s) (sup : Bool) (f : Descriptor) (ds : List (Nat × State.HeldSlot × Nat)) :
    Canonical (s.putHeld sup f ds).2 := by
  induction ds generalizing s with
  | nil => exact h
  | cons x r ih =>
    unfold State.putHeld
    split
    next e => exact (h.slotAt _ _ _ _).of_snd e
    next e => exact ih (((((h.slotAt _ _ _ _).of_snd e).piecesHome _ _).writePieces _ _ _).setHeader _ _ _ _)

theorem Canonical.growEnd (h : Canonical s) (t m c n : Nat) (v : Word) (g : Descriptor → Descriptor) : Canonical (s.growEnd t m c n v g) :=
  (h.modFold _ _ _).tick.endWord _ _ _

theorem Canonical.grow (h : Canonical s) (t m : Nat) (k : Taken) : Canonical (s.grow t m k) := by
  unfold State.grow
  dsimp only
  refine .ite (.ite h ?_) ?_
  · split
    · exact h.endWord _ _ _
    · exact ((h.modFold _ _ _).pauseStatement _ _).modTaken _ _ _
  · split
    · exact h.endWord _ _ _
    split
    next e => exact (((h.heldSlots _ _ _).of_snd e).modFold _ _ _).failWord _ _ _ _
    next e =>
      have hs := (h.heldSlots _ _ _).of_snd e
      split
      · exact (hs.modFold _ _ _).endWord _ _ _
      split
      next e => exact (((hs.heldData _ _).of_snd e).modFold _ _ _).failWord _ _ _ _
      next e =>
        have hs := (hs.heldData _ _).of_snd e
        split
        next e => exact (((hs.emptyHeaders _ _ _ _).of_snd e).modFold _ _ _).failWord _ _ _ _
        next e =>
          have hs := (hs.emptyHeaders _ _ _ _).of_snd e
          split
          next e => exact (((hs.putHeld _ _ _).of_snd e).modFold _ _ _).failWord _ _ _ _
          next e => exact ((hs.putHeld _ _ _).of_snd e).growEnd _ _ _ _ _ _

theorem Canonical.check (h : Canonical s) (t m : Nat) (k : Taken) : Canonical (s.check t m k) := by
  unfold State.check
  dsimp only
  split
  · split
    · exact h.endWord _ _ _
    split
    · exact h.endWord _ _ _
    · exact .ite (h.endWord _ _ _) (.ite h (h.modTaken _ _ _))
  · split
    · exact h.endWord _ _ _
    split
    · exact h.endWord _ _ _
    split
    · exact h.endWord _ _ _
    split
    next e => exact ((h.ddCompute _ _).of_snd e).endWord _ _ _
    next e =>
      have hs := (h.ddCompute _ _).of_snd e
      split <;> exact (hs.modFold _ _ _).endWord _ _ _

theorem Canonical.dropFold (h : Canonical s) (t m : Nat) (k : Taken) : Canonical (s.dropFold t m k) := by
  unfold State.dropFold
  dsimp only
  split
  · exact h.endWord _ _ _
  · exact .ite h ((h.endWord _ _ _).update)

theorem Canonical.statHeader (h : Canonical s) (t : Nat) (sup : Bool) (f : Descriptor) (b : Word) :
    Canonical (s.statHeader t sup f b).2 := by
  unfold State.statHeader
  dsimp only
  split
  · exact h
  split
  · split
    next e => exact ((h.probe _ _ _ _ _).of_snd e).update
    next e =>
      have hs := (h.probe _ _ _ _ _).of_snd e
      split
      · exact hs.atHome _ _ _ _ _
      · exact (hs.atHome _ _ _ _ _).correct _ _ _ _
  · exact h

theorem Canonical.statFold (h : Canonical s) (t m : Nat) (k : Taken) : Canonical (s.statFold t m k) := by
  unfold State.statFold
  split
  · exact h.endWord _ _ _
  split
  · exact h.endWord _ _ _
  · exact h.endWord _ _ _
  · exact h.endWord _ _ _
  · split <;> next e => exact ((h.statHeader _ _ _ _).of_snd e).endWord _ _ _
  · split <;> next e => exact ((h.statHeader _ _ _ _).of_snd e).endWord _ _ _
  · exact h.endWord _ _ _
  · exact h.endWord _ _ _
  · exact h.endWord _ _ _
  · exact h.endWord _ _ _

theorem Canonical.foldWord (h : Canonical s) (i : Instr) (d a b : SReg) (y : Sync) (size : Nat) (sup : Bool) :
    Canonical (s.foldWord i d a b y size sup) :=
  h.gated _ _ (.ite (h.raise _ _) (.ite (h.raise _ _) (.ite (h.raise _ _) (h.takeSynced _ _ _ _))))

theorem Canonical.fdecl (h : Canonical s) (i : Instr) (d a b : SReg) (y : Sync) : Canonical (s.fdecl i d a b y) := h.foldWord _ _ _ _ _ _ _

theorem Canonical.foldComplete (h : Canonical s) (t n : Nat) : Canonical (s.foldComplete t n) := by
  unfold State.foldComplete
  split
  · exact h
  split
  · exact .ite (h.declareRegion _ _ _) (h.declare _ _ _)
  · exact .ite (h.declareRegion _ _ _) (h.declare _ _ _)
  · exact h.grow _ _ _
  · exact h.check _ _ _
  · exact h.dropFold _ _ _
  · exact h.statFold _ _ _
  · exact h

theorem Canonical.cellLines {s : State} (h : Canonical s) (die c : Nat) (write sup : Bool) (va n : Nat) :
    Canonical (s.cellLines die c write sup va n).2 := by
  induction n generalizing s va with
  | zero => exact h
  | succ n ih =>
    unfold State.cellLines
    split
    next e => exact (h.cellPlace _ _ _ _ _).of_snd e
    next e =>
      have hs := (h.cellPlace _ _ _ _ _).of_snd e
      split <;> next e => exact (ih hs _).of_snd e

theorem Canonical.dropMarks (h : Canonical s) (dom : Nat) : Canonical (s.dropMarks dom) := h.update

theorem Canonical.setupDomain (h : Canonical s) (t n : Nat) (k : Taken) : Canonical (s.setupDomain t n k) := by
  unfold State.setupDomain
  extract_lets r add fresh
  split
  · exact h.endWord _ _ _
  split
  next e => exact ((h.cellLines _ _ _ _ _ _).of_snd e).failWord _ _ _ _
  next e =>
    have hs := (h.cellLines _ _ _ _ _ _).of_snd e
    extract_lets u v w z
    have hv : Canonical v := (hs.cellLines _ _ _ _ _ _).update.foldl (fun _ _ h => h.perform _ _ _ _) _
    have hw : Canonical w := hv.dropMarks _
    have hz : Canonical z := .ite hv hw.update
    exact .ite (hs.endWord _ _ _) (hz.endWord _ _ _)

theorem Canonical.markDomain (h : Canonical s) (t n : Nat) (k : Taken) : Canonical (s.markDomain t n k) := by
  unfold State.markDomain
  dsimp only
  split
  · exact .ite (h.endWord _ _ _) h
  split
  · split
    · exact h.endWord _ _ _
    split
    · exact .ite ((h.applyFrontier _ _ _).modTaken _ _ _) ((h.applyFrontier _ _ _).endWord _ _ _)
    · exact (h.applyFrontier _ _ _).endWord _ _ _
  · exact .ite (h.endWord _ _ _) (.ite h ((h.dropMarks _).update.endWord _ _ _))
  · exact h.endWord _ _ _
  · exact h.endWord _ _ _
  · exact h.endWord _ _ _

theorem Canonical.datumComplete (h : Canonical s) (t n : Nat) : Canonical (s.datumComplete t n) := by
  unfold State.datumComplete
  split
  · exact h
  split
  · exact h.setupDomain _ _ _
  · exact h.setupDomain _ _ _
  · exact h.markDomain _ _ _
  · exact h.markDomain _ _ _
  · exact h

theorem Canonical.dsetup (h : Canonical s) (i : Instr) (d a b : SReg) : Canonical (s.dsetup i d a b) :=
  .ite (h.raise _ _) (.ite (h.raise _ _) (h.supOnly (h.takePlain _)))
theorem Canonical.dwmark (h : Canonical s) (i : Instr) (d a b : SReg) : Canonical (s.dwmark i d a b) := h.supOnly (h.takePlain _)

theorem Canonical.dstat (h : Canonical s) (d a b : SReg) : Canonical (s.dstat d a b) := by
  unfold State.dstat
  dsimp only
  split
  · exact h.retireIn _ _
  split
  · exact h.retireIn _ _
  split
  next e => exact ((h.cellPlace _ _ _ _ _).of_snd e).raise _ _
  next e =>
    have hs := (h.cellPlace _ _ _ _ _).of_snd e
    split
    next e => exact ((hs.activate _).of_snd e).raise _ _
    next e => exact ((hs.activate _).of_snd e).stall
    next e => exact ((hs.activate _).of_snd e).retireIn _ _

theorem Canonical.endDd (h : Canonical s) (t n en : Nat) (a : DdEnd) : Canonical (s.endDd t n en a) := by
  unfold State.endDd
  split
  · exact h.endWord _ _ _
  · exact h.failWord _ _ _ _
  · exact h.modTaken _ _ _
  split
  next e => exact ((h.ddCompute _ _).of_snd e).endWord _ _ _
  next e => exact ((h.ddCompute _ _).of_snd e).failWord _ _ _ _

theorem Canonical.ddRun (h : Canonical s) {α : Type} (en : Nat) (f : DdEngine → DdOut α) (k : α → DdEnd) :
    Canonical (s.ddRun en f k).2 := by
  unfold State.ddRun
  split <;> next e => exact (h.ddCompute _ _).of_snd e

theorem Canonical.ddStep (h : Canonical s) (en : Nat) (me : List Nat) (r : DdRun) : Canonical (s.ddStep en me r).2 := h.ddRun _ _ _

theorem Canonical.ddRead {s : State} (h : Canonical s) (die : Nat) (k : Taken) (ps : List (Nat × Nat)) :
    Canonical (s.ddRead die k ps).2 := by
  induction ps generalizing s with
  | nil => exact h
  | cons x r ih =>
    unfold State.ddRead
    dsimp only
    split
    next e => exact (h.probe _ _ _ _ _).of_snd e
    next e =>
      have hs := (h.probe _ _ _ _ _).of_snd e
      split
      · exact hs.atHome _ _ _ _ _
      split <;> next e => exact (ih ((hs.atHome _ _ _ _ _).correct _ _ _ _)).of_snd e

theorem Canonical.ddWrite {s : State} (h : Canonical s) (die : Nat) (k : Taken) (v : Nat) (ps : List (Nat × Nat)) :
    Canonical (s.ddWrite die k v ps).2 := by
  induction ps generalizing s v with
  | nil => exact h
  | cons x r ih =>
    unfold State.ddWrite
    split
    next e => exact (h.probe _ _ _ _ _).of_snd e
    next e => exact ih ((((h.probe _ _ _ _ _).of_snd e).atHome _ _ _ _ _).perform _ _ _ _) _

theorem Canonical.ddWeights {s : State} (h : Canonical s) (die : Nat) (k : Taken) (e : DdEngine) (l n : Nat) (m : SMap Nat) :
    Canonical (s.ddWeights die k e l n m).2 := by
  induction n generalizing s l m with
  | zero => exact h
  | succ n ih =>
    unfold State.ddWeights
    split
    next e => exact ih ((h.ddRead _ _ _).of_snd e) _ _
    next e => exact (h.ddRead _ _ _).of_snd e

theorem Canonical.ddCountBy (h : Canonical s) (en nl f : Nat) (C : Counting) (g : C.α → Word) : Canonical (s.ddCountBy en nl f C g).2 :=
  h.ddRun _ _ _

theorem Canonical.ddCount (h : Canonical s) (en : Nat) (k : Taken) (f : Nat) : Canonical (s.ddCount en k f).2 := by
  unfold State.ddCount
  dsimp only
  split
  · exact h.ddCountBy _ _ _ _ _
  split
  next e => exact (h.ddWeights _ _ _ _ _ _).of_snd e
  next e =>
    have hs := (h.ddWeights _ _ _ _ _ _).of_snd e
    split
    all_goals
      split
      · exact hs.free
      · exact hs.ddCountBy _ _ _ _ _

theorem Canonical.ddEval {s : State} (h : Canonical s) (en : Nat) (k : Taken) (n f : Nat) : Canonical (s.ddEval en k n f).2 := by
  induction n generalizing s f with
  | zero => exact h
  | succ n ih =>
    unfold State.ddEval
    split
    · exact h
    split
    next e => exact (h.ddCompute _ _).of_snd e
    next e =>
      have hs := (h.ddCompute _ _).of_snd e
      split
      next e => exact (hs.ddRead _ _ _).of_snd e
      next e => exact ih ((hs.ddRead _ _ _).of_snd e) _

theorem Canonical.ddOrder (h : Canonical s) (en : Nat) (k : Taken) : Canonical (s.ddOrder en k).2 := by
  unfold State.ddOrder
  dsimp only
  split
  · exact h
  split
  next e => exact (h.ddRead _ _ _).of_snd e
  next e =>
    have hs := (h.ddRead _ _ _).of_snd e
    split
    · exact hs
    · exact hs.setDd _ _

theorem Canonical.ddExport (h : Canonical s) (en : Nat) (k : Taken) (f : Nat) : Canonical (s.ddExport en k f).2 := by
  unfold State.ddExport
  dsimp only
  split
  next e => exact (h.ddCompute _ _).of_snd e
  next e =>
    have hs := (h.ddCompute _ _).of_snd e
    split
    · exact hs
    split <;> next e => exact (hs.ddWrite _ _ _ _).of_snd e

theorem Canonical.ddImport (h : Canonical s) (en : Nat) (k : Taken) : Canonical (s.ddImport en k).2 := by
  unfold State.ddImport
  dsimp only
  split <;> next e => exact (h.ddRead _ _ _).of_snd e

theorem Canonical.ddStat (h : Canonical s) (en : Nat) (k : Taken) : Canonical (s.ddStat en k).2 := by
  unfold State.ddStat
  dsimp only
  split
  · exact h
  · exact h
  · exact h
  · exact h
  · exact h
  · exact h
  · exact h
  · exact h
  · exact h
  · split
    · exact h
    · exact h.ddRun _ _ _
  · split
    · exact h
    · exact h.ddRun _ _ _
  · split
    · exact h
    · exact h.ddRun _ _ _
  · split
    · exact h
    · exact h.ddRun _ _ _
  · exact h
  · exact h

theorem Canonical.ddColl (h : Canonical s) (en : Nat) (k : Taken) : Canonical (s.ddColl en k).2 := by
  unfold State.ddColl
  dsimp only
  split
  · exact h.ddRun _ _ _
  · exact h.setDd _ _
  · exact h.setDd _ _
  · exact h

theorem Canonical.ddRefer (h : Canonical s) (en n : Nat) (more : Bool) : Canonical (s.ddRefer en n more).2 := h.ddRun _ _ _

theorem Canonical.ddBody (h : Canonical s) (en : Nat) (k : Taken) : Canonical (s.ddBody en k).2 := by
  unfold State.ddBody
  dsimp only
  split
  · exact h.ddRun _ _ _
  · exact h.ddStep _ _ _
  · exact h.ddStep _ _ _
  · exact h.ddRun _ _ _
  · exact h.ddRun _ _ _
  · exact h.ddCount _ _ _
  · exact h.ddEval _ _ _ _
  · exact h.ddRefer _ _ _
  · exact h.ddRefer _ _ _
  · exact h.ddColl _ _
  · exact h.ddColl _ _
  · exact h.ddColl _ _
  · exact h.ddOrder _ _
  · split
    · exact h
    · exact h.ddRun _ _ _
  · exact h.ddExport _ _ _
  · exact h.ddImport _ _
  · exact h.ddStat _ _

theorem Canonical.ddPerform (h : Canonical s) (k : Taken) : Canonical (s.ddPerform k).2 := by
  unfold State.ddPerform
  dsimp only
  split
  · exact h
  split
  · exact h.free
  split
  · exact h.ddStep _ _ _
  split
  · exact h
  · exact h.ddBody _ _

theorem Canonical.ddComplete (h : Canonical s) (t n : Nat) : Canonical (s.ddComplete t n) := by
  unfold State.ddComplete
  dsimp only
  split
  · exact h
  split
  · exact .ite h ((h.ddPerform _).endDd _ _ _ _)
  · exact h

theorem Canonical.ddWord (h : Canonical s) (i : Instr) (d a b : SReg) (y : Sync) (aligned sup : Bool) :
    Canonical (s.ddWord i d a b y aligned sup) :=
  .ite (h.raise _ _) (.ite (h.raise _ _) (h.gated _ _ (h.takeSynced _ _ _ _)))

theorem Canonical.ddCollWord (h : Canonical s) (i : Instr) (d a b : SReg) (y : Sync) : Canonical (s.ddCollWord i d a b y) :=
  h.ddWord _ _ _ _ _ _ _

/-! ## Emulated atomics -/

theorem Canonical.emulated (h : Canonical s) (die c agent : Nat) (sup : Bool) (a n : Nat) :
    Canonical (s.emulated die c agent sup a n).2 := by
  unfold State.emulated
  dsimp only
  split
  next e => exact (h.probe _ _ _ _ _).of_snd e
  next e =>
    have hs := (h.probe _ _ _ _ _).of_snd e
    split
    · exact hs.atHome _ _ _ _ _
    split
    next e => exact ((hs.atHome _ _ _ _ _).probe _ _ _ _ _).of_snd e
    next e =>
      have hs := ((hs.atHome _ _ _ _ _).probe _ _ _ _ _).of_snd e
      split
      · exact hs.atHome _ _ _ _ _
      · exact (hs.atHome _ _ _ _ _).correct _ _ _ _

theorem Canonical.underLock (h : Canonical s) (lock : Space × Nat) (agent i : Nat) {k : State → State}
    (hk : ∀ s, Canonical s → Canonical (k s)) : Canonical (s.underLock lock agent i k) := ((hk _ (h.perform _ _ _ _)).fence _ _).perform _ _ _ _

theorem Canonical.endEmulated (h : Canonical s) (t n : Nat) (v : Word) : Canonical (s.endEmulated t n v) :=
  h.modTile _ fun _ k => by
    dsimp only
    split
    · split
      · exact (k.setTask _ _).update.idleEvent
      · exact (k.setTask _ _).update
    · exact k

theorem Canonical.failEmulated (h : Canonical s) (t n cause : Nat) (v : Word) : Canonical (s.failEmulated t n cause v) :=
  (((h.dropMonitor _ _).modTile _ fun _ k => k.modTask _ _).update.raise _ _).update
theorem Canonical.releaseEmulated (h : Canonical s) (ms : List Monitor) : Canonical (s.releaseEmulated ms) :=
  h.update.foldl (fun _ _ h => .ite (h.endEmulated _ _ _) (h.release _)) _

theorem Canonical.emulateWord (h : Canonical s) (t n : Nat) (k : Taken) (p : Space × Nat) : Canonical (s.emulateWord t n k p).2 := by
  unfold State.emulateWord
  dsimp only
  split
  · split
    · exact h.perform _ _ _ _
    · exact h
  · split
    · exact h
    · exact (h.modTile _ fun _ k => k.modTask _ _).update
  · exact h.releaseEmulated _

theorem Canonical.emulateTask (h : Canonical s) (t n : Nat) : Canonical (s.emulateTask t n) := by
  unfold State.emulateTask
  extract_lets x
  split
  · exact h
  extract_lets mine
  refine .ite h ?_
  split
  next e => exact ((h.emulated _ _ _ _ _ _).of_snd e).failEmulated _ _ _ _
  next e =>
    have hs := (h.emulated _ _ _ _ _ _).of_snd e
    refine .ite hs ?_
    dsimp only
    split
    · exact ((((hs.perform _ _ _ _).emulateWord _ _ _ _).fence _ _).perform _ _ _ _).endEmulated _ _ _
    · exact (((hs.perform _ _ _ _).emulateWord _ _ _ _).fence _ _).perform _ _ _ _

theorem Canonical.emulateUpdate (h : Canonical s) (g id : Nat) : Canonical (s.emulateUpdate g id) := by
  unfold State.emulateUpdate
  dsimp only
  split
  · split
    · exact h
    split
    next e => exact ((h.emulated _ _ _ _ _ _).of_snd e).tick.modElem _
    next e =>
      have hs := (h.emulated _ _ _ _ _ _).of_snd e
      exact .ite hs (((hs.underLock _ _ _ fun _ h => by
          split
          · exact h.performFor _ _ _ _ _
          · exact h).answer _ _ _).clearFault _ _)
  · exact h

theorem Canonical.pollWord (h : Canonical s) (t n : Nat) : Canonical (s.pollWord t n) := by
  unfold State.pollWord
  dsimp only
  split
  · split
    · exact h
    split
    next e => exact ((h.probe _ _ _ _ _).of_snd e).failEmulated _ _ _ _
    next e =>
      have hs := (h.probe _ _ _ _ _).of_snd e
      split
      · exact (hs.atHome _ _ _ _ _).failEmulated _ _ _ _
      · exact .ite (hs.atHome _ _ _ _ _) (((hs.atHome _ _ _ _ _).dropMonitor _ _).endEmulated _ _ _)
  · exact h

/-! ## Launches and moves -/

theorem Canonical.setQueue (h : Canonical s) (die q : Nat) (v : BitVec 128) : Canonical (s.setQueue die q v) := h.modMgmt _ _

theorem Canonical.ownRead (h : Canonical s) (die c va n : Nat) : Canonical (s.ownRead die c va n).2 := by
  unfold State.ownRead
  dsimp only
  split
  next e => exact ((h.probeAll _ _ _ _).of_snd e).update
  next e =>
    have hs := (h.probeAll _ _ _ _).of_snd e
    split <;> exact hs.foldl (fun _ _ h => h.callBack _ _ _ _) _

theorem Canonical.orderReport (h : Canonical s) (die : Nat) (r : LaunchRec) (act cause : Nat) : Canonical (s.orderReport die r act cause) :=
  h.update.update.report _ _

theorem Canonical.addLaunch (h : Canonical s) (die r : Nat) : Canonical (s.addLaunch die r) := by
  unfold State.addLaunch
  dsimp only
  split
  · exact (Canonical.ite ((h.ownRead _ _ _ _).update.tick.orderReport _ _ _ _) ((h.ownRead _ _ _ _).update.tick)).makeEligible
  · exact (Canonical.ite (h.update.tick.orderReport _ _ _ _) h.update.tick).makeEligible

theorem Canonical.pull (h : Canonical s) (die q : Nat) : Canonical (s.pull die q) := by
  unfold State.pull
  dsimp only
  split
  · exact h
  split
  next e => exact (h.ownRead _ _ _ _).of_snd e
  next e => exact (((h.ownRead _ _ _ _).of_snd e).setQueue _ _ _).addLaunch _ _

theorem Canonical.age (h : Canonical s) (die n : Nat) : Canonical (s.age die n) := by
  unfold State.age
  split
  · exact h
  · exact .ite (h.modLaunch _ _) h

theorem imageStore_wf (v n : Nat) : (State.imageStore v n).bytes.wf = true := Memory.wf_writeN _ _ _ Memory.wf_nil
theorem Canonical.renewTile (h : Canonical s) (t c : Nat) : Canonical (s.renewTile t c) :=
  h.foldl (fun _ _ h => (h.modElem _).modEctx _ _ _) _

theorem Canonical.placeTile (h : Canonical s) (n : Nat) (l : Launch) (text data : Option Nat) (marks : NSet) (t : Nat) :
    MaybeCanonical (s.placeTile n l text data marks t) := by
  unfold State.placeTile
  dsimp only
  split
  · exact .none
  split
  · exact .none
  next e =>
    refine .some (Canonical.foldl (Canonical.of_snd_snd (Canonical.loadImage ?_ _ _ _ _) e) (fun _ _ h => h.emptyTiles _ _) _)
    refine (Canonical.renewTile (.ite h (h.modTile _ fun T k => ?_)) _ _).modTile _ fun _ k => ((k.modCtx _ _).create _ _ _ _).update
    cases text <;> cases data
    · exact k
    · exact ⟨k.istore, imageStore_wf _ _, k.overlay⟩
    · exact ⟨imageStore_wf _ _, k.dstore, k.overlay⟩
    · exact ⟨imageStore_wf _ _, imageStore_wf _ _, k.overlay⟩

theorem Canonical.placeTiles {s : State} (h : Canonical s) (n : Nat) (l : Launch) (text data : Option Nat) (marks : NSet) (ts : List Nat) :
    MaybeCanonical (s.placeTiles n l text data marks ts) := by
  induction ts generalizing s with
  | nil => exact .some h
  | cons t r ih => exact .bind (h.placeTile _ _ _ _ _ _) fun _ => ih

theorem Canonical.placeBlocks (h : Canonical s) (l : Launch) (ts : List Nat) : Canonical (s.placeBlocks l ts) := h.update

theorem Canonical.readImage (h : Canonical s) (l : Launch) (va n : Nat) : Canonical (s.readImage l va n).2 := by
  unfold State.readImage
  split
  · exact h
  · split <;> next e => exact (h.ownRead _ _ _ _).of_snd e

theorem Canonical.place (h : Canonical s) (n : Nat) (l : Launch) (o : Nat × Nat) : Canonical (s.place n l o) := by
  unfold State.place
  dsimp only
  split
  next e => exact (((h.readImage _ _ _).of_snd e).modLaunch _ _).makeEligible
  next e =>
    have hs := (h.readImage _ _ _).of_snd e
    split
    next e => exact (((hs.readImage _ _ _).of_snd e).modLaunch _ _).makeEligible
    next e =>
      have hs := (hs.readImage _ _ _).of_snd e
      split
      · exact (hs.modLaunch _ _).makeEligible.update
      next e => exact (((hs.update.placeTiles _ _ _ _ _ _).of_some e).placeBlocks _ _).update

theorem Canonical.allocate (h : Canonical s) (die n : Nat) : Canonical (s.allocate die n) := by
  unfold State.allocate
  split
  · exact h.place _ _ _
  · exact h

theorem Canonical.killLaunch (h : Canonical s) (n cause : Nat) : Canonical (s.killLaunch n cause) := by
  unfold State.killLaunch
  dsimp only
  split
  · exact h
  · exact (h.killRegion _).orderReport _ _ _ _

theorem Tile.Canonical.receive {A B : Tile} (hA : A.Canonical) (c : Nat) (p : Placed) : (B.receive A c p).Canonical := hA.update
theorem Tile.Canonical.vacate (k : T.Canonical) (c : Nat) : (T.vacate c).Canonical :=
  ((k.foldl (fun _ _ h => .ite (h.setTask _ _) h) _).modCtx _ _).update

theorem Elem.Canonical.receive {G H : Elem} (k : G.Canonical) (c : Nat) (d : BitVec 64) : (H.receive G c d).Canonical := k.update

theorem Elem.Canonical.vacate (k : G.Canonical) (c : Nat) : (G.vacate c).Canonical := k.update

theorem Canonical.moveTile (h : Canonical s) (c t u : Nat) (p : Placed) : Canonical (s.moveTile c t u p) := by
  unfold State.moveTile
  have ht := h.settleTile t
  dsimp only
  refine Canonical.update ?_
  refine Canonical.modTile (.modTile (.modNode (.modNode (.foldl ht (fun _ _ h => ?_) _) _ _) _ _) _ ?_) _ ?_
  · exact (((h.modElem _ fun _ _ => (h.elem _).receive _ _).modElem _ fun _ k => k.vacate _).modEctx _ _ _).modEctx _ _ _
  · exact fun _ _ => (ht.tile t).receive _ _
  · exact fun _ k => k.vacate _

theorem Canonical.moveLaunch (h : Canonical s) (n : Nat) (l : Launch) (ox oy : Nat) : Canonical (s.moveLaunch n l ox oy) :=
  (h.foldl (fun _ _ h => by
    dsimp only
    split
    · exact h.moveTile _ _ _ _
    · exact h) _).update.modLaunch _ _

theorem Canonical.compact (h : Canonical s) (n ox oy : Nat) : Canonical (s.compact n ox oy) := by
  unfold State.compact
  dsimp only
  split
  · exact h
  · exact .ite h (.ite (h.modLaunch _ _) (.ite (h.moveLaunch _ _ _ _) (h.modLaunch _ _)))

theorem Canonical.refresh (h : Canonical s) (sp : Space) : Canonical (s.refresh sp) :=
  h.foldl (fun _ _ h => h.free.modStore _ fun _ w => Memory.wf_writeN _ _ _ w) _

theorem Canonical.useSpare (h : Canonical s) (t : Nat) : Canonical (s.useSpare t) := by
  unfold State.useSpare
  dsimp only
  refine Canonical.modTile (.foldl (((h.refresh _).refresh _).refresh _) (fun _ _ h => ?_) _) _ fun _ k => ?_
  · exact (h.refresh _).foldl (fun _ _ h => .ite (h.modEctx _ _ _) h) _
  · exact k.update.foldl (fun _ _ k => .ite (k.modTask _ _) k) _

theorem Canonical.filterElems {focus turns ectxs nodes inflight monitors troot units folds regions blocks insts launches spawned serial fresh absent
      cells domains unitWm dd egress posted packets orphans searches notices hostDown planesDown powered shutdown jobs mgmt module} (h : Canonical s)
    (p : Nat → Bool) :
    Canonical ⟨focus, turns, s.tiles, s.elems.filter fun e => p e.1, ectxs, nodes, s.hbm, s.far, s.host, s.peers, inflight, monitors, troot, units,
      folds, regions, blocks, insts, launches, spawned, serial, fresh, absent, cells, domains, unitWm, dd, egress, posted, packets, orphans, searches,
      notices, hostDown, planesDown, powered, shutdown, jobs, mgmt, module⟩ := by
  refine .intro (h .hbm) (h .far) (h .host) (fun m => h (.peer m)) h.tile fun g => ?_
  have e : SMap.getD (s.elems.filter fun e => p e.1) g {} = if p g = true then s.elem g else {} := SMap.getD_filter_key _ _ _ _
  exact (congrArg Elem.Canonical e).mpr (.ite (h.elem g) rfl)

theorem Canonical.losesTile (h : Canonical s) (t : Nat) : Canonical (s.losesTile t) := by
  unfold State.losesTile
  dsimp only
  refine Canonical.filterElems (.modTile (h.foldl (fun _ _ h => ?_) _) t ?_) fun g => gidTile g != t
  · exact .ite h ((h.orphan _ _).freeTask _ _)
  · exact fun _ _ => ⟨rfl, rfl, rfl⟩

theorem Canonical.retireTile (h : Canonical s) (t : Nat) : Canonical (s.retireTile t) := by
  unfold State.retireTile
  extract_lets die m i p ns spare lost u v w x
  have hv : Canonical v := (h.foldl (fun _ _ h => h.killLaunch _ _) _).modMgmt _ _
  have hx : Canonical x := ((hv.losesTile _).modMgmt _ _).foldl (fun _ _ h => h.modMgmt _ _) _
  exact .ite h (.ite ((hv.modMgmt _ _).useSpare _) (hx.message _ _ _))

/-! ## The host and power -/

theorem idleTile_canonical (b : Bool) : (idleTile b).Canonical := ⟨rfl, rfl, rfl⟩

theorem Canonical.selfTest (h : Canonical s) (die : Nat) : Canonical (s.selfTest die).2 := by
  unfold State.selfTest
  refine Canonical.foldl_snd (p := (_, s)) h (fun _ _ h => ?_) _
  exact h.freeChoice

theorem Canonical.hideTiles (h : Canonical s) : Canonical s.hideTiles := by
  unfold State.hideTiles
  exact h.foldl (fun _ _ h => .ite h (h.setTile _ (idleTile_canonical _))) _

theorem Canonical.powerUp (h : Canonical s) {turns fresh mgmt module} :
    Canonical { host := s.host, peers := s.peers, fresh := fresh, turns := turns, mgmt := mgmt, module := module } :=
  .intro rfl rfl (h .host) (fun m => h (.peer m)) (fun _ => .default) fun _ => rfl

theorem Canonical.startUp (h : Canonical s) : Canonical s.startUp := by
  unfold State.startUp
  have hr := (((h.selfTest 0).selfTest 1).selfTest 2).selfTest 3
  dsimp only
  split
  · exact hr.powerUp.hideTiles
  · exact hr.powerUp

theorem Canonical.ready (h : Canonical s) : Canonical s.ready := .ite h ((h.foldl (fun _ _ h => h.modMgmt _ _) _).message _ _ _)
theorem Canonical.hostWrite (h : Canonical s) (a : Nat) (bs : List Byte) : Canonical (s.hostWrite a bs) :=
  .ite h ((h.callBack _ _ _ _).perform _ _ _ _)
theorem Canonical.hostRead (h : Canonical s) (a n : Nat) : Canonical (s.hostRead a n) := .ite h ((h.callBack _ _ _ _).correct _ _ _ _)
theorem Canonical.writeTroot (h : Canonical s) (c v : Nat) : Canonical (s.writeTroot c v) := h.update
theorem Canonical.writeDdctl (h : Canonical s) (k v : Nat) : Canonical (s.writeDdctl k v) := h.update
theorem Canonical.writeHaltrel (h : Canonical s) (die v : Nat) : Canonical (s.writeHaltrel die v) := .ite h ((h.modMgmt _ _).modTile _)
theorem Canonical.writeManagement (h : Canonical s) (die off v : Nat) : Canonical (s.writeManagement die off v) :=
  .ite h (.ite h.update (.ite h.update h))
theorem Canonical.linkDown (h : Canonical s) : Canonical s.linkDown := h.update.update.update.message _ _ _
theorem Canonical.planeDown (h : Canonical s) (p : Nat) : Canonical (s.planeDown p) := .ite h (h.update.update.message _ _ _)
theorem Canonical.scrub (h : Canonical s) (sp : Space) (a : Nat) : Canonical (s.scrub sp a) :=
  .ite (((h.update.correct _ _ _ _).modStore _).modMgmt _ _) (h.update.correct _ _ _ _)
theorem Canonical.setTemp (h : Canonical s) (die : Nat) (f : Nat → Nat) : Canonical (s.setTemp die f) := h.update.modMgmt _ _
theorem Canonical.throttle (h : Canonical s) (die p : Nat) : Canonical (s.throttle die p) :=
  (Canonical.ite ((h.setTemp _ _).modMgmt _ _) (h.update.foldl (fun _ _ h => h.modMgmt _ _) _)).message _ _ _
theorem Canonical.throttleLeft (h : Canonical s) (die : Nat) : Canonical (s.throttleLeft die) :=
  .ite h ((((h.setTemp _ _).modMgmt _ _).update.update.foldl (fun _ _ h => h.modMgmt _ _) _).message _ _ _)

theorem Canonical.shutDown (h : Canonical s) (die : Nat) : Canonical (s.shutDown die) := by
  unfold State.shutDown
  dsimp only
  exact ((h.setTemp _ _).foldl (fun _ _ h => h.modTile _) _).update.message _ _ _

theorem Canonical.powerLost (h : Canonical s) (l : List Nat) {turns fresh mgmt module powered} :
    Canonical { tiles := l.map fun t => (t, idleTile (s.tile t).exposed), host := s.host, peers := s.peers, fresh := fresh, turns := turns,
                powered := powered, mgmt := mgmt, module := module } := by
  refine .intro rfl rfl (h .host) (fun m => h (.peer m)) (fun t => ?_) fun _ => rfl
  refine SMap.getD_of_forall (P := Tile.Canonical) .default (fun e he => ?_) t
  obtain ⟨n, _, rfl⟩ := List.mem_map.mp he
  exact idleTile_canonical _

theorem Canonical.removePower (h : Canonical s) : Canonical s.removePower := by
  unfold State.removePower
  exact .ite h (h.powerLost _)

/-! ## Words to other modules -/

theorem Canonical.qtail (h : Canonical s) (d a b : SReg) : Canonical (s.qtail d a b) := by
  unfold State.qtail
  dsimp only
  split
  · exact h.retire _
  split
  · exact .ite ((h.fence _ _).takePlain _) (h.raise _ _)
  · exact (h.fence _ _).takePlain _

theorem Canonical.tailArrives (h : Canonical s) (k : Taken) (resp : Nat) : Canonical (s.tailArrives k resp).2 := by
  unfold State.tailArrives
  dsimp only
  split
  · exact h
  split
  · exact h
  split
  · exact h
  · exact h.setQueue _ _ _

theorem Canonical.spawnOwner (h : Canonical s) (die c : Nat) (sup : Bool) (a : Nat) : Canonical (s.spawnOwner die c sup a).2 := by
  unfold State.spawnOwner
  dsimp only
  split
  next e => exact (h.translate _ _ _).of_snd e
  next e =>
    have hs := (h.translate _ _ _).of_snd e
    split
    · exact hs
    split
    · exact hs.update
    · exact hs

theorem Canonical.spawnat (h : Canonical s) (d a b : SReg) : Canonical (s.spawnat d a b) := by
  unfold State.spawnat
  dsimp only
  split
  · exact h.raise _ _
  split
  · exact h.raise _ _
  split
  next e => exact ((h.spawnOwner _ _ _ _).of_snd e).raise _ _
  next e =>
    have hs := (h.spawnOwner _ _ _ _).of_snd e
    exact .ite (hs.raise _ _) (.ite (hs.writeReg _ _) (hs.takePlain _))

theorem Canonical.jobStart (h : Canonical s) (die c agent : Nat) (sup : Bool) (a : Nat) : Canonical (s.jobStart die c agent sup a).2 := by
  unfold State.jobStart
  dsimp only
  split
  · exact h
  split
  next e => exact (h.probe _ _ _ _ _).of_snd e
  next e =>
    have hs := (h.probe _ _ _ _ _).of_snd e
    split
    · exact hs.atHome _ _ _ _ _
    · exact ((hs.atHome _ _ _ _ _).correct _ _ _ _).perform _ _ _ _

theorem Canonical.spawnSends (h : Canonical s) (t n : Nat) (k : Taken) : Canonical (s.spawnSends t n k) := by
  unfold State.spawnSends
  dsimp only
  split
  · exact h.endWord _ _ _
  split
  next e => exact ((h.spawnOwner _ _ _ _).of_snd e).failWord _ _ _ _
  next e =>
    have hs := (h.spawnOwner _ _ _ _).of_snd e
    split
    next e => exact ((hs.jobStart _ _ _ _ _).of_snd e).failWord _ _ _ _
    next e => exact ((hs.jobStart _ _ _ _ _).of_snd e).update.endWord _ _ _

theorem Canonical.packetOver (h : Canonical s) (n : Nat) (p : Packet) : Canonical (s.packetOver n p) := h.update.jobDone _

theorem Canonical.memorySide (h : Canonical s) (p : Packet) : Canonical (s.memorySide p) := by
  unfold State.memorySide
  dsimp only
  split
  · exact (h.callBack _ _ _ _).free
  split
  · exact (h.callBack _ _ _ _).free.perform _ _ _ _
  · exact (h.callBack _ _ _ _).free

theorem Canonical.receivePacket (h : Canonical s) (sender raw va pa job : Nat) : Canonical (s.receivePacket sender raw va pa job) :=
  h.update

theorem Canonical.packetArrives (h : Canonical s) (n : Nat) : Canonical (s.packetArrives n) := by
  unfold State.packetArrives
  dsimp only
  split
  · exact h
  split
  · exact .ite h ((Canonical.ite (h.freeChoice.memorySide _) h.freeChoice).packetOver _ _)
  split
  · exact h.packetOver _ _
  split
  all_goals
    split
    · exact h.packetOver _ _
    split
    · exact (h.memorySide _).packetOver _ _
    split
    · exact h
    · exact h.update.modTile _ fun _ k => k.create _ _ _ _

theorem Canonical.cancelLaunch (h : Canonical s) (id : Nat) : Canonical (s.cancelLaunch id) :=
  h.update.foldl (fun _ _ h => by
    split
    · exact h
    · split
      · exact h
      · split
        · exact h.killLaunch _ _
        · exact ((h.modLaunch _ _).orderReport _ _ _ _).makeEligible
        · exact ((h.modLaunch _ _).orderReport _ _ _ _).makeEligible
        · exact h
        · exact h) _

theorem Canonical.applyCancel (h : Canonical s) (form id : Nat) : Canonical (s.applyCancel form id) := by
  unfold State.applyCancel
  dsimp only
  split
  · exact h.foldl (fun _ _ h => h.modMgmt _ _) _
  · exact h.cancelLaunch _
  · exact h.foldl (fun _ _ h => h.modMgmt _ _) _
  · exact h

theorem Canonical.cancel (h : Canonical s) (i : Instr) (d a : SReg) : Canonical (s.cancel i d a) :=
  .ite (h.writeReg _ _) (.ite (h.raise _ _) (h.takePlain _))
theorem Canonical.cancelDone (h : Canonical s) (t n : Nat) (k : Taken) (resp : Nat) : Canonical (s.cancelDone t n k resp) :=
  .ite h ((h.endWord _ _ _).applyCancel _ _)

theorem Canonical.remoteComplete (h : Canonical s) (t n resp : Nat) : Canonical (s.remoteComplete t n resp) := by
  unfold State.remoteComplete
  dsimp only
  split
  · exact h
  split
  · exact (h.tailArrives _ _).endWord _ _ _
  · exact h.spawnSends _ _ _
  · exact h.cancelDone _ _ _ _
  · exact h.cancelDone _ _ _ _
  · exact h.cancelDone _ _ _ _
  · exact h

/-! ## Saved and restored contexts -/

theorem Store.wf_withLines (x : Store) (c : Nat) (ls : List (Nat × Nat)) (w : x.bytes.wf = true) : (x.withLines c ls).bytes.wf = true := by
  induction ls generalizing x with
  | nil => exact w
  | cons l r ih => exact ih _ (x.wf_write _ _ _ w)

theorem Canonical.ctxWord (h : Canonical s) (back : Bool) (d a b : SReg) : Canonical (s.ctxWord back d a b) := by
  unfold State.ctxWord
  dsimp only
  split
  · exact h.supOnly (h.writeReg _ _)
  split
  · exact h.supOnly (h.writeReg _ _)
  split
  · exact h.supOnly ((h.update.modLaunch _ _).writeReg _ _)
  · exact h.supOnly (h.update.writeReg _ _)

theorem Canonical.areaWrite (h : Canonical s) (j : SaveJob) (va n v : Nat) : ResultCanonical (s.areaWrite j va n v) := by
  unfold State.areaWrite
  split
  · exact .error
  next e => exact .ok ((((h.probeAll _ _ _ _).of_snd e).piecesHome _ _).writePieces _ _ _)

theorem Canonical.areaRead (h : Canonical s) (j : SaveJob) (va n : Nat) : Canonical (s.areaRead j va n).2 := by
  unfold State.areaRead
  dsimp only
  split
  next e => exact (h.probeAll _ _ _ _).of_snd e
  next e =>
    have hs := (h.probeAll _ _ _ _).of_snd e
    split
    · exact hs.piecesHome _ _
    · exact (hs.piecesHome _ _).foldl (fun _ _ h => h.correct _ _ _ _) _

theorem Canonical.writeWords {s : State} (h : Canonical s) (j : SaveJob) (va n : Nat) (ws : List Nat) :
    ResultCanonical (s.writeWords j va n ws) := by
  induction n generalizing s va ws with
  | zero => exact .ok h
  | succ n ih =>
    unfold State.writeWords
    split
    · exact .ok h
    split
    · exact .error
    next e => exact ih ((h.areaWrite _ _ _ _).of_ok e) _ _

theorem Canonical.readWords {s : State} (h : Canonical s) (j : SaveJob) (va k n : Nat) : Canonical (s.readWords j va k n).2 := by
  induction k generalizing s va n with
  | zero => exact h
  | succ k ih =>
    unfold State.readWords
    dsimp only
    split
    · exact h
    split
    next e => exact (h.areaRead _ _ _).of_snd e
    next e =>
      have hs := (h.areaRead _ _ _).of_snd e
      split <;> next e => exact (ih hs _ _).of_snd e

theorem Canonical.jobFails (h : Canonical s) (j : SaveJob) (faddr : Nat) : Canonical (s.jobFails j faddr) := by
  unfold State.jobFails
  refine Canonical.update ?_
  have hw : ∀ (s : State) (a n v : Nat), Canonical s → Canonical (match s.areaWrite j a n v with | .ok s => s | .error _ => s) := by
    intro s a n v h
    split
    next e => exact (h.areaWrite _ _ _ _).of_ok e
    · exact h
  exact hw _ _ _ _ (hw _ _ _ _ h)

theorem Canonical.freezeTask (h : Canonical s) (t n : Nat) : Canonical (s.freezeTask t n) :=
  .ite (h.modTile _ fun _ k => k.enter _ _ _) (.ite ((h.leaveWait _ _).modTile _ fun _ k => k.wake _) h)

theorem Canonical.freezeTile (h : Canonical s) (t c : Nat) : ResultCanonical (s.freezeTile t c) := by
  refine ResultCanonical.foldl (.ok h) (fun o n ho => ?_) _
  split
  · exact .error
  next s =>
    have h := ho.of_ok rfl
    refine .ite (.ok h) ?_
    dsimp only
    split
    · split
      next e => exact .ok (((h.freezeTask _ _).fetchRegs_fst _ _).of_some e)
      · exact .error
    · exact .ok (h.freezeTask _ _)

/-- What a recursion on a list answers has a property that its empty case has and that each further case keeps. -/
theorem brecOn_keeps {α β : Type} {F : (l : List α) → List.below (motive := fun _ => β) l → β} {P : β → Prop} (nil : P (F [] ⟨⟩))
    (cons : ∀ x r b, P b.1 → P (F (x :: r) b)) (l : List α) : P (List.brecOn (motive := fun _ => β) l F) := by
  induction l with
  | nil => exact nil
  | cons x r ih => exact cons x r ⟨List.brecOn (motive := fun _ => β) r F, (List.brecOn.go (motive := fun _ => β) r F).2⟩ ih

/-- A writer of tile blocks that ends in a state in canonical form. -/
def WritesCanonical (f : State → Nat → Nat → Except (Nat × Nat) (Nat × State)) : Prop :=
  ∀ s va stop p, Canonical s → f s va stop = .ok p → Canonical p.2

/-- The recursion is followed as the kernel has it: the equations of `writeBlocks` are too large to make. -/
theorem Canonical.writeBlocks (h : Canonical s) (j : SaveJob) (n : Nat) (l : Launch) (va stop : Nat) (ts : List (Nat × Nat)) :
    ∀ p, s.writeBlocks j n l va stop ts = .ok p → Canonical p.2 := by
  intro p e
  delta State.writeBlocks at e
  refine brecOn_keeps (P := WritesCanonical) (F := State.writeBlocks._f j n l) ?_ ?_ ts s va stop p h e
  · intro s va stop p h e
    have e : Except.ok (stop, s) = .ok p := e
    cases e
    exact h
  · intro x r b ih s va stop p h e
    obtain ⟨t, i⟩ := x
    delta State.writeBlocks._f at e
    dsimp only at e
    split at e
    · cases e
    next e' => exact ih _ _ _ _ ((h.writeWords _ _ _ _).of_ok e') e

theorem Canonical.vacateTile (h : Canonical s) (t c : Nat) : Canonical (s.vacateTile t c) := by
  unfold State.vacateTile
  dsimp only
  exact (((h.foldl (fun _ _ h => (h.modElem _ fun _ k => k.update).modEctx _ _ _) _).modNode _ _).modTile _ fun _ k => k.vacate _).update

theorem Canonical.saveNow (h : Canonical s) (j : SaveJob) (n : Nat) (l : Launch) : ResultCanonical (s.saveNow j n l) := by
  unfold State.saveNow
  dsimp only
  have hf := ResultCanonical.foldl (ε := Nat) (.ok (h.foldl (fun _ t h => h.settleTile t) (State.rectangle l.ox l.oy l.info.w l.info.h)))
    (fun (o : Except Nat State) t ho => ho.bind fun _ h => h.freezeTile t l.info.ctx) (State.rectangle l.ox l.oy l.info.w l.info.h)
  split
  · exact .error
  next e =>
    have h := hf.of_ok e
    split
    · exact .error
    next e =>
      have h := h.writeBlocks _ _ _ _ _ _ _ e
      split
      · exact .error
      next e =>
        have h := (h.areaWrite _ _ _ _).of_ok e
        split
        · exact .error
        next e =>
          have h := (h.areaWrite _ _ _ _).of_ok e
          split
          · exact .error
          next e => exact .ok ((((h.areaWrite _ _ _ _).of_ok e).foldl (fun _ _ h => h.vacateTile _ _) _).modLaunch _ _).update

theorem Canonical.saveComplete (h : Canonical s) (die n : Nat) : Canonical (s.saveComplete die n) := by
  unfold State.saveComplete
  split
  · exact h
  split
  · split
    next e => exact ((h.areaWrite _ _ _ _).of_ok e).update
    · exact h.jobFails _ _
  · split
    · exact h
    split
    next e => exact (h.saveNow _ _ _).of_ok e
    · exact (h.modLaunch _ _).jobFails _ _

theorem Canonical.restoreFolds {s : State} (h : Canonical s) (c : Nat) (ts : List Nat) (fs : List Descriptor) :
    MaybeCanonical (s.restoreFolds c ts fs) := by
  induction fs generalizing s with
  | nil => exact .some h
  | cons x r ih =>
    unfold State.restoreFolds
    dsimp only
    split
    · exact .none
    · exact ih (Canonical.ite h (h.emptyTiles _ _)).update.tick

theorem Canonical.restoreElem (h : Canonical s) (g c : Nat) (e : (Elem × ElemCtx) × List (Nat × Nat)) :
    Canonical (s.restoreElem g c e) := by
  unfold State.restoreElem
  dsimp only
  refine (Canonical.tick (h.modElem _ fun H k => ?_)).modEctx _ _ _
  split <;> exact H.store.wf_withLines _ _ k

theorem Canonical.restoreTile (h : Canonical s) (l : Launch) (n : Nat) (v : SavedTile) (t : Nat) : Canonical (s.restoreTile l n v t) := by
  unfold State.restoreTile
  extract_lets
  refine Canonical.foldl (.modTile (.tick (.modNode (h.foldl (fun _ _ h => h.restoreElem _ _ _) _) _ _)) _ fun B k => ?_) (fun _ _ h => ?_) _
  · exact ⟨Store.wf_ite (imageStore_wf _ _) k.istore, Store.wf_ite (imageStore_wf _ _) k.dstore, B.overlay.wf_withLines _ _ k.overlay⟩
  · exact Canonical.tick h.update

theorem Canonical.restage {s : State} (h : Canonical s) (t c : Nat) (l : List Staged) : ResultCanonical (s.restage t c l) := by
  induction l generalizing s with
  | nil => exact .ok h
  | cons x r ih =>
    unfold State.restage
    dsimp only
    split
    · exact .error
    refine ih (Canonical.stage (.foldl_snd (p := (none, s)) h (fun _ _ h => ?_) _) _ _ _)
    split
    · exact h
    · exact h.runSegment _ _ _ _

theorem Canonical.restageAll {s : State} (h : Canonical s) (c : Nat) (l : List (Nat × List Staged)) :
    ResultCanonical (s.restageAll c l) := by
  induction l generalizing s with
  | nil => exact .ok h
  | cons x r ih =>
    unfold State.restageAll
    split
    next e => exact ih ((h.restage _ _ _).of_ok e)
    · exact .error

theorem Canonical.restoreNow (h : Canonical s) (j : SaveJob) (x : LaunchRec) (y : SavedLaunch) (vs : List SavedTile) (o : Nat × Nat) :
    ResultCanonical (s.restoreNow j x y vs o) := by
  unfold State.restoreNow
  dsimp only
  split
  · exact .error
  next e =>
    have hf := (h.update.restoreFolds _ _ _).of_some e
    split
    · exact .error
    next e =>
      have hr := ((hf.foldl (fun _ _ h => h.restoreTile _ _ _ _) _).restageAll _ _).of_ok e
      split
      · exact .error
      next e => exact .ok ((hr.update.areaWrite _ _ _ _).of_ok e).update

theorem Canonical.restoreFails (h : Canonical s) (j : SaveJob) (x : LaunchRec) (a : Nat) : Canonical (s.restoreFails j x a) :=
  (h.update.tick.jobFails _ _).makeEligible

theorem Canonical.restoreComplete (h : Canonical s) (die n : Nat) : Canonical (s.restoreComplete die n) := by
  unfold State.restoreComplete
  dsimp only
  split
  · exact h
  split
  next e => exact ((h.areaRead _ _ _).of_snd e).jobFails _ _
  next e =>
    have hs := (h.areaRead _ _ _).of_snd e
    split
    next e => exact ((hs.readWords _ _ _ _).of_snd e).restoreFails _ _ _
    next e =>
      have hs := (hs.readWords _ _ _ _).of_snd e
      split
      · exact hs
      split
      · exact hs.restoreFails _ _ _
      split
      next e => exact (hs.restoreNow _ _ _ _ _).of_ok e
      · exact hs.restoreFails _ _ _

/-! ## Instructions and events -/

/-- MEMORY_REQUEST_PERFORM: an element's request is read for the cell or performed; a store in flight lands. -/
theorem Canonical.memoryRequestPerform (h : Canonical s) (r : MemRef) : OutCanonical (execMemoryRequestPerform r s) := by
  refine .settle ?_
  cases r with
  | element g id =>
    dsimp only
    split
    · exact .ite (h.readCell _ _) (h.performRequest _ _)
    · exact h
  | store n => exact h.performStore _

theorem Canonical.queueTailWrite (h : Canonical s) (die q : Nat) (tail : TailWrite) : OutCanonical (execQueueTailWrite die q tail s) := by
  refine .next ?_
  cases tail <;> exact .ite (h.setQueue _ _ _) h

theorem Canonical.atomicEmulation (h : Canonical s) (r : Requester) : OutCanonical (execAtomicEmulation r s) := by
  refine .settle ?_
  cases r with
  | task t n => exact h.emulateTask _ _
  | element g id => exact h.emulateUpdate _ _

theorem Canonical.spawnPacketArrival (h : Canonical s) (p : Spawn) : OutCanonical (execSpawnPacketArrival p s) := by
  cases p with
  | here n => exact .next (h.packetArrives _)
  | sent sender raw va pa job => exact .next (.ite h ((h.receivePacket _ _ _ _ _).packetArrives _))

theorem Canonical.tileBusDownwardAccept (h : Canonical s) (t c col : Nat) : OutCanonical (execTileBusDownwardAccept t c col s) :=
  .settle (h.busAccept _ _ _)

/-- Every instruction and every input keeps the canonical form. -/
theorem Canonical.exec (h : Canonical s) : ∀ i : Instr, OutCanonical (exec i s)
  | .add .. | .sub .. | .mul .. | .mulh .. | .mulhs .. | .div .. | .divs .. | .rem .. | .rems .. | .and .. | .or .. | .xor .. | .andn ..
    | .orn .. | .shl .. | .shr .. | .sha .. | .rol .. | .ror .. | .min .. | .max .. | .mins .. | .maxs .. | .clz .. | .ctz .. | .popc ..
    | .brev .. | .bswap .. | .addw .. | .subw .. | .mulw .. | .shlw .. | .addi .. | .andi .. | .ori .. | .xori .. | .shli .. | .shri ..
    | .shai .. | .muli .. | .mini .. | .maxi .. | .lui .. | .addpc .. | .qrd .. => .next (h.writeReg _ _)
  | .ceq .. | .cne .. | .clt .. | .cle .. | .clts .. | .cles .. | .cbit .. | .cz .. | .qand .. | .qor .. | .qxor .. | .qnot .. | .qset ..
    | .qmov .. => .next (h.writeGuard _ _)
  | .sel .. => .next (h.guarded _ (h.writeReg _ _))
  | .qwr .. => .next (h.retire _)
  | .ldzB .. | .ldzH .. | .ldzW .. | .ldzD .. | .ldsB .. | .ldsH .. | .ldsW .. => .next (h.dataLoad _ _ _ _ _)
  | .stB .. | .stH .. | .stW .. | .stD .. => .next (h.dataStore _ _ _ _ _)
  | .ldgB .. | .ldgH .. | .ldgW .. | .ldgD .. => .settle (h.deviceLoad _ _ _ _)
  | .stgB .. | .stgH .. | .stgW .. | .stgD .. => .settle (h.deviceStore _ _ _ _ _)
  | .aadd .. | .aswp .. | .acas .. | .amin .. | .amax .. | .aand .. | .aor .. | .axor .. => .settle (h.atomic _ _ _ _ _ _)
  | .waitv .. => .settle (h.waitv _ _ _ _)
  | .wake .. => .settle (h.wake _ _ _ _)
  | .br .. => .next (h.guarded _ (h.branch _))
  | .call .. => .next (h.guarded _ (h.call _))
  | .jr .. => .next (h.guarded _ (h.jumpReg _))
  | .callt .. => .next (h.guarded _ (h.callTable _ _ _))
  | .ret .. => .next (h.guarded _ (h.ret _))
  | .twait .. => .next (h.twait _)
  | .tbind .. => .next (h.tbind _ _ _)
  | .tyield .. => .next ((h.retire _).modHere fun _ k => k.enter _ _ _)
  | .tspawn .. => .next (h.tspawn _ _ _)
  | .texit .. => .next h.texit
  | .chrd .. => .next (h.chrd _ _ _)
  | .chwr .. => .next (h.chwr _ _)
  | .trig .. => .next h.trigger
  | .barq .. => .next (h.barq _)
  | .opld .. => .next (h.opld _ _ _)
  | .swld .. => .next (h.swld _ _ _)
  | .shplace .. => .next (h.shplace _ _ _)
  | .shfree .. => .next (h.shfree _ _ _)
  | .cfgload .. => .settle (h.cfgload _ _ _)
  | .ctxpri .. => .next (h.ctxpri _ _)
  | .edgedepth .. => .next (h.edgedepth _ _ _)
  | .tvset .. => .next (h.tvset _ _ _ _)
  | .tvclr .. => .next (h.tvclr _ _)
  | .sbind .. => .next (h.sbind _ _ _ _)
  | .sbar .. => .next (h.sbar _)
  | .swait .. => .next (h.swait _ _ _)
  | .scan .. => .next (h.scan _ _)
  | .cpy .. | .cpyv .. | .cpyf .. => .next (h.copy _ _ _ _ _)
  | .cpyst .. => .next (h.cpyst _ _ _ _)
  | .cpysync .. => .next (h.cpysync _ _ _)
  | .ddvar .. | .ddapply .. | .ddite .. | .ddrest .. | .ddex .. | .ddwcnt .. | .ddeval .. | .ddref .. | .ddderef .. | .ddord .. | .ddswap ..
    | .ddexp .. | .ddimp .. | .ddstat .. => .next (h.ddWord _ _ _ _ _ _ _)
  | .ddcollCollect .. | .ddcollReset .. | .ddcollThreshold .. => .next (h.ddCollWord _ _ _ _ _)
  | .egpost .. => .next (h.egpost _ _ _)
  | .egrel .. => .next (h.egrel _ _ _ _)
  | .egrej .. => .next (h.egrej _ _ _ _)
  | .egstat .. => .next (h.egstat _ _ _ _)
  | .fdeclDescriptor .. | .fdeclRegion .. => .next (h.fdecl _ _ _ _ _)
  | .fgrow .. | .fcheck .. | .fdrop .. | .fstat .. => .next (h.foldWord _ _ _ _ _ _ _)
  | .coll .. => .next (h.coll _ _ _)
  | .colst .. => .next (h.colst _ _ _ _)
  | .colab .. => .next (h.colab _ _ _ _)
  | .qtail .. => .next (h.qtail _ _ _)
  | .spawnat .. => .settle (h.spawnat _ _ _)
  | .cancelJob .. | .cancelLaunch .. | .cancelClear .. => .next (h.cancel _ _ _)
  | .dsetupNew .. | .dsetupAdd .. => .next (h.dsetup _ _ _ _)
  | .dwmarkPost .. | .dwmarkRelease .. => .next (h.dwmark _ _ _ _)
  | .dstat .. => .settle (h.dstat _ _ _)
  | .trap .. | .brkpt .. => .next (h.raise _ _)
  | .tret .. => .next h.tret
  | .csrr .. | .csrw .. | .csrs .. | .csrc .. => .next (h.csrAccess _ _ _ _)
  | .fence .. => .next (.ite ((h.fence _ _).retire _) (h.raise _ _))
  | .halt .. => .next h.halt
  | .idle .. => .next h.idle
  | .ctxsave .. | .ctxrest .. => .next (h.ctxWord _ _ _ _)
  | .tlbinv .. => .next (h.tlbinv _ _)
  | .elemAdd .. | .elemSub .. | .elemMul .. | .mac .. | .elemMin .. | .elemMax .. | .abs .. | .neg .. | .elemAnd .. | .elemOr ..
    | .elemXor .. | .not .. | .elemShl .. | .elemShr .. | .elemSha .. | .clamp .. | .fadd .. | .fsub .. | .fmul .. | .fma .. | .fmin ..
    | .fmax .. | .fabs .. | .fneg .. | .fdiv .. | .fsqrt .. | .frcp .. | .frsq .. | .fexp .. | .flog .. | .ftanh .. | .fsig .. | .cvt ..
    | .cvtr .. | .pack .. | .unpack .. | .scale .. | .qnt .. | .cmpeq .. | .cmpne .. | .cmplt .. | .cmple .. | .gate .. | .selp ..
    | .taginc .. | .tagset .. | .tagget .. | .tagclr .. | .stamp .. | .loopi .. | .shuf .. | .bcast .. | .rotl .. | .lsel .. | .scanadd ..
    | .topk .. | .pfetch .. | .nop .. | .const .. | .adds .. | .subs .. | .muls .. | .elemPopc .. | .elemClz .. | .frnd .. | .fcls ..
    | .fcps .. | .avg .. | .sad .. | .hist .. | .lut .. | .bits .. | .biti .. => .after h (h.fireBy _ _ (.pureOp _))
  | .steer .. => .after h (h.fireBy _ _ (.regular fun _ _ h => .some h))
  | .merge .. => .after h (h.fireBy _ _ .passOn)
  | .mergeo .. => .after h (h.fireBy _ _ .passInTurn)
  | .nullgen .. => .after h (h.fireBy _ _ .nullgen)
  | .reord .. => .after h (h.fireBy _ _ .reorder)
  | .ctxalloc .. => .after h (h.fireBy _ _ (.regular .allocWidth))
  | .colpack .. => .after h (h.fireBy _ _ (.regular .joinColours))
  | .colunpk .. => .after h (h.fireBy _ _ (.regular .partColours))
  | .framealloc .. | .spawn .. => .after h (h.fireBy _ _ (.newFrame _))
  | .framefree .. => .after h (h.fireBy _ _ .freeFrame)
  | .loopb .. => .after h (h.fireBy _ _ (.regular .startLoop))
  | .loope .. => .after h (h.fireBy _ _ .exitLoop)
  | .loopt .. => .after h (h.fireBy _ _ (.regular .loopOn))
  | .loopx .. => .after h (h.fireBy _ _ (.quietly fun _ F h => h.stopLoops F))
  | .rsum .. | .rmax .. | .rmin .. | .rand .. | .elemRor .. | .rxor .. | .elemRdot .. | .rcnt .. => .after h (h.fireBy _ _ (.reduce _))
  | .nld .. | .nst .. | .nldt .. | .ald .. | .ast .. | .aldr .. | .sld .. | .sldc .. | .vst .. | .oupd .. | .fencee .. | .dupd .. | .dldt ..
    | .dlds .. | .dfront .. => .after h (h.fireBy _ _ (.memNode _))
  | .mxctl .. | .mxrda .. => .after h (h.fireBy _ _ (.sendEntry _))
  | .mxfeed .. => .after h (h.fireBy _ _ .feed)
  | .copyt .. => .after h (h.fireBy _ _ .copyUp)
  | .sink .. => .after h (h.fireBy _ _ (fun _ _ h => .quiet h))
  | .errchk .. => .after h (h.fireBy _ _ .errorCheck)
  | .trape .. | .brk .. => .after h (h.fireBy _ _ (.quietly fun _ F h => .some (h.fireFault F _ _ _)))
  | .idx .. => .after h (h.fireBy _ _ (.regular fun _ _ h => .emit h _ _))
  | .mma .. | .mmao .. | .mmat .. | .mmas .. | .mmax .. | .mmad .. | .mmai .. | .mmaq .. | .mmab .. | .mmaf .. =>
    .settle (h.nodeRun _ _ fun _ _ _ => h.nodeOut _ _ _)
  | .mxRdot .. | .rdotx .. | .aclr .. | .aread .. | .awrite .. | .ascale .. | .acvt .. | .abias .. | .aact .. | .atrn .. | .bsel ..
    | .bflip .. | .bstat .. | .aerrq .. | .aflush .. | .async .. | .anop .. => .next (h.nodePure _ _ _)
  | .bload .. => .settle (h.nodeRun _ _ fun _ _ _ => h.mxLoad _ _ _ _)
  | .calloc .. => .settle (h.nodeRun _ _ fun _ _ _ => h.mxAlloc _ _ _ _)
  | .cfree .. => .settle (h.nodeRun _ _ fun _ _ _ => h.mxFree _ _ _ _)
  | .cpark .. => .settle (h.nodeRun _ _ fun _ _ _ => h.mxPark _ _ _ _)
  | .cfetch .. => .settle (h.nodeRun _ _ fun _ _ _ => h.mxFetch _ _ _ _)
  | .powerOn .. => .next h.startUp
  | .mreset .. => .next (h.fromHost fun _ k => k.startUp)
  | .startUpComplete .. => .next h.ready
  | .taskSelect .. => .settle (h.selectTask _)
  | .bankFreed .. => .settle (h.bankFreed _)
  | .colourBeatArrival .. => .next (h.beatArrival _)
  | .tileBusDownwardAccept .. => h.tileBusDownwardAccept _ _ _
  | .tokenArrival .. => .settle (h.offer _ _ _ _)
  | .spilledRecordTakeBack .. => .settle (h.takeBack _ _)
  | .throttleRecovery .. => .next (h.throttleRecover _ _ _)
  | .loopIterationIssue .. => .next (h.loopIssue _ _ _)
  | .edgeBeatForward .. => .next (h.forward _ _)
  | .edgeDepthChange .. => .next (h.edgeChange _)
  | .blockAdmission .. => .after h (h.admitBlock _ _ _)
  | .blockCommit .. => .settle (h.commitBlock _)
  | .memoryRequestPerform .. => h.memoryRequestPerform _
  | .memoryReply .. => .next (h.replyRequest _ _)
  | .namedAccess .. => .settle (h.tryNamed _ _)
  | .foldStallTimeout .. => .next ((h.stallOut _ _).stallCommit _ _)
  | .aliasChainRequest .. => .settle (h.chainRequest _ _)
  | .chainStateRelease .. => .next (h.releaseChain _ _)
  | .translationWalk .. => .settle (h.walk _ _ _)
  | .ownerBufferReferral .. => .next (.ite (h.recallLine _) h)
  | .cellActivation .. => .settle (h.activateWanted _)
  | .datumInsertion .. => .settle (h.tryInsert _ _)
  | .keeperFrontierApply .. => .next (h.applyDfront _ _)
  | .watermarkRise .. => .next (h.riseMark _ _)
  | .foldWordComplete .. => .settle (h.foldComplete _ _)
  | .datumWordComplete .. => .settle (h.datumComplete _ _)
  | .ddWordComplete .. => .settle (h.ddComplete _ _)
  | .copySegment .. => .settle (h.copySegment _ _ _ _)
  | .copyCommandComplete .. => .next (h.copyEnd _ _ _)
  | .streamStart .. => .next (h.startStream _ _ _)
  | .streamTokenTransfer .. => .settle (h.streamStep _ _ _)
  | .streamComplete .. => .next (h.streamEnd _ _ _)
  | .egressRecordEnter .. => .next (h.egressEnter _ _)
  | .egressDelivery .. => .next (h.egressDeliver _ _)
  | .collectiveComplete .. => .settle (h.collComplete _ _ _)
  | .collectiveAbort .. => .settle (h.abortKey _ _ _ _ _)
  | .queueTailWrite .. => h.queueTailWrite _ _ _
  | .schedulerPull .. => .next (h.pull _ _)
  | .priorityAging .. => .next (h.age _ _)
  | .allocatorPlace .. => .next (h.allocate _ _)
  | .compaction .. => .settle (h.compact _ _ _)
  | .tileCompletion .. => .next (h.tileComplete _ _)
  | .workSteal .. => .settle (h.workSteal _)
  | .regionFaultTake .. => .next (h.faultTake _ _)
  | .regionKill .. => .settle (h.regionKill _ _ _ _)
  | .handlerDelivery .. => .next (h.handlerDelivery _ _)
  | .retryRestart .. => .next (h.retryRestart _ _)
  | .atomicEmulation .. => h.atomicEmulation _
  | .emulatedWaitvPoll .. => .settle (h.pollWord _ _)
  | .contextSaveComplete .. => .settle (h.saveComplete _ _)
  | .contextRestoreComplete .. => .settle (h.restoreComplete _ _)
  | .patrolScrub .. => .next (h.scrub _ _)
  | .tileRetirement .. => .settle (h.retireTile _)
  | .linkFlitResend .. => .next h
  | .linkDown .. => .next h.linkDown
  | .planeDown .. => .next (h.planeDown _)
  | .remoteWordComplete .. => .settle (h.remoteComplete _ _ _)
  | .thermalThrottle .. => .next (h.throttle _ _)
  | .thermalShutdown .. => .next (h.shutDown _)
  | .powerRemoval .. => .next h.removePower
  | .hostMemoryWrite .. => .next (h.hostWrite _ _)
  | .hostMemoryRead .. => .next (h.hostRead _ _)
  | .trootWrite .. => .next (h.fromHost fun _ k => k.writeTroot _ _)
  | .qdescWrite .. => .next (h.fromHost fun _ k => k.setQueue _ _ _)
  | .egringWrite .. | .fltringWrite .. | .devstatRrClear .. => .next (h.fromHost fun _ k => k.modMgmt _ _)
  | .msgringWrite .. => .next (h.fromHost fun _ k => k.update)
  | .ddctlWrite .. => .next (h.fromHost fun _ k => k.writeDdctl _ _)
  | .haltrel .. => .next (h.fromHost fun _ k => k.writeHaltrel _ _)
  | .managementRegisterWrite .. => .next (h.fromHost fun _ k => k.writeManagement _ _ _)
  | .thermalThrottleLeft .. => .next (h.throttleLeft _)
  | .cancelMessageArrival .. => .settle (.ite h (h.applyCancel _ _))
  | .spawnPacketArrival .. => h.spawnPacketArrival _

/-! ## Turns and steps -/

theorem Canonical.issueWord (h : Canonical s) : OutCanonical s.issueWord := by
  refine .ite (.next (h.raise _ _)) (.ite (.next ((h.noteError _ _).freeze _ _)) ?_)
  split
  · exact (h.correct _ _ _ _).exec _
  · exact .next (h.raise _ _)

theorem Canonical.mendTask (h : Canonical s) : Canonical s.mendTask := .ite ((h.modCur _).countFixed _ _) h
theorem Canonical.mendElem (h : Canonical s) (g : Nat) : Canonical (s.mendElem g) :=
  h.foldl (fun _ _ h => .ite ((h.modEctx _ _ _).countFixed _ _) h) _

theorem Canonical.freezeStruck (h : Canonical s) (t n : Nat) : Canonical (s.freezeStruck t n) :=
  (((h.update.update.dropMonitor _ _).modTile _ fun _ k => by
    dsimp only
    split
    · exact k.quitWait _
    · exact .ite (k.modTask _ _) k
    · exact k).noteError _ _).freeze _ _

theorem Canonical.survey (h : Canonical s) (t : Nat) : OutCanonical (s.survey t) := by
  refine .ite (.next (h.pass _)) ?_
  split
  · exact .next (h.freezeStruck _ _)
  split
  · exact .settle ((h.selectTask _).pass _)
  dsimp only
  split
  · exact .next (.ite h.update.raiseTaken (h.update.pass _))
  · exact .ite (.next (h.update.pass _)) h.update.mendTask.issueWord

theorem Canonical.freezeElem (h : Canonical s) (g : Nat) : MaybeCanonical (s.freezeElem g) := by
  unfold State.freezeElem
  split
  · exact .none
  · exact .some (h.elemFault _ _ _ _ _ _ _ _)

theorem Canonical.arbiterTurn (h : Canonical s) (g : Nat) : OutCanonical (s.arbiterTurn g) := by
  unfold State.arbiterTurn
  dsimp only
  split
  · exact .next h
  split
  next e => exact .next ((h.freezeElem _).of_some e)
  · exact .after (h.mendElem _) ((h.mendElem _).arbitrate _)

/-- The entries of a matrix node by the numbers of their opcodes, R55. -/
theorem Canonical.nodeNum (h : Canonical s) (t : MxWord) : ∀ n, OutCanonical (nodeNum n t s)
  | 0 | 1 | 2 | 3 | 4 | 5 | 6 | 7 | 8 | 9 => .settle (h.nodeRun _ _ fun _ _ _ => h.nodeOut _ _ _)
  | 10 | 11 | 12 | 13 | 14 | 15 | 16 | 17 | 18 | 19 | 21 | 22 | 23 | 28 | 29 | 30 | _ + 31 => .next (h.nodePure _ _ _)
  | 20 => .settle (h.nodeRun _ _ fun _ _ _ => h.mxLoad _ _ _ _)
  | 24 => .settle (h.nodeRun _ _ fun _ _ _ => h.mxAlloc _ _ _ _)
  | 25 => .settle (h.nodeRun _ _ fun _ _ _ => h.mxFree _ _ _ _)
  | 26 => .settle (h.nodeRun _ _ fun _ _ _ => h.mxPark _ _ _ _)
  | 27 => .settle (h.nodeRun _ _ fun _ _ _ => h.mxFetch _ _ _ _)

theorem Canonical.nodeTurn (h : Canonical s) (t : Nat) : OutCanonical (s.nodeTurn t) := by
  unfold State.nodeTurn
  dsimp only
  split
  · exact .ite (.next h.update) (.ite (h.update.nodeNum _ _) (.next (h.update.nodeFault _ _ _ _ _)))
  · exact .next h.update

/-- The steps of the engines and controllers are events of `exec`. -/
theorem Canonical.runWork (h : Canonical s) : ∀ w : Work, OutCanonical (runWork w s)
  | .taskSelect .. => h.exec (.taskSelect ..)
  | .bankFreed .. => h.exec (.bankFreed ..)
  | .colourBeatArrival .. => h.exec (.colourBeatArrival ..)
  | .tileBusDownwardAccept .. => h.exec (.tileBusDownwardAccept ..)
  | .tokenArrival .. => h.exec (.tokenArrival ..)
  | .spilledRecordTakeBack .. => h.exec (.spilledRecordTakeBack ..)
  | .throttleRecovery .. => h.exec (.throttleRecovery ..)
  | .loopIterationIssue .. => h.exec (.loopIterationIssue ..)
  | .edgeBeatForward .. => h.exec (.edgeBeatForward ..)
  | .edgeDepthChange .. => h.exec (.edgeDepthChange ..)
  | .blockAdmission .. => h.exec (.blockAdmission ..)
  | .blockCommit .. => h.exec (.blockCommit ..)
  | .memoryRequestPerform .. => h.exec (.memoryRequestPerform ..)
  | .memoryReply .. => h.exec (.memoryReply ..)
  | .namedAccess .. => h.exec (.namedAccess ..)
  | .foldStallTimeout .. => h.exec (.foldStallTimeout ..)
  | .aliasChainRequest .. => h.exec (.aliasChainRequest ..)
  | .chainStateRelease .. => h.exec (.chainStateRelease ..)
  | .cellActivation .. => h.exec (.cellActivation ..)
  | .datumInsertion .. => h.exec (.datumInsertion ..)
  | .keeperFrontierApply .. => h.exec (.keeperFrontierApply ..)
  | .watermarkRise .. => h.exec (.watermarkRise ..)
  | .foldWordComplete .. => h.exec (.foldWordComplete ..)
  | .datumWordComplete .. => h.exec (.datumWordComplete ..)
  | .ddWordComplete .. => h.exec (.ddWordComplete ..)
  | .copySegment .. => h.exec (.copySegment ..)
  | .copyCommandComplete .. => h.exec (.copyCommandComplete ..)
  | .streamStart .. => h.exec (.streamStart ..)
  | .streamTokenTransfer .. => h.exec (.streamTokenTransfer ..)
  | .streamComplete .. => h.exec (.streamComplete ..)
  | .egressRecordEnter .. => h.exec (.egressRecordEnter ..)
  | .egressDelivery .. => h.exec (.egressDelivery ..)
  | .collectiveComplete .. => h.exec (.collectiveComplete ..)
  | .schedulerPull .. => h.exec (.schedulerPull ..)
  | .priorityAging .. => h.exec (.priorityAging ..)
  | .allocatorPlace .. => h.exec (.allocatorPlace ..)
  | .compaction .. => h.exec (.compaction ..)
  | .tileCompletion .. => h.exec (.tileCompletion ..)
  | .workSteal .. => h.exec (.workSteal ..)
  | .regionFaultTake .. => h.exec (.regionFaultTake ..)
  | .regionKill .. => h.exec (.regionKill ..)
  | .handlerDelivery .. => h.exec (.handlerDelivery ..)
  | .retryRestart .. => h.exec (.retryRestart ..)
  | .atomicEmulation .. => h.exec (.atomicEmulation ..)
  | .emulatedWaitvPoll .. => h.exec (.emulatedWaitvPoll ..)
  | .contextSaveComplete .. => h.exec (.contextSaveComplete ..)
  | .contextRestoreComplete .. => h.exec (.contextRestoreComplete ..)
  | .patrolScrub .. => h.exec (.patrolScrub ..)
  | .tileRetirement .. => h.exec (.tileRetirement ..)
  | .spawnPacketArrival .. => h.exec (.spawnPacketArrival ..)
  | .remoteWordComplete .. => h.exec (.remoteWordComplete ..)
  | .startUpComplete => h.exec .startUpComplete
  | .powerRemoval => h.exec .powerRemoval

theorem Canonical.sweep (h : Canonical s) : Canonical s.sweep := h.update.update.update.update

theorem Canonical.take (h : Canonical s) : ∀ t : Turn, OutCanonical (s.take t)
  | .sweep => .next h.sweep
  | .surveyor _ => h.survey _
  | .arbiter _ => h.arbiterTurn _
  | .slot .. => .ite (.next h) (.after h (h.fireSlot _ _ _))
  | .node _ => h.nodeTurn _
  | .work w => .ite (.next h) (h.runWork w)
  | .input i => h.exec i

theorem Canonical.turn (h : Canonical s) : OutCanonical s.turn := by
  unfold State.turn
  split
  · exact h.update.survey _
  · exact h.update.take _

theorem Canonical.step (h : Canonical s) : OutCanonical (step s) := h.turn

end Sys2Proof.Machine

namespace Sys2Proof.Proofs
open Sys2Proof.Machine

/-- Settles O60, by one preservation lemma per function of the model, from the updates of a store, a tile and an element up to `step`. -/
theorem stepKeepsCanonicalMemory : Obligations.StepKeepsCanonicalMemory := fun _ t h e => h.step t e

end Sys2Proof.Proofs
end

section
/-! PROOFS. Words that a guard passes over, traps and TRET (R20, R21, R23, R77): O4 and O11. -/

set_option autoImplicit false

namespace Sys2Proof.Machine

/-! ## A word whose guard does not hold, R20 -/

theorem settle_of_absent {s : State} (h : s.absent = none) : settle s = .next s := by
  simp only [settle, h]

/-- A guarded word that answers at once, with whatever effect `u` under its guard. -/
theorem gives_passed_of_guarded {s u : State} {g : BitVec 4} {i : Instr} (h : s.Issues) (hg : s.cur.guardHolds g = false)
    (he : exec i s = .next (s.guarded g u)) : Gives i s fun t => Passed s t :=
  ⟨_, he, State.passed_guarded s g u h.task hg⟩

/-- A guarded word that may reach an address that no memory has: where its guard is 0 it reaches none. -/
theorem gives_passed_of_settled {s u : State} {g : BitVec 4} {i : Instr} (h : s.Issues) (hg : s.cur.guardHolds g = false)
    (he : exec i s = settle (s.guarded g u)) : Gives i s fun t => Passed s t := by
  have ha : (s.guarded g u).absent = none := by
    rw [State.guarded, hg]; exact h.here
  exact gives_passed_of_guarded h hg (he.trans (settle_of_absent ha))

/-! ## Traps and the return from them, R21, R23 and R77 -/

/-- An exception of a word, but for the causes 0x15 and 0x18, which also count an error of the tile. -/
theorem raises_of_raise {s : State} {i : Instr} {c : Nat} {v : Word} (h : s.Issues) (h15 : c ≠ 0x15) (h18 : c ≠ 0x18)
    (he : exec i s = .next (s.raise c v)) : Raises s i c v :=
  ⟨_, he, State.raised_raise s c v h.task h.run h15 h18⟩

/-- A word of supervisor state raises 0x06 in a task that is not in it, R77. -/
theorem raises_of_supOnly {s u : State} {i : Instr} (h : s.Issues) (hs : s.cur.sup = false) (he : exec i s = .next (s.supOnly u)) :
    Raises s i 0x06 0 := by
  refine raises_of_raise h (by decide) (by decide) (he.trans ?_)
  simp [State.supOnly, hs]

/-- What does not look at the tiles reads the same. -/
theorem Beyond.same {s t : State} (h : Beyond s t) {α : Type} (f : State → α) (hf : ∀ (v : State) T, f { v with tiles := T } = f v) :
    f t = f s :=
  (hf t s.tiles).symm.trans (congrArg f h)

/-- What does not look at the tasks, RETIRED and CYCLE of the focused tile reads the same. -/
theorem TileAside.same {s t : State} (h : TileAside s t) {α : Type} (f : Tile → α)
    (hf : ∀ (T : Tile) ks r c, f { T with tasks := ks, retired := r, cycle := c } = f T) : f t.here = f s.here :=
  (hf t.here _ _ _).symm.trans (congrArg f h)

/-- A word that has retired has changed no byte. -/
theorem Retires.sameBytes {s t : State} {n : Nat} (h : Retires s t n) : SameBytes s t := by
  obtain ⟨hb, ⟨ht, -⟩, ha, -⟩ := h
  have hf : t.focus = s.focus := hb.same State.focus fun _ _ => rfl
  have key (f : Tile → Memory) (h : ∀ (T : Tile) ks r c, f { T with tasks := ks, retired := r, cycle := c } = f T) (u : Nat) :
      f (t.tile u) = f (s.tile u) := by
    by_cases e : u = s.focus.tile
    · have := ha.same f h
      rwa [State.here, State.here, hf, ← e] at this
    · rw [ht u e]
  intro sp
  cases sp with
  | hbm => exact hb.same (·.hbm.bytes) fun _ _ => rfl
  | far => exact hb.same (·.far.bytes) fun _ _ => rfl
  | host => exact hb.same (·.host.bytes) fun _ _ => rfl
  | peer m => exact hb.same (fun v => (v.store (.peer m)).bytes) fun _ _ => rfl
  | localMem g => exact hb.same (fun v => (v.store (.localMem g)).bytes) fun _ _ => rfl
  | overlay u => exact key (·.overlay.bytes) (fun _ _ _ _ => rfl) u
  | dataStore u => exact key (·.dstore.bytes) (fun _ _ _ _ => rfl) u
  | instrStore u => exact key (·.istore.bytes) (fun _ _ _ _ => rfl) u

/-- The searches after the TRET of a task: that of the delivery that it ends is closed, R366. -/
def State.searchesAfterTret (s : State) : List Search :=
  if s.cur.handling then
    s.searches.map fun x => if x.tile = s.focus.tile ∧ x.ctx = s.cur.ctx.toNat ∧ x.phase = .handled then { x with phase := .returned } else x
  else s.searches

theorem State.tret_of_sup {s : State} (hs : s.cur.sup = true) :
    s.tret = ({ s with searches := s.searchesAfterTret } : State).finish 1 fun k => { k.trapReturn with handling := false } := by
  unfold State.tret State.supOnly State.searchesAfterTret
  rw [if_pos hs]
  cases s.cur.handling <;> rfl

end Sys2Proof.Machine

namespace Sys2Proof.Proofs
open Sys2Proof.Machine

/-- Settles O4: every guardable word answers `guarded`, which only retires it where the guard is 0. -/
theorem guardedOff : Obligations.GuardedOff := by
  intro s g d v a b off far h hg
  simp only [List.forall_mem_cons]
  have now {i : Instr} {u : State} := @gives_passed_of_guarded s u g i h hg
  have home {i : Instr} {u : State} := @gives_passed_of_settled s u g i h hg
  exact ⟨now rfl, now rfl, now rfl, now rfl, now rfl, home rfl, home rfl, home rfl, home rfl, home rfl, home rfl, home rfl, home rfl,
    home rfl, home rfl, home rfl, home rfl, home rfl, home rfl, now rfl, now rfl, now rfl, now rfl, now rfl, List.forall_mem_nil _⟩

theorem trapWords : Claims.trapWords := fun s a h =>
  ⟨raises_of_raise h (by decide) (by decide) rfl, by
    have hv : word s.cur.pc.toNat = s.cur.pc.setWidth 64 := BitVec.ofNat_toNat ..
    rw [hv]
    exact raises_of_raise h (by decide) (by decide) rfl⟩

theorem trapReturn : Claims.trapReturn := by
  intro s h hs
  refine ⟨s.tret, rfl, ?_⟩
  rw [State.tret_of_sup hs]
  generalize hl : s.searchesAfterTret = l
  have hr := State.retires_finish ({ s with searches := l } : State) 1 fun k => { k.trapReturn with handling := false }
  have hc := State.cur_finish ({ s with searches := l } : State) 1 (fun k => { k.trapReturn with handling := false }) h.task
  have hsame := hr.sameBytes
  obtain ⟨hbeyond, helse, haside, hret, -⟩ := hr
  refine ⟨fun sp => (hsame sp).trans (by cases sp <;> rfl), helse, haside, hret, ?_, fun hh => ?_⟩
  · rw [hc]
    change ({ s.cur.unexempt.trapReturn with handling := false } : Task) = _
    simp [Task.trapReturn]
  · have : l = s.searches := by rw [← hl]; simp [State.searchesAfterTret, hh]
    subst this
    exact hbeyond

theorem supervisorWords : Claims.supervisorWords := by
  intro s d a b h hs
  simp only [List.forall_mem_cons]
  have denied {i : Instr} {u : State} := @raises_of_supOnly s u i h hs
  exact ⟨denied rfl, denied rfl, denied rfl, denied rfl, denied rfl, denied rfl, denied rfl, denied rfl, denied rfl, denied rfl, denied rfl,
    List.forall_mem_nil _⟩

/-- Settles O11, from what `raise` does in both settings of STATUS.TE. -/
theorem traps : Obligations.Traps := ⟨trapWords, trapReturn, supervisorWords⟩

end Sys2Proof.Proofs

end

section
/-! PROOFS. The step runs the word at pc (R5, R12, R13, R377): O54. -/

set_option autoImplicit false

namespace Sys2Proof.Machine

/-! ## The word at pc, R5 and R12 -/

/-- The bytes of a number read from a memory are the bytes there, the lowest address first. -/
theorem leBytes_readN (m : Memory) (n a : Nat) : leBytes n (Memory.readN m a n) = (List.range n).map fun i => Memory.read m (a + i) := by
  induction n generalizing a with
  | zero => rfl
  | succ n ih =>
    have hlow : BitVec.ofNat 8 (Memory.readN m a (n + 1)) = Memory.read m a := by
      apply BitVec.eq_of_toNat_eq
      have := (Memory.read m a).isLt
      simp only [Memory.readN, BitVec.toNat_ofNat]; omega
    have hhigh : Memory.readN m a (n + 1) / 256 = Memory.readN m (a + 1) n := by
      have := (Memory.read m a).isLt
      simp only [Memory.readN]; omega
    rw [leBytes, hlow, hhigh, ih, List.range_succ_eq_map, List.map_cons, List.map_map]
    congr 1
    exact List.map_congr_left fun i _ => congrArg (Memory.read m) (Nat.add_right_comm ..)

/-- Four bytes, the lowest first, as a word. -/
theorem ofNat_leNat_four (b0 b1 b2 b3 : Byte) : BitVec.ofNat 32 (leNat [b0, b1, b2, b3]) = b3 ++ b2 ++ b1 ++ b0 := by
  apply BitVec.eq_of_toNat_eq
  have h0 := b0.isLt; have h1 := b1.isLt; have h2 := b2.isLt; have h3 := b3.isLt
  simp only [leNat, BitVec.toNat_ofNat, BitVec.toNat_append]
  rw [← Nat.shiftLeft_add_eq_or_of_lt h2, ← Nat.shiftLeft_add_eq_or_of_lt h1, ← Nat.shiftLeft_add_eq_or_of_lt h0]
  simp only [Nat.shiftLeft_eq]
  omega

theorem leNat_four_lt (b0 b1 b2 b3 : Byte) : leNat [b0, b1, b2, b3] < 2 ^ 32 := by
  have h0 := b0.isLt; have h1 := b1.isLt; have h2 := b2.isLt; have h3 := b3.isLt
  simp only [leNat]; omega

/-- The bytes at pc are those of the word there. -/
theorem State.fetched_eq (u : State) :
    u.fetched = [Memory.read u.here.istore.bytes u.cur.pc.toNat, Memory.read u.here.istore.bytes (u.cur.pc.toNat + 1),
      Memory.read u.here.istore.bytes (u.cur.pc.toNat + 2), Memory.read u.here.istore.bytes (u.cur.pc.toNat + 3)] :=
  leBytes_readN ..

theorem State.ofNat_fetched (u : State) : BitVec.ofNat 32 (leNat u.fetched) = Claims.wordAtPc u := by
  rw [State.fetched_eq, ofNat_leNat_four]; rfl

theorem State.leNat_fetched (u : State) : leNat u.fetched = (Claims.wordAtPc u).toNat := by
  rw [← State.ofNat_fetched, BitVec.toNat_ofNat, Nat.mod_eq_of_lt]
  rw [State.fetched_eq]
  exact leNat_four_lt ..

theorem State.decode_fetched (u : State) : decodeControlBytes u.fetched = decodeControl (Claims.wordAtPc u) := by
  rw [← State.ofNat_fetched, State.fetched_eq]; rfl

theorem State.rejectCause_eq (u : State) (r : Reject) : u.rejectCause r = Claims.rejected u r := by
  simp only [State.rejectCause, State.ofNat_fetched, Claims.rejected, Reject.cause]
  by_cases hg : r = .guardField
  · subst hg
    by_cases hb : fMaj (Claims.wordAtPc u) = 0x1C ∧ fFn (Claims.wordAtPc u) = 8 ∧ 2 ≤ (u.reg (fA (Claims.wordAtPc u))).toNat / 16 % 16
    · rw [if_pos ⟨rfl, hb⟩, if_neg fun h => h.2 hb]
    · rw [if_neg fun h => hb h.2, if_pos rfl, if_pos ⟨rfl, hb⟩]
  · rw [if_neg fun h => hg h.1, if_neg hg, if_neg fun h => hg h.1]

/-! ## Correctable errors, R377 -/

@[simp] theorem State.tiles_countFixed (s : State) (d n : Nat) : (s.countFixed d n).tiles = s.tiles := by
  unfold State.countFixed; split <;> rfl
@[simp] theorem State.focus_countFixed (s : State) (d n : Nat) : (s.countFixed d n).focus = s.focus := by
  unfold State.countFixed; split <;> rfl
theorem State.store_countFixed (s : State) (d n : Nat) (sp : Space) : (s.countFixed d n).store sp = s.store sp := by
  unfold State.countFixed; split <;> cases sp <;> rfl

/-- A new store leaves the tasks and the contexts of every tile as they are. -/
theorem State.tasks_setStore (s : State) (sp : Space) (x : Store) (t : Nat) :
    ((s.setStore sp x).tile t).tasks = (s.tile t).tasks ∧ ((s.setStore sp x).tile t).ctxs = (s.tile t).ctxs := by
  have onTile (u : Nat) (f : Tile → Tile) (hf : ∀ T, (f T).tasks = T.tasks ∧ (f T).ctxs = T.ctxs) :
      ((s.modTile u f).tile t).tasks = (s.tile t).tasks ∧ ((s.modTile u f).tile t).ctxs = (s.tile t).ctxs := by
    by_cases e : t = u
    · subst e; rw [State.tile_modTile_self]; exact hf _
    · rw [State.tile_modTile_of_ne _ _ e]; exact ⟨rfl, rfl⟩
  cases sp with
  | overlay u | dataStore u | instrStore u => exact onTile u _ fun _ => ⟨rfl, rfl⟩
  | _ => exact ⟨rfl, rfl⟩

/-- The correction of the errors in the bytes read. -/
theorem State.corrected_correct (s : State) (d : Nat) (sp : Space) (a n : Nat) : Corrected s (s.correct d sp a n) sp a n := by
  unfold State.correct
  dsimp only
  split
  · exact ⟨fun _ => rfl, rfl, fun _ => ⟨rfl, rfl⟩, fun _ => rfl⟩
  · next hit =>
    refine ⟨fun q => ?_, ?_, fun t => ?_, fun h => absurd ?_ hit⟩
    · rw [State.store_countFixed]
      by_cases e : q = sp
      · subst e; rw [State.store_modStore_self]
      · rw [State.store_modStore_of_ne _ _ e]
    · rw [State.focus_countFixed]; cases sp <;> rfl
    · simp only [State.tile, State.tiles_countFixed]
      exact State.tasks_setStore s sp _ t
    · exact List.filter_eq_nil_iff.mpr fun w hw => by simpa using h w hw

/-- The running task's correctable errors are corrected as its word issues, and nothing else of the task changes. -/
theorem State.cur_mendTask {s : State} (h : s.focus.task < 32) : s.mendTask.cur = { s.cur with weak := false } := by
  unfold State.mendTask
  by_cases hw : s.cur.weak = true
  · rw [if_pos hw]
    have : ((s.modCur fun k => { k with weak := false }).countFixed (tileDie s.focus.tile) 1).cur
        = (s.modCur fun k => { k with weak := false }).cur := by
      simp only [State.cur, State.here, State.tile, State.tiles_countFixed, State.focus_countFixed]
    rw [this, State.cur_modCur _ _ h]
  · rw [if_neg hw]
    simp only [Bool.not_eq_true] at hw
    rw [← hw]

@[simp] theorem State.focus_mendTask (s : State) : s.mendTask.focus = s.focus := by
  unfold State.mendTask; split <;> simp

/-! ## The Surveyor's turn, R13 and R17 -/

theorem Tile.running_some {T : Tile} {n : Nat} (h : T.running = some n) : n < 32 ∧ (T.task n).state = .run := by
  have hm := List.mem_of_find?_eq_some h
  have hp := List.find?_some h
  exact ⟨List.mem_range.mp hm, by simpa using hp⟩

/-- A Surveyor that goes on issues the word of its running task, once that task's own errors have been corrected. -/
theorem State.survey_running {s : State} {t n : Nat} (hp : s.powered = true) (hh : (s.tile t).halted = false) (hs : s.struck t = none)
    (hr : (s.tile t).running = some n) :
    let u : State := { s with focus := { s.focus with tile := t, task := n } }
    u.cur.taken = none → u.cur.held = none → s.survey t = u.mendTask.issueWord := by
  intro u hk hd
  unfold State.survey
  rw [if_neg (by simp [hp, hh])]
  simp only [hs, hr]
  have hd' : u.cur.held.isSome = false := by rw [hd]; rfl
  split
  · next k hk' => cases hk.symm.trans hk'
  · exact if_neg fun h => Bool.false_ne_true (hd'.symm.trans h)

theorem step_of_issuesNext {s u : State} {t n : Nat} (h : Claims.IssuesNext s u t n) :
    step s = u.mendTask.issueWord ∧ u.focus.tile = t ∧ u.focus.task = n ∧ n < 32 := by
  obtain ⟨turn, powered, going, sound, running, taken, held⟩ := h
  refine ⟨?_, ?_, ?_, (Tile.running_some running).1⟩
  · rcases turn with ⟨ht, rfl, rfl⟩ | ⟨r, ht, rfl⟩
    · unfold step State.turn
      rw [ht]
      exact State.survey_running (s := { s with turns := [.sweep] }) powered going sound running taken held
    · unfold step State.turn
      rw [ht]
      exact State.survey_running (s := { s with turns := r }) powered going sound running taken held
  all_goals rcases turn with ⟨-, -, rfl⟩ | ⟨r, -, rfl⟩ <;> rfl

end Sys2Proof.Machine

namespace Sys2Proof.Proofs
open Sys2Proof.Machine

/-- Settles O54: the turn of a Surveyor whose running task nothing holds is `issueWord`, whose cases are those of the statement. -/
theorem stepRunsTheWord : Obligations.StepRunsTheWord := by
  intro s v t n h
  obtain ⟨hstep, htile, htask, hn⟩ := step_of_issuesNext h
  intro u
  have hstep : step s = u.issueWord := hstep
  refine ⟨fun hw => ?_, State.cur_mendTask (htask ▸ hn), fun i hb he hd => ?_, fun r hu hb he hd => ?_, fun hu hb => ?_⟩
  · exact if_neg (by simp [hw])
  · refine ⟨u.correct (tileDie u.focus.tile) (.instrStore u.focus.tile) u.cur.pc.toNat 4, ?_, ?_⟩
    · have ht : u.focus.tile = t := (congrArg Focus.tile (State.focus_mendTask v)).trans htile
      rw [ht]
      exact State.corrected_correct ..
    · rw [hstep, State.issueWord, if_neg (by simp [hb]), if_neg (by simp [he]), State.decode_fetched, hd]
  · refine ⟨u.raise (u.rejectCause r) (word (leNat u.fetched)), ?_, ?_⟩
    · rw [hstep, State.issueWord, if_neg (by simp [hb]), if_neg (by simp [he]), State.decode_fetched, hd]
    · rw [State.rejectCause_eq, State.leNat_fetched]
      have hc : Claims.rejected u r = 0x01 ∨ Claims.rejected u r = 0x02 := by
        unfold Claims.rejected; dsimp only; split <;> simp
      exact State.raised_raise u _ _ hu.task hu.run (by omega) (by omega)
  · refine ⟨_, hstep.trans (if_pos hb), ?_⟩
    rw [show word u.cur.pc.toNat = u.cur.pc.setWidth 64 from BitVec.ofNat_toNat ..]
    exact State.raised_raise u _ _ hu.task hu.run (by decide) (by decide)

end Sys2Proof.Proofs

end

section
/-! PROOFS. What reset leaves (R32, R399): O59. -/

set_option autoImplicit false

namespace Sys2Proof.Machine

/-! ## What reset leaves, R32 and R399 -/

/-- A task of a tile that nothing has happened on: task 0 runs in bank 0, and the others are as a descriptor that was never used. -/
theorem task_reset (n : Nat) : (({} : Tile).task n) = if n = 0 then { state := .run, place := .bank 0 } else {} := by
  unfold Tile.task
  split
  · by_cases h : n = 0
    · subst h; rfl
    · simp [Ne.symm h, h]
  · rw [if_neg (by omega)]

/-- Every store is empty at reset. -/
theorem store_reset (sp : Space) : State.reset.store sp = {} := by cases sp <;> rfl

end Sys2Proof.Machine

namespace Sys2Proof.Proofs
open Sys2Proof.Machine

theorem resetValues : Claims.resetValues := by
  refine ⟨fun t _ => ?_, store_reset, fun c => ?_, fun d _ => ⟨rfl, rfl, rfl, rfl⟩, rfl, rfl, rfl⟩
  · have hk (n : Nat) : (State.reset.tile t).task n = if n = 0 then { state := .run, place := .bank 0 } else {} := task_reset n
    refine ⟨rfl, rfl, rfl, rfl, rfl, fun n h0 _ => ?_, fun n _ => ?_, fun n r => ?_⟩
    · rw [hk, if_neg (by omega)]
    · rw [hk]; split <;> exact ⟨rfl, rfl⟩
    · rw [hk]
      by_cases h0 : n = 0 <;> simp [Task.reg, h0]
  · show ((Vector.replicate 4 ({} : Troot)).get c).en = false
    simp [Vector.get_eq_getElem]

/-- Settles O59: the state of reset lists no tile, element or memory, so that each reads as one that nothing has happened on. -/
theorem resetState : Obligations.ResetState :=
  ⟨resetValues, fun sp => by rw [store_reset]; rfl⟩

end Sys2Proof.Proofs

end

section
/-! PROOFS. The CSRs (R24 to R31, R76): O10. -/

set_option autoImplicit false

namespace Sys2Proof.Machine

/-! ## Fields of a word, R7 and R9 -/

theorem field_eq (lo v : Nat) : field lo v = word (2 ^ lo * v) := by
  rw [field, Nat.shiftLeft_eq, Nat.mul_comm]

theorem flag_eq (lo : Nat) (b : Bool) : flag lo b = word (2 ^ lo * bit b) := by
  cases b
  · simp [flag, bit, word]
  · simp [flag, bit, Nat.shiftLeft_eq]

theorem bit_le (b : Bool) : bit b ≤ 1 := by cases b <;> simp [bit]

/-- Numbers that share no bit are joined by adding them. -/
theorem word_or {a b : Nat} (k : Nat) (ha : 2 ^ k ∣ a) (hb : b < 2 ^ k) : word a ||| word b = word (a + b) := by
  obtain ⟨c, rfl⟩ := ha
  rw [word, word, ← BitVec.ofNat_or, ← Nat.two_pow_add_eq_or_of_lt hb]; rfl

theorem getLsbD_field (lo v i : Nat) : (field lo v).getLsbD i = (decide (i < 64) && (decide (lo ≤ i) && v.testBit (i - lo))) := by
  simp [field, word, BitVec.getLsbD_ofNat, Nat.testBit_shiftLeft]

/-- A write of one field of `n` bits from bit `lo` up. -/
theorem write_field {n : Nat} (lo : Nat) (a : BitVec n) (x : Word) :
    (field lo a.toNat &&& ~~~(field lo (2 ^ n - 1))) ||| (x &&& field lo (2 ^ n - 1)) = field lo (x.extractLsb' lo n).toNat := by
  apply BitVec.eq_of_getLsbD_eq
  intro i hi
  simp only [BitVec.getLsbD_or, BitVec.getLsbD_and, BitVec.getLsbD_not, getLsbD_field, hi, decide_true, Bool.true_and,
    Nat.testBit_two_pow_sub_one, BitVec.testBit_toNat, BitVec.getLsbD_extractLsb']
  by_cases h1 : lo ≤ i
  · by_cases h2 : i - lo < n
    · simp [h1, h2]
    · simp [h1, h2, BitVec.getLsbD_of_ge a (i - lo) (by omega)]
  · simp [h1]

theorem setWidth_eq_field {n : Nat} (a : BitVec n) : a.setWidth 64 = field 0 a.toNat := by
  rw [field, Nat.shiftLeft_zero]; exact (BitVec.ofNat_toNat ..).symm

theorem flag_eq_field (lo : Nat) (b : Bool) : flag lo b = field lo (BitVec.ofBool b).toNat := by
  cases b <;> simp [flag, field, word]

/-- A write of the whole register. -/
theorem write_all (v x : Word) : (v &&& ~~~(word (2 ^ 64 - 1))) ||| (x &&& word (2 ^ 64 - 1)) = x := by
  rw [show word (2 ^ 64 - 1) = BitVec.allOnes 64 from rfl, BitVec.not_allOnes, BitVec.and_zero, BitVec.and_allOnes, BitVec.zero_or]

/-- A write of a register none of whose fields can be written. -/
theorem write_none (v x : Word) : (v &&& ~~~(word 0)) ||| (x &&& word 0) = v := by
  rw [show word 0 = 0#64 from rfl, BitVec.not_zero, BitVec.and_zero, BitVec.and_allOnes, BitVec.or_zero]

/-! ## What a read of a CSR looks at, R24–R31 -/

/-- The CSRs as they are read: from the task's own descriptor `k`, the registers `x` of its context, the places of the registers of the
tile's tasks, PSTALL and the two counters. -/
def csrOf (t tid : Nat) (k : Task) (x : CtxRegs) (places : Nat → RegPlace) (pstall : Bool) (cycle retired : BitVec 64) (n : Nat) : Option Word :=
  match n with
  | 0x000 => some (statusWord k pstall)
  | 0x001 => some (k.cause.setWidth 64)
  | 0x002 => some (field 2 k.epc.toNat)
  | 0x003 => some k.tval
  | 0x004 => some (field 2 x.tvec.toNat)
  | 0x005 => some k.scratch
  | 0x010 => some (gridWord t)
  | 0x011 => some (launchWord x)
  | 0x012 => some (field 8 (quadIndex x t) ||| field 4 x.lh.toNat ||| field 0 x.lw.toNat)
  | 0x013 => some (k.ctx.setWidth 64)
  | 0x014 => some (x.prio.setWidth 64)
  | 0x020 => some (field 8 (bankOf k.place) ||| field 0 tid)
  | 0x021 => some (chmapWord x)
  | 0x022 => some (field 24 x.area.toNat ||| placeWord (places x.spsel.toNat) ||| field 0 x.spsel.toNat)
  | 0x030 => some cycle
  | 0x031 => some retired
  | 0x040 => some (ibkWord x.ibk[0])
  | 0x041 => some (ibkWord x.ibk[1])
  | 0x042 => some (ibkWord x.ibk[2])
  | 0x043 => some (ibkWord x.ibk[3])
  | 0x060 => some (x.contain.setWidth 64)
  | 0x070 => some (flag 0 x.det)
  | _ => none

theorem csrRead_eq (t : Nat) (T : Tile) (tid n : Nat) :
    csrRead t T tid n
      = csrOf t tid (T.task tid) (T.ctx (T.task tid).ctx.toNat) (fun j => (T.task j).place) T.pstall T.cycle T.retired n := rfl

theorem csrOf_of_not_mem {t tid : Nat} {k : Task} {x : CtxRegs} {places : Nat → RegPlace} {p : Bool} {cycle retired : BitVec 64} {n : Nat}
    (h : n ∉ csrNumbers) : csrOf t tid k x places p cycle retired n = none := by
  unfold csrOf
  split
  case h_23 => rfl
  all_goals exact absurd (by decide) h

theorem csrOf_isSome {t tid : Nat} {k : Task} {x : CtxRegs} {places : Nat → RegPlace} {p : Bool} {cycle retired : BitVec 64} {n : Nat}
    (h : n ∈ csrNumbers) : ∃ v, csrOf t tid k x places p cycle retired n = some v := by
  simp only [csrNumbers, List.mem_cons, List.not_mem_nil, or_false] at h
  rcases h with rfl | rfl | rfl | rfl | rfl | rfl | rfl | rfl | rfl | rfl | rfl | rfl | rfl | rfl | rfl | rfl | rfl | rfl | rfl | rfl
    | rfl | rfl <;> exact ⟨_, rfl⟩

/-! ## What a write of a CSR changes, R24–R31 -/

/-- A CSR write's effect on the task's own descriptor. -/
def csrTask (n : Nat) (v : Word) : Task → Task :=
  match n with
  | 0x000 => fun k => { k with te := v.getLsbD 0, pte := v.getLsbD 1, psup := v.getLsbD 3, bsk := v.getLsbD 5 }
  | 0x001 => fun k => { k with cause := v.setWidth 6 }
  | 0x002 => fun k => { k with epc := v.extractLsb' 2 13 }
  | 0x003 => fun k => { k with tval := v }
  | 0x005 => fun k => { k with scratch := v }
  | _ => id

/-- A CSR write's effect on the registers of the task's context, but for CHMAP. -/
def csrCtx (n : Nat) (v : Word) : CtxRegs → CtxRegs :=
  match n with
  | 0x004 => fun x => { x with tvec := v.extractLsb' 2 13 }
  | 0x012 => fun x => quadWrite x v
  | 0x014 => fun x => { x with prio := v.setWidth 3 }
  | 0x022 => fun x => { x with area := v.extractLsb' 24 40, spsel := v.extractLsb' 0 5 }
  | 0x040 => fun x => { x with ibk := x.ibk.set 0 (ibkOf v) }
  | 0x041 => fun x => { x with ibk := x.ibk.set 1 (ibkOf v) }
  | 0x042 => fun x => { x with ibk := x.ibk.set 2 (ibkOf v) }
  | 0x043 => fun x => { x with ibk := x.ibk.set 3 (ibkOf v) }
  | 0x060 => fun x => { x with contain := v.setWidth 8 }
  | 0x070 => fun x => { x with det := v.getLsbD 0 }
  | _ => id

theorem Tile.modTask_id (T : Tile) (n : Nat) : T.modTask n id = T := by
  unfold Tile.modTask Tile.setTask Tile.task
  split <;> simp

theorem Tile.modCtx_id (T : Tile) (c : Nat) : T.modCtx c id = T := by
  unfold Tile.modCtx
  split <;> simp

theorem Tile.task_modCtx (T : Tile) (c n : Nat) (f : CtxRegs → CtxRegs) : (T.modCtx c f).task n = T.task n := by simp [Tile.task]

/-- A CSR write but for that of CHMAP acts on the task and on its context. -/
theorem csrWrite_eq (T : Tile) (tid : Nat) {n : Nat} (v : Word) (h : n ≠ 0x021) :
    csrWrite T tid n v = (T.modTask tid (csrTask n v)).modCtx (T.task tid).ctx.toNat (csrCtx n v) := by
  unfold csrWrite
  split
  case h_9 => exact absurd rfl h
  case h_17 =>
    rw [csrTask, csrCtx, Tile.modTask_id, Tile.modCtx_id] <;> assumption
  all_goals simp only [csrTask, csrCtx, Tile.modTask_id, Tile.modCtx_id]

/-- What a write of a CSR of the task leaves alone in it. -/
theorem csrTask_keeps {α : Type} (g : Task → α) (n : Nat) (v : Word) (k : Task)
    (hg : ∀ (k : Task) te pte psup bsk cause epc tval scratch,
      g { k with te := te, pte := pte, psup := psup, bsk := bsk, cause := cause, epc := epc, tval := tval, scratch := scratch } = g k) :
    g (csrTask n v k) = g k := by
  have key : ∃ te pte psup bsk cause epc tval scratch, csrTask n v k
      = { k with te := te, pte := pte, psup := psup, bsk := bsk, cause := cause, epc := epc, tval := tval, scratch := scratch } := by
    unfold csrTask
    split <;> exact ⟨_, _, _, _, _, _, _, _, rfl⟩
  obtain ⟨_, _, _, _, _, _, _, _, e⟩ := key
  rw [e, hg]

theorem csrTask_next (n : Nat) (v : Word) (k : Task) : csrTask n v k.next = (csrTask n v k).next := by
  unfold csrTask
  split <;> rfl

theorem quadWrite_eq (x : CtxRegs) (v : Word) : ∃ lw lh, quadWrite x v = { x with lw := lw, lh := lh } := by
  unfold quadWrite
  dsimp only
  split
  · exact ⟨x.lw, x.lh, rfl⟩
  · split
    · exact ⟨_, _, rfl⟩
    · exact ⟨x.lw, x.lh, rfl⟩

section
variable {t tid n m : Nat} {k : Task} {x : CtxRegs} {places : Nat → RegPlace} {p : Bool} {cycle retired : BitVec 64} {v : Word}

/-- The other CSRs read as before a write of one that the task's descriptor holds. -/
theorem csrOf_csrTask (hm : m ≠ n) : csrOf t tid (csrTask n v k) x places p cycle retired m = csrOf t tid k x places p cycle retired m := by
  unfold csrTask
  split
  case h_6 => rfl
  all_goals unfold csrOf; split
  any_goals exact absurd rfl hm
  all_goals rfl

/-- The other CSRs read as before a write of one that the context holds. -/
theorem csrOf_csrCtx (hm : m ≠ n) : csrOf t tid k (csrCtx n v x) places p cycle retired m = csrOf t tid k x places p cycle retired m := by
  obtain ⟨lw, lh, hq⟩ := quadWrite_eq x v
  unfold csrCtx
  split
  case h_11 => rfl
  case h_2 => dsimp only; rw [hq]; unfold csrOf; split; case h_9 => exact absurd rfl hm
              all_goals rfl
  all_goals unfold csrOf; split
  any_goals exact absurd rfl hm
  any_goals rfl
  all_goals simp

/-- The counters are read only under their own numbers. -/
theorem csrOf_counters {c r : BitVec 64} (h30 : m ≠ 0x030) (h31 : m ≠ 0x031) :
    csrOf t tid k x places p c r m = csrOf t tid k x places p cycle retired m := by
  unfold csrOf
  split
  any_goals contradiction
  all_goals rfl

/-- No CSR shows pc. -/
theorem csrOf_next : csrOf t tid k.next x places p cycle retired m = csrOf t tid k x places p cycle retired m := rfl

end

/-! ## The words of R76 -/

theorem State.issued_csr {s : State} (h : s.focus.task < 32) (n : Nat) :
    s.issued.csr n = csrOf s.focus.tile s.focus.task s.cur.unexempt s.curCtx (fun j => (s.here.task j).place) s.here.pstall s.here.cycle
      s.here.retired n := by
  have hh : s.issued.here = s.here.modTask s.focus.task Task.unexempt := State.here_modHere _ _
  have hc : s.issued.here.task s.focus.task = s.cur.unexempt := by rw [hh]; exact Tile.task_modTask_self _ _ h
  have hp : (fun j => (s.issued.here.task j).place) = fun j => (s.here.task j).place := by
    funext j
    by_cases hj : j = s.focus.task
    · rw [hj, hc]; simp [State.cur]
    · rw [hh, Tile.task_modTask_of_ne _ _ hj]
  have hx : s.issued.here.ctx (s.issued.here.task s.focus.task).ctx.toNat = s.curCtx := by
    rw [hc, hh]; simp [State.curCtx, Tile.modTask]
  show csrRead s.focus.tile s.issued.here s.focus.task n = _
  rw [csrRead_eq, hx, hp, hc, hh]
  simp [Tile.modTask]

/-- The state after a word has written `x` to CSR `n`. -/
def State.csrWritten (s : State) (n : Nat) (x : Word) : State :=
  ((s.retire id).modHere fun T => csrWrite T s.focus.task n x).dropLost s.focus.tile

theorem State.here_csrWritten (s : State) (n : Nat) (x : Word) :
    (s.csrWritten n x).here = csrWrite (s.here.finish s.focus.task 1 Task.next) s.focus.task n x := by
  have h1 : (s.csrWritten n x).here = ((s.retire id).modHere fun T => csrWrite T s.focus.task n x).here := rfl
  have h2 : (s.retire id).here = s.here.finish s.focus.task 1 Task.next := State.here_modHere s _
  rw [h1, State.here_modHere, h2]

section
variable {s : State} {n : Nat} {x : Word} (h : s.focus.task < 32) (hn : n ≠ 0x021)
include h hn

/-- The tile after the write of a CSR but CHMAP. -/
theorem State.tile_csrWritten : (s.csrWritten n x).here
    = ((s.here.finish s.focus.task 1 Task.next).modTask s.focus.task (csrTask n x)).modCtx s.cur.ctx.toNat (csrCtx n x) := by
  rw [State.here_csrWritten, csrWrite_eq _ _ _ hn, Tile.task_finish_self _ _ _ h]
  simp [State.cur, Task.next]

theorem State.task_csrWritten : (s.csrWritten n x).cur = (csrTask n x s.cur.unexempt).next := by
  show (s.csrWritten n x).here.task s.focus.task = _
  rw [State.tile_csrWritten h hn]
  rw [Tile.task_modCtx, Tile.task_modTask_self _ _ h, Tile.task_finish_self _ _ _ h, csrTask_next]; rfl

theorem State.curCtx_csrWritten : (s.csrWritten n x).curCtx = csrCtx n x s.curCtx := by
  have hc : (s.csrWritten n x).cur.ctx = s.cur.ctx := by
    rw [State.task_csrWritten h hn]
    show (csrTask n x s.cur.unexempt).ctx = _
    rw [csrTask_keeps (·.ctx) n x _ fun _ _ _ _ _ _ _ _ _ => rfl]; simp
  rw [State.curCtx, hc, State.tile_csrWritten h hn, Tile.ctx_modCtx_self _ _ s.cur.ctx.isLt]
  simp [Tile.modTask, Tile.finish, State.curCtx, Tile.ctx]

theorem State.other_csrWritten {j : Nat} (hj : j ≠ s.focus.task) : (s.csrWritten n x).here.task j = s.here.task j := by
  rw [State.tile_csrWritten h hn]
  rw [Tile.task_modCtx, Tile.task_modTask_of_ne _ _ hj, Tile.task_finish_of_ne _ _ _ hj]

theorem State.csr_csrWritten (m : Nat) : (s.csrWritten n x).csr m
    = csrOf s.focus.tile s.focus.task (csrTask n x s.cur.unexempt) (csrCtx n x s.curCtx) (fun j => (s.here.task j).place) s.here.pstall
      (s.here.cycle + 1) (s.here.retired + 1) m := by
  have hp : (fun j => ((s.csrWritten n x).here.task j).place) = fun j => (s.here.task j).place := by
    funext j
    by_cases hj : j = s.focus.task
    · subst hj
      show (s.csrWritten n x).cur.place = _
      rw [State.task_csrWritten h hn]
      show (csrTask n x s.cur.unexempt).place = _
      rw [csrTask_keeps (·.place) n x _ fun _ _ _ _ _ _ _ _ _ => rfl]; simp [State.cur]
    · rw [State.other_csrWritten h hn hj]
  show csrRead s.focus.tile (s.csrWritten n x).here s.focus.task m = _
  have hx := State.curCtx_csrWritten (x := x) h hn
  have hk := State.task_csrWritten (x := x) h hn
  rw [csrRead_eq]
  rw [hp]
  change csrOf _ _ (s.csrWritten n x).cur (s.csrWritten n x).curCtx _ _ _ _ m = _
  rw [hx, hk, csrOf_next, State.tile_csrWritten h hn]
  simp [Tile.modTask, Tile.finish]

/-- A write of a CSR but CHMAP changes no general register, guard, other task, other tile or byte. -/
theorem State.wroteCsr_csrWritten : WroteCsr s (s.csrWritten n x) := by
  have hstill (T : Tile) : T.Still (csrWrite T s.focus.task n x) := by
    rw [csrWrite_eq _ _ _ hn]; exact (Tile.Still.setTask _ _ _).trans (Tile.Still.modCtx _ _ _)
  have hbytes : SameBytes s (s.csrWritten n x) := fun sp =>
    ((State.sameBytes_modTile _ s.focus.tile (fun T => csrWrite T s.focus.task n x) (hstill _)) sp).trans (State.sameBytes_retireIn s 1 id sp)
  have hk := State.task_csrWritten (x := x) h hn
  refine ⟨hbytes, ⟨fun u hu => ?_, fun j hj => State.other_csrWritten h hn hj⟩, ?_, ?_, ?_, ?_, ?_⟩
  · exact (State.tile_modHere_of_ne (s.retire id) (fun T => csrWrite T s.focus.task n x) hu).trans (State.tile_modHere_of_ne s _ hu)
  · rw [hk]; exact (csrTask_keeps (·.regs) n x _ fun _ _ _ _ _ _ _ _ _ => rfl).trans (by simp)
  · rw [hk]; exact (csrTask_keeps (·.guards) n x _ fun _ _ _ _ _ _ _ _ _ => rfl).trans (by simp)
  · rw [hk]
    show (csrTask n x s.cur.unexempt).pc + 4 = _
    rw [csrTask_keeps (·.pc) n x _ fun _ _ _ _ _ _ _ _ _ => rfl]; simp
  · rw [State.tile_csrWritten h hn]; simp [Tile.modTask, Tile.finish]
  · rw [State.tile_csrWritten h hn]; simp [Tile.modTask, Tile.finish]

end

end Sys2Proof.Machine

namespace Sys2Proof.Machine

/-! ## The fields that a write changes, R25–R31 -/

/-- Each CSR that a write changes field by field, with the mask of its writable fields; the counters and the two maps stand apart. -/
def csrMasks : List (Nat × Nat) :=
  [(0x000, 0x2B), (0x001, 0x3F), (0x002, 0x7FFC), (0x003, 2 ^ 64 - 1), (0x004, 0x7FFC), (0x005, 2 ^ 64 - 1), (0x010, 0), (0x011, 0),
    (0x013, 0), (0x014, 7), (0x020, 0), (0x040, 0x7FFD), (0x041, 0x7FFD), (0x042, 0x7FFD), (0x043, 0x7FFD), (0x060, 0xFF), (0x070, 1)]

/-- A CSR's value after a word has written `w` to it, where only the fields of `mask` can be written. -/
def masked (mask : Nat) (v w : Word) : Word := (v &&& ~~~(word mask)) ||| (w &&& word mask)

theorem getLsbD_flag (lo : Nat) (b : Bool) {i : Nat} (h : i < 64) : (flag lo b).getLsbD i = (decide (i = lo) && b) := by
  rw [flag_eq_field, getLsbD_field, BitVec.testBit_toNat]
  by_cases hi : i = lo
  · subst hi; simp [h]
  · by_cases hle : lo ≤ i
    · rw [BitVec.getLsbD_of_ge _ _ (by omega)]; simp [hi]
    · simp [hi, hle]

theorem masked_status (k : Task) (p : Bool) (w : Word) : statusWord (csrTask 0x000 w k) p = masked 0x2B (statusWord k p) w := by
  have hm : word 0x2B = flag 0 true ||| flag 1 true ||| flag 3 true ||| flag 5 true := by decide
  apply BitVec.eq_of_getLsbD_eq
  intro i hi
  simp only [statusWord, csrTask, masked, hm, BitVec.getLsbD_or, BitVec.getLsbD_and, BitVec.getLsbD_not, getLsbD_flag _ _ hi, getLsbD_field, hi,
    decide_true, Bool.true_and]
  match i with
  | 0 | 1 | 2 | 3 | 4 | 5 => simp
  | i + 6 => simp

theorem masked_ibk (b : Ibk) (w : Word) : ibkWord (ibkOf w) = masked 0x7FFD (ibkWord b) w := by
  have hm : word 0x7FFD = field 2 (2 ^ 13 - 1) ||| flag 0 true := by decide
  apply BitVec.eq_of_getLsbD_eq
  intro i hi
  simp only [ibkWord, ibkOf, masked, hm, BitVec.getLsbD_or, BitVec.getLsbD_and, BitVec.getLsbD_not, getLsbD_flag _ _ hi, getLsbD_field, hi,
    decide_true, Bool.true_and, BitVec.testBit_toNat, Nat.testBit_two_pow_sub_one, BitVec.getLsbD_extractLsb']
  match i with
  | 0 | 1 => simp
  | i + 2 =>
    by_cases h : i < 13
    · simp [h, Nat.add_comm]
    · simp [h, BitVec.getLsbD_of_ge b.addr i (by omega)]

theorem masked_setIbk (l : Vector Ibk 4) (i : Nat) (h : i < 4) (w : Word) :
    ibkWord (l.set i (ibkOf w))[i] = masked 0x7FFD (ibkWord l[i]) w := by
  rw [Vector.getElem_set_self]; exact masked_ibk _ w

theorem masked_field {n : Nat} (lo mask : Nat) (a : BitVec n) (w : Word) (h : word mask = field lo (2 ^ n - 1)) :
    field lo (w.extractLsb' lo n).toNat = masked mask (field lo a.toNat) w := by
  rw [masked, h, write_field]

theorem masked_low {n : Nat} (mask : Nat) (a : BitVec n) (w : Word) (h : word mask = field 0 (2 ^ n - 1)) :
    (w.setWidth n).setWidth 64 = masked mask (a.setWidth 64) w := by
  rw [setWidth_eq_field, setWidth_eq_field a, ← masked_field 0 mask a w h, BitVec.extractLsb', Nat.shiftRight_zero, BitVec.ofNat_toNat]

theorem masked_flag (b : Bool) (w : Word) : flag 0 (w.getLsbD 0) = masked 1 (flag 0 b) w := by
  rw [flag_eq_field, flag_eq_field 0 b, ← masked_field 0 1 _ w (by decide)]
  congr 2
  apply BitVec.eq_of_getLsbD_eq
  intro i hi
  obtain rfl : i = 0 := by omega
  simp

/-- A CSR reads after a write of `w` as its writable fields of `w` and its other fields as they stood. -/
theorem csrOf_written {t tid : Nat} {k : Task} {x : CtxRegs} {places : Nat → RegPlace} {p : Bool} {c c' r r' : BitVec 64} {w v : Word} :
    ∀ f ∈ csrMasks, csrOf t tid k x places p c r f.1 = some v →
      csrOf t tid (csrTask f.1 w k) (csrCtx f.1 w x) places p c' r' f.1 = some (masked f.2 v w) := by
  have all (v : Word) : w = masked (2 ^ 64 - 1) v w := (write_all v w).symm
  have none (v : Word) : v = masked 0 v w := (write_none v w).symm
  have key {mask : Nat} {e f : Option Word} {a b : Word} (he : e = some a) (hf : f = some b) (h : b = masked mask a w) :
      e = some v → f = some (masked mask v w) := by
    rintro hv
    cases he.symm.trans hv
    rw [hf, h]
  simp only [csrMasks, List.forall_mem_cons]
  exact ⟨key rfl rfl (masked_status k p w), key rfl rfl (masked_low 0x3F k.cause w (by decide)), key rfl rfl (masked_field 2 0x7FFC k.epc w (by decide)),
    key rfl rfl (all _), key rfl rfl (masked_field 2 0x7FFC x.tvec w (by decide)), key rfl rfl (all _), key rfl rfl (none _), key rfl rfl (none _),
    key rfl rfl (none _), key rfl rfl (masked_low 7 x.prio w (by decide)), key rfl rfl (none _), key rfl rfl (masked_setIbk x.ibk 0 (by decide) w), key rfl rfl (masked_setIbk x.ibk 1 (by decide) w),
    key rfl rfl (masked_setIbk x.ibk 2 (by decide) w), key rfl rfl (masked_setIbk x.ibk 3 (by decide) w), key rfl rfl (masked_low 0xFF x.contain w (by decide)), key rfl rfl (masked_flag x.det w),
    List.forall_mem_nil _⟩

end Sys2Proof.Machine

namespace Sys2Proof.Machine

/-! ## The words of R76 at a CSR that exists, and the checks before it -/

theorem State.csrRead_issued (s : State) (n : Nat) :
    csrRead s.focus.tile (s.here.modTask s.focus.task Task.unexempt) s.focus.task n = s.issued.csr n := by
  show _ = csrRead s.focus.tile s.issued.here s.focus.task n
  rw [State.issued, State.modCur, State.here_modHere]

theorem csrNeedsSup_iff {n : Nat} : csrNeedsSup n = true ↔ n ∈ csrSupervisor := by
  simp only [csrNeedsSup, csrSupervisor, Bool.or_eq_true, Bool.and_eq_true, beq_iff_eq, decide_eq_true_eq, List.mem_cons, List.not_mem_nil, or_false]
  omega

section
variable {s : State} {d : SReg} {n : BitVec 10}

theorem writes_csrr {v : Word} (h : s.Issues) (hv : s.issued.csr n.toNat = some v) : Writes s (.csrr d n) d v := by
  refine ⟨s.writeReg d v, ?_, State.wrote_writeReg s d v h.task⟩
  show Host.Outcome.next (s.csrAccess d n 2 none) = _
  rw [State.csrAccess, State.csrRead_issued, hv]

/-- A CSR that R24 does not list: each of the four words raises 0x01 with its control word, R22. -/
theorem csrAccess_of_not_mem {fn : BitVec 7} {w : Option (Word → Word)} (h : s.Issues) (hn : n.toNat ∉ csrNumbers) :
    s.csrAccess d n fn w = s.raise 0x01 ((0x3F#6 ++ d ++ n ++ fn ++ 0#4).setWidth 64) := by
  rw [State.csrAccess, State.csrRead_issued, State.issued_csr h.task, csrOf_of_not_mem hn]
  rfl

/-- A write of a CSR of supervisor state by a task that is not in it. -/
theorem csrAccess_denied {fn : BitVec 7} {f : Word → Word} (h : s.Issues) (hn : n.toNat ∈ csrSupervisor) (hs : s.cur.sup = false) :
    s.csrAccess d n fn (some f) = s.raise 0x06 0 := by
  have hm : n.toNat ∈ csrNumbers := (by decide : csrSupervisor ⊆ csrNumbers) hn
  obtain ⟨v, hv⟩ := csrOf_isSome hm
  rw [State.csrAccess, State.csrRead_issued, State.issued_csr h.task, hv]
  simp only [csrNeedsSup_iff.2 hn, hs, Bool.not_false, and_self, if_true]

/-- A word that writes a CSR that its task may write. -/
theorem exec_csrWriter {v : Word} (hv : s.issued.csr n.toNat = some v) (hs : n.toNat ∈ csrSupervisor → s.cur.sup = true) :
    ∀ i ∈ csrWriters d n (s.reg d), exec i.1 s = .next (s.csrWritten n.toNat (i.2 v)) := by
  have key (fn : BitVec 7) (f : Word → Word) : s.csrAccess d n fn (some f) = s.csrWritten n.toNat (f v) := by
    have hc : ¬ (csrNeedsSup n.toNat = true ∧ (!s.cur.sup) = true) := by
      rintro ⟨ha, hb⟩
      rw [hs (csrNeedsSup_iff.1 ha)] at hb
      cases hb
    rw [State.csrAccess, State.csrRead_issued, hv]
    exact if_neg hc
  simp only [csrWriters, List.forall_mem_cons]
  exact ⟨congrArg Host.Outcome.next (key 3 _), congrArg Host.Outcome.next (key 4 _), congrArg Host.Outcome.next (key 5 _), List.forall_mem_nil _⟩

/-- The same at a number of R24. -/
theorem gives_csrWriter {m : Nat} {v : Word} {P : State → Prop} (hm : m < 1024) (hv : s.issued.csr m = some v)
    (hs : m ∈ csrSupervisor → s.cur.sup = true) {i : Instr × (Word → Word)} (hi : i ∈ csrWriters d (BitVec.ofNat 10 m) (s.reg d))
    (hP : P (s.csrWritten m (i.2 v))) : Gives i.1 s P := by
  have e : (BitVec.ofNat 10 m).toNat = m := by rw [BitVec.toNat_ofNat]; exact Nat.mod_eq_of_lt hm
  exact ⟨_, exec_csrWriter (n := BitVec.ofNat 10 m) (by rw [e]; exact hv) (by rw [e]; exact hs) i hi, by rw [e]; exact hP⟩

end

/-! ## The values of the CSRs as numbers, R25–R31 -/

section
variable {t tid : Nat} {k : Task} {x : CtxRegs} {places : Nat → RegPlace} {p : Bool} {cycle retired : BitVec 64}

theorem setWidth_eq_word {n : Nat} (a : BitVec n) : a.setWidth 64 = word a.toNat := (BitVec.ofNat_toNat ..).symm

theorem statusWord_eq : statusWord k p
    = word (256 * k.ctx.toNat + 32 * bit k.bsk + 16 * bit p + 8 * bit k.psup + 4 * bit k.sup + 2 * bit k.pte + bit k.te) := by
  have hb (b : Bool) := bit_le b
  have h1 := hb k.bsk; have h2 := hb p; have h3 := hb k.psup; have h4 := hb k.sup; have h5 := hb k.pte; have h6 := hb k.te
  simp only [statusWord, field_eq, flag_eq, Nat.reducePow, Nat.one_mul]
  rw [word_or 6, word_or 5, word_or 4, word_or 3, word_or 2, word_or 1]
  all_goals omega

theorem ibkWord_eq (b : Ibk) : ibkWord b = word (4 * b.addr.toNat + bit b.en) := by
  have := bit_le b.en
  simp only [ibkWord, field_eq, flag_eq, Nat.reducePow, Nat.one_mul]
  rw [word_or 2] <;> omega

theorem launchWord_eq : launchWord x = word (match x.launch with
    | none => 0
    | some p => 2 ^ 21 * p.lead.toNat + 2 ^ 16 * p.h.toNat + 2 ^ 10 * p.w.toNat + 32 * p.oy.toNat + p.ox.toNat) := by
  unfold launchWord
  cases x.launch with
  | none => rfl
  | some p =>
    have h1 := p.h.isLt; have h2 := p.w.isLt; have h3 := p.oy.isLt; have h4 := p.ox.isLt
    simp only [field_eq, Nat.reducePow, Nat.one_mul] at *
    rw [word_or 21, word_or 16, word_or 10, word_or 5] <;> omega

theorem gridWord_eq (h : t < 640) : gridWord t = word (1024 * (t % 32 / 16 + 2 * (t / 32 / 10)) + 32 * (t / 32) + t % 32) := by
  simp only [gridWord, field_eq, tileDie, tileX, tileY, Nat.reducePow, Nat.one_mul]
  rw [word_or 10, word_or 5] <;> omega

theorem quadIndex_eq : quadIndex x t = match x.launch with
    | none => 0
    | some p => (t / 32 - p.oy.toNat) / 2 ^ x.lh.toNat * (p.w.toNat / 2 ^ x.lw.toNat) + (t % 32 - p.ox.toNat) / 2 ^ x.lw.toNat := by
  unfold quadIndex
  cases x.launch with
  | none => rfl
  | some p => simp [quadOf, Nat.shiftRight_eq_div_pow, tileX, tileY]

theorem chmapWord_eq : chmapWord x = word ((match SMap.get? x.bound x.colsel.toNat with
    | some (v, n) => 2 ^ 13 * bit v + 256 * n.toNat | none => 0) + x.colsel.toNat) := by
  have h1 := x.colsel.isLt
  unfold chmapWord
  cases SMap.get? x.bound x.colsel.toNat with
  | none => simp [field_eq]
  | some b =>
    obtain ⟨v, n⟩ := b
    have h2 := n.isLt; have h3 := bit_le v
    simp only [field_eq, flag_eq, Nat.reducePow, Nat.one_mul] at *
    rw [word_or 13, word_or 8] <;> omega

end
end Sys2Proof.Machine

namespace Sys2Proof.Machine

/-- SPILLMAP, R29: LOC and POS of the task that SPSEL names. -/
theorem spillWord_eq {area : BitVec 40} {pl : RegPlace} {sel : BitVec 5} (h : (locPos pl).2 < 128) :
    field 24 area.toNat ||| placeWord pl ||| field 0 sel.toNat
      = word (2 ^ 24 * area.toNat + 512 * (locPos pl).2 + 128 * (locPos pl).1 + sel.toNat) := by
  have h1 := sel.isLt
  have hp : placeWord pl = word (512 * (locPos pl).2 + 128 * (locPos pl).1) := by
    cases pl with
    | none => rfl
    | bank n | column n | area n =>
      simp only [placeWord, field_eq, locPos, BitVec.or_comm (word (2 ^ 7 * _))]
      rw [word_or 9] <;> simp
  have h2 : (locPos pl).1 < 4 := by cases pl <;> simp [locPos]
  simp only [hp, field_eq, Nat.reducePow, Nat.one_mul]
  rw [word_or 24, word_or 7]
  · simp only [Nat.add_assoc]
  all_goals omega

/-- QUADLVL, R27: QIDX, LH and LW. -/
theorem quadWord_eq {x : CtxRegs} {t : Nat} : field 8 (quadIndex x t) ||| field 4 x.lh.toNat ||| field 0 x.lw.toNat
    = word (256 * (match x.launch with
        | none => 0
        | some p => (t / 32 - p.oy.toNat) / 2 ^ x.lh.toNat * (p.w.toNat / 2 ^ x.lw.toNat) + (t % 32 - p.ox.toNat) / 2 ^ x.lw.toNat)
      + 16 * x.lh.toNat + x.lw.toNat) := by
  refine Eq.trans ?_ (congrArg (fun q => word (256 * q + 16 * x.lh.toNat + x.lw.toNat)) quadIndex_eq)
  have h1 := x.lw.isLt; have h2 := x.lh.isLt
  simp only [field_eq, Nat.reducePow, Nat.one_mul] at *
  rw [word_or 8, word_or 4] <;> omega

end Sys2Proof.Machine

namespace Sys2Proof.Proofs
open Sys2Proof.Machine

theorem csrReads : Claims.csrReads := by
  intro s d h ht
  dsimp only
  have reads (m : Nat) {v : Nat} (hm : m < 1024) (hv : csrOf s.focus.tile s.focus.task s.cur.unexempt s.curCtx
      (fun j => (s.here.task j).place) s.here.pstall s.here.cycle s.here.retired m = some (word v)) :
      Writes s (.csrr d (BitVec.ofNat 10 m)) d (word v) := by
    refine writes_csrr h ?_
    rw [BitVec.toNat_ofNat, Nat.mod_eq_of_lt hm, State.issued_csr h.task, hv]
  simp only [List.forall_mem_cons]
  refine ⟨⟨reads 0x000 (by decide) (congrArg some statusWord_eq), reads 0x001 (by decide) (congrArg some (setWidth_eq_word _)),
    reads 0x002 (by decide) (congrArg some (field_eq 2 _)), reads 0x003 (by decide) (congrArg some (setWidth_eq_word s.cur.unexempt.tval)),
    reads 0x004 (by decide) (congrArg some (field_eq 2 _)), reads 0x005 (by decide) (congrArg some (setWidth_eq_word s.cur.unexempt.scratch)),
    reads 0x010 (by decide) (congrArg some (gridWord_eq ht)), reads 0x011 (by decide) (congrArg some launchWord_eq),
    reads 0x012 (by decide) (congrArg some quadWord_eq), reads 0x013 (by decide) (congrArg some (setWidth_eq_word _)),
    reads 0x014 (by decide) (congrArg some (setWidth_eq_word _)), reads 0x021 (by decide) (congrArg some chmapWord_eq),
    reads 0x030 (by decide) (congrArg some (setWidth_eq_word s.here.cycle)),
    reads 0x031 (by decide) (congrArg some (setWidth_eq_word s.here.retired)), reads 0x040 (by decide) (congrArg some (ibkWord_eq _)),
    reads 0x041 (by decide) (congrArg some (ibkWord_eq _)), reads 0x042 (by decide) (congrArg some (ibkWord_eq _)),
    reads 0x043 (by decide) (congrArg some (ibkWord_eq _)), reads 0x060 (by decide) (congrArg some (setWidth_eq_word _)),
    reads 0x070 (by decide) (congrArg some ?_), List.forall_mem_nil _⟩, fun n hn hp => reads 0x020 (by decide) (congrArg some ?_),
    fun hs => reads 0x022 (by decide) (congrArg some (spillWord_eq hs))⟩
  · rw [flag_eq]; simp
  · have := h.task
    rw [hp]
    simp only [bankOf, field_eq, Nat.reducePow, Nat.one_mul]
    rw [word_or 8] <;> omega

theorem csrChecks : Claims.csrChecks := by
  intro s d n h
  refine ⟨fun hn => ?_, fun hn => ?_, fun hn hs => ?_⟩
  · have raises {i : Instr} (fn : BitVec 7) (w : Option (Word → Word)) (he : exec i s = .next (s.csrAccess d n fn w)) :=
      raises_of_raise h (by decide) (by decide) (he.trans (congrArg Host.Outcome.next (csrAccess_of_not_mem h hn)))
    exact ⟨raises 2 none rfl, raises 3 (some _) rfl, raises 4 (some _) rfl, raises 5 (some _) rfl⟩
  · obtain ⟨v, hv⟩ := csrOf_isSome hn
    have hv := (State.issued_csr h.task _).trans hv
    exact ⟨v, writes_csrr h hv, hv⟩
  · have raises {i : Instr} (fn : BitVec 7) (f : Word → Word) (he : exec i s = .next (s.csrAccess d n fn (some f))) :=
      raises_of_raise h (by decide) (by decide) (he.trans (congrArg Host.Outcome.next (csrAccess_denied h hn hs)))
    simp only [List.forall_mem_cons]
    exact ⟨raises 3 _ rfl, raises 4 _ rfl, raises 5 _ rfl, List.forall_mem_nil _⟩

theorem csrWrites : Claims.csrWrites := by
  intro s d h f hf hs i hi v hv
  have hf : f ∈ csrMasks := hf
  have hlt : f.1 < 1024 := (by decide : ∀ f ∈ csrMasks, f.1 < 1024) f hf
  have hmap : f.1 ≠ 0x021 := (by decide : ∀ f ∈ csrMasks, f.1 ≠ 0x021) f hf
  refine gives_csrWriter hlt hv hs hi ⟨State.wroteCsr_csrWritten h.task hmap, ?_, fun n hn h30 h31 => ?_⟩
  · rw [State.issued_csr h.task] at hv
    rw [State.csr_csrWritten h.task hmap, csrOf_written f hf hv]; rfl
  · rw [State.csr_csrWritten h.task hmap, State.issued_csr h.task, csrOf_csrCtx hn, csrOf_csrTask hn, csrOf_counters h30 h31]

end Sys2Proof.Proofs

namespace Sys2Proof.Machine

/-! ## Tasks that leave WAIT, R15, R37 and R77 -/

/-- Of a tile only the queues of beats, the sync pairs and the tasks in WAIT have changed; a task in WAIT stays there or enters READY. -/
structure Tile.Admits (T U : Tile) : Prop where
  rest  : ({ U with tasks := T.tasks, pairs := T.pairs, seq := T.seq, channels := T.channels, held := T.held } : Tile) = T
  awake : ∀ n, (T.task n).state ≠ .wait → U.task n = T.task n
  woken : ∀ n, (T.task n).state = .wait → (U.task n).state = .wait ∨ (U.task n).state = .ready

/-- The same, and the queues of beats are as they were. -/
structure Tile.Rouses (T U : Tile) : Prop extends Tile.Admits T U where
  channels : U.channels = T.channels
  held     : U.held = T.held

theorem Tile.Admits.trans {T U V : Tile} (h : T.Admits U) (k : U.Admits V) : T.Admits V where
  rest := by
    have e := congrArg (fun W : Tile =>
      ({ W with tasks := T.tasks, pairs := T.pairs, seq := T.seq, channels := T.channels, held := T.held } : Tile)) k.rest
    exact e.trans h.rest
  awake n hn := by
    have e := h.awake n hn
    rw [k.awake n (by rwa [e]), e]
  woken n hn := by
    rcases h.woken n hn with e | e
    · exact k.woken n e
    · exact .inr (by rw [k.awake n (by rw [e]; decide), e])

theorem Tile.Rouses.refl (T : Tile) : T.Rouses T := ⟨⟨rfl, fun _ _ => rfl, fun _ h => .inl h⟩, rfl, rfl⟩

theorem Tile.Rouses.trans {T U V : Tile} (h : T.Rouses U) (k : U.Rouses V) : T.Rouses V :=
  ⟨h.toAdmits.trans k.toAdmits, k.channels.trans h.channels, k.held.trans h.held⟩

theorem Tile.Rouses.foldl {α : Type} (f : Tile → α → Tile) (hf : ∀ (T : Tile) (x : α), T.Rouses (f T x)) (l : List α) (T : Tile) :
    T.Rouses (l.foldl f T) := by
  induction l generalizing T with
  | nil => exact Tile.Rouses.refl T
  | cons x l ih => exact (hf T x).trans (ih _)

theorem Tile.task_of_ge (T : Tile) {n : Nat} (h : ¬ n < 32) : T.task n = {} := dif_neg h

/-- A write of a waiting task that leaves it in WAIT or puts it in READY. -/
theorem Tile.Rouses.setTask (T : Tile) {n : Nat} {k : Task} (hw : (T.task n).state = .wait) (hk : k.state = .wait ∨ k.state = .ready) :
    T.Rouses (T.setTask n k) := by
  have hn : n < 32 := by
    by_contra h
    rw [Tile.task_of_ge T h] at hw; cases hw
  refine ⟨⟨?_, fun m hm => ?_, fun m hm => ?_⟩, by simp, by simp⟩
  · unfold Tile.setTask; split <;> rfl
  · exact Tile.task_setTask_of_ne T k (by rintro rfl; exact hm hw)
  · by_cases e : m = n
    · subst e; rwa [Tile.task_setTask_self T k hn]
    · rw [Tile.task_setTask_of_ne T k e]; exact .inl hm

theorem Tile.Rouses.wake (T : Tile) (n : Nat) : T.Rouses (T.wake n) := by
  unfold Tile.wake
  split
  next hw =>
    obtain ⟨⟨hrest, hawake, hwoken⟩, hchannels, hheld⟩ := Tile.Rouses.setTask T (k := (T.task n).entered T.seq .ready .nothing) hw (.inr rfl)
    exact ⟨⟨hrest, hawake, hwoken⟩, hchannels, hheld⟩
  · exact Tile.Rouses.refl T

theorem Tile.Rouses.idleEvent (T : Tile) : T.Rouses T.idleEvent := by
  refine Tile.Rouses.foldl _ (fun T n => ?_) _ T
  split
  · exact Tile.Rouses.wake T n
  · exact Tile.Rouses.refl T

theorem Tile.Rouses.setPair (T : Tile) (c maj f : Nat) (p : Pair) : T.Rouses (T.setPair c maj f p) :=
  ⟨⟨rfl, fun _ _ => rfl, fun _ h => .inl h⟩, rfl, rfl⟩

theorem Tile.Rouses.wakeSync (T : Tile) (c maj f : Nat) : T.Rouses (T.wakeSync c maj f) := by
  refine Tile.Rouses.foldl _ (fun T n => ?_) _ T
  split
  · split
    · exact Tile.Rouses.wake T n
    · exact Tile.Rouses.refl T
  · exact Tile.Rouses.refl T

theorem Tile.Rouses.modPair (T : Tile) (c maj f : Nat) (g : Pair → Pair) : T.Rouses (T.modPair c maj f g) := by
  have h := fun p => (Tile.Rouses.setPair T c maj f p).trans (Tile.Rouses.wakeSync _ c maj f)
  unfold Tile.modPair
  dsimp only
  split
  · exact (h _).trans (Tile.Rouses.idleEvent _)
  · exact h _

theorem Tile.Rouses.untake (T : Tile) (k : Taken) : T.Rouses (T.untake k) := by
  have hv (p : Nat × Nat) : T.Rouses (match k.seq with | some q => T.voidToken k.ctx p.1 p.2 q | none => T) := by
    split
    · exact Tile.Rouses.modPair T _ _ _ _
    · exact Tile.Rouses.refl T
  unfold Tile.untake
  split
  · exact Tile.Rouses.refl T
  next p _ =>
    dsimp only
    split
    · exact (hv p).trans (Tile.Rouses.modPair _ _ _ _ _)
    · exact hv p

theorem Tile.Rouses.quitWait (T : Tile) {n : Nat} (hw : (T.task n).state = .wait) : T.Rouses (T.quitWait n) := by
  have h : T.Rouses (T.modTask n fun k => { k with taken := none }) := Tile.Rouses.setTask T hw (.inl hw)
  unfold Tile.quitWait
  dsimp only
  split
  · exact h
  · split
    · exact h.trans (Tile.Rouses.untake _ _)
    · exact Tile.Rouses.refl T
  · exact Tile.Rouses.refl T

theorem Tile.Rouses.wakeColour (T : Tile) (c col : Nat) : T.Rouses (T.wakeColour c col) := by
  unfold Tile.wakeColour
  split
  · exact Tile.Rouses.refl T
  · split
    next h => exact (Tile.Rouses.quitWait T h.1).trans (Tile.Rouses.wake _ _)
    · exact Tile.Rouses.refl T

theorem Tile.wake_ready (T : Tile) {n : Nat} (h : (T.task n).state = .wait ∨ (T.task n).state = .ready) : ((T.wake n).task n).state = .ready := by
  unfold Tile.wake
  split
  next hw =>
    have hn : n < 32 := by
      by_contra h
      rw [Tile.task_of_ge T h] at hw; cases hw
    rw [Tile.task_enter_self T _ _ hn]; rfl
  next hw => exact h.resolve_left hw

/-- The bound task of a colour with beats queued leaves a wait that they end. -/
theorem Tile.wakeColour_ready (T : Tile) {c col n : Nat} (hb : T.binding c col = some n) (hc : T.channel c col ≠ [])
    (hw : (T.task n).state = .wait ∧ (T.task n).waiting.ends = true ∨ (T.task n).state = .ready) :
    ((T.wakeColour c col).task n).state = .ready := by
  rcases hw with ⟨hw, he⟩ | hr
  · have hq := (Tile.Rouses.quitWait T hw).woken n hw
    have e : T.wakeColour c col = (T.quitWait n).wake n := by
      unfold Tile.wakeColour
      rw [hb]; exact if_pos ⟨hw, he, hc⟩
    rw [e]; exact Tile.wake_ready _ hq
  · rw [(Tile.Rouses.wakeColour T c col).awake n (by rw [hr]; decide), hr]

theorem Tile.Rouses.ready {T U : Tile} (h : T.Rouses U) {n : Nat} (hr : (T.task n).state = .ready) : (U.task n).state = .ready := by
  rw [h.awake n (by rw [hr]; decide), hr]

theorem Waiting.ends_iff {w : Waiting} : w.ends = true ↔ w ∉ [.engine, .barrier, .nothing] := by cases w <;> simp [Waiting.ends]

/-! ## Beats at the tile input that enter a channel, R16 -/

/-- The tile once the beats of a colour at its input have entered its channel. -/
def Tile.admitted (T : Tile) (c col : Nat) : Tile :=
  { T.setChannel c col (T.channel c col ++ T.held.filter (·.onColour c col)) with held := T.held.filter fun b => !b.onColour c col }

theorem Tile.admitHeld_eq (T : Tile) (c col : Nat) :
    T.admitHeld c col = if T.held.filter (·.onColour c col) = [] then T else ((T.admitted c col).wakeColour c col).idleEvent := rfl

theorem Tile.admits_admitted (T : Tile) (c col : Nat) : T.Admits (T.admitted c col) := ⟨rfl, fun _ _ => rfl, fun _ h => .inl h⟩

theorem Tile.channel_admitted (T : Tile) (c col : Nat) :
    (T.admitted c col).channel c col = T.channel c col ++ T.held.filter (·.onColour c col) :=
  SMap.getD_set_self _ _ _ _

theorem Tile.rouses_admitHeld (T : Tile) (c col : Nat) (h : T.held.filter (·.onColour c col) ≠ []) :
    (T.admitted c col).Rouses (T.admitHeld c col) := by
  rw [Tile.admitHeld_eq, if_neg h]
  exact (Tile.Rouses.wakeColour _ c col).trans (Tile.Rouses.idleEvent _)

theorem Tile.Admits.admitHeld (T : Tile) (c col : Nat) : T.Admits (T.admitHeld c col) := by
  by_cases h : T.held.filter (·.onColour c col) = []
  · rw [Tile.admitHeld_eq, if_pos h]; exact (Tile.Rouses.refl T).toAdmits
  · exact (Tile.admits_admitted T c col).trans (Tile.rouses_admitHeld T c col h).toAdmits

theorem Tile.channel_admitHeld (T : Tile) (c col : Nat) :
    (T.admitHeld c col).channel c col = T.channel c col ++ T.held.filter (·.onColour c col) := by
  by_cases h : T.held.filter (·.onColour c col) = []
  · rw [Tile.admitHeld_eq, if_pos h, h, List.append_nil]
  · rw [← Tile.channel_admitted, Tile.channel, (Tile.rouses_admitHeld T c col h).channels]; rfl

theorem Tile.held_admitHeld (T : Tile) (c col : Nat) : (T.admitHeld c col).held = T.held.filter fun b => !b.onColour c col := by
  by_cases h : T.held.filter (·.onColour c col) = []
  · rw [Tile.admitHeld_eq, if_pos h]
    rw [List.filter_eq_nil_iff] at h
    exact (List.filter_eq_self.2 fun b hb => by simp [h b hb]).symm
  · rw [(Tile.rouses_admitHeld T c col h).held]; rfl

theorem Tile.binding_of_ctxs {T U : Tile} (h : U.ctxs = T.ctxs) (c col : Nat) : U.binding c col = T.binding c col := by
  simp [Tile.binding, Tile.ctx, h]

/-- Beats that enter the channel of a bound colour end a wait of its task. -/
theorem Tile.admitHeld_ready (T : Tile) {c col n : Nat} (hb : T.binding c col = some n) (h : T.held.filter (·.onColour c col) ≠ [])
    (hw : (T.task n).state = .wait) (he : (T.task n).waiting ∉ [.engine, .barrier, .nothing]) : ((T.admitHeld c col).task n).state = .ready := by
  rw [Tile.admitHeld_eq, if_neg h]
  refine (Tile.Rouses.idleEvent _).ready (Tile.wakeColour_ready _ ?_ ?_ (.inl ⟨hw, Waiting.ends_iff.2 he⟩))
  · rw [← hb]; exact Tile.binding_of_ctxs rfl c col
  · rw [Tile.channel_admitted]; simp [h]

end Sys2Proof.Machine

namespace Sys2Proof.Machine

/-! ## The writes of CHMAP, R28 -/

theorem Tile.Rouses.still {T U : Tile} (h : T.Admits U) : T.Still U := by
  have key {α : Type} (f : Tile → α) (hf : ∀ (T : Tile) ks ps q cs hs, f { T with tasks := ks, pairs := ps, seq := q, channels := cs, held := hs } = f T) :
      f U = f T := (hf U _ _ _ _ _).symm.trans (congrArg f h.rest)
  exact ⟨key (·.istore) fun _ _ _ _ _ _ => rfl, key (·.dstore) fun _ _ _ _ _ _ => rfl, key (·.overlay) fun _ _ _ _ _ _ => rfl,
    key (·.retired) fun _ _ _ _ _ _ => rfl⟩

theorem Tile.Admits.ctxs {T U : Tile} (h : T.Admits U) : U.ctxs = T.ctxs := (congrArg Tile.ctxs h.rest :)

/-- The tile with V and TASK of a colour written. -/
def Tile.bound (T : Tile) (c col : Nat) (v : Bool) (n : BitVec 5) : Tile := T.modCtx c fun x => { x with bound := SMap.set x.bound col (v, n) }

theorem Tile.admits_bindColour (T : Tile) (c col : Nat) (v : Bool) (n : BitVec 5) (h : v = true → (T.task n.toNat).state ≠ .free) :
    (T.bound c col v n).Admits (T.bindColour c col v n) := by
  have hn : ¬ (v = true ∧ (T.task n.toNat).state = .free) := fun e => h e.1 e.2
  unfold Tile.bindColour
  rw [if_neg hn]
  dsimp only
  split
  · have ha := Tile.Admits.admitHeld (T.bound c col v n) c col
    split
    · exact ha
    · exact ha.trans ((Tile.Rouses.wakeColour _ c col).trans (Tile.Rouses.idleEvent _)).toAdmits
  · exact (Tile.Rouses.refl _).toAdmits

theorem Tile.bindColour_free (T : Tile) (c col : Nat) {v : Bool} {n : BitVec 5} (hv : v = true) (h : (T.task n.toNat).state = .free) :
    T.bindColour c col v n = T := if_pos ⟨hv, h⟩

theorem Tile.binding_bound (T : Tile) {c : Nat} (hc : c < 4) (col : Nat) (v : Bool) (n : BitVec 5) (b : Nat) :
    (T.bound c col v n).binding c b = if b = col then (if v then some n.toNat else none) else T.binding c b := by
  unfold Tile.binding Tile.bound
  rw [Tile.ctx_modCtx_self _ _ hc]
  by_cases hb : b = col
  · subst hb
    rw [SMap.get?_set_self, if_pos rfl]
    cases v <;> rfl
  · rw [SMap.get?_set_of_ne _ _ hb, if_neg hb]

/-- A binding moves with its channel: beats already there end a wait of the task that the colour is bound to. -/
theorem Tile.bindColour_ready (T : Tile) {c : Nat} (hc : c < 4) (col : Nat) (n : BitVec 5) (hw : (T.task n.toNat).state = .wait)
    (he : (T.task n.toNat).waiting ∉ [.engine, .barrier, .nothing]) (hb : T.channel c col ≠ [] ∨ ∃ b ∈ T.held, b.onColour c col = true) :
    ((T.bindColour c col true n).task n.toNat).state = .ready := by
  have hbound : (T.bound c col true n).binding c col = some n.toNat := by simp [Tile.binding_bound T hc]
  have htask (m : Nat) : (T.bound c col true n).task m = T.task m := Tile.task_modCtx _ _ _ _
  have hheld : (T.bound c col true n).held = T.held := by simp [Tile.bound]
  have hchannel : (T.bound c col true n).channel c col = T.channel c col := by simp [Tile.channel, Tile.bound]
  unfold Tile.bindColour
  rw [if_neg (by rw [hw]; simp), if_pos rfl]
  change ((if ((T.bound c col true n).admitHeld c col).channel c col = [] then (T.bound c col true n).admitHeld c col
    else (((T.bound c col true n).admitHeld c col).wakeColour c col).idleEvent).task n.toNat).state = _
  have hne : ((T.bound c col true n).admitHeld c col).channel c col ≠ [] := by
    rw [Tile.channel_admitHeld, hheld, hchannel]
    intro e
    obtain ⟨h1, h2⟩ := List.append_eq_nil_iff.1 e
    rcases hb with h | ⟨b, hm, ho⟩
    · exact h h1
    · exact List.filter_eq_nil_iff.1 h2 b hm ho
  rw [if_neg hne]
  refine (Tile.Rouses.idleEvent _).ready (Tile.wakeColour_ready _ ?_ hne ?_)
  · rw [Tile.binding_of_ctxs (Tile.Admits.admitHeld _ c col).ctxs]; exact hbound
  · by_cases hf : T.held.filter (·.onColour c col) = []
    · rw [Tile.admitHeld_eq, hheld, if_pos hf, htask]
      exact .inl ⟨hw, Waiting.ends_iff.2 he⟩
    · exact .inr (Tile.admitHeld_ready _ hbound (by rwa [hheld]) (by rwa [htask]) (by rwa [htask]))

/-- COLSEL as a write of CHMAP leaves it. -/
def Tile.selected (T : Tile) (c : Nat) (v : Word) : Tile := T.modCtx c fun x => { x with colsel := v.extractLsb' 0 5 }

theorem chmapWrite_eq (T : Tile) (c : Nat) (v : Word) : chmapWrite T c v
    = if v.getLsbD 15 then (T.selected c v).bindColour c (v.extractLsb' 0 5).toNat (v.getLsbD 13) (v.extractLsb' 8 5) else T.selected c v := rfl

theorem Tile.binding_selected (T : Tile) {c : Nat} (hc : c < 4) (v : Word) (b : Nat) : (T.selected c v).binding c b = T.binding c b := by
  unfold Tile.binding Tile.selected
  rw [Tile.ctx_modCtx_self _ _ hc]

/-- What a write of CHMAP makes of the registers of the context and of the rest of the tile. -/
theorem chmapWrite_admits (T : Tile) (c : Nat) (v : Word) :
    ∃ V, (V = T.selected c v ∨ ∃ col b n, V = (T.selected c v).bound c col b n) ∧ V.Admits (chmapWrite T c v) := by
  rw [chmapWrite_eq]
  split
  · by_cases h : v.getLsbD 13 = true ∧ ((T.selected c v).task (v.extractLsb' 8 5).toNat).state = .free
    · rw [Tile.bindColour_free _ _ _ h.1 h.2]
      exact ⟨_, .inl rfl, (Tile.Rouses.refl _).toAdmits⟩
    · exact ⟨_, .inr ⟨_, _, _, rfl⟩, Tile.admits_bindColour _ _ _ _ _ fun h1 h2 => h ⟨h1, h2⟩⟩
  · exact ⟨_, .inl rfl, (Tile.Rouses.refl _).toAdmits⟩

theorem chmapWrite_still (T : Tile) (c : Nat) (v : Word) : T.Still (chmapWrite T c v) := by
  obtain ⟨V, hV, h⟩ := chmapWrite_admits T c v
  refine Tile.Still.trans ?_ (Tile.Rouses.still h)
  rcases hV with rfl | ⟨_, _, _, rfl⟩
  · exact Tile.Still.modCtx _ _ _
  · exact (Tile.Still.modCtx _ _ _).trans (Tile.Still.modCtx _ _ _)

theorem chmapWrite_awake (T : Tile) (c : Nat) (v : Word) {n : Nat} (hn : (T.task n).state ≠ .wait) : (chmapWrite T c v).task n = T.task n := by
  obtain ⟨V, hV, h⟩ := chmapWrite_admits T c v
  have e : V.task n = T.task n := by
    rcases hV with rfl | ⟨_, _, _, rfl⟩
    · exact Tile.task_modCtx _ _ _ _
    · exact (Tile.task_modCtx _ _ _ _).trans (Tile.task_modCtx _ _ _ _)
  rw [h.awake n (by rwa [e]), e]

theorem chmapWrite_colsel (T : Tile) {c : Nat} (hc : c < 4) (v : Word) : ((chmapWrite T c v).ctx c).colsel = v.extractLsb' 0 5 := by
  obtain ⟨V, hV, h⟩ := chmapWrite_admits T c v
  have e : (chmapWrite T c v).ctx c = V.ctx c := by simp [Tile.ctx, h.ctxs]
  rw [e]
  rcases hV with rfl | ⟨_, _, _, rfl⟩
  · rw [Tile.selected, Tile.ctx_modCtx_self _ _ hc]
  · rw [Tile.bound, Tile.ctx_modCtx_self _ _ hc, Tile.selected, Tile.ctx_modCtx_self _ _ hc]

section
variable {T : Tile} {c : Nat} {v : Word} (hc : c < 4)
include hc

/-- The bindings after a write of CHMAP that takes effect. -/
theorem chmapWrite_binding (hs : v.getLsbD 15 = true) (hf : v.getLsbD 13 = true → (T.task (v.extractLsb' 8 5).toNat).state ≠ .free) (b : Nat) :
    (chmapWrite T c v).binding c b
      = if b = (v.extractLsb' 0 5).toNat then (if v.getLsbD 13 then some (v.extractLsb' 8 5).toNat else none) else T.binding c b := by
  rw [chmapWrite_eq, if_pos hs]
  rw [Tile.binding_of_ctxs (Tile.admits_bindColour _ _ _ _ _ ?_).ctxs, Tile.binding_bound _ hc, Tile.binding_selected _ hc]
  intro h
  rw [Tile.selected, Tile.task_modCtx]
  exact hf h

/-- The bindings after a write of CHMAP that is ignored. -/
theorem chmapWrite_binding_ignored (h : v.getLsbD 15 = false ∨ v.getLsbD 13 = true ∧ (T.task (v.extractLsb' 8 5).toNat).state = .free) (b : Nat) :
    (chmapWrite T c v).binding c b = T.binding c b := by
  have e : chmapWrite T c v = T.selected c v := by
    rw [chmapWrite_eq]
    rcases h with h | ⟨h1, h2⟩
    · rw [h]; rfl
    · split
      · exact Tile.bindColour_free _ _ _ h1 (by rwa [Tile.selected, Tile.task_modCtx])
      · rfl
  rw [e, Tile.binding_selected T hc]

theorem chmapWrite_ready (hs : v.getLsbD 15 = true) (hv : v.getLsbD 13 = true) (hw : (T.task (v.extractLsb' 8 5).toNat).state = .wait)
    (he : (T.task (v.extractLsb' 8 5).toNat).waiting ∉ [.engine, .barrier, .nothing])
    (hb : T.channel c (v.extractLsb' 0 5).toNat ≠ [] ∨ ∃ b ∈ T.held, b.onColour c (v.extractLsb' 0 5).toNat = true) :
    ((chmapWrite T c v).task (v.extractLsb' 8 5).toNat).state = .ready := by
  have htask (m : Nat) : (T.selected c v).task m = T.task m := Tile.task_modCtx _ _ _ _
  rw [chmapWrite_eq, if_pos hs, hv]
  refine Tile.bindColour_ready _ hc _ _ (by rwa [htask]) (by rwa [htask]) ?_
  have h1 : (T.selected c v).held = T.held := by simp [Tile.selected]
  have h2 : (T.selected c v).channel c (v.extractLsb' 0 5).toNat = T.channel c (v.extractLsb' 0 5).toNat := by simp [Tile.channel, Tile.selected]
  rwa [h1, h2]

end

/-! ## QUADLVL and SPILLMAP, R27 and R29 -/

/-- A field of a word as a number. -/
theorem toNat_extractLsb (v : Word) (lo n : Nat) : (v.extractLsb' lo n).toNat = v.toNat / 2 ^ lo % 2 ^ n := by
  rw [BitVec.extractLsb'_toNat, Nat.shiftRight_eq_div_pow]

theorem extractLsb_eq (v : Word) (lo n : Nat) : v.extractLsb' lo n = BitVec.ofNat n (v.toNat / 2 ^ lo) := by
  apply BitVec.eq_of_toNat_eq
  rw [toNat_extractLsb, BitVec.toNat_ofNat]

theorem getLsbD_eq (v : Word) (i : Nat) : (v.getLsbD i = true) = (v.toNat / 2 ^ i % 2 = 1) := by
  rw [← BitVec.testBit_toNat, Nat.testBit_eq_decide_div_mod_eq, decide_eq_true_eq]

theorem quadWrite_of_none {x : CtxRegs} {v : Word} (h : x.launch = none) : quadWrite x v = x := by simp [quadWrite, h]
theorem quadWrite_of_some {x : CtxRegs} {v : Word} {p : Placed} (h : x.launch = some p) : quadWrite x v
    = if p.w.toNat % 2 ^ (v.extractLsb' 0 4).toNat = 0 ∧ p.h.toNat % 2 ^ (v.extractLsb' 4 4).toNat = 0 then
        { x with lw := v.extractLsb' 0 4, lh := v.extractLsb' 4 4 } else x := by
  simp [quadWrite, h]

/-! ## The word that writes CHMAP -/

section
variable {s : State} {x : Word} (h : s.Issues)
include h

/-- The tile after the write of CHMAP: the word has retired, and then CHMAP is written. -/
theorem State.tile_chmapWritten :
    (s.csrWritten 0x021 x).here = chmapWrite (s.here.finish s.focus.task 1 Task.next) s.cur.ctx.toNat x := by
  rw [State.here_csrWritten]
  show chmapWrite _ ((s.here.finish s.focus.task 1 Task.next).task s.focus.task).ctx.toNat x = _
  rw [Tile.task_finish_self _ _ _ h.task]
  simp [State.cur, Task.next]

theorem Tile.state_finish (n : Nat) : ((s.here.finish s.focus.task 1 Task.next).task n).state = (s.here.task n).state := by
  by_cases hn : n = s.focus.task
  · subst hn; rw [Tile.task_finish_self _ _ _ h.task]; simp [Task.next]
  · rw [Tile.task_finish_of_ne _ _ _ hn]

theorem State.task_chmapWritten : (s.csrWritten 0x021 x).cur = s.cur.unexempt.next := by
  show (s.csrWritten 0x021 x).here.task s.focus.task = _
  rw [State.tile_chmapWritten h, chmapWrite_awake, Tile.task_finish_self _ _ _ h.task]
  · rfl
  · rw [Tile.state_finish h]
    show s.cur.state ≠ _
    rw [h.run]; decide

omit h in
theorem State.sameBytes_chmapWritten : SameBytes s (s.csrWritten 0x021 x) := fun sp =>
  ((State.sameBytes_modTile _ s.focus.tile (fun T => csrWrite T s.focus.task 0x021 x) (chmapWrite_still _ _ _)) sp).trans
    (State.sameBytes_retireIn s 1 id sp)

theorem State.colsel_chmapWritten : (s.csrWritten 0x021 x).curCtx.colsel = x.extractLsb' 0 5 := by
  have hc : (s.csrWritten 0x021 x).cur.ctx = s.cur.ctx := by rw [State.task_chmapWritten h]; simp [Task.next]
  rw [State.curCtx, hc, State.tile_chmapWritten h, chmapWrite_colsel _ s.cur.ctx.isLt]

omit h in
theorem Tile.binding_finish (c b : Nat) : (s.here.finish s.focus.task 1 Task.next).binding c b = s.here.binding c b :=
  Tile.binding_of_ctxs (by simp [Tile.finish]) c b

end

end Sys2Proof.Machine

namespace Sys2Proof.Proofs
open Sys2Proof.Machine

/-- QUADLVL is written only where every quad lies inside the launch. -/
theorem quadWrite_spec (x : CtxRegs) (v : Word) :
    let q := v.toNat
    let fits := match x.launch with | none => False | some p => p.w.toNat % 2 ^ (q % 16) = 0 ∧ p.h.toNat % 2 ^ (q / 16 % 16) = 0
    (fits → quadWrite x v = { x with lw := BitVec.ofNat 4 q, lh := BitVec.ofNat 4 (q / 16) }) ∧ (¬ fits → quadWrite x v = x) := by
  dsimp only
  have h1 : (v.extractLsb' 0 4).toNat = v.toNat % 16 := by rw [toNat_extractLsb]; simp
  have h2 : (v.extractLsb' 4 4).toNat = v.toNat / 16 % 16 := toNat_extractLsb v 4 4
  have h3 : v.extractLsb' 0 4 = BitVec.ofNat 4 v.toNat := by rw [extractLsb_eq]; simp
  have h4 : v.extractLsb' 4 4 = BitVec.ofNat 4 (v.toNat / 16) := extractLsb_eq v 4 4
  suffices key : ∀ o, x.launch = o →
      let fits := match o with | none => False | some p => p.w.toNat % 2 ^ (v.toNat % 16) = 0 ∧ p.h.toNat % 2 ^ (v.toNat / 16 % 16) = 0
      (fits → quadWrite x v = { x with lw := BitVec.ofNat 4 v.toNat, lh := BitVec.ofNat 4 (v.toNat / 16) }) ∧ (¬ fits → quadWrite x v = x) from
    key _ rfl
  intro o hx
  cases o with
  | none => exact ⟨False.elim, fun _ => quadWrite_of_none hx⟩
  | some p =>
    rw [quadWrite_of_some hx, h1, h2, h3, h4]
    exact ⟨fun h => if_pos h, fun h => if_neg h⟩

theorem csrMapWrites : Claims.csrMapWrites := by
  intro s d h
  dsimp only
  refine ⟨fun i hi v hv => ?_, fun hs i hi v hv => ?_, fun hs i hi v hv => ?_⟩
  · have hq := quadWrite_spec s.curCtx (i.2 v)
    refine gives_csrWriter (by decide) hv (fun hm => absurd hm (by decide)) hi ⟨State.wroteCsr_csrWritten h.task (by decide), ?_⟩
    rw [State.curCtx_csrWritten h.task (by decide)]
    exact hq
  · refine gives_csrWriter (by decide) hv (fun _ => hs) hi ⟨State.wroteCsr_csrWritten h.task (by decide), ?_⟩
    rw [State.curCtx_csrWritten h.task (by decide)]
    show ({ s.curCtx with area := (i.2 v).extractLsb' 24 40, spsel := (i.2 v).extractLsb' 0 5 } : CtxRegs) = _
    rw [extractLsb_eq, extractLsb_eq, Nat.pow_zero, Nat.div_one]
  · refine gives_csrWriter (by decide) hv (fun _ => hs) hi ?_
    generalize i.2 v = x
    have hcur := State.task_chmapWritten (x := x) h
    have hctx := s.cur.ctx.isLt
    have hcol : x.toNat % 32 = (x.extractLsb' 0 5).toNat := by rw [toNat_extractLsb]; simp
    have htask : x.toNat / 256 % 32 = (x.extractLsb' 8 5).toNat := (toNat_extractLsb x 8 5).symm
    rw [hcol, htask, ← getLsbD_eq x 15, ← getLsbD_eq x 13, State.tile_chmapWritten h]
    refine ⟨State.sameBytes_chmapWritten, by rw [hcur]; simp [Task.next], by rw [hcur]; simp [Task.next], by rw [hcur]; simp [Task.next], ?_,
      fun b hb => ?_, fun hset hon hfree => ?_, fun hset hon => ?_, fun hset hon hw he hq => ?_⟩
    · rw [State.colsel_chmapWritten h, extractLsb_eq, Nat.pow_zero, Nat.div_one]
    · rw [← Tile.binding_finish]
      by_cases hi : x.getLsbD 15 = false ∨ x.getLsbD 13 = true ∧ (s.here.task (x.extractLsb' 8 5).toNat).state = .free
      · exact chmapWrite_binding_ignored hctx (by rwa [Tile.state_finish h]) b
      · obtain ⟨h1, h2⟩ := not_or.1 hi
        have hset : x.getLsbD 15 = true := by simpa using h1
        rw [chmapWrite_binding hctx hset (by rw [Tile.state_finish h]; exact fun e f => h2 ⟨e, f⟩)]
        rcases hb with hb | hb | hb
        · rw [if_neg hb]
        · exact absurd hset hb
        · exact absurd hb h2
    · rw [chmapWrite_binding hctx hset (by rw [Tile.state_finish h]; exact fun _ => hfree), if_pos rfl, if_pos hon]
    · rw [chmapWrite_binding hctx hset (fun e => absurd e hon), if_pos rfl, if_neg hon]
    · have hne : (x.extractLsb' 8 5).toNat ≠ s.focus.task := by
        intro e
        rw [e] at hw
        exact absurd (h.run.symm.trans hw) (by decide)
      have ht := Tile.task_finish_of_ne s.here 1 Task.next hne
      refine chmapWrite_ready hctx hset hon (by rwa [ht]) (by rwa [ht]) ?_
      simpa [Tile.channel, Tile.finish] using hq

/-- Settles O10: a read shows the fields in place, and a write acts on the task, on its context or, for CHMAP, on the bindings. -/
theorem csrWords : Obligations.CsrWords := ⟨csrReads, csrChecks, csrWrites, csrMapWrites⟩

end Sys2Proof.Proofs

end

section
/-! PROOFS. Task selection, work stealing and tile completion (R16 to R18, R125, R126): O39. -/

set_option autoImplicit false

namespace Sys2Proof.Machine

/-! ## The best of a list, as the core, the thief and the parking of a bank look for it -/

/-- One step of a search for the best of the elements that `P` accepts: the first stays unless another is better. -/
def pick {α : Type} (P : α → Bool) (better : α → α → Bool) (best : Option α) (n : α) : Option α :=
  if P n then
    match best with
    | none => some n
    | some m => if better n m then some n else some m
  else best

section
variable {α : Type} {P : α → Bool} {better : α → α → Bool}

theorem pick_of_not {best : Option α} {n : α} (h : P n = false) : pick P better best n = best := if_neg (by simp [h])
theorem pick_none {n : α} (h : P n = true) : pick P better none n = some n := if_pos h
theorem pick_some {n m : α} (h : P n = true) : pick P better (some m) n = if better n m then some n else some m := if_pos h

/-- What the search holds has been in the list and is accepted. -/
theorem mem_of_foldl_pick {l : List α} {best : Option α} {n : α} (h : l.foldl (pick P better) best = some n) :
    best = some n ∨ n ∈ l ∧ P n = true := by
  induction l generalizing best with
  | nil => exact .inl h
  | cons x l ih =>
    rcases ih h with e | ⟨hm, hp⟩
    · by_cases hx : P x = true
      · cases best with
        | none => rw [pick_none hx] at e; cases e; exact .inr ⟨List.mem_cons_self, hx⟩
        | some m =>
          rw [pick_some hx] at e
          split at e
          · cases e; exact .inr ⟨List.mem_cons_self, hx⟩
          · exact .inl e
      · rw [pick_of_not (by simpa using hx)] at e; exact .inl e
    · exact .inr ⟨List.mem_cons_of_mem _ hm, hp⟩

theorem foldl_pick_some (l : List α) (m : α) : ∃ k, l.foldl (pick P better) (some m) = some k := by
  induction l generalizing m with
  | nil => exact ⟨m, rfl⟩
  | cons x l ih =>
    by_cases hx : P x = true
    · rw [List.foldl_cons, pick_some hx]
      split <;> exact ih _
    · rw [List.foldl_cons, pick_of_not (by simpa using hx)]; exact ih m

/-- The search finds nothing exactly where nothing is accepted. -/
theorem foldl_pick_eq_none {l : List α} : l.foldl (pick P better) none = none ↔ ∀ n ∈ l, P n = false := by
  induction l with
  | nil => simp
  | cons x l ih =>
    by_cases hx : P x = true
    · obtain ⟨k, hk⟩ := foldl_pick_some (P := P) (better := better) l x
      rw [List.foldl_cons, pick_none hx, hk]
      simp [hx]
    · have hx : P x = false := by simpa using hx
      rw [List.foldl_cons, pick_of_not hx, ih]
      simp [hx]

/-- The search finds the one that is better than every other. -/
theorem foldl_pick_of_best {l : List α} {best : Option α} {n : α} (hp : P n = true) (hmem : n ∈ l ∨ best = some n)
    (hbest : ∀ m, (m ∈ l ∧ P m = true ∨ best = some m) → m ≠ n → better n m = true ∧ better m n = false) :
    l.foldl (pick P better) best = some n := by
  induction l generalizing best with
  | nil => exact hmem.resolve_left (by simp)
  | cons x l ih =>
    have htail (m : α) (hm : m ∈ l ∧ P m = true) := hbest m (.inl ⟨List.mem_cons_of_mem _ hm.1, hm.2⟩)
    rw [List.foldl_cons]
    by_cases hx : P x = true
    · have hx' := hbest x (.inl ⟨List.mem_cons_self, hx⟩)
      cases best with
      | none =>
        rw [pick_none hx]
        refine ih ?_ fun m hm => ?_
        · rcases hmem with h | h
          · exact (List.mem_cons.1 h).elim (fun e => .inr (by rw [e])) .inl
          · cases h
        · rcases hm with h | h
          · exact htail m h
          · cases h; exact hx'
      | some k =>
        have hk := hbest k (.inr rfl)
        rw [pick_some hx]
        by_cases hn : x = n
        · subst hn
          refine ih (.inr ?_) fun m hm => ?_
          · by_cases e : k = x
            · subst e; split <;> rfl
            · rw [if_pos (hk e).1]
          · rcases hm with h | h
            · exact htail m h
            · split at h <;> cases h
              · exact fun e => absurd rfl e
              · exact hk
        · by_cases e : k = n
          · subst e
            rw [if_neg (by rw [(hx' hn).2]; decide)]
            refine ih (.inr rfl) fun m hm => ?_
            rcases hm with h | h
            · exact htail m h
            · cases h; exact hk
          · refine ih ?_ fun m hm => ?_
            · rcases hmem with h | h
              · exact .inl ((List.mem_cons.1 h).resolve_left (Ne.symm hn))
              · cases h; exact absurd rfl e
            · rcases hm with h | h
              · exact htail m h
              · split at h <;> cases h
                · exact hx'
                · exact hk
    · have hx : P x = false := by simpa using hx
      rw [pick_of_not hx]
      refine ih ?_ fun m hm => ?_
      · rcases hmem with h | h
        · rcases List.mem_cons.1 h with rfl | h
          · rw [hp] at hx; cases hx
          · exact .inl h
        · exact .inr h
      · rcases hm with h | h
        · exact htail m h
        · exact hbest m (.inr h)

/-- The search by a key finds one whose key no accepted element is below. -/
theorem key_le_of_foldl_pick {key : α → Nat} {l : List α} {best : Option α} {n : α}
    (h : l.foldl (pick P fun a b => decide (key a < key b)) best = some n) :
    (∀ m, best = some m → key n ≤ key m) ∧ ∀ m ∈ l, P m = true → key n ≤ key m := by
  induction l generalizing best with
  | nil => exact ⟨fun m hm => by cases hm.symm.trans h; exact Nat.le_refl _, by simp⟩
  | cons x l ih =>
    obtain ⟨h1, h2⟩ := ih h
    have hstep : (∀ m, best = some m → key n ≤ key m) ∧ (P x = true → key n ≤ key x) := by
      by_cases hx : P x = true
      · cases best with
        | none => exact ⟨fun _ e => (nomatch e), fun _ => h1 x (pick_none hx)⟩
        | some k =>
          rw [pick_some hx] at h1
          by_cases hlt : key x < key k
          · have := h1 x (by simp [hlt])
            exact ⟨fun m e => by cases e; omega, fun _ => this⟩
          · have := h1 k (by simp [hlt])
            exact ⟨fun m e => by cases e; exact this, fun _ => by omega⟩
      · have hx : P x = false := by simpa using hx
        rw [pick_of_not hx] at h1
        exact ⟨h1, fun e => by rw [hx] at e; cases e⟩
    refine ⟨hstep.1, fun m hm hp => ?_⟩
    rcases List.mem_cons.1 hm with rfl | hm
    · exact hstep.2 hp
    · exact h2 m hm hp

end

/-! ## The searches of R17, R18 and R125 -/

/-- The READY task `n` precedes `m`, R17. -/
def Tile.precedes (T : Tile) (n m : Nat) : Bool :=
  let p := (T.ctx (T.task n).ctx.toNat).prio.toNat
  let q := (T.ctx (T.task m).ctx.toNat).prio.toNat
  decide (q < p ∨ q = p ∧ (T.task n).readySeq < (T.task m).readySeq)

theorem Tile.nextTask_eq (T : Tile) : T.nextTask = (List.range 32).foldl (pick (fun n => decide ((T.task n).state = .ready)) T.precedes) none := by
  unfold Tile.nextTask
  congr 1
  funext best n
  by_cases h : (T.task n).state = .ready
  · rw [if_neg (not_not.2 h)]
    cases best with
    | none => rw [pick_none (by simpa using h)]
    | some m => rw [pick_some (by simpa using h)]; simp only [Tile.precedes, decide_eq_true_eq]
  · rw [if_pos h, pick_of_not (by simpa using h)]

theorem Tile.nextTask_eq_none {T : Tile} : T.nextTask = none ↔ ∀ n < 32, (T.task n).state ≠ .ready := by
  rw [Tile.nextTask_eq, foldl_pick_eq_none]
  simp

theorem Tile.nextTask_of_selected {T : Tile} {n : Nat} (h : Claims.Selected T n) : T.nextTask = some n := by
  obtain ⟨hn, hr, hbest⟩ := h
  rw [Tile.nextTask_eq]
  refine foldl_pick_of_best (by simpa using hr) (.inl (List.mem_range.2 hn)) fun m hm hne => ?_
  obtain ⟨h1, h2⟩ := hm.resolve_right (by simp)
  have := hbest m (List.mem_range.1 h1) hne (by simpa using h2)
  simp only [Tile.precedes, decide_eq_true_eq, decide_eq_false_iff_not]
  dsimp only at this
  omega

theorem Tile.running_eq_none {T : Tile} : T.running = none ↔ ∀ n < 32, (T.task n).state ≠ .run := by
  simp [Tile.running]

/-- Task `n` occupies a bank without being in RUN. -/
def Tile.idleInBank (T : Tile) (n : Nat) : Bool :=
  match (T.task n).place with
  | .bank _ => decide (¬ ((T.task n).state = .run ∨ (T.task n).state = .free))
  | _ => false

theorem Tile.victim_eq (T : Tile) : T.victim
    = ((List.range 32).foldl (pick T.idleInBank fun n m => decide ((T.task n).leftSeq < (T.task m).leftSeq)) none).map
        fun n => (n, bankOf (T.task n).place) := by
  unfold Tile.victim
  refine List.foldl_hom (Option.map fun n => (n, bankOf (T.task n).place)) (init := none) fun best n => ?_
  cases hp : (T.task n).place with
  | bank b =>
    by_cases hs : (T.task n).state = .run ∨ (T.task n).state = .free
    · have hi : T.idleInBank n = false := by simp [Tile.idleInBank, hp, hs]
      rw [pick_of_not hi]; simp [hs, hp]
    · have hi : T.idleInBank n = true := by simp only [Tile.idleInBank, hp]; exact decide_eq_true hs
      cases best with
      | none => rw [pick_none hi]; simp [hs, hp, bankOf]
      | some m =>
        rw [pick_some hi]
        by_cases hl : (T.task n).leftSeq < (T.task m).leftSeq <;> simp [hs, hp, hl, bankOf]
  | none | column _ | area _ => rw [pick_of_not (by simp [Tile.idleInBank, hp])]; simp [hp]

theorem Tile.idleInBank_iff {T : Tile} {n : Nat} :
    T.idleInBank n = true ↔ (∃ b, (T.task n).place = .bank b) ∧ (T.task n).state ≠ .run ∧ (T.task n).state ≠ .free := by
  unfold Tile.idleInBank
  split
  next b hb => simp [hb, not_or]
  next h => exact ⟨fun e => (nomatch e), fun ⟨⟨b, hb⟩, _⟩ => absurd hb (h b)⟩

theorem Tile.victim_of_oldest {T : Tile} {v b : Nat} (h : Claims.Oldest T v b) : T.victim = some (v, b) := by
  obtain ⟨⟨hv, hrun, hfree⟩, hb, hold⟩ := h
  have key := foldl_pick_of_best (P := T.idleInBank) (better := fun n m => decide ((T.task n).leftSeq < (T.task m).leftSeq))
    (l := List.range 32) (best := none) (n := v) (Tile.idleInBank_iff.2 ⟨⟨b, hb⟩, hrun, hfree⟩) (.inl (List.mem_range.2 hv)) fun m hm hne => by
      obtain ⟨h1, h2⟩ := hm.resolve_right (by simp)
      obtain ⟨hk, hr, hf⟩ := Tile.idleInBank_iff.1 h2
      have := hold m hne ⟨List.mem_range.1 h1, hr, hf⟩ hk
      exact ⟨decide_eq_true this, decide_eq_false (by omega)⟩
  rw [Tile.victim_eq, key]
  simp [hb, bankOf]

end Sys2Proof.Machine

namespace Sys2Proof.Machine

/-! ## The core selects a task, R17 and R18 -/

/-- The task runs: it leaves READY, and nothing else of it changes. -/
theorem Tile.task_run (T : Tile) {n : Nat} (hn : n < 32) :
    (T.enter n .run .nothing).task n = { T.task n with state := .run, waiting := .nothing } := by
  rw [Tile.task_enter_self T _ _ hn]
  simp [Task.entered]

section
variable {s : State} {t n : Nat}

/-- The tile once the selected task's registers are in bank `b` and it runs. -/
def State.runsIn (s : State) (t n b : Nat) : State :=
  ((s.modTile t fun T => T.modTask n fun k => { k with place := .bank b }).modTile t fun T => { T with pstall := false }).modTile t
    fun T => T.enter n .run .nothing

theorem State.selectTask_idle (h : (s.tile t).halted = true ∨ (∃ m < 32, ((s.tile t).task m).state = .run)
    ∨ ∀ m < 32, ((s.tile t).task m).state ≠ .ready) : s.selectTask t = s := by
  unfold State.selectTask
  dsimp only
  split
  · rfl
  next hc =>
    simp only [Bool.or_eq_true, not_or, Bool.not_eq_true, Option.isSome_eq_false_iff, Option.isNone_iff_eq_none] at hc
    rcases h with h | ⟨m, hm, h⟩ | h
    · rw [hc.1] at h; cases h
    · exact absurd h (Tile.running_eq_none.1 hc.2 m hm)
    · rw [Tile.nextTask_eq_none.2 h]

section
variable (hh : (s.tile t).halted = false) (hrun : ∀ m < 32, ((s.tile t).task m).state ≠ .run) (hsel : Claims.Selected (s.tile t) n)
include hh hrun hsel

theorem State.selectTask_inBank {b : Nat} (hp : ((s.tile t).task n).place = .bank b) :
    s.selectTask t = s.modTile t fun T => T.enter n .run .nothing := by
  unfold State.selectTask
  simp only [hh, Tile.running_eq_none.2 hrun, Tile.nextTask_of_selected hsel, hp, Option.isSome_none, Bool.or_self, Bool.false_eq_true, if_false]

theorem State.selectTask_noBank {u : State} (hp : ((s.tile t).task n).place = .none) (hb : s.findBank t = (none, u)) :
    s.selectTask t = u.modTile t fun T => { T with pstall := true } := by
  unfold State.selectTask
  simp only [hh, Tile.running_eq_none.2 hrun, Tile.nextTask_of_selected hsel, hp, hb, Option.isSome_none, Bool.or_self, Bool.false_eq_true, if_false]

theorem State.selectTask_ofBank {u : State} {b : Nat} (hp : ((s.tile t).task n).place = .none) (hb : s.findBank t = (some b, u))
    (hu : ((u.tile t).task n).place = .none) :
    s.selectTask t = u.runsIn t n b := by
  unfold State.selectTask
  simp only [hh, Tile.running_eq_none.2 hrun, Tile.nextTask_of_selected hsel, hp, hb, Option.isSome_none, Bool.or_self, Bool.false_eq_true, if_false,
    State.placeRegs, hu]
  rfl

end

theorem State.tile_runsIn (hn : n < 32) (b : Nat) :
    ((s.runsIn t n b).tile t).task n = { (s.tile t).task n with state := .run, waiting := .nothing, place := .bank b }
      ∧ (∀ m, m ≠ n → ((s.runsIn t n b).tile t).task m = (s.tile t).task m) ∧ (∀ u, u ≠ t → (s.runsIn t n b).tile u = s.tile u)
      ∧ ((s.runsIn t n b).tile t).pstall = false := by
  have htile : (s.runsIn t n b).tile t
      = Tile.enter { (s.tile t).modTask n fun k => { k with place := .bank b } with pstall := false } n .run .nothing := by
    rw [State.runsIn, State.tile_modTile_self, State.tile_modTile_self, State.tile_modTile_self]
  refine ⟨?_, fun m hm => ?_, fun u hu => ?_, ?_⟩
  · rw [htile, Tile.task_run _ hn]
    show ({ ((s.tile t).modTask n _).task n with state := .run, waiting := .nothing } : Task) = _
    rw [Tile.task_modTask_self _ _ hn]
  · rw [htile, Tile.task_enter_of_ne _ _ _ hm]
    show ((s.tile t).modTask n _).task m = _
    rw [Tile.task_modTask_of_ne _ _ hm]
  · rw [State.runsIn, State.tile_modTile_of_ne _ _ hu, State.tile_modTile_of_ne _ _ hu, State.tile_modTile_of_ne _ _ hu]
  · rw [htile]; simp [Tile.enter]

theorem State.findBank_free {b : Nat} (h : (s.tile t).freeBank = some b) : s.findBank t = (some b, s) := by simp [State.findBank, h]

theorem State.findBank_column {v b c : Nat} (h : (s.tile t).freeBank = none) (hv : Claims.Oldest (s.tile t) v b)
    (hc : (s.node t).freeColumn [] = some c) : s.findBank t
      = (some b, (s.modNode t fun n => n.setColumn c (.parked v)).modTile t fun T => T.modTask v fun k => { k with place := .column c }) := by
  simp [State.findBank, h, Tile.victim_of_oldest hv, hc]

theorem State.findBank_none {v b : Nat} (h : (s.tile t).freeBank = none) (hv : Claims.Oldest (s.tile t) v b)
    (hc : (s.node t).freeColumn [] = none) (ha : ((s.tile t).ctx ((s.tile t).task v).ctx.toNat).area = 0) : s.findBank t = (none, s) := by
  simp [State.findBank, h, Tile.victim_of_oldest hv, hc, State.spillRegs, ha]

theorem gives_settled {i : Instr} {u : State} {P : State → Prop} (he : exec i s = settle u) (ha : u.absent = none) (hP : P u) : Gives i s P :=
  ⟨u, he.trans (settle_of_absent ha), hP⟩

/-- BANK_FREED ends the stall and has the core select. -/
theorem exec_bankFreed (hp : (s.tile t).pstall = true) (hb : s.bankReady t = true) :
    exec (.bankFreed t) s = settle ((s.modTile t fun T => { T with pstall := false }).selectTask t) := by
  show settle (s.bankFreed t) = _
  rw [State.bankFreed, hp, hb]; rfl

end

end Sys2Proof.Machine

namespace Sys2Proof.Proofs
open Sys2Proof.Machine

/-- The selection of a core that runs nothing. -/
theorem runs_selectTask {s : State} {t n : Nat} (ha : s.absent = none) (hh : (s.tile t).halted = false)
    (hrun : ∀ m < 32, ((s.tile t).task m).state ≠ .run) (hsel : Claims.Selected (s.tile t) n) :
    (∀ b, ((s.tile t).task n).place = .bank b → Claims.Runs s (s.selectTask t) t n b (fun _ => False)
        ∧ ((s.selectTask t).tile t).pstall = (s.tile t).pstall)
      ∧ (∀ b, ((s.tile t).task n).place = .none → (s.tile t).freeBank = some b → Claims.Runs s (s.selectTask t) t n b (fun _ => False)
        ∧ ((s.selectTask t).tile t).pstall = false)
      ∧ ∀ b v c, ((s.tile t).task n).place = .none → (s.tile t).freeBank = none → Claims.Oldest (s.tile t) v b →
          (s.node t).freeColumn [] = some c → Claims.Runs s (s.selectTask t) t n b (· = v) ∧ ((s.selectTask t).tile t).pstall = false
            ∧ ((s.selectTask t).tile t).task v = { (s.tile t).task v with place := .column c }
            ∧ ((s.selectTask t).node t).column c = .parked v := by
  have hn := hsel.1
  refine ⟨fun b hp => ?_, fun b hp hb => ?_, fun b v c hp hb hv hc => ?_⟩
  · rw [State.selectTask_inBank hh hrun hsel hp]
    refine ⟨⟨?_, fun m hm _ => ?_, fun u hu => State.tile_modTile_of_ne _ _ hu, ha⟩, ?_⟩
    · rw [State.tile_modTile_self, Tile.task_run _ hn, ← hp]
    · rw [State.tile_modTile_self, Tile.task_enter_of_ne _ _ _ hm]
    · rw [State.tile_modTile_self]; simp [Tile.enter]
  · rw [State.selectTask_ofBank hh hrun hsel hp (State.findBank_free hb) hp]
    have e := State.tile_runsIn (s := s) (t := t) hn b
    refine ⟨⟨e.1, fun m hm _ => e.2.1 m hm, e.2.2.1, ha⟩, e.2.2.2⟩
  · generalize hu : (s.modNode t fun n => n.setColumn c (.parked v)).modTile t (fun T => T.modTask v fun k => { k with place := .column c }) = u
    have htile : u.tile t = (s.tile t).modTask v fun k => { k with place := .column c } := by rw [← hu, State.tile_modTile_self]; rfl
    have hne : n ≠ v := fun e => by rw [e, hv.2.1] at hp; cases hp
    have htask (m : Nat) (hm : m ≠ v) : (u.tile t).task m = (s.tile t).task m := by rw [htile, Tile.task_modTask_of_ne _ _ hm]
    have hpn : ((u.tile t).task n).place = .none := by rw [htask n hne]; exact hp
    rw [State.selectTask_ofBank hh hrun hsel hp ((State.findBank_column hb hv hc).trans (by rw [hu])) hpn]
    have e := State.tile_runsIn (s := u) (t := t) hn b
    refine ⟨⟨?_, fun m hm hmv => ?_, fun w hw => ?_, ?_⟩, e.2.2.2, ?_, ?_⟩
    · rw [e.1, htask n hne]
    · rw [e.2.1 m hm, htask m hmv]
    · rw [e.2.2.1 w hw, ← hu, State.tile_modTile_of_ne _ _ hw]; rfl
    · show u.absent = none
      rw [← hu]; exact ha
    · rw [e.2.1 v (Ne.symm hne), htile, Tile.task_modTask_self _ _ hv.1.1]
    · show (u.node t).column c = _
      rw [← hu]
      show ((s.modNode t fun n => n.setColumn c (.parked v)).node t).column c = _
      rw [State.node_modNode_self, Node.column, Node.setColumn, SMap.getD_set_self]

theorem runs_of_stall {s z : State} {t n b : Nat} {other : Nat → Prop}
    (h : Claims.Runs (s.modTile t fun T => { T with pstall := false }) z t n b other) : Claims.Runs s z t n b other := by
  obtain ⟨h1, h2, h3, h4⟩ := h
  rw [State.tile_modTile_self] at h1 h2
  exact ⟨h1, h2, fun u hu => (h3 u hu).trans (State.tile_modTile_of_ne _ _ hu), h4⟩

theorem selection : Claims.selection := by
  intro s t n ha
  dsimp only
  refine ⟨fun h => ?_, fun h => ?_, fun v b hh hrun hsel hp hb hv hc har => ?_, fun hh hrun hsel i hi => ?_⟩
  · exact gives_settled rfl (by rwa [State.selectTask_idle h]) (State.selectTask_idle h)
  · have e : s.bankFreed t = s := if_neg (by rcases h with h | h <;> simp [h])
    exact gives_settled rfl (by rwa [e]) e
  · have e := State.selectTask_noBank hh hrun hsel hp (State.findBank_none hb hv hc har)
    refine gives_settled rfl (by rw [e]; exact ha) ?_
    rw [e]
    exact ⟨State.tile_modTile_self _ _ _, fun u hu => State.tile_modTile_of_ne _ _ hu⟩
  · rcases hi with rfl | ⟨rfl, hstall, hready⟩
    · obtain ⟨h1, h2, h3⟩ := runs_selectTask ha hh hrun hsel
      exact ⟨fun b hp => gives_settled rfl (h1 b hp).1.2.2.2 ⟨(h1 b hp).1, fun _ => (h1 b hp).2⟩,
        fun b hp hb => gives_settled rfl (h2 b hp hb).1.2.2.2 (h2 b hp hb),
        fun b v c hp hb hv hc => gives_settled rfl (h3 b v c hp hb hv hc).1.2.2.2 (h3 b v c hp hb hv hc)⟩
    · have he := exec_bankFreed hstall hready
      generalize hu : s.modTile t (fun T => { T with pstall := false }) = u at he
      have htile : u.tile t = { s.tile t with pstall := false } := by rw [← hu, State.tile_modTile_self]
      have hruns {z : State} {b : Nat} {other : Nat → Prop} (h : Claims.Runs u z t n b other) : Claims.Runs s z t n b other :=
        runs_of_stall (hu ▸ h)
      obtain ⟨h1, h2, h3⟩ := runs_selectTask (s := u) (t := t) (n := n) (hu ▸ ha) (by rw [htile]; exact hh) (by rw [htile]; exact hrun)
        (by rw [htile]; exact hsel)
      rw [htile] at h1 h2 h3
      refine ⟨fun b hp => ?_, fun b hp hb => ?_, fun b v c hp hb hv hc => ?_⟩
      · exact gives_settled he (h1 b hp).1.2.2.2 ⟨hruns (h1 b hp).1, fun e => by cases e⟩
      · exact gives_settled he (h2 b hp hb).1.2.2.2 ⟨hruns (h2 b hp hb).1, (h2 b hp hb).2⟩
      · obtain ⟨r, hp', hv', hc'⟩ := h3 b v c hp hb hv (by rw [← hu]; exact hc)
        exact gives_settled he r.2.2.2 ⟨hruns r, hp', hv', hc'⟩

end Sys2Proof.Proofs

namespace Sys2Proof.Machine

/-! ## Work stealing, R125 -/

theorem mayMove_iff {T : Tile} {n : Nat} :
    State.mayMove T n = true ↔ (T.task n).state = .ready ∧ (T.task n).stealable = true ∧ ∀ d < 4, T.coloursOf d n = [] := by
  simp [State.mayMove, and_assoc]

/-- A thief is not its own victim. -/
theorem State.ne_of_mem_victims {s : State} {t c u : Nat} (h : u ∈ s.victims t c) : u ≠ t := by
  unfold State.victims at h
  split at h
  · cases h
  · obtain ⟨e, he, rfl⟩ := List.mem_map.1 h
    rw [← List.foldl_map (f := fun u => (_, u)) (g := fun l f => insertKey f.1 f.2 l), mem_foldl_insertKey] at he
    obtain ⟨w, hw, rfl⟩ := List.mem_map.1 (he.resolve_right (by simp))
    simpa using (List.mem_filter.1 hw).2

/-- A thief on tile `t` may take task `n` of tile `u`: it is stealable, and of the launch of context `c`. -/
def State.mayTake (s : State) (t c u n : Nat) : Bool :=
  mayMove (s.tile u) n && ((s.tile u).task n).ctx.toNat == c
    && (((s.tile u).ctx c).launch.map (·.lid) == ((s.tile t).ctx c).launch.map (·.lid))

theorem State.stealFrom_eq (s : State) (t c : Nat) : s.stealFrom t c = (s.victims t c).findSome? fun u =>
    ((List.range 32).foldl (pick (s.mayTake t c u) fun a b => decide (((s.tile u).task a).readySeq < ((s.tile u).task b).readySeq)) none).map
      fun n => (u, n) := by
  unfold State.stealFrom
  congr 1
  funext u
  dsimp only
  congr 2
  funext best n
  by_cases h : s.mayTake t c u n = true
  · refine (if_pos h).trans ?_
    cases best with
    | none => rw [pick_none h]
    | some m => rw [pick_some h]; simp only [decide_eq_true_eq]
  · refine (if_neg h).trans ?_
    rw [pick_of_not (by simpa using h)]

/-- What a thief finds on a tile: the stealable task of the context that has been READY longest. -/
theorem State.stealFrom_some {s : State} {t c u n : Nat} (h : s.stealFrom t c = some (u, n)) :
    u ∈ s.victims t c ∧ n < 32 ∧ mayMove (s.tile u) n = true ∧ ((s.tile u).task n).ctx.toNat = c
      ∧ ∀ j < 32, mayMove (s.tile u) j = true → ((s.tile u).task j).ctx.toNat = c → ((s.tile u).task n).readySeq ≤ ((s.tile u).task j).readySeq := by
  rw [State.stealFrom_eq] at h
  obtain ⟨w, hw, e⟩ := List.exists_of_findSome?_eq_some h
  obtain ⟨m, hm, e⟩ := Option.map_eq_some_iff.1 e
  cases e
  obtain ⟨hn, htake⟩ := (mem_of_foldl_pick hm).resolve_left (by simp)
  have hleast := (key_le_of_foldl_pick hm).2
  simp only [State.mayTake, Bool.and_eq_true, beq_iff_eq] at htake
  obtain ⟨⟨hmove, hctx⟩, hlid⟩ := htake
  refine ⟨hw, List.mem_range.1 hn, hmove, hctx, fun j hj hmj hcj => hleast j (List.mem_range.2 hj) ?_⟩
  simp [State.mayTake, hmj, hcj, hlid]

theorem Tile.task_create (T : Tile) {m : Nat} (k : Task) (hm : m < 32) : (T.create m k .ready .nothing).task m
    = { k with state := .ready, waiting := .nothing, readySeq := T.seq, leftSeq := if k.state = .run then T.seq else k.leftSeq } := by
  rw [Tile.create, Tile.task_enter_self _ _ _ hm, Tile.task_setTask_self _ _ hm, Tile.seq_setTask]
  simp [Task.entered]

theorem Tile.freeTask_lt {T : Tile} {m : Nat} (h : T.freeTask = some m) : m < 32 := List.mem_range.1 (List.mem_of_find?_eq_some h)

end Sys2Proof.Machine

namespace Sys2Proof.Proofs
open Sys2Proof.Machine

theorem stealing : Claims.stealing := by
  intro s t b m u n c ha
  dsimp only
  intro hh hready hb hm hc hsteal hbefore hplace
  obtain ⟨hv, hn, hmove, hctx, hleast⟩ := State.stealFrom_some hsteal
  obtain ⟨hr, hs, hcol⟩ := mayMove_iff.1 hmove
  have hut := State.ne_of_mem_victims hv
  have hm32 := Tile.freeTask_lt hm
  refine ⟨hv, hr, hs, hctx, hcol, hleast, ?_⟩
  have hfound : ((List.range 4).findSome? fun c => s.stealFrom t c) = some (u, n) := by
    have : (List.range 4) = (List.range c) ++ c :: (List.range' (c + 1) (3 - c)) := by
      interval_cases c <;> rfl
    rw [this, List.findSome?_append, List.findSome?_eq_none_iff.2 fun d hd => hbefore d (List.mem_range.1 hd), Option.none_or,
      List.findSome?_cons, hsteal]
  let k : Task := { (s.tile u).task n with place := .bank b }
  let z := ((s.modTile u fun T => T.modTask n Task.released).modTile t fun T => T.create m k .ready .nothing).renameAgent (taskAgent u n) (taskAgent t m)
  have he : s.workSteal t = z := by
    unfold State.workSteal
    rcases hplace with hp | ⟨a, hp⟩ <;>
      simp only [hh, Tile.nextTask_eq_none.2 hready, hb, hm, hfound, hp, Option.isSome_none, Bool.or_self, Bool.false_eq_true, if_false] <;> rfl
  have ht : z.tile t = (s.tile t).create m k .ready .nothing := by
    show ((s.modTile u fun T => T.modTask n Task.released).modTile t fun T => T.create m k .ready .nothing).tile t = _
    rw [State.tile_modTile_self, State.tile_modTile_of_ne _ _ (Ne.symm hut)]
  have hu : z.tile u = (s.tile u).modTask n Task.released := by
    show ((s.modTile u fun T => T.modTask n Task.released).modTile t fun T => T.create m k .ready .nothing).tile u = _
    rw [State.tile_modTile_of_ne _ _ hut, State.tile_modTile_self]
  refine gives_settled (u := z) (congrArg settle he) ha ⟨?_, ?_, fun j hj => ?_, fun j hj => ?_, fun w hwt hwu => ?_, rfl⟩
  · rw [ht, Tile.task_create _ _ hm32]
    simp [k, hr]
  · rw [hu, Tile.task_modTask_self _ _ hn]; rfl
  · rw [ht, Tile.create, Tile.task_enter_of_ne _ _ _ hj, Tile.task_setTask_of_ne _ _ hj]
  · rw [hu, Tile.task_modTask_of_ne _ _ hj]
  · show ((s.modTile u fun T => T.modTask n Task.released).modTile t fun T => T.create m k .ready .nothing).tile w = _
    rw [State.tile_modTile_of_ne _ _ hwt, State.tile_modTile_of_ne _ _ hwu]

end Sys2Proof.Proofs

namespace Sys2Proof.Machine

/-! ## What leaves the launches of the tiles alone -/

/-- A context's launch on its tile, and whether the tile has triggered or completed for it, are as before. -/
def CtxRegs.SameLaunch (x y : CtxRegs) : Prop := y.launch = x.launch ∧ y.trig = x.trig ∧ y.compl = x.compl

/-- So for every context of a tile. -/
def Tile.SameLaunch (T U : Tile) : Prop := ∀ c, (T.ctx c).SameLaunch (U.ctx c)

/-- So on every tile, and the table of launches is as before. -/
def State.SameLaunch (s u : State) : Prop := u.launches = s.launches ∧ ∀ t, (s.tile t).SameLaunch (u.tile t)

theorem CtxRegs.SameLaunch.refl (x : CtxRegs) : x.SameLaunch x := ⟨rfl, rfl, rfl⟩
theorem CtxRegs.SameLaunch.trans {x y z : CtxRegs} (h : x.SameLaunch y) (k : y.SameLaunch z) : x.SameLaunch z :=
  ⟨k.1.trans h.1, k.2.1.trans h.2.1, k.2.2.trans h.2.2⟩
theorem Tile.SameLaunch.refl (T : Tile) : T.SameLaunch T := fun _ => .refl _
theorem Tile.SameLaunch.trans {T U V : Tile} (h : T.SameLaunch U) (k : U.SameLaunch V) : T.SameLaunch V := fun c => (h c).trans (k c)
theorem Tile.SameLaunch.of_ctxs {T U : Tile} (h : U.ctxs = T.ctxs) : T.SameLaunch U := fun c => by
  have e : U.ctx c = T.ctx c := by simp [Tile.ctx, h]
  rw [e]; exact .refl _

theorem Tile.SameLaunch.modCtx (T : Tile) (c : Nat) (f : CtxRegs → CtxRegs) (hf : ∀ x : CtxRegs, x.SameLaunch (f x)) : T.SameLaunch (T.modCtx c f) := by
  intro d
  by_cases e : d = c
  · subst e
    by_cases h : d < 4
    · rw [Tile.ctx_modCtx_self _ _ h]; exact hf _
    · rw [Tile.modCtx, dif_neg h]; exact .refl _
  · rw [Tile.ctx_modCtx_of_ne _ _ e]; exact .refl _

theorem Tile.SameLaunch.foldl {α : Type} (f : Tile → α → Tile) (hf : ∀ (T : Tile) (x : α), T.SameLaunch (f T x)) (l : List α) (T : Tile) :
    T.SameLaunch (l.foldl f T) := by
  induction l generalizing T with
  | nil => exact .refl T
  | cons x l ih => exact (hf T x).trans (ih _)

theorem State.SameLaunch.refl (s : State) : s.SameLaunch s := ⟨rfl, fun _ => .refl _⟩
theorem State.SameLaunch.trans {s u v : State} (h : s.SameLaunch u) (k : u.SameLaunch v) : s.SameLaunch v :=
  ⟨k.1.trans h.1, fun t => (h.2 t).trans (k.2 t)⟩

theorem State.SameLaunch.foldl {α : Type} (f : State → α → State) (hf : ∀ (s : State) (x : α), s.SameLaunch (f s x)) (l : List α) (s : State) :
    s.SameLaunch (l.foldl f s) := by
  induction l generalizing s with
  | nil => exact .refl s
  | cons x l ih => exact (hf s x).trans (ih _)

theorem State.SameLaunch.modTile (s : State) (t : Nat) (f : Tile → Tile) (hf : ∀ T : Tile, T.SameLaunch (f T)) : s.SameLaunch (s.modTile t f) := by
  refine ⟨rfl, fun u => ?_⟩
  by_cases e : u = t
  · subst e; rw [State.tile_modTile_self]; exact hf _
  · rw [State.tile_modTile_of_ne _ _ e]; exact .refl _

theorem MemoryOnly.sameLaunch {s u : State} (h : MemoryOnly s u) : s.SameLaunch u :=
  ⟨h.same State.launches fun _ _ _ _ _ _ _ _ _ _ _ => rfl, fun t c => by
    rw [← (h.tile t).ctx c]; exact ⟨rfl, rfl, rfl⟩⟩

section
variable {s u : State} (h : s.SameLaunch u)
include h

theorem State.SameLaunch.lidOf (t c : Nat) : u.lidOf t c = s.lidOf t c := by
  rw [State.lidOf, State.lidOf, (h.2 t c).1]
theorem State.SameLaunch.launch (n : Nat) : u.launch n = s.launch n := by rw [State.launch, State.launch, h.1]

end

/-! ## The steps of a completion that leave the launches alone -/

theorem State.sameLaunch_returnLines (s : State) (t : Nat) : s.SameLaunch (s.returnLines t) := by
  refine .foldl _ (fun s e => ?_) _ s
  split
  · exact .foldl _ (fun s (o : OwnerLine) => (MemoryOnly.recallLine s o.line).sameLaunch) _ s
  · exact .refl s

theorem State.sameLaunch_settleTile (s : State) (t : Nat) : s.SameLaunch (s.settleTile t) :=
  (MemoryOnly.landWhere s _).sameLaunch.trans (State.sameLaunch_returnLines _ t)

theorem Tile.sameLaunch_wake (T : Tile) (n : Nat) : T.SameLaunch (T.wake n) := .of_ctxs (Tile.Rouses.wake T n).ctxs

theorem Tile.sameLaunch_modTask (T : Tile) (n : Nat) (f : Task → Task) : T.SameLaunch (T.modTask n f) := .of_ctxs (Tile.setTask_ctxs _ _ _)

theorem State.sameLaunch_tokenDue (s : State) (t c maj f q : Nat) : s.SameLaunch (s.tokenDue t c maj f q) :=
  .modTile s t _ fun T => .of_ctxs (Tile.Rouses.modPair T c maj f _).ctxs

theorem State.sameLaunch_endWord (s : State) (t n : Nat) (v : Word) : s.SameLaunch (s.endWord t n v) := by
  unfold State.endWord
  split
  · exact .refl s
  next k _ =>
    have hend : s.SameLaunch (if n < 32 then
          s.modTile t fun T =>
            let T := T.modTask n fun x => (({ x with taken := none } : Task).result k.dest v).next
            ({ T with retired := T.retired + 1 } : Tile).wake n
        else s.dropOrphan t n) := by
      split
      · exact .modTile s t _ fun T => (Tile.sameLaunch_modTask T n _).trans
          (.trans (.of_ctxs (by rfl)) (Tile.sameLaunch_wake _ n))
      · unfold State.dropOrphan
        split <;> exact ⟨rfl, fun _ => .refl _⟩
    dsimp only
    split
    · exact hend.trans (State.sameLaunch_tokenDue _ _ _ _ _ _)
    · exact hend

theorem State.sameLaunch_modStream (s : State) (t c n : Nat) (f : Stream → Stream) : s.SameLaunch (s.modStream t c n f) :=
  .modTile s t _ fun T => .modCtx T c _ fun x => by split <;> exact ⟨rfl, rfl, rfl⟩

/-- Dropping the streams or copies that a wait has returned. -/
theorem State.sameLaunch_copyReady {s u : State} {t : Nat} {k : Taken} {v : Word} (h : s.copyReady t k = some (v, u)) : s.SameLaunch u := by
  have hstreams (ns : List Nat) : s.SameLaunch (s.dropStreams t k.ctx ns) := .modTile s t _ fun T => .modCtx T _ _ fun _ => ⟨rfl, rfl, rfl⟩
  have hcopies (ns : List Nat) : s.SameLaunch (s.dropCopies t k.ctx ns) := .modTile s t _ fun T => .modCtx T _ _ fun _ => ⟨rfl, rfl, rfl⟩
  unfold State.copyReady at h
  dsimp only at h
  repeat' split at h
  all_goals cases h
  · exact hstreams _
  · exact .refl s
  · exact hstreams _
  · exact hcopies _
  · exact .refl s
  · exact hcopies _

theorem State.sameLaunch_serveTickets (s : State) (t : Nat) : s.SameLaunch (s.serveTickets t copyReady) := by
  refine .foldl _ (fun s n => ?_) _ s
  dsimp only
  split
  · split
    · exact .refl s
    · split
      next h => exact (State.sameLaunch_copyReady h).trans (State.sameLaunch_endWord _ _ _ _)
      · exact .refl s
  · exact .refl s

theorem State.sameLaunch_finishStream (s : State) (t c n : Nat) (z : Stream) : s.SameLaunch (s.finishStream t c n z) := by
  unfold State.finishStream
  dsimp only
  split
  · exact ((State.sameLaunch_modStream s t c n _).trans (State.sameLaunch_tokenDue _ _ _ _ _ _)).trans (State.sameLaunch_serveTickets _ t)
  · exact (State.sameLaunch_modStream s t c n _).trans (State.sameLaunch_serveTickets _ t)

theorem State.sameLaunch_cancelStreams (s : State) (t c : Nat) : s.SameLaunch (s.cancelStreams t c) :=
  .foldl _ (fun _ _ => (State.sameLaunch_modStream _ _ _ _ _).trans (State.sameLaunch_finishStream _ _ _ _ _)) _ s

theorem State.sameLaunch_releaseBarrier (s : State) (t c bar : Nat) (lw lh : BitVec 4) (whole : Bool) :
    s.SameLaunch (s.releaseBarrier t c bar lw lh whole) := by
  unfold State.releaseBarrier
  dsimp only
  split
  · exact .refl s
  · refine .foldl _ (fun s u => .modTile s u _ fun T => ?_) _ s
    refine Tile.SameLaunch.trans ?_ (.foldl _ (fun T a => ?_) _ _)
    · exact .modCtx T c _ fun _ => ⟨rfl, rfl, rfl⟩
    · exact (Tile.SameLaunch.of_ctxs (by rfl)).trans ((Tile.sameLaunch_modTask { T with retired := T.retired + 1 } a.tid _).trans (Tile.sameLaunch_wake _ _))

/-! ## The table of launches -/

theorem State.launch_modLaunch_self (s : State) (n : Nat) (f : Launch → Launch) : (s.modLaunch n f).launch n = (s.launch n).map f := by
  unfold State.modLaunch
  cases h : s.launch n with
  | none => exact h
  | some l => exact SMap.get?_set_self _ _ _
theorem State.launch_modLaunch_of_ne (s : State) {n m : Nat} (f : Launch → Launch) (h : m ≠ n) : (s.modLaunch n f).launch m = s.launch m := by
  unfold State.modLaunch
  split
  · exact SMap.get?_set_of_ne _ _ h
  · rfl
@[simp] theorem State.tiles_modLaunch (s : State) (n : Nat) (f : Launch → Launch) : (s.modLaunch n f).tiles = s.tiles := by
  unfold State.modLaunch; split <;> rfl

/-- Of a launch that becomes eligible only its phase and its place in the order change. -/
theorem State.launch_makeEligible {P : Launch → Prop}
    (hP : ∀ (l : Launch) o c, l.phase = .waiting → P l → P { l with phase := .eligible, order := o, since := c, rises := 0 })
    {s : State} {n : Nat} (h : ∃ l, s.launch n = some l ∧ P l) : ∃ l, s.makeEligible.launch n = some l ∧ P l := by
  unfold State.makeEligible
  generalize s.launches = xs
  induction xs generalizing s with
  | nil => exact h
  | cons x xs ih =>
    rw [List.foldl_cons]
    refine ih ?_
    obtain ⟨l, hl, hp⟩ := h
    split
    next l' hl' =>
      split
      next hw =>
        by_cases e : n = x.1
        · subst e
          cases hl.symm.trans hl'
          refine ⟨_, (State.launch_modLaunch_self _ _ _).trans (congrArg (Option.map _) hl), hP _ _ _ hw.1 hp⟩
        · exact ⟨l, (State.launch_modLaunch_of_ne s.tick _ e).trans hl, hp⟩
      · exact ⟨l, hl, hp⟩
    · exact ⟨l, hl, hp⟩

theorem State.tiles_makeEligible (s : State) : s.makeEligible.tiles = s.tiles := by
  unfold State.makeEligible
  generalize s.launches = xs
  induction xs generalizing s with
  | nil => rfl
  | cons x xs ih =>
    rw [List.foldl_cons, ih]
    split
    · split
      · exact State.tiles_modLaunch s.tick _ _
      · rfl
    · rfl

theorem State.tile_of_tiles {s u : State} (h : u.tiles = s.tiles) (t : Nat) : u.tile t = s.tile t := by simp [State.tile, h]

theorem State.checkTrigger_eq (s : State) (n : Nat) : ∃ f : Launch → Launch, s.checkTrigger n = s.modLaunch n f
    ∧ ∀ l, ∃ b, f l = { l with trig := b } := by
  refine ⟨_, rfl, fun l => ?_⟩
  dsimp only
  split
  · exact ⟨_, rfl⟩
  · exact ⟨l.trig, rfl⟩

/-! ## A launch that completes, R126 -/

/-- A tile that its launch leaves is free for the context; no other tile changes in this. -/
theorem State.leaveTile_launches (s : State) (t c : Nat) : (s.leaveTile t c).launches = s.launches :=
  ((State.sameLaunch_returnLines s t).trans (State.sameLaunch_cancelStreams _ t c)).1

theorem State.lidOf_leaveTile_self (s : State) (t : Nat) {c : Nat} (hc : c < 4) : (s.leaveTile t c).lidOf t c = none := by
  unfold State.leaveTile State.lidOf
  rw [State.tile_modTile_self]
  show Option.map _ (Tile.ctx (Tile.modCtx _ _ _) c).launch = _
  rw [Tile.ctx_modCtx_self _ _ hc]; rfl

theorem State.lidOf_leaveTile_of_ne (s : State) {t u : Nat} (c : Nat) (h : u ≠ t) : (s.leaveTile t c).lidOf u c = s.lidOf u c := by
  rw [← ((State.sameLaunch_returnLines s t).trans (State.sameLaunch_cancelStreams _ t c)).lidOf u c]
  unfold State.leaveTile State.lidOf
  rw [State.tile_modTile_of_ne _ _ h]

theorem State.lidOf_foldl_leaveTile (s : State) (ts : List Nat) {c : Nat} (hc : c < 4) (u : Nat) (h : u ∈ ts ∨ s.lidOf u c = none) :
    (ts.foldl (fun s t => s.leaveTile t c) s).lidOf u c = none := by
  induction ts generalizing s with
  | nil => exact h.resolve_left (by simp)
  | cons t ts ih =>
    rw [List.foldl_cons]
    refine ih _ ?_
    by_cases e : u = t
    · subst e; exact .inr (State.lidOf_leaveTile_self s u hc)
    · rcases h with h | h
      · exact .inl ((List.mem_cons.1 h).resolve_left e)
      · exact .inr ((State.lidOf_leaveTile_of_ne s c e).trans h)

theorem State.launches_foldl_leaveTile (s : State) (ts : List Nat) (c : Nat) : (ts.foldl (fun s t => s.leaveTile t c) s).launches = s.launches := by
  induction ts generalizing s with
  | nil => rfl
  | cons t ts ih => rw [List.foldl_cons, ih, State.leaveTile_launches]

/-- A launch that completes is done, and each of its tiles is free for its context. -/
theorem State.completeLaunch_spec {s : State} {n : Nat} {l : Launch} (h : s.launch n = some l) (hc : l.info.ctx < 4) :
    (∃ l', (s.completeLaunch n).launch n = some l' ∧ l'.phase = .done ∧ l'.trig = true)
      ∧ ∀ u ∈ rectangle l.ox l.oy l.info.w l.info.h, s.lidOf u l.info.ctx = some n → (s.completeLaunch n).lidOf u l.info.ctx = none := by
  unfold State.completeLaunch
  rw [h]
  dsimp only
  generalize hts : (rectangle l.ox l.oy l.info.w l.info.h).filter (fun t => s.lidOf t l.info.ctx == some n) = ts
  generalize hu : ts.foldl (fun s t => s.leaveTile t l.info.ctx) s = u
  have hl : u.launch n = some l := by rw [← hu, State.launch, State.launches_foldl_leaveTile]; exact h
  refine ⟨State.launch_makeEligible (P := fun l => l.phase = .done ∧ l.trig = true) (fun l o c hw hd => ?_) ?_, fun v hv hlid => ?_⟩
  · rw [hd.1] at hw; cases hw
  · exact ⟨_, (State.launch_modLaunch_self u n _).trans (congrArg (Option.map _) hl), rfl, rfl⟩
  · have htiles : (u.modLaunch n fun l => { l with phase := .done, trig := true }).makeEligible.tiles = u.tiles := by
      rw [State.tiles_makeEligible, State.tiles_modLaunch]
    rw [State.lidOf, State.tile_of_tiles htiles]
    show u.lidOf v l.info.ctx = none
    rw [← hu]
    refine State.lidOf_foldl_leaveTile s ts hc v (.inl ?_)
    rw [← hts]
    exact List.mem_filter.2 ⟨hv, by simp [hlid]⟩

/-! ## A tile that completes, R126 -/

/-- The tile is marked complete and triggered, and the launch has the tile among those that have ended. -/
def State.marked (s : State) (t c n : Nat) : State :=
  (((s.modTile t fun T => T.modCtx c fun x => { x with compl := true, trig := true }).modLaunch n fun l =>
    { l with ended := NSet.insert l.ended t }).checkTrigger n)

theorem State.launch_marked {s : State} {t c n : Nat} {l : Launch} (h : s.launch n = some l) :
    ∃ b, (s.marked t c n).launch n = some { l with ended := NSet.insert l.ended t, trig := b } := by
  unfold State.marked
  obtain ⟨f, hf, htrig⟩ := State.checkTrigger_eq ((s.modTile t fun T => T.modCtx c fun x => { x with compl := true, trig := true }).modLaunch n fun l =>
    { l with ended := NSet.insert l.ended t }) n
  have h : (s.modTile t fun T => T.modCtx c fun x => { x with compl := true, trig := true }).launch n = some l := h
  rw [hf, State.launch_modLaunch_self, State.launch_modLaunch_self, h]
  obtain ⟨b, hb⟩ := htrig { l with ended := NSet.insert l.ended t }
  exact ⟨b, by rw [Option.map_some, Option.map_some, hb]⟩

theorem State.tiles_marked (s : State) (t c n : Nat) :
    (s.marked t c n).tiles = (s.modTile t fun T => T.modCtx c fun x => { x with compl := true, trig := true }).tiles := by
  unfold State.marked State.checkTrigger
  rw [State.tiles_modLaunch, State.tiles_modLaunch]

theorem State.ctx_marked (s : State) (t n : Nat) {c : Nat} (hc : c < 4) :
    ((s.marked t c n).tile t).ctx c = { (s.tile t).ctx c with compl := true, trig := true } := by
  rw [State.tile_of_tiles (State.tiles_marked s t c n), State.tile_modTile_self, Tile.ctx_modCtx_self _ _ hc]

theorem State.lidOf_marked (s : State) (t n u c d : Nat) : (s.marked t c n).lidOf u d = s.lidOf u d := by
  rw [State.lidOf, State.lidOf, State.tile_of_tiles (State.tiles_marked s t c n)]
  by_cases e : u = t
  · subst e
    rw [State.tile_modTile_self]
    by_cases hd : d = c
    · subst hd
      by_cases h : d < 4
      · rw [Tile.ctx_modCtx_self _ _ h]
      · rw [Tile.modCtx, dif_neg h]
    · rw [Tile.ctx_modCtx_of_ne _ _ hd]
  · rw [State.tile_modTile_of_ne _ _ e]

/-- The barriers of a context that a tile no longer holds up are left. -/
def State.leaveBarriers (s : State) (t c : Nat) : State :=
  ((s.groupAt t c 0 0 true).flatMap fun u => ((s.tile u).ctx c).arrivals).foldl (fun s a => s.releaseBarrier t c a.bar a.lw a.lh a.whole) s

theorem State.sameLaunch_leaveBarriers (s : State) (t c : Nat) : s.SameLaunch (s.leaveBarriers t c) :=
  .foldl _ (fun s (a : Arrival) => State.sameLaunch_releaseBarrier s t c a.bar a.lw a.lh a.whole) _ s

theorem State.endTile_eq {s : State} {t c n : Nat} {l : Launch} (hlid : s.lidOf t c = some n)
    (hl : ((s.marked t c n).leaveBarriers t c).launch n = some l) :
    s.endTile t c = if (rectangle l.ox l.oy l.info.w l.info.h).all l.ended.contains then ((s.marked t c n).leaveBarriers t c).completeLaunch n
      else ((s.marked t c n).leaveBarriers t c).makeEligible := by
  have e : s.endTile t c = match ((s.marked t c n).leaveBarriers t c).launch n with
    | none => (s.marked t c n).leaveBarriers t c
    | some l => if (rectangle l.ox l.oy l.info.w l.info.h).all l.ended.contains then ((s.marked t c n).leaveBarriers t c).completeLaunch n
        else ((s.marked t c n).leaveBarriers t c).makeEligible := by
    unfold State.endTile
    rw [hlid]; rfl
  rw [e, hl]

theorem State.lt_of_lidOf {s : State} {t c n : Nat} (h : s.lidOf t c = some n) : c < 4 := by
  by_contra hc
  have e : (s.tile t).ctx c = {} := dif_neg hc
  rw [State.lidOf, e] at h
  cases h

end Sys2Proof.Machine

namespace Sys2Proof.Proofs
open Sys2Proof.Machine

/-- A tile completes for its launch, and with the last tile the launch completes. -/
theorem endTile_spec {s : State} {t n : Nat} {l : Launch} (hlid : s.lidOf t l.info.ctx = some n) (hl : s.launch n = some l) :
    let ts := State.rectangle l.ox l.oy l.info.w l.info.h
    let c := l.info.ctx
    let z := s.endTile t c
    if ∀ u ∈ ts, u = t ∨ u ∈ l.ended then
      (∃ l', z.launch n = some l' ∧ l'.phase = .done ∧ l'.trig = true) ∧ ∀ u ∈ ts, s.lidOf u c = some n → z.lidOf u c = none
    else ((z.tile t).ctx c).compl = true ∧ ((z.tile t).ctx c).trig = true ∧ ∃ l', z.launch n = some l' ∧ t ∈ l'.ended := by
  dsimp only
  have hc := State.lt_of_lidOf hlid
  obtain ⟨b, hb⟩ := State.launch_marked (t := t) (c := l.info.ctx) hl
  have hsame := State.sameLaunch_leaveBarriers (s.marked t l.info.ctx n) t l.info.ctx
  have hu := (hsame.launch n).trans hb
  have hall : (State.rectangle l.ox l.oy l.info.w l.info.h).all (NSet.insert l.ended t).contains = true
      ↔ ∀ u ∈ State.rectangle l.ox l.oy l.info.w l.info.h, u = t ∨ u ∈ l.ended := by
    simp [List.all_eq_true]
  rw [State.endTile_eq hlid hu]
  dsimp only
  generalize (s.marked t l.info.ctx n).leaveBarriers t l.info.ctx = u at hsame hu
  by_cases h : ∀ u ∈ State.rectangle l.ox l.oy l.info.w l.info.h, u = t ∨ u ∈ l.ended
  · rw [if_pos h, if_pos (hall.2 h)]
    obtain ⟨h1, h2⟩ := State.completeLaunch_spec hu hc
    exact ⟨h1, fun v hv e => h2 v hv (by rw [hsame.lidOf, State.lidOf_marked]; exact e)⟩
  · rw [if_neg h, if_neg (fun e => h (hall.1 e))]
    obtain ⟨-, htrig, hcompl⟩ := hsame.2 t l.info.ctx
    rw [State.ctx_marked s t n hc] at htrig hcompl
    rw [State.tile_of_tiles (State.tiles_makeEligible u)]
    exact ⟨hcompl, htrig, State.launch_makeEligible (P := fun l => t ∈ l.ended) (fun _ _ _ _ h => h) ⟨_, hu, by simp⟩⟩

theorem tileCompletions : Claims.tileCompletions := by
  intro s t c n l hlid hl
  dsimp only
  have hat : s.launchAt t c = some l := by rw [State.launchAt, hlid]; exact hl
  have he : s.tileComplete t c = if l.ended.contains t || l.saving || !s.tileQuiet t c then s else (s.settleTile t).endTile t c := by
    rw [State.tileComplete, hat]
  refine ⟨fun h => ⟨_, rfl, ?_⟩, fun hq hne hs hc => ⟨_, rfl, ?_⟩⟩
  · rw [he]
    exact if_pos (by rcases h with h | h | h <;> simp [h])
  · subst hc
    have hsame := State.sameLaunch_settleTile s t
    rw [he.trans (if_neg (by simp [hne, hs, hq]))]
    have h := endTile_spec (s := s.settleTile t) (t := t) (l := l) ((hsame.lidOf t _).trans hlid) ((hsame.launch n).trans hl)
    simp only [hsame.lidOf] at h
    exact h

/-- Settles O39, by the searches for the best task, and by what leaves the launches of the tiles alone. -/
theorem coreScheduling : Obligations.CoreScheduling := ⟨selection, stealing, tileCompletions⟩

end Sys2Proof.Proofs

end

section
/-! PROOFS. Banks, columns and the column area (R19, R197, R199, R200): O35. -/

set_option autoImplicit false

namespace Sys2Proof.Machine

/-! ## Entries that complete or stop the node, R190 and R201 -/

section
variable {s : State} {opc : Nat} {t : MxWord} {e : Entry} {i : Instr}

/-- An entry that changes only the node completes. -/
theorem completes_of_pure {k : Node → Entry → EntryOut} {n : Node} {ate : Nat} {rs : List Token} (h : s.AtHead opc t e)
    (he : exec i s = .next (s.nodePure opc t k)) (hk : k s.hereNode e = .done n ate rs) : NodeCompletes i s e n ate rs :=
  ⟨_, he.trans (by rw [nodePure_head h, hk]; rfl), (nodeCompleted_nodeDone s e n ate rs).1⟩

/-- An entry that may move tasks and memory runs at the head. -/
theorem exec_of_head {k : State → Nat → Node → Entry → State} (h : s.AtHead opc t e) (he : exec i s = settle (s.nodeRun opc t k)) :
    exec i s = settle (k s s.focus.tile s.hereNode e) := by
  rw [he, nodeRun_head h]

/-- The node's entry completes in a state that the same tile has the focus of. -/
theorem gives_nodeDone {u : State} {n : Node} {ate : Nat} {rs : List Token} {P : State → Prop} {tile : Nat} (ht : u.focus.tile = tile)
    (ha : u.absent = none) (he : exec i s = settle (u.nodeDone tile e n ate rs))
    (hP : NodeCompleted u (u.nodeDone tile e n ate rs) e n ate rs → P (u.nodeDone tile e n ate rs)) : Gives i s P := by
  subst ht
  obtain ⟨h, habs⟩ := nodeCompleted_nodeDone u e n ate rs
  exact ⟨_, he.trans (settle_of_absent (habs.trans ha)), hP h⟩

theorem gives_nodeFault {u : State} {cause val ate tile : Nat} (ht : u.focus.tile = tile) (ha : u.absent = none)
    (he : exec i s = settle (u.nodeFault tile e cause val ate)) : Gives i s fun z => NodeStopped u z e cause val ate := by
  subst ht
  obtain ⟨h, habs⟩ := nodeStopped_nodeFault u e cause val ate
  exact ⟨_, he.trans (settle_of_absent (habs.trans ha)), h⟩

theorem gives_waits (ha : s.absent = none) (he : exec i s = settle s) : Gives i s fun z => z = s :=
  ⟨s, he.trans (settle_of_absent ha), rfl⟩

end

/-! ## The cells and columns that a column token changes, R187, R199 -/

theorem SMap.get?_filter {α : Type} (p : Nat → Bool) (m : SMap α) (i : Nat) :
    SMap.get? (m.filter fun x => p x.1 : SMap α) i = if p i then SMap.get? m i else none := by
  induction m with
  | nil => simp [SMap.get?]
  | cons x m ih =>
    obtain ⟨j, v⟩ := x
    by_cases hj : p j = true
    · rw [List.filter_cons_of_pos (by simpa using hj)]
      by_cases e : j = i
      · subst e; simp [SMap.get?, hj]
      · simp only [SMap.get?, e, if_false, ih]
    · rw [List.filter_cons_of_neg (by simpa using hj), ih]
      by_cases e : j = i
      · subst e; simp [hj]
      · simp only [SMap.get?, e, if_false]

theorem cell_clearColumn (n : Node) (c r k : Nat) (hk : k < 128) : (n.clearColumn c).cell r k = if k = c then {} else n.cell r k := by
  have hi : (cellIndex r k) % 128 = k := by simp only [cellIndex]; omega
  unfold Node.clearColumn Node.cell
  rw [SMap.getD, SMap.get?_filter fun j => j % 128 != c, hi]
  by_cases e : k = c
  · simp [e]
  · simp [e, SMap.getD]

theorem column_setColumn (n : Node) (c : Nat) (x : Column) (k : Nat) : (n.setColumn c x).column k = if k = c then x else n.column k := by
  unfold Node.setColumn Node.column
  by_cases e : k = c
  · subst e; simp
  · rw [if_neg e]; exact SMap.getD_set_of_ne _ _ _ e

/-- The columns of a list set free. -/
theorem foldl_free (ks : List Nat) (n : Node) :
    (∀ k, (ks.foldl (fun n c => n.setColumn c .free) n).column k = if k ∈ ks then .free else n.column k)
      ∧ ({ ks.foldl (fun n c => n.setColumn c .free) n with cols := n.cols } : Node) = n := by
  induction ks generalizing n with
  | nil => exact ⟨fun _ => rfl, rfl⟩
  | cons c ks ih =>
    obtain ⟨h1, h2⟩ := ih (n.setColumn c .free)
    refine ⟨fun k => ?_, (congrArg (fun m : Node => ({ m with cols := n.cols } : Node)) h2 :)⟩
    rw [List.foldl_cons, h1, column_setColumn]
    by_cases e : k = c
    · simp [e]
    · simp [e]

/-- The node of a tile after the columns `ks` have been given to context `c`: those that were free are cleared. -/
structure Given (n m : Node) (c : BitVec 2) (ks : List Nat) : Prop where
  column : ∀ k, m.column k = if k ∈ ks then .owned c else n.column k
  cell   : ∀ r k, k < 128 → m.cell r k = if k ∈ ks ∧ n.column k = .free then {} else n.cell r k
  rest   : ({ m with cells := n.cells, cols := n.cols } : Node) = n

theorem Given.nil (n : Node) (c : BitVec 2) : Given n n c [] := ⟨fun _ => by simp, fun _ _ _ => by simp, rfl⟩

/-- One more column, of its own number, is given. -/
theorem Given.cons_free {n m : Node} {c : BitVec 2} {k : Nat} {ks : List Nat} (hk : k ∉ ks) (hf : n.column k = .free)
    (h : Given ((n.clearColumn k).setColumn k (.owned c)) m c ks) : Given n m c (k :: ks) := by
  refine ⟨fun j => ?_, fun r j hj => ?_, (congrArg (fun m : Node => ({ m with cells := n.cells, cols := n.cols } : Node)) h.rest :)⟩
  · rw [h.column, column_setColumn]
    by_cases e : j = k
    · simp [e]
    · simp [e, Node.clearColumn, Node.column]
  · rw [h.cell r j hj, column_setColumn]
    have hc : ((n.clearColumn k).setColumn k (.owned c)).cell r j = if j = k then {} else n.cell r j := cell_clearColumn n k r j hj
    rw [hc]
    by_cases e : j = k
    · subst e; simp [hk, hf]
    · simp [e, Node.clearColumn, Node.column]

theorem Given.cons_owned {n m : Node} {c : BitVec 2} {k : Nat} {ks : List Nat} (ho : n.column k = .owned c)
    (h : Given n m c ks) : Given n m c (k :: ks) := by
  refine ⟨fun j => ?_, fun r j hj => ?_, h.rest⟩
  · rw [h.column]
    by_cases e : j = k
    · subst e; simp [ho]
    · simp [e]
  · rw [h.cell r j hj]
    by_cases e : j = k
    · subst e; simp [ho]
    · simp [e]

/-- Columns that are free or the context's own are given to it, and nothing but the tile's node changes. -/
theorem State.allocColumns_clean {s : State} {tile : Nat} {c : BitVec 2} {all ks : List Nat} (hnd : ks.Nodup)
    (h : ∀ k ∈ ks, (s.node tile).column k = .free ∨ (s.node tile).column k = .owned c) :
    ∃ v, s.allocColumns tile c all ks = some v ∧ Given (s.node tile) (v.node tile) c ks ∧ ({ v with nodes := s.nodes } : State) = s
      ∧ ∀ k, k ≠ tile → v.node k = s.node k := by
  induction ks generalizing s with
  | nil => exact ⟨s, rfl, Given.nil _ c, rfl, fun _ _ => rfl⟩
  | cons k ks ih =>
    obtain ⟨hk, hnd⟩ := List.nodup_cons.1 hnd
    rcases h k List.mem_cons_self with hf | ho
    · let u := s.modNode tile fun n => (n.clearColumn k).setColumn k (.owned c)
      have hn : u.node tile = ((s.node tile).clearColumn k).setColumn k (.owned c) := State.node_modNode_self _ _ _
      obtain ⟨v, hv, hg, hr, ho⟩ := ih (s := u) hnd fun j hj => by
        have e : j ≠ k := fun e => hk (e ▸ hj)
        rw [hn, column_setColumn, if_neg e]
        exact h j (List.mem_cons_of_mem _ hj)
      refine ⟨v, ?_, Given.cons_free hk hf (hn ▸ hg), (congrArg (fun v : State => ({ v with nodes := s.nodes } : State)) hr :), fun j hj => ?_⟩
      · rw [State.allocColumns, hf]; exact hv
      · rw [ho j hj]; exact State.node_modNode_of_ne _ _ hj
    · obtain ⟨v, hv, hg, hr, hother⟩ := ih hnd fun j hj => h j (List.mem_cons_of_mem _ hj)
      exact ⟨v, by rw [State.allocColumns, ho]; exact hv, hg.cons_owned ho, hr, hother⟩

theorem MxWord.mem_cols {t : MxWord} {k : Nat} : k ∈ t.cols ↔ t.col0.toNat ≤ k ∧ k < t.col0.toNat + t.n := by
  simp only [MxWord.cols, List.mem_map, List.mem_range]
  constructor
  · rintro ⟨j, hj, rfl⟩; omega
  · intro h; exact ⟨k - t.col0.toNat, by omega, by omega⟩

theorem MxWord.nodup_cols (t : MxWord) : t.cols.Nodup :=
  List.nodup_range.map fun _ _ h => Nat.add_left_cancel h

/-- Another context's column: the first of the region, R199. -/
theorem State.othersColumn_some {n : Node} {t : MxWord} {c d : BitVec 2} {k : Nat} (hk : t.col0.toNat ≤ k ∧ k < t.col0.toNat + t.n)
    (ho : n.column k = .owned d) (hd : d ≠ c) (hfirst : ∀ j, t.col0.toNat ≤ j → j < k → ∀ d, n.column j = .owned d → d = c) :
    othersColumn n c t.cols = some k := by
  unfold othersColumn MxWord.cols
  rw [List.find?_map, List.find?_range_eq_some.2 ⟨?_, List.mem_range.2 (?_ : k - t.col0.toNat < t.n), fun j hj => ?_⟩]
  · simp; omega
  · have e : t.col0.toNat + (k - t.col0.toNat) = k := by omega
    simp only [Function.comp, e, ho]; simpa using hd
  · omega
  · have := hfirst (t.col0.toNat + j) (by omega) (by omega)
    simp only [Function.comp]
    cases hx : n.column (t.col0.toNat + j) with
    | owned d => simp [this d hx]
    | _ => rfl

theorem State.othersColumn_none {n : Node} {t : MxWord} {c : BitVec 2}
    (h : ∀ k ∈ t.cols, n.column k = .free ∨ n.column k = .owned c) : othersColumn n c t.cols = none := by
  refine List.find?_eq_none.2 fun k hk => ?_
  rcases h k hk with e | e <;> simp [e]

/-! ## Columns moved between the node and memory, R200 -/

theorem MemoryOnly.focus {s u : State} (h : MemoryOnly s u) : u.focus = s.focus := h.calm.1
theorem MemoryAbout.focus {s u : State} (h : MemoryAbout s u) : u.focus = s.focus := h.same State.focus fun _ _ _ _ _ _ _ _ _ _ _ _ _ => rfl

theorem State.focus_moveColumns {tile : Nat} {e : Entry} {write : Bool} {ks : List Nat} {s : State} {a : Nat} :
    (∀ u, s.moveColumns tile e write ks a = .ok u → u.focus = s.focus)
      ∧ ∀ cause va u, s.moveColumns tile e write ks a = .error (cause, va, u) → u.focus = s.focus := by
  induction ks generalizing s a with
  | nil => exact ⟨fun u h => by cases h; rfl, fun _ _ _ h => by cases h⟩
  | cons k ks ih =>
    have hprobe := (MemoryAbout.probeAll s (tileDie tile) e.tag.ctx.toNat { read := !write, write := write } (pieces 3 a 384)).focus
    have hhome (v : State) (ps : List (Space × Nat × Nat)) :
        MemoryOnly v (ps.foldl (fun s p => s.atHome (elemAgent (64 * tile + e.elem)) none p.1 p.2.1 p.2.2) v) := MemoryOnly.piecesHome v _ ps
    have hcorrect (v : State) (ps : List (Space × Nat × Nat)) :
        MemoryOnly v (ps.foldl (fun s p => s.correct (tileDie tile) p.1 p.2.1 p.2.2) v) := by
      refine MemoryOnly.foldl _ (fun s p => ?_) ps v
      exact MemoryOnly.correct s _ _ _ _
    have step {v : State} (hv : v.focus = s.focus) (b : Nat) :
        (∀ u, v.moveColumns tile e write ks b = .ok u → u.focus = s.focus)
          ∧ ∀ cause va u, v.moveColumns tile e write ks b = .error (cause, va, u) → u.focus = s.focus :=
      ⟨fun u h => (ih.1 u h).trans hv, fun cause va u h => (ih.2 cause va u h).trans hv⟩
    have stop {v : State} (hv : v.focus = s.focus) (x y : Nat) :
        (∀ u, (.error (x, y, v) : Except (Nat × Nat × State) State) = .ok u → u.focus = s.focus)
          ∧ ∀ cause va u, (.error (x, y, v) : Except (Nat × Nat × State) State) = .error (cause, va, u) → u.focus = s.focus :=
      ⟨fun _ h => (by cases h), fun _ _ _ h => (by cases h; exact hv)⟩
    rw [State.moveColumns]
    split
    next heq =>
      rw [heq] at hprobe
      exact stop hprobe _ _
    next ps v heq =>
      rw [heq] at hprobe
      have hat := (hhome v ps).focus.trans hprobe
      dsimp only
      split
      · exact step ((MemoryOnly.writePieces _ _ _ _).focus.trans hat) _
      · split
        · exact stop hat _ _
        · exact step (v := State.modNode _ _ _) ((hcorrect _ ps).focus.trans hat) _

end Sys2Proof.Machine

namespace Sys2Proof.Proofs
open Sys2Proof.Machine

theorem bankTokens : Claims.bankTokens := by
  intro s t e
  dsimp only
  have hcol : t.rcol = BitVec.ofNat 5 t.km1.toNat := rfl
  have hsync : mxSync t s.hereNode e = .done s.hereNode 0 [wordsReply e (BitVec.ofNat 5 t.km1.toNat) [0]] := by rw [mxSync, hcol]
  refine ⟨fun h hq => ⟨s.nodePure 15 t (mxScale t), rfl, ?_⟩, fun a l h hq => completes_of_pure (k := mxScale t) h rfl ?_,
    fun h => completes_of_pure (k := mxSelect t) h rfl ?_, fun h => completes_of_pure (k := mxFlip) h rfl rfl,
    fun h => completes_of_pure (k := mxStatus t) h rfl ?_, fun h => completes_of_pure (k := mxSync t) h rfl hsync,
    fun h => completes_of_pure (k := mxSync t) h rfl hsync, fun h => completes_of_pure (k := fun n _ => .done n 0 []) h rfl rfl⟩
  · rw [nodePure_head h, mxScale, hq]; rfl
  · rw [mxScale, hq]
  · rw [mxSelect]
    split <;> rfl
  · rw [mxStatus, List.countP_eq_length_filter, List.countP_eq_length_filter, hcol]
    have howned : (fun k => s.hereNode.column k == .owned e.tag.ctx) = fun k => decide (s.hereNode.column k = .owned e.tag.ctx) := by
      funext k; exact beq_eq_decide _ _
    rw [howned]; rfl

end Sys2Proof.Proofs

namespace Sys2Proof.Machine

/-! ## BLOAD, R197 -/

/-- The elements of the rows of a B operand written to the overlay, an absent one left as it is. -/
def State.loadRows (s : State) (c tile col w0 b : Nat) (rows : List (List (Option Nat))) : State :=
  rows.zipIdx.foldl (fun s r => r.1.zipIdx.foldl (fun s l =>
    match l.1 with | some p => s.bWrite c tile (col + l.2) w0 b r.2 p | none => s) s) s

theorem MemoryOnly.loadRows (s : State) (c tile col w0 b : Nat) (rows : List (List (Option Nat))) :
    MemoryOnly s (s.loadRows c tile col w0 b rows) := by
  refine MemoryOnly.foldl _ (fun s r => ?_) _ s
  refine MemoryOnly.foldl _ (fun s l => ?_) _ s
  split
  · unfold State.bWrite; exact MemoryOnly.performFor _ _ _ _ _ _
  · exact MemoryOnly.refl s

theorem State.bytes_foldl {α : Type} (f : State → α → State) (sp : Space) (hf : ∀ s x, ((f s x).store sp).bytes = (s.store sp).bytes) (l : List α)
    (s : State) : ((l.foldl f s).store sp).bytes = (s.store sp).bytes := by
  induction l generalizing s with
  | nil => rfl
  | cons x l ih => exact (ih _).trans (hf s x)

/-- BLOAD writes the overlay of its own tile and no other memory. -/
theorem State.bytes_loadRows (s : State) (c tile col w0 b : Nat) (rows : List (List (Option Nat))) {sp : Space} (h : sp ≠ .overlay tile) :
    ((s.loadRows c tile col w0 b rows).store sp).bytes = (s.store sp).bytes := by
  refine State.bytes_foldl _ sp (fun s r => ?_) _ s
  refine State.bytes_foldl _ sp (fun s l => ?_) _ s
  split
  · rw [State.bWrite, State.bytes_performFor, State.store_perform, if_neg fun e => h e.1]
  · rfl

/-- A completion in a state that differs from `s` in the node alone. -/
theorem NodeCompleted.of_nodes {s v z : State} {e : Entry} {m : Node} {ate : Nat} {rs : List Token} (hr : ({ v with nodes := s.nodes } : State) = s)
    (hother : ∀ k, k ≠ s.focus.tile → v.node k = s.node k) (h : NodeCompleted v z e m ate rs) : NodeCompleted s z e m ate rs := by
  have hfocus : v.focus = s.focus := (congrArg State.focus hr :)
  have helems : v.elems = s.elems := (congrArg State.elems hr :)
  have helem (g : Nat) : v.elem g = s.elem g := by simp [State.elem, helems]
  have hsource (g c col : Nat) : v.source g 6 c col = s.source g 6 c col := by
    show SMap.getD (v.elem g).ports _ {} = SMap.getD (s.elem g).ports _ {}
    rw [helem]
  obtain ⟨h1, h2, h3, h4, h5, h6⟩ := h
  rw [hfocus] at h2 h4 h5 h6
  simp only [helem] at h4 h5
  simp only [hsource] at h6
  refine ⟨h1, fun k hk => (h2 k hk).trans (hother k hk), ?_, h4, h5, h6⟩
  have e3 := congrArg (fun u : State => ({ u with nodes := s.nodes, elems := s.elems } : State)) h3
  exact e3.trans ((congrArg (fun u : State => ({ u with elems := s.elems } : State)) hr).trans rfl)

end Sys2Proof.Machine

namespace Sys2Proof.Proofs
open Sys2Proof.Machine

theorem bloadTokens (s : State) (t : MxWord) (e : Entry) :
    let c := e.tag.ctx
    let n := s.hereNode
    let tile := s.focus.tile
    let q := n.fifo e.elem
    let f := t.fmt.toNat
    let x := n.ctxRegs c
    let w0 := (if xor x.cb t.acc then x.base1 else x.base0) + t.boff.toNat
    let words := (t.k * fmtBits f + 31) / 32
    s.AtHead 20 t e → (3072 < w0 + words → NodeStops (.bload t) s e 0x01 0 0)
      ∧ (w0 + words ≤ 3072 → Owns n t c → takeVectors q t.k t.n = none → Gives (.bload t) s fun z => z = s)
      ∧ (∀ vs i, w0 + words ≤ 3072 → Owns n t c → takeVectors q t.k t.n = some vs → State.loadLanes f vs t.n = .error i →
          NodeStops (.bload t) s e 0x01 0 i)
      ∧ (∀ vs rows, w0 + words ≤ 3072 → Owns n t c → takeVectors q t.k t.n = some vs → State.loadLanes f vs t.n = .ok rows →
          Gives (.bload t) s fun z => NodeCompleted (s.loadRows c.toNat tile t.col0.toNat w0 (fmtBits f) rows) z e n
              ((vs.map List.length).foldl (· + ·) 0) []
            ∧ ∀ sp, sp ≠ .overlay tile → (z.store sp).bytes = (s.store sp).bytes) := by
  dsimp only
  intro h
  generalize hw : (if xor (s.hereNode.ctxRegs e.tag.ctx).cb t.acc then (s.hereNode.ctxRegs e.tag.ctx).base1
    else (s.hereNode.ctxRegs e.tag.ctx).base0) + t.boff.toNat = w0
  have he : exec (.bload t) s = settle (s.mxLoad s.focus.tile t s.hereNode e) :=
      exec_of_head (k := fun s tile n e => s.mxLoad tile t n e) h rfl
  have hs : bStart (s.hereNode.ctxRegs e.tag.ctx) t.acc t.boff.toNat = w0 := hw
  have fits (hfit : w0 + (t.k * fmtBits t.fmt.toNat + 31) / 32 ≤ 3072) (ho : Owns s.hereNode t e.tag.ctx) :
      s.mxLoad s.focus.tile t s.hereNode e = match takeVectors (s.hereNode.fifo e.elem) t.k t.n with
        | none => s
        | some vs =>
          match State.loadLanes t.fmt.toNat vs t.n with
          | .error i => s.nodeFault s.focus.tile e 0x01 0 i
          | .ok rows => (s.loadRows e.tag.ctx.toNat s.focus.tile t.col0.toNat w0 (fmtBits t.fmt.toNat) rows).nodeDone s.focus.tile e s.hereNode
              ((vs.map List.length).foldl (· + ·) 0) [] := by
    unfold State.mxLoad
    simp only [hs]
    rw [if_neg (by unfold bWords; omega), foreignColumn_eq_none.2 ho]
    rfl
  refine ⟨fun hbig => ?_, fun hfit ho hq => ?_, fun vs i hfit ho hq hl => ?_, fun vs rows hfit ho hq hl => ?_⟩
  · refine gives_nodeFault rfl h.here (he.trans (congrArg settle ?_))
    unfold State.mxLoad
    simp only [hs]
    rw [if_pos (by unfold bWords; omega)]
  · exact gives_waits h.here (he.trans (congrArg settle ((fits hfit ho).trans (by rw [hq]))))
  · exact gives_nodeFault rfl h.here (he.trans (congrArg settle ((fits hfit ho).trans (by rw [hq]; simp only [hl]))))
  · have hm := MemoryOnly.loadRows s e.tag.ctx.toNat s.focus.tile t.col0.toNat w0 (fmtBits t.fmt.toNat) rows
    refine gives_nodeDone (congrArg Focus.tile hm.focus) (hm.calm.2.1.trans h.here) (he.trans (congrArg settle ((fits hfit ho).trans (by rw [hq]; simp only [hl]))))
      fun hc => ⟨hc, fun sp hsp => ?_⟩
    rw [← State.bytes_loadRows s e.tag.ctx.toNat s.focus.tile t.col0.toNat w0 (fmtBits t.fmt.toNat) rows hsp]
    cases sp <;> rfl

theorem columnTokens : Claims.columnTokens := by
  intro s t e
  obtain hb := bloadTokens s t e
  dsimp only at hb ⊢
  have hcols : ∀ k, k ∈ t.cols ↔ t.col0.toNat ≤ k ∧ k < t.col0.toNat + t.n := fun k => MxWord.mem_cols
  have hfreed (n : Node) : (∀ k, (t.cols.foldl (fun n c => n.setColumn c .free) n).column k
        = if t.col0.toNat ≤ k ∧ k < t.col0.toNat + t.n then .free else n.column k)
      ∧ ({ t.cols.foldl (fun n c => n.setColumn c .free) n with cols := n.cols } : Node) = n := by
    have := foldl_free t.cols n
    simpa only [hcols] using this
  have hgiven {m : Node} (hg : Given s.hereNode m e.tag.ctx t.cols) :
      (∀ k, m.column k = if t.col0.toNat ≤ k ∧ k < t.col0.toNat + t.n then .owned e.tag.ctx else s.hereNode.column k)
        ∧ (∀ r k, k < 128 → m.cell r k
            = if (t.col0.toNat ≤ k ∧ k < t.col0.toNat + t.n) ∧ s.hereNode.column k = .free then {} else s.hereNode.cell r k)
        ∧ ({ m with cells := s.hereNode.cells, cols := s.hereNode.cols } : Node) = s.hereNode := by
    obtain ⟨h1, h2, h3⟩ := hg
    simp only [hcols] at h1 h2
    exact ⟨h1, h2, h3⟩
  refine ⟨fun h => (hb h).1, fun h => (hb h).2.1, fun vs i h => (hb h).2.2.1 vs i, fun vs rows h => (hb h).2.2.2 vs rows,
    fun k d h hk ho hd hfirst => ?_, fun h hclean => ?_, fun h ho => ?_, fun i hi h hq => ?_, fun i hi a l h hq hbad => ?_,
    fun a l hq hal => ⟨fun h ho => ?_, fun h hclean => ?_⟩⟩
  · have he : exec (.calloc t) s = settle (s.mxAlloc s.focus.tile t s.hereNode e) :=
      exec_of_head (k := fun s tile n e => s.mxAlloc tile t n e) h rfl
    refine gives_nodeFault rfl h.here (he.trans (congrArg settle ?_))
    rw [State.mxAlloc, State.othersColumn_some hk ho hd hfirst]
  · have he : exec (.calloc t) s = settle (s.mxAlloc s.focus.tile t s.hereNode e) :=
      exec_of_head (k := fun s tile n e => s.mxAlloc tile t n e) h rfl
    have hclean' : ∀ k ∈ t.cols, s.hereNode.column k = .free ∨ s.hereNode.column k = .owned e.tag.ctx := fun k hk => hclean k ((hcols k).1 hk)
    obtain ⟨v, hv, hg, hr, hother⟩ := State.allocColumns_clean (all := t.cols) (MxWord.nodup_cols t) hclean'
    have hft : v.focus.tile = s.focus.tile := (congrArg (fun v : State => v.focus.tile) hr :)
    have ha : v.absent = s.absent := (congrArg State.absent hr :)
    refine ⟨v.node s.focus.tile, hgiven hg, gives_nodeDone hft (ha.trans h.here) (he.trans (congrArg settle ?_)) (NodeCompleted.of_nodes (v := v) hr hother)⟩
    rw [State.mxAlloc, State.othersColumn_none hclean', hv]
  · have he : exec (.cfree t) s = settle (s.mxFree s.focus.tile t s.hereNode e) :=
      exec_of_head (k := fun s tile n e => s.mxFree tile t n e) h rfl
    obtain ⟨h1, h2⟩ := hfreed s.hereNode
    refine ⟨_, h1, h2, gives_nodeDone rfl h.here (he.trans (congrArg settle ?_)) id⟩
    rw [State.mxFree, foreignColumn_eq_none.2 ho]
  · simp only [List.mem_cons, List.not_mem_nil, or_false] at hi
    rcases hi with rfl | rfl
    · have he := exec_of_head (i := .cpark t) (k := fun s tile n e => s.mxPark tile t n e) h rfl
      exact gives_waits h.here (he.trans (congrArg settle (by rw [State.mxPark, hq])))
    · have he := exec_of_head (i := .cfetch t) (k := fun s tile n e => s.mxFetch tile t n e) h rfl
      exact gives_waits h.here (he.trans (congrArg settle (by rw [State.mxFetch, hq])))
  · simp only [List.mem_cons, List.not_mem_nil, or_false] at hi
    rcases hi with rfl | rfl
    · have he := exec_of_head (i := .cpark t) (k := fun s tile n e => s.mxPark tile t n e) h rfl
      exact gives_nodeFault rfl h.here (he.trans (congrArg settle (by rw [State.mxPark, hq]; exact if_pos hbad)))
    · have he := exec_of_head (i := .cfetch t) (k := fun s tile n e => s.mxFetch tile t n e) h rfl
      exact gives_nodeFault rfl h.here (he.trans (congrArg settle (by rw [State.mxFetch, hq]; exact if_pos hbad)))
  · have he := exec_of_head (i := .cpark t) (k := fun s tile n e => s.mxPark tile t n e) h rfl
    have hpark : s.mxPark s.focus.tile t s.hereNode e = match s.moveColumns s.focus.tile e true t.cols (a.token.lane 64 0) with
        | .error (cause, va, s') => s'.nodeFault s.focus.tile e cause va 1
        | .ok s' => s'.nodeDone s.focus.tile e (t.cols.foldl (fun n c => n.setColumn c .free) (s'.node s.focus.tile)) 1 [] := by
      rw [State.mxPark, hq]
      dsimp only
      rw [if_neg (show ¬ State.parkAddress a % 128 ≠ 0 from not_not.2 hal), foreignColumn_eq_none.2 ho]
      rfl
    refine ⟨fun u hu ha => ?_, fun cause va u hu ha => ?_⟩
    · have hf := congrArg Focus.tile (State.focus_moveColumns.1 u hu)
      have hn : u.node s.focus.tile = u.hereNode := by rw [← hf]; rfl
      refine gives_nodeDone hf ha (he.trans (congrArg settle (hpark.trans (by rw [hu])))) fun hc => ?_
      obtain ⟨h1, h2⟩ := hfreed u.hereNode
      exact ⟨_, h1, h2, hn ▸ hc⟩
    · have hf := congrArg Focus.tile (State.focus_moveColumns.2 cause va u hu)
      exact gives_nodeFault hf ha (he.trans (congrArg settle (hpark.trans (by rw [hu]))))
  · have he := exec_of_head (i := .cfetch t) (k := fun s tile n e => s.mxFetch tile t n e) h rfl
    have hclean' : ∀ k ∈ t.cols, s.hereNode.column k = .free ∨ s.hereNode.column k = .owned e.tag.ctx := fun k hk => hclean k ((hcols k).1 hk)
    obtain ⟨v, hv, hg, hr, hother⟩ := State.allocColumns_clean (all := t.cols) (MxWord.nodup_cols t) hclean'
    have hvf : v.focus = s.focus := (congrArg State.focus hr :)
    have hvn : v.node s.focus.tile = v.hereNode := by rw [← hvf]; rfl
    refine ⟨v, hvn ▸ hgiven hg, hr, hother, fun u hu ha => ?_⟩
    have hf := congrArg Focus.tile ((State.focus_moveColumns.1 u hu).trans hvf)
    have hn : u.node s.focus.tile = u.hereNode := by rw [← hf]; rfl
    refine gives_nodeDone hf ha (n := u.node s.focus.tile) (he.trans (congrArg settle ?_)) fun hc => by rw [hn] at hc ⊢; exact hc
    rw [State.mxFetch, hq]
    dsimp only
    rw [if_neg (show ¬ State.parkAddress a % 128 ≠ 0 from not_not.2 hal), State.othersColumn_none hclean']
    have hu' : v.moveColumns s.focus.tile e false t.cols (State.parkAddress a) = .ok u := hu
    simp only [hv, hu']

end Sys2Proof.Proofs

namespace Sys2Proof.Machine

/-! ## The bytes of a column, R200 -/

/-- The number whose digits of `w` bits, lowest first, are `f 0` to `f (n - 1)`. -/
def digits (w : Nat) (f : Nat → Nat) : Nat → Nat
  | 0 => 0
  | n + 1 => digits w f n + 2 ^ (w * n) * f n

theorem foldl_digits (w lo : Nat) (f : Nat → Nat) (n a : Nat) :
    (List.range n).foldl (fun x r => x + f r <<< (lo + w * r)) a = a + 2 ^ lo * digits w f n := by
  induction n with
  | zero => simp [digits]
  | succ n ih =>
    rw [List.range_succ, List.foldl_append, ih, List.foldl_cons, List.foldl_nil, Nat.shiftLeft_eq, Nat.pow_add, digits]
    ring

theorem digits_lt {w : Nat} {f : Nat → Nat} (hf : ∀ r, f r < 2 ^ w) (n : Nat) : digits w f n < 2 ^ (w * n) := by
  induction n with
  | zero => simp [digits]
  | succ n ih =>
    have h : 2 ^ (w * n) * (f n + 1) ≤ 2 ^ (w * n) * 2 ^ w := Nat.mul_le_mul_left _ (hf n)
    rw [digits, Nat.mul_succ, Nat.pow_add]
    rw [Nat.mul_add, Nat.mul_one] at h
    omega

/-- Each digit is read back at its place. -/
theorem digits_div_mod {w : Nat} {f : Nat → Nat} (hf : ∀ r, f r < 2 ^ w) {n r : Nat} (hr : r < n) : digits w f n / 2 ^ (w * r) % 2 ^ w = f r := by
  induction n with
  | zero => omega
  | succ n ih =>
    rw [digits]
    rcases Nat.lt_succ_iff_lt_or_eq.1 hr with h | rfl
    · obtain ⟨k, rfl⟩ : ∃ k, n = r + (k + 1) := ⟨n - r - 1, by omega⟩
      have e : 2 ^ (w * (r + (k + 1))) * f (r + (k + 1)) = 2 ^ (w * r) * (2 ^ w * (2 ^ (w * k) * f (r + (k + 1)))) := by
        rw [← Nat.mul_assoc, ← Nat.mul_assoc, ← Nat.pow_add, ← Nat.pow_add]
        congr 2; ring
      rw [e, Nat.add_mul_div_left _ _ (Nat.two_pow_pos _), Nat.add_mul_mod_self_left]
      exact ih h
    · rw [Nat.add_mul_div_left _ _ (Nat.two_pow_pos _), Nat.div_eq_of_lt (digits_lt hf r), Nat.zero_add, Nat.mod_eq_of_lt (hf r)]

/-- The status halfword of a cell, R200. -/
def Cell.status (x : Cell) : Nat := (if x.err then 32768 else 0) + x.orig.toNat * 4096 + x.oitr.toNat

theorem Cell.status_lt (x : Cell) : x.status < 2 ^ 16 := by
  have h1 := x.orig.isLt
  have h2 := x.oitr.isLt
  unfold Cell.status
  split <;> omega

/-- A column's bytes are the digits of its values, and above them those of its status halfwords. -/
theorem columnNat_eq (n : Node) (k : Nat) : State.columnNat n k
    = digits 32 (fun r => (n.cell r k).value.toNat) 64 + 2 ^ 2048 * digits 16 (fun r => (n.cell r k).status) 64 := by
  have hv := foldl_digits 32 0 (fun r => (n.cell r k).value.toNat) 64 0
  simp only [Nat.zero_add, Nat.pow_zero, Nat.one_mul] at hv
  have hs := foldl_digits 16 2048 (fun r => (n.cell r k).status) 64 (digits 32 (fun r => (n.cell r k).value.toNat) 64)
  rw [← hs, ← hv]
  rfl

theorem columnNat_value (n : Node) (k : Nat) {r : Nat} (hr : r < 64) :
    State.columnNat n k / 2 ^ (32 * r) % 2 ^ 32 = (n.cell r k).value.toNat := by
  obtain ⟨j, hj⟩ : ∃ j, 2048 = 32 * r + 32 * (j + 1) := ⟨63 - r, by omega⟩
  have e (S : Nat) : 2 ^ 2048 * S = 2 ^ (32 * r) * (2 ^ 32 * (2 ^ (32 * j) * S)) := by
    rw [← Nat.mul_assoc, ← Nat.mul_assoc, ← Nat.pow_add, ← Nat.pow_add, hj]
    congr 2; ring
  rw [columnNat_eq, e, Nat.add_mul_div_left _ _ (Nat.two_pow_pos _), Nat.add_mul_mod_self_left]
  exact digits_div_mod (f := fun r => (n.cell r k).value.toNat) (fun r => (n.cell r k).value.isLt) hr

/-- What stands above a number of `p` bits is read there. -/
theorem add_two_pow_mul_div {p q v x : Nat} (h : v < 2 ^ p) : (v + 2 ^ p * x) / 2 ^ (p + q) = x / 2 ^ q := by
  rw [Nat.pow_add, ← Nat.div_div_eq_div_mul, Nat.add_mul_div_left _ _ (Nat.two_pow_pos _), Nat.div_eq_of_lt h, Nat.zero_add]

theorem columnNat_status (n : Node) (k : Nat) {r : Nat} (hr : r < 64) :
    State.columnNat n k / 2 ^ (2048 + 16 * r) % 2 ^ 16 = (n.cell r k).status := by
  have hlt := digits_lt (f := fun r => (n.cell r k).value.toNat) (fun r => (n.cell r k).value.isLt) 64
  rw [columnNat_eq, add_two_pow_mul_div hlt]
  exact digits_div_mod (f := fun r => (n.cell r k).status) (fun r => (n.cell r k).status_lt) hr

/-- The cell that CFETCH makes of row `r` of the bytes `x`. -/
def cellOfNat (x r : Nat) : Cell :=
  let st := x >>> (2048 + 16 * r) % 65536
  ⟨BitVec.ofNat 32 (x >>> (32 * r)), decide (32768 ≤ st), BitVec.ofNat 3 (st / 4096), BitVec.ofNat 12 st⟩

theorem cell_columnOfNat (m : Node) {k : Nat} (hk : k < 128) (x : Nat) {r : Nat} (hr : r < 64) : (State.columnOfNat m k x).cell r k = cellOfNat x r := by
  have key (n : Nat) : ((List.range n).foldl (fun m r => m.setCell r k (cellOfNat x r)) m).cell r k = if r < n then cellOfNat x r else m.cell r k := by
    induction n with
    | zero => rfl
    | succ n ih =>
      rw [List.range_succ, List.foldl_append, List.foldl_cons, List.foldl_nil, cell_setCell _ _ _ _ _ _ hk hk, ih]
      by_cases e : r = n
      · subst e; simp
      · rw [if_neg fun h => e h.1]
        by_cases h : r < n
        · rw [if_pos h, if_pos (by omega)]
        · rw [if_neg h, if_neg (by omega)]
  exact (key 64).trans (if_pos hr)

/-- What CPARK wrote of a cell CFETCH reads back. -/
theorem cellOfNat_columnNat (n : Node) (k : Nat) {r : Nat} (hr : r < 64) : cellOfNat (State.columnNat n k) r = n.cell r k := by
  have hv := columnNat_value n k hr
  have hs := columnNat_status n k hr
  have h65536 : (65536 : Nat) = 2 ^ 16 := rfl
  unfold cellOfNat
  simp only [Nat.shiftRight_eq_div_pow, h65536, hs]
  generalize n.cell r k = c at hv hs
  obtain ⟨v, err, orig, itr⟩ := c
  have h1 := orig.isLt
  have h2 := itr.isLt
  simp only at hv
  simp only [Cell.status, Cell.mk.injEq]
  refine ⟨?_, ?_, ?_, ?_⟩
  · apply BitVec.eq_of_toNat_eq
    rw [BitVec.toNat_ofNat, hv]
  · cases err
    · exact decide_eq_false (by simp only [Bool.false_eq_true, if_false]; omega)
    · exact decide_eq_true (by simp only [if_true]; omega)
  · apply BitVec.eq_of_toNat_eq
    rw [BitVec.toNat_ofNat]
    cases err <;> simp <;> omega
  · apply BitVec.eq_of_toNat_eq
    rw [BitVec.toNat_ofNat]
    cases err <;> simp <;> omega

end Sys2Proof.Machine

namespace Sys2Proof.Proofs
open Sys2Proof.Machine

theorem columnBytes : Claims.columnBytes := by
  intro n k hk
  dsimp only
  refine ⟨fun r hr => ⟨columnNat_value n k hr, ?_⟩, fun m r hr => ?_⟩
  · rw [columnNat_status n k hr, Cell.status]
    cases (n.cell r k).err <;> simp [bit] <;> omega
  · rw [cell_columnOfNat m hk _ hr, cellOfNat_columnNat n k hr]

/-- Settles O35: each token completes or stops the node, and a column's bytes are digits of a number that are read back at their places. -/
theorem banksAndColumns : Obligations.BanksAndColumns := ⟨bankTokens, columnTokens, columnBytes⟩

end Sys2Proof.Proofs

end

section
/-! PROOFS. Beats, tokens, switches, loops and edges (R109 to R114, R151, R172, R184): O40. -/

set_option autoImplicit false

namespace Sys2Proof.Machine

/-! ## Beats at the tile input, R15 and R16 -/

/-- What `beatArrival` makes of its tile: the beats of the oldest bound colour enter their channel. -/
def Tile.arrived (T : Tile) : Tile :=
  match T.held.find? fun b => (T.binding b.tag.ctx.toNat b.tag.col.toNat).isSome with
  | some b => T.admitHeld b.tag.ctx.toNat b.tag.col.toNat
  | none => T

theorem State.tile_beatArrival (s : State) (t u : Nat) : (s.beatArrival t).tile u = (s.modTile t Tile.arrived).tile u := rfl

/-- Beats of colours that are not bound stay at the tile input. -/
theorem State.tile_beatArrival_of_none {s : State} {t : Nat}
    (h : (s.tile t).held.find? (fun b => ((s.tile t).binding b.tag.ctx.toNat b.tag.col.toNat).isSome) = none) (u : Nat) :
    (s.beatArrival t).tile u = s.tile u := by
  rw [State.tile_beatArrival]
  by_cases e : u = t
  · subst e; rw [State.tile_modTile_self, Tile.arrived, h]
  · exact State.tile_modTile_of_ne _ _ e

/-- The oldest beat of a bound colour has the beats of that colour enter their channel. -/
theorem State.tile_beatArrival_of_some {s : State} {t : Nat} {b : Beat}
    (h : (s.tile t).held.find? (fun b => ((s.tile t).binding b.tag.ctx.toNat b.tag.col.toNat).isSome) = some b) :
    (s.beatArrival t).tile t = (s.tile t).admitHeld b.tag.ctx.toNat b.tag.col.toNat ∧ ∀ u, u ≠ t → (s.beatArrival t).tile u = s.tile u := by
  refine ⟨?_, fun u hu => ?_⟩
  · rw [State.tile_beatArrival, State.tile_modTile_self, Tile.arrived, h]
  · rw [State.tile_beatArrival, State.tile_modTile_of_ne _ _ hu]

/-! ## The throttle, R113 -/

theorem ElemCtx.recover_of_not {x : ElemCtx} {cyc : BitVec 64} {n : Nat}
    (h : ¬ ∃ t, SMap.get? x.throttles n = some t ∧ 1024 ≤ (cyc - t.calm).toNat) : x.recover cyc n = x := by
  unfold ElemCtx.recover
  split
  · rfl
  next t ht => rw [if_pos (by by_contra hc; exact h ⟨t, ht, by omega⟩)]

/-- A source that has been calm long enough: its throttle ends at the depth, or its effective depth doubles. -/
theorem ElemCtx.recover_of_calm {x : ElemCtx} {cyc : BitVec 64} {n : Nat} {t : Throttle} (ht : SMap.get? x.throttles n = some t)
    (h : 1024 ≤ (cyc - t.calm).toNat) : x.recover cyc n
      = { x with throttles := if x.depth n ≤ 2 * x.eff n then SMap.erase x.throttles n
            else SMap.set x.throttles n { t with eff := 2 * x.eff n, calm := cyc } } := by
  unfold ElemCtx.recover
  rw [ht]
  dsimp only
  rw [if_neg (by omega)]
  split <;> rfl

theorem ElemCtx.eff_of_throttles {x : ElemCtx} {l : SMap Throttle} {n : Nat} : ({ x with throttles := l } : ElemCtx).eff n
    = match SMap.get? l n with | some t => min t.eff (x.depth n) | none => x.depth n := rfl

theorem ElemCtx.eff_recover {x : ElemCtx} {cyc : BitVec 64} {n : Nat} (h : ∃ t, SMap.get? x.throttles n = some t ∧ 1024 ≤ (cyc - t.calm).toNat) :
    (x.recover cyc n).eff n = min (x.depth n) (2 * x.eff n) ∧ (∀ k, k ≠ n → (x.recover cyc n).eff k = x.eff k)
      ∧ ∀ t, SMap.get? (x.recover cyc n).throttles n = some t → t.calm = cyc := by
  obtain ⟨t, ht, hc⟩ := h
  rw [ElemCtx.recover_of_calm ht hc]
  by_cases hd : x.depth n ≤ 2 * x.eff n
  · rw [if_pos hd]
    have hn : SMap.get? (SMap.erase x.throttles n) n = none := by rw [SMap.get?_erase, if_pos rfl]
    refine ⟨?_, fun k hk => ?_, fun t' h' => ?_⟩
    · rw [ElemCtx.eff_of_throttles, hn]; exact (Nat.min_eq_left hd).symm
    · rw [ElemCtx.eff_of_throttles, SMap.get?_erase, if_neg hk]; rfl
    · rw [hn] at h'; cases h'
  · rw [if_neg hd]
    refine ⟨?_, fun k hk => ?_, fun t' h' => ?_⟩
    · rw [ElemCtx.eff_of_throttles, SMap.get?_set_self]; exact Nat.min_comm _ _
    · rw [ElemCtx.eff_of_throttles, SMap.get?_set_of_ne _ _ hk]; rfl
    · rw [SMap.get?_set_self] at h'; cases h'; rfl

theorem ElemCtx.recover_rest (x : ElemCtx) (cyc : BitVec 64) (n : Nat) : ({ x.recover cyc n with throttles := x.throttles } : ElemCtx) = x := by
  unfold ElemCtx.recover
  split
  · rfl
  · split
    · rfl
    · split <;> rfl

/-- A change of one element context that leaves it as it is. -/
theorem State.ectx_modEctx_of_eq (s : State) (g c : Nat) {f : ElemCtx → ElemCtx} (h : f (s.ectx g c) = s.ectx g c) (k d : Nat) :
    (s.modEctx g c f).ectx k d = s.ectx k d := by
  by_cases e : 4 * k + d = 4 * g + c
  · have h1 : (s.modEctx g c f).ectx k d = (s.modEctx g c f).ectx g c := by simp only [State.ectx, e]
    have h2 : s.ectx k d = s.ectx g c := by simp only [State.ectx, e]
    rw [h1, h2, State.ectx_modEctx_self, h]
  · exact State.ectx_modEctx_of_ne _ _ e

/-! ## Loops, R114, R115 and R168 -/

theorem ElemCtx.slot_of_loop {x : ElemCtx} {n : Nat} {l : Loop} (h : x.loop n = some l) : l.slot = n := by
  have := List.find?_some h
  simpa using this

theorem ElemCtx.loop_setLoop (x : ElemCtx) (l : Loop) : (x.setLoop l).loop l.slot = some l := by
  unfold ElemCtx.loop ElemCtx.setLoop
  rw [List.find?_append, List.find?_eq_none.2]
  · simp
  · intro k hk
    simpa using (List.mem_filter.1 hk).2

/-- What `deliver` makes of a token's destinations, R44 and R173, where the element's context was changed before. -/
theorem left_deliver (s : State) (g c n : Nat) (dst : BitVec 4) (t : Token) (f : ElemCtx → ElemCtx) (hh : (f (s.ectx g c)).headers = (s.ectx g c).headers) :
    Claims.Left s ((s.modEctx g c f).deliver g c n dst dst t) g c n dst t
      ∧ ∀ m, (((s.modEctx g c f).deliver g c n dst dst t).ectx g c).loop m = (f (s.ectx g c)).loop m := by
  by_cases hd : dst = 0
  · subst hd
    refine ⟨⟨fun h => absurd rfl h, fun _ => ⟨((s.modEctx g c f).elem g).seq, ?_⟩⟩, fun m => ?_⟩
    · rw [State.deliver, if_pos rfl, ectx_modElem, State.ectx_modEctx_self, State.ectx_modEctx_self]
      show SMap.get? (SMap.set _ _ _) _ = _
      rw [SMap.get?_set_self, hh]
    · rw [State.deliver, if_pos rfl, ectx_modElem, State.ectx_modEctx_self, State.ectx_modEctx_self]; rfl
  · obtain ⟨ho, he⟩ := edges_foldl g c t.tag.col.toNat t.toBeats t.tag.col.isLt ((s.elem g).resultPorts c t.tag.col.toNat dst)
      (maskPorts_spec _).1 (maskPorts_spec _).2 (s.modEctx g c f)
    have hdel : (s.modEctx g c f).deliver g c n dst dst t = ((s.elem g).resultPorts c t.tag.col.toNat dst).foldl
        (fun s p => s.modEdge g c t.tag.col.toNat p fun l => { l with beats := l.beats ++ t.toBeats }) (s.modEctx g c f) := by
      rw [State.deliver, if_neg hd]; rfl
    rw [hdel]
    refine ⟨⟨fun _ d col p _ hcol hp => he d col p hcol hp, fun h => absurd h hd⟩, fun m => ?_⟩
    have hx := congrArg State.ectxs ho.1
    simp only at hx
    rw [State.ectx, hx]
    show ((s.modEctx g c f).ectx g c).loop m = _
    rw [State.ectx_modEctx_self]

theorem Loop.more_iff {l : Loop} : l.more = true ↔ l.next < l.bound ∧ ∀ k, l.stop = some k → l.next ≤ k := by
  unfold Loop.more
  cases l.stop <;> simp

/-! ## EDGEDEPTH, R184 -/

theorem Tile.running_of_first {T : Tile} {n : Nat} (hn : n < 32) (hr : (T.task n).state = .run) (hfirst : ∀ j < n, (T.task j).state ≠ .run) :
    T.running = some n := by
  rw [Tile.running, List.find?_range_eq_some]
  exact ⟨by simp [hr], List.mem_range.2 hn, fun j hj => by simp [hfirst j hj]⟩

end Sys2Proof.Machine

namespace Sys2Proof.Proofs
open Sys2Proof.Machine

theorem arrivals : Claims.arrivals := by
  intro s t c col n
  dsimp only
  refine fun h => ⟨⟨_, rfl, State.tile_beatArrival_of_none (List.find?_eq_none.2 fun b hb => by simp [h b hb])⟩, ?_⟩
  rintro b rest pre hheld hpre rfl rfl hb
  have hfind : (s.tile t).held.find? (fun b => ((s.tile t).binding b.tag.ctx.toNat b.tag.col.toNat).isSome) = some b := by
    rw [hheld, List.find?_append, List.find?_eq_none.2 fun x hx => by simp [hpre x hx]]
    simp [hb]
  obtain ⟨ht, hother⟩ := State.tile_beatArrival_of_some hfind
  have hmem : (s.tile t).held.filter (·.onColour b.tag.ctx.toNat b.tag.col.toNat) ≠ [] := by
    refine List.ne_nil_of_mem (List.mem_filter.2 ⟨?_, ?_⟩ : b ∈ _)
    · rw [hheld]; simp
    · simp [Beat.onColour]
  refine ⟨_, rfl, ?_, ?_, fun hw he => ?_, fun m hm => ?_, hother⟩
  · rw [ht, Tile.channel_admitHeld]
  · rw [ht, Tile.held_admitHeld]
  · rw [ht]; exact Tile.admitHeld_ready _ hb hmem hw he
  · rw [ht]; exact (Tile.Admits.admitHeld _ _ _).awake m hm

theorem recoveries : Claims.recoveries := by
  intro s g c n l hl
  dsimp only
  intro ha
  have he : s.throttleRecover g c n = if l.held == [] then s.modEctx g c fun x => x.recover (s.tile (gidTile g)).cycle n else s := by
    rw [State.throttleRecover, hl]
  refine ⟨fun h => ⟨_, rfl, fun k d => ?_⟩, fun hheld hcalm hc => ⟨_, rfl, ?_⟩⟩
  · rw [he]
    split
    next hheld =>
      refine State.ectx_modEctx_of_eq s g c (ElemCtx.recover_of_not (h.resolve_left ?_)) k d
      simpa using hheld
    · rfl
  · rw [he, if_pos (by simp [hheld])]
    dsimp only
    rw [State.ectx_modEctx_self]
    exact ⟨rfl, ElemCtx.recover_rest _ _ _, ElemCtx.eff_recover hcalm⟩

theorem iterations : Claims.iterations := by
  intro s g c n l
  dsimp only
  intro hl hrun hforce hstop hbad
  have hslot := ElemCtx.slot_of_loop hl
  refine ⟨fun hnext hk hring hwin hroom => ?_, fun hno hlive hroom => ?_⟩
  · have hmore : l.more = true := Loop.more_iff.2 ⟨hnext, hk⟩
    have hr : (match s.launchAt (gidTile g) c with | some k => State.ringRoom k 1 && !k.saving && !k.moving | none => true) = true := by
      cases e : s.launchAt (gidTile g) c with
      | none => rfl
      | some k => obtain ⟨h1, h2, h3⟩ := hring k e; simp [h1, h2, h3]
    have e : s.loopIssue g c n = (s.modEctx g c fun x => x.setLoop { l with next := l.next + 1, live := l.live ++ [l.next] }).deliver g c n l.w.dst
        l.w.dst (l.token l.w.col (BitVec.ofNat 12 l.next)) := by
      rw [State.loopIssue, hl]
      dsimp only
      rw [if_neg (by simp [hrun, hforce, hstop, hbad]), if_neg (by simp [hmore])]
      exact if_pos (Bool.and_eq_true_iff.2 ⟨Bool.and_eq_true_iff.2 ⟨hr, decide_eq_true hwin⟩, hroom⟩)
    obtain ⟨h1, h2⟩ := left_deliver s g c n l.w.dst (l.token l.w.col (BitVec.ofNat 12 l.next))
      (fun x => x.setLoop { l with next := l.next + 1, live := l.live ++ [l.next] }) rfl
    refine ⟨_, rfl, ?_⟩
    rw [e]
    refine ⟨(h2 n).trans ?_, h1⟩
    subst hslot
    exact ElemCtx.loop_setLoop _ { l with next := l.next + 1, live := l.live ++ [l.next] }
  · have hmore : l.more = false := by
      rw [← Bool.not_eq_true, Loop.more_iff]
      rintro ⟨h1, h2⟩
      rcases hno with h | ⟨k, hk, h⟩
      · omega
      · have := h2 k hk; omega
    have e : s.loopIssue g c n = (s.modEctx g c fun x => x.setLoop { l with running := false }).deliver g c (n + 1)
        ((s.ectx g c).slot (n + 1)).dst ((s.ectx g c).slot (n + 1)).dst (l.token ((s.ectx g c).slot (n + 1)).col l.start.tag.itr) := by
      rw [State.loopIssue, hl]
      dsimp only
      rw [if_neg (by simp [hrun, hforce, hstop, hbad]), if_pos (by simp [hmore]), State.loopEnd, hl]
      dsimp only
      rw [if_neg (by simp [hrun, hmore, hlive])]
      exact if_pos hroom
    obtain ⟨h1, h2⟩ := left_deliver s g c (n + 1) ((s.ectx g c).slot (n + 1)).dst (l.token ((s.ectx g c).slot (n + 1)).col l.start.tag.itr)
      (fun x => x.setLoop { l with running := false }) rfl
    refine ⟨_, rfl, ?_⟩
    rw [e]
    refine ⟨(h2 n).trans ?_, h1⟩
    subst hslot
    exact ElemCtx.loop_setLoop _ { l with running := false }

end Sys2Proof.Proofs

namespace Sys2Proof.Machine

/-! ## EDGEDEPTH, R184 -/

theorem State.edgeNamed_eq (s : State) (a : BitVec 64) : s.edgeNamed a
    = (64 * s.focus.tile + a.toNat % 64, a.toNat / 64 % 4, a.toNat / 256 % 32, a.toNat / 8192 % 4) := by
  simp only [State.edgeNamed, toNat_extractLsb]; norm_num

theorem State.sizeEdge_of_fits {s : State} {t g c col p m : Nat} (h : s.poolUsed t - (s.edge g c col p).depth + m ≤ 2048) :
    s.sizeEdge t (g, c, col, p) m = (0, s.modEdge g c col p fun l => { l with depth := m }) := if_neg (by omega)

theorem State.sizeEdge_of_not_fits {s : State} {t g c col p m : Nat} (h : ¬ s.poolUsed t - (s.edge g c col p).depth + m ≤ 2048) :
    s.sizeEdge t (g, c, col, p) m = (1, s) := if_pos (by omega)

/-- The tiles are as before once an edge has its new depth. -/
theorem State.tile_sizeEdge (s : State) (t : Nat) (e : Nat × Nat × Nat × Nat) (m u : Nat) : (s.sizeEdge t e m).2.tile u = s.tile u := by
  unfold State.sizeEdge
  dsimp only
  split <;> rfl

theorem State.focus_sizeEdge (s : State) (t : Nat) (e : Nat × Nat × Nat × Nat) (m : Nat) : (s.sizeEdge t e m).2.focus = s.focus := by
  unfold State.sizeEdge
  dsimp only
  split <;> rfl

/-- A task that no engine and no edge holds any longer. -/
def Task.untaken (k : Task) : Task := { k with taken := none }

theorem State.cur_untaken (s : State) (d : SReg) (v : Word) (h : s.focus.task < 32) :
    ((s.modCur Task.untaken).writeReg d v).cur = (s.cur.untaken.unexempt.setReg d v).next :=
  (State.cur_finish (s.modCur Task.untaken) 1 (fun k => (k.setReg d v).next) h).trans (congrArg (fun k : Task => (k.unexempt.setReg d v).next) (State.cur_modCur s _ h))

theorem State.retired_untaken (s : State) (d : SReg) (v : Word) : ((s.modCur Task.untaken).writeReg d v).here.retired = s.here.retired + 1 := by
  rw [State.writeReg, State.retire, State.retireIn, State.finish, State.here_modHere]
  show (s.modCur Task.untaken).here.retired + 1 = _
  rw [State.modCur, State.here_modHere, Tile.modTask, Tile.setTask]
  split <;> rfl

theorem State.edge_modEdge_self (s : State) (g c col p : Nat) (f : Lane → Lane) : (s.modEdge g c col p f).edge g c col p = f (s.edge g c col p) := by
  simp [State.edge, State.modEdge]

/-- The word that `edgeChange` ends: its edge has no beat. -/
theorem State.edgeChange_of_empty {s : State} {t n : Nat} {d ra rb : SReg} {k : Taken} (hrun : (s.tile t).running = some n)
    (htaken : ((s.tile t).task n).taken = some k) (hword : k.word = .edgedepth d ra rb)
    (he : (s.edge (64 * t + k.a.toNat % 64) (k.a.toNat / 64 % 4) (k.a.toNat / 256 % 32) (k.a.toNat / 8192 % 4)).beats = []) :
    let e := (64 * t + k.a.toNat % 64, k.a.toNat / 64 % 4, k.a.toNat / 256 % 32, k.a.toNat / 8192 % 4)
    let r := ({ s with focus := { s.focus with tile := t, task := n } } : State).sizeEdge t e (k.b.toNat % 4096)
    s.edgeChange t = { (r.2.modCur Task.untaken).writeReg d r.1 with focus := s.focus } := by
  cases k
  dsimp only at hword
  subst hword
  rw [State.edgeChange, hrun]
  dsimp only
  rw [htaken]
  dsimp only
  rw [State.edgeNamed_eq]
  split
  next hne => exact absurd he hne
  next => rfl

theorem State.edgeChange_of_beats {s : State} {t n : Nat} {d ra rb : SReg} {k : Taken} (hrun : (s.tile t).running = some n)
    (htaken : ((s.tile t).task n).taken = some k) (hword : k.word = .edgedepth d ra rb)
    (he : (s.edge (64 * t + k.a.toNat % 64) (k.a.toNat / 64 % 4) (k.a.toNat / 256 % 32) (k.a.toNat / 8192 % 4)).beats ≠ []) :
    s.edgeChange t = s := by
  cases k
  dsimp only at hword
  subst hword
  rw [State.edgeChange, hrun]
  dsimp only
  rw [htaken]
  dsimp only
  rw [State.edgeNamed_eq]
  split
  next => rfl
  next hne => exact absurd he hne

/-- The task whose EDGEDEPTH ends: its result is in `d`, pc is on the next word, it runs on, and the word is counted. -/
theorem State.task_edgeChange {s u : State} {t n : Nat} {d : SReg} {v : Word} (ht : u.focus.tile = t) (hf : u.focus.task = n) (hn : n < 32)
    (htile : u.tile t = s.tile t) :
    let z := (u.modCur Task.untaken).writeReg d v
    let x := (s.tile t).task n
    let y := (z.tile t).task n
    y.reg d = (if d = 0 then 0 else v) ∧ y.pc = x.pc + 4 ∧ y.taken = none ∧ y.state = x.state ∧ (∀ r, r ≠ d → y.reg r = x.reg r)
      ∧ (z.tile t).retired = (s.tile t).retired + 1 := by
  subst ht hf
  dsimp only
  have hy : (((u.modCur Task.untaken).writeReg d v).tile u.focus.tile).task u.focus.task = (u.cur.untaken.unexempt.setReg d v).next :=
    State.cur_untaken u d v hn
  have hx : (s.tile u.focus.tile).task u.focus.task = u.cur := by rw [← htile]; rfl
  rw [hy, hx]
  refine ⟨?_, ?_, ?_, ?_, fun r hr => ?_, ?_⟩
  · rw [Task.reg_next, Task.reg_setReg_self]
  · simp [Task.next, Task.untaken]
  · simp [Task.next, Task.untaken]
  · simp [Task.next, Task.untaken]
  · rw [Task.reg_next, Task.reg_setReg_of_ne _ _ hr, Task.reg_unexempt]; rfl
  · rw [← htile]; exact State.retired_untaken u d v

end Sys2Proof.Machine

namespace Sys2Proof.Proofs
open Sys2Proof.Machine

theorem depthChanges : Claims.depthChanges := by
  intro s t n d ra rb k
  dsimp only
  intro hn hstate hfirst htaken hword
  have hrun := Tile.running_of_first hn hstate hfirst
  refine ⟨fun he => ⟨_, rfl, State.edgeChange_of_beats hrun htaken hword he⟩, fun he => ⟨_, rfl, ?_⟩⟩
  have e := State.edgeChange_of_empty hrun htaken hword he
  dsimp only at e
  rw [e]
  by_cases hfit : s.poolUsed t - (s.edge (64 * t + k.a.toNat % 64) (k.a.toNat / 64 % 4) (k.a.toNat / 256 % 32) (k.a.toNat / 8192 % 4)).depth
      + k.b.toNat % 4096 ≤ 2048
  · rw [State.sizeEdge_of_fits (s := { s with focus := { s.focus with tile := t, task := n } }) hfit]
    obtain ⟨hd, hpc, htk, hst, hreg, hret⟩ := State.task_edgeChange (s := s) (u := ({ s with focus := { s.focus with tile := t, task := n } } : State).modEdge
      (64 * t + k.a.toNat % 64) (k.a.toNat / 64 % 4) (k.a.toNat / 256 % 32) (k.a.toNat / 8192 % 4) fun l => { l with depth := k.b.toNat % 4096 })
      (d := d) (v := 0) rfl rfl hn rfl
    refine ⟨hd.trans (by simp [hfit]), hpc, htk, hst.trans hstate, hreg, ?_, rfl, hret⟩
    rw [if_pos hfit]
    exact congrArg Lane.depth (State.edge_modEdge_self { s with focus := { s.focus with tile := t, task := n } } (64 * t + k.a.toNat % 64)
      (k.a.toNat / 64 % 4) (k.a.toNat / 256 % 32) (k.a.toNat / 8192 % 4) fun l => { l with depth := k.b.toNat % 4096 })
  · rw [State.sizeEdge_of_not_fits (s := { s with focus := { s.focus with tile := t, task := n } }) hfit]
    obtain ⟨hd, hpc, htk, hst, hreg, hret⟩ := State.task_edgeChange (s := s) (u := { s with focus := { s.focus with tile := t, task := n } })
      (d := d) (v := 1) rfl rfl hn rfl
    exact ⟨hd.trans (by simp [hfit]), hpc, htk, hst.trans hstate, hreg, by rw [if_neg hfit]; rfl, rfl, hret⟩

end Sys2Proof.Proofs

namespace Sys2Proof.Machine

/-! ## The overflow ring, R112 -/

theorem MemoryAbout.ringPlace (s : State) (g c : Nat) (l : Launch) (q : Nat) : MemoryAbout s (s.ringPlace g c l q).2 := by
  have ht := MemoryAbout.translate s (tileDie (gidTile g)) c (State.ringVa l q)
  unfold State.ringPlace
  split
  next e => rw [e] at ht; exact ht
  next e =>
    rw [e] at ht
    split
    · split
      · exact ht
      · exact ht.trans (.noted _ _)
    · exact ht

theorem MemoryAbout.ringBad (s : State) (g c : Nat) (l : Launch) (qs : List Nat) : MemoryAbout s (s.ringBad g c l qs).2 := by
  induction qs generalizing s with
  | nil => exact .refl s
  | cons q r ih =>
    have hq := MemoryAbout.ringPlace s g c l q
    unfold State.ringBad
    split
    next e => rw [e] at hq; exact hq
    next e => rw [e] at hq; exact hq.trans (ih _)

theorem MemoryAbout.sameLaunch {s u : State} (h : MemoryAbout s u) : s.SameLaunch u :=
  ⟨h.same State.launches fun _ _ _ _ _ _ _ _ _ _ _ _ _ => rfl, fun t c => by
    rw [← (h.tile t).ctx c]; exact ⟨rfl, rfl, rfl⟩⟩

theorem MemoryAbout.ectx {s u : State} (h : MemoryAbout s u) (g c : Nat) : u.ectx g c = s.ectx g c := by
  rw [State.ectx, State.ectx, h.same State.ectxs fun _ _ _ _ _ _ _ _ _ _ _ _ _ => rfl]

/-- A change of throttles only: the launches and the operands that wait are as before. -/
def State.Rethrottled (s z : State) : Prop :=
  z.launches = s.launches ∧ z.absent = s.absent ∧ ∀ g c, (z.ectx g c).operands = (s.ectx g c).operands

theorem State.Rethrottled.refl (s : State) : s.Rethrottled s := ⟨rfl, rfl, fun _ _ => rfl⟩
theorem State.Rethrottled.trans {s u z : State} (h : s.Rethrottled u) (k : u.Rethrottled z) : s.Rethrottled z :=
  ⟨k.1.trans h.1, k.2.1.trans h.2.1, fun g c => (k.2.2 g c).trans (h.2.2 g c)⟩

theorem State.Rethrottled.modEctx (s : State) (g c : Nat) {f : ElemCtx → ElemCtx} (hf : ∀ x, (f x).operands = x.operands) :
    s.Rethrottled (s.modEctx g c f) := by
  refine ⟨rfl, rfl, fun h d => ?_⟩
  by_cases e : 4 * h + d = 4 * g + c
  · have hz : (s.modEctx g c f).ectx h d = (s.modEctx g c f).ectx g c := by simp only [State.ectx, e]
    have hs : s.ectx h d = s.ectx g c := by simp only [State.ectx, e]
    rw [hz, hs, State.ectx_modEctx_self, hf]
  · rw [State.ectx_modEctx_of_ne _ _ e]

theorem State.Rethrottled.modSources (s : State) (n c : Nat) {f : BitVec 64 → ElemCtx → ElemCtx} (hf : ∀ cyc x, (f cyc x).operands = x.operands) :
    s.Rethrottled (s.modSources n c f) := by
  unfold State.modSources
  generalize s.sourceKeys n c = ks
  induction ks generalizing s with
  | nil => exact .refl s
  | cons k ks ih => exact (State.Rethrottled.modEctx s _ _ (hf _)).trans (ih _)

theorem State.Rethrottled.ite {s u : State} (h : s.Rethrottled u) (b : Bool) : s.Rethrottled (if b then u else s) := by
  cases b
  · exact .refl s
  · exact h

theorem NSet.mem_foldl_erase {α : Type} (f : α → Nat) (ks : List α) (m : NSet) (q : Nat) :
    q ∈ ks.foldl (fun h k => NSet.erase h (f k)) m ↔ q ∈ m ∧ ∀ k ∈ ks, q ≠ f k := by
  induction ks generalizing m with
  | nil => simp
  | cons k ks ih => rw [List.foldl_cons, ih, NSet.mem_erase, List.forall_mem_cons, and_assoc]

/-- A source that holds no spilled record from this cycle on. -/
def ElemCtx.calmed (cyc : BitVec 64) (x : ElemCtx) : ElemCtx := { x with throttles := x.throttles.map fun t => (t.1, { t.2 with calm := cyc }) }

/-- Freed records: their positions of the ring hold nothing any more, and the operands are as before. -/
theorem State.freeRecords_spec {s : State} {t c n : Nat} {l : Launch} (hid : s.lidOf t c = some n) (hl : s.launch n = some l) (qs : List Nat) :
    (∃ l', (s.freeRecords t c qs).launch n = some l' ∧ ∀ q, q ∈ l'.held ↔ q ∈ l.held ∧ ∀ k ∈ qs, q ≠ k % State.ringSize l)
      ∧ (s.freeRecords t c qs).absent = s.absent ∧ ∀ g d, ((s.freeRecords t c qs).ectx g d).operands = (s.ectx g d).operands := by
  cases qs with
  | nil => exact ⟨⟨l, hl, by simp⟩, rfl, fun _ _ => rfl⟩
  | cons k ks =>
    let freed (x : Launch) : Launch := { x with held := (k :: ks).foldl (fun h q => NSet.erase h (q % State.ringSize x)) x.held }
    have hfreed : (s.modLaunch n freed).launch n = some (freed l) := by rw [State.launch_modLaunch_self, hl]; rfl
    have hmod : (s.modLaunch n freed).Rethrottled (s.freeRecords t c (k :: ks)) := by
      unfold State.freeRecords
      rw [hid]
      exact State.Rethrottled.ite (State.Rethrottled.modSources (f := ElemCtx.calmed) _ n c fun _ _ => rfl) _
    have hs : s.Rethrottled { s.modLaunch n freed with launches := s.launches } := by
      unfold State.modLaunch; rw [hl]; exact .refl s
    refine ⟨⟨freed l, ?_, NSet.mem_foldl_erase _ _ _⟩, hmod.2.1.trans hs.2.1, fun g d => (hmod.2.2 g d).trans (hs.2.2 g d)⟩
    rw [State.launch, hmod.1]; exact hfreed

end Sys2Proof.Machine

namespace Sys2Proof.Proofs
open Sys2Proof.Machine

theorem takeBacks : Claims.takeBacks := by
  intro s g c n o l u
  dsimp only
  intro ho hid hl hforce ha
  have hat : s.launchAt (gidTile g) c = some l := by rw [State.launchAt, hid]; exact hl
  refine ⟨fun hfull => ?_, fun hroom hring hu => ?_⟩
  · have e : s.takeBack g c = s := by
      rw [State.takeBack, ho, hat]
      exact if_pos (by simp [hforce, hfull])
    exact gives_settled rfl (e.symm ▸ ha) e
  · have hmem : MemoryAbout s u := by
      have := MemoryAbout.ringBad s g c l (o.spilled.take 1)
      rwa [hring] at this
    have hsame := hmem.sameLaunch
    obtain ⟨hlaunch, habs, hops⟩ := State.freeRecords_spec ((hsame.lidOf _ _).trans hid) ((hsame.launch _).trans hl) (o.spilled.take 1)
    have e : s.takeBack g c = (u.freeRecords (gidTile g) c (o.spilled.take 1)).modEctx g c fun x =>
        { x with operands := x.operands.map fun p =>
            if p.seq = o.seq then { p with spilled := o.spilled.drop 1, entries := o.entries + 1 } else p } := by
      rw [State.takeBack, ho, hat]
      dsimp only
      rw [if_neg (by simp [hforce]; omega), hring]
    refine gives_settled rfl (e.symm ▸ habs.trans hu) ?_
    rw [e, State.ectx_modEctx_self]
    refine ⟨?_, hlaunch⟩
    rw [hops, hmem.ectx]

end Sys2Proof.Proofs

namespace Sys2Proof.Machine

/-! ## Sources of beats, R49 -/

theorem neighbour_ne {g p h : Nat} (hn : neighbour g p = some h) : h ≠ g := by
  rintro rfl
  unfold neighbour at hn
  dsimp only [gidX, gidY, gidAt, tileX, tileY, tileAt] at hn
  split at hn
  all_goals
    split at hn
    · cases hn
    · have := Option.some.inj hn
      omega

/-- The sources across the ports: not the tile bus, and not the node and memory ports. -/
theorem State.source_of_port {src : Nat} (h5 : src ≠ 5) (h6 : src ≠ 6) (h7 : src ≠ 7) (s : State) (g c col : Nat) :
    s.source g src c col = match neighbour g src with | some h => s.edge h c col ((src + 2) % 4) | none => {} := by
  unfold State.source
  split
  · exact absurd rfl h5
  · exact absurd rfl h6
  · exact absurd rfl h7
  · rfl

theorem State.modSource_of_port {src : Nat} (h5 : src ≠ 5) (h6 : src ≠ 6) (h7 : src ≠ 7) (s : State) (g c col : Nat) (f : Lane → Lane) :
    s.modSource g src c col f = match neighbour g src with | some h => s.modEdge h c col ((src + 2) % 4) f | none => s := by
  unfold State.modSource
  split
  · exact absurd rfl h5
  · exact absurd rfl h6
  · exact absurd rfl h7
  · rfl

/-- A source that holds a beat reads as what was made of it. -/
theorem State.source_modSource_self {s : State} {g src c col : Nat} (f : Lane → Lane) (hb : (s.source g src c col).beats ≠ []) :
    (s.modSource g src c col f).source g src c col = f (s.source g src c col) := by
  by_cases h5 : src = 5
  · subst h5
    show SMap.getD ((s.modTile (gidTile g) _).tile (gidTile g)).down _ _ = _
    rw [State.tile_modTile_self, SMap.getD_set_self]; rfl
  by_cases h6 : src = 6
  · subst h6
    show SMap.getD ((s.modElem g _).elem g).ports _ _ = _
    rw [State.elem_modElem_self, SMap.getD_set_self]; rfl
  by_cases h7 : src = 7
  · subst h7
    show SMap.getD ((s.modElem g _).elem g).ports _ _ = _
    rw [State.elem_modElem_self, SMap.getD_set_self]; rfl
  rw [State.source_of_port h5 h6 h7] at hb ⊢
  rw [State.source_of_port h5 h6 h7, State.modSource_of_port h5 h6 h7]
  cases hn : neighbour g src with
  | none => rw [hn] at hb; exact absurd rfl hb
  | some h => exact State.edge_modEdge_self ..

/-- Where nothing is changed but the tasks, the registers of elements and their matching stores, a source is as before. -/
theorem State.source_congr {s z : State} (hdown : ∀ t, (z.tile t).down = (s.tile t).down)
    (helem : ∀ g, (z.elem g).edges = (s.elem g).edges ∧ (z.elem g).ports = (s.elem g).ports) (g src c col : Nat) :
    z.source g src c col = s.source g src c col := by
  unfold State.source State.edge
  simp only [hdown, helem]

/-- Only tiles and elements change with a source. -/
theorem State.modSource_rest (s : State) (g src c col : Nat) (f : Lane → Lane) :
    ({ s.modSource g src c col f with tiles := s.tiles, elems := s.elems } : State) = s := by
  unfold State.modSource
  repeat' split
  all_goals rfl

theorem State.ectx_modSource (s : State) (g src c col : Nat) (f : Lane → Lane) (h d : Nat) : (s.modSource g src c col f).ectx h d = s.ectx h d := by
  have := (congrArg State.ectxs (s.modSource_rest g src c col f) :)
  rw [State.ectx, State.ectx, ← this]

/-- A source changes a tile in its bus only. -/
theorem State.tile_modSource (s : State) (g src c col : Nat) (f : Lane → Lane) (t : Nat) :
    ({ (s.modSource g src c col f).tile t with down := (s.tile t).down } : Tile) = s.tile t := by
  unfold State.modSource
  split
  · by_cases e : t = gidTile g
    · subst e; rw [State.tile_modTile_self]
    · rw [State.tile_modTile_of_ne _ _ e]
  · rfl
  · rfl
  · split <;> rfl

/-- A source changes an element in its edges and ports only. -/
theorem State.elem_modSource (s : State) (g src c col : Nat) (f : Lane → Lane) (h : Nat) :
    ({ (s.modSource g src c col f).elem h with edges := (s.elem h).edges, ports := (s.elem h).ports } : Elem) = s.elem h := by
  have key (k : Nat) (e : Elem → Elem) (he : ∀ x : Elem, ({ e x with edges := x.edges, ports := x.ports } : Elem) = x) :
      ({ (s.modElem k e).elem h with edges := (s.elem h).edges, ports := (s.elem h).ports } : Elem) = s.elem h := by
    by_cases hk : h = k
    · subst hk; rw [State.elem_modElem_self, he]
    · rw [State.elem_modElem_of_ne _ _ hk]
  unfold State.modSource
  split
  · rfl
  · exact key g _ fun _ => rfl
  · exact key g _ fun _ => rfl
  · split
    · exact key _ _ fun _ => rfl
    · rfl

/-- The element's own edges are no source of it. -/
theorem State.edge_modSource (s : State) (g src c col : Nat) (f : Lane → Lane) (d k p : Nat) :
    (s.modSource g src c col f).edge g d k p = s.edge g d k p := by
  unfold State.modSource State.edge
  split
  · rfl
  · rw [State.elem_modElem_self]
  · rw [State.elem_modElem_self]
  · split
    next hn => rw [State.modEdge, State.elem_modElem_of_ne _ _ (neighbour_ne hn).symm]
    · rfl

end Sys2Proof.Machine

namespace Sys2Proof.Machine

/-! ## What takes a beat, R175 -/

/-- The elements in force, the switches and the slots of elements are as before: so is all that takes a beat. -/
def State.SameTakers (s z : State) : Prop :=
  (∀ t, (z.tile t).inForce = (s.tile t).inForce) ∧ (∀ g, (z.elem g).switch = (s.elem g).switch)
    ∧ ∀ g c, (z.ectx g c).slots = (s.ectx g c).slots ∧ (z.ectx g c).high = (s.ectx g c).high

theorem State.SameTakers.refl (s : State) : s.SameTakers s := ⟨fun _ => rfl, fun _ => rfl, fun _ _ => ⟨rfl, rfl⟩⟩
theorem State.SameTakers.trans {s u z : State} (h : s.SameTakers u) (k : u.SameTakers z) : s.SameTakers z :=
  ⟨fun t => (k.1 t).trans (h.1 t), fun g => (k.2.1 g).trans (h.2.1 g),
    fun g c => ⟨(k.2.2 g c).1.trans (h.2.2 g c).1, (k.2.2 g c).2.trans (h.2.2 g c).2⟩⟩

theorem State.SameTakers.modElem (s : State) (g : Nat) {f : Elem → Elem} (hf : (f (s.elem g)).switch = (s.elem g).switch) :
    s.SameTakers (s.modElem g f) := by
  refine ⟨fun _ => rfl, fun h => ?_, fun _ _ => ⟨rfl, rfl⟩⟩
  by_cases e : h = g
  · subst e; rw [State.elem_modElem_self, hf]
  · rw [State.elem_modElem_of_ne _ _ e]

theorem State.SameTakers.modEctx (s : State) (g c : Nat) {f : ElemCtx → ElemCtx}
    (hf : (f (s.ectx g c)).slots = (s.ectx g c).slots ∧ (f (s.ectx g c)).high = (s.ectx g c).high) : s.SameTakers (s.modEctx g c f) := by
  refine ⟨fun _ => rfl, fun _ => rfl, fun h d => ?_⟩
  by_cases e : 4 * h + d = 4 * g + c
  · have hz : (s.modEctx g c f).ectx h d = (s.modEctx g c f).ectx g c := by simp only [State.ectx, e]
    have hs : s.ectx h d = s.ectx g c := by simp only [State.ectx, e]
    rw [hz, hs, State.ectx_modEctx_self]
    exact hf
  · rw [State.ectx_modEctx_of_ne _ _ e]
    exact ⟨rfl, rfl⟩

theorem State.SameTakers.modSource (s : State) (g src c col : Nat) (f : Lane → Lane) : s.SameTakers (s.modSource g src c col f) :=
  ⟨fun t => (congrArg Tile.inForce (s.tile_modSource g src c col f t) :), fun h => (congrArg Elem.switch (s.elem_modSource g src c col f h) :),
    fun h d => by rw [State.ectx_modSource]; exact ⟨rfl, rfl⟩⟩

theorem acceptors_congr {x y : ElemCtx} (hs : x.slots = y.slots) (hh : x.high = y.high) (src col : Nat) :
    State.acceptors x src col = State.acceptors y src col := by
  have hslot : x.slot = y.slot := funext fun n => by rw [ElemCtx.slot, ElemCtx.slot, hs]
  unfold State.acceptors
  rw [hslot, hh]

/-- What takes a beat at one element, numbered from `base`. -/
def State.takersAt (s : State) (g src c col base : Nat) : List Nat :=
  if s.inForce g c then
    ((State.acceptors (s.ectx g c) src col).map fun a => base + 2 * a.1 + a.2) ++ ((s.elem g).routes c col src).map fun e => base + 32 + e.1
  else []

theorem State.takers_eq (s : State) (g src c col : Nat) : s.takers g src c col
    = if src = 5 then ((List.range 64).map fun e => s.takersAt (64 * gidTile g + e) src c col (128 * e)).flatten else s.takersAt g src c col 0 := rfl

theorem State.SameTakers.takersAt {s z : State} (h : s.SameTakers z) (g src c col base : Nat) :
    z.takersAt g src c col base = s.takersAt g src c col base := by
  obtain ⟨hforce, hswitch, hslots⟩ := h
  unfold State.takersAt State.inForce Tile.forces Elem.routes
  rw [hforce, hswitch, acceptors_congr (hslots g c).1 (hslots g c).2]

theorem State.SameTakers.takers {s z : State} (h : s.SameTakers z) (g src c col : Nat) : z.takers g src c col = s.takers g src c col := by
  rw [State.takers_eq, State.takers_eq]
  simp only [h.takersAt]

/-- A beat on the tile bus is offered to every element of the tile. -/
theorem takers_bus {g h : Nat} (e : gidTile g = gidTile h) (s : State) (c col : Nat) : s.takers g 5 c col = s.takers h 5 c col := by
  simp only [State.takers, e, if_true]

theorem source_bus {g h : Nat} (e : gidTile g = gidTile h) (s : State) (c col : Nat) : s.source g 5 c col = s.source h 5 c col := by
  simp only [State.source, e]

theorem gid_eq (g : Nat) : 64 * gidTile g + gidElem g = g := Nat.div_add_mod g 64

/-- What takes a beat at an element is among all that takes the beats of its source. -/
theorem mem_takers_of_takersAt {s : State} {g src c col a : Nat} (h : ∀ base, base + a ∈ s.takersAt g src c col base) :
    State.takerKey g src a ∈ s.takers g src c col := by
  rw [State.takers_eq, State.takerKey]
  split
  · refine List.mem_flatten.2 ⟨_, List.mem_map.2 ⟨gidElem g, List.mem_range.2 (Nat.mod_lt _ (by omega)), rfl⟩, ?_⟩
    rw [gid_eq]
    exact h _
  · have := h 0
    rwa [Nat.zero_add] at this

/-- The acceptors of an element in force take its beats. -/
theorem mem_takers_of_acceptor {s : State} {g src c col n r : Nat} (hf : s.inForce g c = true)
    (h : (n, r) ∈ State.acceptors (s.ectx g c) src col) : State.takerKey g src (2 * n + r) ∈ s.takers g src c col := by
  refine mem_takers_of_takersAt fun base => ?_
  rw [State.takersAt, if_pos hf]
  exact List.mem_append_left _ (List.mem_map.2 ⟨(n, r), h, by dsimp only; omega⟩)

/-- So do its enabled switch entries. -/
theorem mem_takers_of_route {s : State} {g src c col k : Nat} {w : BitVec 16} (hf : s.inForce g c = true)
    (h : (k, w) ∈ (s.elem g).routes c col src) : State.takerKey g src (32 + k) ∈ s.takers g src c col := by
  refine mem_takers_of_takersAt fun base => ?_
  rw [State.takersAt, if_pos hf]
  exact List.mem_append_right _ (List.mem_map.2 ⟨(k, w), h, by dsimp only; omega⟩)

/-! ## A head beat that has been taken -/

/-- A CHWR that the tile bus held goes on, R177. -/
def Task.unheld (key : Nat) (k : Task) : Task := if k.held = some key then { k with held := none } else k
def Tile.unheld (T : Tile) (key : Nat) : Tile := { T with tasks := mapEach (Task.unheld key) T.tasks }

theorem Tile.down_unheld (T : Tile) (key : Nat) : (T.unheld key).down = T.down := by rw [Tile.unheld]

theorem Tile.task_unheld {T : Tile} {m : Nat} (key : Nat) (hm : m < 32) : (T.unheld key).task m = (T.task m).unheld key := by
  rw [Tile.task, Tile.task, dif_pos hm, dif_pos hm, Tile.unheld, mapEach_get]

theorem Tile.task_congr {T U : Tile} (h : U.tasks = T.tasks) (n : Nat) : U.task n = T.task n := by rw [Tile.task, Tile.task, h]

theorem Tile.held_unheld {T : Tile} {key m : Nat} (hm : m < 32) (h : (T.task m).held = some key) : ((T.unheld key).task m).held = none := by
  rw [Tile.task_unheld key hm, Task.unheld, if_pos h]

/-- The head beat stays: there is none, nothing takes it, or something has yet to. -/
theorem State.clearHead_of_stays {s : State} {g src c col : Nat}
    (h : (s.source g src c col).beats = [] ∨ s.takers g src c col = [] ∨ ∃ a ∈ s.takers g src c col, a ∉ (s.source g src c col).taken) :
    s.clearHead g src c col = s := by
  refine if_pos ?_
  obtain h | h | ⟨a, ha, hn⟩ := h
  · exact .inl h
  · exact .inr (.inl h)
  · refine .inr (.inr ?_)
    rw [Bool.not_eq_true', List.all_eq_false]
    exact ⟨a, ha, by simpa using hn⟩

/-- The head beat leaves: everything that takes it has. -/
theorem State.clearHead_of_leaves {s : State} {g src c col : Nat} (hb : (s.source g src c col).beats ≠ []) (ht : s.takers g src c col ≠ [])
    (h : ∀ a ∈ s.takers g src c col, a ∈ (s.source g src c col).taken) :
    s.clearHead g src c col = if src = 5 then (s.modSource g src c col Lane.pop).modTile (gidTile g) (·.unheld (colourKey c col))
      else s.modSource g src c col Lane.pop := by
  refine if_neg ?_
  simp only [not_or, Bool.not_eq_true', Bool.not_eq_false]
  exact ⟨hb, ht, by simpa using h⟩

/-- What the head beat leaves behind: a shorter source, and on the tile bus a CHWR that is held no longer. -/
theorem State.clearHead_spec {s : State} {g src c col : Nat} (hb : (s.source g src c col).beats ≠ []) (ht : s.takers g src c col ≠ [])
    (h : ∀ a ∈ s.takers g src c col, a ∈ (s.source g src c col).taken) :
    let z := s.clearHead g src c col
    z.source g src c col = (s.source g src c col).pop ∧ z.elems = (s.modSource g src c col Lane.pop).elems
      ∧ (∀ h d, z.ectx h d = s.ectx h d) ∧ z.absent = s.absent
      ∧ (src = 5 → ∀ m < 32, ((s.tile (gidTile g)).task m).held = some (colourKey c col) → ((z.tile (gidTile g)).task m).held = none) := by
  dsimp only
  have hsrc := State.source_modSource_self Lane.pop hb
  rw [State.clearHead_of_leaves hb ht h]
  have habs : (s.modSource g src c col Lane.pop).absent = s.absent := (congrArg State.absent (s.modSource_rest g src c col Lane.pop) :)
  split
  next h5 =>
    refine ⟨?_, rfl, fun h d => s.ectx_modSource g src c col _ h d, habs, fun _ m hm hh => ?_⟩
    · rw [← hsrc]
      refine State.source_congr (s := s.modSource g src c col Lane.pop)
        (z := (s.modSource g src c col Lane.pop).modTile (gidTile g) (·.unheld (colourKey c col))) (fun t => ?_) (fun _ => ⟨rfl, rfl⟩) _ _ _ _
      by_cases e : t = gidTile g
      · subst e; rw [State.tile_modTile_self, Tile.down_unheld]
      · rw [State.tile_modTile_of_ne _ _ e]
    · rw [State.tile_modTile_self]
      refine Tile.held_unheld hm ?_
      have e : ((s.modSource g src c col Lane.pop).tile (gidTile g)).tasks = (s.tile (gidTile g)).tasks :=
        (congrArg Tile.tasks (s.tile_modSource g src c col Lane.pop (gidTile g)) :)
      rwa [Tile.task_congr e]
  next h5 => exact ⟨hsrc, rfl, fun h d => s.ectx_modSource g src c col _ h d, habs, fun h => absurd h h5⟩

end Sys2Proof.Machine

namespace Sys2Proof.Machine

/-! ## The order of the entries that wait for a port, R172 and R183 -/

theorem common_port_iff (a b : BitVec 4) : (∃ p, p ∈ maskPorts a ∧ p ∈ maskPorts b) ↔ a &&& b ≠ 0 := by
  have hmem (m : BitVec 4) (p : Nat) : p ∈ maskPorts m ↔ p < 4 ∧ m.getLsbD (3 - p) = true := by
    rw [maskPorts, List.mem_filter, List.mem_range]
  constructor
  · rintro ⟨p, ha, hb⟩ h0
    have : (a &&& b).getLsbD (3 - p) = true := by
      rw [BitVec.getLsbD_and, ((hmem a p).1 ha).2, ((hmem b p).1 hb).2]; rfl
    rw [h0] at this
    simp at this
  · intro h
    by_contra hn
    refine h (BitVec.eq_of_getLsbD_eq fun i hi => ?_)
    rw [BitVec.getLsbD_and]
    by_contra hb
    refine hn ⟨3 - i, ?_⟩
    have hbit : a.getLsbD i = true ∧ b.getLsbD i = true := by simpa using hb
    rw [hmem, hmem, show 3 - (3 - i) = i by omega]
    exact ⟨⟨by omega, hbit.1⟩, by omega, hbit.2⟩

/-- How far down a list an entry stands; entries that do not wait count as the last. -/
theorem findIdx_lt_iff {e k : Nat} (hne : e ≠ k) (l : List Nat) :
    l.findIdx (· == e) < l.findIdx (· == k) ↔ ∃ pre post, l = pre ++ e :: post ∧ e ∉ pre ∧ k ∉ pre := by
  induction l with
  | nil => simp
  | cons x l ih =>
    rw [List.findIdx_cons, List.findIdx_cons]
    by_cases he : x = e
    · subst he
      simp only [beq_self_eq_true, cond_true, beq_eq_false_iff_ne.2 hne, cond_false, Nat.succ_pos, true_iff]
      exact ⟨[], l, rfl, by simp, by simp⟩
    · by_cases hk : x = k
      · subst hk
        simp only [beq_self_eq_true, cond_true, Nat.not_lt_zero, false_iff]
        rintro ⟨pre, post, hl, -, hp⟩
        cases pre with
        | nil => exact he (List.cons.inj hl).1
        | cons y pre => exact hp ((List.cons.inj hl).1 ▸ List.mem_cons_self)
      · simp only [beq_eq_false_iff_ne.2 he, beq_eq_false_iff_ne.2 hk, cond_false, Nat.add_lt_add_iff_right, ih]
        constructor
        · rintro ⟨pre, post, rfl, h1, h2⟩
          exact ⟨x :: pre, post, rfl, by simp [Ne.symm he, h1], by simp [Ne.symm hk, h2]⟩
        · rintro ⟨pre, post, hl, h1, h2⟩
          cases pre with
          | nil => exact absurd (List.cons.inj hl).1 he
          | cons y pre => exact ⟨pre, post, (List.cons.inj hl).2, fun h => h1 (List.mem_cons_of_mem _ h), fun h => h2 (List.mem_cons_of_mem _ h)⟩

theorem State.portBefore_iff {s : State} {g e k : Nat} {v w : BitVec 16} (hne : e ≠ k) :
    s.portBefore g e v k w = true ↔ Claims.Precedes s g e v k w := by
  have hage (n : Nat) : ((s.elem g).asked.findIdx? (· == n)).getD (s.elem g).asked.length = (s.elem g).asked.findIdx (· == n) :=
    List.findIdx_eq_getD_findIdx?.symm
  have hshort := findIdx_lt_iff hne.symm (s.elem g).asked
  rw [Claims.Precedes, State.portBefore]
  simp only [Bool.or_eq_true, Bool.and_eq_true, decide_eq_true_eq, beq_iff_eq]
  rw [hage, hage, ← findIdx_lt_iff hne]
  have hs : (∃ pre post, (s.elem g).asked = pre ++ k :: post ∧ e ∉ pre ∧ k ∉ pre)
      ↔ (s.elem g).asked.findIdx (· == k) < (s.elem g).asked.findIdx (· == e) := by
    rw [hshort]
    exact exists_congr fun _ => exists_congr fun _ => and_congr_right fun _ => and_comm
  rw [hs]
  refine or_congr Iff.rfl (and_congr_right fun _ => ?_)
  omega

theorem State.outranked_iff {s : State} {g k : Nat} {w : BitVec 16} : s.outranked g k w = true ↔ Claims.Outranks s g k w := by
  rw [State.outranked, List.any_eq_true, Claims.Outranks]
  constructor
  · rintro ⟨⟨e, v⟩, hmem, h⟩
    simp only [Bool.and_eq_true, bne_iff_ne, Option.isSome_iff_exists] at h
    obtain ⟨⟨⟨⟨hne, hport⟩, b, hb⟩, hfree⟩, hbefore⟩ := h
    exact ⟨e, v, b, hmem, hne, (common_port_iff _ _).2 hport, hb, hfree, (State.portBefore_iff hne).1 hbefore⟩
  · rintro ⟨e, v, b, hmem, hne, hport, hb, hfree, hbefore⟩
    refine ⟨(e, v), hmem, ?_⟩
    simp only [Bool.and_eq_true, bne_iff_ne, Option.isSome_iff_exists]
    exact ⟨⟨⟨⟨hne, (common_port_iff _ _).1 hport⟩, b, hb⟩, hfree⟩, (State.portBefore_iff hne).2 hbefore⟩

theorem State.portsFree_iff {s : State} {g k : Nat} {w : BitVec 16} : s.portsFree g k w = true ↔
    ∀ p ∈ maskPorts (swTo w), (∀ e, SMap.get? (s.elem g).busy p = some e → e = k)
      ∧ (SMap.get? (s.elem g).busy p = none → State.portHeld (s.elem g) p = false)
      ∧ (s.edge g (swCtx w) (swCol w) p).beats.length < (s.edge g (swCtx w) (swCol w) p).depth := by
  rw [State.portsFree, List.all_eq_true]
  refine forall_congr' fun p => forall_congr' fun _ => ?_
  cases h : SMap.get? (s.elem g).busy p with
  | none => simp
  | some e => simp

end Sys2Proof.Machine

namespace Sys2Proof.Machine

/-! ## A beat that a switch entry passes, R109 and R172 -/

/-- The busy marks of the ports that a beat has passed: the token's last beat ends them. -/
theorem get?_busy_foldl (last : Bool) (k : Nat) (ps : List Nat) (m : SMap Nat) (q : Nat) :
    SMap.get? (ps.foldl (fun m p => if last then SMap.erase m p else SMap.set m p k) m) q
      = if q ∈ ps then (if last then none else some k) else SMap.get? m q := by
  induction ps generalizing m with
  | nil => simp
  | cons p ps ih =>
    rw [List.foldl_cons, ih]
    by_cases hq : q = p
    · subst hq
      cases last
      · simp [SMap.get?_set_self]
      · simp [SMap.get?_erase]
    · cases last
      · simp [hq, SMap.get?_set_of_ne _ _ hq]
      · simp [hq, SMap.get?_erase]

/-- The element's own edges are no source of it. -/
theorem OnlyEdges.source {g : Nat} {s t : State} (h : OnlyEdges g s t) (src c col : Nat) : t.source g src c col = s.source g src c col := by
  obtain ⟨hrest, hother, hself⟩ := h
  have htile : t.tiles = s.tiles := (congrArg State.tiles hrest :)
  have hports : (t.elem g).ports = (s.elem g).ports := (congrArg Elem.ports hself :)
  unfold State.source
  split
  · rw [State.tile, State.tile, htile]
  · rw [hports]
  · rw [hports]
  · split
    next hn => rw [State.edge, State.edge, hother _ (neighbour_ne hn)]
    · rfl

theorem OnlyEdges.sameTakers {g : Nat} {s t : State} (h : OnlyEdges g s t) : s.SameTakers t := by
  obtain ⟨hrest, hother, hself⟩ := h
  have htile : t.tiles = s.tiles := (congrArg State.tiles hrest :)
  have hectx : t.ectxs = s.ectxs := (congrArg State.ectxs hrest :)
  refine ⟨fun u => by rw [State.tile, State.tile, htile], fun k => ?_, fun k d => by rw [State.ectx, State.ectx, hectx]; exact ⟨rfl, rfl⟩⟩
  by_cases e : k = g
  · subst e; exact (congrArg Elem.switch hself :)
  · rw [hother k e]

/-- The elements after a head beat has left, or has stayed. -/
theorem State.elems_clearHead (s : State) (g src c col : Nat) :
    (s.clearHead g src c col).elems = s.elems ∨ (s.clearHead g src c col).elems = (s.modSource g src c col Lane.pop).elems := by
  unfold State.clearHead
  dsimp only
  split
  · exact .inl rfl
  · split <;> exact .inr rfl

theorem State.edge_clearHead (s : State) (g src c col d k p : Nat) : (s.clearHead g src c col).edge g d k p = s.edge g d k p := by
  obtain h | h := s.elems_clearHead g src c col
  · rw [State.edge, State.edge, State.elem, State.elem, h]
  · rw [← State.edge_modSource s g src c col Lane.pop, State.edge, State.edge, State.elem, State.elem, h]

theorem State.elem_clearHead (s : State) (g src c col h : Nat) :
    ({ (s.clearHead g src c col).elem h with edges := (s.elem h).edges, ports := (s.elem h).ports } : Elem) = s.elem h := by
  obtain e | e := s.elems_clearHead g src c col
  · rw [State.elem, e]; rfl
  · rw [State.elem, e]; exact s.elem_modSource g src c col Lane.pop h

/-- A beat that key `key` takes: it leaves its source when everything else that takes it has. -/
theorem State.source_clearHead {s : State} {g src c col key : Nat} {b : Beat} {rest : List Beat} (hb : (s.source g src c col).beats = b :: rest)
    (hkey : key ∈ s.takers g src c col) :
    ((s.modSource g src c col fun l => { l with taken := NSet.insert l.taken key }).clearHead g src c col).source g src c col
      = if ∀ a ∈ s.takers g src c col, a = key ∨ a ∈ (s.source g src c col).taken then
          { s.source g src c col with beats := rest, taken := [], inside := !b.tag.last }
        else { s.source g src c col with taken := NSet.insert (s.source g src c col).taken key } := by
  have hne : (s.source g src c col).beats ≠ [] := by rw [hb]; exact List.cons_ne_nil _ _
  have hl := State.source_modSource_self (fun l => { l with taken := NSet.insert l.taken key }) hne
  have ht := (State.SameTakers.modSource s g src c col fun l => { l with taken := NSet.insert l.taken key }).takers g src c col
  split
  next hall =>
    obtain ⟨h, -⟩ := State.clearHead_spec (by rw [hl]; exact hne) (by rw [ht]; exact List.ne_nil_of_mem hkey)
      (by rw [ht, hl]; exact fun a ha => (NSet.mem_insert _ _ _).2 (hall a ha))
    rw [h, hl, Lane.pop]
    simp only [hb, List.drop_succ_cons, List.drop_zero]
  next hall =>
    push Not at hall
    obtain ⟨a, ha, hak, hat⟩ := hall
    rw [State.clearHead_of_stays (.inr (.inr ⟨a, by rw [ht]; exact ha, ?_⟩)), hl]
    rw [hl, NSet.mem_insert]
    exact not_or.2 ⟨hak, hat⟩

/-- The element whose entry `k` has passed a beat on its ports. -/
def Elem.passed (e : Elem) (ports : List Nat) (last : Bool) (k : Nat) : Elem :=
  { e with
    busy := ports.foldl (fun m p => if last then SMap.erase m p else SMap.set m p k) e.busy
    asked := e.asked.filter (· != k) }

theorem SMap.mem_of_get? {α : Type} {m : SMap α} {k : Nat} {v : α} (h : SMap.get? m k = some v) : (k, v) ∈ m := by
  induction m with
  | nil => cases h
  | cons e m ih =>
    obtain ⟨j, x⟩ := e
    rw [SMap.get?] at h
    split at h
    next hj => rw [hj, Option.some.inj h]; exact List.mem_cons_self
    · exact List.mem_cons_of_mem _ (ih h)

theorem State.source_modElem (s : State) (g : Nat) {f : Elem → Elem} (hf : ∀ e, (f e).edges = e.edges ∧ (f e).ports = e.ports) (h src c col : Nat) :
    (s.modElem g f).source h src c col = s.source h src c col := by
  refine State.source_congr (s := s) (z := s.modElem g f) (fun _ => rfl) (fun k => ?_) h src c col
  by_cases e : k = g
  · subst e; rw [State.elem_modElem_self]; exact hf _
  · rw [State.elem_modElem_of_ne _ _ e]; exact ⟨rfl, rfl⟩

/-- The state in which entry `k` of element `g` has passed beat `b` on its ports. -/
def State.passed (s : State) (g c col : Nat) (ports : List Nat) (b : Beat) (k : Nat) : State :=
  (ports.foldl (fun s p => s.modEdge g c col p fun l => { l with beats := l.beats ++ [b] }) s).modElem g (·.passed ports b.tag.last k)

theorem State.passed_spec (s : State) (g c : Nat) {col : Nat} (hcol : col < 32) (m : BitVec 4) (b : Beat) (k : Nat) :
    let z := s.passed g c col (maskPorts m) b k
    (∀ src d e, z.source g src d e = s.source g src d e) ∧ s.SameTakers z
      ∧ (∀ p ∈ maskPorts m, z.edge g c col p = { s.edge g c col p with beats := (s.edge g c col p).beats ++ [b] })
      ∧ (∀ p ∈ maskPorts m, SMap.get? (z.elem g).busy p = if b.tag.last then none else some k)
      ∧ (z.elem g).asked = (s.elem g).asked.filter (· != k) := by
  dsimp only
  obtain ⟨honly, hedge⟩ := edges_foldl g c col [b] hcol (maskPorts m) (maskPorts_spec m).1 (maskPorts_spec m).2 s
  have hself := honly.2.2
  unfold State.passed
  generalize (maskPorts m).foldl (fun s p => s.modEdge g c col p fun l => { l with beats := l.beats ++ [b] }) s = u at *
  refine ⟨fun src d e => ?_, honly.sameTakers.trans (.modElem u g rfl), fun p hp => ?_, fun p hp => ?_, ?_⟩
  · rw [← honly.source]
    exact State.source_modElem u g (f := (·.passed (maskPorts m) b.tag.last k)) (fun _ => ⟨rfl, rfl⟩) g src d e
  · rw [State.edge, State.elem_modElem_self]
    exact (hedge c col p hcol ((maskPorts_spec m).2 p hp)).trans (if_pos ⟨rfl, rfl, hp⟩)
  · rw [State.elem_modElem_self, Elem.passed]
    exact (get?_busy_foldl _ _ _ _ _).trans (if_pos hp)
  · rw [State.elem_modElem_self, ← (congrArg Elem.asked hself :)]
    rfl

/-- An entry that can pass its beat does. -/
theorem State.forward_of_passes {s : State} {g k : Nat} {w : BitVec 16} {b : Beat} (hw : SMap.get? (s.elem g).switch k = some w)
    (hb : s.offered g k w = some b) (h : s.portsFree g k w = true ∧ s.outranked g k w = false) :
    s.forward g k = ((s.passed g (swCtx w) (swCol w) (maskPorts (swTo w)) b k).modSource g (swFrom w) (swCtx w) (swCol w) fun l =>
      { l with taken := NSet.insert l.taken (State.takerKey g (swFrom w) (32 + k)) }).clearHead g (swFrom w) (swCtx w) (swCol w) := by
  rw [State.forward, hw]
  dsimp only
  rw [hb]
  exact if_pos (by rw [h.1, h.2]; rfl)

/-- An entry that cannot pass its beat keeps its place among those that wait. -/
theorem State.forward_of_waits {s : State} {g k : Nat} {w : BitVec 16} {b : Beat} (hw : SMap.get? (s.elem g).switch k = some w)
    (hb : s.offered g k w = some b) (h : ¬ (s.portsFree g k w = true ∧ s.outranked g k w = false)) :
    s.forward g k = s.modElem g fun e => { e with asked := if e.asked.contains k then e.asked else e.asked ++ [k] } := by
  rw [State.forward, hw]
  dsimp only
  rw [hb]
  exact if_neg (by simpa using h)

theorem State.offered_eq {s : State} {g k : Nat} {w : BitVec 16} {b : Beat} {rest : List Beat} (hen : swEn w = true) (h4 : swFrom w ≠ 4)
    (hforce : s.inForce g (swCtx w) = true) (hdrain : s.drained g (swFrom w) (swCtx w) (swCol w) = false)
    (hb : (s.source g (swFrom w) (swCtx w) (swCol w)).beats = b :: rest)
    (hkey : State.takerKey g (swFrom w) (32 + k) ∉ (s.source g (swFrom w) (swCtx w) (swCol w)).taken) : s.offered g k w = some b := by
  rw [State.offered]
  rw [if_neg (by simpa [hen, h4, hforce, hdrain] using hkey), hb]
  rfl

end Sys2Proof.Machine

namespace Sys2Proof.Proofs
open Sys2Proof.Machine

theorem forwards : Claims.forwards := by
  intro s g k w b rest
  dsimp only
  intro hw hen h4 hforce hdrain hb hkey _
  have hcol : swCol w < 32 := (w.extractLsb' 11 5).isLt
  have hoff := State.offered_eq hen h4 hforce hdrain hb hkey
  refine ⟨fun hfree hrank => ?_, fun hblocked => ?_⟩
  · have hgo : s.portsFree g k w = true ∧ s.outranked g k w = false :=
      ⟨State.portsFree_iff.2 hfree, by rw [← Bool.not_eq_true, State.outranked_iff]; exact hrank⟩
    refine ⟨_, rfl, ?_⟩
    rw [State.forward_of_passes hw hoff hgo]
    obtain ⟨hsrc, htakers, hedge, hbusy, hasked⟩ := s.passed_spec g (swCtx w) hcol (swTo w) b k
    have hmem : State.takerKey g (swFrom w) (32 + k) ∈ s.takers g (swFrom w) (swCtx w) (swCol w) :=
      mem_takers_of_route hforce (List.mem_filter.2 ⟨SMap.mem_of_get? hw, by simp [hen]⟩)
    generalize s.passed g (swCtx w) (swCol w) (maskPorts (swTo w)) b k = u at *
    let mark (l : Lane) : Lane := { l with taken := NSet.insert l.taken (State.takerKey g (swFrom w) (32 + k)) }
    have helem : ({ ((u.modSource g (swFrom w) (swCtx w) (swCol w) mark).clearHead g (swFrom w) (swCtx w) (swCol w)).elem g with
        edges := (u.elem g).edges, ports := (u.elem g).ports } : Elem) = u.elem g := by
      have h1 := State.elem_clearHead (u.modSource g (swFrom w) (swCtx w) (swCol w) mark) g (swFrom w) (swCtx w) (swCol w) g
      have h2 := u.elem_modSource g (swFrom w) (swCtx w) (swCol w) mark g
      rw [← h2, ← h1]
    refine ⟨fun p hp => ⟨?_, ?_⟩, ?_, ?_⟩
    · rw [State.edge_clearHead, State.edge_modSource]; exact hedge p hp
    · rw [← hbusy p hp, ← (congrArg Elem.busy helem :)]
    · rw [← hasked, ← (congrArg Elem.asked helem :)]
    · rw [State.source_clearHead (by rw [hsrc]; exact hb) (by rw [htakers.takers]; exact hmem), hsrc, htakers.takers]
  · have hstop : ¬ (s.portsFree g k w = true ∧ s.outranked g k w = false) := by
      rintro ⟨h1, h2⟩
      rcases hblocked with h | h
      · exact h (State.portsFree_iff.1 h1)
      · rw [State.outranked_iff.2 h] at h2; cases h2
    refine ⟨_, rfl, ?_⟩
    rw [State.forward_of_waits hw hoff hstop]
    refine ⟨?_, fun h hh => State.elem_modElem_of_ne _ _ hh⟩
    rw [State.elem_modElem_self]
    simp only [List.contains_iff_mem]

end Sys2Proof.Proofs

namespace Sys2Proof.Machine

/-! ## A token of one beat enters its operand slot, R110, R151, R175 -/

/-- The context with one more operand that waits, in an entry of the matching store unless it completes a set. -/
def ElemCtx.entered (x : ElemCtx) (c n r : Nat) (o : Operand) : ElemCtx :=
  { x with operands := x.operands ++ [{ o with entries := if State.completes x c n r o then 0 else 1 }] }

/-- The element's state once a token has entered. -/
def State.entered (s : State) (g c n r : Nat) (o : Operand) : State :=
  (s.modEctx g c (·.entered c n r o)).modElem g fun e => { e with seq := e.seq + 1 }

theorem State.modEctx_congr {s : State} {g c : Nat} {f k : ElemCtx → ElemCtx} (h : f (s.ectx g c) = k (s.ectx g c)) :
    s.modEctx g c f = s.modEctx g c k := by
  rw [State.modEctx, State.modEctx, h]

theorem State.takeFrame_of_not_spawned {s : State} {g c : Nat} {f : BitVec 16} (h : SMap.get? s.spawned (s.spawnKey (gidTile g) c f) = none) :
    s.takeFrame g c f = some s := by
  rw [State.takeFrame, h]

theorem State.takeBeat_of_room {s : State} {g c n r : Nat} {b : Beat} (hlast : b.tag.last = true)
    (hwhole : ∀ o ∈ (s.ectx g c).operands, o.slot = n → o.which = r → o.whole = true)
    (hspawn : SMap.get? s.spawned (s.spawnKey (gidTile g) c b.tag.frm) = none)
    (hroom : State.completes (s.ectx g c) c n r (Claims.State.arriving s g c n r b) = true ∨ State.entriesUsed (s.ectx g c) + 1 ≤ (s.ectx g c).allot) :
    s.takeBeat g c n r b = (true, s.entered g c n r (Claims.State.arriving s g c n r b)) := by
  have hnew : (s.ectx g c).operands.find? (fun o => o.slot == n && o.which == r && !o.whole) = none :=
    List.find?_eq_none.2 fun o ho => by
      have := hwhole o ho
      simp only [Bool.and_eq_true, beq_iff_eq, Bool.not_eq_true', not_and, Bool.not_eq_false, and_imp]
      exact this
  unfold State.takeBeat
  dsimp only
  rw [hnew]
  dsimp only
  rw [State.takeFrame_of_not_spawned hspawn]
  dsimp only
  rw [hlast]
  change (if State.completes (s.ectx g c) c n r (Claims.State.arriving s g c n r b) = true then _
    else if State.entriesUsed (s.ectx g c) + (if true = true then 1 else _) ≤ (s.ectx g c).allot then _ else _) = _
  by_cases hc : State.completes (s.ectx g c) c n r (Claims.State.arriving s g c n r b) = true
  · rw [if_pos hc, State.entered]
    refine congrArg (fun u => (true, State.modElem u g fun e => { e with seq := e.seq + 1 })) (State.modEctx_congr ?_)
    rw [ElemCtx.entered, if_pos hc]; rfl
  · rw [if_neg hc, if_pos rfl, if_pos (hroom.resolve_left hc), State.entered]
    refine congrArg (fun u => (true, State.modElem u g fun e => { e with seq := e.seq + 1 })) (State.modEctx_congr ?_)
    rw [ElemCtx.entered, if_neg hc]; rfl

theorem State.entered_spec (s : State) (g c n r : Nat) (o : Operand) :
    (∀ h src d col, (s.entered g c n r o).source h src d col = s.source h src d col) ∧ s.SameTakers (s.entered g c n r o) :=
  ⟨fun h src d col => (State.source_modElem (s.modEctx g c (·.entered c n r o)) g (f := fun e => { e with seq := e.seq + 1 }) (fun _ => ⟨rfl, rfl⟩)
      h src d col).trans (State.source_congr (s := s) (fun _ => rfl) (fun _ => ⟨rfl, rfl⟩) h src d col),
    (State.SameTakers.modEctx s g c (f := (·.entered c n r o)) ⟨rfl, rfl⟩).trans (.modElem (s.modEctx g c (·.entered c n r o)) g rfl)⟩

/-! ## The one taker of a head beat -/

/-- The key that has taken a part of a source's head beat. -/
def Lane.mark (key : Nat) (l : Lane) : Lane := { l with taken := NSet.insert l.taken key }

/-- A head beat that nothing but `key` takes leaves its source when `key` has taken it. -/
theorem State.taken_spec {s : State} {g src c col key : Nat} {b : Beat} {rest : List Beat} (hb : (s.source g src c col).beats = b :: rest)
    (ht : s.takers g src c col = [key]) :
    let z := (s.modSource g src c col (Lane.mark key)).clearHead g src c col
    z.source g src c col = { s.source g src c col with beats := rest, taken := [], inside := !b.tag.last }
      ∧ (∀ h d, z.ectx h d = s.ectx h d) ∧ z.absent = s.absent
      ∧ (src = 5 → ∀ m < 32, ((s.tile (gidTile g)).task m).held = some (colourKey c col) → ((z.tile (gidTile g)).task m).held = none) := by
  dsimp only
  have hkey : key ∈ s.takers g src c col := by rw [ht]; exact List.mem_singleton_self _
  have hne : (s.source g src c col).beats ≠ [] := by rw [hb]; exact List.cons_ne_nil _ _
  have hl := State.source_modSource_self (Lane.mark key) hne
  have htk := ((State.SameTakers.modSource s g src c col (Lane.mark key)).takers g src c col).trans ht
  have hsrc := State.source_clearHead hb hkey
  rw [if_pos (by rw [ht]; exact fun a ha => .inl (List.mem_singleton.1 ha))] at hsrc
  obtain ⟨-, -, hectx, habs, hheld⟩ := State.clearHead_spec (by rw [hl]; exact hne) (by rw [htk]; exact List.cons_ne_nil _ _)
    (by rw [htk, hl]; exact fun a ha => (NSet.mem_insert _ _ _).2 (.inl (List.mem_singleton.1 ha)))
  refine ⟨hsrc, fun h d => (hectx h d).trans (s.ectx_modSource g src c col _ h d),
    habs.trans (congrArg State.absent (s.modSource_rest g src c col (Lane.mark key)) :), fun h5 m hm hh => hheld h5 m hm ?_⟩
  have htasks : ((s.modSource g src c col (Lane.mark key)).tile (gidTile g)).tasks = (s.tile (gidTile g)).tasks :=
    (congrArg Tile.tasks (s.tile_modSource g src c col (Lane.mark key) (gidTile g)) :)
  rw [Tile.task_congr htasks]
  exact hh

/-! ## What an offer does, R151 -/

theorem acceptors_lt {x : ElemCtx} {src col n r : Nat} (h : (n, r) ∈ State.acceptors x src col) : n < 16 ∧ r < 2 := by
  unfold State.acceptors at h
  split at h
  · cases h
  · obtain ⟨l, hl, hmem⟩ := List.mem_flatten.1 h
    obtain ⟨k, hk, rfl⟩ := List.mem_map.1 hl
    have hk := List.mem_range.1 hk
    simp only [List.mem_append] at hmem
    rcases hmem with hmem | hmem <;> split at hmem <;> simp at hmem <;> omega

/-- An element with nothing to take leaves the head beat as it is. -/
theorem State.offer_of_idle {s : State} {g src c col : Nat}
    (h : (s.source g src c col).beats = [] ∨ (s.inForce g c = true → State.acceptors (s.ectx g c) src col = []))
    (hc : s.clearHead g src c col = s) : s.offer g src c col = s := by
  unfold State.offer
  dsimp only
  split
  · rfl
  next b rest hb =>
    split
    · rfl
    next hgo =>
      have hforce : s.inForce g c = true := by
        cases hi : s.inForce g c with
        | true => rfl
        | false => exact absurd (by simp [hi]) hgo
      have hacc : State.acceptors (s.ectx g c) src col = [] := (h.resolve_left (by rw [hb]; exact List.cons_ne_nil _ _)) hforce
      rw [hacc]
      split
      · exact hc
      · exact hc

/-- The offer of a token of one beat that one slot takes. -/
theorem State.offer_of_takes {s u : State} {g src c col n r : Nat} {b : Beat} {rest : List Beat} (hb : (s.source g src c col).beats = b :: rest)
    (htaken : (s.source g src c col).taken = []) (hforce : s.inForce g c = true) (hdrain : s.drained g src c col = false)
    (hacc : State.acceptors (s.ectx g c) src col = [(n, r)]) (hh : b.tag.isHeader = false) (ht : s.takeBeat g c n r b = (true, u)) :
    s.offer g src c col = (u.modSource g src c col (Lane.mark (State.takerKey g src (2 * n + r)))).clearHead g src c col := by
  unfold State.offer
  dsimp only
  rw [hb]
  dsimp only
  rw [if_neg (by simp [hforce, hdrain]), hacc, if_neg (by simp [hh]), List.foldl_cons, List.foldl_nil, htaken, if_neg (by simp), ht]
  rfl

/-- The context whose headers hold one more. -/
def ElemCtx.latched (x : ElemCtx) (col : Nat) (d : BitVec 256) : ElemCtx :=
  { x with headers := SMap.set x.headers col (headerOf d (x.entry col).sfmt) }

/-- The offer of a header word that one slot takes: it is latched for its colour. -/
theorem State.offer_of_header {s : State} {g src c col n r : Nat} {b : Beat} {rest : List Beat} (hb : (s.source g src c col).beats = b :: rest)
    (hforce : s.inForce g c = true) (hdrain : s.drained g src c col = false)
    (hacc : State.acceptors (s.ectx g c) src col = [(n, r)]) (hh : b.tag.isHeader = true) :
    s.offer g src c col = (((s.modEctx g c (·.latched col b.data)).modSource g src c col (Lane.mark (State.takerKey g src (2 * n + r))))).clearHead
      g src c col := by
  unfold State.offer
  dsimp only
  rw [hb]
  dsimp only
  rw [if_neg (by simp [hforce, hdrain]), hacc, if_pos hh, if_neg (by simp), List.foldl_cons, List.foldl_nil]
  rfl

end Sys2Proof.Machine

namespace Sys2Proof.Machine

/-! ## The tile bus, R175 -/

theorem List.foldl_of_fixed {α β : Type} {f : α → β → α} {a : α} {l : List β} (h : ∀ b ∈ l, f a b = a) : l.foldl f a = a := by
  induction l with
  | nil => rfl
  | cons b l ih => rw [List.foldl_cons, h b List.mem_cons_self]; exact ih fun x hx => h x (List.mem_cons_of_mem _ hx)

theorem gidTile_bus {g e : Nat} (he : e < 64) : gidTile (64 * gidTile g + e) = gidTile g := by
  simp only [gidTile]; omega

/-- No element of the tile has anything to take. -/
theorem State.busAccept_of_idle {s : State} {g c col : Nat} (hoff : ∀ h, gidTile h = gidTile g → s.offer h 5 c col = s)
    (hc : ∀ h, gidTile h = gidTile g → s.clearHead h 5 c col = s) : s.busAccept (gidTile g) c col = s := by
  rw [State.busAccept, List.foldl_of_fixed fun e he => hoff _ (gidTile_bus (List.mem_range.1 he))]
  exact hc _ (gidTile_bus (e := 0) (by omega))

/-- One element of the tile takes the only beat. -/
theorem State.busAccept_of_taken {s : State} {g c col : Nat} (hoff : ∀ h, gidTile h = gidTile g → h ≠ g → s.offer h 5 c col = s)
    (hz : ((s.offer g 5 c col).source g 5 c col).beats = []) : s.busAccept (gidTile g) c col = s.offer g 5 c col := by
  have hempty (h : Nat) (hh : gidTile h = gidTile g) : ((s.offer g 5 c col).source h 5 c col).beats = [] := by rw [source_bus hh]; exact hz
  have hstay (h : Nat) (hh : gidTile h = gidTile g) : (s.offer g 5 c col).clearHead h 5 c col = s.offer g 5 c col :=
    State.clearHead_of_stays (.inl (hempty h hh))
  obtain ⟨pre, post, hsplit⟩ := List.append_of_mem (List.mem_range.2 (Nat.mod_lt g (by omega : 64 > 0)) : gidElem g ∈ List.range 64)
  have hlt (e : Nat) (he : e ∈ pre ++ gidElem g :: post) : e < 64 := List.mem_range.1 (hsplit ▸ he)
  have hnd : (pre ++ gidElem g :: post).Nodup := hsplit ▸ List.nodup_range
  have hpre : ∀ e ∈ pre, s.offer (64 * gidTile g + e) 5 c col = s := fun e he => by
    refine hoff _ (gidTile_bus (hlt e (by simp [he]))) fun h => ?_
    have : e = gidElem g := by have := gid_eq g; omega
    subst this
    simp [List.nodup_append] at hnd
    exact absurd rfl (hnd.2.2 _ he).1
  have hpost : ∀ e ∈ post, (s.offer g 5 c col).offer (64 * gidTile g + e) 5 c col = s.offer g 5 c col := fun e he =>
    State.offer_of_idle (.inl (hempty _ (gidTile_bus (hlt e (by simp [he]))))) (hstay _ (gidTile_bus (hlt e (by simp [he]))))
  rw [State.busAccept, hsplit, List.foldl_append, List.foldl_of_fixed (l := pre) hpre, List.foldl_cons, gid_eq, List.foldl_of_fixed hpost]
  exact hstay _ (gidTile_bus (e := 0) (by omega))

/-- Of the elements of a tile only the one whose slot takes a beat of the bus has anything to do with it. -/
theorem offer_of_other {s : State} {g h c col n r : Nat} (hh : gidTile h = gidTile g) (hne : h ≠ g)
    (hnr : (n, r) ∈ State.acceptors (s.ectx g c) 5 col) (ht : s.takers g 5 c col = [State.takerKey g 5 (2 * n + r)])
    (htaken : (s.source g 5 c col).taken = []) : s.offer h 5 c col = s := by
  have hclear : s.clearHead h 5 c col = s := by
    refine State.clearHead_of_stays (.inr (.inr ⟨State.takerKey g 5 (2 * n + r), ?_, ?_⟩))
    · rw [takers_bus hh, ht]; exact List.mem_singleton_self _
    · rw [source_bus hh, htaken]; exact List.not_mem_nil
  refine State.offer_of_idle (.inr fun hforce => ?_) hclear
  by_contra hacc
  obtain ⟨⟨n', r'⟩, hmem⟩ := List.exists_mem_of_ne_nil _ hacc
  have hkey := mem_takers_of_acceptor hforce hmem
  rw [takers_bus hh, ht, List.mem_singleton] at hkey
  have h1 := acceptors_lt hmem
  have h2 := acceptors_lt hnr
  simp only [State.takerKey, if_true] at hkey
  have h3 := gid_eq g
  have h4 := gid_eq h
  rw [hh] at h4
  omega

end Sys2Proof.Machine

namespace Sys2Proof.Proofs
open Sys2Proof.Machine

/-- A token or header that one slot takes: the offer on the tile bus is the offer to its element. -/
theorem exec_offer {s : State} {g src c col n r : Nat} {rest : List Beat} {i : Instr}
    (hi : i = .tokenArrival g src c col ∨ (i = .tileBusDownwardAccept (gidTile g) c col ∧ src = 5 ∧ rest = []))
    (htaken : (s.source g src c col).taken = []) (hacc : State.acceptors (s.ectx g c) src col = [(n, r)])
    (ht : s.takers g src c col = [State.takerKey g src (2 * n + r)]) (hz : ((s.offer g src c col).source g src c col).beats = rest) :
    exec i s = settle (s.offer g src c col) := by
  rcases hi with rfl | ⟨rfl, rfl, rfl⟩
  · rfl
  · have hnr : (n, r) ∈ State.acceptors (s.ectx g c) 5 col := by rw [hacc]; exact List.mem_singleton_self _
    show settle (s.busAccept (gidTile g) c col) = _
    rw [State.busAccept_of_taken (fun h hh hne => offer_of_other hh hne hnr ht htaken) hz]

/-- A beat that nothing accepts stays. -/
theorem exec_offer_of_idle {s : State} {g src c col : Nat} {rest : List Beat} {i : Instr}
    (hi : i = .tokenArrival g src c col ∨ (i = .tileBusDownwardAccept (gidTile g) c col ∧ src = 5 ∧ rest = []))
    (ht : s.takers g src c col = []) : exec i s = settle s := by
  have hnone (h : Nat) (hk : s.takers h src c col = []) : s.clearHead h src c col = s ∧ s.offer h src c col = s := by
    have hclear : s.clearHead h src c col = s := State.clearHead_of_stays (.inr (.inl hk))
    refine ⟨hclear, State.offer_of_idle (.inr fun hforce => ?_) hclear⟩
    by_contra hacc
    obtain ⟨⟨n, r⟩, hmem⟩ := List.exists_mem_of_ne_nil _ hacc
    have := mem_takers_of_acceptor hforce hmem
    rw [hk] at this
    cases this
  rcases hi with rfl | ⟨rfl, rfl, -⟩
  · exact congrArg settle (hnone g ht).2
  · show settle (s.busAccept (gidTile g) c col) = _
    rw [State.busAccept_of_idle (fun h hh => (hnone h ((takers_bus hh s c col).trans ht)).2)
      fun h hh => (hnone h ((takers_bus hh s c col).trans ht)).1]

theorem offers : Claims.offers := by
  intro s g src c col n r b rest ha hc hsrc
  dsimp only
  intro i hi hb htaken hforce hdrain
  refine ⟨fun ht => gives_settled (exec_offer_of_idle hi ht) ha rfl, fun hacc ht => ⟨fun hh hlast hwhole hspawn hroom => ?_, fun hh => ?_⟩⟩
  · obtain ⟨hsource, htakers⟩ := s.entered_spec g c n r (Claims.State.arriving s g c n r b)
    have hoff := State.offer_of_takes hb htaken hforce hdrain hacc hh (State.takeBeat_of_room hlast hwhole hspawn hroom)
    obtain ⟨hz, hectx, habs, hheld⟩ := State.taken_spec (key := State.takerKey g src (2 * n + r)) ((congrArg Lane.beats (hsource g src c col)).trans hb)
      ((htakers.takers g src c col).trans ht)
    rw [← hoff] at hz hectx habs hheld
    refine gives_settled (exec_offer hi htaken hacc ht (congrArg Lane.beats hz)) (habs.trans ha) ⟨?_, fun h d hd hne => ?_, ?_, hheld⟩
    · rw [hectx]; exact State.ectx_modEctx_self s g c (·.entered c n r (Claims.State.arriving s g c n r b))
    · rw [hectx]
      exact State.ectx_modEctx_of_ne s (·.entered c n r (Claims.State.arriving s g c n r b)) fun e => hne (by
        rw [Prod.mk.injEq]; omega)
    · rw [hz, hsource, hlast]; rfl
  · have hoff := State.offer_of_header hb hforce hdrain hacc hh
    obtain ⟨hz, hectx, habs, -⟩ := State.taken_spec (s := s.modEctx g c (·.latched col b.data)) (key := State.takerKey g src (2 * n + r)) hb
      (((State.SameTakers.modEctx s g c (f := (·.latched col b.data)) ⟨rfl, rfl⟩).takers g src c col).trans ht)
    rw [← hoff] at hz hectx habs
    have hx : (s.offer g src c col).ectx g c = (s.ectx g c).latched col b.data := by rw [hectx, State.ectx_modEctx_self]
    refine gives_settled (exec_offer hi htaken hacc ht (congrArg Lane.beats hz)) (habs.trans ha) ⟨?_, ?_, congrArg Lane.beats hz⟩
    · rw [hx]; exact SMap.get?_set_self _ _ _
    · rw [hx]; rfl

/-- Settles O40: an offer, a passed beat, a freed record and an issued iteration are each followed to the one lane, operand or loop that they
change. -/
theorem tokensOnTheFabric : Obligations.TokensOnTheFabric :=
  ⟨arrivals, offers, takeBacks, recoveries, iterations, forwards, depthChanges⟩

end Sys2Proof.Proofs

end

section
/-! PROOFS. What the translation of a refused access leaves, and what an atomic compares, where a correctable error stands in the word read
(R66 to R70, R228, R377): O7, O8 and O9. -/

set_option autoImplicit false

namespace Sys2Proof.Machine

/-! ## A walk that finds its first entry not valid, R225 and R228 -/

/-- Where no element has any state, no line is called back. -/
theorem State.callBack_of_no_elems {s : State} (h : s.elems = []) (own : Option Nat) (sp : Space) (a n : Nat) : s.callBack own sp a n = s := by
  have hline (l : Nat) : s.recallLine l = s := by rw [State.recallLine, h]; rfl
  unfold State.callBack
  split
  · exact List.foldl_of_fixed fun l _ => by rw [hline, ite_self]
  · rfl

theorem State.walkFrom_of_invalid {s : State} {die c va table a : Nat} (ha : table + 8 * (va / 2 ^ 45 % 2048) = a)
    (hv : pteV (s.entryAt die c a).1 = false) : s.walkFrom die c va 4 0 table = (none, (s.entryAt die c a).2) := by
  subst ha
  unfold State.walkFrom
  exact if_pos ((congrArg not hv).trans rfl)

/-- The entry at `a`, which the walk reads first, is not valid: nothing is found, and the entry's correctable error has been corrected. -/
theorem State.curProbe_of_invalid {s : State} {va a : Nat} (hva : va < 2 ^ 56) (hen : (s.rootOf s.cur.ctx.toNat).en = true)
    (ha : (s.rootOf s.cur.ctx.toNat).root.toNat * 2 ^ 14 + 8 * (va / 2 ^ 45 % 2048) = a) (hu : s.unit s.curDie = {}) (he : s.elems = [])
    (hx : physExists .hbm a 8 = true) (hv : pteV (BitVec.ofNat 64 ((s.correct s.curDie .hbm a 8).bytesAt .hbm a 8)) = false) (n : Nat) (need : Need) :
    s.curProbe va n need = (.error 0x05, s.correct s.curDie .hbm a 8) := by
  have hentry : s.entryAt s.curDie s.cur.ctx.toNat a
      = (BitVec.ofNat 64 ((s.correct s.curDie .hbm a 8).bytesAt .hbm a 8), s.correct s.curDie .hbm a 8) := by
    rw [State.entryAt, hu, List.find?_nil]
    simp only [hx, if_true, State.callBack_of_no_elems he]
  have hwalk := State.walkFrom_of_invalid (s := s) (die := s.curDie) (c := s.cur.ctx.toNat) ha (by rw [hentry]; exact hv)
  have ht : s.translate s.curDie s.cur.ctx.toNat va = (none, s.correct s.curDie .hbm a 8) := by
    rw [State.translate, if_neg (by rw [hen, not_or]; exact ⟨Nat.not_le.2 hva, Bool.noConfusion⟩), hu, List.find?_nil]
    simp only [State.walk, hen, hwalk, hentry, Bool.not_true, Bool.false_eq_true, if_false]
  rw [State.curProbe, State.probe, ht]

end Sys2Proof.Machine

namespace Sys2Proof.Proofs
open Sys2Proof.Machine

/-- After reset, with translation enabled in context 0 and no table written; the entry that a walk of address 0 reads first has a correctable
error. -/
def weakTable : State := { State.reset with troot := State.reset.troot.set 0 ⟨0, true⟩, hbm := { weakEcc := [0] } }

theorem issues_weakTable : weakTable.Issues := ⟨by decide, by decide, by decide⟩

theorem refused_weakTable (n : Nat) (need : Need) : Refused weakTable 0 n need 0x05 (weakTable.correct 0 .hbm 0 8) :=
  ⟨State.curProbe_of_invalid (by decide) (by decide) (by decide) (by decide) (by decide) (by simp [physExists, hbmReach]) (by decide) n need,
    (Calm.correct _ _ _ _ _).2.1⟩

/-- No element owns a line, and yet the refused access has changed more than the translation caches. -/
theorem not_onlyWalked_weakTable : ¬ OnlyWalked weakTable (weakTable.correct 0 .hbm 0 8) := fun ⟨_, h⟩ =>
  absurd (congrArg (fun v : State => v.hbm.weakEcc) (h fun _ => rfl)) (by decide)

/-- Refutes O7: an access that is refused because the entry of its page is not valid has also corrected the entry's correctable error and
counted it, R377. -/
theorem not_deviceMemoryWords : ¬ Obligations.DeviceMemoryWords := by
  rintro ⟨hloads, -⟩
  obtain ⟨-, hrefused, -⟩ := hloads weakTable 0 0 0 issues_weakTable _ List.mem_cons_self
  exact not_onlyWalked_weakTable (hrefused rfl 0x05 _ (refused_weakTable _ _)).1

/-- Refutes O8: as O7, by the translation of an AADD. -/
theorem not_atomics : ¬ Obligations.Atomics := by
  rintro ⟨-, hchecks⟩
  obtain ⟨-, hrefused, -⟩ := hchecks weakTable 0 0 0 0 issues_weakTable rfl _ List.mem_cons_self
  exact not_onlyWalked_weakTable (hrefused rfl 0x05 _ (refused_weakTable _ _)).1

/-! ## WAITV on the telemetry of corrected errors, R402 -/

/-- After reset, with the page at address 0 lying on the management aperture and register 1 at the counts of errors of die 0 in it; the word of
device memory at that physical address has a correctable error. -/
def weakTelemetry : State :=
  { State.reset.modCur (fun k => k.setReg 1 0x28) with
    troot := State.reset.troot.set 0 ⟨0, true⟩
    units := [(0, { leaves := [⟨0, false, 0, BitVec.ofNat 64 (2 ^ 63 + 2 ^ 58 + 2 ^ 57 + 2 ^ 56 + mbase + 128), 0⟩] })]
    hbm := { weakEcc := [(mbase + 0x28) / 8] } }

theorem issues_weakTelemetry : weakTelemetry.Issues := ⟨by decide, by decide, by decide⟩

/-- At its home the word is readable and reads 0: no error has been corrected yet. -/
theorem atWord_weakTelemetry : ∃ h w, AtWord weakTelemetry (weakTelemetry.reg 1) (mbase + 0x28) h w ∧ word (h.bytesAt .hbm (mbase + 0x28) 8) = 0 :=
  ⟨weakTelemetry.homed .hbm (mbase + 0x28) 8, _, ⟨⟨weakTelemetry, rfl, rfl⟩, rfl, rfl⟩, rfl⟩

/-- WAITV corrects the error before it compares, so that it compares a count of 1 and arms no monitor. -/
theorem monitors_waitv_weakTelemetry {t : State} (h : exec (.waitv 0 1 0 0) weakTelemetry = .next t) : t.monitors = [] := by
  have : (match exec (.waitv 0 1 0 0) weakTelemetry with | .next t => t.monitors | _ => []) = [] := rfl
  rwa [h] at this

/-- Refutes O9: WAITV compares the word as it stands after the correction of the error in it, which the count of corrected errors, when it is the
word that is compared, shows. -/
theorem not_waitAndWake : ¬ Obligations.WaitAndWake := by
  intro hall
  obtain ⟨h, w, hw, hm⟩ := atWord_weakTelemetry
  obtain ⟨-, harms, -⟩ := hall weakTelemetry 0 1 0 0 _ h w issues_weakTelemetry rfl rfl hw
  obtain ⟨t, he, ht, -⟩ := harms hm
  rw [monitors_waitv_weakTelemetry he] at ht
  exact List.cons_ne_nil _ _ (List.append_eq_nil_iff.1 ht.symm).2

end Sys2Proof.Proofs

end

section
/-! PROOFS. The integer and immediate words (R59 to R61): O1 and O2. -/

set_option autoImplicit false

namespace Sys2Proof.Machine

/-! ## Words as integers modulo 2^64, R9 -/

theorem ofInt_sub {n : Nat} (i j : Int) : BitVec.ofInt n (i - j) = BitVec.ofInt n i - BitVec.ofInt n j := by
  rw [Int.sub_eq_add_neg, BitVec.ofInt_add, BitVec.ofInt_neg, BitVec.sub_eq_add_neg]

theorem ofInt_toNat {n : Nat} (a : BitVec n) : BitVec.ofInt n a.toNat = a := by rw [BitVec.ofInt_natCast, BitVec.ofNat_toNat, BitVec.setWidth_eq]

/-- The low bits of the low bits of an integer. -/
theorem setWidth_ofInt {m n : Nat} (h : m ≤ n) (i : Int) : (BitVec.ofInt n i).setWidth m = BitVec.ofInt m i := by
  have hd : ((2 ^ m : Nat) : Int) ∣ (2 ^ n : Nat) := by exact_mod_cast Nat.pow_dvd_pow 2 h
  refine BitVec.eq_of_toNat_eq (Int.natCast_inj.1 ?_)
  rw [BitVec.toNat_setWidth, BitVec.toNat_ofInt, BitVec.toNat_ofInt, Int.natCast_emod, Int.toNat_of_nonneg (Int.emod_nonneg _ (by positivity)),
    Int.emod_emod_of_dvd i hd, Int.toNat_of_nonneg (Int.emod_nonneg _ (by positivity))]

/-- A pattern of few bits as a number of 64. -/
theorem setWidth_ofInt_wide {m : Nat} (i : Int) : (BitVec.ofInt m i).setWidth 64 = BitVec.ofInt 64 (i % (2 ^ m : Nat)) := by
  have hi := Int.emod_nonneg i (b := (2 ^ m : Nat)) (by positivity)
  obtain ⟨k, hk⟩ := Int.eq_ofNat_of_zero_le hi
  refine BitVec.eq_of_toNat_eq ?_
  rw [BitVec.toNat_setWidth, BitVec.toNat_ofInt, hk, BitVec.ofInt_natCast, BitVec.toNat_ofNat, Int.toNat_natCast]

section
variable (x y : Word) (n : Nat)

theorem add_eq_ofInt : x + y = BitVec.ofInt 64 (x.toNat + y.toNat) := by rw [BitVec.ofInt_add, ofInt_toNat, ofInt_toNat]
theorem sub_eq_ofInt : x - y = BitVec.ofInt 64 (x.toNat - y.toNat) := by rw [ofInt_sub, ofInt_toNat, ofInt_toNat]
theorem mul_eq_ofInt : x * y = BitVec.ofInt 64 (x.toNat * y.toNat) := by rw [BitVec.ofInt_mul, ofInt_toNat, ofInt_toNat]
theorem div_eq_ofInt : x / y = BitVec.ofInt 64 (x.toNat / y.toNat) := by
  rw [← Int.natCast_ediv, ← BitVec.toNat_udiv]; exact (ofInt_toNat _).symm
theorem mod_eq_ofInt : x % y = BitVec.ofInt 64 (x.toNat % y.toNat) := by
  rw [← Int.natCast_emod, ← BitVec.toNat_umod]; exact (ofInt_toNat _).symm
theorem shiftLeft_eq_ofInt : x <<< n = BitVec.ofInt 64 (x.toNat * 2 ^ n) := by
  refine BitVec.eq_of_toNat_eq ?_
  rw [BitVec.toNat_shiftLeft, Nat.shiftLeft_eq, ← BitVec.toNat_ofNat, ← BitVec.ofInt_natCast, Int.natCast_mul, Int.natCast_pow]; rfl
theorem shiftRight_eq_ofInt : x >>> n = BitVec.ofInt 64 (x.toNat / 2 ^ n) := by
  rw [← ofInt_toNat (x >>> n), BitVec.toNat_ushiftRight, Nat.shiftRight_eq_div_pow, Int.natCast_ediv, Int.natCast_pow]; rfl
theorem shaWord_eq_ofInt : shaWord x n = BitVec.ofInt 64 (x.toInt / 2 ^ n) := by
  rw [shaWord, BitVec.sshiftRight, Int.shiftRight_eq_div_pow]; rfl

theorem mulhWord_eq_ofInt : mulhWord x y = BitVec.ofInt 64 (x.toNat * y.toNat / 2 ^ 64) := by
  rw [mulhWord, ← BitVec.ofInt_natCast, Int.natCast_ediv, Int.natCast_mul]; rfl
theorem divWord_eq_ofInt : divWord x y = if y = 0 then BitVec.ofInt 64 (2 ^ 64 - 1) else BitVec.ofInt 64 (x.toNat / y.toNat) := by
  rw [divWord, div_eq_ofInt]; rfl
theorem remWord_eq_ofInt : remWord x y = if y = 0 then x else BitVec.ofInt 64 (x.toNat % y.toNat) := by rw [remWord, mod_eq_ofInt]

/-- The quotient of −2^63 by −1 is 2^63, which wraps round. -/
theorem divsWord_eq_ofInt : divsWord x y = if y = 0 then BitVec.ofInt 64 (2 ^ 64 - 1)
    else if x.toInt = -2 ^ 63 ∧ y.toInt = -1 then BitVec.ofInt 64 (2 ^ 63) else BitVec.ofInt 64 (x.toInt.tdiv y.toInt) := by
  unfold divsWord
  refine ite_congr rfl (fun _ => rfl) fun _ => ?_
  split
  · next h => rw [h.1, h.2]; rfl
  · rfl
theorem remsWord_eq_ofInt : remsWord x y = if y = 0 then x
    else if x.toInt = -2 ^ 63 ∧ y.toInt = -1 then 0 else BitVec.ofInt 64 (x.toInt - y.toInt * x.toInt.tdiv y.toInt) := by
  unfold remsWord
  refine ite_congr rfl (fun _ => rfl) fun _ => ?_
  split
  · next h => rw [h.1, h.2]; rfl
  · rfl

theorem minWord_eq_ofInt : minWord x y = BitVec.ofInt 64 (min (x.toNat : Int) y.toNat) := by
  rcases lt_or_ge x.toNat y.toNat with h | h
  · rw [minWord, if_pos (BitVec.ult_iff_toNat_lt.2 h), min_eq_left (by omega), ofInt_toNat]
  · rw [minWord, if_neg (fun e => h.not_gt (BitVec.ult_iff_toNat_lt.1 e)), min_eq_right (by omega), ofInt_toNat]
theorem maxWord_eq_ofInt : maxWord x y = BitVec.ofInt 64 (max (x.toNat : Int) y.toNat) := by
  rcases lt_or_ge x.toNat y.toNat with h | h
  · rw [maxWord, if_pos (BitVec.ult_iff_toNat_lt.2 h), max_eq_right (by omega), ofInt_toNat]
  · rw [maxWord, if_neg (fun e => h.not_gt (BitVec.ult_iff_toNat_lt.1 e)), max_eq_left (by omega), ofInt_toNat]
theorem minsWord_eq_ofInt : minsWord x y = BitVec.ofInt 64 (min x.toInt y.toInt) := by
  rcases lt_or_ge x.toInt y.toInt with h | h
  · rw [minsWord, if_pos (BitVec.slt_iff_toInt_lt.2 h), min_eq_left h.le, BitVec.ofInt_toInt]
  · rw [minsWord, if_neg (fun e => h.not_gt (BitVec.slt_iff_toInt_lt.1 e)), min_eq_right h, BitVec.ofInt_toInt]
theorem maxsWord_eq_ofInt : maxsWord x y = BitVec.ofInt 64 (max x.toInt y.toInt) := by
  rcases lt_or_ge x.toInt y.toInt with h | h
  · rw [maxsWord, if_pos (BitVec.slt_iff_toInt_lt.2 h), max_eq_right h.le, BitVec.ofInt_toInt]
  · rw [maxsWord, if_neg (fun e => h.not_gt (BitVec.slt_iff_toInt_lt.1 e)), max_eq_left h, BitVec.ofInt_toInt]

theorem w32_ofInt (i : Int) : w32 (BitVec.ofInt 64 i) = (BitVec.ofInt 32 i).signExtend 64 := by
  rw [w32, sextWord, setWidth_ofInt (by decide)]
/-- Of the word that SHLW shifts only the low 32 bits count, R59. -/
theorem shlwWord_eq_ofInt : shlwWord x y = (BitVec.ofInt 32 (x.toNat % 2 ^ 32 * 2 ^ (y.toNat % 32))).signExtend 64 := by
  rw [shlwWord, shiftLeft_eq_ofInt, w32_ofInt, BitVec.ofInt_mul, BitVec.ofInt_mul]
  congr 2
  refine BitVec.eq_of_toNat_eq ?_
  rw [BitVec.toNat_ofInt, BitVec.toNat_ofInt]
  exact congrArg Int.toNat (Int.emod_emod_of_dvd _ dvd_rfl).symm
end

/-! ## Bits and bytes in order, R59 -/

theorem leadingFrom_eq (x k : Nat) : leadingFrom x k = ((List.range k).takeWhile fun i => !x.testBit (k - 1 - i)).length := by
  induction k with
  | zero => rfl
  | succ k ih =>
    rw [leadingFrom, List.range_succ_eq_map, List.takeWhile_cons]
    cases h : x.testBit k with
    | true => simp [h]
    | false => simp [h, ih, List.takeWhile_map, Function.comp_def, Nat.sub_sub, Nat.add_comm 1]

theorem trailingFrom_eq (x k i : Nat) : trailingFrom x i k = ((List.range k).takeWhile fun j => !x.testBit (i + j)).length := by
  induction k generalizing i with
  | zero => rfl
  | succ k ih =>
    rw [trailingFrom, List.range_succ_eq_map, List.takeWhile_cons]
    cases h : x.testBit i with
    | true => simp
    | false => simp [ih, List.takeWhile_map, Function.comp_def, Nat.add_comm, Nat.add_left_comm]

theorem onesBelow_eq (x k : Nat) : onesBelow x k = (List.range k).countP fun i => x.testBit i := by
  induction k with
  | zero => rfl
  | succ k ih => rw [onesBelow, ih, List.range_succ, List.countP_append, List.countP_singleton, Nat.add_comm]

theorem reverseBits_lt (x n : Nat) : reverseBits x n < 2 ^ n := by
  induction n generalizing x with
  | zero => simp [reverseBits]
  | succ n ih =>
    have := ih (x / 2)
    rw [reverseBits, Nat.pow_succ]
    split <;> omega

theorem testBit_reverseBits (x : Nat) {n i : Nat} (h : i < n) : (reverseBits x n).testBit i = x.testBit (n - 1 - i) := by
  induction n generalizing x with
  | zero => omega
  | succ n ih =>
    rw [reverseBits]
    rcases Nat.lt_succ_iff_lt_or_eq.1 h with hi | rfl
    · have hrest : (reverseBits (x / 2) n).testBit i = x.testBit (n - i) := by
        rw [ih _ hi, ← Nat.testBit_succ]; congr 1; omega
      rw [show n + 1 - 1 - i = n - i by omega, ← hrest]
      split
      · exact Nat.testBit_two_pow_add_gt hi _
      · rw [Nat.zero_add]
    · have hlt := Nat.testBit_lt_two_pow (reverseBits_lt (x / 2) i)
      rw [show i + 1 - 1 - i = 0 by omega]
      split
      · next h0 => rw [Nat.testBit_two_pow_add_eq, hlt, h0]; rfl
      · next h0 => rw [Nat.zero_add, hlt]; simpa using h0

theorem reverseBytes_lt (x n : Nat) : reverseBytes x n < 256 ^ n := by
  induction n generalizing x with
  | zero => simp [reverseBytes]
  | succ n ih =>
    have := ih (x / 256)
    have : x % 256 * 256 ^ n ≤ 255 * 256 ^ n := Nat.mul_le_mul_right _ (by omega)
    rw [reverseBytes, Nat.pow_succ]
    omega

theorem byte_reverseBytes (x : Nat) {n i : Nat} (h : i < n) : reverseBytes x n / 256 ^ i % 256 = x / 256 ^ (n - 1 - i) % 256 := by
  induction n generalizing x with
  | zero => omega
  | succ n ih =>
    rw [reverseBytes]
    rcases Nat.lt_succ_iff_lt_or_eq.1 h with hi | rfl
    · have hsplit : 256 ^ n = 256 ^ i * (256 * 256 ^ (n - 1 - i)) := by rw [← Nat.pow_succ', ← Nat.pow_add]; congr 1; omega
      rw [hsplit, show x % 256 * (256 ^ i * (256 * 256 ^ (n - 1 - i))) = 256 ^ i * (256 * (x % 256 * 256 ^ (n - 1 - i))) by ring, Nat.add_comm,
        Nat.add_mul_div_left _ _ (by positivity), Nat.add_mul_mod_self_left, ih _ hi, Nat.div_div_eq_div_mul, ← Nat.pow_succ']
      congr 3; omega
    · rw [Nat.add_comm, Nat.add_mul_div_right _ _ (by positivity), Nat.div_eq_of_lt (reverseBytes_lt _ _), show i + 1 - 1 - i = 0 by omega]
      simp

section
variable (x y : Word)

theorem clzWord_eq : clzWord x = BitVec.ofInt 64 ((List.range 64).takeWhile fun i => !x.getLsbD (63 - i)).length := by
  rw [clzWord, leadingFrom_eq, BitVec.ofInt_natCast]; rfl
theorem ctzWord_eq : ctzWord x = BitVec.ofInt 64 ((List.range 64).takeWhile fun i => !x.getLsbD i).length := by
  rw [ctzWord, trailingFrom_eq, BitVec.ofInt_natCast]; simp only [Nat.zero_add]; rfl
theorem popcWord_eq : popcWord x = BitVec.ofInt 64 ((List.range 64).countP fun i => x.getLsbD i) := by
  rw [popcWord, onesBelow_eq, BitVec.ofInt_natCast]; rfl

theorem getLsbD_brevWord {i : Nat} (h : i < 64) : (brevWord x).getLsbD i = x.getLsbD (63 - i) := by
  rw [brevWord, word, BitVec.getLsbD_ofNat, testBit_reverseBits _ h]; simp [h]; rfl
theorem byte_bswapWord {i : Nat} (h : i < 8) : (bswapWord x).extractLsb' (8 * i) 8 = x.extractLsb' (8 * (7 - i)) 8 := by
  refine BitVec.eq_of_toNat_eq ?_
  have hp (k : Nat) : 2 ^ (8 * k) = 256 ^ k := by rw [Nat.pow_mul]
  have hlt : reverseBytes x.toNat 8 < 2 ^ 64 := reverseBytes_lt x.toNat 8
  rw [toNat_extractLsb, toNat_extractLsb, bswapWord, word, BitVec.toNat_ofNat, Nat.mod_eq_of_lt hlt, hp, hp]
  exact byte_reverseBytes x.toNat h

theorem getLsbD_rolWord {i : Nat} (h : i < 64) : (rolWord x y).getLsbD ((i + y.toNat % 64) % 64) = x.getLsbD i := by
  have hr : y.toNat % 64 < 64 := Nat.mod_lt _ (by decide)
  rw [rolWord, BitVec.getLsbD_rotateLeft_of_le hr]
  generalize y.toNat % 64 = r at hr ⊢
  rcases lt_or_ge (i + r) 64 with hi | hi
  · rw [Nat.mod_eq_of_lt hi, show decide (i + r < r) = false by simp, Nat.add_sub_cancel]
    simp [hi]
  · rw [show (i + r) % 64 = i + r - 64 by omega, show decide (i + r - 64 < r) = true by simp; omega, show 64 - r + (i + r - 64) = i by omega]
    rfl
theorem getLsbD_rorWord {i : Nat} (h : i < 64) : (rorWord x y).getLsbD i = x.getLsbD ((i + y.toNat % 64) % 64) := by
  have hr : y.toNat % 64 < 64 := Nat.mod_lt _ (by decide)
  rw [rorWord, BitVec.getLsbD_rotateRight_of_lt hr]
  generalize y.toNat % 64 = r at hr ⊢
  rcases lt_or_ge (i + r) 64 with hi | hi
  · rw [Nat.mod_eq_of_lt hi, show decide (i < 64 - r) = true by simp; omega, Nat.add_comm]
    rfl
  · rw [show (i + r) % 64 = i - (64 - r) by omega, show decide (i < 64 - r) = false by simp; omega]
    simp [h]
end

/-! ## The immediates, R60 and R61 -/

theorem add_sext12 (x : Word) (i : BitVec 12) : x + sext12 i = BitVec.ofInt 64 (x.toNat + i.toInt) := by
  rw [BitVec.ofInt_add, ofInt_toNat]; rfl
theorem mul_sext12 (x : Word) (i : BitVec 12) : x * sext12 i = BitVec.ofInt 64 (x.toNat * i.toInt) := by
  rw [BitVec.ofInt_mul, ofInt_toNat]; rfl
theorem toInt_sext12 (i : BitVec 12) : (sext12 i).toInt = i.toInt := BitVec.toInt_signExtend_of_le (by decide)

theorem lui_eq (up : BitVec 17) : (up ++ 0#12).signExtend 64 = BitVec.ofInt 64 (BitVec.ofInt 29 (up.toNat * 2 ^ 12)).toInt := by
  have : up ++ 0#12 = BitVec.ofInt 29 (up.toNat * 2 ^ 12) := by
    refine BitVec.eq_of_toNat_eq ?_
    rw [BitVec.toNat_append, BitVec.toNat_ofNat, Nat.zero_mod, Nat.or_zero, Nat.shiftLeft_eq, BitVec.toNat_ofInt]
    have := up.isLt
    omega
  rw [this]; rfl
theorem addpc_eq (pc : BitVec 15) (up : BitVec 17) :
    (pc + 4#15 * up.signExtend 15).setWidth 64 = BitVec.ofInt 64 ((pc.toNat + 4 * up.toInt) % 2 ^ 15) := by
  have : pc + 4#15 * up.signExtend 15 = BitVec.ofInt 15 (pc.toNat + 4 * up.toInt) := by
    rw [BitVec.ofInt_add, ofInt_toNat, BitVec.ofInt_mul]; rfl
  rw [this, setWidth_ofInt_wide]; rfl

/-! ## The words -/

/-- A word that writes a register, with its value as the spec gives it. -/
theorem writes_of_eq {s : State} {i : Instr} {d : SReg} {v w : Word} (h : s.Issues) (he : exec i s = .next (s.writeReg d v)) (hv : v = w) :
    Writes s i d w := by
  subst hv
  exact ⟨_, he, State.wrote_writeReg s d v h.task⟩

end Sys2Proof.Machine

namespace Sys2Proof.Proofs
open Sys2Proof.Machine

/-- Settles O1: each of the words answers `writeReg` with a value that is the integer of R59 taken modulo 2^64, or its bits in their places. -/
theorem integerWords : Obligations.IntegerWords := by
  intro s d a b h
  have now {i : Instr} {v w : Word} := @writes_of_eq s i d v w h
  refine ⟨now rfl (add_eq_ofInt _ _), now rfl (sub_eq_ofInt _ _), now rfl (mul_eq_ofInt _ _), now rfl (mulhWord_eq_ofInt _ _), now rfl rfl,
    now rfl (divWord_eq_ofInt _ _), now rfl (divsWord_eq_ofInt _ _), now rfl (remWord_eq_ofInt _ _), now rfl (remsWord_eq_ofInt _ _),
    now rfl rfl, now rfl rfl, now rfl rfl, now rfl ?_, now rfl ?_, now rfl (shiftLeft_eq_ofInt _ _), now rfl (shiftRight_eq_ofInt _ _),
    now rfl (shaWord_eq_ofInt _ _), ⟨_, fun i => getLsbD_rolWord _ _, now rfl rfl⟩, ⟨_, fun i => getLsbD_rorWord _ _, now rfl rfl⟩,
    now rfl (minWord_eq_ofInt _ _), now rfl (maxWord_eq_ofInt _ _), now rfl (minsWord_eq_ofInt _ _), now rfl (maxsWord_eq_ofInt _ _),
    now rfl (clzWord_eq _), now rfl (ctzWord_eq _), now rfl (popcWord_eq _), ⟨_, fun i => getLsbD_brevWord _, now rfl rfl⟩,
    ⟨_, fun i => byte_bswapWord _, now rfl rfl⟩, now rfl ?_, now rfl ?_, now rfl ?_, now rfl (shlwWord_eq_ofInt _ _)⟩
  · rw [BitVec.allOnes_xor]
  · rw [BitVec.allOnes_xor]
  · rw [add_eq_ofInt, w32_ofInt]
  · rw [sub_eq_ofInt, w32_ofInt]
  · rw [mul_eq_ofInt, w32_ofInt]

/-- Settles O2, as O1. -/
theorem immediateWords : Obligations.ImmediateWords := by
  intro s d a imm sh up h
  have now {i : Instr} {v w : Word} := @writes_of_eq s i d v w h
  refine ⟨now rfl (add_sext12 _ _), now rfl rfl, now rfl rfl, now rfl rfl, now rfl (shiftLeft_eq_ofInt _ _), now rfl (shiftRight_eq_ofInt _ _),
    now rfl (shaWord_eq_ofInt _ _), now rfl (mul_sext12 _ _), now rfl ?_, now rfl ?_, now rfl (lui_eq up), now rfl (addpc_eq _ up)⟩
  · rw [minsWord_eq_ofInt, toInt_sext12]
  · rw [maxsWord_eq_ofInt, toInt_sext12]

end Sys2Proof.Proofs

end

section
/-! PROOFS. Guards and control transfer (R62 to R64, R72 to R75): O3 and O5. -/

set_option autoImplicit false

namespace Sys2Proof.Machine

/-! ## Guard bits, R62 to R64 -/

/-- A word that writes a guard bit, with the condition that the spec gives it. -/
theorem setsGuard_of_iff {s : State} {i : Instr} {q : QReg} {v : Bool} {p : Prop} (h : s.Issues) (he : exec i s = .next (s.writeGuard q v))
    (hv : v = true ↔ p) : Claims.SetsGuard s i q p :=
  ⟨v, hv, _, he, State.wroteGuard_writeGuard s q v h.task⟩

theorem condBit_iff (x y : Word) : condBit x y = true ↔ x.toNat / 2 ^ (y.toNat % 64) % 2 = 1 := by rw [condBit, getLsbD_eq]

theorem getLsbD_guardWord (k : Task) (n : QReg) : k.guardWord.getLsbD n.toNat = k.guard n := by
  have hn : n.toNat < 8 := n.isLt
  rw [Task.guardWord, Task.guard, BitVec.getLsbD_setWidth, BitVec.getLsbD_or]
  by_cases h : n = 0
  · subst h; simp
  · have h0 : n.toNat ≠ 0 := fun e => h (BitVec.eq_of_toNat_eq e)
    simp [h0, BitVec.getLsbD_one, Nat.lt_of_lt_of_le hn (show 8 ≤ 64 by decide)]
    exact fun e => absurd e h

theorem guardWord_lt (k : Task) : k.guardWord.toNat < 256 := by
  rw [Task.guardWord, BitVec.toNat_setWidth]
  have := (k.guards ||| 1#8).isLt
  omega

/-! ## Control transfer, R72 to R75 -/

theorem branchTarget_eq (pc : BitVec 15) (off : BitVec 22) : branchTarget pc off = BitVec.ofInt 15 (pc.toNat + 4 * off.toInt) := by
  rw [branchTarget, BitVec.ofInt_add, ofInt_toNat, BitVec.ofInt_mul]; rfl

theorem badTarget_iff (t : Word) : badTarget t = true ↔ t.toNat % 4 ≠ 0 ∨ 0x7FFC < t.toNat := by simp [badTarget]

theorem setWidth_eq_ofNat (n : Nat) (t : Word) : t.setWidth n = BitVec.ofNat n t.toNat := (BitVec.ofNat_toNat ..).symm

/-- A word that transfers control and leaves the address of the next word in register `d`. -/
theorem State.linked_finish {s : State} (h : s.Issues) (d : SReg) (target : BitVec 15 → BitVec 15) :
    Linked s (s.finish 1 fun k => { k.setReg d (linkWord k.pc) with pc := target k.pc }) d (target s.cur.pc) := by
  have hc := State.cur_finish s 1 (fun k => { k.setReg d (linkWord k.pc) with pc := target k.pc }) h.task
  refine ⟨State.retires_finish s _ _, ?_, fun r hr => ?_, ?_, ?_⟩
  · rw [State.reg, hc]
    show (s.cur.unexempt.setReg d (linkWord s.cur.unexempt.pc)).reg d = _
    rw [Task.reg_setReg_self, Task.unexempt_pc]; rfl
  · rw [State.reg, hc]
    show (s.cur.unexempt.setReg d (linkWord s.cur.unexempt.pc)).reg r = _
    rw [Task.reg_setReg_of_ne _ _ hr, Task.reg_unexempt]; rfl
  · rw [hc]
    exact congrArg target (Task.unexempt_pc _)
  · rw [hc]
    unfold Task.setReg Task.unexempt
    split <;> split <;> rfl

theorem Memory.readN_lt (m : Memory) (a n : Nat) : Memory.readN m a n < 256 ^ n := by
  induction n generalizing a with
  | zero => simp [Memory.readN]
  | succ n ih =>
    have hrest := ih (a + 1)
    have hbyte := (Memory.read m a).isLt
    rw [Memory.readN, Nat.pow_succ]
    omega

/-- The major opcode of a word in the instruction store. -/
theorem Tile.major_istoreWord (T : Tile) (a : Nat) : ((T.istoreWord a).extractLsb' 26 6).toNat = Memory.readN T.istore.bytes a 4 / 2 ^ 26 := by
  have hlt : Memory.readN T.istore.bytes a 4 < 2 ^ 32 := Memory.readN_lt _ _ _
  rw [Tile.istoreWord, BitVec.extractLsb'_toNat, BitVec.toNat_ofNat, Nat.mod_eq_of_lt hlt, Nat.shiftRight_eq_div_pow]
  omega

theorem Tile.major_ne_iff (T : Tile) (a : Nat) {m : BitVec 6} :
    (T.istoreWord a).extractLsb' 26 6 ≠ m ↔ Memory.readN T.istore.bytes a 4 / 2 ^ 26 ≠ m.toNat := by
  rw [← Tile.major_istoreWord, ne_eq, ne_eq, BitVec.toNat_inj]

/-- The fields of a function-table entry `e` that CALLT tests against the code `b`, R75. -/
theorem tableEntry_bad_iff {e : Nat} (h : e < 2 ^ 64) (b : Word) :
    ((word e).extractLsb' 32 32 ≠ b.setWidth 32 ∨ (word e).extractLsb' 15 17 ≠ 0#17 ∨ (word e).extractLsb' 0 2 ≠ 0#2)
      ↔ ¬ (e / 2 ^ 32 = b.toNat % 2 ^ 32 ∧ e / 2 ^ 15 % 2 ^ 17 = 0 ∧ e % 4 = 0) := by
  have he : (word e).toNat = e := by rw [word, BitVec.toNat_ofNat, Nat.mod_eq_of_lt h]
  rw [← not_and_or, ← not_and_or, ← BitVec.toNat_inj, ← BitVec.toNat_inj, ← BitVec.toNat_inj]
  simp only [toNat_extractLsb, he, BitVec.toNat_setWidth, BitVec.toNat_ofNat]
  omega

/-- The value of cause 0x07: the code that the word asks for, and that of the entry. -/
theorem tableEntry_codes {e : Nat} (h : e < 2 ^ 64) (b : Word) :
    ((b.setWidth 32 : BitVec 32) ++ ((word e).extractLsb' 32 32 : BitVec 32) : Word) = word (b.toNat % 2 ^ 32 * 2 ^ 32 + e / 2 ^ 32) := by
  have he : (word e).toNat = e := by rw [word, BitVec.toNat_ofNat, Nat.mod_eq_of_lt h]
  have hlow : e / 2 ^ 32 < 2 ^ 32 := by omega
  refine BitVec.eq_of_toNat_eq ?_
  rw [BitVec.toNat_append, toNat_extractLsb, he, BitVec.toNat_setWidth, Nat.mod_eq_of_lt (a := e / 2 ^ 32) hlow,
    ← Nat.shiftLeft_add_eq_or_of_lt hlow, Nat.shiftLeft_eq, word, BitVec.toNat_ofNat]
  exact (Nat.mod_eq_of_lt (by omega)).symm

/-! ## A guarded word whose guard holds -/

section
variable {s u : State} {g : BitVec 4} {i : Instr}

theorem exec_of_guardHolds (hg : s.cur.guardHolds g = true) (he : exec i s = .next (s.guarded g u)) : exec i s = .next u := by
  rw [he, State.guarded_of_holds s g u hg]

variable {target : BitVec 15}

theorem gives_jumped (h : s.Issues) (hj : exec i s = .next (s.jump target)) : Gives i s fun t => Jumped s t target :=
  ⟨_, hj, State.jumped_jump s target h.task⟩

end

end Sys2Proof.Machine

namespace Sys2Proof.Proofs
open Sys2Proof.Machine

theorem comparesAndGuardLogic : Claims.guardWords := by
  intro s q p r a b v h
  have sets {i : Instr} {v : Bool} {p : Prop} := @setsGuard_of_iff s i q v p h
  exact ⟨sets rfl beq_iff_eq, sets rfl bne_iff_ne, sets rfl BitVec.ult_iff_toNat_lt, sets rfl decide_eq_true_iff,
    sets rfl BitVec.slt_iff_toInt_lt, sets rfl decide_eq_true_iff, sets rfl (condBit_iff _ _), sets rfl beq_iff_eq,
    sets rfl (Bool.and_eq_true_iff ..), sets rfl (Bool.or_eq_true_iff ..), sets rfl (bne_iff_ne ..), sets rfl (Bool.not_eq_true' ..).to_iff,
    sets rfl Iff.rfl, sets rfl Iff.rfl⟩

theorem guardTransfer : Claims.guardTransfer := by
  intro s d a g h
  refine ⟨fun hg => writes_of_eq h (exec_of_guardHolds hg rfl) rfl,
    ⟨s.cur.guardWord, getLsbD_guardWord _, guardWord_lt _, writes_of_eq h rfl rfl⟩, _, rfl, State.retires_finish s _ _, fun n hn => ?_, rfl, ?_⟩
  all_goals rw [State.retire, State.retireIn, State.cur_finish s _ _ h.task]
  · simp [Task.guard, Task.next, n.isLt]
    exact fun e => absurd e hn
  · simp [Task.next]

/-- Settles O3: each compare and guard-logic word answers `writeGuard` with its condition. -/
theorem guardWords : Obligations.GuardWords := ⟨comparesAndGuardLogic, guardTransfer⟩

theorem branchWords : Claims.branchWords := by
  intro s off g h hg
  dsimp only
  rw [← branchTarget_eq]
  exact ⟨gives_jumped h (exec_of_guardHolds hg rfl), _, exec_of_guardHolds hg rfl, State.linked_finish h 31 (branchTarget · off)⟩

theorem jumpRegister : Claims.jumpRegister := by
  intro s a g h hg
  have he : exec (.jr a g) s = .next (s.jumpReg (s.reg a)) := exec_of_guardHolds hg rfl
  refine ⟨fun hbad => raises_of_raise h (by decide) (by decide) ?_, fun h4 hin hmark => raises_of_raise h (by decide) (by decide) ?_,
    fun h4 hin hmark => ?_⟩
  · rw [he, State.jumpReg, if_pos ((badTarget_iff _).2 hbad)]
  all_goals have hgood : ¬ badTarget (s.reg a) = true := by rw [badTarget_iff]; omega
  · rw [he, State.jumpReg, if_neg hgood, if_pos (by simpa using hmark)]
  · refine gives_jumped h ?_
    rw [he, State.jumpReg, if_neg hgood, if_neg (by simpa using hmark), setWidth_eq_ofNat]

theorem returnWord : Claims.returnWord := by
  intro s a g h hg
  have he : exec (.ret a g) s = .next (s.ret (s.reg a)) := exec_of_guardHolds hg rfl
  have hat : (s.reg a).toNat + 0x8000 - 4 = (s.reg a).toNat + 0x7FFC := by omega
  refine ⟨fun hbad => raises_of_raise h (by decide) (by decide) ?_, fun h4 hin hcall => raises_of_raise h (by decide) (by decide) ?_,
    fun h4 hin hcall => ?_⟩
  all_goals rw [State.ret] at he
  · rw [he, if_pos ((badTarget_iff _).2 hbad)]
  all_goals have hgood : ¬ badTarget (s.reg a) = true := by rw [badTarget_iff]; omega
  · rw [he, if_neg hgood, if_pos]
    rw [Tile.major_ne_iff, Tile.major_ne_iff, hat]; exact hcall
  · refine gives_jumped h ?_
    rw [he, if_neg hgood, if_neg, setWidth_eq_ofNat]
    rw [Tile.major_ne_iff, Tile.major_ne_iff, hat]
    exact fun hno => hcall.elim hno.1 hno.2

theorem callThroughTable : Claims.callThroughTable := by
  intro s d a b g h hg
  have he : exec (.callt d a b g) s = .next (s.callTable d (s.reg a) (s.reg b)) := exec_of_guardHolds hg rfl
  have hlt : Memory.readN s.here.dstore.bytes (s.reg a).toNat 8 < 2 ^ 64 := Memory.readN_lt _ _ _
  dsimp only [State.callTable, Tile.dataRead] at he
  refine ⟨fun h8 => raises_of_raise h (by decide) (by decide) ?_, fun h8 hout => raises_of_raise h (by decide) (by decide) ?_,
    fun h8 hin hbad => raises_of_raise h (by decide) (by decide) ?_, fun h8 hin hmatch => ?_⟩
  · rw [he, if_pos h8]
  · rw [he, if_neg (by omega), if_pos hout]
  · rw [he, if_neg (by omega), if_neg (by omega), if_pos ((tableEntry_bad_iff hlt _).2 hbad), tableEntry_codes hlt]
  · rw [if_neg (by omega), if_neg (by omega), if_neg (by rw [tableEntry_bad_iff hlt]; exact not_not.2 hmatch), word, BitVec.setWidth_ofNat_of_le (by decide)] at he
    exact ⟨_, he, State.linked_finish h d fun _ => _⟩

/-- Settles O5: with the guard holding, each word is one of `jump`, a linked `finish` and `raise`, by its checks. -/
theorem controlTransfer : Obligations.ControlTransfer := ⟨branchWords, jumpRegister, returnWord, callThroughTable⟩

end Sys2Proof.Proofs

end

section
/-! PROOFS. Loads and stores of the data store (R65): O6. -/

set_option autoImplicit false

namespace Sys2Proof.Machine

theorem scaled_eq_effective (x : Word) (off : BitVec 10) (n : Nat) : scaled x off n = effective x off n := by
  rw [scaled, BitVec.ofInt_add, ofInt_toNat, BitVec.ofInt_mul, BitVec.ofInt_natCast]; rfl

theorem dataCheck_of_misaligned {ea : Word} {n : Nat} (h : ea.toNat % n ≠ 0) : dataCheck ea n = some 0x03 := if_pos h

theorem dataCheck_of_outside {ea : Word} {n : Nat} (h : ea.toNat % n = 0) (hout : 0x7FFF < ea.toNat) : dataCheck ea n = some 0x04 := by
  rw [dataCheck, if_neg (not_not.2 h), if_pos hout]

theorem dataCheck_of_inside {ea : Word} {n : Nat} (h : ea.toNat % n = 0) (hin : ea.toNat ≤ 0x7FFF) : dataCheck ea n = none := by
  rw [dataCheck, if_neg (not_not.2 h), if_neg (by omega)]

/-- What a load of `n` bytes by sign extension writes, LDS. -/
theorem sextWord_eq_extended {n : Nat} (hn : 8 * n ≤ 64) (x : Nat) : sextWord (8 * n) (word x) = extended x n true := by
  rw [sextWord, word, BitVec.setWidth_ofNat_of_le hn]; rfl

section
variable {s : State} {i : Instr} {d v a : SReg} {off : BitVec 10} {n : Nat} {ext : Nat → Word} {signed : Bool}

/-- The three outcomes of a load of the data store that R65 states. -/
theorem loads_dataLoad (h : s.Issues) (he : exec i s = .next (s.dataLoad d a off n ext)) (hx : ∀ x, ext x = extended x n signed) :
    let ea := scaled (s.reg a) off n
    let x := Memory.readN s.here.dstore.bytes ea.toNat n
    (ea.toNat % n ≠ 0 → Raises s i 0x03 ea)
      ∧ (ea.toNat % n = 0 → 0x7FFF < ea.toNat → Raises s i 0x04 ea)
      ∧ (ea.toNat % n = 0 → ea.toNat ≤ 0x7FFF → s.here.dstore.uncorrectable ea.toNat n = false →
        Gives i s fun t => ∃ u, Corrected s u (.dataStore s.focus.tile) ea.toNat n ∧ Wrote u t d (extended x n signed) 2) := by
  dsimp only
  rw [scaled_eq_effective]
  dsimp only [State.dataLoad] at he
  refine ⟨fun hm => raises_of_raise h (by decide) (by decide) ?_, fun hm ho => raises_of_raise h (by decide) (by decide) ?_, fun hm hi hu => ?_⟩
  · rw [he, dataCheck_of_misaligned hm]
  · rw [he, dataCheck_of_outside hm ho]
  · rw [dataCheck_of_inside hm hi, hu] at he
    have hc := State.corrected_correct s (tileDie s.focus.tile) (.dataStore s.focus.tile) (effective (s.reg a) off n).toNat n
    obtain ⟨-, hfocus, -⟩ := id hc
    refine ⟨_, he, _, hc, ?_⟩
    rw [← hx]
    exact State.wrote_retireIn _ _ _ _ (by rw [hfocus]; exact h.task)

theorem Tile.dstore_finish (T : Tile) (m n : Nat) (f : Task → Task) : (T.finish m n f).dstore = T.dstore := by
  unfold Tile.finish Tile.setTask
  dsimp only
  split <;> rfl

/-- A store to the data store that passes its checks. -/
theorem State.storedData_dataWrite (h : s.Issues) (p x : Nat) :
    StoredData s ((s.modHere fun T => T.dataWrite p n x).retire id) p n x := by
  have hh : ((s.modHere fun T => T.dataWrite p n x).retire id).here = (s.here.dataWrite p n x).finish s.focus.task 1 Task.next := by
    rw [State.retire, State.retireIn, State.finish, State.here_modHere, State.here_modHere]; rfl
  refine ⟨rfl, ⟨fun u hu => ?_, fun m hm => ?_⟩, fun b => ?_, ?_, ?_, ?_, ?_⟩
  · exact (State.tile_modHere_of_ne (s.modHere fun T => T.dataWrite p n x) _ hu).trans (State.tile_modHere_of_ne s _ hu)
  · rw [hh, Tile.task_finish_of_ne _ _ _ hm]; rfl
  · rw [hh, Tile.dstore_finish]
    exact Memory.read_writeN ..
  · rw [hh]
    unfold Tile.finish Tile.setTask
    dsimp only
    split <;> rfl
  · rw [hh]; rfl
  · rw [hh]; rfl
  · rw [State.cur, hh]
    refine (Tile.task_finish_self (s.here.dataWrite p n x) 1 Task.next h.task).trans ?_
    rw [Task.next, Task.unexempt_pc]; rfl

/-- The three outcomes of a store to the data store that R65 states. -/
theorem stores_dataStore (h : s.Issues) (he : exec i s = .next (match dataCheck (effective (s.reg a) off n) n with
      | some c => s.raise c (effective (s.reg a) off n)
      | none => (s.modHere fun T => T.dataWrite (effective (s.reg a) off n).toNat n (s.reg v).toNat).retire id)) :
    let ea := scaled (s.reg a) off n
    (ea.toNat % n ≠ 0 → Raises s i 0x03 ea)
      ∧ (ea.toNat % n = 0 → 0x7FFF < ea.toNat → Raises s i 0x04 ea)
      ∧ (ea.toNat % n = 0 → ea.toNat ≤ 0x7FFF → Gives i s fun t => StoredData s t ea.toNat n (s.reg v).toNat) := by
  dsimp only
  rw [scaled_eq_effective]
  refine ⟨fun hm => raises_of_raise h (by decide) (by decide) ?_, fun hm ho => raises_of_raise h (by decide) (by decide) ?_,
    fun hm hi => ⟨_, ?_, State.storedData_dataWrite h _ _⟩⟩
  · rw [he, dataCheck_of_misaligned hm]
  · rw [he, dataCheck_of_outside hm ho]
  · rw [he, dataCheck_of_inside hm hi]

end

end Sys2Proof.Machine

namespace Sys2Proof.Proofs
open Sys2Proof.Machine

theorem dataStoreLoads : Claims.dataStoreLoads := by
  intro s d a off h
  have zeroExt {i n} (he : exec i s = .next (s.dataLoad d a off n word)) := loads_dataLoad (signed := false) h he fun _ => rfl
  have signExt {i n} (hn : 8 * n ≤ 64) (he : exec i s = .next (s.dataLoad d a off n fun x => sextWord (8 * n) (word x))) :=
    loads_dataLoad h he (sextWord_eq_extended hn)
  simp only [List.forall_mem_cons]
  exact ⟨zeroExt rfl, zeroExt rfl, zeroExt rfl, zeroExt rfl, signExt (by decide) rfl, signExt (by decide) rfl, signExt (by decide) rfl,
    fun _ hf => nomatch hf⟩

theorem dataStoreStores : Claims.dataStoreStores := by
  intro s v a off g h hg
  have stores {i n} (he : exec i s = .next (s.dataStore v a off n g)) := stores_dataStore h (exec_of_guardHolds hg he)
  simp only [List.forall_mem_cons]
  exact ⟨stores rfl, stores rfl, stores rfl, stores rfl, fun _ hf => nomatch hf⟩

/-- Settles O6: each word is `dataLoad` or `dataStore` at its size, whose checks are those of R65. -/
theorem dataStoreWords : Obligations.DataStoreWords := ⟨dataStoreLoads, dataStoreStores⟩

end Sys2Proof.Proofs

end

section
/-! PROOFS. FENCE, HALT, IDLE, TYIELD and TLBINV (R77, R228, R283): O12. What the homes perform leaves the stores still in flight and the
translation caches as they are. -/

set_option autoImplicit false

namespace Sys2Proof.Machine

/-! ## What is in flight, and the translation caches -/

/-- No store has been put in flight or taken from there, and no translation cache has changed. -/
structure SameTransit (s u : State) : Prop where
  inflight : u.inflight = s.inflight
  units : u.units = s.units

namespace SameTransit

theorem refl (s : State) : SameTransit s s := ⟨rfl, rfl⟩
theorem trans {s u v : State} (h : SameTransit s u) (k : SameTransit u v) : SameTransit s v :=
  ⟨k.inflight.trans h.inflight, k.units.trans h.units⟩
theorem foldl {α : Type} (f : State → α → State) (hf : ∀ s x, SameTransit s (f s x)) (l : List α) (s : State) : SameTransit s (l.foldl f s) := by
  induction l generalizing s with
  | nil => exact refl s
  | cons x l ih => exact (hf s x).trans (ih _)

theorem setStore (s : State) (sp : Space) (x : Store) : SameTransit s (s.setStore sp x) := by cases sp <;> exact ⟨rfl, rfl⟩
theorem modStore (s : State) (sp : Space) (f : Store → Store) : SameTransit s (s.modStore sp f) := setStore s sp _

theorem releaseWritten (s : State) (a n : Nat) : SameTransit s (s.releaseWritten a n) :=
  trans (u := { s with monitors := s.monitors.filter fun m => !(m.space == .hbm && (unitsOf 8 a n).contains (m.word / 8)) }) ⟨rfl, rfl⟩
    (foldl State.release (fun _ _ => ⟨rfl, rfl⟩) _ _)

theorem perform (s : State) (sp : Space) (a n v : Nat) : SameTransit s (s.perform sp a n v) := by
  unfold State.perform
  split
  · exact refl s
  · refine (modStore s sp fun x => x.write a n v).trans ?_
    split
    · exact releaseWritten _ _ _
    · exact ⟨rfl, rfl⟩
    · exact refl _

theorem recallLine (s : State) (line : Nat) : SameTransit s (s.recallLine line) := by
  refine foldl _ (fun s e => ?_) _ _
  split
  · exact refl s
  · exact (perform ..).trans ⟨rfl, rfl⟩

theorem callBack (s : State) (own : Option Nat) (sp : Space) (a n : Nat) : SameTransit s (s.callBack own sp a n) := by
  unfold State.callBack
  split
  · refine foldl _ (fun s l => ?_) _ _
    have either (b : Bool) : SameTransit s (if b then s else s.recallLine l) := by
      cases b
      · exact recallLine s l
      · exact refl s
    exact either _
  · exact refl s

theorem land (s : State) (f : InFlight) : SameTransit s (s.land f) := (callBack s none _ _ _).trans (perform ..)

end SameTransit

/-- A store that is not made to land was in flight before and is not wanted. -/
theorem State.mem_split_stay (want : InFlight → Bool) {l : List InFlight} {x : InFlight} (h : x ∈ (State.landWhere.split want l).2) :
    x ∈ l ∧ want x = false := by
  induction l with
  | nil => exact absurd h (List.not_mem_nil)
  | cons f r ih =>
    rw [State.landWhere.split] at h
    dsimp only at h
    split at h
    · exact (ih h).imp_left (List.mem_cons_of_mem _)
    · next hno =>
      rcases List.mem_cons.1 h with rfl | h
      · exact ⟨List.mem_cons_self, by
          rw [Bool.not_eq_true, Bool.or_eq_false_iff] at hno
          exact hno.1⟩
      · exact (ih h).imp_left (List.mem_cons_of_mem _)

/-- What is still in flight after the stores that `want` names have landed. -/
theorem State.mem_inflight_landWhere {s : State} {want : InFlight → Bool} {x : InFlight} (h : x ∈ (s.landWhere want).inflight) :
    x ∈ s.inflight ∧ want x = false := by
  rw [State.landWhere, (SameTransit.foldl _ SameTransit.land _ _).inflight] at h
  exact State.mem_split_stay want h

theorem State.units_landWhere (s : State) (want : InFlight → Bool) : (s.landWhere want).units = s.units := by
  rw [State.landWhere, (SameTransit.foldl _ SameTransit.land _ _).units]

/-- A fence wider than QUAD differs from the landing of its stores only by the recall of owned lines. -/
theorem State.sameTransit_fence (s : State) (agent : Nat) {f : Nat} (h : 3 ≤ f) :
    SameTransit (s.landWhere fun x => (x.agent == agent || x.pub) && (f == 5 || x.space == .hbm)) (s.fence agent f) := by
  rw [State.fence, if_neg (by omega)]
  dsimp only
  split
  · exact SameTransit.refl _
  · exact SameTransit.foldl _ (fun s e => SameTransit.foldl _ (fun s o => SameTransit.recallLine s _) _ s) _ _

theorem State.units_fence (s : State) (agent f : Nat) : (s.fence agent f).units = s.units := by
  by_cases h : f < 3
  · rw [State.fence, if_pos h]
  · rw [(s.sameTransit_fence agent (by omega)).units, State.units_landWhere]

/-- R283: the stores of its agent that a fence leaves in flight. -/
theorem State.mem_inflight_fence {s : State} {agent f : Nat} (h5 : f ≤ 5) {x : InFlight} (h : x ∈ (s.fence agent f).inflight) :
    x ∈ s.inflight ∧ (x.agent = agent → f < 3 ∨ (f < 5 ∧ x.space ≠ .hbm)) := by
  by_cases h3 : f < 3
  · rw [State.fence, if_pos h3] at h
    exact ⟨h, fun _ => .inl h3⟩
  · rw [(s.sameTransit_fence agent (by omega)).inflight] at h
    obtain ⟨hmem, hstay⟩ := State.mem_inflight_landWhere h
    refine ⟨hmem, fun e => .inr ?_⟩
    simp [e] at hstay
    exact ⟨by omega, hstay.2⟩

/-! ## Clearing the translation caches of every die -/

theorem State.unit_of_units {s u : State} (h : u.units = s.units) (die : Nat) : u.unit die = s.unit die := by rw [State.unit, h]; rfl

theorem State.unit_modUnit_self (s : State) (die : Nat) (f : TransUnit → TransUnit) : (s.modUnit die f).unit die = f (s.unit die) := by
  simp [State.unit, State.modUnit]
theorem State.unit_modUnit_of_ne (s : State) {die d : Nat} (f : TransUnit → TransUnit) (h : d ≠ die) : (s.modUnit die f).unit d = s.unit d := by
  simp [State.unit, State.modUnit, SMap.getD_set_of_ne _ _ _ h]

/-- A change that is the same done twice, made to every listed unit. -/
theorem State.unit_foldl_modUnit {f : TransUnit → TransUnit} (hf : ∀ u, f (f u) = f u) (l : List (Nat × TransUnit)) (s : State) (die : Nat) :
    (l.foldl (fun s u => s.modUnit u.1 f) s).unit die = if die ∈ l.map Prod.fst then f (s.unit die) else s.unit die := by
  induction l generalizing s with
  | nil => rfl
  | cons e l ih =>
    rw [List.foldl_cons, ih]
    by_cases h : die = e.1
    · subst h; simp [State.unit_modUnit_self, hf]
    · simp only [State.unit_modUnit_of_ne _ f h, List.map_cons, List.mem_cons, h, false_or]

/-- The unit of a die that has none listed is empty. -/
theorem State.unit_of_not_listed {s : State} {die : Nat} (h : die ∉ s.units.map Prod.fst) : s.unit die = {} := by
  rw [State.unit, SMap.getD]
  cases hg : SMap.get? s.units die with
  | none => rfl
  | some v => exact absurd (List.mem_map_of_mem (SMap.mem_of_get? hg)) h

theorem State.unit_clearAll {s : State} {f : TransUnit → TransUnit} (hf : ∀ u, f (f u) = f u) (h0 : f {} = {}) (die : Nat) :
    (s.units.foldl (fun s u => s.modUnit u.1 f) s).unit die = f (s.unit die) := by
  rw [State.unit_foldl_modUnit hf]
  split
  · rfl
  · next h => rw [State.unit_of_not_listed h, h0]

/-! ## Leaving RUN after the word -/

/-- A word that retires and puts its task in another state. -/
theorem State.leaves_enter {s : State} (h : s.Issues) {st : TaskState} (w : Waiting) (hst : st ≠ .run) :
    Leaves s ((s.retire id).modHere fun T => T.enter s.focus.task st w) st w := by
  have hp := State.passed_retire s h.task
  have hh : ((s.retire id).modHere fun T => T.enter s.focus.task st w).here = (s.retire id).here.enter s.focus.task st w := State.here_modHere _ _
  refine ⟨_, hp, rfl, ⟨fun u hu => State.tile_modHere_of_ne (s.retire id) _ hu, fun m hm => ?_⟩, ?_, ?_⟩
  · rw [hh]; exact Tile.task_enter_of_ne _ _ _ hm
  · rw [hh]
    unfold Tile.enter Tile.setTask
    dsimp only
    split <;> rfl
  · rw [State.cur, hh]
    refine (Tile.task_enter_self _ st w h.task).trans ?_
    have hrun : ((s.retire id).here.task s.focus.task).state = .run := (congrArg Task.state hp.2).trans ((Task.unexempt_state _).trans h.run)
    unfold Task.entered
    simp only [hrun, hst, ne_eq, not_false_eq_true, and_self, if_true]
    rfl

/-- TLBINV, R77 and R228: the unit without the pointers of context `c` and without its leaves of the page of `va`, or all of them. -/
def TransUnit.invalidated (c va : Nat) (all : Bool) (u : TransUnit) : TransUnit where
  leaves := u.leaves.filter fun l => !(l.ctx == c && (all || l.page == (if l.big then va / 2 ^ 25 else va / 65536)))
  ptrs := u.ptrs.filter fun p => p.ctx != c

theorem TransUnit.invalidated_invalidated (c va : Nat) (all : Bool) (u : TransUnit) :
    TransUnit.invalidated c va all (TransUnit.invalidated c va all u) = TransUnit.invalidated c va all u := by
  simp only [TransUnit.invalidated, List.filter_filter, Bool.and_self]

theorem TransUnit.ptrs_invalidated (c va : Nat) (all : Bool) (u : TransUnit) :
    (TransUnit.invalidated c va all u).ptrs = u.ptrs.filter (fun p => p.ctx ≠ c) :=
  List.filter_congr fun _ _ => Bool.eq_iff_iff.2 (by simp)

theorem TransUnit.leaves_invalidated_all (c va : Nat) {all : Bool} (u : TransUnit) (h : all = true) :
    (TransUnit.invalidated c va all u).leaves = u.leaves.filter fun l => l.ctx ≠ c :=
  List.filter_congr fun _ _ => Bool.eq_iff_iff.2 (by simp [h])

theorem TransUnit.leaves_invalidated_page (c va : Nat) {all : Bool} (u : TransUnit) (h : all = false) :
    (TransUnit.invalidated c va all u).leaves
      = u.leaves.filter fun l => ¬ (l.ctx = c ∧ l.page = if l.big then va / 2 ^ 25 else va / 2 ^ 16) :=
  List.filter_congr fun _ _ => Bool.eq_iff_iff.2 (by simp [h, imp_iff_not_or])

theorem State.tlbinv_eq (s : State) (a b : Word) : s.tlbinv a b
    = s.supOnly (((s.fence s.curAgent 4).units.foldl
        (fun v u => v.modUnit u.1 (TransUnit.invalidated s.cur.ctx.toNat a.toNat (b != 0))) (s.fence s.curAgent 4)).retire id) := rfl

theorem exec_of_supervisor {s u : State} {i : Instr} (hs : s.cur.sup = true) (he : exec i s = .next (s.supOnly u)) : exec i s = .next u := by
  rw [he, State.supOnly, if_pos hs]

end Sys2Proof.Machine

namespace Sys2Proof.Proofs
open Sys2Proof.Machine

/-- The word that FENCE of an unknown scope names as its value: the encoding of the word itself, R34. -/
theorem packed_fence (scope : BitVec 5) : packA 0x3F scope 0 0 6 0 = 0x3F#6 ++ scope ++ 0#10 ++ 6#7 ++ 0#4 := by
  revert scope; decide

theorem fenceWord : Claims.fenceWord := by
  intro s scope h
  have he : exec (.fence scope) s = .next (if 2 ≤ scope.toNat ∧ scope.toNat ≤ 5 then (s.fence s.curAgent scope.toNat).retire id
    else s.raise 0x01 ((packA 0x3F scope 0 0 6 0).setWidth 64)) := rfl
  refine ⟨fun hf => ?_, fun hf => raises_of_raise h (by decide) (by decide) ?_⟩
  · have hc := Calm.fence s s.curAgent scope.toNat
    rw [if_pos hf] at he
    refine ⟨_, he, _, hc, State.passed_retire _ (by rw [hc.1]; exact h.task), fun x hx => ?_⟩
    exact (State.mem_inflight_fence hf.2 hx).imp_right fun hk ha => (hk ha).imp_left fun _ => by omega
  · rw [he, if_neg hf]
    rw [packed_fence]

theorem haltAndIdle : Claims.haltAndIdle := by
  intro s h
  refine ⟨fun hs => ⟨_, exec_of_supervisor hs rfl, s.retire id, State.passed_retire s h.task, rfl, fun n hn => ?_, ?_⟩,
    ⟨_, rfl, State.leaves_enter h .idle (by decide)⟩, ⟨_, rfl, State.leaves_enter h .nothing (by decide)⟩⟩
  · exact State.tile_modHere_of_ne (s.retire id) _ hn
  · exact State.here_modHere (s.retire id) _

theorem translationInvalidate : Claims.translationInvalidate := by
  intro s a b h hs
  dsimp only
  have hi := TransUnit.invalidated_invalidated s.cur.ctx.toNat (s.reg a).toNat (s.reg b != 0)
  have hc := (Calm.fence s s.curAgent 4).trans (Calm.foldl _ (fun v u => Calm.modUnit v u.1 (TransUnit.invalidated s.cur.ctx.toNat (s.reg a).toNat
    (s.reg b != 0))) (s.fence s.curAgent 4).units _)
  refine ⟨_, exec_of_supervisor hs (congrArg Host.Outcome.next (s.tlbinv_eq (s.reg a) (s.reg b))), _, hc,
    State.passed_retire _ (by rw [hc.1]; exact h.task), fun die => ?_⟩
  rw [show ∀ v : State, (v.retire id).unit die = v.unit die from fun _ => rfl, State.unit_clearAll hi rfl,
    State.unit_of_units (State.units_fence ..)]
  exact ⟨TransUnit.ptrs_invalidated .., fun hb => TransUnit.leaves_invalidated_all _ _ _ (bne_iff_ne.2 hb),
    fun hb => TransUnit.leaves_invalidated_page _ _ _ (by rw [hb]; rfl)⟩

/-- Settles O12: a fence keeps in flight what its scope does not cover, and clearing every listed translation unit clears them all. -/
theorem systemWords : Obligations.SystemWords := ⟨fenceWord, haltAndIdle, translationInvalidate⟩

end Sys2Proof.Proofs

end

section
/-! PROOFS. CTXSAVE and CTXREST (R77, R78): O15. -/

set_option autoImplicit false

namespace Sys2Proof.Machine

theorem State.modLaunch_eq (s : State) (n : Nat) (f : Launch → Launch) : ∃ l, s.modLaunch n f = { s with launches := l } := by
  unfold State.modLaunch
  split
  · exact ⟨_, rfl⟩
  · exact ⟨s.launches, rfl⟩

/-- The state in which the engine of the die has taken on job `j`; a save stops its launch. -/
def State.takeJob (s : State) (j : SaveJob) : State :=
  let s := { s with jobs := s.jobs ++ [j] }
  match j.n with
  | some n => s.modLaunch n fun l => { l with saving := true, moving := false }
  | none => s

/-- The job that CTXSAVE or CTXREST hands to the engine. -/
def State.saveJob (s : State) (back : Bool) (a b : SReg) : SaveJob :=
  let c := (s.reg a).toNat % 4
  { die := s.curDie, back := back, tile := s.focus.tile, rctx := s.cur.ctx.toNat, ctx := c, area := (s.reg b).toNat
    n := if back then none else s.lidOf s.focus.tile c }

theorem State.takeJob_eq (s : State) (j : SaveJob) : ∃ l, s.takeJob j = { s with jobs := s.jobs ++ [j], launches := l } := by
  unfold State.takeJob
  dsimp only
  split
  · exact State.modLaunch_eq _ _ _
  · exact ⟨s.launches, rfl⟩

/-- Taking on a job touches no task and no store. -/
theorem State.takeJob_quiet (s : State) (j : SaveJob) : Calm s (s.takeJob j) ∧ SameBytes s (s.takeJob j) ∧ (s.takeJob j).jobs = s.jobs ++ [j] := by
  obtain ⟨l, e⟩ := s.takeJob_eq j
  rw [e]
  exact ⟨Calm.of_tiles rfl rfl rfl, fun _ => rfl, rfl⟩

section
variable {s : State} {i : Instr} {back : Bool} {d a b : SReg}

theorem State.ctxWord_eq : s.ctxWord back d a b = s.supOnly (
    if (s.reg a).toNat % 4 = s.cur.ctx.toNat ∨ 4 ≤ (s.reg a).toNat ∨ (s.reg b).toNat % 4096 ≠ 0 then s.writeReg d 2
    else if s.jobs.any fun j => j.die == s.curDie then s.writeReg d 1
    else (s.takeJob (s.saveJob back a b)).writeReg d 0) := rfl

theorem any_die_iff : (s.jobs.any fun j => j.die == s.curDie) = true ↔ ∃ j ∈ s.jobs, j.die = tileDie s.focus.tile := by
  simp [List.any_eq_true, State.curDie]

/-- The three outcomes of CTXSAVE and CTXREST that R77 states. -/
theorem ctxWord_outcomes (h : s.Issues) (hs : s.cur.sup = true) (he : exec i s = .next (s.ctxWord back d a b)) :
    let c := (s.reg a).toNat
    let bad := c % 4 = s.cur.ctx.toNat ∨ 4 ≤ c ∨ (s.reg b).toNat % 4096 ≠ 0
    let busy := ∃ j ∈ s.jobs, j.die = tileDie s.focus.tile
    (bad → Writes s i d 2) ∧ (¬ bad → busy → Writes s i d 1)
      ∧ (¬ bad → ¬ busy → Gives i s fun t => ∃ u, Calm s u ∧ SameBytes s u ∧ Wrote u t d 0 1
        ∧ ∃ j, t.jobs = s.jobs ++ [j] ∧ j.die = tileDie s.focus.tile ∧ j.back = back ∧ j.tile = s.focus.tile ∧ j.ctx = c
          ∧ j.area = (s.reg b).toNat ∧ j.rctx = s.cur.ctx.toNat) := by
  intro c bad busy
  rw [State.ctxWord_eq] at he
  have he := exec_of_supervisor hs he
  refine ⟨fun hb => ?_, fun hb hy => ?_, fun hb hy => ?_⟩
  · rw [if_pos hb] at he
    exact writes_of_eq h he rfl
  · rw [if_neg hb, if_pos (any_die_iff.2 hy)] at he
    exact writes_of_eq h he rfl
  · rw [if_neg hb, if_neg (mt any_die_iff.1 hy)] at he
    obtain ⟨hcalm, hbytes, hjobs⟩ := s.takeJob_quiet (s.saveJob back a b)
    refine ⟨_, he, _, hcalm, hbytes, State.wrote_writeReg _ _ _ (by rw [hcalm.1]; exact h.task), s.saveJob back a b, hjobs, rfl, rfl, rfl, ?_, rfl, rfl⟩
    exact Nat.mod_eq_of_lt (by omega)

end

end Sys2Proof.Machine

namespace Sys2Proof.Proofs
open Sys2Proof.Machine

/-- Settles O15: both words are `ctxWord`, which answers by its two checks or takes on one job. -/
theorem contextSaveWords : Obligations.ContextSaveWords := by
  intro s d a b h hs
  simp only [List.forall_mem_cons]
  exact ⟨ctxWord_outcomes h hs rfl, ctxWord_outcomes h hs rfl, fun _ hf => nomatch hf⟩

end Sys2Proof.Proofs

end

section
/-! PROOFS. Stores in flight and requests at their homes (R67, R256, R259, R276): the first part of O42. -/

set_option autoImplicit false

namespace Sys2Proof.Machine

/-! ## What is in flight does not matter to a home -/

/-- The same state with other stores in flight. -/
def State.withQueue (s : State) (l : List InFlight) : State := { s with inflight := l }

theorem MemoryAbout.ite {α : Type} {s : State} {p : Prop} [Decidable p] {x y : α × State} (hx : MemoryAbout s x.2) (hy : MemoryAbout s y.2) :
    MemoryAbout s (if p then x else y).2 := by
  split
  · exact hx
  · exact hy

namespace State

theorem foldl_withQueue {α : Type} {f : State → α → State} {l : List InFlight} (hf : ∀ s x, f (s.withQueue l) x = (f s x).withQueue l)
    (xs : List α) (s : State) : xs.foldl f (s.withQueue l) = (xs.foldl f s).withQueue l := by
  induction xs generalizing s with
  | nil => rfl
  | cons x xs ih => rw [List.foldl_cons, hf, ih]; rfl

theorem releaseWritten_withQueue (s : State) (l : List InFlight) (a n : Nat) : (s.withQueue l).releaseWritten a n = (s.releaseWritten a n).withQueue l :=
  let hit (m : Monitor) : Bool := m.space == .hbm && (unitsOf 8 a n).contains (m.word / 8)
  foldl_withQueue (f := release) (fun _ _ => rfl) (s.monitors.filter hit) { s with monitors := s.monitors.filter fun m => !hit m }

theorem perform_withQueue (s : State) (l : List InFlight) (sp : Space) (a n v : Nat) :
    (s.withQueue l).perform sp a n v = (s.perform sp a n v).withQueue l := by
  unfold State.perform
  split
  · rfl
  · dsimp only
    have hstore : (s.withQueue l).modStore sp (fun x => x.write a n v) = (s.modStore sp fun x => x.write a n v).withQueue l := by
      cases sp <;> rfl
    rw [hstore]
    split
    · exact releaseWritten_withQueue ..
    · rfl
    · rfl

theorem recallLine_withQueue (s : State) (l : List InFlight) (line : Nat) : (s.withQueue l).recallLine line = (s.recallLine line).withQueue l := by
  refine foldl_withQueue (fun s e => ?_) _ s
  rw [show (s.withQueue l).elem e.1 = s.elem e.1 from rfl]
  split
  · rfl
  · rw [perform_withQueue]; rfl

theorem callBack_withQueue (s : State) (l : List InFlight) (own : Option Nat) (sp : Space) (a n : Nat) :
    (s.withQueue l).callBack own sp a n = (s.callBack own sp a n).withQueue l := by
  unfold State.callBack
  split
  · refine foldl_withQueue (fun s line => ?_) _ s
    rw [recallLine_withQueue]
    have either (b : Bool) : (if b then s.withQueue l else (s.recallLine line).withQueue l) = (if b then s else s.recallLine line).withQueue l := by
      cases b <;> rfl
    exact either _
  · rfl

theorem store_withQueue (s : State) (l : List InFlight) (sp : Space) : (s.withQueue l).store sp = s.store sp := by cases sp <;> rfl

/-- A store that lands writes its bytes over what the owners of its lines have given back. -/
theorem wroteBytes_land (s : State) (l : List InFlight) (f : InFlight) (h : f.space = .hbm → inAperture f.addr = false) :
    WroteBytes (s.callBack none f.space f.addr f.n) ((s.withQueue l).land f) f.space f.addr f.n f.value := by
  intro sp b
  rw [State.land, callBack_withQueue, wroteBytes_perform _ _ _ _ _ h sp b, store_withQueue]

/-! ## Requests of an element -/

section
variable {s u : State} {g id : Nat} {q : Request}

theorem id_of_request (h : s.request? g id = some q) : q.id = id := by simpa using List.find?_some h

theorem request_of_elem (h : (u.elem g).reqs = (s.elem g).reqs) : u.request? g id = s.request? g id := by rw [request?, h]; rfl

theorem reqs_of_about (h : MemoryAbout s u) (g : Nat) : (u.elem g).reqs = (s.elem g).reqs := by
  have e := congrArg Elem.reqs (h.elem g)
  exact e

/-- A request after a change of its own that keeps its number. -/
theorem request_modRequest {f : Request → Request} (hf : ∀ r, (f r).id = r.id) (h : s.request? g id = some q) :
    (s.modRequest g id f).request? g id = some (f q) := by
  rw [modRequest, request?, elem_modElem_self, List.find?_map]
  have hpred : ((fun r => r.id == id) ∘ fun r => if r.id = id then f r else r) = fun r : Request => r.id == id := by
    funext r
    dsimp only [Function.comp]
    split <;> simp [*]
  rw [hpred, show (s.elem g).reqs.find? (fun r => r.id == id) = some q from h, Option.map_some, if_pos (id_of_request h)]

/-- A request that has been answered, where nothing but the memory system has changed before. -/
theorem answered_answer (h : s.request? g id = some q) (hu : (u.elem g).reqs = (s.elem g).reqs) (t : Token) :
    Claims.Answered (u.answer g q t) g id q t := by
  obtain rfl := id_of_request h
  exact request_modRequest (f := fun r => { r with state := .performed t }) (fun _ => rfl) ((request_of_elem hu).trans h)

end

theorem absent_answer (s : State) (g : Nat) (q : Request) (t : Token) : (s.answer g q t).absent = s.absent := rfl

/-- The checks of a request before its consumer's translate, and change nothing else. -/
theorem memoryAbout_checkRequest (s : State) (g : Nat) (q : Request) : MemoryAbout s (s.checkRequest g q).2 := by
  have hword : MemoryAbout s (s.wordPlace g q.ctx q.a0 q.span.1).2 := by
    have h := MemoryAbout.probe s (tileDie (gidTile g)) q.ctx q.a0 q.span.1 { read := true, write := true, farOk := true }
    unfold wordPlace
    split
    · next e => rw [e] at h; exact h
    · next e =>
      rw [e] at h
      split <;> exact h
  have refused (c v : Nat) : MemoryAbout s (Except.error (ε := Nat × Nat) (α := List (Space × Nat × Nat)) (c, v), s).2 := MemoryAbout.refl s
  unfold checkRequest
  refine .ite (refused ..) <| .ite (refused ..) <| .ite (refused ..) <| .ite (refused ..) <| .ite (refused ..) <| .ite (refused ..) <|
    .ite ?_ <| .ite hword (MemoryAbout.probeAll ..)
  split <;> exact MemoryAbout.refl s

/-- An address-based request's checks translate, and change nothing else. -/
theorem memoryAbout_checkAll (s : State) (g : Nat) (q : Request) : MemoryAbout s (s.checkAll g q).2 := by
  have h := memoryAbout_checkRequest s g q
  unfold checkAll
  split
  · next e =>
    rw [e] at h
    split <;> exact h
  · exact h

theorem memoryOnly_correctPieces (s : State) (g : Nat) (ps : List (Space × Nat × Nat)) : MemoryOnly s (s.correctPieces g ps) :=
  MemoryOnly.foldl _ (fun s _ => MemoryOnly.correct s _ _ _ _) ps s

theorem instanceOf_of_about {s u : State} (h : MemoryAbout s u) (g c n : Nat) (t : Tag) : u.instanceOf g c n t = s.instanceOf g c n t := by
  rw [instanceOf, instanceOf, h.same State.insts fun _ _ _ _ _ _ _ _ _ _ _ _ _ => rfl]

theorem heldBefore_of_no_instance {s : State} {g : Nat} {q : Request} (h : s.instanceOf g q.ctx q.slot q.src = none) : s.heldBefore g q = [] := by
  rw [heldBefore, h]

/-- Outside of blocks a load reads what lies at its homes. -/
theorem readAt_of_no_instance {s : State} {g : Nat} {q : Request} {ps : List (Space × Nat × Nat)} (h : s.instanceOf g q.ctx q.slot q.src = none)
    (hc : (s.piecesHome (elemAgent g) ps).piecesCause ps = none) :
    s.readAt g q ps = (.ok ((s.piecesHome (elemAgent g) ps).readPieces ps), (s.piecesHome (elemAgent g) ps).correctPieces g ps) := by
  have hview : (s.piecesHome (elemAgent g) ps).ownView g q = s.piecesHome (elemAgent g) ps := by
    rw [ownView, heldBefore_of_no_instance ((instanceOf_of_about (MemoryOnly.piecesHome s _ ps).about ..).trans h)]; rfl
  rw [readAt]
  rw [hview, hc]

/-- The event of an address-based request at its home. -/
theorem exec_performRequest {s : State} {g id : Nat} {q : Request} (h : s.request? g id = some q) (hp : q.state = .pending) (hi : q.inst = none)
    (hop : q.op = 85) : exec (.memoryRequestPerform (.element g id)) s = settle (if s.regionFrozen g q.ctx then s else s.performAt g q) := by
  refine congrArg settle (?_ : (match s.request? g id with
      | some q =>
        if (q.op = 92 ∧ q.state = ReqState.pending) ∨ (q.op = 93 ∧ (q.state = ReqState.pending ∨ q.state.waits = true)) then s.readCell g q
        else s.performRequest g id
      | none => s) = _)
  rw [h]
  dsimp only
  rw [if_neg (by omega), performRequest, h]
  dsimp only
  rw [hp, hi, if_neg (by decide), if_pos (Or.inl hop)]

end State

end Sys2Proof.Machine

namespace Sys2Proof.Proofs
open Sys2Proof.Machine

theorem storePerformed {s : State} (ha : s.absent = none) {n : Nat} {f : InFlight} (hf : s.inflight[n]? = some f) :
    ((∃ e ∈ s.inflight.take n, State.homeOf e.space e.addr = State.homeOf f.space f.addr) →
        Gives (.memoryRequestPerform (.store n)) s fun z => z = s)
      ∧ ((∀ e ∈ s.inflight.take n, State.homeOf e.space e.addr ≠ State.homeOf f.space f.addr) → (f.space = .hbm → inAperture f.addr = false) →
          Gives (.memoryRequestPerform (.store n)) s fun z =>
            WroteBytes (s.callBack none f.space f.addr f.n) z f.space f.addr f.n f.value ∧ z.inflight = s.inflight.eraseIdx n) := by
  have hany : ((s.inflight.take n).any fun e => State.homeOf e.space e.addr == State.homeOf f.space f.addr) = true
      ↔ ∃ e ∈ s.inflight.take n, State.homeOf e.space e.addr = State.homeOf f.space f.addr := by simp only [List.any_eq_true, beq_iff_eq]
  have he : exec (.memoryRequestPerform (.store n)) s = settle (s.performStore n) := rfl
  rw [State.performStore, hf] at he
  dsimp only at he
  refine ⟨fun h => ?_, fun h hap => ?_⟩
  · rw [if_pos (hany.2 h)] at he
    exact gives_settled he ha rfl
  · rw [if_neg (mt hany.1 fun ⟨e, hm, hh⟩ => h e hm hh)] at he
    exact gives_settled he ((Calm.land _ f).2.1.trans ha)
      ⟨State.wroteBytes_land s _ f hap, (SameTransit.land (s.withQueue (s.inflight.eraseIdx n)) f).inflight⟩

theorem performances : Claims.performances := by
  intro s ha
  refine ⟨fun n f => storePerformed ha, fun g id q ps u h hp hi hop => ?_⟩
  have he := State.exec_performRequest h hp hi hop
  refine ⟨fun hz => ?_, fun hz hc hu => ?_⟩
  · rw [if_pos hz] at he
    exact gives_settled he ha rfl
  rw [if_neg (by rw [hz]; decide), State.performAt, hc] at he
  dsimp only at he ⊢
  rw [if_neg (by omega), if_neg (by omega)] at he
  have habout : MemoryAbout s u := by
    have := State.memoryAbout_checkAll s g q
    rwa [hc] at this
  refine ⟨fun hfull => ?_, fun hfull hcause hinst => ?_⟩
  · rw [hfull] at he
    exact gives_settled he hu rfl
  · rw [hfull, State.readAt_of_no_instance ((State.instanceOf_of_about habout ..).trans hinst) hcause] at he
    dsimp only at he
    rw [if_neg (by decide), if_neg (by omega)] at he
    have hmem := (MemoryOnly.piecesHome u (elemAgent g) ps).trans (State.memoryOnly_correctPieces _ g ps)
    exact gives_settled he ((State.absent_answer ..).trans (hmem.calm.2.1.trans hu))
      (State.answered_answer h (State.reqs_of_about (habout.trans hmem.about) g) _)

end Sys2Proof.Proofs

end

section
/-! PROOFS. Replies, named accesses and stalls (R238, R239, R251, R257): the rest of O42. -/

set_option autoImplicit false

namespace Sys2Proof.Machine

/-! ## Replies, R251 and R257 -/

/-- What `deliver` makes of a token's destinations, R44 and R173. -/
theorem left_deliver_self (s : State) (g c n : Nat) (dst : BitVec 4) (t : Token) : Claims.Left s (s.deliver g c n dst dst t) g c n dst t := by
  by_cases hd : dst = 0
  · subst hd
    refine ⟨fun h => absurd rfl h, fun _ => ⟨(s.elem g).seq, ?_⟩⟩
    rw [State.deliver, if_pos rfl, ectx_modElem, State.ectx_modEctx_self]
    exact SMap.get?_set_self ..
  · rw [State.deliver, if_neg hd]
    exact ⟨fun _ d col p _ hcol hp => (edges_foldl g c t.tag.col.toNat t.toBeats t.tag.col.isLt _ (maskPorts_spec _).1 (maskPorts_spec _).2 s).2
      d col p hcol hp, fun h => absurd h hd⟩

/-- A delivery leaves the requests of its element as they are. -/
theorem State.reqs_deliver (s : State) (g c n : Nat) (dst : BitVec 4) (t : Token) : ((s.deliver g c n dst dst t).elem g).reqs = (s.elem g).reqs := by
  by_cases hd : dst = 0
  · rw [State.deliver, if_pos hd, State.elem_modElem_self]; rfl
  · rw [State.deliver, if_neg hd]
    have h := congrArg Elem.reqs (edges_foldl g c t.tag.col.toNat t.toBeats t.tag.col.isLt ((s.elem g).resultPorts c t.tag.col.toNat dst)
      (maskPorts_spec _).1 (maskPorts_spec _).2 s).1.2.2
    exact h

theorem State.elem_dropRequest (s : State) (g id : Nat) :
    (s.dropRequest g id).elem g = { s.elem g with reqs := (s.elem g).reqs.filter (·.id != id) } := State.elem_modElem_self ..

theorem State.mem_reqs_dropRequest {s : State} {g id : Nat} {r : Request} :
    r ∈ ((s.dropRequest g id).elem g).reqs ↔ r ∈ (s.elem g).reqs ∧ r.id ≠ id := by
  simp [State.elem_dropRequest]

/-- A token leaves a slot alike whether or not a request of the element has gone. -/
theorem left_of_dropRequest {s z : State} {g id c n : Nat} {dst : BitVec 4} {t : Token} (h : Claims.Left (s.dropRequest g id) z g c n dst t) :
    Claims.Left s z g c n dst t := by
  have hedge (d col p : Nat) : (s.dropRequest g id).edge g d col p = s.edge g d col p := by rw [State.edge, State.elem_dropRequest]; rfl
  have hports (col : Nat) : ((s.dropRequest g id).elem g).resultPorts c col dst = (s.elem g).resultPorts c col dst := by
    rw [State.elem_dropRequest]; rfl
  obtain ⟨hout, hlatch⟩ := h
  simp only [hedge, hports] at hout
  exact ⟨hout, hlatch⟩

/-- The lane of the memory port after a token has entered it. -/
theorem State.source_inject (s : State) (h : Nat) (t : Token) :
    (s.inject h 7 t).source h 7 t.tag.ctx.toNat t.tag.col.toNat
      = { s.source h 7 t.tag.ctx.toNat t.tag.col.toNat with beats := (s.source h 7 t.tag.ctx.toNat t.tag.col.toNat).beats ++ t.toBeats } := by
  show SMap.getD ((s.inject h 7 t).elem h).ports _ _ = _
  rw [State.inject, State.modSource, State.elem_modElem_self]
  exact SMap.getD_set_self ..

theorem State.source_dropRequest (s : State) (g id h c col : Nat) : (s.dropRequest g id).source h 7 c col = s.source h 7 c col := by
  show SMap.getD ((s.dropRequest g id).elem h).ports _ _ = SMap.getD (s.elem h).ports _ _
  by_cases e : h = g
  · subst e; rw [State.elem_dropRequest]
  · rw [State.dropRequest, State.elem_modElem_of_ne _ _ e]

theorem State.reqs_inject (s : State) (g h : Nat) (t : Token) : ((s.inject h 7 t).elem g).reqs = (s.elem g).reqs := by
  rw [State.inject, State.modSource]
  by_cases e : g = h
  · subst e; rw [State.elem_modElem_self]
  · rw [State.elem_modElem_of_ne _ _ e]

end Sys2Proof.Machine

namespace Sys2Proof.Proofs
open Sys2Proof.Machine

theorem replies : Claims.replies := by
  intro s g id q t h hp hearly
  have he : exec (.memoryReply g id) s = .next (s.replyRequest g id) := rfl
  rw [State.replyRequest, h] at he
  dsimp only at he
  rw [hp] at he
  dsimp only at he
  rw [hearly, if_neg (by decide)] at he
  refine ⟨fun hop hroom => ?_, fun dst hop hdst => ?_⟩
  · rw [if_neg hop, hroom, if_pos rfl] at he
    refine ⟨_, he, left_of_dropRequest (left_deliver_self ..), fun r => ?_⟩
    rw [State.reqs_deliver, State.mem_reqs_dropRequest]
  · rw [if_pos hop, hdst] at he
    refine ⟨_, he, ?_, fun r => ?_⟩
    · rw [State.source_inject, State.source_dropRequest]
    · rw [State.reqs_inject, State.mem_reqs_dropRequest]

end Sys2Proof.Proofs

namespace Sys2Proof.Machine

/-! ## Stalls, R239 -/

/-- No write of a block's delays its commit. -/
def State.NoStall (s : State) : Prop := ∀ i ∈ s.insts, i.stall = none

theorem State.stallCommit_of_noStall {s : State} (h : s.NoStall) (g id : Nat) : s.stallCommit g id = s := by
  unfold State.stallCommit
  split
  · rfl
  · next i hi =>
    have hstall := List.find?_some hi
    rw [h i (List.mem_of_find?_eq_some hi)] at hstall
    exact absurd hstall Bool.false_ne_true

theorem State.NoStall.pauseFrozen {s : State} (h : s.NoStall) (c : Nat) : (s.pauseFrozen c).NoStall := by
  intro i hi
  obtain ⟨j, hj, rfl⟩ := List.mem_map.1 hi
  dsimp only
  split
  · rw [h j hj]; rfl
  · exact h j hj

section
variable {s : State} {g id : Nat} {q : Request} {f : Descriptor}

/-- The timeout of a named request whose descriptor stands. -/
theorem State.stallOut_eq (h : s.request? g id = some q) (hf : s.fold? q.ctx (stampS q.a0) = some f) (hop : 79 ≤ q.op ∧ q.op ≤ 81) {since : BitVec 64}
    (hw : q.state = .waiting since) : s.stallOut g id
      = if f.lay.bound < ((s.tile (gidTile g)).cycle - since).toNat then s.failRequest g q 0x0B (f.lay.normal q.a0) else s := by
  rw [State.stallOut, h]
  dsimp only
  rw [hf]
  simp only [hw, ReqState.exceeds, hop, true_and, decide_eq_true_eq]

/-- Noting a cause that is not itself an error of the machine does nothing, R363. -/
theorem State.noteError_of_not_error (s : State) (t : Nat) {c : Nat} (h15 : c ≠ 0x15) (h18 : c ≠ 0x18) : s.noteError t c = s := by
  unfold State.noteError
  rw [if_pos ⟨h15, h18⟩]

/-- A request after a change of every request of its element that keeps their numbers. -/
theorem State.request_of_map {u : State} {F : Request → Request} (hF : ∀ r, (F r).id = r.id) (hu : (u.elem g).reqs = (s.elem g).reqs.map F)
    (h : s.request? g id = some q) : u.request? g id = some (F q) := by
  rw [State.request?, hu, List.find?_map, show ((fun r : Request => r.id == id) ∘ F) = fun r => r.id == id from funext fun r => by simp [hF],
    show (s.elem g).reqs.find? (fun r => r.id == id) = some q from h]
  rfl

/-- The state in which request `id` has failed outside of blocks, before the counts of its region stop, R252. -/
def State.failed (s : State) (g id : Nat) (q : Request) (x : ElemFault) : State :=
  (((s.modRequest g id fun q => { q with state := .faulted }).tick.modElem g fun e => match e.fault with
    | none => { e with fault := some x }
    | some _ => { e with faults := e.faults ++ [x] }).modEctx g q.ctx fun x => { x with stopped := true })

theorem State.failRequest_eq {cause val : Nat} (hid : q.id = id) (hinst : s.instanceOf g q.ctx q.slot q.src = none) (h15 : cause ≠ 0x15) (h18 : cause ≠ 0x18) :
    s.failRequest g q cause val
      = (s.failed g id q ⟨q.ctx, q.slot, cause, word val, some id, false, s.serial, none⟩).pauseFrozen q.ctx := by
  subst hid
  rw [State.failRequest, hinst]
  dsimp only
  rw [State.elemFault, State.noteError_of_not_error _ _ h15 h18]
  rfl

theorem State.elem_failed (s : State) (g id : Nat) (q : Request) (x : ElemFault) :
    ((s.failed g id q x).elem g).reqs = ((s.modRequest g id fun q => { q with state := .faulted }).elem g).reqs
      ∧ ((s.failed g id q x).elem g).fault = some ((s.elem g).fault.getD x) := by
  rw [State.failed, elem_modEctx, State.elem_modElem_self]
  have hfault : ((s.modRequest g id fun q => { q with state := .faulted }).tick.elem g).fault = (s.elem g).fault := by
    show ((s.modRequest g id fun q => { q with state := .faulted }).elem g).fault = _
    rw [State.modRequest, State.elem_modElem_self]
  rw [← hfault]
  split
  · next h => exact ⟨rfl, by rw [h]; rfl⟩
  · next h => exact ⟨rfl, by rw [h]; rfl⟩

/-- A request that has failed stays faulted when the counts of its region stop. -/
theorem State.request_failed (h : s.request? g id = some q) (x : ElemFault) (c : Nat) :
    ((s.failed g id q x).pauseFrozen c).request? g id = some { q with state := .faulted } := by
  have hfail : (s.failed g id q x).request? g id = some { q with state := .faulted } :=
    (State.request_of_elem (s.elem_failed g id q x).1).trans (State.request_modRequest (f := fun r => { r with state := .faulted }) (fun _ => rfl) h)
  refine (State.request_of_map (fun r => ?_) (congrArg Elem.reqs (State.elem_pauseFrozen ..)) hfail).trans (congrArg some ?_)
  · split <;> rfl
  · dsimp only [ReqState.hold]
    split
    · split <;> rfl
    · rfl

end

end Sys2Proof.Machine

namespace Sys2Proof.Proofs
open Sys2Proof.Machine

theorem stalls : Claims.stalls := by
  intro s g id q f since h hw hlo hhi hf hstall n
  have he : exec (.foldStallTimeout g id) s = .next ((s.stallOut g id).stallCommit g id) := rfl
  rw [State.stallOut_eq h hf ⟨hlo, hhi⟩ hw] at he
  refine ⟨fun hn => ?_, fun hn hinst => ?_⟩
  · rw [if_neg (Nat.not_lt.2 hn), State.stallCommit_of_noStall hstall] at he
    exact ⟨_, he, rfl⟩
  · rw [if_pos hn, State.failRequest_eq (State.id_of_request h) hinst (by decide) (by decide),
      State.stallCommit_of_noStall (State.NoStall.pauseFrozen (s := s.failed g id q _) hstall _)] at he
    refine ⟨_, he, ?_, State.request_failed h _ _,
      ⟨q.ctx, q.slot, 0x0B, word (f.lay.normal q.a0), some id, false, s.serial, none⟩, rfl, rfl, rfl, rfl, rfl, ?_⟩
    · show ((s.failed g id q _).ectx g q.ctx).stopped = true
      rw [State.failed, State.ectx_modEctx_self]
    · rw [State.elem_pauseFrozen]
      exact (s.elem_failed g id q _).2

end Sys2Proof.Proofs

end

section
/-! PROOFS. Named accesses at element-scope slots (R238): the last part of O42. -/

set_option autoImplicit false

namespace Sys2Proof.Machine

/-! ## The test of a header -/

section
variable {c sn : Nat} {h : NameHdr}

theorem namedTest_write_of_free (hfree : h.st = 0 ∨ (h.st = 2 ∧ h.stamp.toNat < sn)) :
    namedTest .write c h sn = (none, ⟨1, if c = 255 then 0 else c, BitVec.ofNat 64 sn⟩) := by rw [namedTest, if_pos hfree]

theorem namedTest_write_of_older (hst : h.st = 1) (hlt : h.stamp.toNat < sn) : namedTest .write c h sn = (some none, h) := by
  rw [namedTest, if_neg (by omega), if_pos ⟨hst, hlt⟩]

theorem namedTest_read_of_older {k : NamedKind} (hk : k ≠ .write) (hold : h.st = 0 ∨ h.stamp.toNat < sn) :
    namedTest k c h sn = (some none, h) := by
  cases k with
  | write => exact absurd rfl hk
  | read | peek => rw [namedTest, if_pos hold]; nofun

theorem namedTest_read_of_match {k : NamedKind} (hk : k ≠ .write) (hst : h.st ≠ 0) (heq : h.stamp.toNat = sn) :
    namedTest k c h sn = (none, if k = .read ∧ h.st = 1 ∧ c ≠ 255 then ⟨if h.cnt - 1 = 0 then 2 else 1, h.cnt - 1, h.stamp⟩ else h) := by
  cases k with
  | write => exact absurd rfl hk
  | read | peek =>
    rw [namedTest, if_neg (by omega), if_neg (by omega)]
    · split <;> rfl
    · nofun

end

/-- Byte `k` of a number cut to `n` bytes. -/
theorem byte_mod_of_lt (x : Nat) {n k : Nat} (h : k < n) : BitVec.ofNat 8 (x % 256 ^ n / 256 ^ k) = BitVec.ofNat 8 (x / 256 ^ k) := by
  refine BitVec.eq_of_toNat_eq ?_
  obtain ⟨m, rfl⟩ := Nat.exists_eq_add_of_lt h
  rw [BitVec.toNat_ofNat, BitVec.toNat_ofNat, show 256 ^ (k + m + 1) = 256 ^ k * 256 ^ (m + 1) from by ring, Nat.mod_mul_right_div_self]
  exact Nat.mod_mod_of_dvd _ (Dvd.intro_left (256 ^ m) rfl)

namespace State

/-! ## A slot in the local memory of its element -/

theorem landWhere_of_nothing {s : State} (h : s.inflight = []) (want : InFlight → Bool) : s.landWhere want = s := by
  rw [landWhere, h]
  cases s
  cases h
  rfl

theorem piecesHome_localMem {s : State} (h : s.inflight = []) (agent g a n : Nat) : s.piecesHome agent [(.localMem g, a, n)] = s := by
  show (s.landWhere _).callBack none (.localMem g) a n = s
  rw [landWhere_of_nothing h]
  exact if_neg nofun

theorem readPieces_localMem (s : State) (g a n : Nat) : s.readPieces [(.localMem g, a, n)] = Memory.readN (s.elem g).store.bytes a n := by
  show s.bytesAt (.localMem g) a n + 256 ^ n * 0 = _
  rw [bytesAt, if_neg (by simp)]
  rfl

theorem piecesCause_localMem {s : State} {g a n : Nat} (h : (s.elem g).store.readCause a n = none) : s.piecesCause [(.localMem g, a, n)] = none := by
  have hstore : (s.store (.localMem g)).readCause a n = none := h
  simp [piecesCause, hstore]

/-- The place of line `line` of an element-scope statement. -/
def localSlot (g : Nat) (f : Descriptor) (line : Nat) : SlotAt := ⟨line, [(.localMem g, 32 * line, f.lay.z)], none⟩

section
variable {s : State} {g c x v : Nat} {f : Descriptor}

/-- The header that an access of name `x` tests. -/
def nameHeader (s : State) (g : Nat) (f : Descriptor) (x : Nat) : NameHdr :=
  SMap.getD (s.elem g).names (f.lay.line (f.lay.slotOf (f.lay.normal x))) {}

/-- The statement of a name has its slots in the local memory of each element and takes accesses. -/
structure LocalName (s : State) (c x : Nat) (f : Descriptor) : Prop where
  queue : s.inflight = []
  found : s.fold? c (stampS x) = some f
  grown : f.growing = false
  check : f.check ≠ 2
  scope : f.lay.scope = 0

theorem slotAt_local (hn : s.LocalName c x f) (line : Nat) (need : Need) : s.slotAt g f line need = (.ok (localSlot g f line), s) := by
  rw [slotAt, hn.scope]; rfl

theorem headerAt_local (hn : s.LocalName c x f) (line : Nat) : s.headerAt g f (localSlot g f line) = SMap.getD (s.elem g).names line {} := if_pos hn.scope

theorem setHeader_local (hn : s.LocalName c x f) (u : State) (line : Nat) (h : NameHdr) :
    u.setHeader g f (localSlot g f line) h = u.modElem g fun e => { e with names := SMap.set e.names line h } := if_pos hn.scope

theorem piecesHome_local (hn : s.LocalName c x f) (agent line : Nat) : s.piecesHome agent (localSlot g f line).data = s :=
  piecesHome_localMem hn.queue ..

/-- What follows the test of the header, R238: `r` is its answer. -/
def localOutcome (s : State) (g c : Nat) (f : Descriptor) (k : NamedKind) (x v : Nat) (r : Option (Option Nat) × NameHdr) : NamedResult × State :=
  let sn := f.lay.normal x
  let p := localSlot g f (f.lay.line (f.lay.slotOf sn))
  match r with
  | (some none, _) => (.wait, s)
  | (some (some cause), _) => (.fault cause sn, s)
  | (none, h') =>
    if k = .write then (.done 0, (s.writePieces c (v % 256 ^ f.lay.z) p.data).setHeader g f p h')
    else
      match s.piecesCause p.data with
      | some cause => (.fault cause (if f.lay.scope = 2 then s.lineVa c p.line else 32 * p.line), s)
      | none =>
        let u := s.correctPieces g p.data
        (.done (u.readPieces p.data), if h' = s.nameHeader g f x then u else u.setHeader g f p h')

theorem namedAccess_local (hn : s.LocalName c x f) (k : NamedKind) :
    s.namedAccess g c k x v = s.localOutcome g c f k x v (namedTest k f.lay.c (s.nameHeader g f x) (f.lay.normal x)) := by
  rw [namedAccess, hn.found]
  dsimp only
  rw [hn.grown, if_neg (by decide), if_neg hn.check, slotAt_local hn]
  dsimp only
  rw [piecesHome_local hn, headerAt_local hn]
  rfl

theorem namedAccess_of_wait (hn : s.LocalName c x f) {k : NamedKind} {h : NameHdr}
    (ht : namedTest k f.lay.c (s.nameHeader g f x) (f.lay.normal x) = (some none, h)) : s.namedAccess g c k x v = (.wait, s) := by
  rw [namedAccess_local hn, ht]; rfl

theorem namedAccess_of_write (hn : s.LocalName c x f) {h : NameHdr}
    (ht : namedTest .write f.lay.c (s.nameHeader g f x) (f.lay.normal x) = (none, h)) :
    s.namedAccess g c .write x v = (.done 0, (s.performFor c (.localMem g) (32 * f.lay.line (f.lay.slotOf (f.lay.normal x))) f.lay.z
      (v % 256 ^ f.lay.z)).modElem g fun e => { e with names := SMap.set e.names (f.lay.line (f.lay.slotOf (f.lay.normal x))) h }) := by
  rw [namedAccess_local hn, ht, localOutcome]
  dsimp only
  rw [if_pos rfl, setHeader_local hn]
  dsimp only [localSlot, writePieces]
  rw [Nat.mod_mod]

/-- A read of line `line` has changed of its element only the header of that line, which is `h` now, and marks and codes of memories. -/
structure ReadDone (s u : State) (g line : Nat) (h : NameHdr) : Prop where
  insts : u.insts = s.insts
  absent : u.absent = s.absent
  reqs : (u.elem g).reqs = (s.elem g).reqs
  bytes : (u.elem g).store.bytes = (s.elem g).store.bytes
  header : SMap.getD (u.elem g).names line {} = h

theorem readDone_of_corrected {u : State} (hm : MemoryOnly s u) (hb : SameBytes s u) (line : Nat) (h : NameHdr) :
    ReadDone s (if h = SMap.getD (s.elem g).names line {} then u else u.modElem g fun e => { e with names := SMap.set e.names line h }) g line h := by
  have hinsts : u.insts = s.insts := hm.same State.insts fun _ _ _ _ _ _ _ _ _ _ _ => rfl
  have hreqs := reqs_of_about hm.about g
  have hbytes := hb (.localMem g)
  have hnames : (u.elem g).names = (s.elem g).names := by
    have e := congrArg Elem.names (hm.elem g)
    exact e
  split
  · next e => exact ⟨hinsts, hm.calm.2.1, hreqs, hbytes, by rw [hnames, e]⟩
  · refine ⟨hinsts, hm.calm.2.1, ?_, ?_, ?_⟩
    all_goals rw [elem_modElem_self]
    · exact hreqs
    · exact hbytes
    · exact SMap.getD_set_self ..

theorem namedAccess_of_read (hn : s.LocalName c x f) {k : NamedKind} {h : NameHdr} (hk : k ≠ .write)
    (ht : namedTest k f.lay.c (s.nameHeader g f x) (f.lay.normal x) = (none, h)) {line : Nat} (hl : f.lay.line (f.lay.slotOf (f.lay.normal x)) = line)
    (hc : (s.elem g).store.readCause (32 * line) f.lay.z = none) :
    ∃ u, ReadDone s u g line h ∧ s.namedAccess g c k x v = (.done (Memory.readN (s.elem g).store.bytes (32 * line) f.lay.z), u) := by
  subst hl
  have hbytes : SameBytes s (s.correctPieces g (localSlot g f (f.lay.line (f.lay.slotOf (f.lay.normal x)))).data) :=
    (State.corrected_correct ..).1
  refine ⟨_, readDone_of_corrected (memoryOnly_correctPieces s g _) hbytes _ h, ?_⟩
  rw [namedAccess_local hn, ht, localOutcome]
  dsimp only
  rw [if_neg hk, show s.piecesCause (localSlot g f (f.lay.line (f.lay.slotOf (f.lay.normal x)))).data = none from piecesCause_localMem hc]
  dsimp only
  rw [setHeader_local hn]
  refine congrArg (fun n => (NamedResult.done n, _)) ((readPieces_localMem ..).trans ?_)
  exact congrArg (fun m => Memory.readN m _ _) (hbytes (.localMem g))

end

/-! ## A named request, R238 -/

/-- The kind of a named access, by its operation. -/
def kindOf (op : Nat) : NamedKind := if op = 79 then .read else if op = 81 then .peek else .write

section
variable {s u : State} {g id : Nat} {q : Request}

theorem instanceOf_of_insts (h : u.insts = s.insts) (g c n : Nat) (t : Tag) : u.instanceOf g c n t = s.instanceOf g c n t := by
  rw [instanceOf, h]; rfl

theorem nameHeld_of_no_instance (h : s.instanceOf g q.ctx q.slot q.src = none) : s.nameHeld g q = false := by
  rw [nameHeld, heldBefore_of_no_instance h]
  split <;> rfl

theorem nameView_of_no_instance (h : s.instanceOf g q.ctx q.slot q.src = none) (v : Nat) : s.nameView g q v = v := by
  rw [nameView, if_pos (heldBefore_of_no_instance h)]

/-- A named request that is tried for the first time, outside of blocks. -/
structure Named (s : State) (g id : Nat) (q : Request) : Prop where
  request : s.request? g id = some q
  pending : q.state = .pending
  inst : q.inst = none
  alone : s.instanceOf g q.ctx q.slot q.src = none
  op : 79 ≤ q.op ∧ q.op ≤ 81

/-- What its access answers decides what becomes of it. -/
theorem tryNamed_eq (hq : s.Named g id q) : s.tryNamed g id = match s.namedAccess g q.ctx (kindOf q.op) q.a0 q.data with
    | (.fault c v, u) => u.failRequest g q c v
    | (.done v, u) => u.answer g q (if kindOf q.op = .write then q.ack else q.reply false (u.nameView g q v))
    | (.wait, u) =>
      u.modRequest g id fun r => { r with state := r.state.await (u.isGrowing q || u.regionFrozen g q.ctx) (u.tile (gidTile g)).cycle } := by
  obtain ⟨h, hp, hi, halone, hlo, hhi⟩ := hq
  rw [tryNamed, h]
  dsimp only
  rw [if_neg (by rw [hi]; simp; omega), hp]
  dsimp only
  rw [nameHeld_of_no_instance halone, if_neg (by simp)]
  rfl

theorem tryNamed_of_write (hq : s.Named g id q) (hop : q.op = 80) (ha : s.namedAccess g q.ctx .write q.a0 q.data = (.done 0, u)) :
    s.tryNamed g id = u.answer g q q.ack := by
  rw [tryNamed_eq hq, hop, show kindOf 80 = .write from rfl, ha]; rfl

theorem tryNamed_of_read (hq : s.Named g id q) {k : NamedKind} (hk : kindOf q.op = k) (hw : k ≠ .write) {v : Nat}
    (ha : s.namedAccess g q.ctx k q.a0 q.data = (.done v, u)) (hu : u.insts = s.insts) : s.tryNamed g id = u.answer g q (q.reply false v) := by
  rw [tryNamed_eq hq, hk, ha]
  dsimp only
  rw [if_neg hw, nameView_of_no_instance ((instanceOf_of_insts hu ..).trans hq.alone)]

theorem tryNamed_of_wait (hq : s.Named g id q) (ha : s.namedAccess g q.ctx (kindOf q.op) q.a0 q.data = (.wait, s)) (hgrow : s.isGrowing q = false)
    (hz : s.regionFrozen g q.ctx = false) : s.tryNamed g id
      = s.modRequest g id fun r => { r with state := r.state.await false (s.tile (gidTile g)).cycle } := by
  rw [tryNamed_eq hq, ha]
  dsimp only
  rw [hgrow, hz]; rfl

theorem elem_answer (s : State) (g : Nat) (q : Request) (t : Token) :
    ((s.answer g q t).elem g).names = (s.elem g).names ∧ ((s.answer g q t).elem g).store = (s.elem g).store := by
  rw [answer, modRequest, elem_modElem_self]
  exact ⟨rfl, rfl⟩

end

/-- The local memory of an element after a write of the low `n` bytes of `v` at `a`. -/
theorem read_performFor_localMem (s : State) (c g a n v b : Nat) :
    Memory.read ((s.performFor c (.localMem g) a n (v % 256 ^ n)).elem g).store.bytes b
      = if a ≤ b ∧ b < a + n then BitVec.ofNat 8 (v / 256 ^ (b - a)) else Memory.read (s.elem g).store.bytes b := by
  have hwrote : Memory.read ((s.performFor c (.localMem g) a n (v % 256 ^ n)).elem g).store.bytes b
      = if Space.localMem g = .localMem g ∧ a ≤ b ∧ b < a + n then BitVec.ofNat 8 (v % 256 ^ n / 256 ^ (b - a)) else Memory.read (s.elem g).store.bytes b :=
    (congrArg (Memory.read · b) (bytes_performFor s c (.localMem g) (.localMem g) a n _)).trans
      (wroteBytes_perform s (.localMem g) a n (v % 256 ^ n) nofun (.localMem g) b)
  rw [hwrote]
  by_cases h : a ≤ b ∧ b < a + n
  · rw [if_pos ⟨rfl, h⟩, if_pos h, byte_mod_of_lt v (by omega)]
  · rw [if_neg (fun k => h k.2), if_neg h]

end State

end Sys2Proof.Machine

namespace Sys2Proof.Proofs
open Sys2Proof.Machine

section
variable {s : State} {g id : Nat} {q : Request} {f : Descriptor}

theorem namedWrite (ha : s.absent = none) (hq : s.Named g id q) (hn : s.LocalName q.ctx q.a0 f) (hop : q.op = 80)
    (hfree : (s.nameHeader g f q.a0).st = 0 ∨ ((s.nameHeader g f q.a0).st = 2 ∧ (s.nameHeader g f q.a0).stamp.toNat < f.lay.normal q.a0)) :
    let line := f.lay.line (f.lay.slotOf (f.lay.normal q.a0))
    Gives (.namedAccess g id) s fun z => Claims.Answered z g id q q.ack
      ∧ SMap.getD (z.elem g).names line {} = ⟨1, if f.lay.c = 255 then 0 else f.lay.c, BitVec.ofNat 64 (f.lay.normal q.a0)⟩
      ∧ ∀ b, Memory.read (z.elem g).store.bytes b
        = if 32 * line ≤ b ∧ b < 32 * line + f.lay.z then BitVec.ofNat 8 (q.data / 256 ^ (b - 32 * line)) else Memory.read (s.elem g).store.bytes b := by
  intro line
  have hmem := MemoryOnly.performFor s q.ctx (.localMem g) (32 * line) f.lay.z (q.data % 256 ^ f.lay.z)
  have he : exec (.namedAccess g id) s = settle (s.tryNamed g id) := rfl
  rw [State.tryNamed_of_write hq hop (State.namedAccess_of_write hn (namedTest_write_of_free hfree))] at he
  refine gives_settled he ((State.absent_answer ..).trans (hmem.calm.2.1.trans ha)) ⟨State.answered_answer hq.request ?_ _, ?_, fun b => ?_⟩
  · rw [State.elem_modElem_self]
    exact State.reqs_of_about hmem.about g
  · rw [(State.elem_answer ..).1, State.elem_modElem_self]
    exact SMap.getD_set_self ..
  · rw [(State.elem_answer ..).2, State.elem_modElem_self]
    exact State.read_performFor_localMem ..

theorem namedRead (ha : s.absent = none) (hq : s.Named g id q) (hn : s.LocalName q.ctx q.a0 f) (hop : q.op = 79 ∨ q.op = 81)
    (hst : (s.nameHeader g f q.a0).st ≠ 0) (heq : (s.nameHeader g f q.a0).stamp.toNat = f.lay.normal q.a0) :
    let line := f.lay.line (f.lay.slotOf (f.lay.normal q.a0))
    let h := s.nameHeader g f q.a0
    (s.elem g).store.readCause (32 * line) f.lay.z = none → Gives (.namedAccess g id) s fun z =>
      Claims.Answered z g id q (q.reply false (Memory.readN (s.elem g).store.bytes (32 * line) f.lay.z))
        ∧ (z.elem g).store.bytes = (s.elem g).store.bytes
        ∧ SMap.getD (z.elem g).names line {}
          = if q.op = 79 ∧ h.st = 1 ∧ f.lay.c ≠ 255 then ⟨if h.cnt - 1 = 0 then 2 else 1, h.cnt - 1, h.stamp⟩ else h := by
  intro line h hc
  have hk : State.kindOf q.op ≠ .write ∧ (State.kindOf q.op = .read ↔ q.op = 79) := by
    rcases hop with e | e <;> rw [e] <;> decide
  obtain ⟨u, hu, hacc⟩ := State.namedAccess_of_read (v := q.data) hn hk.1 (namedTest_read_of_match hk.1 hst heq) rfl hc
  have he : exec (.namedAccess g id) s = settle (s.tryNamed g id) := rfl
  rw [State.tryNamed_of_read hq rfl hk.1 hacc hu.insts] at he
  refine gives_settled he ((State.absent_answer ..).trans (hu.absent.trans ha)) ⟨State.answered_answer hq.request hu.reqs _, ?_, ?_⟩
  · rw [(State.elem_answer ..).2]
    exact hu.bytes
  · rw [(State.elem_answer ..).1, hu.header]
    simp only [hk.2]
    rfl

theorem namedWait (ha : s.absent = none) (hq : s.Named g id q) (hn : s.LocalName q.ctx q.a0 f) {h : NameHdr}
    (ht : namedTest (State.kindOf q.op) f.lay.c (s.nameHeader g f q.a0) (f.lay.normal q.a0) = (some none, h)) (hz : s.regionFrozen g q.ctx = false) :
    Gives (.namedAccess g id) s fun z => z.request? g id = some { q with state := .waiting (s.tile (gidTile g)).cycle } ∧ SameBytes s z := by
  have hgrow : s.isGrowing q = false := by
    rw [State.isGrowing, hn.found]
    exact hn.grown
  have he : exec (.namedAccess g id) s = settle (s.tryNamed g id) := rfl
  rw [State.tryNamed_of_wait hq (State.namedAccess_of_wait hn ht) hgrow hz] at he
  refine gives_settled he ha ⟨?_, fun sp => ?_⟩
  · refine (State.request_modRequest (f := fun r => { r with state := r.state.await false (s.tile (gidTile g)).cycle }) (fun _ => rfl) hq.request).trans ?_
    rw [hq.pending]; rfl
  · rw [State.modRequest, State.store_modElem _ _ _ rfl]

end

theorem namedAccesses : Claims.namedAccesses := by
  intro s g id q f ha h hp hi hinst hqueue hf hgrow hcheck hscope sn line hd free
  have hn : s.LocalName q.ctx q.a0 f := ⟨hqueue, hf, hgrow, hcheck, hscope⟩
  have hq (hop : 79 ≤ q.op ∧ q.op ≤ 81) : s.Named g id q := ⟨h, hp, hi, hinst, hop⟩
  refine ⟨fun hop hfree => namedWrite ha (hq (by omega)) hn hop hfree, fun hop hst heq hc => namedRead ha (hq (by omega)) hn hop hst heq hc, fun hop hz => ?_⟩
  rcases hop with ⟨hop, hst, hlt⟩ | ⟨hop, hold⟩
  · exact namedWait ha (hq (by omega)) hn (by rw [hop]; exact namedTest_write_of_older hst hlt) hz
  · exact namedWait ha (hq (by omega)) hn (namedTest_read_of_older (by rcases hop with e | e <;> rw [e] <;> decide) hold) hz

/-- Settles O42: what a request's event does before its own effect keeps the element's requests, so that the effect is read off its definition. -/
theorem memoryRequests : Obligations.MemoryRequests := ⟨performances, replies, namedAccesses, stalls⟩

end Sys2Proof.Proofs

end
